-- ==== Sys2Proof/Word.lean ====
section
/-! DEFINITION. The word types of the Swintarel module (R10, R16) and the sparse maps its stores are held in. -/

namespace Sys2Proof

/-- One byte (R10). -/
abbrev Byte := BitVec 8
/-- u16 of the manual's pseudocode. -/
abbrev U16 := BitVec 16
/-- u32 of the manual's pseudocode. -/
abbrev U32 := BitVec 32
/-- u64 of the manual's pseudocode. -/
abbrev U64 := BitVec 64
/-- A SHA-256 digest, read as the big-endian number of its 32 bytes (R11). -/
abbrev Digest := BitVec 256

/-- A sparse map from a key to a value: sorted by key, no key twice, no entry equal to the default
(the canonical form; `Sys2Proof.Machine.SMap.wf` says it). -/
abbrev SMap (α : Type) := List (Nat × α)

end Sys2Proof
end

