-- ==== Sys2Proof/Syntax.lean ====
section
/-! DEFINITION. The commands the module takes from outside, one constructor of `Instr` for each row of
spec/opcode_table.json, and the types of their operands. The table gives no operand: each command carries
what the rules let its surroundings supply (a register value, the bytes the host made visible, a sensor
reading, what a neighbour sent, the parameters of a Thakel operation). Assumption log 1. -/

namespace Sys2Proof

/-! ## Identities (R16) -/

/-- Logical core 0 to 127. -/
abbrev Core := Fin 128
/-- Physical core 0 to 143. -/
abbrev PhysCore := Fin 144
/-- Stack 0 to 11. -/
abbrev StackId := Fin 12
/-- Port: +x 0, −x 1, +y 2, −y 3, +z 4, −z 5. -/
abbrev PortId := Fin 6
/-- Gatehouse channel 0 to 15. -/
abbrev Chan := Fin 16
/-- Voltage domain 0 to 23, in the order of R413. -/
abbrev Domain := Fin 24

/-- A module coordinate (x, y, z) of the machine. -/
structure Coord where
  x : Nat
  y : Nat
  z : Nat
deriving DecidableEq, Repr

/-- A range of device addresses. -/
structure Range where
  base : Nat
  len : Nat
deriving DecidableEq, Repr

/-! ## The host link -/

/-- The half of an 8 B register that an access reaches (R362). -/
inductive RegPart where
  | whole | low | high
deriving DecidableEq, Repr

/-- Link width (R360). -/
inductive LinkWidth where
  | x16 | x8
deriving DecidableEq, Repr

/-- Link rate in GT/s (R360). -/
inductive LinkRate where
  | gt32 | gt16 | gt8
deriving DecidableEq, Repr

/-- The measured quantities of R419: i16 in 1/16 °C, W, 10 mV and the 24 domain voltages in mV. -/
structure Telemetry where
  junction : U16
  stack : U16
  powerW : U16
  volt10mV : U16
  domains : List U16
deriving DecidableEq, Repr

/-! ## What the module finds in a program image (R4, R45: the binary is no contract) -/

/-- A gradient buffer with its presence bitmap (R254). -/
structure GradBuf where
  bitmap : Nat
  tiles : Nat
deriving DecidableEq, Repr

/-- One row (lr, β1, β2, ε, λ) of an immediate table, as FP32 codes (R257). -/
structure ImmRow where
  lr : U32
  b1 : U32
  b2 : U32
  eps : U32
  lam : U32
deriving DecidableEq, Repr

/-- The immediate table of one update operation, with the ranges of device memory that the operation covers (R257,
R258). -/
structure ImmTable where
  op : U32
  rows : List ImmRow
  covers : List Range
deriving DecidableEq, Repr

/-- What an operation is to the units that wait for it: a cache operation (R219), an attention operation over cache slots
(R208), a memory-side reduction with its ranges (R247), the replica reduction of one of the image's replica buffers (R297),
or any other. -/
inductive OpKind where
  | cache
  | walker
  | reduce (ranges : List Range)
  | replica (buffer : Nat)
  | other
deriving DecidableEq, Repr

/-- An operation of a step program: its index, what it is, and the commands of it that end on this module (R49, R50). -/
structure OpDecl where
  op : Nat
  kind : OpKind
  parts : Nat
deriving DecidableEq, Repr

/-- One step program: its number of operations N (R49), the operations that this module takes part in, and its update
operations' immediate tables. -/
structure StepProgram where
  opCount : Nat
  ops : List OpDecl
  imms : List ImmTable
deriving DecidableEq, Repr

/-- The two carry areas of one gradient buffer (R303): base, presence bitmap and count address of each. -/
structure CarryArea where
  base : Nat
  bitmap : Nat
  count : Nat
deriving DecidableEq, Repr

/-- A gradient buffer of the replica reduction, its replica buffer, its carry areas (R297, R303), and the reduction's spill
area with its incoming volume (R251). `wide` is true for FP32 elements and false for BF16. -/
structure ReplicaBuf where
  grad : Nat
  bitmap : Nat
  tiles : Nat
  wide : Bool
  dest : Nat
  destBitmap : Nat
  carry0 : CarryArea
  carry1 : CarryArea
  spill : Range
  volume : Nat
deriving DecidableEq, Repr

/-- Cache element format (R214). -/
inductive CacheFmt where
  | e4m3 | e5m2 | bf16
deriving DecidableEq, Repr

/-- The key/value cache that a program declares (R214). -/
structure CacheDecl where
  heads : Nat
  dim : Nat
  layers : Nat
  fmt : CacheFmt
  slots : Nat
  pages : Nat
  ns : U64
  publish : Bool
  frameBase : Nat
  tokBase : Nat
  recBase : Nat
  slotBase : Nat
deriving DecidableEq, Repr

/-- The batch area (R331): base of the BATCH range, slot stride, and the section offset of each channel. -/
structure BatchDecl where
  area : Nat
  stride : Nat
  sections : List Nat
  ghPage : Nat
deriving DecidableEq, Repr

/-- Who reads or writes a region of a drain file (R111, R112). -/
inductive RegionUser where
  | drain | stream | trellis
deriving DecidableEq, Repr

/-- The kinds of drain-file regions (R112): one unit's own; a ring of slots of `lines` lines that hands data from a writer
to a reader; and the group region of R69. -/
inductive RegionKind where
  | own (user : RegionUser)
  | handOff (writer reader : RegionUser) (lines : Nat)
  | group
deriving DecidableEq, Repr

/-- A region: its core, its first line of 128 B and its lines. -/
structure Region where
  core : Nat
  first : Nat
  lines : Nat
  kind : RegionKind
deriving DecidableEq, Repr

/-- The declarations of a program image that the module acts on. `blocked` names the 32 KiB groups of
scratchpads that are blocked, by core and group, every other group being linear (R128). `admissionTables` are the host admission tables
(R370), each with its extent. -/
structure Image where
  shape : Coord
  hashed : Nat
  corePartBytes : List Nat
  unorderedFloat : Bool
  selector : List (U64 × Nat)
  programs : List StepProgram
  stateRanges : List Range
  stepRanges : List Range
  batchRanges : List Range
  heldWritten : List Range
  admissionTables : List Range
  counterBase : Nat
  buffers : List GradBuf
  tokenAreas : List (Nat × Nat)
  shadowAreas : List (Nat × Nat)
  blocked : List (Nat × Nat)
  regions : List Region
  replica : List ReplicaBuf
  cache : Option CacheDecl
  batch : Option BatchDecl
deriving DecidableEq, Repr

/-- What the module reads when it fetches a descriptor (R371, R366, R341): the descriptor, the image's
declarations, the channel and ring tables, and for each channel its ring's producer and consumer. -/
structure JobFetchIn where
  desc : BitVec 2048
  image : Image
  channels : List (BitVec 1024)
  rings : List (BitVec 256)
  ringCounts : List (U64 × U64)
deriving DecidableEq, Repr

/-- What another module carries into the identity barrier of a bank load (R145): its local refusal, or the bank and the
image's identity. -/
inductive BankEntry where
  | refusal
  | ready (bank : Bool) (identity : Digest)
deriving DecidableEq, Repr

/-- What reaches a module at the release of the identity barrier: at its root, the marshal, the entries of the other
modules; elsewhere the outcome. -/
inductive BankBarrierIn where
  | entries (others : List BankEntry)
  | outcome (pass : Bool)
deriving DecidableEq, Repr

/-- What one other module contributes to the job-start barrier (R52): a refusal, or its image identity
and the digest of its rink-wide fields (R373). -/
inductive StartEntry where
  | refusal
  | ready (identity : Digest) (fields : Digest)
deriving DecidableEq, Repr

/-! ## Self-test and repair -/

/-- A row of one pseudo-channel's bank (R229). -/
structure RowAddr where
  stack : StackId
  pc : Nat
  sid : Nat
  bank : Nat
  row : Nat
deriving DecidableEq, Repr

/-- A wavelength of a fibre of a port. -/
structure Wave where
  port : PortId
  fibre : Fin 16
  wave : Fin 9
deriving DecidableEq, Repr

/-- A state of the save record (R432). -/
inductive SaveState where
  | idle | saving | testing | restoring
deriving DecidableEq, Repr

/-- A reset that strikes while a block is saved, marched or restored (R432, R433); `bad` holds the device words
(address / 32) whose saved copy reads uncorrectable. -/
structure SaveCut where
  stack : StackId
  start : Nat
  len : Nat
  state : SaveState
  bad : List Nat
deriving DecidableEq, Repr

/-- A lane of a stack's HBM PHY that shows bit errors in its loop-back (R434). -/
structure PhyLane where
  stack : StackId
  lane : Byte
deriving DecidableEq, Repr

/-- What a health sweep finds (R431, R434, R437), and the block in which a reset cuts it short, if one does. -/
structure SweepFindings where
  failedCores : List PhysCore
  failedRows : List RowAddr
  deadWaves : List Wave
  badLanes : List PhyLane
  cut : Option SaveCut
deriving DecidableEq, Repr

/-! ## Rink formation -/

/-- What a module learns of another module of its rink at formation (R391), and whether all of that module's connected
ports are locked (R40). -/
structure PeerSite where
  form : Byte
  extent : Coord
  activeInit : U32
  epoch : U64
  coord : Coord
  reachable : Bool
  locked : Bool
deriving DecidableEq, Repr

/-- The facts of one formation attempt: the peers heard of, the modules of the machine's other rinks whose connected
ports are all locked, the time derived from the time root (R40), whether 0.5 s have passed since the Optical
phase, and whether a marshal's beat is heard on the rink already, as a standby module hears it (R325). -/
structure FormationIn where
  peers : List PeerSite
  others : List Coord
  rootTime : U64
  optical500ms : Bool
  beating : Bool
deriving DecidableEq, Repr

/-- Why a formation is tried again (R391). -/
inductive RetryCause where
  | portUp | amendment
deriving DecidableEq, Repr

/-! ## The fabric -/

/-- Traffic classes in the order of R275. -/
inductive TrafficClass where
  | recovery | control | collective | offload
deriving DecidableEq, Repr

/-- A travel direction in one dimension. -/
inductive Dir where
  | plus | minus
deriving DecidableEq, Repr

/-- A received codeword: the wavelength it came on (fibre and λ number), and its 5,440 bits as they came, bit 0 first
(R267). -/
structure Codeword where
  fibre : Nat
  wave : Nat
  line : BitVec 5440
deriving DecidableEq, Repr

/-- What a packet is for: any traffic; groomed blocks parked in its destination's HBM, a load's request for bytes of it,
or the bytes that answer one (R182, R275). -/
inductive PacketUse where
  | plain
  | park (base : Nat)
  | fetch (base len : Nat)
  | served (base : Nat)
deriving DecidableEq, Repr

/-- What is injected: the bytes and what they are for. -/
structure PacketBody where
  use : PacketUse
  bytes : List Byte
deriving DecidableEq, Repr

/-- A packet: class, source and destination, the direction the source fixed in each dimension (R277),
the virtual channel it travels on, what it is for, and its bytes. -/
structure Packet where
  cls : TrafficClass
  src : Coord
  dest : Coord
  dirX : Dir
  dirY : Dir
  dirZ : Dir
  vc1 : Bool
  use : PacketUse
  bytes : List Byte
deriving DecidableEq, Repr

/-- A link of the torus: the module it leaves in the + direction of a dimension (0 x, 1 y, 2 z). -/
structure Link where
  dim : Fin 3
  lower : Coord
deriving DecidableEq, Repr

/-- The conditions of R272. -/
inductive SwapCause where
  | errorRatio | rejectedFrames | laserPower
deriving DecidableEq, Repr

/-- What a SWAP word says: it asks the transmitter to swap a failing lane, to swap a lane for a calibration, or to retire the
fibre from a port frame on; or it names to the receiver the switch fseq of the swap that it has asked for (R272, R274,
R435). -/
inductive SwapKind where
  | failing
  | calibration
  | retire (at' : U16)
  | named (switchAt : U16)
deriving DecidableEq, Repr

/-- The end of a swap that reaches its switch fseq: each direction runs its own (R272). -/
structure SwitchIn where
  fibre : Fin 16
  transmit : Bool
deriving DecidableEq, Repr

/-- The phases of R282. -/
inductive BringPhase where
  | laser | lock | align | deskew | identity | credits
deriving DecidableEq, Repr

/-- What the first four phases of a bring-up find (R282, R266): wavelengths that fail Laser or Lock, on the fibres that the
port receives on and on those it transmits on, whether Align and Deskew end in their bounds, and the one-way fibre delay in
ns. -/
structure BringReport where
  badWaves : List (Fin 16 × Fin 9)
  badTxWaves : List (Fin 16 × Fin 9)
  alignOk : Bool
  deskewOk : Bool
  delayNs : Nat
deriving DecidableEq, Repr

/-- One fragment of a peer's identity exchange (R270, R283): its number and its 15 bytes. -/
structure IdentIn where
  index : Fin 11
  part : BitVec 120
deriving DecidableEq, Repr

/-- A credit grant (R270, R276). -/
structure Grant where
  cls : TrafficClass
  vc1 : Bool
  blocks : Nat
deriving DecidableEq, Repr

/-! ## Data operands of engine operations -/

/-- The formats of R60. -/
inductive Fmt where
  | e4m3 | e5m2 | bf16 | fp16 | fp32 | int32
deriving DecidableEq, Repr

/-- The rounding modes of R73. -/
inductive Rnd where
  | ne | tz | sr
deriving DecidableEq, Repr

/-- The two ways a tile exponent is formed (R65). -/
inductive ExpMode where
  | computed
  | given (g : Byte)
deriving DecidableEq, Repr

/-- A conversion names its rounding, its overflow mode and, for an FP8 target, its exponent mode (R68). -/
structure Conv where
  rnd : Rnd
  sat : Bool
  exp : ExpMode
deriving DecidableEq, Repr

/-- Where a place lies: a scratchpad, a drain file, local HBM, or a hand-off region of a core's drain file, named by its
number among the image's regions, whose bytes are the next ones that its slots hand over (R112, R114). -/
inductive Space where
  | scratch (core : Core)
  | drain (core : Core)
  | hbm
  | ring (core : Core) (region : Nat)
deriving DecidableEq, Repr

/-- A byte place. -/
structure Loc where
  space : Space
  addr : Nat
deriving DecidableEq, Repr

/-- A tensor in memory: `n` elements of a format from `loc`; for FP8, its exponent array and the row length
over which groups of 32 run (R63). -/
structure Tensor where
  loc : Loc
  fmt : Fmt
  n : Nat
  exps : Loc
  rowLen : Nat
deriving DecidableEq, Repr

/-- An input stream with its input convert, if any, and whether that convert's target is INT32 in place of FP32 (R68). -/
structure InStream where
  t : Tensor
  conv : Option Conv
  toInt : Bool
deriving DecidableEq, Repr

/-- An output stream with its output convert, if any (R68). -/
structure OutStream where
  t : Tensor
  conv : Option Conv
deriving DecidableEq, Repr

/-- A halo buffer: its slots, where slot 0's row lies in the consumer's scratchpad, and the numbers of the first READY
word in the consumer's token area and of the first ACK word in the producer's (R158). -/
structure HaloBuf where
  producer : Core
  consumer : Core
  slots : Nat
  slotBase : Nat
  rowBytes : Nat
  ready : Nat
  ack : Nat
deriving DecidableEq, Repr

/-- The op index of an operation and the logical core it runs on; `recalled` holds, for a re-executed
operation of a replay region, the recall counter of each lane code it draws on (R195); `halos` the uses of halo buffers
that it reads (R161); `uncorrectable` says that a scratchpad word it reads has a double error (R133). -/
structure OpCtx where
  core : Core
  op : U32
  recalled : Option (List (Nat × U64))
  halos : List (HaloBuf × Nat)
  uncorrectable : Bool
deriving DecidableEq, Repr

/-! ## Address streams (R137) -/

/-- base + Σ i_n · stride_n over nested counts, innermost first. -/
structure Affine where
  base : Int
  levels : List (Nat × Int)
deriving DecidableEq, Repr

/-- Where an index list lies: in the controller's data memory or in the core's scratchpad. -/
inductive IndexList where
  | dataMem (addr : Nat)
  | scratch (addr : Nat)
deriving DecidableEq, Repr

/-- The two forms of an address stream; an indexed one walks `count` indices, each with its affine inner part. -/
inductive AddrForm where
  | affine (a : Affine)
  | indexed (base scale : Int) (list : IndexList) (count : Nat) (inner : List (Nat × Int))
deriving DecidableEq, Repr

/-- The space that the addresses of a stream name: the core's scratchpad, a declared drain-file region by its number,
local HBM, or the HBM of the module with a rink-local index. -/
inductive AddrSpace where
  | scratch
  | region (index : Nat)
  | hbm
  | peer (index : Nat)
deriving DecidableEq, Repr

structure AddrStream where
  space : AddrSpace
  form : AddrForm
deriving DecidableEq, Repr

/-- How the rows of a stream are given (R118): one length for every row, or a length stream of one u32 per row. -/
inductive RowLens where
  | each (n : Nat)
  | stream (l : Loc) (rows : Nat)
deriving DecidableEq, Repr

/-! ## Windows -/

/-- Window parameters of one dimension (R149). -/
structure WindowDim where
  i : Nat
  k : Nat
  s : Nat
  dl : Nat
  u : Nat
  pb : Int
  pa : Int
deriving DecidableEq, Repr

/-- Element-wise operations (R115, R117, R452). -/
inductive EwOp where
  | add | sub | mul | fma | min | max | abs | neg | div | sqrt | rsqrt | exp | copy
  | eq | ne | lt | le | gt | ge
  | iadd | isub | iand | ior | ixor | shl | shr | sar | iaddSat | isubSat | shlSat
deriving DecidableEq, Repr

/-- Mask operations and selection (R117). -/
inductive MaskOp where
  | and | or | not
deriving DecidableEq, Repr

/-- The fused functions of R108. -/
inductive FuncName where
  | identity | relu | relu2 | geluErf | geluTanh | silu | sigmoid | tanh | softplus
deriving DecidableEq, Repr

/-- Reductions (R118 to R120). -/
inductive RedOp where
  | sum | mean | max | min | sumsq | argmax
deriving DecidableEq, Repr

/-- Scans (R122). -/
inductive ScanOp where
  | sum | max | min
deriving DecidableEq, Repr

/-- The σ of the fused normal operation: an immediate or a stream (R199). -/
inductive Sigma where
  | imm (v : U32)
  | stream (t : InStream)
deriving DecidableEq, Repr

/-- The operations of the stream engine (R115, R124, R125, R164, R189, R190, R191, R198, R199, R126).
`lens` gives the rows; `mask` is the place of a packed mask (R117). Gathers and scatters take their elements' addresses
from an address stream. A pool names the window parameters, the channels and the outputs it gives (R164). -/
inductive StreamOp where
  | ew (f : EwOp) (ins : List InStream) (out : OutStream)
  | maskLogic (f : MaskOp) (n : Nat) (a b out : Loc)
  | select (mask : Loc) (a b : InStream) (out : OutStream)
  | func (f : FuncName) (deriv : Bool) (x : InStream) (out : OutStream)
  | reduce (f : RedOp) (x : InStream) (lens : RowLens) (mask : Option Loc) (out : OutStream) (flags : Option Loc)
  | topk (k : Nat) (x : InStream) (lens : RowLens) (mask : Option Loc) (vals : OutStream) (pos : Loc)
  | scan (f : ScanOp) (incl : Bool) (x : InStream) (lens : RowLens) (mask : Option Loc) (out : OutStream)
  | softmax (x : InStream) (lens : RowLens) (mask : Option Loc) (out : Option OutStream)
      (lse : Option OutStream) (m s : Option OutStream)
  | norm (layer : Bool) (x : InStream) (gamma beta : InStream) (eps : U32) (lens : RowLens)
      (mask : Option Loc) (out : OutStream) (mu r : Option OutStream) (flags : Option Loc)
  | softmaxBack (lse : Bool) (x dy dl : InStream) (lens : RowLens) (mask : Option Loc) (out : OutStream)
  | normBack (layer : Bool) (x dy gamma : InStream) (eps : U32) (lens : RowLens) (mask : Option Loc)
      (dx dgamma : OutStream) (dbeta : Option OutStream)
  | featureSum (x : InStream) (features : Nat) (mask : Option Loc) (out : OutStream)
  | dropout (theta : U32) (scale : U32) (x : InStream) (out : OutStream) (maskOut : Option Loc)
  | uniformBits (n : Nat) (out : Loc)
  | uniform (n : Nat) (out : OutStream)
  | normal (n : Nat) (out : OutStream)
  | normalFma (sigma : Sigma) (x : InStream) (out : OutStream)
  | gather (addrs : AddrStream) (x : InStream) (out : OutStream)
  | scatter (addrs : AddrStream) (x : InStream) (out : OutStream)
  | scatterAdd (addrs : AddrStream) (x : InStream) (out : Tensor)
  | pool (max inclusive : Bool) (x : InStream) (dims : List WindowDim) (channels firstOut outs : Nat) (out : OutStream)
      (flags : Option Loc)
deriving DecidableEq, Repr

/-- A stream-engine operation (R114, R115). -/
structure StreamCmd where
  ctx : OpCtx
  op : StreamOp
deriving DecidableEq, Repr

/-! ## The Trellis -/

/-- A load of the loading plane (R83, R85, R87): the stationary operand of `k` contraction elements by `n`
outputs, its orientation in the cells, and wide mode (R84). Contraction element c of output o is element `o * k + c`
of `w` where the contraction is innermost, and `c * n + o` otherwise. -/
structure TileLoadCmd where
  ctx : OpCtx
  w : Tensor
  k : Nat
  n : Nat
  contractInner : Bool
  transposed : Bool
  wide : Bool
deriving DecidableEq, Repr

/-- Where a streaming vector comes from: consecutive elements of a tensor; a row or a column of `count` 1 KiB blocks of a
tensor in blocked groups, block `first` and every `stride`-th after it, through the transposing port (R88, R130); or
vector `index` of the window gatherer from element `offset` on (R148). -/
inductive WaveSrc where
  | tensor (t : Tensor)
  | blocks (t : Tensor) (first stride count : Nat) (line : Fin 32) (column : Bool)
  | window (index offset : Nat)
deriving DecidableEq, Repr

/-- One wave (R82): the streaming vector (up to 1,024 elements, 512 wide), the read index, and whether a fault
struck a result of the wave: `flip` replaces column results, or the checker result (32), before the check (R94). -/
structure WaveCmd where
  ctx : OpCtx
  x : WaveSrc
  r : Fin 32
  column : Bool
  wide : Bool
  tile : Nat
  flip : List (Fin 33 × U32)
deriving DecidableEq, Repr

/-- A group region of the drain file (R69, R112): its place, the streaming row (0 to 31) within its tile, and whether
that row is the tile's last. -/
structure GroupRow where
  region : Loc
  row : Nat
  last : Bool
deriving DecidableEq, Repr

/-- The drain's stages for the column results at the head of the foot queue (R100 to R104, R187, R69). `group` is
named where the output's groups run over streaming rows. -/
structure DrainCmd where
  ctx : OpCtx
  accIn : Option Loc
  lastPass : Bool
  accOut : Loc
  bias : Option Tensor
  func : FuncName
  derivX : Option InStream
  out : OutStream
  save : Option OutStream
  group : Option GroupRow
deriving DecidableEq, Repr

/-- A window gather (R148 to R155): dimensions outermost first, the groups and the one gathered, the operation's input
and output channels, the feature map, and the affine stream of row-tile origins, each named by the number of the tile's
first output position. `column` names the column form (R152). -/
structure WindowCmd where
  ctx : OpCtx
  dims : List WindowDim
  groups : Nat
  group : Nat
  channels : Nat
  outChannels : Nat
  map : Tensor
  wide : Bool
  column : Bool
  gradient : Bool
  origins : Affine
  kappa : Nat
deriving DecidableEq, Repr

/-- A Lodge operation (R166 to R170): one group of a windowed operation, with `outs` outputs in the group. -/
structure LodgeCmd where
  ctx : OpCtx
  lodge : Fin 16
  fanIn : Bool
  gradient : Bool
  dims : List WindowDim
  groups : Nat
  group : Nat
  channels : Nat
  map : Tensor
  pixelClass : Bool
  outs : Nat
  filter : Tensor
  bias : Option Tensor
  func : FuncName
  derivX : Option InStream
  out : OutStream
deriving DecidableEq, Repr

/-! ## Groom -/

/-- Groom modes (R176). -/
inductive GroomMode where
  | g8 | g6 | g4 | g3 | g2
deriving DecidableEq, Repr

/-- Block shapes with the tensor's extents (R173). -/
inductive GroomShape where
  | spatial (t h w c : Nat)
  | sequence (rows d : Nat)
deriving DecidableEq, Repr

/-- Where blocks are kept: local HBM or a peer's (R172, R182). -/
inductive GroomHome where
  | own
  | peer (index : Nat)
deriving DecidableEq, Repr

/-- A groomed store or load (R172 to R182) of the part of a groomed tensor that `part` gives, in the order of the shape's
extents, each as its first element and its count. `peerBlocks` is what a peer returns to a groomed load. -/
structure GroomCmd where
  ctx : OpCtx
  mode : GroomMode
  shape : GroomShape
  part : List (Nat × Nat)
  home : GroomHome
  base : Nat
  elems : Tensor
  peerBlocks : List Byte
deriving DecidableEq, Repr

/-! ## Core controller -/

/-- The engines a core controller drives (R18, R136). -/
inductive Engine where
  | trellis | drain | stream | gatherer | groom | walker | lodge | memory | collective
deriving DecidableEq, Repr

/-- A load from local HBM into scratchpad (R139, R140): device address, bytes, destination; for a groomed load,
the decode that its retirement runs (R181). -/
structure LoadCmd where
  addr : Nat
  len : Nat
  dest : Nat
  groom : Option GroomCmd
deriving DecidableEq, Repr

/-- A command a core controller issues (R136 to R139). Instructions have numbers in program order, taken along the path
that the controller follows; `pos` is the command's, `unresolved` those of the older branches that are not resolved, in
rising order; it is speculative where there is one. `load` is the load it starts, if it is one; `addresses` its address
streams. Since the command before it the controller wrote the bytes `writes` of its data memory and set the
address-generator channels `gens`, each with the number of the instruction that did. `held` marks a command that waits in
the window already: its own work in the controller is done (false in every command that is sent). -/
structure IssueCmd where
  ctx : OpCtx
  engine : Engine
  pos : Nat
  unresolved : List Nat
  load : Option LoadCmd
  addresses : List AddrStream
  writes : List (Nat × Nat × Byte)
  gens : List (Nat × Fin 4 × U64)
  held : Bool
deriving DecidableEq, Repr

/-- Who runs a check-value unit (R349): an operation on a core, or the firmware of a system controller. -/
inductive CvUnit where
  | core (c : Core) (op : U32)
  | controllerA
  | controllerB
deriving DecidableEq, Repr

/-- The polynomials of R350. -/
inductive Poly where
  | crc32c | crc32 | crc16 | crc64
deriving DecidableEq, Repr

/-- What is fed to a check-value unit at once (R352). -/
inductive CvData where
  | byte (b : Byte)
  | half (h : U16)
  | word (w : U32)
deriving DecidableEq, Repr

/-- The row that a halo send carries: its place in the producer's scratchpad, and whether a word of it has a double error
(R133). -/
structure HaloRow where
  addr : Nat
  uncorrectable : Bool
deriving DecidableEq, Repr

/-! ## Attention and the cache -/

/-- Mask rules (R207). -/
inductive MaskRule where
  | bidirectional
  | causal
  | blockCausal (f : Nat)
deriving DecidableEq, Repr

/-- Where the visible keys of a query come from: packed rows with their marks (R206), or a length table
(R208). In table form `entries` entries lie at `table`, and the cache layer is named. -/
inductive AttnForm where
  | packed (marksQ marksK : Loc)
  | table (table : Loc) (entries layer : Nat)
deriving DecidableEq, Repr

/-- A fused attention operation (R201 to R209). -/
structure AttnCmd where
  ctx : OpCtx
  form : AttnForm
  dim : Nat
  heads : Nat
  kvHeads : Nat
  scale : U32
  rule : MaskRule
  window : Nat
  fmtP : Fmt
  q : Tensor
  k : Tensor
  v : Tensor
  out : OutStream
  lse : Option Loc
deriving DecidableEq, Repr

/-- The backward operation of fused attention (R210, R211). -/
structure AttnBackCmd where
  ctx : OpCtx
  form : AttnForm
  dim : Nat
  heads : Nat
  kvHeads : Nat
  scale : U32
  rule : MaskRule
  window : Nat
  fmtP : Fmt
  fmtS : Fmt
  q : Tensor
  k : Tensor
  v : Tensor
  o : Tensor
  dO : Tensor
  lse : Loc
  dq : OutStream
  dk : OutStream
  dv : OutStream
deriving DecidableEq, Repr

/-- The table of records that an admission names (R219, R370): a host admission table of the image, of which the step
handles the records it has taken, or the records that the program has built. -/
inductive AdmitTable where
  | host (table : Nat)
  | built (records : List Nat)
deriving DecidableEq, Repr

/-- An append record (R222): the slot, the token numbers, and for each layer the K and V bytes of each
position with, for an FP8 cache, their tile exponents. -/
structure AppendRecord where
  slot : Nat
  tokens : List U32
  kv : List (List (List Byte × List Byte × List Byte × List Byte))
deriving DecidableEq, Repr

/-- An append operation with its table of records. -/
structure AppendCmd where
  op : U32
  records : List AppendRecord
deriving DecidableEq, Repr

/-! ## Memory-side arithmetic -/

/-- Reductions of R247. -/
inductive MsuOp where
  | sum | max | min
deriving DecidableEq, Repr

/-- What a reduction operation names (R247, R249, R251, R253): ranges, reduction, formats, presence bitmap (for a
gradient buffer, with the buffer's base), a contributor list for each range, the mode, and the spill area with the bytes of
the operation's whole incoming volume. -/
structure ReduceDecl where
  op : U32
  ranges : List Range
  red : MsuOp
  contrib : Fmt
  dest : Fmt
  gradient : Option (Nat × Nat)
  lists : List (List Nat)
  unordered : Bool
  replica : Bool
  spill : Range
  volume : Nat
deriving DecidableEq, Repr

/-- A segment (R247, R248): source, sequence number, device address and its elements in the contribution
format, 32 B words whole. -/
structure Segment where
  source : Nat
  seq : Nat
  addr : Nat
  vals : List U32
deriving DecidableEq, Repr

/-- What a source's close carries: its segment count (R248), and the weight w_r of a replica contribution, 0 elsewhere
(R302; assumption log 95). -/
structure Close where
  count : Nat
  weight : Nat
deriving DecidableEq, Repr

/-- Working copy formats and modes (R257). -/
structure WorkCopy where
  fmt : Fmt
  rnd : Rnd
  sat : Bool
  exp : ExpMode
  addr : Nat
  exps : Nat
deriving DecidableEq, Repr

/-- An update operation (R257). -/
structure UpdateCmd where
  op : U32
  tiles : Nat
  grad : Nat
  gradBf16 : Bool
  bitmap : Nat
  p : Nat
  m : Nat
  v : Nat
  t : Nat
  work : WorkCopy
deriving DecidableEq, Repr

/-- One page of a page transfer: index, stamp and its bytes (R312, R317, R322). -/
structure PageIn where
  index : Nat
  stamp : U64
  bytes : List Byte
deriving DecidableEq, Repr

/-- The role a module plays in the Restore phase (R317): it may be the +x neighbour of a lost position, the −x neighbour,
both (X = 2) or neither; or the standby module itself, with the pages it receives of its own state and of the copy it
keeps. -/
inductive RestoreRole where
  | live (plusX minusX : Bool)
  | standby (own : List PageIn) (tandem : List PageIn)
deriving DecidableEq, Repr

/-- An adoption (R317, R318): the position adopted, the digest of the standby module's identity key, the timebase of its neighbour, the
uncommitted step, what the other modules of the rink enter into the image identity barrier (R52), and whether this module is
the standby. -/
structure AdoptIn where
  position : Coord
  identity : Digest
  time : U64
  step : U64
  others : List StartEntry
  standby : Bool
deriving DecidableEq, Repr

/-- What shows that a module is lost (R316): every one of its connected ports in the down table, the silence of both its
system controllers, or a notice of its own. -/
inductive LossCause where
  | ports | silence | notice
deriving DecidableEq, Repr

/-- A module that the marshal may find lost. -/
structure Loss where
  at' : Coord
  cause : LossCause
deriving DecidableEq, Repr

/-- The acknowledgement of a tandem page: of a refresh, or of a page that was restored to a standby module (R312, R317). -/
structure PageAck where
  page : Nat
  restored : Bool
deriving DecidableEq, Repr

/-! ## Collectives -/

/-- The presence bits that travel with a piece (R289): the bitmap's address, the first tile and the bits of the tiles that
the piece touches, and whether it begins or ends inside a tile. -/
structure PresencePiece where
  bitmap : Nat
  first : Nat
  bits : List Bool
  cutLow : Bool
  cutHigh : Bool
deriving DecidableEq, Repr

/-- A piece of a collective: the module's index (L, or z along a replica ring), its bytes, and for a gradient buffer the
presence bits of its tiles. -/
structure Piece where
  index : Nat
  bytes : List Byte
  presence : Option PresencePiece
deriving DecidableEq, Repr

/-- What one module contributes to a reduction: its machine index and its segments (R290). -/
structure Contribution where
  source : Nat
  segs : List Segment
deriving DecidableEq, Repr

/-- A gradient buffer as a gather sees it (R289): its bitmap, its base and the bytes of a tile. -/
structure GradPlace where
  bitmap : Nat
  base : Nat
  tileBytes : Nat
deriving DecidableEq, Repr

/-- An all-gather (R289, R290): the destination, this module's piece, the lengths of the pieces in the order of
concatenation, whether it spans the replica ring (R301) in place of the rink, the gradient buffer if the destination is one,
whether this module's cores issue the operation, in which case its own piece goes out (R292), and the pieces of other modules
that are in. -/
structure GatherCmd where
  op : U32
  dest : Loc
  mine : Loc
  lens : List Nat
  ring : Bool
  grad : Option GradPlace
  issue : Bool
  others : List Piece
deriving DecidableEq, Repr

/-- A reduce-scatter (R290): what this module's piece is summed into, where this module's input lies (one piece for each
module of the rink, in increasing L), the distance between the pieces of consecutive modules in the destination, and what
the other modules contribute to this module's piece. -/
structure ScatterCmd where
  decl : ReduceDecl
  src : Nat
  stride : Nat
  others : List Contribution
deriving DecidableEq, Repr

/-- What a received replica check record holds (R358). -/
structure ReplicaRecord where
  z : Nat
  record : BitVec 128
deriving DecidableEq, Repr

/-- What a sampled error does to an HBM word: wrong symbols of the 36 (R238). -/
structure WordErrors where
  symbols : Nat
deriving DecidableEq, Repr

/-! ## The commands -/

/-- The commands, in the order of spec/opcode_table.json. -/
inductive Instr where
  | mgtRegisterWrite (off : Nat) (wide : Bool) (val : U64)
  | mgtRingJobCtrlWrite (part : RegPart) (val : U64) (producer : U64)
  | mgtIntStatusClear (mask : U32)
  | mgtIntEnableWrite (val : U32)
  | flashProgram (cut : Option Nat)
  | attest
  | healthSweep (f : SweepFindings)
  | siteAmend
  | jobAbort
  | bankLoad (partBytes : List Nat)
  | lifecycle (cut : Option Nat)
  | identityBarrierRelease (b : BankBarrierIn)
  | identityBarrierTimeout
  | sbIdent
  | sbState
  | sbTemp
  | sbStackTemp
  | sbPower
  | sbVolt
  | sbCause
  | sbResetWarm
  | sbResetRink
  | sbWriteRejected (cmd : Byte) (val : Byte) (pecOk : Bool)
  | jobRingProducerUpdate (producer : U64)
  | jobFetch (f : JobFetchIn)
  | jobStartBarrier (others : List StartEntry)
  | sampleRingProducerUpdate (ch : Chan) (producer : U64)
  | manifestHostCountUpdate (count : U64) (entries : List (BitVec 128))
  | admissionHeaderUpdate (table : Nat) (hostCount : U32) (readyOff : U64)
  | cxlMemWrite (addr : Nat) (data : List Byte)
  | cxlMemRead (addr len : Nat)
  | cxlLinkTrained (cxl : Bool) (width : LinkWidth) (rate : LinkRate)
  | statusRecordTelemetry (t : Telemetry)
  | telemetryRefresh (junction stack powerW volt10mV : U16)
  | powerGood
  | powerOnReset
  | inputLockout
  | inputOvervoltageStop
  | inputOutOfRange (volt10mV : U16)
  | overcurrent
  | perstAssert
  | perstRelease
  | warmReset
  | rinkResetFlood
  | stepAbortUnanswered
  | jobResumeAfterRinkReset
  | referenceClockLoss
  | thermalTrip
  | thermalTripCooled
  | bootRom
  | flashSelect
  | railsUp
  | bootSelfTest (failed : List PhysCore)
  | hbmInit (failedRows : List RowAddr) (badLanes : List PhyLane)
  | runtimeLoad
  | rinkFormation (f : FormationIn)
  | rinkFormationRetry (cause : RetryCause) (f : FormationIn)
  | pageSettle (tandemStamps : List (Nat × U64)) (restored : List PageIn)
  | capRuleEval (avgW : Nat) (below1ms : Bool) (over76 : Bool)
  | waveWithholdPeriod
  | paceDomainEval (d : Fin 16) (shareBp : Nat)
  | thermalCeilingEval (junction : List Int) (stackTemps : List Int)
  | domainVoltageStep (d : Domain)
  | regulatorCheck (errors : List Int)
  | tempSensorCheck (errors : List Int)
  | inputMonitorCheck (first second : Nat)
  | laserMonitorCheck (low : List Wave)
  | hbmRefresh (stack : StackId) (bank : Nat) (temp : Int)
  | hbmScrub (stack : StackId) (word : Nat) (e : WordErrors)
  | timebaseUnsync (offsetNs heldUs : Nat)
  | timeRootTakeover (lost : Coord) (before : List Coord)
  | timeRead (ctx : OpCtx) (dest : Loc)
  | portFrameReceive (port : PortId) (words : List Codeword)
  | nack (port : PortId) (fseq : U16)
  | credit (port : PortId) (grants : List Grant)
  | packetInject (cls : TrafficClass) (dest : Coord) (body : PacketBody)
  | packetForward (port : PortId) (p : Packet)
  | packetDeliver (port : PortId) (p : Packet)
  | beat (port : PortId)
  | beatReceive (port : PortId) (sample : U64) (lane : Nat)
  | portDownTimeout (port : PortId) (uncommitted : Bool)
  | downNotice (link : Link)
  | swapCondition (port : PortId) (lane : Nat) (cause : SwapCause)
  | swap (port : PortId) (fibre : Fin 16) (lane : Nat) (kind : SwapKind)
  | swapSwitch (port : PortId) (sw : SwitchIn)
  | portBringup (port : PortId) (r : BringReport)
  | bringupPhaseTimeout (port : PortId) (phase : BringPhase)
  | ident (port : PortId) (x : IdentIn)
  | calibration (port : PortId) (fibre : Fin 16) (place : Fin 8)
  | allGather (g : GatherCmd)
  | reduceScatter (r : ScatterCmd)
  | allReduce (r : ScatterCmd) (sums : List Piece)
  | broadcast (op : U32) (root : Nat) (addr : Loc) (len : Nat) (bytes : List Byte)
  | barrier (op : U32)
  | barrierRelease (op : U32) (machine : Bool) (release : U64)
  | consistentSnapshot
  | replicaReduction (op : U32) (buffer : Nat)
  | cutoffDeadline
  | vote (rink : Nat) (others : List Bool)
  | rinkVoteReceive (voter rink : Nat) (one : Bool)
  | leaveNotice (rink : Nat)
  | rejoinRequest (rink : Nat) (named : Option U64)
  | rejoinStateTransfer (step : U64) (pages : List PageIn)
  | replicaCheckRecord (records : List ReplicaRecord) (majority : List PageIn)
  | stopNotice (code : U16)
  | moduleLost (lost : List Loss)
  | pause (lost : List Coord)
  | recoveryWaitExpiry
  | adoptionJoin (a : AdoptIn)
  | tandemRestore (role : RestoreRole)
  | marshalBeat (index : Nat)
  | marshalPromotion (silenceUs : Nat)
  | controllerBTakeover (silenceUs : Nat)
  | segmentArrive (d : ReduceDecl) (seg : Segment)
  | closeArrive (d : ReduceDecl) (source : Nat) (c : Close)
  | updateOperation (u : UpdateCmd)
  | openedSignal (op : U32) (unit : StackId)
  | pageDoneSignal (op : U32) (page : Nat) (unit : StackId)
  | tandemRefresh
  | tandemPageReceive (step : U64) (p : PageIn) (cut : Option Nat)
  | tandemPageAck (a : PageAck)
  | hbmReadReturn (addr : Nat) (op : U32) (e : WordErrors) (squashed reserve : Bool)
      (tandem : Option PageIn)
  | stepStart
  | commitBarrier (waitBp : Nat)
  | stepReplay
  | cutPointReached
  | cutDump (upTo : Option Nat)
  | parkedCoreTestDone (core : PhysCore) (pass : Bool)
  | engineCommandIssue (c : IssueCmd)
  | trellisWave (c : WaveCmd)
  | tileLoad (c : TileLoadCmd)
  | tileSwap (ctx : OpCtx)
  | drainResult (c : DrainCmd)
  | streamOperation (c : StreamCmd)
  | windowGather (c : WindowCmd)
  | lodgeOperation (c : LodgeCmd)
  | groomedStore (c : GroomCmd)
  | groomedLoad (c : GroomCmd)
  | haloSend (op : U32) (h : HaloBuf) (use : Nat) (src : HaloRow)
  | haloReady (op : U32) (h : HaloBuf) (use : Nat)
  | haloAck (op : U32) (h : HaloBuf) (use : Nat)
  | branchMispredict (core : Core) (branch : Nat)
  | speculativeLoadRetire (core : Core) (load : Nat)
  | hbmResponseDropped (core : Core) (slot : Fin 16) (tag : Nat)
  | cvSelect (u : CvUnit) (p : Poly)
  | cvFeed (u : CvUnit) (d : CvData)
  | cvRead (u : CvUnit)
  | fusedAttention (c : AttnCmd)
  | attentionBackward (c : AttnBackCmd)
  | walkerSnapshot (core : Core) (op : U32) (slot : Nat) (upTo : Nat)
  | snapshotRelease (core : Core) (op : U32) (slot : Nat)
  | admission (op : U32) (table : AdmitTable)
  | append (c : AppendCmd)
  | release (op : U32) (slots : List Nat)
  | cachePublish (slot : Nat)
  | dictionaryLoad
  | sampleDescriptor (ch : Chan) (desc : BitVec 512)
  | sampleBytesArrive (ch : Chan) (bytes : Option (List Byte))
  | reserveListRecord (ch : Chan) (rec : BitVec 512)
  | reserveEntry (ch : Chan) (desc : BitVec 512) (bytes : Option (List Byte))
  | batchComplete (ch : Chan)
  | gatehouseStatePage
  | batchRebuild
  | heldSweepStart (f : SweepFindings)
  | mgtCmdRejected (val : U32)
  | downNoticeWithdrawn (link : Link)
  | smbusBusTimeout
deriving DecidableEq, Repr

end Sys2Proof
end

