-- ==== Sys2Proof/Config.lean ====
section
/-! DEFINITION. What the manual leaves open: values that the machine produces and the manual does not
state. None has a body, so a proof can use no value of it. -/

namespace Sys2Proof.Config

/-- The bits that a read returns where the manual says "not specified" (R55, R368, R408 never reads one):
applied to the machine's free-value counter and to the byte's address. Assumption log 4. -/
opaque unspecifiedByte : Nat → Nat → BitVec 8

/-- 64 bits of system controller A's hardware noise source for a lane generator in entropy mode (R197):
applied to the free-value counter at the seeding and to the lane identity. Assumption log 5. -/
opaque noise : Nat → Nat → BitVec 64

/-- 256 bits of system controller A's hardware noise source: the identity seed drawn at provisioning
(R400) and the 16 B nonce of an identity exchange (R283). Assumption log 5. -/
opaque noise256 : Nat → BitVec 256

/-- An ECDSA signature (r in the upper half, s in the lower) made with private key `d` over a digest: the
manual does not state the per-signature secret, so no signature value is fixed (R408, R283).
Assumption log 6. -/
opaque ecdsaSign : Nat → Nat → BitVec 256 → BitVec 512


end Sys2Proof.Config
end

