-- ==== Sys2Proof/Machine/State.lean ====
section
/-! DEFINITION. The state of one module, unit by unit, as the manual names it, with the reasons a step can stop
and the state after a power-on reset. Every store is a sparse map in one canonical form (a byte or entry
that is not listed reads as the store's default). -/

namespace Sys2Proof.Machine

/-- A byte store: sorted by address, no address twice, no entry equal to the store's default byte. -/
abbrev Mem := List Host.Cell

/-! ## Management window, host link and host memory -/

/-- MGT_STATE (R362). -/
inductive MgtState where
  | boot | recovery | linkPcie | ready | running | held | halted
deriving DecidableEq, Repr

/-- Life-cycle states (R362, R401). -/
inductive Lifecycle where
  | blank | manufactured | provisioned | deployed | returned
deriving DecidableEq, Repr

/-- The state field of MGT_CMD_STATUS (R381). -/
inductive CmdState where
  | idle | busy | done | refused
deriving DecidableEq, Repr

/-- The management window's registers (R362). MGT_LIFECYCLE, MGT_STATE's code, MGT_COORD, MGT_IDENT and
MGT_TIME are views of the state they mirror. -/
structure Mgt where
  state : MgtState
  cmdCode : U16
  cmd : Byte
  cmdState : CmdState
  arg0 : U64
  arg1 : U64
  arg2 : U64
  temp : U32
  power : U32
  ringBase : U64
  ringCtrl : U64
  ringSize : U32
  statusAddr : U64
  intStatus : U32
  intEnable : U32
  bootStatus : U32
  msixTable : BitVec 512
  msixPba : BitVec 4
deriving DecidableEq, Repr

/-- The host link and what it carries (R360, R364, R367, R369): training, PERST#, the HDM decoder's size in
bytes, the ranges in device bias, every other range being in host bias, and the bytes that the last CXL.mem read returned. -/
structure HostLink where
  trained : Bool
  cxl : Bool
  width : LinkWidth
  rate : LinkRate
  perstLow : Bool
  perstReleased : Bool
  decoder : Nat
  deviceBias : List Range
  readData : List Byte
deriving DecidableEq, Repr

/-- The job ring as the module knows it (R363 to R366). -/
structure JobRing where
  producer : U64
  consumer : U64
  faulted : Bool
  armed : Bool
deriving DecidableEq, Repr

/-- What SB_RESET asks for (R448). -/
inductive ResetKind where
  | warm | rink
deriving DecidableEq, Repr

/-- The SMBus interface (R446 to R449): address straps, whether it answers, the word last returned and whether the last
transaction was acknowledged, PWRGD, and a reset request that waits for its stop condition. -/
structure Sideband where
  strap0 : Bool
  strap1 : Bool
  answering : Bool
  lastWord : U16
  lastAck : Bool
  pwrgd : Bool
  request : Option ResetKind
deriving DecidableEq, Repr

/-! ## Status record (R375) -/

/-- An event entry (R375). -/
structure Event where
  time : U64
  step : U64
  op : U32
  code : U16
  detail : U16
  loc : U64
deriving DecidableEq, Repr

/-- The counts of the status record, in its order (R375). -/
structure Counts where
  replays : U32
  coreRemaps : U32
  mismatches : U32
  scratchUes : U32
  hbmUes : U32
  rowsRemapped : U32
  swaps : U32
  fibresRetired : U32
  portsDown : U32
  pagesRestored : U32
  adoptions : U32
  replicaRepairs : U32
  writesDiscarded : U32
  amendmentsRefused : U32
  inputWaits : U32
deriving DecidableEq, Repr

/-- The status record (R375). `events` holds the last 32 events under their entry number; `gh` holds the
Gatehouse counts under 12·channel + i. -/
structure StatusRec where
  updateSeq : U64
  jobId : U64
  step : U64
  committed : U64
  time : U64
  status : U16
  inputWait : Bool
  unsync : Bool
  paceWait : Bool
  paused : Bool
  replayMode : Bool
  cutStep : U64
  cutOp : U32
  eventCount : U32
  events : SMap Event
  counts : Counts
  hbmCe : SMap U32
  inclStep : U64
  active : U32
  included : U32
  telemetry : Telemetry
  gh : SMap U32
deriving DecidableEq, Repr

/-! ## Fuses, flash, keys -/

/-- An owner slot (R399). `touched` says that some bit of the slot is blown. -/
structure OwnerSlot where
  ownerKey : BitVec 512
  seed : BitVec 256
  touched : Bool
  valid : Bool
  revoked : Bool
deriving DecidableEq, Repr

/-- The fuses (R399, R437). -/
structure Fuses where
  vendorRootHash : Digest
  romKey : BitVec 512
  deviceSecret : BitVec 256
  deviceId : U64
  lifecycle : Lifecycle
  slot0 : OwnerSlot
  slot1 : OwnerSlot
  slot2 : OwnerSlot
  slot3 : OwnerSlot
  deadCores : List PhysCore
  deadRows : List RowAddr
  deadWaves : List Wave
deriving DecidableEq, Repr

/-- The flash devices and the copy in use (R382, R384, R407). Flash B's byte a lies under 2^26 + a. -/
structure Flash where
  bytes : Mem
  inUse : Option Bool
  seq : U32
  measFirmware : Digest
  measRuntime : Digest
  measConfig : Digest
  measSite : Digest
  key : Option (BitVec 512)
deriving DecidableEq, Repr

/-- The system controllers (R307, R323, R397, R400). -/
structure Controllers where
  aAlive : Bool
  bActs : Bool
  romDone : Bool
  firmware : Bool
  identity : Option (Nat × BitVec 512)
deriving DecidableEq, Repr

/-! ## Power, heat, time -/

/-- The phase of the boot sequence that has ended last (R390). -/
inductive BootPhase where
  | off | input | rom | flash | rails | selfTest | hbm | load | optical | ready
deriving DecidableEq, Repr

/-- The power manager (R390, R411 to R421): the boot phase ended last and whether the sequence runs after a warm reset,
rails, voltages in mV and the ceilings of the compute domains, the
withholding share in tenths, the causes that hold withholding on, and the pace counters. -/
structure Power where
  phase : BootPhase
  warm : Bool
  locked : Bool
  tripped : Bool
  rails : Bool
  volts : List Nat
  cap : List Nat
  thermal : List Nat
  pace : List Nat
  share : Nat
  overcurrent : Bool
  thermalHold : Bool
  capHold : Bool
  inRange : Bool
  rinkPace : Nat
  paceHigh : Nat
  paceLow : Nat
  stackRate : List Nat
  sensorSwapped : List Bool
deriving DecidableEq, Repr

/-- The timebase (R39, R40): the count, whether formation has set it, whether its clock runs, the time root, the
status flag, when the last correction was made, and a nanosecond to be left out by slewing. -/
structure Timebase where
  value : U64
  set : Bool
  running : Bool
  root : Bool
  rootAt : Coord
  order : List Coord
  slewAt : U64
  skip : Bool
deriving DecidableEq, Repr

/-! ## HBM -/

/-- A core map entry (R425): `logical` is 0xFF where the core serves none. -/
inductive CoreState where
  | active | spare | parked | failed | fused
deriving DecidableEq, Repr

structure CoreEntry where
  mismatches : Byte
  logical : Byte
  remaps : BitVec 4
  state : CoreState
deriving DecidableEq, Repr

/-- A save record (R432). -/
structure SaveRecord where
  start : Nat
  len : Nat
  state : SaveState
deriving DecidableEq, Repr

/-- The stacks (R229 to R245): visible memory by device address, the tandem reserve by 65,536·page + offset,
the self-test save area by 2^40·stack + stack-local byte, stamps of device pages and tandem pages, the
commit word, the poisoned words of visible memory, of the tandem reserve and of the repair reserve (there under 2^32·stack +
stack-local word), rows with correctable errors, remapped rows, what the last full sweep found, refresh and throttle, the core map, the save records, the words whose
saved copy is uncorrectable, the amendment kept in the repair reserve, and the operations whose entry of the op counter
table the step has opened (R55). -/
structure Hbm where
  dev : Mem
  tandem : Mem
  saveArea : Mem
  stamps : SMap U64
  tandemStamps : SMap U64
  commitWord : U64
  poison : SMap Bool
  tandemPoison : SMap Bool
  repairPoison : SMap Bool
  ceRows : List (RowAddr × Nat)
  remapDue : List RowAddr
  remapped : List RowAddr
  sweepRows : List RowAddr
  sweepCores : List PhysCore
  sweepWaves : List Wave
  fastRefresh : SMap Bool
  selfRefresh : Bool
  serving : Bool
  coreMap : List CoreEntry
  saves : SMap SaveRecord
  savePoison : List Nat
  amendment : Option (BitVec 4096 × Bool × U32)
  counted : List U32
deriving DecidableEq, Repr

/-! ## Cores -/

/-- What a plane of a Trellis holds (R81, R84, R87, R156). -/
structure PlaneInfo where
  k : Nat
  n : Nat
  contractInner : Bool
  transposed : Bool
  wide : Bool
  fmt : Fmt
  unsafeTile : Bool
  checkerBad : Bool
  loaded : Bool
deriving DecidableEq, Repr

/-- The 32 column results of one wave on their way to the drain (R82, R105), with the tile's flag (R91). -/
structure FootEntry where
  op : U32
  r : Nat
  outs : List U32
  sat : Bool
deriving DecidableEq, Repr

/-- A shadow slot (R140): free, or held by a load with its tag and the bytes fetched for it. -/
structure ShadowSlot where
  tag : Nat
  held : Bool
  bytes : List Byte
deriving DecidableEq, Repr

/-- A speculative load in the glide window (R139 to R141), under its number in program order: its slots and their tag,
whether its address lies outside local HBM, in which case it was not sent, and whether a word it fetched was poisoned. -/
structure SpecLoad where
  id : Nat
  ctx : OpCtx
  cmd : LoadCmd
  slots : List Nat
  tag : Nat
  outside : Bool
  poisoned : Bool
deriving DecidableEq, Repr

/-- A core controller (R135 to R143): engine queues by engine number, address-generator positions, the positions as they
stood at each unresolved branch, data memory and its write buffer (instruction, address, byte), unresolved branches, shadow
slots, speculative loads, and the slots and tags of squashed loads whose responses are still to come. -/
structure CoreCtl where
  queues : SMap (List U32)
  genPos : SMap U64
  genSaved : List (Nat × SMap U64)
  dataMem : Mem
  writeBuf : List (Nat × Nat × Byte)
  branches : List Nat
  slots : SMap ShadowSlot
  loads : List SpecLoad
  nextTag : Nat
  flying : List (Nat × Nat)
deriving DecidableEq, Repr

/-- A check-value unit (R351, R353): the selected polynomial, the register, whether it is open, its last value, and the
operation that selected last, in a core controller. -/
structure CvState where
  poly : Poly
  reg : U64
  opened : Bool
  value : U64
  owner : Option U32
deriving DecidableEq, Repr

/-- An instruction bank (R144 to R146): the identity of the image it holds, and the op indices of commands that
keep a reference to it. -/
structure Bank where
  image : Option Digest
  imageAddr : Nat
  imageLen : Nat
  refs : List U32
deriving DecidableEq, Repr

/-- The two banks, which is active, whether the inactive one's image is pending, and the bank load that
waits in the identity barrier (R145): its bank, identity, place and length, or the local refusal. -/
structure Banks where
  bank0 : Bank
  bank1 : Bank
  active : Bool
  pending : Bool
  waiting : Option (Bool × Digest × Nat × Nat × Option U16)
deriving DecidableEq, Repr

/-- The lane generators (R192, R193): the arguments their keys are seeded from (the noise of entropy mode is
drawn once a seeding, under `epoch`), each lane's counter under 256·core + lane code, and the slots that the re-executed
operations of the step have drawn on it beyond their recall counters, as (op, key, slots) (R195). -/
structure Lanes where
  runSeed : U64
  step : U64
  machineIndex : U64
  entropy : Bool
  epoch : Nat
  ctrs : SMap U64
  recalls : List (U32 × SMap Nat)
deriving DecidableEq, Repr

/-- An element of a window vector: its code and its tile exponent (R150), and whether it belongs to a pruned tap or to a
zero channel of its row tile (R155, R156). -/
structure WinElem where
  code : U32
  exp : Byte
  idle : Bool
deriving DecidableEq, Repr

/-- The vectors that a core's window gatherer has delivered (R148, R152). -/
structure WinBuf where
  fmt : Fmt
  vecs : List (List WinElem)
deriving DecidableEq, Repr

/-- A hand-off region's ring (R112): slots filled and slots taken since the step's start (those filled and not taken carry
a full token), the bytes taken that no command of the reader has used, and the bytes that the writer has for slots that
are not empty yet. -/
structure Ring where
  filled : Nat
  taken : Nat
  intake : List Byte
  waiting : List Byte
deriving DecidableEq, Repr

/-- A Lodge's filter planes (R166): which is in use, and what each holds. -/
structure LodgePlanes where
  inUse : Nat
  plane0 : List Byte
  plane1 : List Byte
deriving DecidableEq, Repr

/-- The cores' stores. Scratchpad byte a of logical core c lies under 2^24·c + a (token words among them, R132);
drain-file byte a under 2^16·c + a; cells, stationary exponents and checker sums under the keys of the Trellis. `groupDraws`
holds the draws of the rows that wait in a group region of the drain file, under the region's key; `rings` the hand-off
regions by their number; `haloSent` and `haloReady` the use sent last through a halo buffer and the one whose READY word landed last, under 4,096 ·
consumer + its first READY word. -/
structure Cores where
  scratch : Mem
  drain : Mem
  cells : Mem
  cellExps : Mem
  checker : SMap U16
  planeInUse : SMap Nat
  planes : SMap PlaneInfo
  foot : SMap (List FootEntry)
  window : SMap WinBuf
  groupDraws : SMap (List U32)
  rings : SMap Ring
  haloSent : SMap Nat
  haloReady : SMap Nat
  ctl : SMap CoreCtl
  cv : SMap CvState
  lanes : Lanes
  lodge : SMap LodgePlanes
deriving DecidableEq, Repr

/-! ## Memory-side units -/

/-- A reduction operation in progress (R247 to R253): what it names, the tiles it has opened, the segments received in
order of arrival, the closes by source, the words written, the bytes written to the spill area, and whether every word is
complete. -/
structure MsuRun where
  decl : ReduceDecl
  opened : List Nat
  segs : List Segment
  closes : List (Nat × Close)
  written : List Nat
  spilled : Nat
  complete : Bool
deriving DecidableEq, Repr

/-- A page that a sweep writes (R263): the units that sweep a tile in it, whether its open stamp is written, the units
whose done signals are in, and whether its stamp is closed. -/
structure SweepPage where
  page : Nat
  units : List Nat
  opened : Bool
  done : List Nat
  closed : Bool
deriving DecidableEq, Repr

/-- An update sweep (R257 to R263): its operation, immediates and divisor, its pages, the units that have signalled
opened, the signals received, and whether the sweep has run. -/
structure Sweep where
  cmd : UpdateCmd
  row : ImmRow
  n : U32
  pages : List SweepPage
  announced : List Nat
  signals : List Nat
  started : Bool
deriving DecidableEq, Repr

/-- What waits in a unit (R251): a source's segment under its sequence number, or a word's running value. -/
inductive Waiting where
  | segment (source seq : Nat)
  | running (word : Nat)
deriving DecidableEq, Repr

/-- Something that waits: its operation, the stack whose unit serves it, its bytes there, and whether it lies in the
operation's spill area in place of the unit's staging buffer (R246, R251). -/
structure StagedItem where
  op : U32
  unit : Nat
  what : Waiting
  bytes : Nat
  spilled : Bool
deriving DecidableEq, Repr

/-- The memory-side units: what their staging buffers and the spill areas hold, reductions and sweeps of the running step,
and the CRC of each page closed in it (R326). -/
structure Msu where
  staging : List StagedItem
  runs : List MsuRun
  sweeps : List Sweep
  pageCrcs : SMap U32
deriving DecidableEq, Repr

/-! ## Fabric -/

/-- A port's standing (R282). -/
inductive PortPhase where
  | dark | laser | lock | align | deskew | identity | credits | up | down | refused
deriving DecidableEq, Repr

/-- A fibre (R265, R272, R274): retired or not, the wavelengths of its eight lanes in lane order, and its free
spare, if any. -/
structure Fibre where
  retired : Bool
  lanes : List Nat
  spare : Option Nat
deriving DecidableEq, Repr

/-- A swap that this port has asked for as the receiver (R272): the fibre, the lane's place in it, whether a
calibration asked for it (R435), and the switch fseq once the transmitter has named it. -/
structure SwapRun where
  fibre : Nat
  place : Nat
  calibration : Bool
  switchAt : Option U16
deriving DecidableEq, Repr

/-- A swap that this port mirrors as the transmitter, with the switch fseq it named (R272), and whether a calibration asked
for it (R435). -/
structure MirrorRun where
  fibre : Nat
  place : Nat
  switchAt : U16
  calibration : Bool
deriving DecidableEq, Repr

/-- A packet that waits to leave by a port (R276): the blocks of it that have left, and, where it came over another port, that
port, in whose receive buffer for its class it stands, with the virtual channel it came on. -/
structure Queued where
  packet : Packet
  gone : Nat
  origin : Option (PortId × Bool)
deriving DecidableEq, Repr

/-- A 64 B block of a port frame: a packet's block by its number (R268). -/
structure Block where
  packet : Packet
  index : Nat
deriving DecidableEq, Repr

/-- A port frame that this port has sent: its fseq and its blocks in order; the rest of it is idle blocks (R268). -/
structure Frame where
  fseq : U16
  blocks : List Block
deriving DecidableEq, Repr

/-- One Relesque port (R265 to R283): the fibres it receives on and those it transmits on, the sequence numbers,
the retransmission window with the port frames in it, the 64 B blocks of the port frame accepted last, the calibration that
holds a spare, the lanes of rejected port frames with the times (R272), the grants and the identity fragments received in
bring-up, and whether this end's signature has gone out. Credits are kept for each class as the two reserved amounts and the
shared amount, in blocks, in class order; `queues` holds the packets that wait to leave, for each class and virtual channel,
first in first out, and `share` the collective blocks that went since the last offload block (R276). -/
structure Port where
  phase : PortPhase
  attempts : Nat
  fibres : List Fibre
  txFibres : List Fibre
  txNext : U16
  window : List Frame
  rxNext : U16
  rxDiscard : Bool
  rxData : List (BitVec 512)
  credits : List (Nat × Nat × Nat)
  queues : List (List Queued)
  share : Nat
  beats : U64
  nonce : BitVec 128
  swaps : List SwapRun
  mirrors : List MirrorRun
  calibrating : Option Nat
  rejects : List (Nat × U64)
  granted : List (TrafficClass × Bool)
  identIn : SMap (BitVec 120)
  signed : Bool
  delayNs : Nat
deriving DecidableEq, Repr

structure Fabric where
  ports : List Port
  down : List Link
deriving DecidableEq, Repr

/-! ## Rinks, collectives and recovery -/

/-- A gather in progress (R290): its operation and the members whose pieces are in, this module's own once it has gone
out. -/
structure GatherRun where
  op : U32
  got : List Nat
deriving DecidableEq, Repr

/-- Collectives, the replica reduction and barriers (R289 to R306): entered barriers, the release times of released ones,
the operations whose own contribution has gone out, the gathers of the step, T_r and
D_r, the active set, the rinks that join (with the step) and those that leave at the next boundary, the rink votes held
under 32·voter + rink (1 for a 0 vote, 2 for a 1 vote), this module's votes, the times at which the rinks' contributions
arrived, I_s, the weights of the contributions by rink,
the replica buffers whose contribution is complete, whether the carry areas are written, the manifest's host count and the
entries that it covers under their offset in replay mode, the step whose second barrier of a snapshot has been entered, and
the step of the last consistent snapshot (R293). -/
structure Coll where
  entered : List U32
  released : SMap U64
  scattered : List U32
  gathers : List GatherRun
  tr : Option U64
  deadline : Option U64
  active : U32
  joins : List (Nat × U64)
  leaves : List Nat
  votes : SMap Nat
  mine : SMap Nat
  arrivals : SMap U64
  included : Option U32
  weights : SMap Nat
  sentBufs : List Nat
  carried : Bool
  hostCount : U64
  hostEntries : SMap (BitVec 128)
  snapshotAt : Option U64
  snapshot : Option U64
deriving DecidableEq, Repr

/-- Recovery (R309 to R327): the marshal role, the lowest index heard below this module's, a pause and the
positions it is for, those whose adoption is awaited, those adopted since the last commit, a Restore phase in progress with
the tandem pages sent to a standby module and not acknowledged, a settling whose refreshes are under way, a rink reset to be
resumed from, a tandem refresh that is due, the pages it
has sent and not had acknowledged, the pages that the sweep of step 0 has closed (whose stamp of 0 shows no step),
whether the replica check has passed, the CRCs of the pages under it, a step abort in progress, whether
this rink has left the active set, and whether this module has joined by adoption since the last commit. -/
structure Recovery where
  marshal : Bool
  heard : Option Nat
  paused : Bool
  lost : List Coord
  awaited : List Coord
  adopted : List Coord
  restoring : Bool
  kept : List Nat
  settled : Bool
  resume : Bool
  refreshing : Bool
  refreshStep : U64
  unacked : List Nat
  swept : List Nat
  replicaOk : Bool
  crcs : SMap U32
  abortPending : Bool
  left : Bool
  joined : Bool
deriving DecidableEq, Repr

/-! ## Key/value cache -/

/-- A walker snapshot (R226). -/
structure Snapshot where
  core : Core
  op : U32
  slot : Nat
  gen : U32
  pages : List Nat
deriving DecidableEq, Repr

/-- The prefix unit and the written HELD ranges, with the slot records, as the running step found them: a replay meets them
so again (R21; DEDUCED, assumption log 40). -/
structure KvStart where
  index : List (U64 × Nat)
  refs : SMap Nat
  freeQ : List Nat
  held : Mem
deriving DecidableEq, Repr

/-- The prefix unit (R218, R225, R227): index entries in order of entry, reference counts, the free queue,
walker snapshots, edits whose publication is deferred (slot and op index), the status that each such slot had before its
edit, the status of the cache record handled last (R220), and what the running step found. -/
structure Kv where
  index : List (U64 × Nat)
  refs : SMap Nat
  freeQ : List Nat
  snaps : List Snapshot
  edits : List (Nat × U32)
  prior : SMap Nat
  result : U16
  start : Option KvStart
deriving DecidableEq, Repr

/-! ## Gatehouse -/

/-- The causes of odd samples in the order of the causes table (R346). -/
inductive OddCause where
  | check | alive | dims | nan | overLength | budget | reserved
deriving DecidableEq, Repr

/-- What a slot of a row holds (R344): tokens, or a pixel sample's frames as element bytes with their tile
exponents. -/
inductive Content where
  | tokens (t : List U32)
  | frames (n : Nat) (bytes : List Byte) (exps : List Byte)
deriving DecidableEq, Repr

/-- A sample of the batch being built (R343, R453): its descriptor and row, whether its bytes are awaited or a reserve
entry is, and its slot's content. -/
structure Sample where
  desc : BitVec 512
  row : Option Nat
  awaiting : Bool
  needsReserve : Bool
  content : Option Content
deriving DecidableEq, Repr

/-- One channel of the Gatehouse (R330 to R347): its table entry, the ring's control block, size, producer and consumer,
the ring entry where the current batch starts and the next one to be taken, the batch number, the running mean, both alive
streams, the batch's budget, its samples, row occupancies and slot counts, whether its last descriptor is in, its reserve
list and the entries used, its counts (in the order of R375), the number of batches counted, and the state blocks of the
batch starts that are held. -/
structure GhChan where
  cfg : BitVec 1024
  ctrl : U64
  ringLog : Nat
  producer : U64
  consumer : U64
  ringPos : U64
  taken : U64
  batch : U64
  meanQ : U32
  descSet : Bool
  descAlive : Byte
  recSet : Bool
  recAlive : Byte
  budget : Nat
  samples : List Sample
  occ : List Nat
  cnt : List Nat
  ended : Bool
  reserve : Option (List Nat)
  used : Nat
  tally : List Nat
  built : Nat
  saved : List (BitVec 512)
deriving DecidableEq, Repr

/-- A dictionary entry (R341). -/
structure DictEntry where
  token : U32
  bytes : List Byte
deriving DecidableEq, Repr

/-- The Gatehouse: its channels, the dictionary store with its fallback base and whether it is loaded, whether a rebuild
is due, and whether that rebuild starts from the STATE page (R348). -/
structure Gatehouse where
  chans : List GhChan
  dict : List DictEntry
  fallback : U32
  loaded : Bool
  rebuilding : Bool
  fromPage : Bool
deriving DecidableEq, Repr

/-! ## Self-test -/

/-- Self-test (R426 to R431): whether a sweep is held, what held sweeps have found and the next job's record is to show
(the events, their number, and the counts that go with them), the core rotated last, the parked cores under test with
whether a rotation parked them, and the physical cores due for a remap at the replay (R97). -/
structure SelfTest where
  sweepHeld : Bool
  foundCount : U32
  foundEvents : SMap Event
  foundCounts : Counts
  rotationLast : Nat
  parked : List (Nat × Bool)
  due : List Nat
deriving DecidableEq, Repr

/-! ## The job -/

/-- Where a job stands (R371, R374, R56). -/
inductive JobPhase where
  | barrier | settling | boundary | inStep | aborted | atCut | dumping | held | refreshing | halted
deriving DecidableEq, Repr

/-- A job: its descriptor with what the module fetched beside it, its phase, its refusal at the start, the replays since the
last commit, the step whose admission records are taken with the records of each host admission table (R370), and the end
status that waits. -/
structure Job where
  desc : BitVec 2048
  image : Image
  channels : List (BitVec 1024)
  rings : List (BitVec 256)
  ringCounts : List (U64 × U64)
  identity : Digest
  phase : JobPhase
  refusal : Option U16
  replays : Nat
  admitted : Option Nat
  taken : List (List Nat)
  stop : U16
deriving DecidableEq, Repr

/-! ## What the module sends -/

/-- Messages of the recovery and control classes that a module floods or sends. -/
inductive Msg where
  | stopNotice (code : U16)
  | abortJob
  | stepAbort
  | pause (lost : List Coord)
  | leave (rink : Nat)
  | rinkReset
  | linkDown (l : Link)
  | linkUp (l : Link)
  | marshalBeat (index : Nat)
  | lostNotice
  | jobStart (refused : Bool) (identity fields : Digest)
  | bankLoad (refused : Bool) (bank : Bool) (identity : Digest)
  | identityRelease (pass : Bool)
  | barrierEnter (op : U32)
  | barrierRelease (op : U32) (time : U64)
  | vote (rink : Nat) (one : Bool)
  | rinkVote (rink : Nat) (one : Bool)
  | rejoinRequest (rink : Nat)
  | rejoinStep (rink : Nat) (step : U64)
  | replicaCheck (rec : BitVec 128)
  | formation
  | adoptionJoin (identity : Digest)
  | opened (op : U32) (unit : Nat)
  | pageDone (op : U32) (page unit : Nat)
deriving DecidableEq, Repr

/-- Link words (R270). `swap`, `swapAt`, `retire` and `laserLow` are forms of the SWAP word: a request, the switch fseq, a
fibre's leaving with the port frame from which it is gone, and a laser below its monitor limit. `beat` names its lane
(R281). -/
inductive LinkWord where
  | idle
  | credit (grants : List Grant)
  | nack (fseq : U16)
  | beat (lane : Nat) (count : U64) (sample : U64)
  | swap (fibre place : Nat) (calibration : Bool)
  | swapAt (fibre place : Nat) (switchAt : U16)
  | retire (fibre : Nat) (at' : U16)
  | laserLow (fibre place : Nat)
  | ident (index : Nat) (part : BitVec 120)
deriving DecidableEq, Repr

/-- What leaves the module. -/
inductive Out where
  | msix (vector : Nat) (addr : U64) (data : U32)
  | linkWord (port : PortId) (w : LinkWord)
  | frames (port : PortId) (frames : List Frame)
  | deliver (p : Packet)
  | send (m : Msg)
  | segment (dest : Nat) (op : U32) (seg : Segment)
  | close (dest : Nat) (op : U32) (source : Nat) (c : Close)
  | piece (ports : List PortId) (op : U32) (p : Piece)
  | tandemPage (p : PageIn)
  | tandemAck (page : Nat)
  | restorePage (p : PageIn)
  | restoreAck (page : Nat)
  | rejoinPage (p : PageIn)
  | parkBlocks (peer base : Nat) (bytes : List Byte)
  | fetchBlocks (peer base len : Nat)
  | replicaPiece (dest : Nat) (addr : Nat) (bytes : List Byte)
deriving DecidableEq, Repr

/-! ## The state of the module -/

/-- The whole module: its units, the commands of each operation that have ended in the running step (R50), what it has sent
(oldest first), the counter that free values are drawn
under (the model's own field, assumption log 3), the commands of the step that a handshake holds back, in the order in
which they came (R31, assumption log 13), and the queue of commands that wait to be taken. -/
structure State where
  mgt : Mgt
  link : HostLink
  ring : JobRing
  sideband : Sideband
  status : StatusRec
  hostMem : Mem
  fuses : Fuses
  flash : Flash
  config : BitVec 512
  site : BitVec 4096
  siteAlive : Byte
  controllers : Controllers
  power : Power
  time : Timebase
  hbm : Hbm
  cores : Cores
  banks : Banks
  msu : Msu
  fabric : Fabric
  coll : Coll
  recovery : Recovery
  kv : Kv
  gatehouse : Gatehouse
  selfTest : SelfTest
  job : Option Job
  ended : SMap Nat
  sent : List Out
  free : Nat
  stalled : List Instr
  pending : List Instr
deriving DecidableEq, Repr

/-! ## Why a step can stop -/

/-- Faults. -/
inductive Fault where
  /-- An access to a device address at or above 0xC0_0000_0000, or beyond the HDM decoder (R233, R367):
  raised by CXL_MEM_READ and CXL_MEM_WRITE. Safe: the manual says no such byte exists. -/
  | outsideDevice
deriving DecidableEq, Repr

/-- Refusals. -/
inductive Refusal where
  /-- A command that has no meaning yet: raised by `exec`'s refused arms only. Safe. -/
  | notModelled (mnemonic : String)
  /-- An operation that the manual says is refused when the program is built and never reaches the module; the
  number is the rule's. Raised by the engine commands on ill-formed operands. Safe. -/
  | refusedAtBuild (rule : Nat)
deriving DecidableEq, Repr

/-! ## Reset -/

def Mgt.reset : Mgt where
  state := .boot
  cmdCode := 0
  cmd := 0
  cmdState := .idle
  arg0 := 0
  arg1 := 0
  arg2 := 0
  temp := 0
  power := 0
  ringBase := 0
  ringCtrl := 0
  ringSize := 4
  statusAddr := 0
  intStatus := 0
  intEnable := 0
  bootStatus := 0
  msixTable := 0x00000001000000000000000000000000_00000001000000000000000000000000_00000001000000000000000000000000_00000001000000000000000000000000
  msixPba := 0

def Telemetry.zero : Telemetry := ⟨0, 0, 0, 0, []⟩

def Counts.zero : Counts := ⟨0, 0, 0, 0, 0, 0, 0, 0, 0, 0, 0, 0, 0, 0, 0⟩

/-- The status record before any job (R375: update_seq is 0 at power-on; JOB_IDLE is code 0). -/
def StatusRec.reset : StatusRec where
  updateSeq := 0
  jobId := 0
  step := 0
  committed := 0
  time := 0
  status := 0
  inputWait := false
  unsync := false
  paceWait := false
  paused := false
  replayMode := false
  cutStep := 0
  cutOp := 0
  eventCount := 0
  events := []
  counts := Counts.zero
  hbmCe := []
  inclStep := 0
  active := 0
  included := 0
  telemetry := Telemetry.zero
  gh := []

def OwnerSlot.empty : OwnerSlot := ⟨0, 0, false, false, false⟩

/-- Fuses as the model takes them at reset: a module as it leaves the factory, in Manufactured, with a vendor root
key whose digest is the fused one (assumption log 8: the values are the model's). -/
def Fuses.initial : Fuses where
  vendorRootHash := 0xd875db7def232236aec738c6b0bb3e80142f5d0fd8f4df24fed6eef5cbb50d9f
  romKey :=
    0x6b17d1f2e12c4247f8bce6e563a440f277037d812deb33a0f4a13945d898c2964fe342e2fe1a7f9b8ee7eb4a7c0f9e162bce33576b315ececbb6406837bf51f5
  deviceSecret := 0
  deviceId := 0
  lifecycle := .manufactured
  slot0 := OwnerSlot.empty
  slot1 := OwnerSlot.empty
  slot2 := OwnerSlot.empty
  slot3 := OwnerSlot.empty
  deadCores := []
  deadRows := []
  deadWaves := []

def Flash.initial : Flash := ⟨[], none, 0, 0, 0, 0, 0, none⟩

/-- A fibre at power-on: λ0 to λ7 carry its lanes and λ8 is its spare (R265). -/
def Fibre.fresh : Fibre := ⟨false, [0, 1, 2, 3, 4, 5, 6, 7], some 8⟩

/-- Full credits of a port, in blocks of 64 B (R275, R276): 64 for each virtual channel and the rest of the
class buffer shared. -/
def Port.fullCredits : List (Nat × Nat × Nat) :=
  [(64, 64, 0x40000 / 64 - 128), (64, 64, 0x40000 / 64 - 128),
   (64, 64, 0x300000 / 64 - 128), (64, 64, 0x180000 / 64 - 128)]

def Port.reset : Port where
  phase := .dark
  attempts := 0
  fibres := List.replicate 16 Fibre.fresh
  txFibres := List.replicate 16 Fibre.fresh
  txNext := 0
  window := []
  rxNext := 0
  rxDiscard := false
  rxData := []
  credits := Port.fullCredits
  queues := List.replicate 8 []
  share := 0
  beats := 0
  nonce := 0
  swaps := []
  mirrors := []
  calibrating := none
  rejects := []
  granted := []
  identIn := []
  signed := false
  delayNs := 0

def Lanes.reset : Lanes := ⟨0, 0, 0, false, 0, [], []⟩

def Cores.reset : Cores where
  scratch := []
  drain := []
  cells := []
  cellExps := []
  checker := []
  planeInUse := []
  planes := []
  foot := []
  window := []
  groupDraws := []
  rings := []
  haloSent := []
  haloReady := []
  ctl := []
  cv := []
  lanes := Lanes.reset
  lodge := []

def Bank.empty : Bank := ⟨none, 0, 0, []⟩

def Banks.reset : Banks := ⟨Bank.empty, Bank.empty, false, false, none⟩

def Msu.reset : Msu := ⟨[], [], [], []⟩

def Coll.reset : Coll where
  entered := []
  released := []
  scattered := []
  gathers := []
  tr := none
  deadline := none
  active := 0
  joins := []
  leaves := []
  votes := []
  mine := []
  arrivals := []
  included := none
  weights := []
  sentBufs := []
  carried := false
  hostCount := 0
  hostEntries := []
  snapshotAt := none
  snapshot := none

def Recovery.reset : Recovery where
  marshal := false
  heard := none
  paused := false
  lost := []
  awaited := []
  adopted := []
  restoring := false
  kept := []
  settled := false
  resume := false
  refreshing := false
  refreshStep := 0
  unacked := []
  swept := []
  replicaOk := true
  crcs := []
  abortPending := false
  left := false
  joined := false

def Kv.reset : Kv := ⟨[], [], [], [], [], [], 0, none⟩

def GhChan.reset : GhChan where
  cfg := 0
  ctrl := 0
  ringLog := 4
  producer := 0
  consumer := 0
  ringPos := 0
  taken := 0
  batch := 0
  meanQ := 0
  descSet := false
  descAlive := 0
  recSet := false
  recAlive := 0
  budget := 4096
  samples := []
  occ := []
  cnt := []
  ended := false
  reserve := none
  used := 0
  tally := []
  built := 0
  saved := []

def Gatehouse.reset : Gatehouse := ⟨List.replicate 16 GhChan.reset, [], 0, false, false, false⟩

/-- HBM after power-on (R394): visible memory, stamps, commit word, tandem reserve and poison marks are zero;
the core map is written by boot self-test. -/
def Hbm.reset : Hbm where
  dev := []
  tandem := []
  saveArea := []
  stamps := []
  tandemStamps := []
  commitWord := 0
  poison := []
  tandemPoison := []
  repairPoison := []
  ceRows := []
  remapDue := []
  remapped := []
  sweepRows := []
  sweepCores := []
  sweepWaves := []
  fastRefresh := []
  selfRefresh := false
  serving := false
  coreMap := []
  saves := []
  savePoison := []
  amendment := none
  counted := []

/-- The power manager with every rail off, the input not yet in range, and the ceilings at their highest
(R413, R414). -/
def Power.reset : Power where
  phase := .off
  warm := false
  locked := false
  tripped := false
  rails := false
  volts := List.replicate 24 0
  cap := List.replicate 16 850
  thermal := List.replicate 24 850
  pace := List.replicate 16 850
  share := 0
  overcurrent := false
  thermalHold := false
  capHold := false
  inRange := true
  rinkPace := 850
  paceHigh := 0
  paceLow := 0
  stackRate := List.replicate 12 1
  sensorSwapped := List.replicate 24 false

def Sideband.reset : Sideband := ⟨true, true, false, 0, false, false, none⟩

def HostLink.reset : HostLink := ⟨false, false, .x16, .gt32, true, false, 0xC0_0000_0000, [], []⟩

def Timebase.reset : Timebase := ⟨0, false, true, false, ⟨0, 0, 0⟩, [], 0, false⟩

/-- The module right after a power-on reset (R393, R394): the input has risen out of lockout, no phase of the
boot sequence has run, and no command waits. -/
def State.reset : State where
  mgt := Mgt.reset
  link := HostLink.reset
  ring := ⟨0, 0, false, false⟩
  sideband := Sideband.reset
  status := StatusRec.reset
  hostMem := []
  fuses := Fuses.initial
  flash := Flash.initial
  config := 0
  site := 0
  siteAlive := 0
  controllers := ⟨true, false, false, false, none⟩
  power := Power.reset
  time := Timebase.reset
  hbm := Hbm.reset
  cores := Cores.reset
  banks := Banks.reset
  msu := Msu.reset
  fabric := ⟨List.replicate 6 Port.reset, []⟩
  coll := Coll.reset
  recovery := Recovery.reset
  kv := Kv.reset
  gatehouse := Gatehouse.reset
  selfTest := ⟨false, 0, [], Counts.zero, 143, [], []⟩
  job := none
  ended := []
  sent := []
  free := 0
  stalled := []
  pending := []

end Sys2Proof.Machine
end

