-- ==== Sys2Proof/Machine/Bits.lean ====
section
/-! DEFINITION. Bit fields, byte order (R10, R11), the sparse stores and their operations, and small list
helpers used by every unit. -/

namespace Sys2Proof.Machine

/-! ## Bits and bytes -/

/-- Bits [hi:lo] as a number (R10). -/
def field {w : Nat} (x : BitVec w) (hi lo : Nat) : Nat := (x.toNat >>> lo) % 2 ^ (hi + 1 - lo)

/-- Bit [n] (R10). -/
def bitAt {w : Nat} (x : BitVec w) (n : Nat) : Bool := x.getLsbD n

/-- `x` with bits [hi:lo] replaced. -/
def setField {w : Nat} (x : BitVec w) (hi lo v : Nat) : BitVec w :=
  let m := ((2 ^ (hi + 1 - lo) - 1) <<< lo)
  BitVec.ofNat w ((x.toNat &&& (2 ^ w - 1 - m % 2 ^ w)) ||| ((v % 2 ^ (hi + 1 - lo)) <<< lo))

/-- `x` with bit [n] set or cleared. -/
def setBit {w : Nat} (x : BitVec w) (n : Nat) (b : Bool) : BitVec w := setField x n n b.toNat

/-- Reverse the low `n` bits. -/
def bitrev : Nat → Nat → Nat
  | 0, _ => 0
  | n + 1, x => (x % 2) * 2 ^ n + bitrev n (x / 2)

/-- The number of ones among the low `n` bits. -/
def popcount : Nat → Nat → Nat
  | 0, _ => 0
  | n + 1, x => x % 2 + popcount n (x / 2)

/-- The `n` little-endian bytes of a number (R11). -/
def leBytes : Nat → Nat → List Byte
  | 0, _ => []
  | n + 1, x => BitVec.ofNat 8 x :: leBytes n (x / 256)

/-- The number whose little-endian bytes these are (R11). -/
def ofLe : List Byte → Nat
  | [] => 0
  | b :: bs => b.toNat + 256 * ofLe bs

/-- The number whose big-endian bytes these are (digests and signature components, R11). -/
def ofBe (bs : List Byte) : Nat := bs.foldl (fun a b => 256 * a + b.toNat) 0

/-- The `n` big-endian bytes of a number. -/
def beBytes (n x : Nat) : List Byte := (leBytes n x).reverse

/-- A byte string of `n` bytes packed as `n`-byte field whose byte 0 is lowest, read as big-endian (R11). -/
def digestOfField (x : Nat) : Digest := BitVec.ofNat 256 (ofBe (leBytes 32 x))

/-- The field value of a digest: its bytes in order, byte 0 lowest (R11). -/
def fieldOfDigest (d : Digest) : Nat := ofLe (beBytes 32 d.toNat)

/-- The signed value of the low `w` bits. -/
def signed (w x : Nat) : Int := (BitVec.ofNat w x).toInt

/-- Ceiling division. -/
def ceilDiv (a b : Nat) : Nat := (a + b - 1) / b

/-! ## Byte stores -/

/-- The byte at an address; an address that is not listed reads as `fill`. -/
def Mem.get (fill : Byte) : Mem → Nat → Byte
  | [], _ => fill
  | (k, v) :: m, a => if k = a then v else if a < k then fill else Mem.get fill m a

/-- The entries below an address. -/
def Mem.below : Mem → Nat → Mem
  | [], _ => []
  | (k, v) :: m, a => if k < a then (k, v) :: Mem.below m a else []

/-- The entries at or above an address. -/
def Mem.above : Mem → Nat → Mem
  | [], _ => []
  | (k, v) :: m, a => if k < a then Mem.above m a else (k, v) :: m

/-- The entries of consecutive bytes from an address, without those that equal `fill`. -/
def Mem.block (fill : Byte) : Nat → List Byte → Mem
  | _, [] => []
  | a, b :: bs => if b = fill then Mem.block fill (a + 1) bs else (a, b) :: Mem.block fill (a + 1) bs

/-- Write consecutive bytes from an address. -/
def Mem.write (fill : Byte) (m : Mem) (a : Nat) (bs : List Byte) : Mem :=
  Mem.below m a ++ (Mem.block fill a bs ++ Mem.above m (a + bs.length))

/-- Clear a range to `fill`. -/
def Mem.clear (m : Mem) (a len : Nat) : Mem := Mem.below m a ++ Mem.above m (a + len)

/-- Place `n` bytes of a store, from `src` on, at `dst` of another; both read as the same byte where nothing is listed. -/
def Mem.copy (store : Mem) (src n dst : Nat) (m : Mem) : Mem :=
  Mem.below m dst ++ ((Mem.below (Mem.above store src) (src + n)).map fun c => (c.1 - src + dst, c.2)) ++
    Mem.above m (dst + n)

/-- `n` bytes from an address. -/
def Mem.read (fill : Byte) (m : Mem) (a : Nat) : Nat → List Byte
  | 0 => []
  | n + 1 => Mem.get fill m a :: Mem.read fill m (a + 1) n

/-- The canonical form from a lower bound on: addresses strictly rising, no entry equal to `fill`. -/
def Mem.wfFrom (fill : Byte) : Nat → Mem → Bool
  | _, [] => true
  | lo, (k, v) :: m => decide (lo ≤ k) && (v != fill) && Mem.wfFrom fill (k + 1) m

/-- The canonical form of a byte store. -/
def Mem.wf (fill : Byte) (m : Mem) : Bool := Mem.wfFrom fill 0 m

/-! ## Sparse maps -/

/-- The entry under a key, or the default. -/
def SMap.get {α : Type} (d : α) : SMap α → Nat → α
  | [], _ => d
  | (k, v) :: m, a => if k = a then v else if a < k then d else SMap.get d m a

/-- Remove a key. -/
def SMap.erase {α : Type} : SMap α → Nat → SMap α
  | [], _ => []
  | (k, v) :: m, a => if k < a then (k, v) :: SMap.erase m a else if k = a then m else (k, v) :: m

/-- Put an entry under a key, keeping the order. -/
def SMap.put {α : Type} : SMap α → Nat → α → SMap α
  | [], a, x => [(a, x)]
  | (k, v) :: m, a, x =>
    if k < a then (k, v) :: SMap.put m a x else if k = a then (a, x) :: m else (a, x) :: (k, v) :: m

/-- Set the entry under a key; setting it to the default removes it. -/
def SMap.set {α : Type} [DecidableEq α] (d : α) (m : SMap α) (a : Nat) (x : α) : SMap α :=
  if x = d then SMap.erase m a else SMap.put m a x

/-- The canonical form of a sparse map from a lower bound on. -/
def SMap.wfFrom {α : Type} [DecidableEq α] (d : α) : Nat → SMap α → Bool
  | _, [] => true
  | lo, (k, v) :: m => decide (lo ≤ k) && decide (v ≠ d) && SMap.wfFrom d (k + 1) m

/-- The canonical form of a sparse map. -/
def SMap.wf {α : Type} [DecidableEq α] (d : α) (m : SMap α) : Bool := SMap.wfFrom d 0 m

/-! ## Lists -/

/-- The list with its `i`-th element changed; unchanged where there is none. -/
def updNth {α : Type} (f : α → α) : List α → Nat → List α
  | [], _ => []
  | x :: xs, 0 => f x :: xs
  | x :: xs, i + 1 => x :: updNth f xs i

/-- The `i`-th element, or a default. -/
def nthD {α : Type} (d : α) : List α → Nat → α
  | [], _ => d
  | x :: _, 0 => x
  | _ :: xs, i + 1 => nthD d xs i

/-- Insert into a list of numbers kept in rising order without repeats. -/
def insertNat : List Nat → Nat → List Nat
  | [], n => [n]
  | x :: xs, n => if n < x then n :: x :: xs else if n = x then x :: xs else x :: insertNat xs n

/-- The numbers lo, lo + 1, …, `n` of them. -/
def upFrom (lo : Nat) : Nat → List Nat
  | 0 => []
  | n + 1 => lo :: upFrom (lo + 1) n

/-- Cut a list into pieces of `n` (`fuel` bounds the pieces). -/
def chunksFuel {α : Type} (n : Nat) : Nat → List α → List (List α)
  | 0, _ => []
  | _, [] => []
  | fuel + 1, xs => xs.take n :: chunksFuel n fuel (xs.drop n)

/-- Cut a list into pieces of `n` elements, the last one shorter where it must be. -/
def chunks {α : Type} (n : Nat) (xs : List α) : List (List α) := chunksFuel n xs.length xs

/-- Add one to a u32 count that holds at 0xFFFF_FFFF (R375). -/
def satInc (c : U32) (n : Nat) : U32 := BitVec.ofNat 32 (min (c.toNat + n) 0xFFFFFFFF)

end Sys2Proof.Machine
end

