-- ==== Sys2Proof/Machine/Num.lean ====
section
/-! DEFINITION. Number formats (R60 to R62), exact values, conversion (R73, R75), FP32 arithmetic (R70, R71), the total
order of R72, and tile exponents (R64 to R66). -/

namespace Sys2Proof.Machine

/-! ## Exact values -/

/-- An exact floating-point value: NaN, an infinity, or a sign and a magnitude (a zero keeps its sign, R71). -/
inductive FV where
  | nan
  | inf (neg : Bool)
  | num (neg : Bool) (mag : Rat)
deriving DecidableEq, Repr

/-- 2 to an integer power. -/
def pow2 : Int → Rat
  | .ofNat n => ((2 ^ n : Nat) : Rat)
  | .negSucc n => mkRat 1 (2 ^ (n + 1))

/-- floor(log2 a) for a > 0. -/
def flog2 (a : Rat) : Int :=
  let g : Int := (Nat.log2 a.num.natAbs : Int) - (Nat.log2 a.den : Int)
  if a < pow2 g then g - 1 else g

/-- Round to an integer, to nearest with ties to even. -/
def rneInt (a : Rat) : Int :=
  let f := a.floor
  let d := a - (f : Rat)
  if d < mkRat 1 2 then f else if mkRat 1 2 < d then f + 1 else if f % 2 = 0 then f else f + 1

def FV.zero : FV := .num false 0

/-- The value of a rational number; an exact zero is +0. -/
def FV.ofRat (q : Rat) : FV := if q < 0 then .num true (-q) else .num false q

/-- The rational number of a finite value. -/
def FV.toRat : FV → Rat
  | .num neg m => if neg then -m else m
  | _ => 0

def FV.isNan : FV → Bool
  | .nan => true
  | _ => false

def FV.isInf : FV → Bool
  | .inf _ => true
  | _ => false

def FV.isFinite : FV → Bool
  | .num _ _ => true
  | _ => false

def FV.isZero : FV → Bool
  | .num _ m => m == 0
  | _ => false

def FV.neg : FV → FV
  | .nan => .nan
  | .inf s => .inf (!s)
  | .num s m => .num (!s) m

def FV.abs : FV → FV
  | .nan => .nan
  | .inf _ => .inf false
  | .num _ m => .num false m

/-- The exact sum; an exact zero sum of operands of opposite sign is +0 (R70). -/
def FV.add : FV → FV → FV
  | .nan, _ => .nan
  | _, .nan => .nan
  | .inf s, .inf t => if s = t then .inf s else .nan
  | .inf s, _ => .inf s
  | _, .inf t => .inf t
  | .num s a, .num t b =>
    let q := (if s then -a else a) + (if t then -b else b)
    if q = 0 then .num (s && t) 0 else FV.ofRat q

/-- The exact product; a zero product has the exclusive or of the signs (R70). -/
def FV.mul : FV → FV → FV
  | .nan, _ => .nan
  | _, .nan => .nan
  | .inf s, .inf t => .inf (xor s t)
  | .inf s, .num t b => if b = 0 then .nan else .inf (xor s t)
  | .num s a, .inf t => if a = 0 then .nan else .inf (xor s t)
  | .num s a, .num t b => .num (xor s t) (a * b)

/-- The exact quotient (R70). -/
def FV.div : FV → FV → FV
  | .nan, _ => .nan
  | _, .nan => .nan
  | .inf _, .inf _ => .nan
  | .inf s, .num t _ => .inf (xor s t)
  | .num s _, .inf t => .num (xor s t) 0
  | .num s a, .num t b =>
    if b = 0 then (if a = 0 then .nan else .inf (xor s t)) else .num (xor s t) (a / b)

/-- Exact comparison of two values that are no NaN. -/
def FV.lt : FV → FV → Bool
  | .nan, _ => false
  | _, .nan => false
  | .inf s, .inf t => s && !t
  | .inf s, .num _ _ => s
  | .num _ _, .inf t => !t
  | a, b => decide (a.toRat < b.toRat)

/-- Equality as a comparison (R71): NaN is unordered, and −0 equals +0. -/
def FV.eqv : FV → FV → Bool
  | .nan, _ => false
  | _, .nan => false
  | .inf s, .inf t => s == t
  | .inf _, .num _ _ => false
  | .num _ _, .inf _ => false
  | a, b => decide (a.toRat = b.toRat)

/-! ## Formats -/

/-- The parameters of a floating-point format (R60). -/
structure FmtP where
  ebits : Nat
  mbits : Nat
  bias : Nat
  hasInf : Bool
deriving DecidableEq, Repr

/-- R60; INT32 has none and takes FP32's place. -/
def fmtP : Fmt → FmtP
  | .e4m3 => ⟨4, 3, 7, false⟩
  | .e5m2 => ⟨5, 2, 15, true⟩
  | .bf16 => ⟨8, 7, 127, true⟩
  | .fp16 => ⟨5, 10, 15, true⟩
  | .fp32 => ⟨8, 23, 127, true⟩
  | .int32 => ⟨8, 23, 127, true⟩

/-- Bytes of an element. -/
def fmtBytes : Fmt → Nat
  | .e4m3 => 1
  | .e5m2 => 1
  | .bf16 => 2
  | .fp16 => 2
  | .fp32 => 4
  | .int32 => 4

def isFp8 : Fmt → Bool
  | .e4m3 => true
  | .e5m2 => true
  | .bf16 => false
  | .fp16 => false
  | .fp32 => false
  | .int32 => false

/-- Infinity of the format, or its canonical NaN where it has none (E4M3). -/
def FmtP.width (p : FmtP) : Nat := 1 + p.ebits + p.mbits

/-- The canonical NaN of a format (R62). -/
def canonNan : Fmt → Nat
  | .e4m3 => 0x7F
  | .e5m2 => 0x7F
  | .bf16 => 0x7FC0
  | .fp16 => 0x7E00
  | .fp32 => 0x7FC00000
  | .int32 => 0x80000000

/-- The largest finite magnitude (R60). -/
def maxFinite (f : Fmt) : Rat :=
  let p := fmtP f
  match f with
  | .e4m3 => 448
  | _ => (2 - pow2 (-(p.mbits : Int))) * pow2 p.bias

/-- The value of an encoding (R61). -/
def decode (f : Fmt) (code : Nat) : FV :=
  let p := fmtP f
  let M := code % 2 ^ p.mbits
  let E := code / 2 ^ p.mbits % 2 ^ p.ebits
  let S := code / 2 ^ (p.mbits + p.ebits) % 2 == 1
  if E = 0 then .num S (mkRat M (2 ^ p.mbits) * pow2 (1 - (p.bias : Int)))
  else if E = 2 ^ p.ebits - 1 ∧ (p.hasInf ∨ M = 2 ^ p.mbits - 1) then
    (if p.hasInf ∧ M = 0 then .inf S else .nan)
  else .num S ((1 + mkRat M (2 ^ p.mbits)) * pow2 ((E : Int) - p.bias))

/-- The encoding of a sign and a magnitude on the format's grid and within its range. -/
def encodeMag (f : Fmt) (neg : Bool) (y : Rat) : Nat :=
  let p := fmtP f
  let s := neg.toNat * 2 ^ (p.mbits + p.ebits)
  if y = 0 then s
  else
    let e := flog2 y
    if e < 1 - (p.bias : Int) then s + (y / pow2 (1 - (p.bias : Int) - p.mbits)).floor.toNat
    else s + (e + p.bias).toNat * 2 ^ p.mbits + ((y / pow2 (e - p.mbits)).floor.toNat - 2 ^ p.mbits)

/-- The infinity of a sign, or the canonical NaN in a format without one. -/
def encodeInf (f : Fmt) (neg : Bool) : Nat :=
  let p := fmtP f
  if p.hasInf then neg.toNat * 2 ^ (p.mbits + p.ebits) + (2 ^ p.ebits - 1) * 2 ^ p.mbits else canonNan f

/-- A magnitude rounded to the grid of a format with no upper bound on its exponent, by a mode (R73). -/
def roundMag (p : FmtP) (rnd : Rnd) (r : Nat) (a : Rat) : Rat :=
  let e := max (flog2 a) (1 - (p.bias : Int))
  let ulp := pow2 (e - p.mbits)
  let lo := ((a / ulp).floor : Rat) * ulp
  let hi := lo + ulp
  match rnd with
  | .tz => lo
  | .ne => (rneInt (a / ulp) : Rat) * ulp
  | .sr => if (r : Int) < ((a - lo) * pow2 32 / ulp).floor then hi else lo

/-- What a conversion yields: the code and what it adds to the saturated and flushed counts (R73, R76, R77). -/
structure Cvt where
  code : Nat
  sat : Nat
  flush : Nat
deriving DecidableEq, Repr

/-- The conversion of R73. -/
def convert (f : Fmt) (rnd : Rnd) (sat : Bool) (r : Nat) : FV → Cvt
  | .nan => ⟨canonNan f, 0, 0⟩
  | .inf s => ⟨encodeInf f s, 0, 0⟩
  | .num s a =>
    if a = 0 then ⟨encodeMag f s 0, 0, 0⟩
    else
      let y := roundMag (fmtP f) rnd r a
      if maxFinite f < y then
        if sat ∨ rnd = .tz then ⟨encodeMag f s (maxFinite f), 1, 0⟩ else ⟨encodeInf f s, 0, 0⟩
      else if y = 0 then ⟨encodeMag f s 0, 0, 1⟩
      else ⟨encodeMag f s y, 0, 0⟩

/-! ## FP32 (R70) -/

/-- The exact value of an FP32 code. -/
def dec32 (x : U32) : FV := decode .fp32 x.toNat

/-- round_ne to FP32: overflow gives an infinity, NaN is canonical (R70, R62). -/
def ne32 (v : FV) : U32 := BitVec.ofNat 32 (convert .fp32 .ne false 0 v).code

def nan32 : U32 := 0x7FC00000
def inf32 : U32 := 0x7F800000
def ninf32 : U32 := 0xFF800000
def one32 : U32 := 0x3F800000
def max32code : U32 := 0x7F7FFFFF

def ofRat32 (q : Rat) : U32 := ne32 (FV.ofRat q)

def add32 (a b : U32) : U32 := ne32 (FV.add (dec32 a) (dec32 b))
def sub32 (a b : U32) : U32 := ne32 (FV.add (dec32 a) (dec32 b).neg)
def mul32 (a b : U32) : U32 := ne32 (FV.mul (dec32 a) (dec32 b))
def div32 (a b : U32) : U32 := ne32 (FV.div (dec32 a) (dec32 b))
/-- fma(a, b, c) with a single rounding (R106). -/
def fma32 (a b c : U32) : U32 := ne32 (FV.add (FV.mul (dec32 a) (dec32 b)) (dec32 c))
/-- Negation and magnitude move the sign; a NaN becomes canonical (R62, R71). -/
def neg32 (a : U32) : U32 := ne32 (dec32 a).neg
def abs32 (a : U32) : U32 := ne32 (dec32 a).abs

/-- The integer square root by its bits, from bit `n` down. -/
def isqrtBits : Nat → Nat → Nat → Nat
  | 0, _, acc => acc
  | n + 1, x, acc =>
    let t := acc + 2 ^ n
    isqrtBits n x (if t * t ≤ x then t else acc)

/-- floor(√x). -/
def isqrt (x : Nat) : Nat := isqrtBits (Nat.log2 x / 2 + 1) x 0

/-- A magnitude that rounds as √a does: exact where √a is on the grid of 2^−k, and otherwise half a unit of 2^−k
above the floor, which no rounding boundary reaches. -/
def sqrtApprox (k : Nat) (a : Rat) : Rat :=
  let x := a * pow2 (2 * k)
  let n := x.floor.toNat
  let r := isqrt n
  if (r * r : Nat) = x then (r : Rat) * pow2 (-(k : Int)) else ((r : Rat) + mkRat 1 2) * pow2 (-(k : Int))

/-- round_ne(√x), FP32 (R70). -/
def sqrt32 (a : U32) : U32 :=
  match dec32 a with
  | .nan => nan32
  | .inf s => if s then nan32 else inf32
  | .num s m => if m = 0 then ne32 (.num s 0) else if s then nan32 else ne32 (.num false (sqrtApprox 140 m))

/-- Maximum by R71. -/
def max32 (a b : U32) : U32 :=
  let x := dec32 a
  let y := dec32 b
  if x.isNan || y.isNan then nan32
  else if x.isZero && y.isZero then (if a = 0 ∨ b = 0 then 0 else a)
  else if FV.lt x y then b else a

/-- Minimum by R71. -/
def min32 (a b : U32) : U32 :=
  let x := dec32 a
  let y := dec32 b
  if x.isNan || y.isNan then nan32
  else if x.isZero && y.isZero then (if a = 0x80000000 ∨ b = 0x80000000 then 0x80000000 else a)
  else if FV.lt y x then b else a

/-- The place of a value in the total order of R72: higher ranks first. -/
def ranksAbove (a b : U32) : Bool :=
  let x := dec32 a
  let y := dec32 b
  if y.isNan then false
  else if x.isNan then true
  else if x.isZero && y.isZero then a == 0 && b == 0x80000000
  else FV.lt y x

/-- An FP32 addition that saturates instead of overflowing, and whether it did (R91, R101). -/
def addSat32 (a b : U32) : U32 × Bool :=
  let v := FV.add (dec32 a) (dec32 b)
  match v with
  | .num s _ =>
    let c := convert .fp32 .ne true 0 v
    if c.sat = 1 then (BitVec.ofNat 32 (encodeMag .fp32 s (maxFinite .fp32)), true)
    else (BitVec.ofNat 32 c.code, false)
  | w => (ne32 w, false)

/-! ## INT32 (R75) -/

/-- The magnitude rounded to an integer by a mode (R75). -/
def roundIntMag (rnd : Rnd) (r : Nat) (a : Rat) : Int :=
  match rnd with
  | .ne => rneInt a
  | .tz => a.floor
  | .sr => if (r : Int) < ((a - (a.floor : Rat)) * pow2 32).floor then a.floor + 1 else a.floor

/-- Float to INT32 (R75). -/
def toInt32 (rnd : Rnd) (sat : Bool) (r : Nat) : FV → Cvt
  | .nan => ⟨0x80000000, 0, 0⟩
  | .inf s => ⟨if sat ∧ ¬ s then 0x7FFFFFFF else 0x80000000, 0, 0⟩
  | .num s a =>
    let m := roundIntMag rnd r a
    let n : Int := if s then -m else m
    if n < -2147483648 ∨ 2147483647 < n then
      if sat then ⟨if s then 0x80000000 else 0x7FFFFFFF, 1, 0⟩ else ⟨0x80000000, 0, 0⟩
    else ⟨(BitVec.ofInt 32 n).toNat, 0, if a ≠ 0 ∧ m = 0 then 1 else 0⟩

/-- The exact value of an INT32. -/
def ofInt32 (x : U32) : FV := FV.ofRat (x.toInt : Rat)

/-! ## Tile exponents (R64 to R66) -/

/-- The value of an FP8 element under its tile exponent (R64). -/
def decodeTile (f : Fmt) (e : Byte) (b : Byte) : FV :=
  if e = 0xFF then .nan
  else match decode f b.toNat with
    | .num s m => .num s (m * pow2 ((e.toNat : Int) - 127))
    | v => v

/-- The smallest integer d with m ≤ F·2^d, for m > 0. -/
def leastScale (F m : Rat) : Int :=
  let d := flog2 m - flog2 F
  if m ≤ F * pow2 (d - 1) then d - 1 else if m ≤ F * pow2 d then d else d + 1

def clampInt (lo hi x : Int) : Int := if x < lo then lo else if hi < x then hi else x

/-- A converted group: its bytes, its exponent and its counts. -/
structure Group where
  bytes : List Nat
  exp : Nat
  sat : Nat
  flush : Nat
deriving DecidableEq, Repr

/-- The largest magnitude among the finite elements of a group. -/
def groupMax : List FV → Rat
  | [] => 0
  | .num _ a :: vs => let m := groupMax vs; if m < a then a else m
  | _ :: vs => groupMax vs

/-- Scale a finite value by 2^−d. -/
def scaleDown (d : Int) : FV → FV
  | .num s a => .num s (a * pow2 (-d))
  | v => v

/-- Convert a group of FP8 elements (R65, R66); `rs` holds the draw of each element. -/
def encodeGroup (f : Fmt) (c : Conv) (vs : List FV) (rs : List Nat) : Group :=
  let nanBlock : Group := ⟨vs.map fun _ => canonNan f, 0xFF, 0, 0⟩
  let hasNan := vs.any FV.isNan
  let go (d : Int) (e : Nat) : Group :=
    let cs := List.zipWith (fun v r => convert f c.rnd c.sat r (scaleDown d v)) vs rs
    ⟨cs.map Cvt.code, e, (cs.map Cvt.sat).sum, (cs.map Cvt.flush).sum⟩
  match c.exp with
  | .given g => if hasNan then nanBlock else go ((g.toNat : Int) - 127) g.toNat
  | .computed =>
    if hasNan || (f == .e4m3 && vs.any FV.isInf) then nanBlock
    else
      let m := groupMax vs
      if m = 0 then go 0 127
      else
        let d := clampInt (-127) 127 (leastScale (maxFinite f) m)
        go d (127 + d).toNat

end Sys2Proof.Machine
end

