-- ==== Sys2Proof/Machine/Crc.lean ====
section
/-! DEFINITION. The polynomials and the feed of the check-value units (R350, R351), the fold (R355), and CRC-32C over a
run of bits (R267). -/

namespace Sys2Proof.Machine

/-- A row of R350. -/
structure PolyRow where
  width : Nat
  poly : Nat
  init : Nat
  refin : Bool
  refout : Bool
  xorout : Nat
deriving DecidableEq, Repr

def polyRow : Poly → PolyRow
  | .crc32c => ⟨32, 0x1EDC6F41, 0xFFFFFFFF, true, true, 0xFFFFFFFF⟩
  | .crc32 => ⟨32, 0x04C11DB7, 0xFFFFFFFF, true, true, 0xFFFFFFFF⟩
  | .crc16 => ⟨16, 0x1021, 0xFFFF, false, false, 0⟩
  | .crc64 => ⟨64, 0x42F0E1EBA9EA3693, 0, false, false, 0⟩

/-- `n` shifts of the register. -/
def crcShift (p : PolyRow) : Nat → Nat → Nat
  | 0, r => r
  | n + 1, r =>
    crcShift p n
      ((if (r >>> (p.width - 1)) % 2 = 1 then (r <<< 1) ^^^ p.poly else r <<< 1) % 2 ^ p.width)

/-- feed_byte of R351. -/
def crcByte (p : PolyRow) (r : Nat) (b : Byte) : Nat :=
  let b' := if p.refin then bitrev 8 b.toNat else b.toNat
  crcShift p 8 (r ^^^ (b' <<< (p.width - 8)))

/-- read of R351. -/
def crcOut (p : PolyRow) (r : Nat) : Nat := (if p.refout then bitrev p.width r else r) ^^^ p.xorout

/-- The check value of a byte string. -/
def crcOf (p : PolyRow) (bs : List Byte) : Nat := crcOut p (bs.foldl (crcByte p) p.init)

/-- CRC-32C of a byte string. -/
def crc32c (bs : List Byte) : U32 := BitVec.ofNat 32 (crcOf (polyRow .crc32c) bs)

/-- The check value of a guarded record: its covered bytes, then the tag and the alive counter (R355). -/
def guardedValue (covered : List Byte) (tag alive : Byte) : U32 := crc32c (covered ++ [tag, alive])

/-- CRC-32C over the `n` low bits of a number, lowest bit first (R267: bit 0 is first on the wire). -/
def crc32cBits : Nat → Nat → Nat → Nat
  | 0, _, r => r ^^^ 0xFFFFFFFF
  | n + 1, x, r =>
    crc32cBits n (x / 2) (if (r ^^^ x) % 2 = 1 then (r / 2) ^^^ 0x82F63B78 else r / 2)

end Sys2Proof.Machine
end

