-- ==== Sys2Proof/Machine/Crypto.lean ====
section
/-! DEFINITION. SHA-256 and ECDSA on the curve P-256 (R397), and the identity key (R400). The manual names the two
standards without restating them; their constants are those of the standards (PRESUMED, assumption log 18). -/

namespace Sys2Proof.Machine

/-! ## SHA-256 -/

/-- A sum of 32-bit words. -/
def wsum (xs : List Nat) : Nat := xs.sum % 2 ^ 32

/-- The largest number below 2^n above `r` whose `k`-th power is at most `x`, built bit by bit. -/
def rootFrom (k x : Nat) : Nat → Nat → Nat
  | 0, r => r
  | n + 1, r => rootFrom k x n (if (r + 2 ^ n) ^ k ≤ x then r + 2 ^ n else r)

/-- The first 32 bits of the fraction of the `k`-th root of `p`. -/
def rootFraction (k p : Nat) : Nat := rootFrom k (p * 2 ^ (32 * k)) 37 0 % 2 ^ 32

/-- The first 64 primes. -/
def shaPrimes : List Nat := (upFrom 2 310).filter fun n => (upFrom 2 16).all fun d => n % d != 0 || n == d

/-- The round constants come from the cube roots of the primes, the first chaining value from the square roots of eight. -/
def shaRoundConst : List Nat := shaPrimes.map (rootFraction 3)
def shaStart : List Nat := (shaPrimes.take 8).map (rootFraction 2)

/-- `x` turned right by `n` places. -/
def turn (x n : Nat) : Nat := x / 2 ^ n + x % 2 ^ n * 2 ^ (32 - n)

/-- The exclusive or of three turns of a word, or of two turns and a shift. -/
def turns (i j k x : Nat) : Nat := turn x i ^^^ turn x j ^^^ turn x k
def turnsShift (i j k x : Nat) : Nat := turn x i ^^^ turn x j ^^^ x / 2 ^ k

/-- The message schedule with its latest word first: `n` more words. -/
def shaExpand : Nat → List Nat → List Nat
  | 0, back => back
  | n + 1, back =>
    let at' := nthD 0 back
    shaExpand n (wsum [at' 6, at' 15, turnsShift 17 19 10 (at' 1), turnsShift 7 18 3 (at' 14)] :: back)

/-- One round on the eight working words, first to last; `kw` is the round constant plus the schedule word. -/
def shaStep (v : List Nat) (kw : Nat) : List Nat :=
  let w := nthD 0 v
  let pick := w 6 ^^^ (w 4 &&& (w 5 ^^^ w 6))
  let most := (w 0 &&& (w 1 ||| w 2)) ||| (w 1 &&& w 2)
  let t := w 7 + turns 6 11 25 (w 4) + pick + kw
  wsum [t, turns 2 13 22 (w 0), most] :: v.take 3 ++ wsum [w 3, t] :: (v.drop 4).take 3

/-- One 64 B block. -/
def shaCompress (chain : List Nat) (block : List Byte) : List Nat :=
  let sched := (shaExpand 48 ((chunks 4 block).map ofBe).reverse).reverse
  let kws := List.zipWith (· + ·) shaRoundConst sched
  List.zipWith (fun x y => wsum [x, y]) chain (kws.foldl shaStep chain)

/-- A message with the bit 1, zeros and its length in bits, to whole blocks. -/
def shaPadded (msg : List Byte) : List Byte :=
  msg ++ (128 :: List.replicate ((119 - msg.length % 64) % 64) 0) ++ beBytes 8 (8 * msg.length)

/-- SHA-256 of a byte string. -/
def sha256 (msg : List Byte) : Digest :=
  BitVec.ofNat 256 (ofBe (((chunks 64 (shaPadded msg)).foldl shaCompress shaStart).map (beBytes 4)).flatten)

/-! ## P-256 -/

def p256P : Nat := 0xffffffff00000001000000000000000000000000ffffffffffffffffffffffff
def p256N : Nat := 0xffffffff00000000ffffffffffffffffbce6faada7179e84f3b9cac2fc632551
def p256B : Nat := 0x5ac635d8aa3a93e7b3ebbd55769886bc651d06b0cc53b0f63bce3c3e27d2604b
def p256Gx : Nat := 0x6b17d1f2e12c4247f8bce6e563a440f277037d812deb33a0f4a13945d898c296
def p256Gy : Nat := 0x4fe342e2fe1a7f9b8ee7eb4a7c0f9e162bce33576b315ececbb6406837bf51f5

/-- b^e mod m over the `n` low bits of the exponent. -/
def powMod (m : Nat) : Nat → Nat → Nat → Nat
  | 0, _, _ => 1 % m
  | n + 1, b, e =>
    let r := powMod m n (b * b % m) (e / 2)
    if e % 2 = 1 then r * b % m else r

/-- The inverse modulo a prime. -/
def invMod (m a : Nat) : Nat := powMod m 256 (a % m) (m - 2)

/-- A point in Jacobian coordinates; z = 0 is the point at infinity. -/
structure Pt where
  x : Nat
  y : Nat
  z : Nat
deriving DecidableEq, Repr

def Pt.inf : Pt := ⟨1, 1, 0⟩

def subMod (a b : Nat) : Nat := (a + p256P - b % p256P) % p256P

def Pt.dbl (q : Pt) : Pt :=
  if q.z = 0 ∨ q.y = 0 then Pt.inf
  else
    let zz := q.z * q.z % p256P
    let m := 3 * (subMod q.x zz) * ((q.x + zz) % p256P) % p256P
    let yy := q.y * q.y % p256P
    let t := 4 * q.x * yy % p256P
    let x := subMod (m * m % p256P) (2 * t)
    let y := subMod (m * subMod t x % p256P) (8 * yy * yy)
    ⟨x, y, 2 * q.y * q.z % p256P⟩

def Pt.add (q r : Pt) : Pt :=
  if q.z = 0 then r
  else if r.z = 0 then q
  else
    let qq := q.z * q.z % p256P
    let rr := r.z * r.z % p256P
    let u1 := q.x * rr % p256P
    let u2 := r.x * qq % p256P
    let s1 := q.y * rr * r.z % p256P
    let s2 := r.y * qq * q.z % p256P
    if u1 = u2 then (if s1 = s2 then Pt.dbl q else Pt.inf)
    else
      let h := subMod u2 u1
      let rd := subMod s2 s1
      let hh := h * h % p256P
      let hhh := h * hh % p256P
      let v := u1 * hh % p256P
      let x := subMod (rd * rd % p256P) (hhh + 2 * v)
      ⟨x, subMod (rd * subMod v x % p256P) (s1 * hhh), h * q.z * r.z % p256P⟩

/-- k·P over the `n` low bits of k. -/
def Pt.smul : Nat → Nat → Pt → Pt
  | 0, _, _ => Pt.inf
  | n + 1, k, q =>
    let r := Pt.smul n (k / 2) (Pt.dbl q)
    if k % 2 = 1 then Pt.add r q else r

/-- The affine coordinates. -/
def Pt.affine (q : Pt) : Option (Nat × Nat) :=
  if q.z = 0 then none
  else
    let i := invMod p256P q.z
    let ii := i * i % p256P
    some (q.x * ii % p256P, q.y * ii * i % p256P)

def p256G : Pt := ⟨p256Gx, p256Gy, 1⟩

def onCurve (x y : Nat) : Bool :=
  decide (x < p256P) && decide (y < p256P) && y * y % p256P == (x * x % p256P * x + (p256P - 3) * x + p256B) % p256P

/-- Whether a signature (r in the upper half, s in the lower) verifies over a message under a public key (X in the
upper half, Y in the lower). -/
def ecdsaVerify (key : BitVec 512) (msg : List Byte) (sig : BitVec 512) : Bool :=
  let x := key.toNat / 2 ^ 256
  let y := key.toNat % 2 ^ 256
  let r := sig.toNat / 2 ^ 256
  let t := sig.toNat % 2 ^ 256
  if onCurve x y ∧ 0 < r ∧ r < p256N ∧ 0 < t ∧ t < p256N then
    let e := (sha256 msg).toNat
    let w := invMod p256N t
    match Pt.affine (Pt.add (Pt.smul 256 (e * w % p256N) p256G) (Pt.smul 256 (r * w % p256N) ⟨x, y, 1⟩)) with
    | none => false
    | some (px, _) => px % p256N == r
  else false

/-! ## Keys (R397, R400) -/

/-- The digest of a public key (R397). -/
def keyDigest (key : BitVec 512) : Digest := sha256 (beBytes 64 key.toNat)

/-- The public key d·G, as X in the upper half and Y in the lower. -/
def publicKey (d : Nat) : BitVec 512 :=
  match Pt.affine (Pt.smul 256 d p256G) with
  | none => 0
  | some (x, y) => BitVec.ofNat 512 (x * 2 ^ 256 + y)

/-- The private and public identity key of a device secret and a seed (R400), trying c from 0 up; `n` bounds the
tries. -/
def identityKeyFrom (ds seed : BitVec 256) : Nat → Nat → Option (Nat × BitVec 512)
  | 0, _ => none
  | n + 1, c =>
    let d := (sha256 (beBytes 32 ds.toNat ++ beBytes 32 seed.toNat ++ [BitVec.ofNat 8 c])).toNat
    if 1 ≤ d ∧ d ≤ p256N - 1 then some (d, publicKey d) else identityKeyFrom ds seed n (c + 1)

def identityKey (ds seed : BitVec 256) : Option (Nat × BitVec 512) := identityKeyFrom ds seed 256 0

end Sys2Proof.Machine
end

