-- ==== Sys2Proof/Machine/Ops.lean ====
section
/-! DEFINITION. The named operations that the meanings share: identities, status codes, interrupts (R379), the status
record (R375, R376), the op counter table (R54, R55), the ends of a job (R374, R328) and the step abort. -/

namespace Sys2Proof.Machine

/-! ## Status and event codes (R376) -/

namespace Code
def jobIdle : U16 := 0x0000
def jobRunning : U16 := 0x0001
def jobDone : U16 := 0x0002
def jobAborted : U16 := 0x0003
def cutReached : U16 := 0x0004
def jobReserved : U16 := 0x0005
def jobField : U16 := 0x0006
def jobMismatch : U16 := 0x0007
def jobDumpSize : U16 := 0x0008
def jobRing : U16 := 0x0009
def progNoStep : U16 := 0x0100
def progShape : U16 := 0x0101
def progImageMismatch : U16 := 0x0102
def progCutRange : U16 := 0x0103
def seAddrRange : U16 := 0x0200
def ccAddrRange : U16 := 0x0201
def ccImageSize : U16 := 0x0202
def ccBankActive : U16 := 0x0203
def ccBankBusy : U16 := 0x0204
def hbmTandemSize : U16 := 0x0300
def hbmPoolSplit : U16 := 0x0301
def hbmUncorrectable : U16 := 0x0302
def msuOrdinal : U16 := 0x0303
def msuRange : U16 := 0x0304
def updNoRow : U16 := 0x0305
def updImmediate : U16 := 0x0306
def updStepRange : U16 := 0x0307
def fabReach : U16 := 0x0400
def fabUnreachable : U16 := 0x0401
def fabBringup : U16 := 0x0402
def fabNeighbour : U16 := 0x0403
def colShape : U16 := 0x0404
def colManifestSet : U16 := 0x0405
def failReplayLimit : U16 := 0x0500
def failNotRoster : U16 := 0x0501
def failHeldLost : U16 := 0x0502
def failTandemLost : U16 := 0x0503
def failStamp : U16 := 0x0504
def failReplicaSplit : U16 := 0x0505
def failNoSpareCore : U16 := 0x0506
def failNoStandby : U16 := 0x0507
def ghChannel : U16 := 0x0600
def ghDict : U16 := 0x0601
def ghRing : U16 := 0x0602
def kvTable : U16 := 0x0603
def cvCheck : U16 := 0x0604
def cvAlive : U16 := 0x0605
def hostWrite : U16 := 0x0606
def kvAdmitLate : U16 := 0x0607
def mgtOk : U16 := 0x0700
def mgtBusy : U16 := 0x0701
def mgtBusyJob : U16 := 0x0702
def mgtBadArg : U16 := 0x0703
def mgtSweepHeld : U16 := 0x0704
def mgtNoJob : U16 := 0x0705
def evMismatch : U16 := 0x0800
def evSpUe : U16 := 0x0801
def evHbmUe : U16 := 0x0802
def evTandemUe : U16 := 0x0803
def evRowRemap : U16 := 0x0804
def evRowSparesOut : U16 := 0x0805
def evCoreRemap : U16 := 0x0806
def evSwap : U16 := 0x0807
def evFibreRetired : U16 := 0x0808
def evPortDown : U16 := 0x0809
def evPageRestore : U16 := 0x080A
def evModuleLost : U16 := 0x080B
def evAdopted : U16 := 0x080C
def evReplicaRepair : U16 := 0x080D
def evReplay : U16 := 0x080E
def evRejoin : U16 := 0x080F
end Code

/-- The op index of an event when none applies (R375). -/
def noOp : U32 := 0xFFFFFFFF

/-- The halts: the statuses that R328 lists. -/
def isHalt (c : U16) : Bool :=
  c == Code.failNoSpareCore || c == Code.failNoStandby || c == Code.failTandemLost || c == Code.failHeldLost ||
    c == Code.hbmUncorrectable || c == Code.fabUnreachable || c == Code.failReplayLimit ||
    c == Code.failReplicaSplit || c == Code.failStamp

/-! ## The site record in force (R388) and the identities it gives (R16, R287) -/

def siteX (r : BitVec 4096) : Nat := field r 127 120
def siteY (r : BitVec 4096) : Nat := field r 135 128
def siteZ (r : BitVec 4096) : Nat := field r 143 136
def siteExtX (r : BitVec 4096) : Nat := field r 103 96
def siteExtY (r : BitVec 4096) : Nat := field r 111 104
def siteExtZ (r : BitVec 4096) : Nat := field r 119 112
/-- True in a machine of several rinks (form 1). -/
def siteSeveral (r : BitVec 4096) : Bool := field r 87 80 == 1
def siteConnected (r : BitVec 4096) (p : Nat) : Bool := bitAt r (72 + p)
def siteNeighbour (r : BitVec 4096) (p : Nat) : Digest := digestOfField (field r (767 + 256 * p) (512 + 256 * p))
def siteRoster (r : BitVec 4096) (i : Nat) : Digest := digestOfField (field r (2303 + 256 * i) (2048 + 256 * i))
/-- The roster's entries in use (R388). -/
def siteRosterCount (r : BitVec 4096) : Nat := field r 95 88

def State.coord (s : State) : Coord := ⟨siteX s.site, siteY s.site, siteZ s.site⟩

/-- The machine index M of a coordinate (R287). -/
def machineIndex (r : BitVec 4096) (c : Coord) : Nat :=
  c.x + siteExtX r * c.y + siteExtX r * siteExtY r * c.z

/-- The rink-local index L of a coordinate (R287). -/
def rinkIndex (r : BitVec 4096) (c : Coord) : Nat :=
  c.x + siteExtX r * c.y + (if siteSeveral r then 0 else siteExtX r * siteExtY r * c.z)

def State.M (s : State) : Nat := machineIndex s.site s.coord
def State.L (s : State) : Nat := rinkIndex s.site s.coord
/-- The rink number z of R286, 0 in a one-rink machine. -/
def State.rink (s : State) : Nat := if siteSeveral s.site then siteZ s.site else 0

/-- The modules of this module's rink. -/
def State.rinkSize (s : State) : Nat :=
  siteExtX s.site * siteExtY s.site * (if siteSeveral s.site then 1 else siteExtZ s.site)

/-- The coordinate with rink-local index `l` in this module's rink. -/
def State.coordOf (s : State) (l : Nat) : Coord :=
  let X := siteExtX s.site
  let Y := siteExtY s.site
  ⟨l % X, (l / X) % Y, if siteSeveral s.site then siteZ s.site else l / (X * Y)⟩

/-- The life-cycle states in which jobs run (R401). -/
def Lifecycle.jobsRun : Lifecycle → Bool
  | .manufactured | .deployed | .returned => true
  | .blank | .provisioned => false

def Lifecycle.code : Lifecycle → Nat
  | .blank => 0
  | .manufactured => 1
  | .provisioned => 2
  | .deployed => 3
  | .returned => 4

def MgtState.code : MgtState → Nat
  | .boot => 0
  | .recovery => 1
  | .linkPcie => 2
  | .ready => 3
  | .running => 4
  | .held => 5
  | .halted => 6

/-- RUNNING, HELD and HALTED count as during a job (R380). -/
def MgtState.duringJob : MgtState → Bool
  | .running | .held | .halted => true
  | .boot | .recovery | .linkPcie | .ready => false

def CmdState.code : CmdState → Nat
  | .idle => 0
  | .busy => 1
  | .done => 2
  | .refused => 3

/-! ## The job descriptor (R371) -/

namespace Desc
def jobId (d : BitVec 2048) : U64 := BitVec.ofNat 64 (field d 63 0)
def firstStep (d : BitVec 2048) : Nat := field d 127 64
def lastStep (d : BitVec 2048) : Nat := field d 191 128
def runSeed (d : BitVec 2048) : U64 := BitVec.ofNat 64 (field d 255 192)
def imageAddr (d : BitVec 2048) : Nat := field d 319 256
def dictAddr (d : BitVec 2048) : Nat := field d 383 320
def channelTable (d : BitVec 2048) : Nat := field d 447 384
def ringTable (d : BitVec 2048) : Nat := field d 511 448
def manifestAddr (d : BitVec 2048) : Nat := field d 575 512
def dumpAddr (d : BitVec 2048) : Nat := field d 639 576
def dumpLen (d : BitVec 2048) : Nat := field d 703 640
def cutStep (d : BitVec 2048) : Nat := field d 767 704
def cutOp (d : BitVec 2048) : Nat := field d 799 768
def cutoffUs (d : BitVec 2048) : Nat := field d 831 800
def entropy (d : BitVec 2048) : Bool := bitAt d 832
def carry (d : BitVec 2048) : Bool := bitAt d 833
def replayMode (d : BitVec 2048) : Bool := bitAt d 834
def recordMode (d : BitVec 2048) : Bool := bitAt d 835
def hasCut (d : BitVec 2048) : Bool := bitAt d 836
def textPresent (d : BitVec 2048) : Bool := bitAt d 837
def manifestCap (d : BitVec 2048) : Nat := field d 895 864
def imageLen (d : BitVec 2048) : Nat := field d 959 896
def dumpRange (d : BitVec 2048) (i : Nat) : Range :=
  ⟨field d (1087 + 128 * i) (1024 + 128 * i), field d (1151 + 128 * i) (1088 + 128 * i)⟩
def dumpRanges (d : BitVec 2048) : List Range := (upFrom 0 8).map (dumpRange d)
/-- Every reserved field is zero (R13). -/
def reservedZero (d : BitVec 2048) : Bool := field d 863 838 == 0 && field d 1023 960 == 0
end Desc

/-! ## Waiting by handshake (R31) -/

/-- A command whose sender is held back: it waits, and acts once what it waits for is there (assumption log 13). -/
def stall (c : Instr) (s : State) : State := { s with stalled := s.stalled ++ [c] }

/-- The waiting commands run again, each on what those before it left; one that must wait on waits on. -/
def retryAll (run : Instr → State → Host.Outcome State Fault Refusal) :
    List Instr → State → Host.Outcome State Fault Refusal
  | [], s => .next s
  | c :: cs, s =>
    match run c s with
    | .next t => retryAll run cs t
    | o => o

/-! ## Messages -/

/-- Send one thing out of the module. -/
def emit (o : Out) (s : State) : State := { s with sent := s.sent ++ [o] }

/-- Send several things, in order. -/
def emitAll (os : List Out) (s : State) : State := { s with sent := s.sent ++ os }

/-! ## The passing of time -/

/-- One nanosecond passes: the timebase counts, if its clock runs and slewing does not leave this nanosecond out (R39,
R40; DESIGN CHOICE of the step on an empty queue, assumption log 2). -/
def tick (s : State) : State :=
  if s.time.running then
    if s.time.skip then { s with time := { s.time with skip := false } }
    else { s with time := { s.time with value := s.time.value + 1 } }
  else s

/-! ## Interrupts (R379) -/

/-- The cause bits of each MSI-X vector. -/
def vectorMask : Nat → Nat
  | 0 => 0x003
  | 1 => 0x004
  | 2 => 0x038
  | _ => 0x1C0

/-- A vector is pending while at least one of its causes is both set and enabled. -/
def vectorPending (status enable : U32) (v : Nat) : Bool :=
  (status.toNat &&& enable.toNat &&& vectorMask v) != 0

/-- Send vector `v`'s message; a vector masked in the MSI-X table holds it in the pending-bit array
(PRESUMED of PCI Express, assumption log 9). -/
def sendVector (v : Nat) (s : State) : State :=
  if bitAt s.mgt.msixTable (128 * v + 96) then
    { s with mgt := { s.mgt with msixPba := setBit s.mgt.msixPba v true } }
  else
    emit (.msix v (BitVec.ofNat 64 (field s.mgt.msixTable (128 * v + 63) (128 * v)))
      (BitVec.ofNat 32 (field s.mgt.msixTable (128 * v + 95) (128 * v + 64)))) s

/-- Set the cause and enable registers; each vector that goes from not pending to pending sends its message. -/
def setInterrupts (status enable : U32) (s : State) : State :=
  let fresh := (upFrom 0 4).filter fun v =>
    vectorPending status enable v && !vectorPending s.mgt.intStatus s.mgt.intEnable v
  fresh.foldl (fun t v => sendVector v t)
    { s with mgt := { s.mgt with intStatus := status, intEnable := enable } }

/-- A cause's event occurs: bit `n` is set, even when it is disabled. -/
def raiseCause (n : Nat) (s : State) : State :=
  setInterrupts (setBit s.mgt.intStatus n true) s.mgt.intEnable s

/-! ## Free values -/

/-- Take a fresh index under which a free value is drawn (assumption log 3). -/
def takeFree (s : State) : Nat × State := (s.free, { s with free := s.free + 1 })

/-! ## The status record (R375) -/

def Event.bytes (e : Event) : List Byte :=
  leBytes 8 e.loc.toNat ++ leBytes 2 e.detail.toNat ++ leBytes 2 e.code.toNat ++ leBytes 4 e.op.toNat ++
    leBytes 8 e.step.toNat ++ leBytes 8 e.time.toNat

def Event.none : Event := ⟨0, 0, 0, 0, 0, 0⟩

def Counts.bytes (c : Counts) : List Byte :=
  ([c.replays, c.coreRemaps, c.mismatches, c.scratchUes, c.hbmUes, c.rowsRemapped, c.swaps, c.fibresRetired,
    c.portsDown, c.pagesRestored, c.adoptions, c.replicaRepairs, c.writesDiscarded, c.amendmentsRefused,
    c.inputWaits, 0].map fun x => leBytes 4 x.toNat).flatten

def Telemetry.bytes (t : Telemetry) : List Byte :=
  leBytes 2 t.junction.toNat ++ leBytes 2 t.stack.toNat ++ leBytes 2 t.powerW.toNat ++
    leBytes 2 t.volt10mV.toNat ++
    ((upFrom 0 24).map fun i => leBytes 2 (nthD 0 t.domains i).toNat).flatten ++ List.replicate 8 0

/-- The 4 KiB of the status record, byte 0 first (R375). -/
def StatusRec.bytes (r : StatusRec) : List Byte :=
  leBytes 8 r.updateSeq.toNat ++ leBytes 8 r.jobId.toNat ++ leBytes 8 r.step.toNat ++
    leBytes 8 r.committed.toNat ++ leBytes 8 r.time.toNat ++ leBytes 2 r.status.toNat ++ leBytes 2 0 ++
    leBytes 4 (r.unsync.toNat + 2 * r.inputWait.toNat + 4 * r.paceWait.toNat + 8 * r.paused.toNat +
      16 * r.replayMode.toNat) ++
    leBytes 8 r.cutStep.toNat ++ leBytes 4 r.cutOp.toNat ++ leBytes 4 r.eventCount.toNat ++
    ((upFrom 0 32).map fun i => (SMap.get Event.none r.events i).bytes).flatten ++ r.counts.bytes ++
    ((upFrom 0 12).map fun i => leBytes 4 (SMap.get (0 : U32) r.hbmCe i).toNat).flatten ++
    leBytes 8 r.inclStep.toNat ++ leBytes 4 r.active.toNat ++ leBytes 4 r.included.toNat ++
    Telemetry.bytes r.telemetry ++
    ((upFrom 0 16).map fun c =>
      ((upFrom 0 12).map fun i => leBytes 4 (SMap.get (0 : U32) r.gh (12 * c + i)).toNat).flatten ++
        List.replicate 16 0).flatten ++
    List.replicate 1792 0

/-- Write bytes to host memory, which the module reaches only over a trained CXL link (R360). -/
def hostWrite (a : Nat) (bs : List Byte) (s : State) : State :=
  if s.link.trained && s.link.cxl then { s with hostMem := Mem.write 0 s.hostMem a bs } else s

/-- Write the status record: update_seq passes through an odd value to the next even one, and the time is the
timebase at this update (R375). -/
def postStatus (s : State) : State :=
  let r := { s.status with updateSeq := s.status.updateSeq + 2, time := s.time.value }
  hostWrite s.mgt.statusAddr.toNat r.bytes { s with status := r }

/-- Change fields of the status record and write it. -/
def withStatus (f : StatusRec → StatusRec) (s : State) : State := postStatus { s with status := f s.status }

/-- Change the counts of the status record (the record is written by the event that goes with it). -/
def withCounts (f : Counts → Counts) (s : State) : State :=
  { s with status := { s.status with counts := f s.status.counts } }

/-- Enter an event into the record: entry event_count mod 32 (R375). -/
def StatusRec.addEvent (r : StatusRec) (e : Event) : StatusRec :=
  { r with
    events := SMap.set Event.none r.events (r.eventCount.toNat % 32) e
    eventCount := r.eventCount + 1 }

/-- An event occurs: it is entered under its code with the time and the step, and the record is written. -/
def postEvent (code : U16) (op : U32) (detail : U16) (loc : U64) (s : State) : State :=
  withStatus (fun r => r.addEvent ⟨s.time.value, r.step, op, code, detail, loc⟩) s

/-- The where field of a module event (R375). -/
def moduleWhere (c : Coord) : U64 := BitVec.ofNat 64 (c.z * 2 ^ 32 + c.y * 2 ^ 16 + c.x)

/-- The physical core that serves a logical core (R425), 0xFF where none does. -/
def physOf (s : State) (l : Nat) : Nat :=
  (s.hbm.coreMap.findIdx? fun e => e.logical.toNat == l).getD 0xFF

/-- The where field of a core event (R375). -/
def coreWhere (s : State) (l : Nat) : U64 := BitVec.ofNat 64 (256 * physOf s l + l)

/-! ## Device memory (R233) -/

/-- One past the highest device address. -/
def devTop : Nat := 0xC0_0000_0000

def devRead (s : State) (a n : Nat) : List Byte := Mem.read 0 s.hbm.dev a n

/-- The little-endian number in `n` bytes of device memory. -/
def devNat (s : State) (a n : Nat) : Nat := ofLe (devRead s a n)

/-- Poison marks are kept under the number of the 32 B word; a write of the whole word clears the mark (R239). -/
def clearPoison (a n : Nat) (m : SMap Bool) : SMap Bool :=
  m.filter fun e => !(decide (a ≤ 32 * e.1) && decide (32 * e.1 + 32 ≤ a + n))

/-- A word of a range of visible memory is poisoned: its read is HBM_READ_RETURN's (R239, R240). -/
def poisoned (s : State) (a n : Nat) : Bool :=
  s.hbm.poison.any fun e => e.2 && decide (32 * e.1 < a + n) && decide (a < 32 * e.1 + 32)

def devWrite (a : Nat) (bs : List Byte) (s : State) : State :=
  { s with hbm := { s.hbm with
      dev := Mem.write 0 s.hbm.dev a bs
      poison := clearPoison a bs.length s.hbm.poison } }

/-- Write a little-endian number of `n` bytes. -/
def devPut (a n v : Nat) (s : State) : State := devWrite a (leBytes n v) s

def inRange (r : Range) (a : Nat) : Bool := decide (r.base ≤ a) && decide (a < r.base + r.len)
def inRanges (rs : List Range) (a : Nat) : Bool := rs.any fun r => inRange r a
/-- The `n` bytes from `a` and a range have a byte in common. -/
def overlaps (r : Range) (a n : Nat) : Bool := decide (max a r.base < min (a + n) (r.base + r.len))

/-- Every byte of a span lies in one of the ranges; `n` bounds the ranges that it may run through. -/
def covered (rs : List Range) : Nat → Nat → Nat → Bool
  | 0, _, len => len == 0
  | n + 1, a, len =>
    len == 0 ||
      match rs.find? fun r => inRange r a with
      | none => false
      | some r => covered rs n (r.base + r.len) (len - (r.base + r.len - a))

/-- A program may write the `n` bytes from `a`: STATE, STEP and BATCH ranges, and the written HELD ranges (R240). -/
def mayWrite (s : State) (a n : Nat) : Bool :=
  match s.job with
  | none => true
  | some j =>
    let rs := j.image.stateRanges ++ j.image.stepRanges ++ j.image.batchRanges ++ j.image.heldWritten
    covered rs (rs.length + 1) a n

/-! ## The op counter table (R54, R55) -/

/-- The address of an operation's entry, in a job. -/
def counterAddr (s : State) (op : U32) : Option Nat := s.job.map fun j => j.image.counterBase + 16 * op.toNat

/-- An operation's first engine command in the step, or the first data that a unit takes for it: its entry gets step_lo
and zero counts, once (R55). -/
def counterOpen (op : U32) (s : State) : State :=
  match counterAddr s op with
  | none => s
  | some a =>
    if s.hbm.counted.contains op then s
    else devPut a 16 ((s.status.step.toNat % 2 ^ 32) * 2 ^ 64) { s with hbm := { s.hbm with counted := s.hbm.counted ++ [op] } }

/-- Add to an operation's counts; each holds at 0xFFFF_FFFF (R54, R78). -/
def counterAdd (op : U32) (sat flushed : Nat) (tile : Bool) (s : State) : State :=
  match counterAddr s op with
  | none => s
  | some a =>
    let t := counterOpen op s
    let e := devNat t a 16
    let v := min (e % 2 ^ 32 + sat) 0xFFFFFFFF + min (e / 2 ^ 32 % 2 ^ 32 + flushed) 0xFFFFFFFF * 2 ^ 32 +
      (e / 2 ^ 64 % 2 ^ 32) * 2 ^ 64 + (if tile || e / 2 ^ 96 % 2 = 1 then 2 ^ 96 else 0)
    devPut a 16 v t

/-! ## The selected step program (R47) -/

/-- The last selector entry whose first_step ≤ s. -/
def selectStep (sel : List (U64 × Nat)) (step : Nat) : Option (U64 × Nat) :=
  (sel.filter fun e => decide (e.1.toNat ≤ step)).getLast?

def programOf (img : Image) (step : Nat) : Option StepProgram :=
  (selectStep img.selector step).bind fun e => img.programs[e.2]?

/-- The number of operations N of the step program that a step runs. -/
def opCountOf (img : Image) (step : Nat) : Nat := ((programOf img step).map StepProgram.opCount).getD 0

/-! ## Operations that have ended (R50) -/

/-- The operations of the running step's program. -/
def stepOps (s : State) : List OpDecl :=
  match s.job with
  | none => []
  | some j => ((programOf j.image s.status.step.toNat).map StepProgram.ops).getD []

/-- A command of an operation ends. -/
def endPart (op : U32) (s : State) : State :=
  { s with ended := SMap.set 0 s.ended op.toNat (SMap.get 0 s.ended op.toNat + 1) }

/-- Every command of an operation has ended on this module. -/
def opEnded (s : State) (d : OpDecl) : Bool := decide (d.parts ≤ SMap.get 0 s.ended d.op)

/-- Every operation that the program declares below index `c` has ended on this module. -/
def endedBelow (s : State) (c : Nat) : Bool := (stepOps s).all fun d => decide (c ≤ d.op) || opEnded s d

/-- Every operation of a kind that the program declares below an operation has ended. -/
def kindEnded (s : State) (k : OpKind) (op : U32) : Bool :=
  (stepOps s).all fun d => d.kind != k || decide (op.toNat ≤ d.op) || opEnded s d

/-- A reduction below an operation is not complete, and writes one of the `n` bytes from `a`: the operation waits to read
them (R50, R252). -/
def awaitsReduction (s : State) (op : U32) (a n : Nat) : Bool :=
  (stepOps s).any (fun d => match d.kind with
    | .reduce rs => decide (d.op < op.toNat) && !opEnded s d && rs.any fun r => overlaps r a n
    | _ => false) ||
  s.msu.runs.any fun r => decide (r.decl.op.toNat < op.toNat) && !r.complete && r.decl.ranges.any fun g => overlaps g a n

/-! ## What a replay meets as the step found it (R21) -/

/-- The written HELD ranges that a program declares, and its slot records (R216, R240). -/
def heldRanges (img : Image) : List Range :=
  img.heldWritten ++ (match img.cache with
    | none => []
    | some c => [⟨c.slotBase, 8256 * c.slots⟩])

/-- Copy ranges of one store to the same places of another. -/
def copyRanges (src : Mem) (rs : List Range) (m : Mem) : Mem := rs.foldl (fun m r => Mem.copy src r.base r.len r.base m) m

/-- The step's start is kept. -/
def keepStart (s : State) : State :=
  match s.job with
  | none => s
  | some j =>
    { s with kv := { s.kv with
        start := some ⟨s.kv.index, s.kv.refs, s.kv.freeQ, copyRanges s.hbm.dev (heldRanges j.image) []⟩ } }

/-- The prefix unit and the written HELD ranges are as the step found them. -/
def backToStart (s : State) : State :=
  match s.job, s.kv.start with
  | some j, some k =>
    { s with
      hbm := { s.hbm with dev := copyRanges k.held (heldRanges j.image) s.hbm.dev }
      kv := { s.kv with
        index := k.index, refs := k.refs, freeQ := k.freeQ, snaps := [], edits := [], prior := [], start := none } }
  | _, _ => s

/-! ## What a reset of the Gatehouse leaves (R394) -/

/-- A channel keeps what the job tables and its ring give it, and the number of batches counted. -/
def GhChan.flush (c : GhChan) : GhChan :=
  { GhChan.reset with cfg := c.cfg, ctrl := c.ctrl, ringLog := c.ringLog, producer := c.producer,
                      consumer := c.consumer, built := c.built }

/-- Dictionary and sample buffers are lost, and batches are to be rebuilt from the STATE page. -/
def Gatehouse.flush (g : Gatehouse) : Gatehouse := ⟨g.chans.map GhChan.flush, [], g.fallback, false, true, true⟩

/-! ## What a step abort, a replay and a cut point discard -/

def CoreCtl.fresh : CoreCtl := ⟨[], [], [], [], [], [], [], [], 0, []⟩

/-- Invalidate every shadow slot and drop in-flight speculative responses (R142). -/
def CoreCtl.squashAll (c : CoreCtl) : CoreCtl :=
  { c with slots := [], loads := [], branches := [], writeBuf := [], genSaved := [], flying := [] }

/-- The check-value unit numbers of the system controllers follow those of the cores. -/
def cvKey : CvUnit → Nat
  | .core c _ => c.val
  | .controllerA => 128
  | .controllerB => 129

def CvState.reset : CvState := ⟨.crc32c, 0, false, 0, none⟩

/-- Reset every core controller's check-value unit (R354). -/
def resetCoreCv (m : SMap CvState) : SMap CvState := m.filter fun e => decide (128 ≤ e.1)

/-- The loading planes hold no complete load: a tile that was loaded and not swapped in is loaded again (R86). -/
def dropLoads (c : Cores) : SMap PlaneInfo :=
  c.planes.map fun e => if SMap.get 0 c.planeInUse (e.1 / 2) = e.1 % 2 then e else (e.1, { e.2 with loaded := false })

/-- What a step abort discards: shadow slots (R142), open check values (R354), staged segments and running values
(R256), loads without their swap, the column results on their way, and the deferred publications' snapshots. -/
def discardStep (s : State) : State :=
  { s with
    cores := { s.cores with
      ctl := s.cores.ctl.map fun e => (e.1, e.2.squashAll)
      cv := resetCoreCv s.cores.cv
      planes := dropLoads s.cores
      foot := []
      window := []
      groupDraws := [] }
    msu := { s.msu with staging := [], runs := [], sweeps := [] }
    kv := { s.kv with snaps := [] }
    stalled := [] }

/-- Abort the running step on the whole rink (R96, R133, R21): the step's work in progress is discarded and the
abort is flooded; STEP_REPLAY runs the replay. -/
def abortStep (s : State) : State :=
  match s.job with
  | none => s
  | some j =>
    emit (.send .stepAbort)
      { discardStep s with
        job := some { j with phase := .aborted }
        recovery := { s.recovery with abortPending := true } }

/-! ## The ends of a job (R374, R328) -/

/-- Write the consumer word of the job ring's control block (R365). -/
def advanceRing (s : State) : State :=
  let c := s.ring.consumer + 1
  hostWrite (s.mgt.ringCtrl.toNat + 64) (leBytes 8 c.toNat) { s with ring := { s.ring with consumer := c } }

/-- A bank without the references that `p` names. -/
def dropRefs (p : U32 → Bool) (b : Banks) : Banks :=
  { b with
    bank0 := { b.bank0 with refs := b.bank0.refs.filter fun op => !p op }
    bank1 := { b.bank1 with refs := b.bank1.refs.filter fun op => !p op } }

/-- Leave a job with an end status: the record is written, cause [1] is set, the consumer moves on, every range is in host
bias (R369), and the module is READY. The job's commands and its refresh have ended, and with them their references to the banks (R146). -/
def endJob (code : U16) (s : State) : State :=
  let s1 := raiseCause 1 (withStatus (fun r => { r with status := code }) (discardStep s))
  advanceRing
    { s1 with
      job := none
      link := { s1.link with deviceBias := [] }
      banks := dropRefs (fun _ => true) s1.banks
      mgt := { s1.mgt with state := if s1.time.running then .ready else .boot }
      recovery := { s1.recovery with
        paused := false, lost := [], awaited := [], adopted := [], restoring := false, kept := [], settled := false
        resume := false, refreshing := false,
        abortPending := false, unacked := [] } }

/-- A tandem refresh is in progress: pages of the committed step are to be sent, or wait for their acknowledgement, and
the rink is not paused (R312, R374). -/
def refreshRuns (s : State) : Bool :=
  ((s.recovery.refreshing && s.recovery.replicaOk) || s.recovery.unacked != []) && !s.recovery.paused

/-- The end status of a job that is to end with `code`: a stop or an abort that came first stays. -/
def endStatus (j : Job) (code : U16) : U16 :=
  if j.phase = .refreshing ∧ j.stop ≠ Code.jobDone then j.stop else code

/-- An abort or a stop ends the job; a tandem refresh in progress completes first, and the uncommitted step is discarded
at once (R374). -/
def concludeJob (code : U16) (s : State) : State :=
  match s.job with
  | none => s
  | some j =>
    if refreshRuns s then
      { discardStep s with job := some { j with phase := .refreshing, stop := endStatus j code } }
    else endJob (endStatus j code) s

/-- In a machine of several rinks a rink that stops leaves the active set (R321, R328, R374). -/
def leaveRink (s : State) : State := if siteSeveral s.site then emit (.send (.leave s.rink)) s else s

/-- A halt that this module takes (R328, R374): the status is written, cause [3] is set, and the job stays, in state
HALTED, until the host aborts it. -/
def takeHalt (code : U16) (op : U32) (loc : U64) (s : State) : State :=
  match s.job with
  | none => s
  | some j =>
    if j.phase = .halted then s
    else
      let s1 := raiseCause 3 (withStatus (fun r =>
        { r.addEvent ⟨s.time.value, r.step, op, code, 0, loc⟩ with status := code }) s)
      leaveRink
        { s1 with
          job := some { j with phase := .halted, stop := code }
          mgt := { s1.mgt with state := .halted } }

/-- A halt whose cause this module finds: every module of the rink is told, and halts too (R328, R374). -/
def haltJob (code : U16) (op : U32) (loc : U64) (s : State) : State :=
  match s.job with
  | none => s
  | some j => if j.phase = .halted then s else takeHalt code op loc (emit (.send (.stopNotice code)) s)

/-- A stop that is no halt (R374): the cause is entered as an event, the stop notice is flooded, and the job ends. -/
def stopJob (code : U16) (op : U32) (loc : U64) (s : State) : State :=
  match s.job with
  | none => s
  | some _ =>
    if isHalt code then haltJob code op loc s
    else
      leaveRink (concludeJob code (emit (.send (.stopNotice code)) (postEvent code op 0 loc s)))

/-! ## Management commands (R381) -/

/-- A command ends: done with a success code, refused otherwise; cause [2] is set. -/
def finishCmd (cmd : Byte) (state : CmdState) (code : U16) (s : State) : State :=
  raiseCause 2 { s with mgt := { s.mgt with cmd := cmd, cmdCode := code, cmdState := state } }

/-- A command stays busy. -/
def busyCmd (cmd : Byte) (s : State) : State :=
  { s with mgt := { s.mgt with cmd := cmd, cmdCode := 0, cmdState := .busy } }

end Sys2Proof.Machine
end

