-- ==== Sys2Proof/Machine/Fabric.lean ====
section
/-! DEFINITION. The Relesque ports (R265 to R283): link words, port frames, spare wavelengths, bring-up, and the down
table. -/

namespace Sys2Proof.Machine

/-! ## Ports -/

def getPort (s : State) (p : Nat) : Port := nthD Port.reset s.fabric.ports p

def setPort (p : Nat) (f : Port → Port) (s : State) : State :=
  { s with fabric := { s.fabric with ports := updNth f s.fabric.ports p } }

/-- Send a link word on a port. -/
def sendWord (p : PortId) (w : LinkWord) (s : State) : State := emit (.linkWord p w) s

def classIndex : TrafficClass → Nat
  | .recovery => 0
  | .control => 1
  | .collective => 2
  | .offload => 3

/-- The fibres of a list in use. -/
def inUse (fs : List Fibre) : Nat := (fs.filter fun f => !f.retired).length

/-- A port with fewer than 8 fibres in use, in either direction, is down (R274). -/
def tooFew (p : Port) : Bool := decide (inUse p.fibres < 8) || decide (inUse p.txFibres < 8)

/-- The extent of a dimension. -/
def extent (r : BitVec 4096) (d : Nat) : Nat :=
  match d with
  | 0 => siteExtX r
  | 1 => siteExtY r
  | _ => siteExtZ r

def Coord.get (c : Coord) (d : Nat) : Nat :=
  match d with
  | 0 => c.x
  | 1 => c.y
  | _ => c.z

def Coord.set (c : Coord) (d v : Nat) : Coord :=
  match d with
  | 0 => { c with x := v }
  | 1 => { c with y := v }
  | _ => { c with z := v }

/-- One coordinate back around a ring of length `n`. -/
def ringBack (n v : Nat) : Nat := (v + n - 1) % n

/-- One coordinate on around a ring of length `n`. -/
def ringNext (n v : Nat) : Nat := (v + 1) % n

/-- The dimension of a port, and whether it leads in the + direction (R16). -/
def portDim (p : PortId) : Fin 3 := ⟨p.val / 2, by omega⟩
def portPlus (p : PortId) : Bool := p.val % 2 == 0
def portOf (d : Fin 3) (plus : Bool) : PortId := ⟨2 * d.val + (if plus then 0 else 1), by split <;> omega⟩

/-- The link that a port of this module ends. -/
def linkOf (s : State) (p : PortId) : Link :=
  let d := portDim p
  let c := s.coord
  if portPlus p then ⟨d, c⟩ else ⟨d, Coord.set c d (ringBack (extent s.site d) (Coord.get c d))⟩

/-- Enter a link into the down table (R278). -/
def addDown (l : Link) (s : State) : State :=
  if s.fabric.down.contains l then s else { s with fabric := { s.fabric with down := s.fabric.down ++ [l] } }

/-- Remove a link from the down table (R282). -/
def removeDown (l : Link) (s : State) : State :=
  { s with fabric := { s.fabric with down := s.fabric.down.filter (· ≠ l) } }

/-- The detail field of a fabric event (R375). -/
def fabricDetail (p fibre wave : Nat) : U16 := BitVec.ofNat 16 (256 * p + 16 * fibre + wave)

/-- Drop whatever a port holds in flight, in its buffers and in its window (R281), and what a bring-up had begun. -/
def Port.flush (p : Port) : Port :=
  { p with
    window := [], rxData := [], rxDiscard := false, swaps := [], mirrors := [], calibrating := none
    queues := List.replicate 8 [], share := 0, rejects := [], granted := [], identIn := [], signed := false }

/-- A packet carries data of the running step: gathers, reductions and parked blocks do (R275, R281; DEDUCED, assumption log
93). -/
def stepData (p : Packet) : Bool :=
  match p.cls with
  | .recovery => false
  | .control => false
  | .collective => true
  | .offload => true

/-- Something that a port holds in its buffers or in its window carries data of a step. -/
def Port.holdsStep (p : Port) : Bool :=
  (p.window.any fun f => f.blocks.any fun b => stepData b.packet) || p.queues.any fun q => q.any fun e => stepData e.packet

/-- A port goes down: its traffic is discarded, the failure is reported under `code`, and both ends flood a down
notice (R278, R281, R282). -/
def dropPort (p : PortId) (code : U16) (s : State) : State :=
  let l := linkOf s p
  emit (.send (.linkDown l))
    (addDown l
      (postEvent code noOp (fabricDetail p.val 0 0) 0
        (withCounts (fun c => { c with portsDown := satInc c.portsDown 1 })
          (setPort p (fun q => { q.flush with phase := .down, attempts := 0 }) s))))

/-- Abort the step if a job has one that is not committed: it runs, or is cut and not yet dumped (R58, R59). -/
def abortIfRunning (s : State) : State :=
  match s.job with
  | some j => if j.phase = .inStep ∨ j.phase = .atCut ∨ j.phase = .dumping then abortStep s else s
  | none => s

/-- A port goes down with what it holds in flight; if any of that, or of what it is told of (`more`), belongs to an
uncommitted step, the step replays (R21, R281). -/
def losePort (p : PortId) (code : U16) (more : Bool) (s : State) : State :=
  let lost := more || (getPort s p.val).holdsStep
  let t := dropPort p code s
  if lost then abortIfRunning t else t

/-- Start a connected port's bring-up afresh; an unconnected port goes dark (R266, R282, R389). -/
def restartPort (p : Nat) (s : State) : State :=
  setPort p (fun q => { q.flush with
    phase := if siteConnected s.site p then .laser else .dark
    attempts := 0 }) s

/-! ## Wavelengths -/

/-- What losing a wavelength does to a fibre. -/
inductive WaveLoss where
  | none | swapped | retired
deriving DecidableEq, Repr

/-- A wavelength is lost: a lane on it moves to the fibre's spare; without a spare the fibre is retired; a lost spare
serves nothing more (R272, R274, R282). -/
def Fibre.lose (f : Fibre) (w : Nat) : Fibre × WaveLoss :=
  if f.retired then (f, .none)
  else if f.spare = some w then ({ f with spare := none }, .none)
  else if f.lanes.contains w then
    match f.spare with
    | some sp => ({ f with lanes := f.lanes.map (fun x => if x = w then sp else x), spare := none }, .swapped)
    | none => ({ f with retired := true, lanes := [] }, .retired)
  else (f, .none)

/-- Retire a receive fibre, report it, and take the port down if too few remain. It leaves with the next port frame to be
accepted, which the far end resends in the new layout (R274). -/
def retireFibre (p : PortId) (fibre : Nat) (wave : Nat) (s : State) : State :=
  let s1 := setPort p.val (fun q => { q with
    fibres := updNth (fun f => { f with retired := true, lanes := [], spare := none }) q.fibres fibre
    swaps := q.swaps.filter (fun r => r.fibre ≠ fibre)
    calibrating := if q.calibrating = some fibre then none else q.calibrating }) s
  let s2 := sendWord p (.retire fibre (getPort s p.val).rxNext)
    (postEvent Code.evFibreRetired noOp (fabricDetail p.val fibre wave) 0
      (withCounts (fun c => { c with fibresRetired := satInc c.fibresRetired 1 }) s1))
  if tooFew (getPort s2 p.val) then losePort p Code.evPortDown false s2 else s2

/-- A wavelength that fails a loop-back (R431, R434) is treated as failing: its lane moves to the spare, or the fibre
is retired. -/
def failWave (w : Wave) (s : State) : State :=
  let f := nthD Fibre.fresh (getPort s w.port.val).fibres w.fibre.val
  match f.lose w.wave.val with
  | (_, .retired) => retireFibre w.port w.fibre.val w.wave.val s
  | (f', .swapped) =>
    postEvent Code.evSwap noOp (fabricDetail w.port.val w.fibre.val w.wave.val) 0
      (withCounts (fun c => { c with swaps := satInc c.swaps 1 })
        (setPort w.port.val (fun q => { q with fibres := updNth (fun _ => f') q.fibres w.fibre.val }) s))
  | (f', .none) => setPort w.port.val (fun q => { q with fibres := updNth (fun _ => f') q.fibres w.fibre.val }) s

/-- The fibre and the place in it of a lane: lanes are numbered densely over the fibres in use (R265, R274). -/
def laneHome (fs : List Fibre) (lane : Nat) : Option (Nat × Nat) :=
  let used := (upFrom 0 fs.length).filter fun i => !(nthD Fibre.fresh fs i).retired
  (used[lane / 8]?).map fun f => (f, lane % 8)

/-! ## Port frames (R268, R271) -/

/-- The blocks of a packet (R268). -/
def blocksOf (bytes : List Byte) : Nat := ceilDiv bytes.length 64

/-- Blocks of a port frame over `lanes` lanes of 595 B each (R268, R274). -/
def frameBlocks (lanes : Nat) : Nat := lanes * 595 / 64

/-- Port frames leave the window once the far end's ack passes them (R271). -/
def ackWindow (ack : U16) (win : List Frame) : List Frame :=
  if win.any fun f => f.fseq == ack then (win.dropWhile fun f => f.fseq != ack).drop 1 else win

/-- Cut blocks into port frames of at most `n` blocks, numbered from `at'` on. -/
def cutFrames (n : Nat) (at' : U16) (bs : List Block) : List Frame :=
  let parts := chunks (max 1 n) bs
  (upFrom 0 parts.length).zip parts |>.map fun e => ⟨at' + BitVec.ofNat 16 e.1, e.2⟩

/-- Resend the window from a port frame on, in order (R271). -/
def resendFrom (port : PortId) (fseq : U16) (s : State) : State :=
  let fs := (getPort s port.val).window.dropWhile fun f => f.fseq != fseq
  if fs.isEmpty then s else emit (.frames port fs) s

/-- NACK (R271): the transmitter resends from the named fseq onward, in order. -/
def execNack (port : PortId) (fseq : U16) (s : State) : Host.Outcome State Fault Refusal := .next (resendFrom port fseq s)

/-! ## Credits (R276) -/

/-- Take `n` blocks of credit of a virtual channel: its reserved blocks first, then shared ones. -/
def takeCredit (vc1 : Bool) (n : Nat) (c : Nat × Nat × Nat) : Option (Nat × Nat × Nat) :=
  let r := if vc1 then c.2.1 else c.1
  let a := min r n
  if n - a ≤ c.2.2 then
    some (if vc1 then (c.1, c.2.1 - a, c.2.2 - (n - a)) else (c.1 - a, c.2.1, c.2.2 - (n - a)))
  else none

/-- Return `n` blocks of credit: the shared blocks come back last. -/
def giveCredit (vc1 : Bool) (n : Nat) (c : Nat × Nat × Nat) : Nat × Nat × Nat :=
  let r := if vc1 then c.2.1 else c.1
  let a := min (64 - r) n
  if vc1 then (c.1, c.2.1 + a, c.2.2 + (n - a)) else (c.1 + a, c.2.1, c.2.2 + (n - a))

/-! ## Sending (R268, R271, R275, R276) -/

/-- The queue of a class and virtual channel. -/
def queueNo (cls : TrafficClass) (vc1 : Bool) : Nat := 2 * classIndex cls + vc1.toNat

/-- Class `c` holds data and credit on some virtual channel: its queue. -/
def readyQueue (q : Port) (c : Nat) : Option Nat :=
  let has (vc1 : Bool) : Bool :=
    !(nthD [] q.queues (2 * c + vc1.toNat)).isEmpty && (takeCredit vc1 1 (nthD (0, 0, 0) q.credits c)).isSome
  if has false then some (2 * c) else if has true then some (2 * c + 1) else none

/-- The queue whose block goes next (R275, R276): recovery first, then control, and then collective and offload, 3 blocks
to 1 while both have some. -/
def nextQueue (q : Port) : Option Nat :=
  match readyQueue q 0, readyQueue q 1, readyQueue q 2, readyQueue q 3 with
  | some k, _, _, _ => some k
  | none, some k, _, _ => some k
  | none, none, some a, some b => if q.share < 3 then some a else some b
  | none, none, some a, none => some a
  | none, none, none, some b => some b
  | none, none, none, none => none

/-- One block of a queue's first packet leaves, against a credit. -/
def takeBlock (k : Nat) (q : Port) : Port × Option (Block × Option (PortId × Bool)) :=
  match nthD [] q.queues k with
  | [] => (q, none)
  | e :: rest =>
    let left := if e.gone + 1 < blocksOf e.packet.bytes then { e with gone := e.gone + 1 } :: rest else rest
    ({ q with
        queues := updNth (fun _ => left) q.queues k
        credits := updNth (fun c => (takeCredit (k % 2 == 1) 1 c).getD c) q.credits (k / 2)
        share := if k / 2 = 2 then min 3 (q.share + 1) else if k / 2 = 3 then 0 else q.share },
      some (⟨e.packet, e.gone⟩, e.origin))

/-- Fill a port frame with blocks, as long as some class holds data and credit. -/
def fillFrame : Nat → Port → Port × List (Block × Option (PortId × Bool))
  | 0, q => (q, [])
  | n + 1, q =>
    match nextQueue q with
    | none => (q, [])
    | some k =>
      match takeBlock k q with
      | (q1, none) => (q1, [])
      | (q1, some b) =>
        let (q2, bs) := fillFrame n q1
        (q2, b :: bs)

/-- The credits of blocks that have left a receive buffer go back (R276): one grant for each packet. -/
def returnCredits (bs : List (Block × Option (PortId × Bool))) (s : State) : State :=
  bs.foldl (fun t b => match b.2 with
    | none => t
    | some (p, vc1) => sendWord p (.credit [⟨b.1.packet.cls, vc1, 1⟩]) t) s

/-- One port frame goes out, if the port is up, its window has room, and there is something to send. -/
def sendFrame (port : PortId) (s : State) : State :=
  let q := getPort s port.val
  if q.phase = .up ∧ q.window.length < 41 then
    match fillFrame (frameBlocks (8 * inUse q.txFibres)) q with
    | (_, []) => s
    | (q1, b :: bs) =>
      let f : Frame := ⟨q.txNext, (b :: bs).map Prod.fst⟩
      returnCredits (b :: bs) (emit (.frames port [f])
        (setPort port.val (fun _ => { q1 with window := q1.window ++ [f], txNext := q1.txNext + 1 }) s))
  else s

/-- Port frames go out until nothing more can. -/
def pump (port : PortId) : Nat → State → State
  | 0, s => s
  | n + 1, s => pump port n (sendFrame port s)

/-- Everything that a port can send now: at most a full window. -/
def sendAll (port : PortId) (s : State) : State := pump port 41 s

/-- A packet joins its class's queue at a port, and leaves when it can; packets of one class and virtual channel keep their
order (R279). -/
def enqueuePacket (port : PortId) (p : Packet) (origin : Option (PortId × Bool)) (s : State) : State :=
  sendAll port (setPort port.val (fun q => { q with
    queues := updNth (fun l => l ++ [⟨p, 0, origin⟩]) q.queues (queueNo p.cls p.vc1) }) s)

/-- The grants that each end gives at bring-up: for every class both virtual channels, the shared blocks with the first
(R276, R282). -/
def initialGrants : List Grant :=
  let of (c : TrafficClass) (shared : Nat) : List Grant := [⟨c, false, 64 + shared⟩, ⟨c, true, 64⟩]
  of .recovery (0x40000 / 64 - 128) ++ of .control (0x40000 / 64 - 128) ++ of .collective (0x300000 / 64 - 128) ++
    of .offload (0x180000 / 64 - 128)

/-- Grants for every class and virtual channel are in. -/
def allGranted (q : Port) : Bool := initialGrants.all fun g => q.granted.contains (g.cls, g.vc1)

/-! ## Heartbeats and lost ports (R281) -/

/-- The lowest-numbered lane in use: lanes are numbered densely over the fibres in use (R274). -/
def lowestLane : Nat := 0

/-- BEAT: the lowest lane in use sends a heartbeat count and a timebase sample. -/
def execBeat (port : PortId) (s : State) : Host.Outcome State Fault Refusal :=
  let q := getPort s port.val
  if q.phase = .up then
    .next (sendWord port (.beat lowestLane (q.beats + 1) s.time.value)
      (setPort port.val (fun q => { q with beats := q.beats + 1 }) s))
  else .next s

/-- PORT_DOWN_TIMEOUT: the port is declared down; if something of an uncommitted step was in flight, here or on its way
here, the step replays (R21). -/
def execPortDownTimeout (port : PortId) (uncommitted : Bool) (s : State) : Host.Outcome State Fault Refusal :=
  if (getPort s port.val).phase = .up then .next (losePort port Code.evPortDown uncommitted s) else .next s

/-- DOWN_NOTICE: the link enters the down table (R278). -/
def execDownNotice (link : Link) (s : State) : Host.Outcome State Fault Refusal := .next (addDown link s)

/-- DOWN_NOTICE_WITHDRAWN: the link leaves the down table (R282). -/
def execDownNoticeWithdrawn (link : Link) (s : State) : Host.Outcome State Fault Refusal :=
  .next (removeDown link s)

/-! ## Spare wavelengths (R272 to R274) -/

/-- The swap of a fibre that this port has asked for. -/
def swapOn (q : Port) (fibre : Nat) : Option SwapRun := q.swaps.find? fun r => r.fibre == fibre

/-- Ask the far end to swap a lane onto its fibre's spare. -/
def askSwap (port : PortId) (fibre place : Nat) (calibration : Bool) (s : State) : State :=
  sendWord port (.swap fibre place calibration)
    (setPort port.val (fun q => { q with
      swaps := q.swaps.filter (fun r => r.fibre ≠ fibre) ++ [⟨fibre, place, calibration, none⟩]
      calibrating := if calibration then some fibre else if q.calibrating = some fibre then none else q.calibrating }) s)

/-- A lane meets a condition of R272. With a free spare the receiver asks for a swap, abandoning a
calibration that holds the spare (R273); where the spare already serves a lane, or is being put to another, the
fibre is retired (R273, R274). -/
def failLane (port : PortId) (lane : Nat) (s : State) : State :=
  let q := getPort s port.val
  match laneHome q.fibres lane with
  | none => s
  | some (fibre, place) =>
    let f := nthD Fibre.fresh q.fibres fibre
    let wave := nthD 0 f.lanes place
    match f.spare, swapOn q fibre with
    | some _, none => askSwap port fibre place false s
    | some _, some r =>
      if r.calibration then askSwap port fibre place false s
      else if r.place = place then s
      else retireFibre port fibre wave s
    | none, _ => retireFibre port fibre wave s

/-- SWAP_CONDITION: a lane's error ratio, its rejected port frames or its laser (R272). -/
def execSwapCondition (port : PortId) (lane : Nat) (_cause : SwapCause) (s : State) :
    Host.Outcome State Fault Refusal := .next (failLane port lane s)

/-- A transmit fibre leaves the port with port frame `at'`: its lanes are dropped, the port frames of the window from there on
are cut anew and resent in the new layout, and the port goes down if too few fibres remain (R274). -/
def retireTransmit (port : PortId) (fibre : Nat) (at' : U16) (s : State) : State :=
  let q := getPort s port.val
  let fs := updNth (fun f => { f with retired := true, lanes := [], spare := none }) q.txFibres fibre
  let keep := q.window.takeWhile fun f => f.fseq != at'
  let again := cutFrames (frameBlocks (8 * inUse fs)) at' ((q.window.dropWhile fun f => f.fseq != at').map Frame.blocks).flatten
  let s1 := setPort port.val (fun q => { q with
    txFibres := fs
    mirrors := q.mirrors.filter (fun r => r.fibre ≠ fibre)
    window := if again.isEmpty then q.window else keep ++ again
    txNext := if again.isEmpty then q.txNext else at' + BitVec.ofNat 16 again.length }) s
  let s2 := if again.isEmpty then s1 else emit (.frames port again) s1
  if tooFew (getPort s2 port.val) then losePort port Code.evPortDown false s2 else s2

/-- A lane of a fibre that the transmitter mirrors already for a failing lane. -/
def mirrorsOther (q : Port) (fibre lane : Nat) : Bool :=
  q.mirrors.any fun r => r.fibre == fibre && !r.calibration && r.place != lane

/-- Mirror a lane onto the spare of its fibre and name a switch fseq 64 port frames ahead; a request on a fibre whose
spare already serves a lane, or is being put to another, is refused (R272, R273). -/
def mirrorLane (port : PortId) (fibre lane : Nat) (calibration : Bool) (s : State) : State :=
  let q := getPort s port.val
  let f := nthD Fibre.fresh q.txFibres fibre
  if f.spare = none ∨ f.retired ∨ f.lanes.length ≤ lane ∨ mirrorsOther q fibre lane then s
  else
    sendWord port (.swapAt fibre lane (q.txNext + 64))
      (setPort port.val (fun q => { q with
        mirrors := q.mirrors.filter (fun r => r.fibre ≠ fibre) ++ [⟨fibre, lane, q.txNext + 64, calibration⟩] }) s)

/-- The transmitter has named the switch fseq of a swap that this port has asked for (R272). -/
def noteSwitch (port : PortId) (fibre place : Nat) (switchAt : U16) (s : State) : State :=
  setPort port.val (fun q => { q with swaps := q.swaps.map fun r =>
    if r.fibre = fibre ∧ r.place = place then { r with switchAt := some switchAt } else r }) s

/-- A SWAP word: the far end asks the transmitter to move a lane onto its fibre's spare, or to retire the fibre; or it names
to the receiver the switch fseq. -/
def takeSwap (port : PortId) (fibre lane : Nat) (kind : SwapKind) (s : State) : State :=
  match kind with
  | .failing => mirrorLane port fibre lane false s
  | .calibration => mirrorLane port fibre lane true s
  | .retire at' =>
    if (nthD Fibre.fresh (getPort s port.val).txFibres fibre).retired then s else retireTransmit port fibre at' s
  | .named a => noteSwitch port fibre lane a s

/-- SWAP. -/
def execSwap (port : PortId) (fibre : Fin 16) (lane : Nat) (kind : SwapKind) (s : State) :
    Host.Outcome State Fault Refusal := .next (takeSwap port fibre.val lane kind s)

/-- The lane at a place of a fibre moves to the spare; the wavelength it leaves becomes the spare after a calibration
and goes dark otherwise (R272, R435). -/
def Fibre.switch (f : Fibre) (place : Nat) (calibration : Bool) : Fibre :=
  match f.spare with
  | none => f
  | some sp =>
    { f with
      lanes := updNth (fun _ => sp) f.lanes place
      spare := if calibration then f.lanes[place]? else none }

/-- A sequence number has reached another (they wrap). -/
def reached (now at' : U16) : Bool := decide ((now - at').toNat < 2 ^ 15)

/-- The transmitter's half of a swap ends: from the switch fseq on the lane goes out on what was the spare. -/
def switchTransmit (port : PortId) (fibre : Nat) (s : State) : State :=
  let q := getPort s port.val
  match q.mirrors.find? fun r => r.fibre == fibre && reached q.txNext r.switchAt with
  | none => s
  | some r => setPort port.val (fun q => { q with
      txFibres := updNth (fun f => f.switch r.place r.calibration) q.txFibres fibre
      mirrors := q.mirrors.filter (fun r => r.fibre ≠ fibre) }) s

/-- The receiver's half of a swap ends: it takes the lane from what was the spare, and a swap that was not a calibration's is
reported and counted. -/
def switchReceive (port : PortId) (fibre : Nat) (s : State) : State :=
  let q := getPort s port.val
  match q.swaps.find? fun r => r.fibre == fibre && (match r.switchAt with
      | some a => reached q.rxNext a
      | none => false) with
  | none => s
  | some r =>
    let wave := nthD 0 (nthD Fibre.fresh q.fibres fibre).lanes r.place
    let t := setPort port.val (fun q => { q with
      fibres := updNth (fun f => f.switch r.place r.calibration) q.fibres fibre
      swaps := q.swaps.filter (fun r => r.fibre ≠ fibre)
      calibrating := if r.calibration then none else q.calibrating }) s
    if r.calibration then t
    else
      postEvent Code.evSwap noOp (fabricDetail port.val fibre wave) 0
        (withCounts (fun c => { c with swaps := satInc c.swaps 1 }) t)

/-- SWAP_SWITCH: the switch fseq of a swap is reached, in the direction named; each direction runs its own (R272). -/
def execSwapSwitch (port : PortId) (sw : SwitchIn) (s : State) : Host.Outcome State Fault Refusal :=
  .next (if sw.transmit then switchTransmit port sw.fibre.val s else switchReceive port sw.fibre.val s)

/-- CALIBRATION (R435): the fibre's spare is tuned and a data lane is to move onto it; a fibre whose spare serves a lane,
or is being put to one, is not calibrated, and one fibre of a port is calibrated at a time. -/
def execCalibration (port : PortId) (fibre : Fin 16) (place : Fin 8) (s : State) :
    Host.Outcome State Fault Refusal :=
  let q := getPort s port.val
  let f := nthD Fibre.fresh q.fibres fibre.val
  if q.phase = .up ∧ f.spare ≠ none ∧ ¬ f.retired ∧ q.calibrating = none ∧ swapOn q fibre.val = none then
    .next (askSwap port fibre.val place.val true s)
  else .next s

/-! ## Bring-up (R282, R283) -/

/-- The bytes that an identity signature covers: the nonce, the signer's key and its port number (R283). -/
def identMessage (nonce : BitVec 128) (key : BitVec 512) (port : Nat) : List Byte :=
  leBytes 16 nonce.toNat ++ beBytes 64 key.toNat ++ [BitVec.ofNat 8 port]

/-- The module's identity public key, zero where it has none (R400). -/
def ownKey (s : State) : BitVec 512 :=
  match s.controllers.identity with
  | none => 0
  | some (_, k) => k

/-- A bring-up attempt failed: it is retried at once, up to three attempts, and the port is then reported down. -/
def missBound (port : PortId) (s : State) : State :=
  if 3 ≤ (getPort s port.val).attempts then dropPort port Code.fabBringup s
  else setPort port.val (fun q => { q with phase := .laser }) s

/-- The wavelengths that failed Laser or Lock are lost, one after another. -/
def loseWaves (ws : List (Fin 16 × Fin 9)) (fs : List Fibre) : List Fibre :=
  ws.foldl (fun fs w => updNth (fun f => (f.lose w.2.val).1) fs w.1.val) fs

/-- The fibres that a list has lost to retirement. -/
def newlyRetired (old new : List Fibre) : List Nat :=
  (upFrom 0 new.length).filter fun i => (nthD Fibre.fresh new i).retired && !(nthD Fibre.fresh old i).retired

/-- Each fibre that a bring-up retires is reported and counted (R274, R307). -/
def reportRetired (port : PortId) (fibres : List Nat) (s : State) : State :=
  fibres.foldl (fun t f => postEvent Code.evFibreRetired noOp (fabricDetail port.val f 0) 0
    (withCounts (fun c => { c with fibresRetired := satInc c.fibresRetired 1 }) t)) s

/-! ## The identity exchange (R270, R283) -/

/-- Bytes as fragments of 15, numbered from `k` on (DESIGN CHOICE, assumption log 90). -/
def fragments (k : Nat) (bs : List Byte) : List LinkWord :=
  let parts := chunks 15 bs
  (upFrom k parts.length).zip parts |>.map fun e => .ident e.1 (BitVec.ofNat 120 (ofLe e.2))

/-- The bytes of fragments k to k + n − 1 that have arrived; none while one is missing. -/
def assembled (q : Port) (k n : Nat) : Option (List Byte) :=
  if (upFrom k n).all fun i => q.identIn.any fun e => e.1 == i then
    some ((upFrom k n).map fun i => leBytes 15 (SMap.get 0 q.identIn i).toNat).flatten
  else none

/-- What the peer has told: its nonce, key and port; and its signature. -/
def peerHello (q : Port) : Option (BitVec 128 × BitVec 512 × Nat) :=
  (assembled q 0 6).map fun b =>
    (BitVec.ofNat 128 (ofLe (b.take 16)), BitVec.ofNat 512 (ofBe ((b.drop 16).take 64)), ofLe ((b.drop 80).take 1))

def peerSignature (q : Port) : Option (BitVec 512) :=
  (assembled q 6 5).map fun b => BitVec.ofNat 512 (ofBe (b.take 64))

/-- Send several link words. -/
def sendWords (p : PortId) (ws : List LinkWord) (s : State) : State := emitAll (ws.map fun w => .linkWord p w) s

/-- This end's nonce, key and port number go out. -/
def sendHello (port : PortId) (s : State) : State :=
  sendWords port (fragments 0 (identMessage (getPort s port.val).nonce (ownKey s) port.val)) s

/-- This end's signature over the peer's nonce goes out, once the nonce is here; zeros where the module has no identity key. -/
def sendSignature (port : PortId) (nonce : BitVec 128) (s : State) : State :=
  let t := setPort port.val (fun q => { q with signed := true }) s
  match s.controllers.identity with
  | none => sendWords port (fragments 6 (beBytes 64 0)) t
  | some (d, key) =>
    let (k, u) := takeFree t
    sendWords port (fragments 6 (beBytes 64 (Config.ecdsaSign k d (sha256 (identMessage nonce key port.val))).toNat)) u

/-- PORT_BRINGUP: one attempt's Laser, Lock, Align and Deskew on a connected port that is not up; it then sends its
nonce, key and port for the Identity phase. A port that R283 refused waits for a site amendment. -/
def execPortBringup (port : PortId) (r : BringReport) (s : State) : Host.Outcome State Fault Refusal :=
  let q := getPort s port.val
  if ¬ siteConnected s.site port.val ∨ q.phase = .up ∨ q.phase = .refused ∨ ¬ s.power.rails ∨
      ¬ s.time.running then .next s
  else
    let fs := loseWaves r.badWaves q.fibres
    let s1 := reportRetired port (newlyRetired q.fibres fs) (setPort port.val (fun q => { q.flush with
      attempts := q.attempts + 1
      fibres := fs
      txFibres := loseWaves r.badTxWaves q.txFibres
      delayNs := r.delayNs
      phase := .align }) s)
    if tooFew (getPort s1 port.val) then .next (dropPort port Code.evPortDown s1)
    else if ¬ r.alignOk then .next (missBound port s1)
    else if ¬ r.deskewOk then .next (missBound port (setPort port.val (fun q => { q with phase := .deskew }) s1))
    else if 500 < r.delayNs then .next (dropPort port Code.fabReach s1)
    else
      let (k, s2) := takeFree s1
      .next (sendHello port (setPort port.val (fun q => { q with
        phase := .identity
        nonce := BitVec.ofNat 128 (Config.noise256 k).toNat }) s2))

/-- BRINGUP_PHASE_TIMEOUT: a port in the named phase has missed its bound. An attempt that ends in Laser or Lock has not
been counted by a PORT_BRINGUP. -/
def execBringupPhaseTimeout (port : PortId) (phase : BringPhase) (s : State) : Host.Outcome State Fault Refusal :=
  let here :=
    match phase, (getPort s port.val).phase with
    | .align, .align => true
    | .deskew, .deskew => true
    | .identity, .identity => true
    | .credits, .credits => true
    | _, _ => false
  let early :=
    match phase, (getPort s port.val).phase with
    | .laser, .laser => true
    | .lock, .laser => true
    | _, _ => false
  .next (if early then missBound port (setPort port.val (fun q => { q with attempts := q.attempts + 1 }) s)
    else if here then missBound port s else s)

/-- A port carries traffic: credits are full, sequence numbers start again, and its down notice is withdrawn by a
flood (R276, R282). -/
def portUp (port : PortId) (s : State) : State :=
  let l := linkOf s port
  emit (.send (.linkUp l))
    (removeDown l (setPort port.val (fun q => { q with
      phase := .up
      attempts := 0
      credits := Port.fullCredits
      txNext := 0
      rxNext := 0 }) s))

/-- The Credits phase ends once every grant is in. -/
def endCredits (port : PortId) (s : State) : State :=
  if (getPort s port.val).phase = .credits ∧ allGranted (getPort s port.val) then portUp port s else s

/-- The Credits phase: initial credits are granted for every class and virtual channel (R282). -/
def beginCredits (port : PortId) (s : State) : State :=
  endCredits port (sendWords port [.credit (initialGrants.take 4), .credit (initialGrants.drop 4)]
    (setPort port.val (fun q => { q with phase := .credits }) s))

/-- The peer is the neighbour that the site record expects: its key, its port, and its signature over this end's nonce
(R283). -/
def peerGood (s : State) (port : PortId) (key : BitVec 512) (peerPort : Nat) (sig : BitVec 512) : Bool :=
  keyDigest key == siteNeighbour s.site port.val && peerPort == (port.val ^^^ 1) &&
    ecdsaVerify key (identMessage (getPort s port.val).nonce key peerPort) sig

/-- The exchange with what has arrived: this end signs once it holds the peer's nonce, and judges the peer once it holds its
signature; a peer that is not the expected neighbour leaves the port down with FAB_NEIGHBOUR. -/
def identStep (port : PortId) (s : State) : State :=
  match peerHello (getPort s port.val) with
  | none => s
  | some (nonce, key, peerPort) =>
    let t := if (getPort s port.val).signed then s else sendSignature port nonce s
    match peerSignature (getPort t port.val) with
    | none => t
    | some sig =>
      if peerGood t port key peerPort sig then beginCredits port t
      else setPort port.val (fun q => { q with phase := .refused }) (dropPort port Code.fabNeighbour t)

/-- A fragment of the peer's exchange arrives. -/
def takeIdent (port : PortId) (i : Nat) (part : BitVec 120) (s : State) : State :=
  if (getPort s port.val).phase ≠ .identity then s
  else identStep port (setPort port.val (fun q => { q with identIn := SMap.put q.identIn i part }) s)

/-- IDENT: one fragment (R283). -/
def execIdent (port : PortId) (i : IdentIn) (s : State) : Host.Outcome State Fault Refusal :=
  .next (takeIdent port i.index.val i.part s)

/-! ## Grants (R276, R282) -/

/-- The grants of a link word, up to four: returned blocks of a port that is up, which may then send; the initial grants of
one that is brought up. -/
def takeGrants (port : PortId) (grants : List Grant) (s : State) : State :=
  match (getPort s port.val).phase with
  | .up =>
    sendAll port (setPort port.val (fun q => { q with
      credits := (grants.take 4).foldl
        (fun cs g => updNth (giveCredit g.vc1 g.blocks) cs (classIndex g.cls)) q.credits }) s)
  | .identity | .credits =>
    endCredits port (setPort port.val (fun q => { q with
      granted := q.granted ++ (grants.take 4).map fun g => (g.cls, g.vc1) }) s)
  | .dark | .laser | .lock | .align | .deskew | .down | .refused => s

/-- CREDIT. -/
def execCredit (port : PortId) (grants : List Grant) (s : State) : Host.Outcome State Fault Refusal :=
  .next (takeGrants port grants s)

end Sys2Proof.Machine
end

