-- ==== Sys2Proof/Machine/HbmMap.lean ====
section
/-! DEFINITION. The device address map and the placement of units (R233, R235), both ways. -/

namespace Sys2Proof.Machine

/-- The hashed-pool size H of the configuration record in force (R233, R386). -/
def hashedGib (s : State) : Nat := field s.config 127 120

/-- A place of a 256 B unit: pseudo-channel, stack identifier, bank, row, column (R235). -/
structure Place where
  pc : Nat
  sid : Nat
  bank : Nat
  row : Nat
  col : Nat
deriving DecidableEq, Repr

/-- t of the hashed pool (R235). -/
def hashT (q : Nat) : Nat := (q ^^^ (q >>> 8) ^^^ (q >>> 16) ^^^ (q >>> 24)) % 256

/-- The stack and stack-local unit of a device address (R235). -/
def unitOf (H a : Nat) : Nat × Nat :=
  if a < 12 * H * 2 ^ 30 then
    let g := a >>> 8
    let q := g / 12
    ((g % 12 + hashT q % 12) % 12, q)
  else
    let c := (a >>> 30) - 12 * H
    (c / (64 - H), (H + c % (64 - H)) * 2 ^ 22 + (a >>> 8) % 2 ^ 22)

/-- f of the place procedure (R235). -/
def placeF (w : Nat) : Nat := (w ^^^ (w >>> 5) ^^^ (w >>> 10) ^^^ (w >>> 15) ^^^ (w >>> 20)) % 32

/-- The place of a stack-local unit (R235). -/
def placeOf (u : Nat) : Place :=
  let w := u >>> 5
  let x := w >>> 2
  let row := x / 48
  let b := (x % 48 + row % 48) % 48
  ⟨(u % 32) ^^^ placeF w, b / 16, b % 16, row, w % 4⟩

/-- The stack-local unit at a place. -/
def unitAt (p : Place) : Nat :=
  let b := 16 * p.sid + p.bank
  let x := 48 * p.row + (b + 48 - p.row % 48) % 48
  let w := 4 * x + p.col
  32 * w + (p.pc ^^^ placeF w)

/-- The device address of a stack-local unit; none in a reserve (R231, R233). -/
def addrOf (H stack u : Nat) : Option Nat :=
  let g := u / 2 ^ 22
  if g < H then some (256 * (12 * u + (stack + 12 - hashT u % 12) % 12))
  else if g < 64 then some ((12 * H + stack * (64 - H) + (g - H)) * 2 ^ 30 + 256 * (u % 2 ^ 22))
  else none

/-- The device address of a row's first byte, 0 for a row of a reserve. -/
def rowAddress (s : State) (r : RowAddr) : Nat :=
  ((addrOf (hashedGib s) r.stack.val (unitAt ⟨r.pc, r.sid, r.bank, r.row, 0⟩))).getD 0

/-- The row that holds a device address. -/
def rowOf (s : State) (a : Nat) : RowAddr :=
  let (st, u) := unitOf (hashedGib s) a
  let p := placeOf u
  ⟨Fin.ofNat 12 st, p.pc, p.sid, p.bank, p.row⟩

/-- The detail field of a memory event: stack and pseudo-channel (R375). -/
def memDetail (stack pc : Nat) : U16 := BitVec.ofNat 16 (256 * stack + pc)

/-- The stack-local byte of a device address. -/
def localByte (s : State) (a : Nat) : Nat × Nat :=
  let (st, u) := unitOf (hashedGib s) a
  (st, 256 * u + a % 256)

end Sys2Proof.Machine
end

