-- ==== Sys2Proof/Machine/SelfTest.lean ====
section
/-! DEFINITION. The core map (R19, R423 to R425), saved regions (R432, R433), row remaps (R241, R436), fuse repair
(R437) and the health sweep (R430, R431). -/

namespace Sys2Proof.Machine

/-! ## The core map -/

/-- The compute domain of a physical core: 3 × 3 blocks of the 12 × 12 mesh, in row order (R16, R19). -/
def domainOf (p : Nat) : Nat := 4 * (p / 36) + (p % 12) / 3

/-- The physical cores of a domain, in increasing number. -/
def coresOf (d : Nat) : List Nat := (upFrom 0 144).filter fun p => domainOf p == d

/-- The rank of `p` in a rising list. -/
def rankIn (l : List Nat) (p : Nat) : Nat := (l.filter fun q => decide (q < p)).length

/-- What boot self-test makes of a physical core (R423, R425): in each domain the highest-numbered usable core is the
spare where nine are usable, and the others take logical cores 8d upward in increasing order. -/
def classify (usable fused : Nat → Bool) (p : Nat) : CoreState × Byte :=
  if fused p then (.fused, 0xFF)
  else if !usable p then (.failed, 0xFF)
  else
    let us := (coresOf (domainOf p)).filter fun q => usable q && !fused q
    if us.length = 9 ∧ us.getLast? = some p then (.spare, 0xFF)
    else (.active, BitVec.ofNat 8 (8 * domainOf p + rankIn us p))

/-- The whole map, each entry's counts from `keep`. -/
def coreMapOf (usable fused : Nat → Bool) (keep : Nat → Byte × BitVec 4) : List CoreEntry :=
  (upFrom 0 144).map fun p =>
    let (st, l) := classify usable fused p
    ⟨(keep p).1, l, (keep p).2, st⟩

def isFused (s : State) (p : Nat) : Bool := s.fuses.deadCores.any fun c => c.val == p
def entryOf (s : State) (p : Nat) : CoreEntry := nthD ⟨0, 0xFF, 0, .failed⟩ s.hbm.coreMap p

def setEntry (p : Nat) (f : CoreEntry → CoreEntry) (s : State) : State :=
  { s with hbm := { s.hbm with coreMap := updNth f s.hbm.coreMap p } }

/-- The spare of a domain. -/
def spareOf (s : State) (d : Nat) : Option Nat :=
  (coresOf d).find? fun p => decide ((entryOf s p).state = .spare)

/-- Every logical core is served (R423, R424). -/
def allServed (s : State) : Bool := (upFrom 0 128).all fun l => s.hbm.coreMap.any fun e => e.logical.toNat == l

/-! ## Rows -/

/-- The rows of a pseudo-channel that are remapped already (R241: up to 256). -/
def remapsOf (s : State) (r : RowAddr) : Nat :=
  (s.hbm.remapped.filter fun q => decide (q.stack = r.stack) && q.pc == r.pc).length

/-- A failing row goes to a spare row of its pseudo-channel, and its remap entry is written last; without a spare row
it stays in service, and that is reported (R241, R436). -/
def remapRow (r : RowAddr) (s : State) : State :=
  if s.hbm.remapped.contains r then s
  else if remapsOf s r < 256 then
    postEvent Code.evRowRemap noOp (memDetail r.stack.val r.pc) (BitVec.ofNat 64 (rowAddress s r))
      (withCounts (fun c => { c with rowsRemapped := satInc c.rowsRemapped 1 })
        { s with hbm := { s.hbm with remapped := s.hbm.remapped ++ [r] } })
  else
    postEvent Code.evRowSparesOut noOp (memDetail r.stack.val r.pc) (BitVec.ofNat 64 (rowAddress s r)) s

/-! ## Saved regions (R432, R433) -/

/-- The visible bytes of a stack's block, under their place in the save area. -/
def blockBytes (s : State) (stack start len : Nat) : List (Nat × Byte) :=
  s.hbm.dev.filterMap fun e =>
    let (st, b) := localByte s e.1
    if st = stack ∧ start ≤ b ∧ b < start + len then some (2 ^ 40 * stack + (b - start), e.2) else none

/-- A save area that holds a copy of a block and nothing else of its stack. -/
def saveBlock (stack start len : Nat) (s : State) : State :=
  let rest := Mem.clear s.hbm.saveArea (2 ^ 40 * stack) (2 ^ 40)
  { s with hbm := { s.hbm with
      saveArea := (blockBytes s stack start len).foldl (fun m e => Mem.write 0 m e.1 [e.2]) rest } }

/-- The device address of a stack-local byte. -/
def byteAddress (s : State) (stack b : Nat) : Option Nat :=
  (addrOf (hashedGib s) stack (b / 256)).map fun a => a + b % 256

/-- Copy a block back from the save area; a word whose copy is uncorrectable is restored as poisoned. -/
def restoreBlock (stack start len : Nat) (s : State) : State :=
  let kept := s.hbm.dev.filter fun e =>
    let (st, b) := localByte s e.1
    !(decide (st = stack) && decide (start ≤ b) && decide (b < start + len))
  let saved := s.hbm.saveArea.filterMap fun e =>
    if 2 ^ 40 * stack ≤ e.1 ∧ e.1 < 2 ^ 40 * stack + len then
      (byteAddress s stack (start + (e.1 - 2 ^ 40 * stack))).map fun a => (a, e.2)
    else none
  { s with hbm := { s.hbm with
      dev := saved.foldl (fun m e => Mem.write 0 m e.1 [e.2]) kept
      poison := s.hbm.savePoison.foldl (fun m w => SMap.set false m w true) s.hbm.poison
      savePoison := [] } }

def SaveRecord.idle : SaveRecord := ⟨0, 0, .idle⟩

/-- What a stack does on its save record after a reset that keeps HBM (R433). -/
def recoverSave (stack : Nat) (s : State) : State :=
  let r := SMap.get SaveRecord.idle s.hbm.saves stack
  let done (t : State) : State :=
    { t with hbm := { t.hbm with saves := SMap.set SaveRecord.idle t.hbm.saves stack SaveRecord.idle, savePoison := [] } }
  match r.state with
  | .idle => s
  | .saving => done s
  | .testing => done (restoreBlock stack r.start r.len s)
  | .restoring => done (restoreBlock stack r.start r.len s)

def recoverSaves (s : State) : State := (upFrom 0 12).foldl (fun t i => recoverSave i t) s

/-! ## The sweep -/

/-- Fuse repair and the full sweep are for Manufactured and Returned (R401, R422). -/
def fullSelfTest (s : State) : Bool :=
  match s.fuses.lifecycle with
  | .manufactured => true
  | .returned => true
  | _ => false

/-- Cores and units (R431): every core is classed again by R423, and a core found failed is reported. -/
def sweepCores (failed : List PhysCore) (s : State) : State :=
  let bad (p : Nat) : Bool := failed.any fun c => c.val == p
  let s1 := { s with hbm := { s.hbm with
    coreMap := coreMapOf (fun p => !bad p) (isFused s) (fun p => ((entryOf s p).mismatches, (entryOf s p).remaps)) } }
  failed.foldl (fun t c => postEvent Code.evCoreRemap noOp 0 (BitVec.ofNat 64 (256 * c.val + 0xFF)) t)
    { s1 with selfTest := { s1.selfTest with parked := [], due := [] } }

/-- HBM PHY lanes that show bit errors are reported; ECC covers them (R434). The stack and the lane stand in the detail
field (assumption log 66). -/
def reportLanes (ls : List PhyLane) (s : State) : State :=
  ls.foldl (fun t l => postEvent Code.evRowRemap noOp (memDetail l.stack.val l.lane.toNat) 0 t) s

/-- Wavelengths that a sweep's loop-back reaches: all of them in a full sweep, spares only in a deployed one. -/
def sweptWaves (s : State) (ws : List Wave) : List Wave :=
  if fullSelfTest s then ws
  else ws.filter fun w =>
    decide ((nthD Fibre.fresh (getPort s w.port.val).fibres w.fibre.val).spare = some w.wave.val)

/-- Add to a fuse list up to its bound what the previous full sweep found too (R437). -/
def blowUpTo {α : Type} [DecidableEq α] (bound : List α → α → Bool) (fuses prev found : List α) : List α :=
  found.foldl (fun fs x => if prev.contains x && !fs.contains x && bound fs x then fs ++ [x] else fs) fuses

/-- Fuse repair (R437): up to 16 cores, 64 rows of a stack and 32 wavelengths. -/
def fuseRepair (f : SweepFindings) (s : State) : State :=
  let cores := blowUpTo (fun fs _ => decide (fs.length < 16)) s.fuses.deadCores s.hbm.sweepCores f.failedCores
  let rows := blowUpTo
    (fun fs r => decide ((fs.filter fun q => decide (q.stack = r.stack)).length < 64))
    s.fuses.deadRows s.hbm.sweepRows f.failedRows
  let waves := blowUpTo (fun fs _ => decide (fs.length < 32)) s.fuses.deadWaves s.hbm.sweepWaves f.deadWaves
  let s1 := { s with
    fuses := { s.fuses with deadCores := cores, deadRows := rows, deadWaves := waves }
    hbm := { s.hbm with
      sweepCores := f.failedCores
      sweepRows := f.failedRows
      sweepWaves := f.deadWaves } }
  cores.foldl (fun t c => setEntry c.val (fun e => { e with state := .fused, logical := 0xFF }) t) s1

/-- Wavelengths that fail a loop-back, one after another. -/
def failWaves (ws : List Wave) (s : State) : State := ws.foldl (fun t w => failWave w t) s

/-- The parts of a sweep that come before HBM (R431): cores and units, then the analogue checks, of which the optical
loop-back is part in a deployed sweep. -/
def sweepBeforeHbm (f : SweepFindings) (s : State) : State :=
  let t := sweepCores f.failedCores s
  reportLanes f.badLanes (if fullSelfTest t then t else failWaves (sweptWaves t f.deadWaves) t)

/-- The parts of a whole sweep, in the order of R431: a full one ends with the loop-back of every wavelength, after which
the ports come up again, and with fuse repair. -/
def sweepParts (f : SweepFindings) (s : State) : State :=
  let t := f.failedRows.foldl (fun t r => remapRow r t) (sweepBeforeHbm f s)
  if fullSelfTest t then (upFrom 0 6).foldl (fun t p => restartPort p t) (fuseRepair f (failWaves f.deadWaves t)) else t

/-- A reset strikes while a block is saved, marched or restored: the cores and the analogue parts are done, and the
save record stands as the reset finds it (R432). -/
def sweepCut (f : SweepFindings) (c : SaveCut) (s : State) : State :=
  let s2 := sweepBeforeHbm f s
  let s3 :=
    match c.state with
    | .idle => s2
    | .saving => s2
    | .testing => saveBlock c.stack.val c.start c.len s2
    | .restoring => saveBlock c.stack.val c.start c.len s2
  { s3 with hbm := { s3.hbm with
      saves := SMap.set SaveRecord.idle s3.hbm.saves c.stack.val ⟨c.start, c.len, c.state⟩
      savePoison := c.bad } }

/-- What a held sweep finds is written after the next job's fetch has reset the status record (R431): it is gathered
behind what earlier held sweeps found, and the record stays as it is. -/
def gathered (sweep : State → State) (s : State) : State :=
  let t := sweep { s with status := { s.status with
    eventCount := s.selfTest.foundCount
    events := s.selfTest.foundEvents
    counts := s.selfTest.foundCounts } }
  { t with
    status := s.status
    hostMem := s.hostMem
    selfTest := { t.selfTest with
      foundCount := t.status.eventCount
      foundEvents := t.status.events
      foundCounts := t.status.counts } }

/-- HELD_SWEEP_START (R430): a held sweep runs in READY with no job, before the next descriptor is fetched. -/
def execHeldSweepStart (f : SweepFindings) (s : State) : Host.Outcome State Fault Refusal :=
  if s.selfTest.sweepHeld ∧ s.mgt.state = .ready ∧ s.job = none then
    match f.cut with
    | some c => .next (gathered (sweepCut f c) s)
    | none => .next (gathered (sweepParts f) { s with selfTest := { s.selfTest with sweepHeld := false } })
  else .next s

end Sys2Proof.Machine
end

