-- ==== Sys2Proof/Machine/Flags.lean ====
section
/-! DEFINITION. What an operation reports besides its results: the saturated and flushed counts and the tile saturation
flag of its op counter table entry (R54, R76 to R79), and a core's errors (R96, R97, R133). -/

namespace Sys2Proof.Machine

/-- What an operation adds to its op counter table entry. -/
structure Tally where
  sat : Nat
  flush : Nat
  tile : Bool
deriving DecidableEq, Repr

def Tally.zero : Tally := ⟨0, 0, false⟩
def Tally.add (a b : Tally) : Tally := ⟨a.sat + b.sat, a.flush + b.flush, a.tile || b.tile⟩
def Tally.sum (ts : List Tally) : Tally := ts.foldl Tally.add Tally.zero
/-- A conversion's contribution (R76, R77). -/
def tallyOf (c : Cvt) : Tally := ⟨c.sat, c.flush, false⟩
def Tally.flag (b : Bool) : Tally := ⟨0, 0, b⟩

/-- Add a tally to the entry of an operation (R55, R78). -/
def addTally (op : U32) (t : Tally) (s : State) : State := counterAdd op t.sat t.flush t.tile s

/-- The step is running: the commands of its operations act (assumption log 13). -/
def inStep (s : State) : Bool :=
  match s.job with
  | none => false
  | some j => decide (j.phase = .inStep)

/-! ## The cut (R56) -/

/-- The command's operation lies at or above the cut point of the running step: core controllers and chip-level units
withhold it. -/
def withheld (s : State) (op : U32) : Bool :=
  match s.job with
  | none => false
  | some j => Desc.hasCut j.desc && s.status.step.toNat == Desc.cutStep j.desc && decide (Desc.cutOp j.desc ≤ op.toNat)

/-- An operation acts: its step runs, and no cut withholds it. -/
def acts (s : State) (op : U32) : Bool := inStep s && !withheld s op

/-- An operation has opened its entry in this step: it has issued a command, or a unit has taken data for it. -/
def hasIssued (s : State) (op : U32) : Bool := s.hbm.counted.contains op

/-! ## Commands in their queues (R136, R146) -/

/-- The engines by number. -/
def engineNo : Engine → Nat
  | .trellis => 0
  | .drain => 1
  | .stream => 2
  | .gatherer => 3
  | .groom => 4
  | .walker => 5
  | .lodge => 6
  | .memory => 7
  | .collective => 8

def ctlOf (s : State) (core : Nat) : CoreCtl := SMap.get CoreCtl.fresh s.cores.ctl core

def setCtl (core : Nat) (f : CoreCtl → CoreCtl) (s : State) : State :=
  { s with cores := { s.cores with ctl := SMap.set CoreCtl.fresh s.cores.ctl core (f (ctlOf s core)) } }

/-- The engine's next command on a core is one of the operation (R136). -/
def atHead (s : State) (e : Engine) (core : Nat) (op : U32) : Bool :=
  (SMap.get [] (ctlOf s core).queues (engineNo e)).head? == some op

/-- A queue whose head is a command of `op` loses it. -/
def popQueue (op : U32) : List U32 → List U32
  | [] => []
  | q :: qs => if q = op then qs else q :: qs

def dropRef (op : U32) (b : Bank) : Bank := { b with refs := b.refs.erase op }

/-- A command of an engine's queue ends: it leaves the queue, and its reference to a bank goes (R146). -/
def endCommand (e : Engine) (core : Nat) (op : U32) (s : State) : State :=
  let k := engineNo e
  if atHead s e core op then
    let t := setCtl core (fun c => { c with queues := SMap.set [] c.queues k (popQueue op (SMap.get [] c.queues k)) }) s
    let b := t.banks
    { t with banks :=
        if b.bank0.refs.contains op then { b with bank0 := dropRef op b.bank0 }
        else { b with bank1 := dropRef op b.bank1 } }
  else s

/-- An error of a core's own counts against the physical core that serves it; a core that has reached its second
error of the job is due for a remap when the replay begins (R97, R133). -/
def chargeCore (core : Nat) (s : State) : State :=
  let p := physOf s core
  let n := (entryOf s p).mismatches.toNat + 1
  let t := setEntry p (fun e => { e with mismatches := BitVec.ofNat 8 (min n 255) }) s
  if 2 ≤ n ∧ ¬ t.selfTest.due.contains p then
    { t with selfTest := { t.selfTest with due := t.selfTest.due ++ [p] } }
  else t

/-- A checker mismatch (R96): reported with the tile, charged to the core, and the step aborts. -/
def checkerMismatch (core : Nat) (op : U32) (tile : Nat) (s : State) : State :=
  let s1 := postEvent Code.evMismatch op (BitVec.ofNat 16 tile) (coreWhere s core)
    (withCounts (fun c => { c with mismatches := satInc c.mismatches 1 }) s)
  abortStep (chargeCore core s1)

/-- An uncorrectable scratchpad error (R133). -/
def scratchError (core : Nat) (op : U32) (s : State) : State :=
  let s1 := postEvent Code.evSpUe op 0 (coreWhere s core)
    (withCounts (fun c => { c with scratchUes := satInc c.scratchUes 1 }) s)
  abortStep (chargeCore core s1)

/-- The core's controller holds a branch that is not resolved: work that is never speculative waits (R139). -/
def branchOpen (s : State) (core : Nat) : Bool := !(ctlOf s core).branches.isEmpty

end Sys2Proof.Machine
end

