-- ==== Sys2Proof/Machine/Rng.lean ====
section
/-! DEFINITION. The lane generators (R192 to R197). -/

namespace Sys2Proof.Machine

/-- mix64 of R193. -/
def mix64 (z : U64) : U64 :=
  let a := (z ^^^ (z >>> 31)) * 0xB36D5A1C9E2447F3
  let b := (a ^^^ (a >>> 29)) * 0x94E12C7B6A3D58C5
  b ^^^ (b >>> 32)

/-- The lane identity of R192. -/
def laneId (m : U64) (core code : Nat) : U64 := (m <<< 16) ||| (BitVec.ofNat 64 core <<< 8) ||| BitVec.ofNat 64 code

/-- The noise argument of a generator's seeding (R197): 0 outside entropy mode. -/
def laneNoise (l : Lanes) (core code : Nat) : U64 :=
  if l.entropy then Config.noise l.epoch (laneId l.machineIndex core code).toNat else 0

/-- The key of a lane's generator (R193). -/
def laneKey (l : Lanes) (core code : Nat) : U64 :=
  mix64 (l.runSeed ^^^ mix64 (l.step ^^^ mix64 (laneId l.machineIndex core code ^^^ 0x5D2A93C107E4B86F)) ^^^
    laneNoise l core code)

/-- The draw at a counter value. -/
def drawAt (key ctr : U64) : U32 := BitVec.ofNat 32 ((mix64 (key + ctr * 0xD1B54A327F09E6C3)).toNat >>> 32)

/-- Every generator is seeded at a step start or a replay of the step: the counters return to 0, and entropy mode
takes its noise afresh. -/
def seedLanes (s : State) : State :=
  let (k, t) := takeFree s
  match t.job with
  | none => t
  | some j =>
    { t with cores := { t.cores with lanes :=
        ⟨Desc.runSeed j.desc, t.status.step, BitVec.ofNat 64 t.M, Desc.entropy j.desc, k, [], []⟩ } }

def laneKeyOf (core code : Nat) : Nat := 256 * core + code

/-- The slots that a re-executed operation has drawn on a lane so far. -/
def recallUsed (l : Lanes) (op : U32) (key : Nat) : Nat :=
  ((l.recalls.find? fun e => e.1 == op).map fun e => SMap.get 0 e.2 key).getD 0

/-- The counter that an operation's next draw on a lane uses: in a re-executed operation its recall counter and what it has
drawn since, and the lane's running counter otherwise (R195). -/
def startCtr (s : State) (ctx : OpCtx) (code : Nat) : U64 :=
  let key := laneKeyOf ctx.core.val code
  match ctx.recalled with
  | none => SMap.get 0 s.cores.lanes.ctrs key
  | some rs => ((rs.find? fun e => e.1 == code).map fun e => e.2).getD 0 +
      BitVec.ofNat 64 (recallUsed s.cores.lanes ctx.op key)

/-- The draws of a list of slots, each named by its lane, in slot order; `used` holds the slots already spent of each
lane. -/
def drawsFrom (s : State) (ctx : OpCtx) : SMap Nat → List Nat → List U32
  | _, [] => []
  | used, code :: rest =>
    let k := SMap.get 0 used code
    drawAt (laneKey s.cores.lanes ctx.core.val code) (startCtr s ctx code + BitVec.ofNat 64 k) ::
      drawsFrom s ctx (SMap.set 0 used code (k + 1)) rest

/-- One slot on each lane of the list is spent on the running counters. -/
def spend (core : Nat) : List Nat → SMap U64 → SMap U64
  | [], m => m
  | code :: rest, m =>
    let k := laneKeyOf core code
    spend core rest (SMap.set 0 m k (SMap.get 0 m k + 1))

/-- The slots of a list, counted on a re-executed operation's own account. -/
def recallSpend (op : U32) (core : Nat) (slots : List Nat) (l : Lanes) : List (U32 × SMap Nat) :=
  let old := ((l.recalls.find? fun e => e.1 == op).map fun e => e.2).getD []
  let new := slots.foldl (fun m code =>
    let k := laneKeyOf core code
    SMap.set 0 m k (SMap.get 0 m k + 1)) old
  (l.recalls.filter fun e => e.1 != op) ++ [(op, new)]

/-- An operation's draws over its slots (R194); a re-executed operation leaves the running counters, and its next slots
follow those it has drawn (R195). -/
def takeDraws (ctx : OpCtx) (slots : List Nat) (s : State) : List U32 × State :=
  let l := s.cores.lanes
  (drawsFrom s ctx [] slots,
    { s with cores := { s.cores with lanes :=
        match ctx.recalled with
        | some _ => { l with recalls := recallSpend ctx.op ctx.core.val slots l }
        | none => { l with ctrs := spend ctx.core.val slots l.ctrs } } })

end Sys2Proof.Machine
end

