-- ==== Sys2Proof/Machine/Operands.lean ====
section
/-! DEFINITION. The operand forms of engine operations: places in scratchpad, drain file and HBM (R111, R127, R137),
tensors with their tile exponents (R63, R64), input and output streams with their conversions (R68, R69, R73 to
R78), masks (R117), and the draws that conversions take (R74, R194). -/

namespace Sys2Proof.Machine

/-! ## Places -/

/-- Bytes of a space (R111, R127, R233); a hand-off region passes on as many as its writer has. -/
def spaceSize : Space → Nat
  | .scratch _ => 0xA00000
  | .drain _ => 0x10000
  | .hbm => devTop
  | .ring _ _ => 2 ^ 32

/-- The rule under which an address outside its space is refused at build. -/
def spaceRule : Space → Nat
  | .scratch _ => 127
  | .drain _ => 113
  | .hbm => 233
  | .ring _ _ => 112

def scratchKey (core a : Nat) : Nat := 2 ^ 24 * core + a
def drainKey (core a : Nat) : Nat := 2 ^ 16 * core + a

/-- The ring of a hand-off region; empty until something is written to it. -/
def Ring.empty : Ring := ⟨0, 0, [], []⟩
def ringAt (s : State) (k : Nat) : Ring := SMap.get Ring.empty s.cores.rings k

/-- Change a hand-off region's ring. -/
def setRing (k : Nat) (f : Ring → Ring) (s : State) : State :=
  { s with cores := { s.cores with rings := SMap.set Ring.empty s.cores.rings k (f (ringAt s k)) } }

/-- `n` bytes at an offset from a place; of a hand-off region, among the bytes that its reader has taken. -/
def locRead (s : State) (l : Loc) (off n : Nat) : List Byte :=
  match l.space with
  | .scratch c => Mem.read 0 s.cores.scratch (scratchKey c.val (l.addr + off)) n
  | .drain c => Mem.read 0 s.cores.drain (drainKey c.val (l.addr + off)) n
  | .hbm => devRead s (l.addr + off) n
  | .ring _ k =>
    let b := ((ringAt s k).intake.drop (l.addr + off)).take n
    b ++ List.replicate (n - b.length) 0

/-- Write at an offset from a place; what is written to a hand-off region goes behind what its writer wrote before. No bytes
change nothing. -/
def locWrite (l : Loc) (off : Nat) (bs : List Byte) (s : State) : State :=
  if bs.isEmpty then s
  else match l.space with
  | .scratch c =>
    { s with cores := { s.cores with
        scratch := Mem.write 0 s.cores.scratch (scratchKey c.val (l.addr + off)) bs } }
  | .drain c =>
    { s with cores := { s.cores with drain := Mem.write 0 s.cores.drain (drainKey c.val (l.addr + off)) bs } }
  | .hbm => devWrite (l.addr + off) bs s
  | .ring _ k => setRing k (fun r => { r with waiting := r.waiting ++ bs }) s

/-- The little-endian number in `n` bytes at a place. -/
def locNat (s : State) (l : Loc) (off n : Nat) : Nat := ofLe (locRead s l off n)

/-- The first rule of a list that is broken. -/
def firstFault : List (Option Nat) → Option Nat
  | [] => none
  | some r :: _ => some r
  | none :: rest => firstFault rest

/-- A check: the rule is broken unless the condition holds. -/
def unless' (rule : Nat) (ok : Bool) : Option Nat := if ok then none else some rule

/-- A range of a core's token area (32 KiB, R132) or shadow area (64 KiB, R140) that `n` bytes touch. -/
def hitsArea (areas : List (Nat × Nat)) (size core a n : Nat) : Bool :=
  areas.any fun e => e.1 == core && overlaps ⟨e.2, size⟩ a n

/-- A declared region of the image, by its number. -/
def regionAt (s : State) (k : Nat) : Option Region := s.job.bind fun j => j.image.regions[k]?

/-- The number names a hand-off region of the core (R112). -/
def isHandOff (s : State) (core k : Nat) : Bool :=
  match regionAt s k with
  | some ⟨c, _, _, .handOff _ _ _⟩ => c == core
  | _ => false

/-- The rule that a span of bytes breaks, if any: outside its space, in the token area (R132) or the shadow area
(R140), or of no hand-off region. -/
def spanFault (s : State) (l : Loc) (n : Nat) : Option Nat :=
  if spaceSize l.space < l.addr + n then some (spaceRule l.space)
  else
    match l.space, s.job with
    | .scratch c, some j =>
      if hitsArea j.image.tokenAreas 0x8000 c.val l.addr n then some 132
      else if hitsArea j.image.shadowAreas 0x10000 c.val l.addr n then some 140
      else none
    | .ring c k, _ => unless' 112 (isHandOff s c.val k)
    | _, _ => none

/-- A place that a core's engine may name: its own scratchpad and drain file (R114, R127). -/
def ownPlace (core : Core) (l : Loc) : Bool :=
  match l.space with
  | .scratch c => c == core
  | .drain c => c == core
  | .ring c _ => c == core
  | .hbm => false

/-- A place of the core's own stores that is no hand-off region: those are for the engines that write and read them (R112). -/
def storePlace (core : Core) (l : Loc) : Bool :=
  match l.space with
  | .scratch c => c == core
  | .drain c => c == core
  | .ring _ _ => false
  | .hbm => false

/-- A span of the places that an operation may name. -/
def spanWhere (ok : Loc → Bool) (s : State) (l : Loc) (n : Nat) : Option Nat :=
  firstFault [unless' 127 (ok l), spanFault s l n]

/-- A span of the core's own stores. -/
def ownSpan (s : State) (core : Core) (l : Loc) (n : Nat) : Option Nat := spanWhere (ownPlace core) s l n

/-! ## Tensors -/

/-- The row length in stored elements: FP8 rows are padded to a multiple of 32 (R63). -/
def padRow (t : Tensor) : Nat := if isFp8 t.fmt then 32 * ceilDiv t.rowLen 32 else t.rowLen

/-- The stored element number of element i. -/
def tensorPlace (t : Tensor) (i : Nat) : Nat :=
  if isFp8 t.fmt then i / t.rowLen * padRow t + i % t.rowLen else i

/-- Stored elements, padding included. -/
def tensorStored (t : Tensor) : Nat := if isFp8 t.fmt then ceilDiv t.n t.rowLen * padRow t else t.n

def tensorBytes (t : Tensor) : Nat := fmtBytes t.fmt * tensorStored t

/-- The tensor's spans lie where the operation may name them, and an FP8 tensor names its row length. -/
def tensorFaultIn (ok : Loc → Bool) (s : State) (t : Tensor) : Option Nat :=
  if isFp8 t.fmt then
    firstFault [unless' 63 (decide (0 < t.rowLen)), spanWhere ok s t.loc (tensorBytes t),
      spanWhere ok s t.exps (tensorStored t / 32)]
  else spanWhere ok s t.loc (tensorBytes t)

/-- The tensor lies in the core's own stores. -/
def tensorFault (s : State) (core : Core) (t : Tensor) : Option Nat := tensorFaultIn (ownPlace core) s t

/-- The code of element i. -/
def tensorCode (s : State) (t : Tensor) (i : Nat) : Nat :=
  locNat s t.loc (fmtBytes t.fmt * tensorPlace t i) (fmtBytes t.fmt)

/-- The tile exponent of element i's group. -/
def tensorExp (s : State) (t : Tensor) (i : Nat) : Byte := BitVec.ofNat 8 (locNat s t.exps (tensorPlace t i / 32) 1)

/-- The exact value of a code of a format, under a tile exponent for FP8. -/
def codeValue (f : Fmt) (e : Byte) (c : Nat) : FV :=
  match f with
  | .e4m3 => decodeTile .e4m3 e (BitVec.ofNat 8 c)
  | .e5m2 => decodeTile .e5m2 e (BitVec.ofNat 8 c)
  | .int32 => ofInt32 (BitVec.ofNat 32 c)
  | f => decode f c

/-- The exact value of element i (R61, R64). -/
def tensorValue (s : State) (t : Tensor) (i : Nat) : FV := codeValue t.fmt (tensorExp s t i) (tensorCode s t i)

/-! ## Input streams -/

/-- Draws that a conversion takes for an element (R74). -/
def convDraws : Option Conv → Nat
  | some c => if c.rnd = .sr then 1 else 0
  | none => 0

/-- The draw of a conversion at the head of an element's draws, and the rest. -/
def popDraw (c : Option Conv) (rs : List U32) : Nat × List U32 :=
  match c, rs with
  | some ⟨.sr, _, _⟩, r :: rest => (r.toNat, rest)
  | _, rs => (0, rs)

/-- An element converted to FP32 or, in an INT32 operation, to INT32 (R69, R73, R75). Without a conversion the
element is taken as it is; BF16 and FP16 widen exactly. -/
def intake (int : Bool) (t : Tensor) (c : Option Conv) (r : Nat) (s : State) (i : Nat) : U32 × Tally :=
  match c with
  | none =>
    if t.fmt = .int32 ∨ t.fmt = .fp32 then (BitVec.ofNat 32 (tensorCode s t i), Tally.zero)
    else (ne32 (tensorValue s t i), Tally.zero)
  | some c =>
    let v := if int then toInt32 c.rnd c.sat r (tensorValue s t i) else convert .fp32 c.rnd c.sat r (tensorValue s t i)
    (BitVec.ofNat 32 v.code, tallyOf v)

/-- An input stream's element with its draw taken from the head of the element's draws. -/
def inputAt (x : InStream) (s : State) (i : Nat) (rs : List U32) : U32 × List U32 × Tally :=
  let (r, rest) := popDraw x.conv rs
  let (v, t) := intake x.toInt x.t x.conv r s i
  (v, rest, t)

/-- The elements of several input streams, each at its own index, in stream order. -/
def inputsAt (s : State) : List (InStream × Nat) → List U32 → List U32 × List U32 × Tally
  | [], rs => ([], rs, Tally.zero)
  | (x, i) :: xs, rs =>
    let (v, rest, t) := inputAt x s i rs
    let (vs, rest', t') := inputsAt s xs rest
    (v :: vs, rest', t.add t')

def insDraws (xs : List InStream) : Nat := (xs.map fun x => convDraws x.conv).sum

/-- A stream's elements enter an INT32 operation as INT32, and every other as FP32: by its input convert's target, or as
the format it is stored in (R67, R68). -/
def inStreamFaultIn (ok : Loc → Bool) (s : State) (int : Bool) (x : InStream) : Option Nat :=
  firstFault [tensorFaultIn ok s x.t,
    unless' 68 (if x.conv.isSome then x.toInt == int else x.t.fmt == (if int then Fmt.int32 else Fmt.fp32))]

def inStreamFault (s : State) (core : Core) (int : Bool) (x : InStream) : Option Nat :=
  inStreamFaultIn (ownPlace core) s int x

/-! ## Output streams -/

/-- A value on its way to an output: an exact value, and whether R123 gives it as an infinity of an empty row. -/
structure OutVal where
  v : FV
  empty : Bool
deriving DecidableEq, Repr

def OutVal.of (x : U32) : OutVal := ⟨dec32 x, false⟩
def OutVal.ofInt (x : U32) : OutVal := ⟨ofInt32 x, false⟩

/-- A byte that R123 states for an infinity of an empty row in E4M3. -/
def emptyByte (v : FV) : Nat :=
  match v with
  | .inf true => 0xFE
  | _ => 0x7E

/-- One group of up to 32 elements of an FP8 output: 32 bytes with padding, the tile exponent, and the counts (R63, R65,
R66, R123). The bytes of a NaN block are all the canonical NaN, padding included. -/
def outGroup (f : Fmt) (c : Conv) (vs : List OutVal) (rs : List Nat) : List Byte × Byte × Tally :=
  let marked (o : OutVal) : Bool := o.empty && f == .e4m3
  let g := encodeGroup f c (vs.map fun o => if marked o then FV.zero else o.v) rs
  let bytes :=
    if g.exp = 0xFF then g.bytes
    else List.zipWith (fun o b => if marked o then emptyByte o.v else b) vs g.bytes
  let pad := if g.exp = 0xFF then canonNan f else 0
  ((bytes ++ List.replicate (32 - bytes.length) pad).map (BitVec.ofNat 8), BitVec.ofNat 8 g.exp, ⟨g.sat, g.flush, false⟩)

/-- The groups of consecutive rows of an FP8 output. -/
def outGroups (f : Fmt) (c : Conv) (rowLen : Nat) (vs : List OutVal) (rs : List Nat) :
    List (List Byte × Byte × Tally) :=
  let rows := (chunks rowLen vs).zip (chunks rowLen rs)
  (rows.map fun (v, r) => ((chunks 32 v).zip (chunks 32 r)).map fun (v', r') => outGroup f c v' r').flatten

/-- One element of an output that is not FP8. -/
def outCode (f : Fmt) (c : Option Conv) (v : FV) (r : Nat) : Cvt :=
  match f, c with
  | .int32, some c => toInt32 c.rnd c.sat r v
  | .int32, none => toInt32 .tz false 0 v
  | f, some c => convert f c.rnd c.sat r v
  | f, none => convert f .ne false 0 v

/-- The bytes of an output, its tile exponents, and its counts; `rs` holds the draw of each element. -/
def outBytes (t : Tensor) (c : Option Conv) (vs : List OutVal) (rs : List Nat) :
    List Byte × List Byte × Tally :=
  if isFp8 t.fmt then
    match c with
    | none => ([], [], Tally.zero)
    | some c =>
      let gs := outGroups t.fmt c t.rowLen vs rs
      ((gs.map fun g => g.1).flatten, gs.map fun g => g.2.1, Tally.sum (gs.map fun g => g.2.2))
  else
    let cs := List.zipWith (fun (o : OutVal) r => outCode t.fmt c o.v r) vs rs
    ((cs.map fun x => leBytes (fmtBytes t.fmt) x.code).flatten, [],
      match c with
      | none => Tally.zero
      | some _ => Tally.sum (cs.map tallyOf))

/-- Write an output stream from its first element on, adding its counts to the operation's entry. -/
def writeOut (op : U32) (out : OutStream) (vs : List OutVal) (rs : List Nat) (s : State) : State :=
  let (bs, es, t) := outBytes out.t out.conv vs rs
  addTally op t (locWrite out.t.exps 0 es (locWrite out.t.loc 0 bs s))

/-- A given tile exponent is at most 0xFE (R65). -/
def expModeOk : ExpMode → Bool
  | .computed => true
  | .given g => decide (g ≠ 0xFF)

/-- An output stream without an output convert has the operation's own format (R67, R68). -/
def outStreamFaultIn (ok : Loc → Bool) (s : State) (int : Bool) (o : OutStream) : Option Nat :=
  firstFault [tensorFaultIn ok s o.t, unless' 65 (o.conv.all fun c => expModeOk c.exp),
    unless' 68 (o.conv.isSome || decide (o.t.fmt = if int then Fmt.int32 else Fmt.fp32))]

def outStreamFault (s : State) (core : Core) (int : Bool) (o : OutStream) : Option Nat :=
  outStreamFaultIn (ownPlace core) s int o

/-! ## Masks (R117) -/

/-- The mask bit of element i at a packed mask. -/
def maskBit (s : State) (l : Loc) (i : Nat) : Bool := locNat s l (i / 8) 1 / 2 ^ (i % 8) % 2 == 1

/-- The element is kept: there is no mask, or its bit is 1. -/
def keptAt (s : State) (mask : Option Loc) (i : Nat) : Bool :=
  match mask with
  | none => true
  | some l => maskBit s l i

/-- The bytes of a packed mask; bits past the last element keep their old values. -/
def maskBytes (s : State) (l : Loc) (bits : List Bool) : List Byte :=
  (upFrom 0 (ceilDiv bits.length 8)).map fun b =>
    BitVec.ofNat 8 ((upFrom 0 8).foldl (fun a k =>
      let i := 8 * b + k
      let v := if i < bits.length then nthD false bits i else maskBit s l i
      a + v.toNat * 2 ^ k) 0)

def writeMask (l : Loc) (bits : List Bool) (s : State) : State := locWrite l 0 (maskBytes s l bits) s

/-- Write u32 values at a place. -/
def writeU32s (l : Loc) (vs : List U32) (s : State) : State :=
  locWrite l 0 (vs.map fun v => leBytes 4 v.toNat).flatten s

/-! ## Draws by element and row (R194) -/

/-- The slots of rows: element i of a row takes `dE` slots on lane i mod 64, and the row `dR` slots on the lane of its
number. -/
def rowSlots (dE dR : Nat) : Nat → List Nat → List Nat
  | _, [] => []
  | rho, n :: ns =>
    ((upFrom 0 n).map fun i => List.replicate dE (i % 64)).flatten ++ List.replicate dR (rho % 64) ++
      rowSlots dE dR (rho + 1) ns

/-- A row's draws: for each element, and for the row. -/
structure RowDraws where
  elems : List (List U32)
  row : List U32
deriving DecidableEq, Repr

/-- `n` lists of `d` draws from the head of a list, and the rest. -/
def splitElems (d : Nat) : Nat → List U32 → List (List U32) × List U32
  | 0, rs => ([], rs)
  | n + 1, rs =>
    let (es, rest) := splitElems d n (rs.drop d)
    (rs.take d :: es, rest)

/-- The draws of rows, in the order of `rowSlots`. -/
def splitRows (dE dR : Nat) : List Nat → List U32 → List RowDraws
  | [], _ => []
  | n :: ns, rs =>
    let (es, rest) := splitElems dE n rs
    ⟨es, rest.take dR⟩ :: splitRows dE dR ns (rest.drop dR)

/-- The first element of each row. -/
def rowStarts : Nat → List Nat → List Nat
  | _, [] => []
  | k, n :: ns => k :: rowStarts (k + n) ns

end Sys2Proof.Machine
end

