-- ==== Sys2Proof/Machine/Cache.lean ====
section
/-! DEFINITION. The key/value cache (R214 to R227): admission, append, release, walker snapshots and deferred
publication. -/

namespace Sys2Proof.Machine

/-! ## Records and frames (R215, R216) -/

def cacheOf (s : State) : Option CacheDecl := s.job.bind fun j => j.image.cache

def slotAddr (c : CacheDecl) (slot : Nat) : Nat := c.slotBase + 8256 * slot

def noPage : Nat := 0xFFFFFFFF

def slotGen (s : State) (c : CacheDecl) (slot : Nat) : Nat := devNat s (slotAddr c slot) 4
def slotLen (s : State) (c : CacheDecl) (slot : Nat) : Nat := devNat s (slotAddr c slot + 4) 4
def slotMax (s : State) (c : CacheDecl) (slot : Nat) : Nat := devNat s (slotAddr c slot + 8) 4
def slotReserved (s : State) (c : CacheDecl) (slot : Nat) : Nat := devNat s (slotAddr c slot + 12) 4
/-- 0 FREE, 1 ACTIVE, 2 LENGTH_LIMIT; an undeclared slot holds nothing. -/
def slotStatus (s : State) (c : CacheDecl) (slot : Nat) : Nat :=
  if slot < c.slots then devNat s (slotAddr c slot + 16) 2 else 0
def slotTail (s : State) (c : CacheDecl) (slot : Nat) : U64 := BitVec.ofNat 64 (devNat s (slotAddr c slot + 20) 8)

/-- The place of a row: 0 and 1; gen's bit 0 names the live one. -/
def rowAddr (c : CacheDecl) (slot row : Nat) : Nat := slotAddr c slot + 64 + 4096 * row

def liveRow (s : State) (c : CacheDecl) (slot : Nat) : Nat := slotGen s c slot % 2

/-- The pages of a slot's live row, in entry order up to the first unused entry. -/
def rowPages (s : State) (base : Nat) : Nat → Nat → List Nat
  | 0, _ => []
  | n + 1, k =>
    let p := devNat s (base + 4 * k) 4
    if p = noPage then [] else p :: rowPages s base n (k + 1)

def livePages (s : State) (c : CacheDecl) (slot : Nat) : List Nat :=
  rowPages s (rowAddr c slot (liveRow s c slot)) 1024 0

/-- The whole shadow row is written: the pages, then unused entries. -/
def writeShadow (c : CacheDecl) (slot : Nat) (pages : List Nat) (s : State) : State :=
  devWrite (rowAddr c slot (1 - liveRow s c slot))
    (((pages ++ List.replicate (1024 - pages.length) noPage).map fun p => leBytes 4 p).flatten) s

/-- Write the header fields other than gen. -/
def writeHeader (c : CacheDecl) (slot len maxLen reserved status shared : Nat) (tail : U64) (s : State) : State :=
  devWrite (slotAddr c slot + 4)
    (leBytes 4 len ++ leBytes 4 maxLen ++ leBytes 4 reserved ++ leBytes 2 status ++ leBytes 2 shared ++
      leBytes 8 tail.toNat ++ List.replicate 36 0) s

/-- The slot records at job start (R216). -/
def initSlots (c : CacheDecl) (s : State) : State :=
  (upFrom 0 c.slots).foldl (fun t i =>
    devWrite (slotAddr c i) (List.replicate 64 0 ++ List.replicate 8192 0xFF) t) s

/-- Bytes of one cache element (R214). -/
def cacheElemBytes : CacheFmt → Nat
  | .e4m3 => 1
  | .e5m2 => 1
  | .bf16 => 2

def cacheFmtOf : CacheFmt → Fmt
  | .e4m3 => .e4m3
  | .e5m2 => .e5m2
  | .bf16 => .bf16

/-- Bytes of K, or of V, of the 256 positions of a frame; of their tile exponents; and F (R215). -/
def frameHalf (c : CacheDecl) : Nat := 256 * c.heads * c.dim * cacheElemBytes c.fmt
def frameExps (c : CacheDecl) : Nat := if c.fmt = .bf16 then 0 else 256 * c.heads * c.dim / 32
def frameSize (c : CacheDecl) : Nat := 2 * frameHalf c + 2 * frameExps c
def frameAddr (c : CacheDecl) (layer page : Nat) : Nat := c.frameBase + (layer * c.pages + page) * frameSize c
def tokAddr (c : CacheDecl) (page : Nat) : Nat := c.tokBase + 1024 * page

/-! ## Prefix sharing (R217, R218) -/

/-- The 64-bit words of a block's token numbers. -/
def pairWords : List U32 → List U64
  | a :: b :: rest => (BitVec.ofNat 64 (a.toNat + b.toNat * 2 ^ 32)) :: pairWords rest
  | _ => []

/-- block_hash of R217. -/
def blockHash (parent : U64) (toks : List U32) : U64 :=
  (pairWords toks).foldl (fun h w => mix64 (h ^^^ w)) (mix64 (parent ^^^ 0x3C6EF372FE94F82B))

def readToks (s : State) (a n : Nat) : List U32 := (upFrom 0 n).map fun i => BitVec.ofNat 32 (devNat s (a + 4 * i) 4)

/-- The page whose index entry matches a block: equal hash and equal token numbers. -/
def findBlock (s : State) (c : CacheDecl) (h : U64) (toks : List U32) : Option Nat :=
  (s.kv.index.find? fun e => e.1 == h && readToks s (tokAddr c e.2) 256 == toks).map fun e => e.2

/-- The pages and chained hashes of a prompt's leading blocks that the index holds, to the first miss. -/
def sharedBlocks (s : State) (c : CacheDecl) (tok : Nat) : Nat → U64 → List (Nat × U64)
  | 0, _ => []
  | n + 1, parent =>
    let toks := readToks s tok 256
    let h := blockHash parent toks
    match findBlock s c h toks with
    | none => []
    | some p => (p, h) :: sharedBlocks s c (tok + 1024) n h

/-! ## Reference counts and the free queue (R218, R225) -/

def addRef (p : Nat) (k : Kv) : Kv := { k with refs := SMap.set 0 k.refs p (SMap.get 0 k.refs p + 1) }

/-- A count falls by one; at zero the page leaves the index and joins the tail of the free queue. -/
def dropRefPage (p : Nat) (k : Kv) : Kv :=
  let n := SMap.get 0 k.refs p - 1
  let t := { k with refs := SMap.set 0 k.refs p n }
  if n = 0 then { t with index := t.index.filter fun e => decide (e.2 ≠ p), freeQ := t.freeQ ++ [p] } else t

/-- A page is pending while a walker snapshot names it. -/
def pagePending (k : Kv) (p : Nat) : Bool := k.snaps.any fun n => n.pages.contains p

/-- Pages reserved over all slots. -/
def reservedTotal (s : State) (c : CacheDecl) : Nat :=
  ((upFrom 0 c.slots).map fun i => slotReserved s c i).sum

def withKv (f : Kv → Kv) (s : State) : State := { s with kv := f s.kv }

/-- An edit of the slot waits for its publication (R227). -/
def editPending (s : State) (slot : Nat) : Bool := s.kv.edits.any fun e => e.1 == slot

/-- An edit waits for its publication; the slot's status before it stays known. -/
def noteEdit (slot : Nat) (op : U32) (before : Nat) (k : Kv) : Kv :=
  { k with edits := k.edits ++ [(slot, op)], prior := SMap.set 0 k.prior slot before }

/-- The status of a slot that an operation sees: without the pending edit of an operation with a larger index (R227). -/
def seenStatus (s : State) (c : CacheDecl) (slot : Nat) (op : U32) : Nat :=
  if s.kv.edits.any fun e => e.1 == slot && decide (op.toNat < e.2.toNat) then SMap.get 0 s.kv.prior slot
  else slotStatus s c slot

def kvStatus (code : U16) (s : State) : State := withKv (fun k => { k with result := code }) s

/-! ## The order of cache operations (R218, R219) -/

/-- The op index of a cache operation. -/
def cacheOpOf : Instr → Option U32
  | .admission op _ => some op
  | .append c => some c.op
  | .release op _ => some op
  | _ => none

/-- The prefix unit's next operation: every cache operation below it has ended. -/
def cacheTurn (s : State) (op : U32) : Bool :=
  kindEnded s .cache op && s.stalled.all fun i => match cacheOpOf i with
    | some q => decide (op.toNat ≤ q.toNat)
    | none => true

/-- A cache operation handles its records in table order; `one` answers none where a record waits, and the operation then
waits with the records that are left. -/
def runTable {α : Type} (op : U32) (again : List α → Instr) (one : α → State → Option State) : List α → State → State
  | [], s => endPart op s
  | r :: rs, s =>
    match one r s with
    | none => stall (again (r :: rs)) s
    | some t => runTable op again one rs t

/-- What is refused when a program with such a cache is built (R214, R233, R240). -/
def cacheFault (s : State) (c : CacheDecl) : Option Nat :=
  firstFault [unless' 214 (decide (1 ≤ c.layers) && decide (c.layers ≤ 256) && decide (1 ≤ c.slots) && decide (c.slots ≤ 4096) &&
      decide (1 ≤ c.pages) && decide (c.pages ≤ 65536)),
    unless' 233 (decide (c.frameBase + c.layers * c.pages * frameSize c ≤ devTop) &&
      decide (c.tokBase + 1024 * c.pages ≤ devTop) && decide (c.slotBase + 8256 * c.slots ≤ devTop)),
    unless' 240 (mayWrite s c.frameBase (c.layers * c.pages * frameSize c) && mayWrite s c.tokBase (1024 * c.pages) &&
      mayWrite s c.slotBase (8256 * c.slots))]

/-- A cache operation in its step: the prefix unit executes one at a time, in op-index order. -/
def cacheOp {α : Type} (op : U32) (again : List α → Instr) (one : CacheDecl → α → State → Option State) (table : List α)
    (s : State) : Host.Outcome State Fault Refusal :=
  match acts s op, cacheOf s with
  | true, some c =>
    match cacheFault s c with
    | some r => .refused (.refusedAtBuild r)
    | none =>
      if cacheTurn s op then .next (runTable op again (one c) table s) else .next (stall (again table) s)
  | _, _ => .next s

/-! ## Admission (R219 to R221) -/

/-- The fields of an admission record. -/
structure Admit where
  tok : Nat
  prompt : Nat
  maxLen : Nat
  slot : Nat
deriving DecidableEq, Repr

def readAdmit (s : State) (a : Nat) : Admit :=
  ⟨devNat s (a + 24) 8, devNat s (a + 20) 4, devNat s (a + 16) 4, devNat s (a + 14) 2⟩

/-- The blocks of the prompt found in the index. -/
def admitShared (s : State) (c : CacheDecl) (r : Admit) : List (Nat × U64) :=
  sharedBlocks s c r.tok ((r.prompt - 1) / 256) c.ns

/-- Pages that the slot needs beyond the shared ones. -/
def admitNeed (r : Admit) (shared : List (Nat × U64)) : Nat := ceilDiv r.maxLen 256 - shared.length

/-- The first check that an admission fails (R220). -/
def admitStatus (s : State) (c : CacheDecl) (r : Admit) : U16 :=
  if c.slots ≤ r.slot ∨ slotStatus s c r.slot ≠ 0 then 1
  else if r.prompt = 0 ∨ r.maxLen < r.prompt ∨ 262144 < r.maxLen then 2
  else if s.kv.freeQ.length < admitNeed r (admitShared s c r) + reservedTotal s c then 3
  else 0

/-- The effect of an admission that passes. -/
def admitEffect (op : U32) (a : Nat) (c : CacheDecl) (r : Admit) (s : State) : State :=
  let sh := admitShared s c r
  let pages := sh.map fun e => e.1
  let tail := (sh.getLast?.map fun e => e.2).getD c.ns
  let t := withKv (fun k => noteEdit r.slot op (slotStatus s c r.slot) (pages.foldl (fun k p => addRef p k) k)) s
  let u := writeHeader c r.slot (256 * sh.length) r.maxLen (admitNeed r sh) 1 sh.length tail
    (writeShadow c r.slot pages t)
  devPut (a + 8) 4 (256 * sh.length) u

/-- One admission record: an edit of the slot that waits for publication holds it back. -/
def admitOne (op : U32) (c : CacheDecl) (a : Nat) (s : State) : Option State :=
  let r := readAdmit s a
  let st := admitStatus s c r
  if st = 0 ∧ editPending s r.slot then none
  else
    let t := if st = 0 then admitEffect op a c r s else s
    some (kvStatus st (devPut (a + 6) 2 st.toNat t))

/-- The records of a table: those that the step has taken from a host admission table (R370), or those that the program
names. -/
def admitRecords (s : State) : AdmitTable → List Nat
  | .built rs => rs
  | .host t =>
    match s.job with
    | none => []
    | some j => nthD [] j.taken t

/-- ADMISSION. -/
def execAdmission (op : U32) (table : AdmitTable) (s : State) : Host.Outcome State Fault Refusal :=
  cacheOp op (fun rs => .admission op (.built rs)) (admitOne op) (admitRecords s table) s

/-! ## Append (R222, R223) -/

/-- Write one position's K and V of every layer into its page. -/
def writePosition (c : CacheDecl) (page off : Nat) :
    Nat → List (List Byte × List Byte × List Byte × List Byte) → State → State
  | _, [], s => s
  | layer, (k, v, ke, ve) :: rest, s =>
    let f := frameAddr c layer page
    let n := c.heads * c.dim * cacheElemBytes c.fmt
    let g := if c.fmt = .bf16 then 0 else c.heads * c.dim / 32
    let s1 := devWrite (f + off * n) (k.take n) s
    let s2 := devWrite (f + frameHalf c + off * n) (v.take n) s1
    let s3 := devWrite (f + 2 * frameHalf c + off * g) (ke.take g) s2
    let s4 := devWrite (f + 2 * frameHalf c + frameExps c + off * g) (ve.take g) s3
    writePosition c page off (layer + 1) rest s4

/-- The state of an append in progress: pages of the row, pages taken, and the last full block's hash. -/
structure AppendRun where
  pages : List Nat
  tail : U64
  taken : Nat
deriving DecidableEq, Repr

/-- A full page enters the index, where the cache publishes, an entry is free and no entry matches (R218). -/
def publishPage (c : CacheDecl) (page : Nat) (h : U64) (s : State) : State :=
  if c.publish ∧ s.kv.index.length < 65536 ∧ findBlock s c h (readToks s (tokAddr c page) 256) = none then
    withKv (fun k => { k with index := k.index ++ [(h, page)] }) s
  else s

/-- Append positions one by one: a new page at every 256th, and a hash at the end of each page. -/
def appendPositions (c : CacheDecl) :
    Nat → List (U32 × List (List Byte × List Byte × List Byte × List Byte)) → AppendRun → State → AppendRun × State
  | _, [], r, s => (r, s)
  | pos, (tok, kv) :: rest, r, s =>
    let fresh := pos % 256 == 0
    let head := s.kv.freeQ.headD 0
    let s1 := if fresh then withKv (fun k => addRef head { k with freeQ := k.freeQ.drop 1 }) s else s
    let r1 : AppendRun := if fresh then { r with pages := r.pages ++ [head], taken := r.taken + 1 } else r
    let page := r1.pages.getLastD 0
    let s2 := devPut (tokAddr c page + 4 * (pos % 256)) 4 tok.toNat (writePosition c page (pos % 256) 0 kv s1)
    if pos % 256 = 255 then
      let h := blockHash r1.tail (readToks s2 (tokAddr c page) 256)
      appendPositions c (pos + 1) rest { r1 with tail := h } (publishPage c page h s2)
    else appendPositions c (pos + 1) rest r1 s2

/-- Positions 0 to n − 1 of each layer, regrouped by position. -/
def byPosition (kv : List (List (List Byte × List Byte × List Byte × List Byte))) (n : Nat) :
    List (List (List Byte × List Byte × List Byte × List Byte)) :=
  (upFrom 0 n).map fun i => kv.map fun layer => nthD ([], [], [], []) layer i

/-- Positions that an append writes. -/
def appendCount (s : State) (c : CacheDecl) (a : AppendRecord) : Nat :=
  min a.tokens.length (slotMax s c a.slot - slotLen s c a.slot)

/-- New pages that they begin. -/
def appendPages (len m : Nat) : Nat := ceilDiv (len + m) 256 - ceilDiv len 256

def appendEffect (op : U32) (c : CacheDecl) (a : AppendRecord) (s : State) : State :=
  let len := slotLen s c a.slot
  let m := appendCount s c a
  let full := decide (slotMax s c a.slot ≤ len + m)
  let (r, t) := appendPositions c len ((a.tokens.take m).zip (byPosition a.kv m))
    ⟨livePages s c a.slot, slotTail s c a.slot, 0⟩ s
  let u := writeHeader c a.slot (len + m) (slotMax s c a.slot) (slotReserved s c a.slot - r.taken)
    (if full then 2 else 1) (devNat s (slotAddr c a.slot + 18) 2) r.tail (writeShadow c a.slot r.pages t)
  kvStatus (if full then 4 else 0) (withKv (noteEdit a.slot op (slotStatus s c a.slot)) u)

/-- One append record: it waits for the slot's pending edit, and for a pending page at the head of the free queue (R225,
R227). -/
def appendOne (op : U32) (c : CacheDecl) (a : AppendRecord) (s : State) : Option State :=
  let st := slotStatus s c a.slot
  if st = 0 then some (kvStatus 5 s)
  else if st = 2 then some (kvStatus 4 s)
  else if editPending s a.slot then none
  else
    let n := appendPages (slotLen s c a.slot) (appendCount s c a)
    if (s.kv.freeQ.take n).any (pagePending s.kv) then none else some (appendEffect op c a s)

/-- APPEND. -/
def execAppend (a : AppendCmd) (s : State) : Host.Outcome State Fault Refusal :=
  cacheOp a.op (fun rs => .append ⟨a.op, rs⟩) (appendOne a.op) a.records s

/-! ## Release (R224) -/

def releaseEffect (c : CacheDecl) (op : U32) (slot : Nat) (s : State) : State :=
  let pages := livePages s c slot
  let t := withKv (fun k => noteEdit slot op (slotStatus s c slot) (pages.foldl (fun k p => dropRefPage p k) k)) s
  kvStatus 0 (writeHeader c slot 0 0 0 0 0 0 (writeShadow c slot [] t))

/-- One release record. -/
def releaseOne (op : U32) (c : CacheDecl) (slot : Nat) (s : State) : Option State :=
  if slotStatus s c slot = 0 then some (kvStatus 5 s)
  else if editPending s slot then none
  else some (releaseEffect c op slot s)

/-- RELEASE. -/
def execRelease (op : U32) (slots : List Nat) (s : State) : Host.Outcome State Fault Refusal :=
  cacheOp op (fun rs => .release op rs) (releaseOne op) slots s

/-! ## Snapshots and publication (R226, R227) -/

/-- A cache operation with a smaller index has not ended, or its edit of the slot is not published yet. -/
def editBelow (s : State) (slot : Nat) (op : U32) : Bool :=
  !kindEnded s .cache op || s.kv.edits.any fun e => e.1 == slot && decide (e.2.toNat < op.toNat)

/-- WALKER_SNAPSHOT: gen and the live row's entries up to a position; it waits for the edits of cache operations with
smaller op indices. -/
def execWalkerSnapshot (core : Core) (op : U32) (slot upTo : Nat) (s : State) : Host.Outcome State Fault Refusal :=
  match acts s op, cacheOf s with
  | true, some c =>
    if editBelow s slot op then .next (stall (.walkerSnapshot core op slot upTo) s)
    else
      let pages := (livePages s c slot).take (ceilDiv upTo 256)
      .next (withKv (fun k => { k with
        snaps := k.snaps ++ [⟨core, op, slot, BitVec.ofNat 32 (slotGen s c slot), pages⟩] }) s)
  | _, _ => .next s

def isSnap (core : Core) (op : U32) (slot : Nat) (n : Snapshot) : Bool := n.core == core && n.op == op && n.slot == slot

/-- SNAPSHOT_RELEASE. -/
def execSnapshotRelease (core : Core) (op : U32) (slot : Nat) (s : State) : Host.Outcome State Fault Refusal :=
  .next (withKv (fun k => { k with snaps := k.snaps.eraseP (isSnap core op slot) }) s)

/-- A slot's edit may publish: every attention operation with a smaller index has ended, and none holds a snapshot of the
slot. -/
def canPublish (s : State) (slot : Nat) (op : U32) : Bool :=
  kindEnded s .walker op && !s.kv.snaps.any fun n => n.slot == slot && decide (n.op.toNat < op.toNat)

/-- CACHE_PUBLISH: gen + 1 in one write, as soon as the edit may publish. -/
def execCachePublish (slot : Nat) (s : State) : Host.Outcome State Fault Refusal :=
  match cacheOf s, s.kv.edits.find? fun e => e.1 == slot with
  | some c, some (_, op) =>
    if canPublish s slot op then
      .next (devPut (slotAddr c slot) 4 ((slotGen s c slot + 1) % 2 ^ 32)
        (withKv (fun k => { k with edits := k.edits.eraseP fun e => e.1 == slot }) s))
    else .next (stall (.cachePublish slot) s)
  | _, _ => .next s

end Sys2Proof.Machine
end

