-- ==== Sys2Proof/Machine/Reals.lean ====
section
/-! DEFINITION. Real constants and functions that the tables of R106 and the procedures of R107 and R199 round: ln 2, π,
e^x, ln(1 + x), √, and the normal distribution. Each is held as an integer number of units of 2^−320; no
FP32 rounding boundary lies that near to a value used here (DEDUCED, assumption log 14). -/

namespace Sys2Proof.Machine

/-- One, in fixed-point units. -/
def fxOne : Nat := 2 ^ 320

/-- The rational number of a fixed-point value. -/
def fxRat (n : Int) : Rat := (n : Rat) / (fxOne : Rat)

/-- Σ t·x^i/i! for x = num/den, from a term `t` that is the `k − 1`-st. -/
def expTerms (num den : Nat) : Nat → Nat → Nat → Nat → Nat
  | 0, _, _, acc => acc
  | n + 1, k, t, acc => expTerms num den n (k + 1) (t * num / (den * k)) (acc + t)

/-- e^(num/den), for an argument of at most 20. -/
def expFx (num den : Nat) : Nat := expTerms num den 240 1 fxOne 0

/-- Σ p·(y²)^i/(2i + 1) for y = num/den, from p = y. -/
def atanhTerms (num den : Nat) : Nat → Nat → Nat → Nat → Nat
  | 0, _, _, acc => acc
  | n + 1, k, p, acc => atanhTerms num den n (k + 2) (p * (num * num) / (den * den)) (acc + p / k)

/-- ln(1 + num/den) for an argument in [0, 1], as 2·artanh(x / (2 + x)). -/
def ln1pFx (num den : Nat) : Nat :=
  let d := 2 * den + num
  2 * atanhTerms num d 110 1 (fxOne * num / d) 0

/-- ln 2. -/
def ln2Fx : Nat := ln1pFx 1 1

/-- Σ (−1)^i p·(1/m²)^i/(2i + 1) from p = 1/m. -/
def atanTerms (m : Nat) : Nat → Nat → Nat → Bool → Int → Int
  | 0, _, _, _, acc => acc
  | n + 1, k, p, neg, acc =>
    atanTerms m n (k + 2) (p / (m * m)) (!neg) (if neg then acc - ((p / k : Nat) : Int) else acc + ((p / k : Nat) : Int))

/-- arctan(1/m). -/
def atanFx (m : Nat) : Int := atanTerms m 150 1 (fxOne / m) false 0

/-- π, by Machin's formula. -/
def piFx : Nat := (16 * atanFx 5 - 4 * atanFx 239).toNat

/-- The square root of a fixed-point value. -/
def sqrtFx (x : Nat) : Nat := isqrt (x * fxOne)

def ln2R : Rat := fxRat ln2Fx
def piR : Rat := fxRat piFx
/-- √(2/π). -/
def sqrt2OverPiR : Rat := fxRat (sqrtFx (2 * fxOne * fxOne / piFx))

/-- φ(c) for c = num/den, |c| ≤ 6: e^(−c²/2)/√(2π). -/
def phiFx (num den : Nat) : Nat :=
  fxOne * fxOne / expFx (num * num) (2 * den * den) * fxOne / sqrtFx (2 * piFx)

/-- Σ t·x^(2i)/(3·5·…·(2i + 1)) from t. -/
def cdfTerms (num den : Nat) : Nat → Nat → Nat → Nat → Nat
  | 0, _, _, acc => acc
  | n + 1, k, t, acc => cdfTerms num den n (k + 2) (t * (num * num) / (den * den * k)) (acc + t)

/-- Φ(c) − 1/2 for c = num/den ≥ 0: φ(c)·(c + c³/3 + c⁵/(3·5) + …). -/
def cdfHalfFx (num den : Nat) : Nat :=
  phiFx num den * cdfTerms num den 300 3 (fxOne * num / den) 0 / fxOne

/-- Φ(c) for a rational c, |c| ≤ 6. -/
def cdfR (c : Rat) : Rat :=
  let h := fxRat (cdfHalfFx c.num.natAbs c.den)
  if c < 0 then mkRat 1 2 - h else mkRat 1 2 + h

/-- φ(c) for a rational c, |c| ≤ 6. -/
def phiR (c : Rat) : Rat := fxRat (phiFx c.num.natAbs c.den)

/-- The Hermite polynomials He_n(c), which give φ^(n)(c) = (−1)^n He_n(c) φ(c). -/
def hermite (c : Rat) : Nat → Rat
  | 0 => 1
  | 1 => c
  | n + 2 => c * hermite c (n + 1) - ((n + 1 : Nat) : Rat) * hermite c n

/-- φ^(n)(c)/n!. -/
def phiDeriv (c phi : Rat) (n fact : Nat) : Rat :=
  (if n % 2 = 0 then hermite c n else -hermite c n) * phi / (fact : Rat)

end Sys2Proof.Machine
end

