-- ==== Sys2Proof/Machine/Funcs.lean ====
section
/-! DEFINITION. The procedures of the fused functions (R106 to R109) and of the normal draw (R199), on FP32 codes. -/

namespace Sys2Proof.Machine

/-! ## Tables (R106) -/

/-- T[j] = round_ne(2^(j/64)). -/
def tabT (j : Nat) : U32 := ofRat32 (fxRat (expFx (j * ln2Fx) (64 * fxOne)))

/-- L[j] = round_ne(ln(1 + j/32)). -/
def tabL (j : Nat) : U32 := ofRat32 (fxRat (ln1pFx j 32))

def c3 : U32 := ofRat32 (mkRat 1 6)
def c5 : U32 := ofRat32 (mkRat 2 15)
def c7 : U32 := ofRat32 (mkRat (-1) 3)
def c9 : U32 := ofRat32 (mkRat 1 3)
def k0 : U32 := ofRat32 sqrt2OverPiR
def k1 : U32 := ofRat32 (mkRat 44715 1000000 * sqrt2OverPiR)
def k3 : U32 := ofRat32 (3 * mkRat 44715 1000000 * sqrt2OverPiR)

/-- The centre of interval i. -/
def normCentre (i : Nat) : Rat := -6 + mkRat (2 * i + 1) 16

/-- a[i][0..5]. -/
def tabA (i : Nat) : List U32 :=
  let c := normCentre i
  let p := phiR c
  [ofRat32 (cdfR c), ofRat32 (phiDeriv c p 0 1), ofRat32 (phiDeriv c p 1 2), ofRat32 (phiDeriv c p 2 6),
    ofRat32 (phiDeriv c p 3 24), ofRat32 (phiDeriv c p 4 120)]

/-- b[i][0..4]. -/
def tabB (i : Nat) : List U32 :=
  let c := normCentre i
  let p := phiR c
  [ofRat32 (phiDeriv c p 0 1), ofRat32 (phiDeriv c p 1 1), ofRat32 (phiDeriv c p 2 2), ofRat32 (phiDeriv c p 3 6),
    ofRat32 (phiDeriv c p 4 24)]

/-! ## Procedures (R107) -/

def half32 : U32 := 0x3F000000
def two32 : U32 := 0x40000000
def zero32 : U32 := 0

/-- The exact rational of a finite code. -/
def rat32 (x : U32) : Rat := (dec32 x).toRat

/-- −x as a source operand: the exact negative of the value. -/
def negV (x : U32) : FV := (dec32 x).neg

/-- fma with its first operand negated. -/
def fnma32 (a b c : U32) : U32 := ne32 (FV.add (FV.mul (negV a) (dec32 b)) (dec32 c))

def exp32 (x : U32) : U32 :=
  let v := dec32 x
  if v.isNan then nan32
  else if FV.lt (.num false 89) v then inf32
  else if FV.lt v (.num true 104) then zero32
  else
    let q := v.toRat
    let n := rneInt (q * 64 / ln2R)
    let r := ofRat32 (q - (n : Rat) * ln2R / 64)
    let a := fma32 r c3 half32
    let a := fma32 r a one32
    let p := fma32 r a one32
    let j := n % 64
    let k := (n - j) / 64
    ofRat32 (rat32 (tabT j.toNat) * rat32 p * pow2 k)

/-- ln1p_f for 0 ≤ u ≤ 1. -/
def ln1p32 (u : U32) : U32 :=
  let q := rat32 u
  if q < pow2 (-12) then ofRat32 (q - q * q / 2)
  else
    let j := rneInt (q * 32)
    let c : Rat := 1 + (j : Rat) / 32
    let t := ofRat32 ((q - (j : Rat) / 32) / c)
    let a := fma32 t (ofRat32 (mkRat (-1) 4)) c9
    let a := fma32 t a (ofRat32 (mkRat (-1) 2))
    let a := fma32 t a one32
    add32 (tabL j.toNat) (mul32 t a)

/-- `y` with the sign of `u`. -/
def withSign (u y : U32) : U32 := if bitAt u 31 then setBit y 31 true else y

def tanh32 (u : U32) : U32 :=
  let w := dec32 u
  if w.isNan then nan32
  else
    let v := abs32 u
    let y :=
      if !FV.lt w.abs (.num false 10) then one32
      else if FV.lt w.abs (.num false (pow2 (-4))) then
        let v2 := mul32 v v
        let a := fma32 v2 c5 c7
        let a := mul32 v2 a
        fma32 v a v
      else
        let e := exp32 (ofRat32 (-2 * rat32 v))
        div32 (sub32 one32 e) (add32 one32 e)
    withSign u y

def sigmoid32 (x : U32) : U32 := div32 one32 (add32 one32 (exp32 (neg32 x)))

/-- Horner's rule from the highest coefficient down. -/
def horner (h : U32) : List U32 → U32
  | [] => zero32
  | [c] => c
  | c :: cs => fma32 (horner h cs) h c

/-- (P, D) of normal_f; the second components are used only for finite inputs. -/
def normal32 (x : U32) : U32 × U32 :=
  let v := dec32 x
  if !FV.lt v (.num false 6) then (one32, zero32)
  else if FV.lt v (.num true 6) then (zero32, zero32)
  else
    let i := ((v.toRat + 6) * 8).floor.toNat
    let h := ofRat32 (v.toRat - normCentre i)
    (horner h (tabA i), horner h (tabB i))

/-! ## The catalogue (R108, R109) -/

/-- x > 0 as a comparison (R71). -/
def pos32 (x : U32) : Bool := FV.lt FV.zero (dec32 x)

/-- Steps shared by the tanh form of GELU and its derivative: x2, t, h. -/
def geluSteps (x : U32) : U32 × U32 × U32 :=
  let x2 := mul32 x x
  let u := mul32 x (fma32 x2 k1 k0)
  (x2, tanh32 u, mul32 half32 x)

/-- f(x) for a finite x. -/
def funcFinite (f : FuncName) (x : U32) : U32 :=
  match f with
  | .identity => x
  | .relu => if pos32 x then x else zero32
  | .relu2 => if pos32 x then mul32 x x else zero32
  | .geluErf => mul32 x (normal32 x).1
  | .geluTanh =>
    let (_, t, h) := geluSteps x
    fma32 h t h
  | .silu => mul32 x (sigmoid32 x)
  | .sigmoid => sigmoid32 x
  | .tanh => tanh32 x
  | .softplus => add32 (max32 x zero32) (ln1p32 (exp32 (setBit x 31 true)))

/-- f′(x) for a finite x. -/
def derivFinite (f : FuncName) (x : U32) : U32 :=
  match f with
  | .identity => one32
  | .relu => if pos32 x then one32 else zero32
  | .relu2 => if pos32 x then mul32 two32 x else zero32
  | .geluErf =>
    let (p, d) := normal32 x
    fma32 x d p
  | .geluTanh =>
    let (x2, t, h) := geluSteps x
    let w := fnma32 t t one32
    let g := mul32 h w
    let z := fma32 g (fma32 x2 k3 k0) half32
    fma32 half32 t z
  | .silu =>
    let s := sigmoid32 x
    fma32 x (mul32 s (sub32 one32 s)) s
  | .sigmoid =>
    let s := sigmoid32 x
    mul32 s (sub32 one32 s)
  | .tanh =>
    let t := tanh32 x
    fnma32 t t one32
  | .softplus => sigmoid32 x

/-- f at an infinity (R109). -/
def funcInf (f : FuncName) (neg : Bool) : U32 :=
  match f, neg with
  | .identity, true => ninf32
  | .geluErf, true => 0x80000000
  | .geluTanh, true => 0x80000000
  | .silu, true => 0x80000000
  | .tanh, true => 0xBF800000
  | _, true => zero32
  | .sigmoid, false => one32
  | .tanh, false => one32
  | _, false => inf32

/-- f′ at an infinity (R109). -/
def derivInf (f : FuncName) (neg : Bool) : U32 :=
  match f, neg with
  | .identity, _ => one32
  | .relu2, false => inf32
  | .sigmoid, _ => zero32
  | .tanh, _ => zero32
  | _, false => one32
  | _, true => zero32

/-- f(x) of the catalogue. -/
def func32 (f : FuncName) (x : U32) : U32 :=
  match dec32 x with
  | .nan => nan32
  | .inf s => funcInf f s
  | .num _ _ => funcFinite f x

/-- f′(x) of the catalogue. -/
def deriv32 (f : FuncName) (x : U32) : U32 :=
  match dec32 x with
  | .nan => nan32
  | .inf s => derivInf f s
  | .num _ _ => derivFinite f x

/-! ## The normal draw (R199) -/

def s3 : U32 := ofRat32 (mkRat (-1) 6)
def s5 : U32 := ofRat32 (mkRat 1 120)
def s7 : U32 := ofRat32 (mkRat (-1) 5040)
def q4 : U32 := ofRat32 (mkRat 1 24)
def q6 : U32 := ofRat32 (mkRat (-1) 720)
def q8 : U32 := ofRat32 (mkRat 1 40320)

def sinP (t : U32) : U32 :=
  let t2 := mul32 t t
  let a := fma32 t2 s7 s5
  let a := fma32 t2 a s3
  let a := mul32 t2 a
  fma32 t a t

def cosP (t : U32) : U32 :=
  let t2 := mul32 t t
  let a := fma32 t2 q8 q6
  let a := fma32 t2 a q4
  let a := fma32 t2 a (ofRat32 (mkRat (-1) 2))
  fma32 t2 a one32

/-- cos(π·g/2) for an exact g in [0, 1]. -/
def qcos (g : Rat) : U32 :=
  if g ≤ mkRat 1 2 then cosP (ofRat32 (g * piR / 2)) else sinP (ofRat32 ((1 - g) * piR / 2))

def normalDraw (r1 r2 : U32) : U32 :=
  let u : Rat := (((r1.toNat >>> 9 : Nat) : Rat) + mkRat 1 2) * pow2 (-23)
  let k := flog2 u
  let l := ofRat32 ((k : Rat) * ln2R + rat32 (ln1p32 (ofRat32 (u * pow2 (-k) - 1))))
  let rho := sqrt32 (ne32 (FV.mul (.num true 2) (dec32 l)))
  let w : Rat := ((r2.toNat >>> 9 : Nat) : Rat) * pow2 (-21)
  let q := w.floor
  let f := w - (q : Rat)
  let c :=
    if q = 0 then qcos f
    else if q = 1 then neg32 (qcos (1 - f))
    else if q = 2 then neg32 (qcos f)
    else qcos (1 - f)
  mul32 rho c

end Sys2Proof.Machine
end

