-- ==== Sys2Proof/Machine/Reduce.lean ====
section
/-! DEFINITION. Rows of the stream engine: reductions in the order of R119, top-k (R121), scans (R122), soft-maximum and
normalization forward and backward (R124, R125, R189, R190). A masked element of a row is `none`. -/

namespace Sys2Proof.Machine

/-! ## Reductions (R119, R120) -/

/-- Reduce one row position into its lane. -/
def laneStep (f : U32 → U32 → U32) (sq : Bool) (acc : Option U32) (x : U32) : Option U32 :=
  match acc with
  | none => some (if sq then mul32 x x else x)
  | some a => some (if sq then fma32 x x a else f a x)

/-- The 64 lanes after every element, in index order. -/
def lanesOf (f : U32 → U32 → U32) (sq : Bool) : Nat → List (Option U32) → List (Option U32) → List (Option U32)
  | _, [], acc => acc
  | i, none :: xs, acc => lanesOf f sq (i + 1) xs acc
  | i, some x :: xs, acc => lanesOf f sq (i + 1) xs (updNth (fun a => laneStep f sq a x) acc (i % 64))

/-- Combine two lanes of the tree. -/
def joinLanes (f : U32 → U32 → U32) : Option U32 → Option U32 → Option U32
  | some a, some b => some (f a b)
  | some a, none => some a
  | none, b => b

/-- One level of the pairwise tree. -/
def pairUp (f : U32 → U32 → U32) : List (Option U32) → List (Option U32)
  | a :: b :: rest => joinLanes f a b :: pairUp f rest
  | rest => rest

/-- reduce of R119; `none` for an empty row. -/
def reduceRow (f : U32 → U32 → U32) (sq : Bool) (xs : List (Option U32)) : Option U32 :=
  let l := lanesOf f sq 0 xs (List.replicate 64 none)
  nthD none (pairUp f (pairUp f (pairUp f (pairUp f (pairUp f (pairUp f l)))))) 0

def keptCount (xs : List (Option U32)) : Nat := (xs.filter Option.isSome).length

/-- round_ne(x / c) for an exact integer c. -/
def divNat32 (x : U32) (c : Nat) : U32 := ne32 (FV.div (dec32 x) (FV.ofRat (c : Rat)))

/-- The mean of the kept elements; +0 for an empty row (R120, R123). -/
def meanRow (xs : List (Option U32)) : U32 :=
  match reduceRow add32 false xs with
  | none => zero32
  | some s => divNat32 s (keptCount xs)

/-- Sum, +0 for an empty row. -/
def sumRow (xs : List (Option U32)) : U32 := (reduceRow add32 false xs).getD zero32

/-! ## Top-k (R72, R121) -/

/-- The best kept position of a row in the order of R72, ties to the lower position. -/
def bestOf : Nat → List (Option U32) → Option (Nat × U32)
  | _, [] => none
  | i, none :: xs => bestOf (i + 1) xs
  | i, some x :: xs =>
    match bestOf (i + 1) xs with
    | none => some (i, x)
    | some (j, y) => if ranksAbove y x then some (j, y) else some (i, x)

/-- The `k` highest kept elements with their positions, highest first. -/
def topK : Nat → List (Option U32) → List (Nat × U32)
  | 0, _ => []
  | k + 1, xs =>
    match bestOf 0 xs with
    | none => []
    | some (i, x) => (i, x) :: topK k (updNth (fun _ => none) xs i)

/-! ## Scans (R122) -/

def scanFun : ScanOp → U32 → U32 → U32
  | .sum => add32
  | .max => max32
  | .min => min32

/-- What a position with nothing to combine receives. -/
def scanUnit : ScanOp → U32
  | .sum => zero32
  | .max => ninf32
  | .min => inf32

/-- The results of a scan of one row. -/
def scanRow (f : ScanOp) (incl : Bool) : Option U32 → List (Option U32) → List U32
  | _, [] => []
  | acc, x :: xs =>
    let next := joinLanes (scanFun f) acc x
    (if incl then next else acc).getD (scanUnit f) :: scanRow f incl next xs

/-! ## Soft-maximum (R124, R189) -/

/-- The exponentials e_i of the kept elements. -/
def expRow (m : U32) (xs : List (Option U32)) : List (Option U32) := xs.map fun x => x.map fun v => exp32 (sub32 v m)

/-- ln 2 multiples and the row's logarithm (R124 step 4). -/
def logSum (m s : U32) : U32 :=
  let q := rat32 s
  let k := flog2 q
  add32 m (ofRat32 ((k : Rat) * ln2R + rat32 (ln1p32 (ofRat32 (q * pow2 (-k) - 1)))))

/-- What a soft-maximum row yields: outputs, log-sum-exp, m, s, and whether the row was empty. -/
structure SoftRow where
  y : List U32
  lse : U32
  m : U32
  s : U32
  empty : Bool
deriving DecidableEq, Repr

/-- A row of one value at the kept elements and +0 at the masked ones. -/
def fillKept (v : U32) (xs : List (Option U32)) : List U32 := xs.map fun x => if x.isSome then v else zero32

def softRow (xs : List (Option U32)) : SoftRow :=
  match reduceRow max32 false xs with
  | none => ⟨fillKept zero32 xs, ninf32, ninf32, zero32, true⟩
  | some m =>
    match dec32 m with
    | .nan => ⟨fillKept nan32 xs, nan32, nan32, nan32, false⟩
    | .inf true => ⟨fillKept zero32 xs, ninf32, ninf32, zero32, false⟩
    | .inf false => ⟨fillKept nan32 xs, nan32, inf32, nan32, false⟩
    | .num _ _ =>
      let es := expRow m xs
      let s := sumRow es
      ⟨es.map fun e => (e.map fun v => div32 v s).getD zero32, logSum m s, m, s, false⟩

/-- softmax_back of R189: the gradient of the outputs `dy`, or of the log-sum-exp `dl`. -/
def softBackRow (lse : Bool) (xs : List (Option U32)) (dy : List U32) (dl : U32) : List U32 :=
  match reduceRow max32 false xs with
  | none => fillKept zero32 xs
  | some m =>
    match dec32 m with
    | .nan => fillKept nan32 xs
    | .inf true => fillKept zero32 xs
    | .inf false => fillKept nan32 xs
    | .num _ _ =>
      let es := expRow m xs
      let s := sumRow es
      let ys := es.map fun e => e.map fun v => div32 v s
      if lse then ys.map fun y => (y.map fun v => mul32 dl v).getD zero32
      else
        let ps := List.zipWith (fun (y : Option U32) d => y.map fun v => mul32 d v) ys dy
        let g := sumRow ps
        List.zipWith (fun (y : Option U32) d => (y.map fun v => mul32 v (sub32 d g)).getD zero32) ys dy

/-! ## Normalization (R125, R190) -/

/-- d_i of a row: x_i − μ in layer mode, x_i in RMS mode; with μ. -/
def centred (layer : Bool) (xs : List (Option U32)) : List (Option U32) × U32 :=
  if layer then
    let mu := meanRow xs
    (xs.map fun x => x.map fun v => sub32 v mu, mu)
  else (xs, zero32)

/-- r of a row from its d_i and ε. -/
def rootOf (ds : List (Option U32)) (eps : U32) : U32 :=
  let q := (reduceRow add32 true ds).getD zero32
  div32 one32 (sqrt32 (add32 (divNat32 q (keptCount ds)) eps))

/-- What a normalization row yields. -/
structure NormRow where
  y : List U32
  mu : U32
  r : U32
  empty : Bool
deriving DecidableEq, Repr

def normRow (layer : Bool) (eps : U32) (xs : List (Option U32)) (gamma beta : List U32) : NormRow :=
  if keptCount xs = 0 then ⟨fillKept zero32 xs, zero32, zero32, true⟩
  else
    let (ds, mu) := centred layer xs
    let r := rootOf ds eps
    let gb := gamma.zip beta
    let ys := List.zipWith (fun (d : Option U32) (p : U32 × U32) =>
      match d with
      | none => zero32
      | some v => if layer then fma32 (mul32 v r) p.1 p.2 else mul32 (mul32 v r) p.1) ds gb
    ⟨ys, mu, r, false⟩

/-- norm_back of R190: dx, pg, pb, with `none` in pg and pb for a masked element. -/
def normBackRow (layer : Bool) (eps : U32) (xs : List (Option U32)) (dy gamma : List U32) :
    List U32 × List (Option U32) × List (Option U32) :=
  let c := keptCount xs
  if c = 0 then (fillKept zero32 xs, xs.map fun _ => none, xs.map fun _ => none)
  else
    let (ds, _) := centred layer xs
    let r := rootOf ds eps
    let hs := ds.map fun d => d.map fun v => mul32 v r
    let gs := List.zipWith (fun (h : Option U32) (p : U32 × U32) => h.map fun _ => mul32 p.1 p.2) hs (dy.zip gamma)
    let ts := List.zipWith (fun (h g : Option U32) => match h, g with
      | some a, some b => some (mul32 b a)
      | _, _ => none) hs gs
    let b := divNat32 (sumRow ts) c
    let a := if layer then divNat32 (sumRow gs) c else zero32
    let dx := List.zipWith (fun (h g : Option U32) => match h, g with
      | some h', some g' => mul32 r (sub32 (fnma32 h' b g') a)
      | _, _ => zero32) hs gs
    let pg := List.zipWith (fun (h : Option U32) d => h.map fun v => mul32 d v) hs dy
    let pb := List.zipWith (fun (h : Option U32) (d : U32) => h.map fun _ => d) hs dy
    (dx, pg, pb)

/-- Add a row's terms to the per-feature sums (R191): a masked element adds nothing. -/
def addFeatures (acc : List U32) (row : List (Option U32)) : List U32 :=
  List.zipWith (fun a (x : Option U32) => match x with
    | none => a
    | some v => add32 a v) acc (row ++ List.replicate (acc.length - row.length) none)

/-- The per-feature sums over rows, in increasing row order, from +0. -/
def featureSums (features : Nat) (rows : List (List (Option U32))) : List U32 :=
  rows.foldl addFeatures (List.replicate features zero32)

end Sys2Proof.Machine
end

