-- ==== Sys2Proof/Machine/Halo.lean ====
section
/-! DEFINITION. Halo rows and their token words (R132, R158 to R163). -/

namespace Sys2Proof.Machine

/-- The base of a core's token area (R132), where the program declares one. -/
def tokenBase (s : State) (core : Nat) : Option Nat :=
  s.job.bind fun j => (j.image.tokenAreas.find? fun e => e.1 == core).map fun e => e.2

/-- The place of a token word. -/
def tokenPlace (s : State) (core word : Nat) : Option Nat :=
  (tokenBase s core).map fun b => scratchKey core (b + 8 * word)

/-- The seq field of a token word (R159); 0 where the core has no token area. -/
def tokenSeq (s : State) (core word : Nat) : Nat :=
  match tokenPlace s core word with
  | none => 0
  | some k => ofLe (Mem.read 0 s.cores.scratch k 8) / 2 ^ 32

/-- Write a token word (use number, op index). -/
def writeToken (core word use : Nat) (op : U32) (s : State) : State :=
  match tokenPlace s core word with
  | none => s
  | some k =>
    { s with cores := { s.cores with
        scratch := Mem.write 0 s.cores.scratch k (leBytes 8 (use % 2 ^ 32 * 2 ^ 32 + op.toNat)) } }

/-- The slot of a use (R160). -/
def haloSlot (h : HaloBuf) (use : Nat) : Nat := (use - 1) % max 1 h.slots

def haloFault (s : State) (h : HaloBuf) (use : Nat) : Option Nat :=
  firstFault [unless' 158 (decide (1 ≤ h.slots) && decide (h.slots ≤ 8) && decide (h.rowBytes ≤ 0x40000)),
    unless' 160 (decide (1 ≤ use)), unless' 158 (decide (h.ready + h.slots ≤ 4096) && decide (h.ack + h.slots ≤ 4096)),
    unless' 132 ((tokenBase s h.producer.val).isSome && (tokenBase s h.consumer.val).isSome),
    spanFault s ⟨.scratch h.consumer, h.slotBase⟩ (h.slots * h.rowBytes)]

/-- The number of a halo buffer's READY words among the consumers' words. -/
def haloKey (h : HaloBuf) : Nat := 4096 * h.consumer.val + h.ready

/-- The use that was sent last through a buffer: its row is in its slot. -/
def lastSent (s : State) (h : HaloBuf) : Nat := SMap.get 0 s.cores.haloSent (haloKey h)

/-- The use whose READY word landed last. -/
def lastReady (s : State) (h : HaloBuf) : Nat := SMap.get 0 s.cores.haloReady (haloKey h)

/-- The seq fields of the READY and ACK words of a use's slot (R158, R159). -/
def readySeq (s : State) (h : HaloBuf) (use : Nat) : Nat := tokenSeq s h.consumer.val (h.ready + haloSlot h use)
def ackSeq (s : State) (h : HaloBuf) (use : Nat) : Nat := tokenSeq s h.producer.val (h.ack + haloSlot h use)

/-- The slot's ACK word lets use n be sent (R160). -/
def slotFree (s : State) (h : HaloBuf) (use : Nat) : Bool := decide (use ≤ ackSeq s h use + h.slots)

/-- A halo operation: it acts in its step; a core whose controller holds an unresolved branch sends none (R139, R162); and
it waits, by handshake, for what it names. -/
def haloOp (c : Instr) (op : U32) (sender : Core) (fault : Option Nat) (ready : Bool) (effect : State) (s : State) :
    Host.Outcome State Fault Refusal :=
  if ¬ acts s op then .next s
  else
    match fault with
    | some r => .refused (.refusedAtBuild r)
    | none => if ready ∧ ¬ branchOpen s sender.val then .next effect else .next (stall c s)

/-- The row of a use lands in its slot. The slots lie one behind another, a row's length apart, and the token words of
consecutive slots one behind another (DESIGN CHOICE, assumption log 75). -/
def sendRow (h : HaloBuf) (use : Nat) (src : HaloRow) (s : State) : State :=
  let t := locWrite ⟨.scratch h.consumer, h.slotBase⟩ (haloSlot h use * h.rowBytes)
    (locRead s ⟨.scratch h.producer, src.addr⟩ 0 h.rowBytes) s
  { t with cores := { t.cores with haloSent := SMap.set 0 t.cores.haloSent (haloKey h) use } }

/-- HALO_SEND: the producer sends its rows in the order of their uses, each once its slot's ACK is there; then the row's
bytes land in the consumer's slot. A row with a double error aborts the step (R133). -/
def execHaloSend (op : U32) (h : HaloBuf) (use : Nat) (src : HaloRow) (s : State) : Host.Outcome State Fault Refusal :=
  haloOp (.haloSend op h use src) op h.producer
    (firstFault [haloFault s h use, spanFault s ⟨.scratch h.producer, src.addr⟩ h.rowBytes])
    (slotFree s h use && lastSent s h + 1 == use)
    (if src.uncorrectable then scratchError h.producer.val op s else sendRow h use src s) s

/-- The READY word of a use lands. -/
def postReady (op : U32) (h : HaloBuf) (use : Nat) (s : State) : State :=
  let t := writeToken h.consumer.val (h.ready + haloSlot h use) use op s
  { t with cores := { t.cores with haloReady := SMap.set 0 t.cores.haloReady (haloKey h) use } }

/-- HALO_READY: the READY word lands behind its row, and behind the READY words before it. -/
def execHaloReady (op : U32) (h : HaloBuf) (use : Nat) (s : State) : Host.Outcome State Fault Refusal :=
  haloOp (.haloReady op h use) op h.producer (haloFault s h use)
    (decide (use ≤ lastSent s h) && lastReady s h + 1 == use) (postReady op h use s) s

/-- HALO_ACK: it follows the consumer's last read of the slot, which waits until READY holds seq = n (R161). -/
def execHaloAck (op : U32) (h : HaloBuf) (use : Nat) (s : State) : Host.Outcome State Fault Refusal :=
  haloOp (.haloAck op h use) op h.consumer (haloFault s h use) (readySeq s h use == use)
    (writeToken h.producer.val (h.ack + haloSlot h use) use op s) s

/-- Every halo row that an operation reads is in its slot (R43, R161). -/
def halosHere (s : State) (ctx : OpCtx) : Bool := ctx.halos.all fun e => readySeq s e.1 e.2 == e.2

end Sys2Proof.Machine
end

