-- ==== Sys2Proof/Machine/Handshake.lean ====
section
/-! DEFINITION. What every engine command shares: the address streams of the core controller (R137), the regions of the
drain file with the full tokens of their slots (R111 to R113), the layout of the scratchpad (R128, R130), and the order of
an engine's queue (R136). -/

namespace Sys2Proof.Machine

/-! ## Address streams (R137) -/

/-- The offsets of nested counts, innermost first: the innermost runs fastest. -/
def affineOffsets : List (Nat × Int) → List Int
  | [] => [0]
  | (n, d) :: outer =>
    ((affineOffsets outer).map fun o => (upFrom 0 n).map fun (i : Nat) => (i : Int) * d + o).flatten

def affineAddrs (a : Affine) : List Int := (affineOffsets a.levels).map fun o => a.base + o

/-- Index j of an index list: a u32 of the controller's data memory or of the core's scratchpad. -/
def indexAt (s : State) (core : Core) (l : IndexList) (j : Nat) : Nat :=
  match l with
  | .dataMem a => ofLe (Mem.read 0 (ctlOf s core.val).dataMem (a + 4 * j) 4)
  | .scratch a => locNat s ⟨.scratch core, a⟩ (4 * j) 4

/-- The addresses of a stream, one for each element. -/
def streamAddrs (s : State) (core : Core) (a : AddrStream) : List Int :=
  match a.form with
  | .affine f => affineAddrs f
  | .indexed base scale l n inner =>
    ((upFrom 0 n).map fun j =>
      (affineOffsets inner).map fun o => base + scale * (indexAt s core l j : Int) + o).flatten

/-- The bytes that a space holds: first byte and length; a drain-file region lies at its lines of 128 B. -/
def spaceRange (s : State) (core : Core) : AddrSpace → Range
  | .scratch => ⟨0, 0xA00000⟩
  | .region k =>
    match regionAt s k with
    | some r => if r.core = core.val then ⟨128 * r.first, 128 * r.lines⟩ else ⟨0, 0⟩
    | none => ⟨0, 0⟩
  | .hbm => ⟨0, devTop⟩
  | .peer p => if p < s.rinkSize then ⟨0, devTop⟩ else ⟨0, 0⟩

/-- `n` bytes at an address lie outside its space. The shadow area is no operation's to address (R140). -/
def addrOutside (s : State) (core : Core) (sp : AddrSpace) (n : Nat) (a : Int) : Bool :=
  let r := spaceRange s core sp
  decide (a < r.base) || decide ((r.base + r.len : Nat) < a + n) ||
    (decide (sp = .scratch) && (match s.job with
      | some j => hitsArea j.image.shadowAreas 0x10000 core.val a.toNat n
      | none => false))

/-- Five nested counts at most in an affine stream, and two inside an indexed one. -/
def addrFormOk : AddrForm → Bool
  | .affine a => decide (a.levels.length ≤ 5)
  | .indexed _ _ _ _ inner => decide (inner.length ≤ 2)

/-! ## The layout of the scratchpad (R128) -/

/-- The bank and row of a scratchpad byte's line. -/
def placeOfLine (a : Nat) (blocked : Bool) : Nat × Nat :=
  let g := a / 0x8000
  if blocked then
    let b := a / 0x400 % 32
    let l := a / 0x40 % 16
    (2 * (b / 2) + l % 2, 16 * g + 8 * (b % 2) + l / 2)
  else
    let lg := a / 0x40 % 512
    (lg % 32, 16 * g + lg / 32)

/-- Every 32 KiB group that the bytes touch is declared blocked. -/
def blockedSpan (s : State) (l : Loc) (n : Nat) : Bool :=
  match l.space, s.job with
  | .scratch c, some j =>
    (upFrom (l.addr / 0x8000) ((l.addr + max 1 n - 1) / 0x8000 + 1 - l.addr / 0x8000)).all fun g =>
      j.image.blocked.contains (c.val, g)
  | _, _ => false

/-- A place in the core's own scratchpad. -/
def inScratch (core : Core) (l : Loc) : Bool := l.space == .scratch core

/-! ## The regions of the drain file (R112, R113) -/

/-- A region's bytes of the drain file. -/
def regionRange (r : Region) : Range := ⟨128 * r.first, 128 * r.lines⟩

/-- A unit may reach the bytes of a region directly: a unit's own, or, for the drain, a group region. -/
def regionOpen (u : RegionUser) (r : Region) : Bool :=
  match r.kind with
  | .own v => v == u
  | .handOff _ _ _ => false
  | .group => u == .drain

/-- The unit of a span and the rule that its use of a region breaks; `out` says that it writes. -/
def unitFault (s : State) (u : RegionUser) (out : Bool) (l : Loc) (n : Nat) : Option Nat :=
  match l.space, s.job with
  | .drain c, some j =>
    unless' 113 (j.image.regions.all fun r =>
      r.core != c.val || !overlaps (regionRange r) l.addr n || regionOpen u r)
  | .ring _ k, _ =>
    match regionAt s k with
    | some ⟨_, _, _, .handOff w r _⟩ => unless' 113 (if out then w == u else r == u)
    | _ => some 112
  | _, _ => none

/-- Bytes of a hand-off region's slot, and the slots of its ring. -/
def slotBytes (r : Region) : Nat :=
  match r.kind with
  | .handOff _ _ lines => 128 * lines
  | _ => 128

def slotCount (r : Region) : Nat := 128 * r.lines / max 1 (slotBytes r)

/-- The full token of a slot (R112): a slot that is filled and not taken carries one. -/
def slotFull (g : Ring) (count slot : Nat) : Bool :=
  (upFrom g.taken (g.filled - g.taken)).any fun n => n % max 1 count == slot

/-- The place of the n-th slot of a ring, counted on from the step's start. -/
def slotPlace (r : Region) (n : Nat) : Nat := drainKey r.core (128 * r.first + n % max 1 (slotCount r) * slotBytes r)

/-- The writer fills one slot and sets its token, where it has a slot's bytes and the slot is empty. -/
def fillSlot (k : Nat) (r : Region) (s : State) : State :=
  let g := ringAt s k
  if slotBytes r ≤ g.waiting.length ∧ g.filled < g.taken + slotCount r then
    let t := { s with cores := { s.cores with
      drain := Mem.write 0 s.cores.drain (slotPlace r g.filled) (g.waiting.take (slotBytes r)) } }
    setRing k (fun g => { g with filled := g.filled + 1, waiting := g.waiting.drop (slotBytes r) }) t
  else s

/-- The writer fills as many slots as are empty. -/
def fillSlots (k : Nat) (r : Region) : Nat → State → State
  | 0, s => s
  | n + 1, s => fillSlots k r n (fillSlot k r s)

/-- The reader takes one full slot and clears its token; the writer may then fill it. -/
def takeSlot (k : Nat) (r : Region) (s : State) : State :=
  let g := ringAt s k
  if g.taken < g.filled then
    let t := setRing k (fun g => { g with
      taken := g.taken + 1
      intake := g.intake ++ Mem.read 0 s.cores.drain (slotPlace r g.taken) (slotBytes r) }) s
    fillSlot k r t
  else s

/-- The reader takes slots until it holds `n` bytes or no slot is full. -/
def takeSlots (k : Nat) (r : Region) (n : Nat) : Nat → State → State
  | 0, s => s
  | fuel + 1, s =>
    if n ≤ (ringAt s k).intake.length then s else takeSlots k r n fuel (takeSlot k r s)

/-- What a command reads at a place: its bytes, and those of them that no later command reads again. -/
structure SpanUse where
  loc : Loc
  len : Nat
  used : Nat
deriving DecidableEq, Repr

/-- The bytes at a place, all used up by the command. -/
def useAll (l : Loc) (n : Nat) : SpanUse := ⟨l, n, n⟩

/-- A tensor's bytes with its tile exponents; `last` says that no later command reads them again. -/
def tensorUses (t : Tensor) (last : Bool) : List SpanUse :=
  let n := tensorBytes t
  let e := if isFp8 t.fmt then tensorStored t / 32 else 0
  [⟨t.loc, n, if last then n else 0⟩, ⟨t.exps, e, if last then e else 0⟩]

/-- The spans that a tensor is written to. -/
def tensorSpans (t : Tensor) : List (Loc × Nat) :=
  [(t.loc, tensorBytes t), (t.exps, if isFp8 t.fmt then tensorStored t / 32 else 0)]

/-- The reader of a hand-off region takes what it reads. -/
def takeUse (u : SpanUse) (s : State) : State :=
  match u.loc.space with
  | .ring _ k =>
    match regionAt s k with
    | none => s
    | some r => takeSlots k r (u.loc.addr + u.len) (ceilDiv (u.loc.addr + u.len) (max 1 (slotBytes r))) s
  | _ => s

/-- What it reads has been handed over; a poisoned word of HBM is not (its read is HBM_READ_RETURN's, R239), nor is a word
that a reduction below the operation has still to complete (R252). -/
def useHere (op : U32) (s : State) (u : SpanUse) : Bool :=
  match u.loc.space with
  | .ring _ k => decide (u.loc.addr + u.len ≤ (ringAt s k).intake.length)
  | .hbm => !poisoned s u.loc.addr u.len && !awaitsReduction s op u.loc.addr u.len
  | _ => true

/-- The bytes used up leave the reader's intake. -/
def dropUse (u : SpanUse) (s : State) : State :=
  match u.loc.space with
  | .ring _ k => setRing k (fun g => { g with intake := g.intake.drop u.used }) s
  | _ => s

/-- What was written to a hand-off region goes into its empty slots. -/
def passOn (l : Loc) (s : State) : State :=
  match l.space with
  | .ring _ k =>
    match regionAt s k with
    | none => s
    | some r => fillSlots k r (slotCount r) s
  | _ => s

/-- The writer of a hand-off region still holds a slot's bytes for which no slot is empty. -/
def writerHeld (s : State) (l : Loc) : Bool :=
  match l.space with
  | .ring _ k =>
    match regionAt s k with
    | none => false
    | some r => decide (slotBytes r ≤ (ringAt s k).waiting.length)
  | _ => false

/-! ## An engine's commands (R43, R112, R133, R136, R161) -/

/-- The engine's unit at the drain file, if it has a port there (R111); the outputs of fused attention leave by way of the
drain. -/
def engineUser : Engine → Option RegionUser
  | .trellis => some .trellis
  | .drain => some .drain
  | .stream => some .stream
  | .walker => some .drain
  | _ => none

def portsFault (s : State) (e : Engine) (reads : List SpanUse) (writes : List (Loc × Nat)) : Option Nat :=
  match engineUser e with
  | none => firstFault ((reads.map fun u => unless' 113 (match u.loc.space with
      | .drain _ | .ring _ _ => false
      | _ => true)) ++ writes.map fun w => unless' 113 (match w.1.space with
      | .drain _ | .ring _ _ => false
      | _ => true))
  | some v => firstFault ((reads.map fun u => unitFault s v false u.loc u.len) ++
      writes.map fun w => unitFault s v true w.1 w.2)

/-- A span that is written lies where a program may write (R240). -/
def writeAllowed (s : State) (w : Loc × Nat) : Option Nat :=
  match w.1.space with
  | .hbm => unless' 240 (mayWrite s w.1.addr w.2)
  | _ => none

/-- The rules that a command's spans break: the unit's ports (R111, R113), and what a program may write (R240). -/
def usesFault (s : State) (e : Engine) (reads : List SpanUse) (writes : List (Loc × Nat)) : Option Nat :=
  firstFault (portsFault s e reads writes :: writes.map (writeAllowed s))

/-- What a command of an engine's queue names: the engine, its operation, the rule that refuses it when the program is
built, what it reads and writes of the stores, whether the engine can run it yet, whether its addresses stop the job, with which status and place,
and what it does. The parts look at the state in which the engine turns to the command. -/
structure EngineRun where
  engine : Engine
  ctx : OpCtx
  fault : State → Option Nat
  reads : State → List SpanUse
  writes : State → List (Loc × Nat)
  ready : State → Bool
  stop : State → Option (U16 × U64)
  effect : State → State

/-- The spans that the command reads, and those that it writes; one of no bytes counts for nothing. -/
def EngineRun.uses (r : EngineRun) (s : State) : List SpanUse := (r.reads s).filter fun u => decide (u.len ≠ 0)
def EngineRun.spans (r : EngineRun) (s : State) : List (Loc × Nat) := (r.writes s).filter fun w => decide (w.2 ≠ 0)

/-- The rule that refuses the command. -/
def EngineRun.refusal (r : EngineRun) (s : State) : Option Nat :=
  firstFault [r.fault s, usesFault s r.engine (r.uses s) (r.spans s)]

/-- The engine turns to the command: it is the next of its queue, and the halo rows it reads are there. -/
def EngineRun.turn (r : EngineRun) (s : State) : Bool :=
  atHead s r.engine r.ctx.core.val r.ctx.op && halosHere s r.ctx

/-- What its hand-off regions hold has been taken. -/
def EngineRun.taken (r : EngineRun) (s : State) : State := (r.uses s).foldl (fun t u => takeUse u t) s

/-- Everything the command needs is there. -/
def EngineRun.can (r : EngineRun) (s : State) : Bool :=
  (r.uses s).all (useHere r.ctx.op (r.taken s)) && !((r.spans s).any fun w => writerHeld s w.1) && r.ready (r.taken s)

/-- The command's effect, with the hand-over of what it used and of what it wrote. -/
def EngineRun.done (r : EngineRun) (s : State) : State :=
  let t := (r.uses s).foldl (fun t u => dropUse u t) (r.effect (r.taken s))
  endPart r.ctx.op (endCommand r.engine r.ctx.core.val r.ctx.op ((r.spans s).foldl (fun t w => passOn w.1 t) t))

/-- A command of an engine's queue: the engine runs its queue in order, and the command waits, by handshake, for its
turn, for what its hand-off regions hand over, and for what `ready` says. -/
def runEngine (c : Instr) (r : EngineRun) (s : State) : Host.Outcome State Fault Refusal :=
  if ¬ acts s r.ctx.op then .next s
  else if ¬ r.turn s then .next (stall c s)
  else
    match r.refusal s with
    | some k => .refused (.refusedAtBuild k)
    | none =>
      if ¬ r.can s then .next (stall c (r.taken s))
      else if r.ctx.uncorrectable then .next (scratchError r.ctx.core.val r.ctx.op s)
      else
        match r.stop s with
        | some (code, loc) => .next (stopJob code r.ctx.op loc s)
        | none => .next (r.done s)

end Sys2Proof.Machine
end

