-- ==== Sys2Proof/Machine/Trellis.lean ====
section
/-! DEFINITION. The Trellis (R80 to R97): loading a tile with its checker sums, the swap, the wave with its chunk values and
column sums, and the checker's comparison. -/

namespace Sys2Proof.Machine

/-! ## Chunks and columns (R89 to R91) -/

/-- A chunk value: its FP32 code, whether it saturated, and its alignment exponent where a product is not zero. -/
structure ChunkRes where
  v : U32
  sat : Bool
  q : Option Int
deriving DecidableEq, Repr

/-- The largest floor(log2) among the non-zero finite products. -/
def alignExp : List FV → Option Int
  | [] => none
  | .num _ m :: ps =>
    if m = 0 then alignExp ps
    else some (match alignExp ps with
      | none => flog2 m
      | some e => max (flog2 m) e)
  | _ :: ps => alignExp ps

/-- A product truncated toward zero to units of 2^(q − 24). -/
def truncTerm (q : Int) : FV → Int
  | .num s m =>
    let n := (m / pow2 (q - 24)).floor
    if s then -n else n
  | _ => 0

/-- A finite value rounded to FP32, the largest finite FP32 of its sign where it would be larger. -/
def satRound (x : Rat) : U32 × Bool :=
  match FV.ofRat x with
  | .num s m =>
    let c := convert .fp32 .ne true 0 (.num s m)
    (BitVec.ofNat 32 c.code, c.sat == 1)
  | _ => (zero32, false)

/-- chunk of R89 on its products. -/
def chunkOf (ps : List FV) : ChunkRes :=
  if ps.any FV.isNan then ⟨nan32, false, none⟩
  else if ps.any fun p => p == .inf false then
    (if ps.any fun p => p == .inf true then ⟨nan32, false, none⟩ else ⟨inf32, false, none⟩)
  else if ps.any fun p => p == .inf true then ⟨ninf32, false, none⟩
  else
    match alignExp ps with
    | none => ⟨zero32, false, none⟩
    | some q =>
      let acc := (ps.map (truncTerm q)).sum
      if acc = 0 then ⟨zero32, false, some q⟩
      else
        let (v, sat) := satRound ((acc : Rat) * pow2 (q - 24))
        ⟨v, sat, some q⟩

/-- Chunk values added in order, with the saturation of R91. -/
def addChunks : U32 → Bool → List ChunkRes → U32 × Bool
  | v, sat, [] => (v, sat)
  | v, sat, c :: cs =>
    let (w, o) := addSat32 v c.v
    addChunks w (sat || o || c.sat) cs

/-- A column result: row 0's chunk, then the rows below it. -/
def columnSum : List ChunkRes → U32 × Bool
  | [] => (zero32, false)
  | c :: cs => addChunks c.v c.sat cs

/-! ## Cells -/

def PlaneInfo.empty : PlaneInfo := ⟨0, 0, false, false, false, .e4m3, false, false, false⟩

def planeKey (core p : Nat) : Nat := 2 * core + p
def cellKey (core p i j : Nat) : Nat := ((planeKey core p * 32 + i) * 32 + j) * 1024
def expKey (core p i : Nat) : Nat := (planeKey core p * 32 + i) * 1024
def checkKey (core p i r k : Nat) : Nat := ((planeKey core p * 32 + i) * 32 + r) * 32 + k

/-- Chunk length (R84). -/
def chunkLen (wide : Bool) : Nat := if wide then 16 else 32

/-- Bytes of a cell element. -/
def cellBytes (f : Fmt) : Nat := if isFp8 f then 1 else 2

/-- The place in a plane of the element that a read index and an element number select: along a cell row, or along a
cell column (R87). In wide mode a transposed tile has its element (read index r, element k) at 32 · k + r, as 16 cell rows of
32, since the plane's 32 cell rows of 16 have no 32 columns (DESIGN CHOICE, assumption log 76). -/
def cellIndex (column wide : Bool) (r k : Nat) : Nat := if column then k * 32 + r else r * chunkLen wide + k

/-- The exponent register of contraction element 32i + k (or 16i + k) of output o (R81, R88). -/
def expSlot (contractInner : Bool) (k o : Nat) : Nat := if contractInner then o else k * 32 + o / 32

/-- The plane in use, and the one that loads. -/
def inUsePlane (s : State) (core : Nat) : Nat := SMap.get 0 s.cores.planeInUse core
def loadingPlane (s : State) (core : Nat) : Nat := 1 - inUsePlane s core
def planeAt (s : State) (core p : Nat) : PlaneInfo := SMap.get PlaneInfo.empty s.cores.planes (planeKey core p)

/-! ## Loading (R83, R85, R87, R93) -/

/-- The element of the stationary operand for contraction element `c` and output `o`; none beyond its extents. -/
def statIndex (t : TileLoadCmd) (c o : Nat) : Option Nat :=
  if c < t.k ∧ o < t.n then some (if t.contractInner then o * t.k + c else c * t.n + o) else none

def statCode (s : State) (t : TileLoadCmd) (c o : Nat) : Nat :=
  match statIndex t c o with
  | none => 0
  | some e => tensorCode s t.w e

def statExp (s : State) (t : TileLoadCmd) (c o : Nat) : Byte :=
  match statIndex t c o with
  | none => 0
  | some e => if isFp8 t.w.fmt then tensorExp s t.w e else 0

def statValue (s : State) (t : TileLoadCmd) (c o : Nat) : FV :=
  match statIndex t c o with
  | none => FV.zero
  | some e => tensorValue s t.w e

/-- The bytes of DPU(i, j)'s cell: consecutive runs, each with its place in the cell. -/
def cellRuns (s : State) (t : TileLoadCmd) (i j : Nat) : List (Nat × List Byte) :=
  let L := chunkLen t.wide
  let R := ceilDiv t.n 32
  let b := cellBytes t.w.fmt
  let elem (r k : Nat) : List Byte := leBytes b (statCode s t (L * i + k) (32 * r + j))
  if t.transposed then
    (upFrom 0 L).map fun k => (b * (32 * k), ((upFrom 0 R).map fun r => elem r k).flatten)
  else
    (upFrom 0 R).map fun r => (b * (L * r), ((upFrom 0 L).map fun k => elem r k).flatten)

/-- The exponent registers of Trellis row i. -/
def expRuns (s : State) (t : TileLoadCmd) (i : Nat) : List (Nat × Byte) :=
  if ¬ isFp8 t.w.fmt then []
  else
    let L := chunkLen t.wide
    if t.contractInner then (upFrom 0 t.n).map fun o => (o, statExp s t (L * i) o)
    else ((upFrom 0 L).map fun k =>
      (upFrom 0 (ceilDiv t.n 32)).map fun g => (k * 32 + g, statExp s t (L * i + k) (32 * g))).flatten

/-- A checker sum (R93): the exact sum of the 32 operands of a Trellis row, rounded once to BF16. -/
def checkerSum (vs : List FV) : Nat := (convert .bf16 .ne false 0 (vs.foldl FV.add FV.zero)).code

def checkerRuns (s : State) (t : TileLoadCmd) (i : Nat) : List (Nat × Nat × Nat) :=
  let L := chunkLen t.wide
  ((upFrom 0 (ceilDiv t.n 32)).map fun r => (upFrom 0 L).map fun k =>
    (r, k, checkerSum ((upFrom 0 32).map fun j => statValue s t (L * i + k) (32 * r + j)))).flatten

/-- Trellis rows that a contraction of `k` elements uses. -/
def rowsUsed (wide : Bool) (k : Nat) : Nat := ceilDiv k (chunkLen wide)

/-- Write the loading plane of a core, with its exponents and checker sums. -/
def loadPlane (t : TileLoadCmd) (s : State) : State :=
  let core := t.ctx.core.val
  let p := loadingPlane s core
  let rows := upFrom 0 (rowsUsed t.wide t.k)
  let cells0 := Mem.clear s.cores.cells (cellKey core p 0 0) (2 ^ 20)
  let cells := rows.foldl (fun m i => (upFrom 0 (min 32 t.n)).foldl (fun m j =>
    (cellRuns s t i j).foldl (fun m e => Mem.write 0 m (cellKey core p i j + e.1) e.2) m) m) cells0
  let exps0 := Mem.clear s.cores.cellExps (expKey core p 0) (2 ^ 15)
  let exps := rows.foldl (fun m i =>
    (expRuns s t i).foldl (fun m e => Mem.write 0 m (expKey core p i + e.1) [e.2]) m) exps0
  let sums := (rows.map fun i => (checkerRuns s t i).map fun (r, k, c) => (checkKey core p i r k, c)).flatten
  let lo := checkKey core p 0 0 0
  let ck0 := s.cores.checker.filter fun e => !(decide (lo ≤ e.1) && decide (e.1 < lo + 2 ^ 15))
  let checker := sums.foldl (fun m e => SMap.set 0 m e.1 (BitVec.ofNat 16 e.2)) ck0
  let elems := (upFrom 0 (t.k * t.n)).map fun e => tensorValue s t.w e
  let bad := sums.any fun e => !(decode .bf16 e.2).isFinite
  let info : PlaneInfo :=
    ⟨t.k, t.n, t.contractInner, t.transposed, t.wide, t.w.fmt, elems.any fun v => !v.isFinite, bad, true⟩
  { s with cores := { s.cores with
      cells := cells
      cellExps := exps
      checker := checker
      planes := SMap.set PlaneInfo.empty s.cores.planes (planeKey core p) info } }

/-- Trellis operand formats (R67). -/
def trellisFmt : Fmt → Bool
  | .e4m3 => true
  | .e5m2 => true
  | .bf16 => true
  | .fp16 => true
  | .fp32 => false
  | .int32 => false

def tileLoadFault (s : State) (t : TileLoadCmd) : Option Nat :=
  firstFault [unless' 67 (trellisFmt t.w.fmt), unless' 84 (t.wide || isFp8 t.w.fmt),
    unless' 85 (inScratch t.ctx.core t.w.loc && (!isFp8 t.w.fmt || inScratch t.ctx.core t.w.exps)),
    unless' 83 (decide (1 ≤ t.k) && decide (t.k ≤ 32 * chunkLen t.wide) && decide (1 ≤ t.n) && decide (t.n ≤ 1024)),
    unless' 83 (t.w.n == t.k * t.n), unless' 63 (!isFp8 t.w.fmt || t.w.rowLen == if t.contractInner then t.k else t.n),
    tensorFault s t.ctx.core t.w]

/-- TILE_LOAD: it waits while a loaded plane has not been swapped in. -/
def tileLoadRun (t : TileLoadCmd) : EngineRun where
  engine := .trellis
  ctx := t.ctx
  fault s := tileLoadFault s t
  reads _ := tensorUses t.w true
  writes _ := []
  ready s := !(planeAt s t.ctx.core.val (loadingPlane s t.ctx.core.val)).loaded
  stop _ := none
  effect s := loadPlane t s

def execTileLoad (t : TileLoadCmd) (s : State) : Host.Outcome State Fault Refusal :=
  runEngine (.tileLoad t) (tileLoadRun t) s

/-- The loading plane becomes the one in use. -/
def swapPlanes (core : Nat) (s : State) : State :=
  let p := loadingPlane s core
  let old := planeAt s core (1 - p)
  { s with cores := { s.cores with
    planeInUse := SMap.set 0 s.cores.planeInUse core p
    planes := SMap.set PlaneInfo.empty s.cores.planes (planeKey core (1 - p)) { old with loaded := false } } }

/-- TILE_SWAP: it waits until the load is complete (R86). -/
def tileSwapRun (ctx : OpCtx) : EngineRun where
  engine := .trellis
  ctx := ctx
  fault _ := none
  reads _ := []
  writes _ := []
  ready s := (planeAt s ctx.core.val (loadingPlane s ctx.core.val)).loaded
  stop _ := none
  effect s := swapPlanes ctx.core.val s

def execTileSwap (ctx : OpCtx) (s : State) : Host.Outcome State Fault Refusal :=
  runEngine (.tileSwap ctx) (tileSwapRun ctx) s

/-! ## The wave (R82, R90, R93 to R96) -/

/-- Elements of a 1 KiB block, and of one of its rows of 32 B (R128; of a 2-byte format DESIGN CHOICE, assumption log
77: 32 rows of 16). -/
def blockElems (f : Fmt) : Nat := 1024 / cellBytes f
def blockRow (f : Fmt) : Nat := 32 / cellBytes f

/-- Elements that a block gives a streaming vector: one of its rows, or one of its columns (R130). -/
def blockSegment (f : Fmt) (column : Bool) : Nat := if column then 32 else blockRow f

/-- The element numbers of a row or a column of a block. -/
def blockLine (f : Fmt) (block line : Nat) (column : Bool) : List Nat :=
  (upFrom 0 (blockSegment f column)).map fun u =>
    block * blockElems f + (if column then u * blockRow f + line else line * blockRow f + u)

/-- The streaming vector of a wave: its elements' values. -/
def waveElems (s : State) (c : WaveCmd) : List FV :=
  match c.x with
  | .tensor t => (upFrom 0 t.n).map (tensorValue s t)
  | .blocks t first stride count line column =>
    (((upFrom 0 count).map fun q => blockLine t.fmt (first + stride * q) line.val column).flatten).map (tensorValue s t)
  | .window index off =>
    let b := SMap.get ⟨.e4m3, []⟩ s.cores.window c.ctx.core.val
    (((nthD [] b.vecs index).drop off).take (32 * chunkLen c.wide)).map fun e => codeValue b.fmt e.exp e.code.toNat

def waveFmt (s : State) (c : WaveCmd) : Fmt :=
  match c.x with
  | .tensor t => t.fmt
  | .blocks t _ _ _ _ _ => t.fmt
  | .window _ _ => (SMap.get ⟨.e4m3, []⟩ s.cores.window c.ctx.core.val).fmt

/-- The operand that DPU(i, j) reads for a read index, element k. -/
def cellValue (s : State) (core p : Nat) (info : PlaneInfo) (column : Bool) (r i j k : Nat) : FV :=
  let b := cellBytes info.fmt
  let code := ofLe (Mem.read 0 s.cores.cells (cellKey core p i j + b * cellIndex column info.wide r k) b)
  let e := Mem.get 0 s.cores.cellExps (expKey core p i + expSlot info.contractInner k (32 * r + j))
  codeValue info.fmt e code

def checkerValue (s : State) (core p r i k : Nat) : FV :=
  decode .bf16 (SMap.get (0 : U16) s.cores.checker (checkKey core p i r k)).toNat

/-- The streaming segment of Trellis row i, padded with zeros. -/
def rowSegment (L : Nat) (xs : List FV) (i : Nat) : List FV :=
  (upFrom (L * i) L).map fun e => nthD FV.zero xs e

/-- What a wave yields: 33 results (column 32 is the checker's), whether the tile saturation flag is set, the largest
alignment exponent, and whether the comparison is skipped (R95). -/
structure WaveRes where
  outs : List U32
  check : U32
  sat : Bool
  q : Option Int
  skip : Bool
deriving DecidableEq, Repr

def maxOpt : Option Int → Option Int → Option Int
  | none, b => b
  | a, none => a
  | some a, some b => some (max a b)

/-- Chunks of a column, one for each Trellis row in use, and a +0 for the rows below them. -/
def columnChunks (L rows : Nat) (xs : List FV) (cell : Nat → Nat → FV) : List ChunkRes :=
  ((upFrom 0 rows).map fun i =>
    chunkOf (List.zipWith FV.mul (rowSegment L xs i) ((upFrom 0 L).map (cell i)))) ++
    (if rows < 32 then [⟨zero32, false, none⟩] else [])

def runWave (s : State) (c : WaveCmd) : WaveRes :=
  let core := c.ctx.core.val
  let p := inUsePlane s core
  let info := planeAt s core p
  let L := chunkLen c.wide
  let xs := waveElems s c
  let rows := min 32 (max 1 (max (rowsUsed c.wide xs.length) (rowsUsed c.wide info.k)))
  let cell (j i k : Nat) : FV := cellValue s core p info c.column c.r.val i j k
  let cols := (upFrom 0 32).map fun j => columnChunks L rows xs (cell j)
  let chk := columnChunks L rows xs fun i k => checkerValue s core p c.r.val i k
  let sums := cols.map columnSum
  let (cv, csat) := columnSum chk
  let q := ((cols.flatten ++ chk).map ChunkRes.q).foldl maxOpt none
  let sat := sums.any fun x => x.2
  let badOperand := xs.any (fun v => !v.isFinite) ||
    (upFrom 0 rows).any fun i => (upFrom 0 32).any fun j => (upFrom 0 L).any fun k => !(cell j i k).isFinite
  ⟨sums.map fun x => x.1, cv, sat, q, badOperand || sat || csat || info.checkerBad⟩

/-- Struck results are replaced (R94: what the checker is there to find). -/
def struck (flips : List (Fin 33 × U32)) (j : Nat) (v : U32) : U32 :=
  match flips.find? fun e => e.1.val == j with
  | none => v
  | some (_, w) => w

/-- The reference sum S (R94). -/
def refSum : List U32 → U32
  | [] => zero32
  | o :: os => os.foldl add32 o

/-- check of R94, with the skips of R95: true for a mismatch. -/
def waveMismatch (w : WaveRes) : Bool :=
  let s := refSum w.outs
  let allFinite := w.outs.all fun o => (dec32 o).isFinite
  if w.skip || (allFinite && !(dec32 s).isFinite) then false
  else
    match w.q with
    | none => !((dec32 s).isZero && (dec32 w.check).isZero)
    | some q =>
      match dec32 s, dec32 w.check with
      | .num _ _, .num _ _ => decide (pow2 (q + 8) < Rat.abs (rat32 w.check - rat32 s))
      | _, _ => true

/-- The blocks that a transposing port reads (R128, R130): whole blocks of blocked groups of the core's scratchpad, with
FP8 groups along their rows, and a vector no longer than a wave takes. -/
def blocksFault (s : State) (core : Core) (wide : Bool) (t : Tensor) (first stride count line : Nat) (column : Bool) :
    Option Nat :=
  firstFault [tensorFault s core t, unless' 130 (blockedSpan s t.loc (tensorBytes t)),
    unless' 128 (t.loc.addr % 1024 == 0), unless' 88 (!isFp8 t.fmt || t.rowLen % 32 == 0),
    unless' 130 (decide (line < (if column then blockRow t.fmt else 32)) && decide (1 ≤ count) &&
      decide ((first + stride * (count - 1) + 1) * blockElems t.fmt ≤ t.n)),
    unless' 83 (decide (count * blockSegment t.fmt column ≤ 32 * chunkLen wide))]

def waveFault (s : State) (c : WaveCmd) : Option Nat :=
  let core := c.ctx.core.val
  let info := planeAt s core (inUsePlane s core)
  let f := waveFmt s c
  firstFault [unless' 67 (trellisFmt f),
    unless' 84 (c.wide == info.wide && c.wide == (!isFp8 f || !isFp8 info.fmt)),
    unless' 87 (c.column == info.transposed), unless' 83 (decide (c.r.val < ceilDiv info.n 32)),
    match c.x with
    | .tensor t => firstFault [tensorFault s c.ctx.core t, unless' 83 (decide (t.n ≤ 32 * chunkLen c.wide))]
    | .blocks t first stride count line column =>
      blocksFault s c.ctx.core c.wide t first stride count line.val column
    | .window _ _ => none]

/-- What a wave reads; the last wave of a vector has used it up. -/
def waveReads (s : State) (c : WaveCmd) : List SpanUse :=
  let info := planeAt s c.ctx.core.val (inUsePlane s c.ctx.core.val)
  match c.x with
  | .tensor t => tensorUses t (decide (ceilDiv info.n 32 ≤ c.r.val + 1))
  | .blocks t _ _ _ _ _ => tensorUses t true
  | .window _ _ => []

/-- The pass holds only pruned taps and zero channels for the vector's row tile, and no element of the tile is NaN, infinite
or in a NaN block: its vectors are not streamed (R156). -/
def passIdle (s : State) (c : WaveCmd) : Bool :=
  match c.x with
  | .window index off =>
    let b := SMap.get ⟨.e4m3, []⟩ s.cores.window c.ctx.core.val
    (((nthD [] b.vecs index).drop off).take (32 * chunkLen c.wide)).all WinElem.idle &&
      !(planeAt s c.ctx.core.val (inUsePlane s c.ctx.core.val)).unsafeTile
  | _ => false

/-- The outputs of a wave that is not streamed are +0 (R156). -/
def skippedWave : WaveRes := ⟨List.replicate 32 zero32, zero32, false, none, true⟩

/-- The results reach the drain, the tile saturation flag its entry, and a mismatch aborts the step. -/
def waveEffect (c : WaveCmd) (s : State) : State :=
  let core := c.ctx.core.val
  let w0 := if passIdle s c then skippedWave else runWave s c
  let w := { w0 with
    outs := ((upFrom 0 32).zip w0.outs).map fun (j, v) => struck c.flip j v
    check := struck c.flip 32 w0.check }
  let entry : FootEntry := ⟨c.ctx.op, c.r.val, w.outs, w.sat⟩
  let t := addTally c.ctx.op (Tally.flag w.sat)
    { s with cores := { s.cores with
        foot := SMap.set [] s.cores.foot core (SMap.get [] s.cores.foot core ++ [entry]) } }
  if waveMismatch w then checkerMismatch core c.ctx.op c.tile t else t

/-- A tile is in use. -/
def tileInUse (s : State) (core : Nat) : Bool := decide ((planeAt s core (inUsePlane s core)).n ≠ 0)

/-- TRELLIS_WAVE: without a tile in use, nothing streams. -/
def waveRun (c : WaveCmd) : EngineRun where
  engine := .trellis
  ctx := c.ctx
  fault s := if tileInUse s c.ctx.core.val then waveFault s c else none
  reads s := waveReads s c
  writes _ := []
  ready s := tileInUse s c.ctx.core.val
  stop _ := none
  effect s := waveEffect c s

def execTrellisWave (c : WaveCmd) (s : State) : Host.Outcome State Fault Refusal :=
  runEngine (.trellisWave c) (waveRun c) s

end Sys2Proof.Machine
end

