-- ==== Sys2Proof/Machine/Attention.lean ====
section
/-! DEFINITION. Fused attention and its backward operation (R201 to R211). -/

namespace Sys2Proof.Machine

/-! ## Products (R89 to R92) -/

/-- One pass: a column of the Trellis over two operand vectors. -/
def passSum (L : Nat) (a b : List FV) : U32 × Bool :=
  let cs := (chunks L (List.zipWith FV.mul a b)).map chunkOf
  columnSum (cs ++ if cs.length < 32 then [⟨zero32, false, none⟩] else [])

/-- Passes added in order by the drain. -/
def addPasses : List (U32 × Bool) → U32 × Bool
  | [] => (zero32, false)
  | p :: ps => ps.foldl (fun (a : U32 × Bool) b =>
      let (w, o) := addSat32 a.1 b.1
      (w, a.2 || b.2 || o)) p

/-- dot over a contraction of `n` elements, of which the vectors hold the leading ones and the rest are zero. -/
def dotN (wide : Bool) (n : Nat) (a b : List FV) : U32 × Bool :=
  let L := chunkLen wide
  let P := 32 * L
  addPasses ((upFrom 0 (max 1 (ceilDiv n P))).map fun p => passSum L ((a.drop (P * p)).take P) ((b.drop (P * p)).take P))

/-! ## Keys and queries (R206 to R209) -/

/-- Where a key's K and V lie: a row of the K and V streams, or a place in a page. -/
inductive KeySrc where
  | fresh (row : Nat)
  | cached (page off : Nat)
deriving DecidableEq, Repr

/-- A query row: its row in Q, its position, and its kept keys with their positions. -/
structure AttnQuery where
  row : Nat
  pos : Nat
  keys : List (Nat × KeySrc)
deriving DecidableEq, Repr

/-- What the forward and the backward operation share. -/
structure AttnGeom where
  form : AttnForm
  dim : Nat
  heads : Nat
  kvHeads : Nat
  rule : MaskRule
  window : Nat
  q : Tensor
  k : Tensor
  v : Tensor
deriving DecidableEq, Repr

def geomF (c : AttnCmd) : AttnGeom := ⟨c.form, c.dim, c.heads, c.kvHeads, c.rule, c.window, c.q, c.k, c.v⟩
def geomB (c : AttnBackCmd) : AttnGeom := ⟨c.form, c.dim, c.heads, c.kvHeads, c.rule, c.window, c.q, c.k, c.v⟩

/-- The mask rules of R207. -/
def maskHolds (rule : MaskRule) (window pq pk : Nat) : Bool :=
  (match rule with
    | .bidirectional => true
    | .causal => decide (pk ≤ pq)
    | .blockCausal f => decide (pk / max 1 f ≤ pq / max 1 f)) &&
    (window == 0 || decide (max pq pk - min pq pk < window))

def queryRows (g : AttnGeom) : Nat := g.q.n / max 1 (g.heads * g.dim)
def keyRows (g : AttnGeom) : Nat := g.k.n / max 1 (g.kvHeads * g.dim)

/-- The mark of a row: segment and position (R206). -/
def markAt (s : State) (l : Loc) (i : Nat) : Nat × Nat :=
  let m := locNat s l (4 * i) 4
  (m / 65536, m % 65536)

/-- Queries of the packed form; a padding row is none, and no key. -/
def packedQueries (s : State) (g : AttnGeom) (mq mk : Loc) : List AttnQuery :=
  let keys := (upFrom 0 (keyRows g)).map fun i => (i, markAt s mk i)
  (upFrom 0 (queryRows g)).filterMap fun r =>
    let (seg, pos) := markAt s mq r
    if seg = 0xFFFF then none
    else some ⟨r, pos, keys.filterMap fun (i, ks, kp) =>
      if ks = seg ∧ maskHolds g.rule g.window pos kp then some (kp, .fresh i) else none⟩

/-- A length table entry (R208). -/
structure LenEntry where
  kvLen : Nat
  qLen : Nat
  qFirst : Nat
  slot : Nat
deriving DecidableEq, Repr

def lenEntry (s : State) (l : Loc) (e : Nat) : LenEntry :=
  let w := locNat s l (16 * e) 16
  ⟨w / 2 ^ 96, w / 2 ^ 64 % 2 ^ 32, w / 2 ^ 32 % 2 ^ 32, w / 2 ^ 16 % 2 ^ 16⟩

/-- The status of an entry's slot as the operation sees it; FREE where there is no cache. -/
def entryStatus (s : State) (op : U32) (slot : Nat) : Nat :=
  match cacheOf s with
  | none => 0
  | some c => seenStatus s c slot op

/-- The entry stops the job with KV_TABLE. -/
def entryBad (s : State) (op : U32) (e : LenEntry) : Bool :=
  if e.slot = 0xFFFF then decide (e.kvLen ≠ 0) else entryStatus s op e.slot == 0

/-- The walker holds no snapshot of the entry's slot yet and must wait for an edit with a smaller op index (R227). -/
def entryWaits (s : State) (ctx : OpCtx) (e : LenEntry) : Bool :=
  e.slot != 0xFFFF && !s.kv.snaps.any (isSnap ctx.core ctx.op e.slot) && editBelow s e.slot ctx.op

/-- The pages that a walker reads: its snapshot's, or else the live row's (R226). -/
def walkerPages (s : State) (ctx : OpCtx) (slot : Nat) : List Nat :=
  match s.kv.snaps.find? (isSnap ctx.core ctx.op slot) with
  | some n => n.pages
  | none => match cacheOf s with
    | none => []
    | some c => livePages s c slot

/-- A cached position that no page holds lies outside its space (R137, R209). -/
def entryOutside (s : State) (ctx : OpCtx) (e : LenEntry) : Bool :=
  e.slot != 0xFFFF && decide (0 < e.qLen) && entryStatus s ctx.op e.slot != 2 &&
    decide ((walkerPages s ctx e.slot).length < ceilDiv e.kvLen 256)

/-- Queries of one entry; an entry whose slot is LENGTH_LIMIT generates no work, and its rows see no key (R223). -/
def entryQueries (s : State) (ctx : OpCtx) (g : AttnGeom) (e : LenEntry) : List AttnQuery :=
  let limit := e.slot != 0xFFFF && entryStatus s ctx.op e.slot == 2
  let pages := if e.slot = 0xFFFF then [] else walkerPages s ctx e.slot
  let old := (upFrom 0 e.kvLen).map fun p => (p, KeySrc.cached (nthD 0 pages (p / 256)) (p % 256))
  let new := (upFrom 0 e.qLen).map fun r => (e.kvLen + r, KeySrc.fresh (e.qFirst + r))
  (upFrom 0 e.qLen).map fun r =>
    let pq := e.kvLen + r
    ⟨e.qFirst + r, pq, if limit then [] else (old ++ new).filter fun k => maskHolds g.rule g.window pq k.1⟩

def tableEntries (s : State) (form : AttnForm) : List LenEntry :=
  match form with
  | .packed _ _ => []
  | .table l n _ => (upFrom 0 n).map (lenEntry s l)

def queriesOf (s : State) (ctx : OpCtx) (g : AttnGeom) : List AttnQuery :=
  match g.form with
  | .packed mq mk => packedQueries s g mq mk
  | .table _ _ _ => ((tableEntries s g.form).map (entryQueries s ctx g)).flatten

/-! ## Operand values -/

/-- Element n of head h of a row of Q, o or dO. A row's heads lie one behind another, and so do a head's elements; value h of
a row of the log-sum-exp stream is head h's (DESIGN CHOICE, assumption log 88). -/
def headValue (s : State) (t : Tensor) (heads dim row h n : Nat) : FV := tensorValue s t ((row * heads + h) * dim + n)

/-- Element n of key/value head h of a cached position: of V where `isV`. -/
def cachedValue (s : State) (c : CacheDecl) (layer page off h n : Nat) (isV : Bool) : FV :=
  let f := cacheFmtOf c.fmt
  let b := cacheElemBytes c.fmt
  let e := (off * c.heads + h) * c.dim + n
  let base := frameAddr c layer page
  let code := devNat s (base + (if isV then frameHalf c else 0) + b * e) b
  let x := if c.fmt = .bf16 then 0
    else devNat s (base + 2 * frameHalf c + (if isV then frameExps c else 0) + e / 32) 1
  codeValue f (BitVec.ofNat 8 x) code

def layerOf (form : AttnForm) : Nat :=
  match form with
  | .packed _ _ => 0
  | .table _ _ l => l

def keyValue (s : State) (g : AttnGeom) (isV : Bool) (h n : Nat) (k : KeySrc) : FV :=
  match k with
  | .fresh row => headValue s (if isV then g.v else g.k) g.kvHeads g.dim row h n
  | .cached page off =>
    match cacheOf s with
    | none => FV.zero
    | some c => cachedValue s c (layerOf g.form) page off h n isV

/-- The operation reads keys and values from a BF16 cache. -/
def cacheWide (s : State) (g : AttnGeom) : Bool :=
  match g.form, cacheOf s with
  | .table _ _ _, some c => c.fmt == .bf16
  | _, _ => false

/-- A product of an operand of a format with K, or with V, runs in wide mode when either is BF16 or FP16 (R84). -/
def attnWide (s : State) (g : AttnGeom) (isV : Bool) (f : Fmt) : Bool :=
  !isFp8 f || !isFp8 (if isV then g.v.fmt else g.k.fmt) || cacheWide s g

/-! ## Key blocks (R202, R203) -/

/-- The key blocks of a query that hold a kept key, in increasing order: each by position up to its last kept one. Of
several kept keys at one position the first in the K stream counts (DESIGN CHOICE, assumption log 89). -/
def keyBlocks (keys : List (Nat × KeySrc)) : List (List (Option KeySrc)) :=
  let top := (keys.map fun k => k.1 / 1024).foldl max 0
  (upFrom 0 (top + 1)).filterMap fun j =>
    let mine := keys.filter fun k => k.1 / 1024 == j
    if mine.isEmpty then none
    else
      let last := (mine.map fun k => k.1 % 1024).foldl max 0
      some ((upFrom 0 (last + 1)).map fun i => (mine.find? fun k => k.1 % 1024 == i).map fun k => k.2)

/-- P or dS of a block converted by nearest even, saturating, with computed exponents over groups of 32 key positions;
the exact converted values, and the counts. -/
def convertRow (f : Fmt) (ps : List U32) : List FV × Tally :=
  if isFp8 f then
    let gs := (chunks 32 ps).map fun g =>
      let r := encodeGroup f ⟨.ne, true, .computed⟩ (g.map dec32) (g.map fun _ => 0)
      (r.bytes.map fun b => codeValue f (BitVec.ofNat 8 r.exp) b, (⟨r.sat, r.flush, false⟩ : Tally))
    ((gs.map fun g => g.1).flatten, Tally.sum (gs.map fun g => g.2))
  else
    let cs := ps.map fun p => convert f .ne true 0 (dec32 p)
    (cs.map fun c => decode f c.code, Tally.sum (cs.map tallyOf))

/-- The scores z of a block's kept keys, and whether a product saturated. -/
def scores (s : State) (g : AttnGeom) (scale : U32) (qv : List FV) (hk : Nat) (b : List (Option KeySrc)) :
    List (Option (U32 × Bool)) :=
  b.map fun k => k.map fun src =>
    let (v, sat) := dotN (attnWide s g false g.q.fmt) g.dim qv ((upFrom 0 g.dim).map fun n => keyValue s g false hk n src)
    (mul32 v scale, sat)

/-- Element n of every key of a block, a zero position where none is kept (R204). -/
def blockColumn (s : State) (g : AttnGeom) (isV : Bool) (hk n : Nat) (b : List (Option KeySrc)) : List FV :=
  b.map fun k => (k.map (keyValue s g isV hk n)).getD FV.zero

/-! ## Forward (R202) -/

/-- The running state of a row. -/
structure RowRun where
  m : U32
  l : U32
  o : List U32
  bad : Bool
  tally : Tally
deriving DecidableEq, Repr

/-- One block of attn_row. -/
def rowBlock (s : State) (g : AttnGeom) (scale : U32) (fmtP : Fmt) (qv : List FV) (hk : Nat) (r : RowRun)
    (b : List (Option KeySrc)) : RowRun :=
  if r.bad then r
  else
    let zs := scores s g scale qv hk b
    let zv := zs.map fun z => z.map fun x => x.1
    let zsat := zs.any fun z => (z.map fun x => x.2).getD false
    let mn := max32 r.m ((reduceRow max32 false zv).getD ninf32)
    if (dec32 mn).isNan ∨ dec32 mn = .inf false then { r with bad := true, tally := r.tally.add (Tally.flag zsat) }
    else
      let a := if dec32 r.m = .inf true then zero32 else exp32 (sub32 r.m mn)
      let ps := zv.map fun z => z.map fun x => exp32 (sub32 x mn)
      let (pc, t) := convertRow fmtP (ps.map fun p => p.getD zero32)
      let wide := attnWide s g true fmtP
      let os := (upFrom 0 g.dim).map fun n => dotN wide 1024 pc (blockColumn s g true hk n b)
      ⟨mn, fma32 a r.l (sumRow ps), List.zipWith (fun o d => fma32 a o d.1) r.o os, false,
        (r.tally.add t).add (Tally.flag (zsat || os.any fun d => d.2))⟩

/-- Log-sum-exp of a row's running state (R202). -/
def rowLse (m l : U32) : U32 :=
  match dec32 l with
  | .num false q =>
    if q = 0 then ninf32
    else
      let k := flog2 q
      add32 m (ofRat32 ((k : Rat) * ln2R + rat32 (ln1p32 (ofRat32 (q * pow2 (-k) - 1)))))
  | _ => add32 m l

/-- attn_row: outputs, log-sum-exp and counts of one query row and head. -/
def attnRow (s : State) (g : AttnGeom) (scale : U32) (fmtP : Fmt) (q : AttnQuery) (h : Nat) :
    List U32 × U32 × Tally :=
  let hk := h / (g.heads / max 1 g.kvHeads)
  let qv := (upFrom 0 g.dim).map fun n => headValue s g.q g.heads g.dim q.row h n
  let start : RowRun := ⟨ninf32, zero32, List.replicate g.dim zero32, false, Tally.zero⟩
  let r := (keyBlocks q.keys).foldl (rowBlock s g scale fmtP qv hk) start
  if r.bad then (List.replicate g.dim nan32, nan32, r.tally)
  else if dec32 r.m = .inf true then (List.replicate g.dim zero32, ninf32, r.tally)
  else (r.o.map fun o => div32 o r.l, rowLse r.m r.l, r.tally)

/-- Write `vals` as the elements from `first` on of an output whose rows have `out.t.rowLen` elements; `first` starts a
row. -/
def writeRowAt (out : OutStream) (first : Nat) (vals : List OutVal) (rs : List Nat) (s : State) : Tally × State :=
  let (bs, es, t) := outBytes out.t out.conv vals rs
  let p := tensorPlace out.t first
  (t, locWrite out.t.exps (p / 32) es (locWrite out.t.loc (fmtBytes out.t.fmt * p) bs s))

/-- Draws of an output whose rows of `n` elements are rows `0 … rows − 1`: element i of a row on stream lane i mod 64
(R194); one list for each row. -/
def rowOutDraws (ctx : OpCtx) (conv : Option Conv) (rows n : Nat) (s : State) : List (List Nat) × State :=
  let d := convDraws conv
  let (rs, t) := takeDraws ctx (rowSlots d 0 0 (List.replicate rows n)) s
  ((splitRows d 0 (List.replicate rows n) rs).map fun r => r.elems.map fun e => (nthD 0 e 0).toNat, t)

/-- Write the rows that an operation has results for, each given by its number. -/
def writeRows (op : U32) (out : OutStream) (n : Nat) (draws : List (List Nat)) :
    List (Nat × List U32) → State → State
  | [], s => s
  | (row, vals) :: more, s =>
    let rs := nthD [] draws row
    let (t, u) := writeRowAt out (row * n) (vals.map OutVal.of)
      (((upFrom 0 vals.length).map fun i => nthD 0 rs i)) s
    writeRows op out n draws more (addTally op t u)

def attnEffect (c : AttnCmd) (s : State) : State :=
  let g := geomF c
  let qs := queriesOf s c.ctx g
  let res := (qs.map fun q => (upFrom 0 c.heads).map fun h =>
    (q.row * c.heads + h, attnRow s g c.scale c.fmtP q h)).flatten
  let (ds, t) := rowOutDraws c.ctx c.out.conv (queryRows g * c.heads) c.dim s
  let u := addTally c.ctx.op (Tally.sum (res.map fun r => r.2.2.2)) t
  let v := writeRows c.ctx.op c.out c.dim ds (res.map fun r => (r.1, r.2.1)) u
  match c.lse with
  | none => v
  | some l => res.foldl (fun w r => locWrite l (4 * r.1) (leBytes 4 r.2.2.1.toNat) w) v

/-! ## Backward (R210, R211) -/

/-- One block of attn_row_back for a row: converted dS, converted P, the kept keys, and the counts. -/
structure BackBlock where
  keys : List (Option KeySrc)
  ds : List FV
  p : List FV
  tally : Tally
deriving DecidableEq, Repr

def backBlock (s : State) (c : AttnBackCmd) (qv dOv : List FV) (hk : Nat) (lse dsum : U32)
    (b : List (Option KeySrc)) : BackBlock :=
  let g := geomB c
  let zs := scores s g c.scale qv hk b
  let gs := b.map fun k => k.map fun src =>
    dotN (attnWide s g true c.dO.fmt) g.dim dOv ((upFrom 0 g.dim).map fun n => keyValue s g true hk n src)
  let ps := zs.map fun z => z.map fun x => exp32 (sub32 x.1 lse)
  let dss := List.zipWith (fun (p : Option U32) (x : Option (U32 × Bool)) => match p, x with
    | some p', some x' => mul32 (mul32 p' (sub32 x'.1 dsum)) c.scale
    | _, _ => zero32) ps gs
  let (dc, t1) := convertRow c.fmtS dss
  let (pc, t2) := convertRow c.fmtP (ps.map fun p => p.getD zero32)
  let sat := zs.any (fun z => (z.map fun x => x.2).getD false) || gs.any fun x => (x.map fun y => y.2).getD false
  ⟨b, dc, pc, (t1.add t2).add (Tally.flag sat)⟩

/-- A row and head of the backward operation: its query, dO, log-sum-exp class and blocks. -/
structure BackRow where
  row : Nat
  pos : Nat
  head : Nat
  lse : U32
  blocks : List BackBlock
deriving DecidableEq, Repr

def backRow (s : State) (c : AttnBackCmd) (q : AttnQuery) (h : Nat) : BackRow :=
  let hk := h / (c.heads / max 1 c.kvHeads)
  let vec (t : Tensor) : List FV := (upFrom 0 c.dim).map fun n => headValue s t c.heads c.dim q.row h n
  let lse := BitVec.ofNat 32 (locNat s c.lse (4 * (q.row * c.heads + h)) 4)
  let ws := List.zipWith (fun a b => some (ne32 (FV.mul a b))) (vec c.dO) (vec c.o)
  let run : Bool := match dec32 lse with
    | .num _ _ => true
    | _ => false
  ⟨q.row, q.pos, h, lse,
    if run then (keyBlocks q.keys).map (backBlock s c (vec c.q) (vec c.dO) hk lse (sumRow ws))
    else (keyBlocks q.keys).map fun b => ⟨b, [], [], Tally.zero⟩⟩

/-- The log-sum-exp of a row that gives canonical NaN: NaN or +∞. -/
def lsePoison (lse : U32) : Bool := (dec32 lse).isNan || dec32 lse == .inf false
def lseEmpty (lse : U32) : Bool := dec32 lse == .inf true

/-- dq of a row: the drain adds its blocks as passes in increasing order. -/
def dqRow (s : State) (c : AttnBackCmd) (r : BackRow) : List U32 × Bool :=
  if lseEmpty r.lse then (List.replicate c.dim zero32, false)
  else if lsePoison r.lse then (List.replicate c.dim nan32, false)
  else
    let g := geomB c
    let hk := r.head / (c.heads / max 1 c.kvHeads)
    let wide := attnWide s g false c.fmtS
    let vs := (upFrom 0 c.dim).map fun n =>
      addPasses (r.blocks.map fun b => dotN wide 1024 b.ds (blockColumn s g false hk n b.keys))
    (vs.map fun v => v.1, vs.any fun v => v.2)

/-- Insert a row by head, then position, then row. -/
def insertBack (r : BackRow) : List BackRow → List BackRow
  | [] => [r]
  | x :: xs =>
    if r.head < x.head ∨ (r.head = x.head ∧ (r.pos < x.pos ∨ (r.pos = x.pos ∧ r.row ≤ x.row))) then r :: x :: xs
    else x :: insertBack r xs

/-- The rows that reach a key of the K and V streams through a key/value head, in the order of R211, with their
converted dS and P at it. -/
def reaching (rows : List BackRow) (group hk key : Nat) : List (BackRow × FV × FV) :=
  (rows.filter fun r => r.head / max 1 group == hk && !lseEmpty r.lse).filterMap fun r =>
    (r.blocks.findSome? fun b =>
      ((upFrom 0 b.keys.length).zip b.keys).findSome? fun (i, k) =>
        if k = some (.fresh key) then some (nthD FV.zero b.ds i, nthD FV.zero b.p i) else none).map
      fun p => (r, p.1, p.2)

/-- A gradient row of a key: dK from dS and q, or dV from P and dO. -/
def keyGrad (s : State) (c : AttnBackCmd) (rs : List (BackRow × FV × FV)) (isV : Bool) : List U32 × Bool :=
  if rs.any fun r => lsePoison r.1.lse then (List.replicate c.dim nan32, false)
  else
    let t := if isV then c.dO else c.q
    let wide := !isFp8 t.fmt || !isFp8 (if isV then c.fmtP else c.fmtS)
    let a := rs.map fun r => if isV then r.2.2 else r.2.1
    let vs := (upFrom 0 c.dim).map fun n =>
      dotN wide rs.length a (rs.map fun r => headValue s t c.heads c.dim r.1.row r.1.head n)
    (vs.map fun v => v.1, vs.any fun v => v.2)

/-- Rows of the K and V streams that are keys: all but padding (R206). -/
def liveKeys (s : State) (g : AttnGeom) : List Nat :=
  match g.form with
  | .packed _ mk => (upFrom 0 (keyRows g)).filter fun i => (markAt s mk i).1 != 0xFFFF
  | .table _ _ _ => ((tableEntries s g.form).map fun e => upFrom e.qFirst e.qLen).flatten

/-- The backward operation (R210, R211). Its outputs take their draws one after another: every row of dq, then of dk, then of
dv (DESIGN CHOICE, assumption log 87). -/
def attnBackEffect (c : AttnBackCmd) (s : State) : State :=
  let g := geomB c
  let qs := queriesOf s c.ctx g
  let rows := ((qs.map fun q => (upFrom 0 c.heads).map fun h => backRow s c q h).flatten).foldr insertBack []
  let dqs := rows.map fun r => (r.row * c.heads + r.head, dqRow s c r)
  let group := c.heads / max 1 c.kvHeads
  let reach := ((liveKeys s g).map fun i => (upFrom 0 c.kvHeads).map fun hk =>
    (i * c.kvHeads + hk, reaching rows group hk i)).flatten
  let dks := reach.map fun r => (r.1, keyGrad s c r.2 false)
  let dvs := reach.map fun r => (r.1, keyGrad s c r.2 true)
  let tl := (Tally.sum (rows.map fun r => Tally.sum (r.blocks.map BackBlock.tally))).add
    (Tally.flag ((dqs ++ dks ++ dvs).any fun r => r.2.2))
  let (d1, t1) := rowOutDraws c.ctx c.dq.conv (queryRows g * c.heads) c.dim s
  let (d2, t2) := rowOutDraws c.ctx c.dk.conv (keyRows g * c.kvHeads) c.dim t1
  let (d3, t3) := rowOutDraws c.ctx c.dv.conv (keyRows g * c.kvHeads) c.dim t2
  let u1 := writeRows c.ctx.op c.dq c.dim d1 (dqs.map fun r => (r.1, r.2.1)) (addTally c.ctx.op tl t3)
  let u2 := writeRows c.ctx.op c.dk c.dim d2 (dks.map fun r => (r.1, r.2.1)) u1
  writeRows c.ctx.op c.dv c.dim d3 (dvs.map fun r => (r.1, r.2.1)) u2

/-! ## Checks and commands -/

/-- The places of the operands of fused attention: the core's own scratchpad and local HBM (R127, R201, R208). -/
def attnPlace (core : Core) (l : Loc) : Bool := inScratch core l || l.space == .hbm

/-- A tensor in the core's scratchpad or in HBM, of an attention operand format, grouped along d (R201). -/
def attnTensorFault (s : State) (core : Core) (dim : Nat) (t : Tensor) : Option Nat :=
  firstFault [unless' 201 (trellisFmt t.fmt && (!isFp8 t.fmt || t.rowLen == dim)), tensorFaultIn (attnPlace core) s t]

def probFmt : Fmt → Bool
  | .e4m3 => true
  | .e5m2 => true
  | .bf16 => true
  | .fp16 => false
  | .fp32 => false
  | .int32 => false

/-- The shape rules of R201 and the operands' spans. -/
def geomFault (s : State) (core : Core) (g : AttnGeom) : Option Nat :=
  firstFault [
    unless' 201 (g.dim % 32 == 0 && decide (32 ≤ g.dim) && decide (g.dim ≤ 256)),
    unless' 201 (decide (1 ≤ g.kvHeads) && g.heads % max 1 g.kvHeads == 0 && decide (1 ≤ g.heads / max 1 g.kvHeads) &&
      decide (g.heads / max 1 g.kvHeads ≤ 16)),
    unless' 207 (decide (g.window ≤ 65535) && (match g.rule with
      | .blockCausal f => decide (1 ≤ f) && decide (f ≤ 65535)
      | _ => true)),
    unless' 201 (g.q.n % (g.heads * g.dim) == 0 && g.k.n % (g.kvHeads * g.dim) == 0 && g.k.n == g.v.n),
    attnTensorFault s core g.dim g.q, attnTensorFault s core g.dim g.k, attnTensorFault s core g.dim g.v,
    match g.form with
    | .packed mq mk =>
      firstFault [spanWhere (attnPlace core) s mq (4 * queryRows g), spanWhere (attnPlace core) s mk (4 * keyRows g)]
    | .table l n layer => firstFault [spanWhere (attnPlace core) s l (16 * n), match cacheOf s with
        | none => none
        | some c => unless' 214 (decide (layer < c.layers) && c.heads == g.kvHeads && c.dim == g.dim)]]

def attnOutFault (s : State) (core : Core) (dim n : Nat) (o : OutStream) : Option Nat :=
  firstFault [outStreamFault s core false o, unless' 201 (o.t.n == n && (!isFp8 o.t.fmt || o.t.rowLen == dim))]

/-- An entry names rows outside Q, or outside the fresh K and V where it has work (R137, R208). -/
def rowsOutside (s : State) (ctx : OpCtx) (g : AttnGeom) (e : LenEntry) : Bool :=
  let limit := e.slot != 0xFFFF && entryStatus s ctx.op e.slot == 2
  decide (0 < e.qLen) &&
    (decide (queryRows g < e.qFirst + e.qLen) || (!limit && decide (keyRows g < e.qFirst + e.qLen)))

/-- The entry of a length table that stops the job, with its status. -/
def tableStop (s : State) (ctx : OpCtx) (g : AttnGeom) : Option (U16 × U64) :=
  let es := tableEntries s g.form
  match ((upFrom 0 es.length).zip es).find? fun e => entryBad s ctx.op e.2 with
  | some (i, _) => some (Code.kvTable, BitVec.ofNat 64 i)
  | none =>
    if es.any fun e => entryOutside s ctx e || rowsOutside s ctx g e then
      some (Code.ccAddrRange, coreWhere s ctx.core.val)
    else none

/-- The frames of a page, in the cache layer of an operation, hold a poisoned word. -/
def framePoisoned (s : State) (c : CacheDecl) (layer page : Nat) : Bool := poisoned s (frameAddr c layer page) (frameSize c)

/-- A cached key or value that the operation reads is poisoned (R239). -/
def cachePoisoned (s : State) (ctx : OpCtx) (g : AttnGeom) : Bool :=
  match cacheOf s with
  | none => false
  | some c => (queriesOf s ctx g).any fun q => q.keys.any fun k => match k.2 with
    | .fresh _ => false
    | .cached page _ => framePoisoned s c (layerOf g.form) page

/-- An entry of the length table waits for a publication. -/
def tableWaits (s : State) (ctx : OpCtx) (form : AttnForm) : Bool := (tableEntries s form).any (entryWaits s ctx)

def attnFault (s : State) (c : AttnCmd) : Option Nat :=
  let g := geomF c
  let core := c.ctx.core
  firstFault [geomFault s core g, unless' 203 (probFmt c.fmtP), attnOutFault s core c.dim c.q.n c.out,
    match c.lse with
    | none => none
    | some l => spanWhere (attnPlace core) s l (4 * queryRows g * c.heads)]

def attnBackFault (s : State) (c : AttnBackCmd) : Option Nat :=
  let g := geomB c
  let core := c.ctx.core
  firstFault [geomFault s core g, unless' 203 (probFmt c.fmtP && probFmt c.fmtS),
    unless' 210 (c.o.n == c.q.n && c.dO.n == c.q.n), attnTensorFault s core c.dim c.dO,
    unless' 210 (!isFp8 c.o.fmt || c.o.rowLen == c.dim),
    tensorFaultIn (attnPlace core) s c.o, spanWhere (attnPlace core) s c.lse (4 * queryRows g * c.heads),
    attnOutFault s core c.dim c.q.n c.dq, attnOutFault s core c.dim c.k.n c.dk, attnOutFault s core c.dim c.k.n c.dv]

/-- What an operation reads beside its cache: tensors, and marks or length table. -/
def geomReads (g : AttnGeom) : List SpanUse :=
  tensorUses g.q false ++ tensorUses g.k false ++ tensorUses g.v false ++
    (match g.form with
      | .packed mq mk => [⟨mq, 4 * queryRows g, 0⟩, ⟨mk, 4 * keyRows g, 0⟩]
      | .table l n _ => [⟨l, 16 * n, 0⟩])

/-- The log-sum-exp stream that a forward operation writes, one FP32 value for each row and head. -/
def lseSpan (c : AttnCmd) : List (Loc × Nat) :=
  match c.lse with
  | none => []
  | some l => [(l, 4 * queryRows (geomF c) * c.heads)]

/-- FUSED_ATTENTION. -/
def attnRun (c : AttnCmd) : EngineRun where
  engine := .walker
  ctx := c.ctx
  fault s := attnFault s c
  reads _ := geomReads (geomF c)
  writes _ := tensorSpans c.out.t ++ lseSpan c
  ready s := !tableWaits s c.ctx c.form && !cachePoisoned s c.ctx (geomF c)
  stop s := tableStop s c.ctx (geomF c)
  effect s := attnEffect c s

def execFusedAttention (c : AttnCmd) (s : State) : Host.Outcome State Fault Refusal :=
  runEngine (.fusedAttention c) (attnRun c) s

/-- ATTENTION_BACKWARD. -/
def attnBackRun (c : AttnBackCmd) : EngineRun where
  engine := .walker
  ctx := c.ctx
  fault s := attnBackFault s c
  reads _ := geomReads (geomB c) ++ tensorUses c.o false ++ tensorUses c.dO false ++
    [⟨c.lse, 4 * queryRows (geomB c) * c.heads, 0⟩]
  writes _ := tensorSpans c.dq.t ++ tensorSpans c.dk.t ++ tensorSpans c.dv.t
  ready s := !tableWaits s c.ctx c.form && !cachePoisoned s c.ctx (geomB c)
  stop s := tableStop s c.ctx (geomB c)
  effect s := attnBackEffect c s

def execAttentionBackward (c : AttnBackCmd) (s : State) : Host.Outcome State Fault Refusal :=
  runEngine (.attentionBackward c) (attnBackRun c) s

end Sys2Proof.Machine
end

