-- ==== Sys2Proof/Machine/Flash.lean ====
section
/-! DEFINITION. Flash copies (R382 to R385, R406, R407), the configuration and site records (R386 to R388), and the
choice of the copy in use. -/

namespace Sys2Proof.Machine

/-! ## Records -/

def cfgCapW (c : BitVec 512) : Nat := field c 143 128
def cfgLockEntropy (c : BitVec 512) : Bool := bitAt c 113
def cfgLockUnordered (c : BitVec 512) : Bool := bitAt c 112
def cfgRecoveryWait (c : BitVec 512) : Nat := field c 159 144
def cfgCutoff (c : BitVec 512) : Nat := field c 191 160
def cfgRotation (c : BitVec 512) : Nat := field c 223 192

/-- The checks of R387. -/
def configOk (c : BitVec 512) : Bool :=
  field c 31 0 == 0x47464E43 && decide (800 ≤ cfgCapW c) && decide (cfgCapW c ≤ 3000) &&
    decide (field c 127 120 ≤ 64) && decide (1 ≤ cfgCutoff c) && decide (cfgCutoff c ≤ 1000000) &&
    decide (cfgRecoveryWait c ≤ 3600) && field c 111 32 == 0 && field c 119 114 == 0 && field c 511 224 == 0

/-- The checks of R388. -/
def siteOk (r : BitVec 4096) : Bool :=
  field r 31 0 == 0x45544953 && decide (field r 95 88 ≤ 8) && decide (siteX r < siteExtX r) &&
    decide (siteY r < siteExtY r) && decide (siteZ r < siteExtZ r) && field r 79 78 == 0 &&
    field r 159 144 == 0 && field r 511 256 == 0

def siteBytes (r : BitVec 4096) : List Byte := leBytes 512 r.toNat

/-! ## Owner slots (R399, R401) -/

def slotOf (f : Fuses) (i : Nat) : OwnerSlot :=
  match i with
  | 0 => f.slot0
  | 1 => f.slot1
  | 2 => f.slot2
  | _ => f.slot3

def setSlot (i : Nat) (g : OwnerSlot → OwnerSlot) (f : Fuses) : Fuses :=
  match i with
  | 0 => { f with slot0 := g f.slot0 }
  | 1 => { f with slot1 := g f.slot1 }
  | 2 => { f with slot2 := g f.slot2 }
  | _ => { f with slot3 := g f.slot3 }

def OwnerSlot.active (o : OwnerSlot) : Bool := o.valid && !o.revoked
def OwnerSlot.unused (o : OwnerSlot) : Bool := !o.touched && !o.valid && !o.revoked

/-- The active slot's number. -/
def activeSlot (f : Fuses) : Option Nat := (upFrom 0 4).find? fun i => (slotOf f i).active

/-- The lowest unused slot. -/
def unusedSlot (f : Fuses) : Option Nat := (upFrom 0 4).find? fun i => (slotOf f i).unused

/-- The key that the fuses name for flash copies in the present life-cycle state (R401). -/
def flashKey (f : Fuses) : Option (BitVec 512) :=
  match f.lifecycle with
  | .blank => some f.romKey
  | .manufactured => some f.romKey
  | .returned => some f.romKey
  | .provisioned => (activeSlot f).map fun i => (slotOf f i).ownerKey
  | .deployed => (activeSlot f).map fun i => (slotOf f i).ownerKey

/-- The identity key of the active slot (R400). -/
def deriveIdentity (f : Fuses) : Option (Nat × BitVec 512) :=
  (activeSlot f).bind fun i => identityKey f.deviceSecret (slotOf f i).seed

/-! ## Copies (R382, R383) -/

/-- A copy: its 256 B header, and the store and place that hold its bytes. -/
structure Copy where
  header : BitVec 2048
  store : Mem
  fill : Byte
  base : Nat
deriving DecidableEq, Repr

/-- Bytes of a copy, by offset and length. -/
def Copy.read (c : Copy) (o n : Nat) : List Byte := Mem.read c.fill c.store (c.base + o) n

def Copy.magicOk (c : Copy) : Bool := field c.header 31 0 == 0x4C525753
def Copy.seq (c : Copy) : Nat := field c.header 63 32
def Copy.length (c : Copy) : Nat := field c.header 95 64
def Copy.offset (c : Copy) (i : Nat) : Nat := field c.header (159 + 64 * i) (128 + 64 * i)
def Copy.size (c : Copy) (i : Nat) : Nat := field c.header (191 + 64 * i) (160 + 64 * i)
def Copy.section (c : Copy) (i : Nat) : List Byte := c.read (c.offset i) (c.size i)
def Copy.config (c : Copy) : BitVec 512 := BitVec.ofNat 512 (ofLe (c.read (c.offset 2) 64))
def Copy.site (c : Copy) : BitVec 4096 := BitVec.ofNat 4096 (ofLe (c.read (c.offset 3) 512))

/-- The length and the sections obey R382: at most 24 MiB, 4 KiB boundaries, in order, no overlap, the two records
whole, and the end marker in the last 32 B. -/
def Copy.layoutOk (c : Copy) : Bool :=
  decide (c.length ≤ 25165824) &&
    ((upFrom 0 4).all fun i => c.offset i % 4096 == 0 && decide (256 ≤ c.offset i) &&
      decide (c.offset i + c.size i + 32 ≤ c.length)) &&
    ((upFrom 0 3).all fun i => decide (c.offset i + c.size i ≤ c.offset (i + 1))) &&
    c.size 2 == 64 && c.size 3 == 512

/-- The end marker is present and repeats the header's seq. -/
def Copy.endOk (c : Copy) : Bool :=
  let m := ofLe (c.read (c.length - 32) 8)
  m % 2 ^ 32 == 0x444E4521 && m / 2 ^ 32 == c.seq

/-- The digest matches. -/
def Copy.digestOk (c : Copy) : Bool :=
  sha256 (c.read 256 (c.length - 256)) == digestOfField (field c.header 767 512)

/-- The header signature verifies under a key. -/
def Copy.signedBy (c : Copy) (key : BitVec 512) : Bool :=
  ecdsaVerify key (c.read 0 96) (BitVec.ofNat 512 (ofBe (leBytes 64 (field c.header 1279 768))))

/-- Every reserved field of the header and of the end marker is zero (R13, R382). -/
def Copy.reservedZero (c : Copy) : Bool :=
  field c.header 127 96 == 0 && field c.header 511 384 == 0 && field c.header 2047 1280 == 0 &&
    ofLe (c.read (c.length - 24) 24) == 0

/-- A valid copy (R383), verified by the key in force. -/
def Copy.valid (c : Copy) (key : Option (BitVec 512)) : Bool :=
  c.magicOk && c.layoutOk && c.endOk && c.digestOk &&
    (match key with
      | none => false
      | some k => c.signedBy k) &&
    configOk c.config && siteOk c.site

/-- The copy in flash A (false) or B (true). -/
def flashCopy (fl : Flash) (b : Bool) : Copy :=
  let base := if b then 2 ^ 26 else 0
  ⟨BitVec.ofNat 2048 (ofLe (Mem.read 0xFF fl.bytes base 256)), fl.bytes, 0xFF, base⟩

/-- A copy staged in device memory. -/
def stagedCopy (s : State) (a : Nat) : Copy :=
  ⟨BitVec.ofNat 2048 (devNat s a 256), s.hbm.dev, 0, a⟩

/-- Serial-number arithmetic: a is higher than b (R384). -/
def seqHigher (a b : Nat) : Bool :=
  let d := (a + 2 ^ 32 - b % 2 ^ 32) % 2 ^ 32
  decide (1 ≤ d) && decide (d ≤ 2 ^ 31 - 1)

/-- The order in which the copies are checked (R384). -/
def checkOrder (a b : Copy) : List Bool :=
  if a.magicOk && b.magicOk then (if seqHigher b.seq a.seq then [true, false] else [false, true])
  else if b.magicOk then [true, false]
  else [false, true]

/-- The first valid copy (R384). -/
def chooseCopy (fl : Flash) : Option Bool :=
  (checkOrder (flashCopy fl false) (flashCopy fl true)).find? fun b => (flashCopy fl b).valid fl.key

/-- A power-on or a warm reset takes the verification key that the fuses now name; a transition between resets leaves
the key in force (R404). -/
def latchKey (s : State) : State := { s with flash := { s.flash with key := flashKey s.fuses } }

/-! ## The Flash phase -/

/-- A chosen copy comes into use, in BOOT, or in LINK_PCIE where the link came up so (R360): measurements (R407), the configuration record, and the site record or, where the same
copy is chosen again after a reset that keeps HBM, the last accepted amendment (R394). -/
def useCopy (b : Bool) (s : State) : State :=
  let c := flashCopy s.flash b
  let rec' := BitVec.ofNat 32 c.seq
  let site :=
    match s.hbm.amendment with
    | some (r, b', q) => if b' = b ∧ q = rec' then some r else none
    | none => none
  let inForce := site.getD c.site
  { s with
    flash := { s.flash with
      inUse := some b
      seq := rec'
      measFirmware := sha256 (c.section 0)
      measRuntime := sha256 (c.section 1)
      measConfig := sha256 (c.section 2)
      measSite := match site with
        | some r => sha256 (siteBytes r)
        | none => sha256 (c.section 3) }
    config := c.config
    site := inForce
    siteAlive := BitVec.ofNat 8 (field inForce 71 64)
    controllers := { s.controllers with firmware := true }
    mgt := { s.mgt with state := if s.mgt.state = .linkPcie then .linkPcie else .boot }
    power := { s.power with phase := .flash } }

/-- No valid copy: RECOVERY (R392), which a module in LINK_PCIE does not show (R360). Rails are raised at their start
voltages and HBM is trained with H = 64. -/
def enterRecovery (start : List Nat) (s : State) : State :=
  { s with
    flash := { s.flash with
      inUse := none, seq := 0, measFirmware := 0, measRuntime := 0, measConfig := 0, measSite := 0 }
    config := setField s.config 127 120 64
    controllers := { s.controllers with firmware := false }
    mgt := { s.mgt with state := if s.mgt.state = .linkPcie then .linkPcie else .recovery }
    power := { s.power with phase := .rom, rails := true, volts := start }
    hbm := { s.hbm with serving := true, selfRefresh := false } }

/-- The start voltages of the 24 domains, in mV (R413). -/
def startVolts : List Nat := List.replicate 18 700 ++ [750, 750, 1200, 750, 700, 800]

/-- The Flash phase (R384, R390, R392). -/
def flashPhase (s : State) : State :=
  match chooseCopy s.flash with
  | some b => useCopy b s
  | none => enterRecovery startVolts s

end Sys2Proof.Machine
end

