-- ==== Sys2Proof/Machine/HostMem.lean ====
section
/-! DEFINITION. Device memory as the host reaches it (R233, R367 to R370), the host link (R360), and telemetry (R375,
R419). -/

namespace Sys2Proof.Machine

/-! ## Job-owned ranges (R368) -/

/-- The extent of the dictionary image (R341), from its header in device memory. -/
def dictExtent (s : State) (a : Nat) : Nat := 64 + 5 * devNat s (a + 4) 4 + devNat s (a + 12) 4

/-- A channel entry's path (R334): 0 off, 1 pixel, 2 text, 3 refused. -/
def chanPath (c : BitVec 1024) : Nat := field c 305 304
def chanActive (c : BitVec 1024) : Bool := chanPath c != 0
def chanText (c : BitVec 1024) : Bool := chanPath c == 2

/-- A job that uses a dictionary image: a text channel is active or flag [5] is set (R372). -/
def usesDict (j : Job) : Bool := Desc.textPresent j.desc || j.channels.any chanText

/-- STATE, STEP and BATCH ranges (R240). -/
def jobRanges (j : Job) : List Range := j.image.stateRanges ++ j.image.stepRanges ++ j.image.batchRanges

/-- The program image and, where the job uses one, the dictionary image (R368). -/
def jobImages (s : State) (j : Job) : List Range :=
  ⟨Desc.imageAddr j.desc, Desc.imageLen j.desc⟩ ::
    (if usesDict j then [⟨Desc.dictAddr j.desc, dictExtent s (Desc.dictAddr j.desc)⟩] else [])

/-- Every job-owned range of a job (R368). -/
def jobOwned (s : State) (j : Job) : List Range := jobRanges j ++ jobImages s j ++ j.image.heldWritten

/-- Bytes in host-free memory: device bytes that no job owns and no host admission table holds (R368). -/
def hostFree (s : State) (a n : Nat) : Bool :=
  decide (a + n ≤ devTop) &&
    match s.job with
    | none => true
    | some j => !((jobOwned s j ++ j.image.admissionTables).any fun r => overlaps r a n)

/-! ## CXL.mem (R367, R368) -/

/-- Device memory answers on the link: it is trained as CXL, and the stacks are in service. -/
def memUp (s : State) : Bool := s.link.trained && s.link.cxl && s.hbm.serving

/-- Write the bytes of `bs` whose address no range of `rs` holds. -/
def writeOutside (rs : List Range) : Nat → List Byte → State → State
  | _, [], s => s
  | a, b :: bs, s => writeOutside rs (a + 1) bs (if inRanges rs a then s else devWrite a [b] s)

/-- Words that the host writes whole outside the job-owned ranges lose their poison marks (R239). -/
def clearOutside (rs : List Range) (a n : Nat) (s : State) : State :=
  { s with hbm := { s.hbm with poison := s.hbm.poison.filter fun e =>
      !(decide (a ≤ 32 * e.1) && decide (32 * e.1 + 32 ≤ a + n)) || rs.any fun r => overlaps r (32 * e.1) 32 } }

/-- CXL_MEM_WRITE: a byte in a job-owned range is discarded, which adds one to the host-writes count and posts a
HOST_WRITE event with the write's device address; every other byte is written. -/
def execCxlMemWrite (addr : Nat) (data : List Byte) (s : State) : Host.Outcome State Fault Refusal :=
  if ¬ memUp s then .next s
  else if devTop < addr + data.length ∨ s.link.decoder < addr + data.length then .fault .outsideDevice
  else
    match s.job with
    | none => .next (devWrite addr data s)
    | some j =>
      let rs := jobOwned s j
      if rs.any fun r => overlaps r addr data.length then
        .next (postEvent Code.hostWrite noOp 0 (BitVec.ofNat 64 addr)
          (withCounts (fun c => { c with writesDiscarded := satInc c.writesDiscarded 1 })
            (clearOutside rs addr data.length (writeOutside rs addr data s))))
      else .next (devWrite addr data s)

/-- The slot records of the job's cache (R216). -/
def slotRecords (img : Image) : List Range :=
  match img.cache with
  | none => []
  | some c => [⟨c.slotBase, 8256 * c.slots⟩]

/-- Whether a read of a device byte has a specified value (R55, R368): outside a job and at a cut point every byte
does; otherwise a byte of a STATE, STEP or BATCH range does not, and a written HELD byte does only in a slot
record. -/
def readSpecified (s : State) (a : Nat) : Bool :=
  match s.job with
  | none => true
  | some j =>
    if j.phase = .held then true
    else !inRanges (jobRanges j) a && (!inRanges j.image.heldWritten a || inRanges (slotRecords j.image) a)

/-- The byte a read returns: a free value where it is not specified, or where its word is poisoned (R239). -/
def readByte (s : State) (k a : Nat) : Byte :=
  if readSpecified s a && !SMap.get false s.hbm.poison (a / 32) then Mem.get 0 s.hbm.dev a
  else Config.unspecifiedByte k a

/-- CXL_MEM_READ: the bytes of the mapped device addresses. -/
def execCxlMemRead (addr len : Nat) (s : State) : Host.Outcome State Fault Refusal :=
  if ¬ memUp s then .next s
  else if devTop < addr + len ∨ s.link.decoder < addr + len then .fault .outsideDevice
  else
    let (k, t) := takeFree s
    .next { t with link := { t.link with readData := (upFrom addr len).map (readByte s k) } }

/-! ## The link and telemetry -/

/-- CXL_LINK_TRAINED (R360, R390): training ends once PERST# is released and ROM has brought up the PHY; without CXL
the module is in LINK_PCIE and never becomes ready. -/
def execCxlLinkTrained (cxl : Bool) (width : LinkWidth) (rate : LinkRate) (s : State) :
    Host.Outcome State Fault Refusal :=
  if s.link.perstLow ∨ ¬ s.controllers.romDone ∨ ¬ s.time.running then .next s
  else
    let t := { s with link := { s.link with trained := true, cxl := cxl, width := width, rate := rate } }
    .next (if cxl then t else { t with mgt := { t.mgt with state := .linkPcie } })

/-- STATUS_RECORD_TELEMETRY (R375): the record is written with the present telemetry. -/
def execStatusRecordTelemetry (t : Telemetry) (s : State) : Host.Outcome State Fault Refusal :=
  .next (withStatus (fun r => { r with telemetry := t }) s)

/-- TELEMETRY_REFRESH (R419): MGT_TEMP and MGT_POWER take the present values. -/
def execTelemetryRefresh (junction stack powerW volt10mV : U16) (s : State) : Host.Outcome State Fault Refusal :=
  .next { s with mgt := { s.mgt with temp := stack ++ junction, power := volt10mV ++ powerW } }

end Sys2Proof.Machine
end

