-- ==== Sys2Proof/Machine/Command.lean ====
section
/-! DEFINITION. The management commands (R380, R381) and the bank load's identity barrier (R145). -/

namespace Sys2Proof.Machine

/-! ## Acceptance (R380, R381) -/

/-- What becomes of a write to MGT_CMD before the command's own checks. -/
inductive Entry where
  | ignored
  | refuse (code : U16)
  | held
  | go
deriving DecidableEq, Repr

/-- A write to MGT_CMD is ignored before the window answers, in LINK_PCIE, and while a command is busy (R360, R381). -/
def cmdIgnored (s : State) : Bool :=
  !s.controllers.romDone || decide (s.mgt.state = .linkPcie) || decide (s.mgt.cmdState = .busy)

/-- Acceptance by MGT_STATE (R380): what the command is in BOOT once the firmware runs, whether RECOVERY accepts it,
and what it is during a job. -/
def entry (inBoot : Entry) (inRecovery : Bool) (inJob : Entry) (s : State) : Entry :=
  if cmdIgnored s then .ignored
  else
    match s.mgt.state with
    | .boot => if s.controllers.firmware then inBoot else .refuse Code.mgtBusy
    | .recovery => if inRecovery then .go else .refuse Code.mgtBusy
    | .linkPcie => .ignored
    | .ready => .go
    | .running => inJob
    | .held => inJob
    | .halted => inJob

/-- Run a command by its entry: `bad` answers a refusal, `held` a held sweep, `go` the command itself. -/
def runEntry (cmd : Byte) (e : Entry) (bad : U16 → State → State) (go : State → State) (s : State) : State :=
  match e with
  | .ignored => s
  | .refuse c => finishCmd cmd .refused c (bad c s)
  | .held =>
    finishCmd cmd .done Code.mgtSweepHeld { s with selfTest := { s.selfTest with sweepHeld := true } }
  | .go => go s

/-- A refusal of most commands changes no state of their own (R8). -/
def noChange (_ : U16) (s : State) : State := s

def refuse (cmd : Byte) (code : U16) (s : State) : State := finishCmd cmd .refused code s
def succeed (cmd : Byte) (s : State) : State := finishCmd cmd .done Code.mgtOk s

/-- MGT_CMD_REJECTED (R380): non-zero bits [31:8] or an unknown code. -/
def execMgtCmdRejected (val : U32) (s : State) : Host.Outcome State Fault Refusal :=
  if cmdIgnored s then .next s
  else if 1 ≤ val.toNat ∧ val.toNat ≤ 7 then .next s
  else .next (refuse (BitVec.ofNat 8 val.toNat) Code.mgtBadArg s)

/-! ## FLASH_PROGRAM (R385) -/

/-- Write a copy into a flash device: its extent is erased, then bytes 256 to length − 1, then the header. A reset
that strikes after `n` bytes written leaves the rest erased. -/
def programFlash (b : Bool) (bytes : List Byte) (cut : Option Nat) (s : State) : State :=
  let base := if b then 2 ^ 26 else 0
  let body := bytes.drop 256
  let n := cut.getD bytes.length
  let m1 := Mem.clear s.flash.bytes base bytes.length
  let m2 := Mem.write 0xFF m1 (base + 256) (body.take n)
  let m3 := Mem.write 0xFF m2 base ((bytes.take 256).take (n - body.length))
  { s with flash := { s.flash with bytes := m3 } }

/-- FLASH_PROGRAM. In RECOVERY it writes flash A without the seq check, and the sequence resumes at the Flash phase
(R392). -/
def flashProgram (cut : Option Nat) (s : State) : State :=
  let a := s.mgt.arg0.toNat
  let n := s.mgt.arg1.toNat
  let c := stagedCopy s a
  let recovery := decide (s.mgt.state = .recovery)
  if a + n ≤ devTop ∧ c.length = n ∧ c.valid s.flash.key ∧ c.reservedZero ∧
      (recovery ∨ seqHigher c.seq s.flash.seq.toNat) then
    let target := if recovery then false else !(s.flash.inUse.getD true)
    let t := programFlash target (devRead s a n) cut s
    match cut with
    | some _ => busyCmd 1 t
    | none =>
      let u := succeed 1 t
      if recovery then flashPhase u else u
  else refuse 1 Code.mgtBadArg s

def execFlashProgram (cut : Option Nat) (s : State) : Host.Outcome State Fault Refusal :=
  .next (runEntry 1 (entry .go true (.refuse Code.mgtBusyJob) s) noChange (flashProgram cut) s)

/-! ## ATTEST (R408) -/

/-- flash_in_use: 0 flash A, 1 flash B, 0xFF in RECOVERY. -/
def flashCode : Option Bool → Byte
  | none => 0xFF
  | some false => 0
  | some true => 1

/-- Bytes 0 to 383 of the report. -/
def reportBody (s : State) (nonce : List Byte) : List Byte :=
  let slot := activeSlot s.fuses
  leBytes 4 0x54545341 ++ leBytes 2 1 ++ [BitVec.ofNat 8 s.fuses.lifecycle.code] ++
    [BitVec.ofNat 8 (slot.getD 0xFF)] ++ leBytes 8 s.fuses.deviceId.toNat ++ leBytes 4 s.flash.seq.toNat ++
    [flashCode s.flash.inUse] ++ List.replicate 11 0 ++ nonce ++
    beBytes 32 s.flash.measFirmware.toNat ++ beBytes 32 s.flash.measRuntime.toNat ++
    beBytes 32 s.flash.measConfig.toNat ++ beBytes 32 s.flash.measSite.toNat ++
    beBytes 64 (ownKey s).toNat ++
    (match slot with
      | none => List.replicate 32 0
      | some i => beBytes 32 (keyDigest (slotOf s.fuses i).ownerKey).toNat) ++
    beBytes 32 s.fuses.vendorRootHash.toNat ++ List.replicate 64 0

/-- ATTEST: the nonce at ARG0 is copied into a report at ARG0 + 256, signed by the identity key or unsigned. -/
def attest (s : State) : State :=
  let a := s.mgt.arg0.toNat
  if a % 64 = 0 ∧ hostFree s a 768 then
    let body := reportBody s (devRead s a 32)
    match s.controllers.identity with
    | none => succeed 2 (devWrite (a + 256) (body ++ List.replicate 128 0) s)
    | some (d, _) =>
      let (k, t) := takeFree s
      let sig := Config.ecdsaSign k d (sha256 body)
      succeed 2 (devWrite (a + 256) (body ++ beBytes 64 sig.toNat ++ List.replicate 64 0) t)
  else refuse 2 Code.mgtBadArg s

def execAttest (s : State) : Host.Outcome State Fault Refusal :=
  .next (runEntry 2 (entry .go true .go s) noChange attest s)

/-! ## HEALTH_SWEEP (R430) -/

/-- A sweep that starts at once; a reset that cuts it short leaves the command busy. -/
def healthSweep (f : SweepFindings) (s : State) : State :=
  if s.fuses.lifecycle = .blank then refuse 3 Code.mgtBadArg s
  else if s.selfTest.sweepHeld then finishCmd 3 .done Code.mgtSweepHeld s
  else
    match f.cut with
    | some c => sweepCut f c (busyCmd 3 s)
    | none => succeed 3 (sweepParts f s)

def execHealthSweep (f : SweepFindings) (s : State) : Host.Outcome State Fault Refusal :=
  let blank := decide (s.fuses.lifecycle = .blank)
  .next (runEntry 3 (entry (if blank then .refuse Code.mgtBadArg else .held) false
    (if blank then .refuse Code.mgtBadArg else .held) s) noChange (healthSweep f) s)

/-! ## SITE_AMEND (R389) -/

/-- An amendment refused, whatever its status, adds one to the amendments-refused count. -/
def amendRefused (_ : U16) (s : State) : State :=
  withStatus (fun r => { r with counts := { r.counts with amendmentsRefused := satInc r.counts.amendmentsRefused 1 } }) s

/-- The covered bytes of an amendment: all but bytes 4 to 7 (R356). -/
def amendCovered (bs : List Byte) : List Byte := bs.take 4 ++ bs.drop 8

/-- An amendment that changes form, X, Y, Z, x, y or z (R389). -/
def movesModule (old new : BitVec 4096) : Bool :=
  field old 87 80 != field new 87 80 || field old 143 96 != field new 143 96

/-- The first check of R389 that an amendment fails. -/
def amendFault (s : State) (r : BitVec 4096) : Option U16 :=
  if s.mgt.arg1 ≠ 512 ∨ devTop < s.mgt.arg0.toNat + 512 then some Code.mgtBadArg
  else if guardedValue (amendCovered (siteBytes r)) 0x41 (BitVec.ofNat 8 (field r 71 64)) ≠
      BitVec.ofNat 32 (field r 63 32) then some Code.cvCheck
  else if BitVec.ofNat 8 (field r 71 64) ≠ s.siteAlive + 1 then some Code.cvAlive
  else if ¬ siteOk r then some Code.mgtBadArg
  else if s.job ≠ none ∧ movesModule s.site r then some Code.mgtBadArg
  else none

/-- The ports whose neighbour or connected entry differs between two records. -/
def changedPorts (old new : BitVec 4096) : List Nat :=
  (upFrom 0 6).filter fun p =>
    siteConnected old p != siteConnected new p || siteNeighbour old p != siteNeighbour new p

/-- An accepted amendment takes effect whole: it is written to the repair reserve, becomes the record in force, is
measured (R407), and the ports whose entries changed start bring-up or go dark. -/
def applyAmendment (r : BitVec 4096) (s : State) : State :=
  let t := { s with
    site := r
    siteAlive := BitVec.ofNat 8 (field r 71 64)
    hbm := { s.hbm with amendment := some (r, s.flash.inUse.getD false, s.flash.seq) }
    flash := { s.flash with measSite := sha256 (siteBytes r) } }
  (changedPorts s.site r).foldl (fun u p => restartPort p u) t

def siteAmend (s : State) : State :=
  let r := BitVec.ofNat 4096 (devNat s s.mgt.arg0.toNat 512)
  match amendFault s r with
  | some c => refuse 4 c (amendRefused c s)
  | none => succeed 4 (applyAmendment r s)

def execSiteAmend (s : State) : Host.Outcome State Fault Refusal :=
  .next (runEntry 4 (entry .go false .go s) amendRefused siteAmend s)

/-! ## JOB_ABORT (R374) -/

/-- The end status of a job that the host aborts: the halt status, CUT_REACHED at a cut point, JOB_ABORTED otherwise. -/
def abortStatus (j : Job) : U16 :=
  match j.phase with
  | .halted => j.stop
  | .held => Code.cutReached
  | _ => Code.jobAborted

def jobAbort (s : State) : State :=
  match s.job with
  | none => refuse 5 Code.mgtNoJob s
  | some j =>
    if s.mgt.arg0 = Desc.jobId j.desc then
      succeed 5 (concludeJob (abortStatus j) (emit (.send .abortJob) s))
    else refuse 5 Code.mgtNoJob s

def execJobAbort (s : State) : Host.Outcome State Fault Refusal :=
  .next (runEntry 5 (entry (.refuse Code.mgtNoJob) false .go s) noChange jobAbort s)

/-! ## BANK_LOAD and its barrier (R144, R145) -/

def bankOf (b : Banks) (one : Bool) : Bank := if one then b.bank1 else b.bank0

/-- The local checks of a bank load. -/
def bankFault (s : State) (one : Bool) (partBytes : List Nat) : Option U16 :=
  if one = s.banks.active then some Code.ccBankActive
  else if (bankOf s.banks one).refs ≠ [] then some Code.ccBankBusy
  else if partBytes.any fun n => decide (65536 < n) then some Code.ccImageSize
  else none

/-- BANK_LOAD: the local checks and the image's identity, and entry into the rink's identity barrier; the command
stays busy until the outcome. -/
def bankLoad (partBytes : List Nat) (s : State) : State :=
  let a := s.mgt.arg0.toNat
  let n := s.mgt.arg1.toNat
  if devTop < a + n ∨ n = 0 ∨ 1 < s.mgt.arg2.toNat then refuse 6 Code.mgtBadArg s
  else
    let one := s.mgt.arg2 == 1
    let id := sha256 (devRead s a n)
    let bad := bankFault s one partBytes
    emit (.send (.bankLoad bad.isSome one id))
      (busyCmd 6 { s with banks := { s.banks with waiting := some (one, id, a, n, bad) } })

def execBankLoad (partBytes : List Nat) (s : State) : Host.Outcome State Fault Refusal :=
  .next (runEntry 6 (entry (.refuse Code.mgtBusy) false .go s) noChange (bankLoad partBytes) s)

/-- Put an image into a bank of every logical core. -/
def fillBank (one : Bool) (id : Digest) (a n : Nat) (b : Banks) : Banks :=
  let bank : Bank := ⟨some id, a, n, []⟩
  if one then { b with bank1 := bank } else { b with bank0 := bank }

/-- The identity barrier's outcome reaches this module: a pass copies the image and makes it pending; a fail changes no
byte of any bank, and the load is refused with the module's own status or PROG_IMAGE_MISMATCH. -/
def barrierOutcome (pass : Bool) (s : State) : State :=
  match s.banks.waiting with
  | none => s
  | some (one, id, a, n, bad) =>
    let t := { s with banks := { s.banks with waiting := none } }
    match bad with
    | some c => refuse 6 c t
    | none =>
      if pass then
        succeed 6 { t with banks := { fillBank one id a n t.banks with pending := true } }
      else refuse 6 Code.progImageMismatch t

/-- What this module has carried into the barrier. -/
def ownEntry : Bool × Digest × Nat × Nat × Option U16 → BankEntry
  | (one, id, _, _, none) => .ready one id
  | (_, _, _, _, some _) => .refusal

/-- The outcome of the entries of every module: a pass where none is a refusal and all name one bank and one identity. -/
def bankPass (mine : BankEntry) (others : List BankEntry) : Bool := mine != .refusal && others.all fun e => e == mine

/-- The marshal, the barrier's root, floods the outcome, and it reaches the marshal too. -/
def releaseBanks (pass : Bool) (s : State) : State := barrierOutcome pass (emit (.send (.identityRelease pass)) s)

/-- IDENTITY_BARRIER_RELEASE (R145): the marshal, once it has entered and every other module has, decides and floods the
outcome; every other module takes the outcome that reaches it. -/
def execIdentityBarrierRelease (b : BankBarrierIn) (s : State) : Host.Outcome State Fault Refusal :=
  match s.banks.waiting, b with
  | some w, .entries others =>
    if s.recovery.marshal ∧ others.length + 1 = s.rinkSize then .next (releaseBanks (bankPass (ownEntry w) others) s)
    else .next s
  | some _, .outcome pass => if s.recovery.marshal then .next s else .next (barrierOutcome pass s)
  | none, _ => .next s

/-- IDENTITY_BARRIER_TIMEOUT (R145): not every module has entered within 1 s of the first entry; the marshal floods a
fail. -/
def execIdentityBarrierTimeout (s : State) : Host.Outcome State Fault Refusal :=
  if s.recovery.marshal then .next (releaseBanks false s) else .next (barrierOutcome false s)

/-! ## LIFECYCLE (R402 to R404) -/

def Lifecycle.ofCode : Nat → Option Lifecycle
  | 0 => some .blank
  | 1 => some .manufactured
  | 2 => some .provisioned
  | 3 => some .deployed
  | 4 => some .returned
  | _ => none

/-- Who may sign an edge (vendor, owner); none where there is no such edge (R402). -/
def edgeSigners : Lifecycle → Lifecycle → Option (Bool × Bool)
  | .blank, .manufactured => some (true, false)
  | .manufactured, .provisioned => some (true, false)
  | .provisioned, .deployed => some (false, true)
  | .provisioned, .returned => some (true, true)
  | .deployed, .returned => some (true, true)
  | .returned, .provisioned => some (true, false)
  | _, _ => none

/-- The slot that an edge fills or revokes; `none` where it does neither. -/
def edgeSlot (f : Fuses) (dst : Lifecycle) : Option (Option Nat) :=
  match dst with
  | .provisioned => some (unusedSlot f)
  | .returned => some (activeSlot f)
  | _ => none

def tokenKey (t : BitVec 2048) : BitVec 512 := BitVec.ofNat 512 (ofBe (leBytes 64 (field t 639 128)))
def tokenSig (t : BitVec 2048) : BitVec 512 := BitVec.ofNat 512 (ofBe (leBytes 64 (field t 1535 1024)))

/-- The edge of a token that passes every check of R403. -/
def tokenEdge (s : State) (t : BitVec 2048) : Option Lifecycle :=
  match Lifecycle.ofCode (field t 39 32), Lifecycle.ofCode (field t 47 40) with
  | some fr, some dst =>
    match edgeSigners fr dst with
    | none => none
    | some (vendor, owner) =>
      let signer := field t 63 56
      let key : Option (BitVec 512) :=
        if signer = 0 ∧ vendor then some s.fuses.romKey
        else if signer = 1 ∧ owner then (activeSlot s.fuses).map fun i => (slotOf s.fuses i).ownerKey
        else none
      let slotOk : Bool :=
        match edgeSlot s.fuses dst with
        | none => true
        | some none => false
        | some (some i) => field t 55 48 == i
      match key with
      | none => none
      | some k =>
        if field t 31 0 = 0x4B4F544C ∧ field t 1023 640 = 0 ∧ field t 2047 1536 = 0 ∧
            BitVec.ofNat 64 (field t 127 64) = s.fuses.deviceId ∧ fr = s.fuses.lifecycle ∧ slotOk ∧
            (tokenKey t ≠ 0 ↔ dst = .provisioned) ∧ ecdsaVerify k (leBytes 128 t.toNat) (tokenSig t) then some dst
        else none
  | _, _ => none

def withFuses (g : Fuses → Fuses) (s : State) : State := { s with fuses := g s.fuses }

/-- HBM is zeroed, all 72 GiB of every stack, reserves included (R404). -/
def zeroHbm (s : State) : State :=
  { s with hbm := { s.hbm with
      dev := []
      tandem := []
      saveArea := []
      stamps := []
      tandemStamps := []
      commitWord := 0
      poison := []
      tandemPoison := []
      repairPoison := []
      remapped := []
      saves := []
      savePoison := []
      amendment := none
      coreMap := s.hbm.coreMap.map fun _ => ⟨0, 0, 0, .active⟩ } }

def eraseFlash (s : State) : State := { s with flash := { s.flash with bytes := [] } }

/-- Revoke the active slot. -/
def revokeActive (s : State) : State :=
  match activeSlot s.fuses with
  | none => s
  | some i => withFuses (setSlot i fun o => { o with revoked := true }) s

/-- The fuse order of an edge into Provisioned (R402): owner_key, identity_seed, valid, state bit; a reset after `n`
of them leaves the rest unblown. The identity key is derived once the slot is whole (R404). -/
def provision (i : Nat) (key : BitVec 512) (n : Nat) (s : State) : State :=
  let (k, s0) := takeFree s
  let s1 := if 1 ≤ n then withFuses (setSlot i fun o => { o with ownerKey := key, touched := true }) s0 else s0
  let s2 := if 2 ≤ n then withFuses (setSlot i fun o => { o with seed := Config.noise256 k }) s1 else s1
  let s3 := if 3 ≤ n then withFuses (setSlot i fun o => { o with valid := true }) s2 else s2
  if 4 ≤ n then
    let s4 := withFuses (fun f => { f with lifecycle := .provisioned }) s3
    { s4 with controllers := { s4.controllers with identity := deriveIdentity s4.fuses } }
  else s3

/-- The order of an edge into Returned (R402, R404): the identity key is cleared, the slot is revoked, HBM zeroed, flash
erased, the state bit blown. -/
def giveBack (n : Nat) (s : State) : State :=
  let s1 := if 1 ≤ n then { s with controllers := { s.controllers with identity := none } } else s
  let s2 := if 2 ≤ n then revokeActive s1 else s1
  let s3 := if 3 ≤ n then zeroHbm s2 else s2
  let s4 := if 4 ≤ n then eraseFlash s3 else s3
  if 5 ≤ n then withFuses (fun f => { f with lifecycle := .returned }) s4 else s4

/-- A transition's fuses in their order, `n` of its actions done. -/
def transition (dst : Lifecycle) (t : BitVec 2048) (n : Nat) (s : State) : State :=
  match dst with
  | .provisioned => provision (field t 55 48) (tokenKey t) n s
  | .returned => giveBack n s
  | l => if 1 ≤ n then withFuses (fun f => { f with lifecycle := l }) s else s

def lifecycle (cut : Option Nat) (s : State) : State :=
  let a := s.mgt.arg0.toNat
  let t := BitVec.ofNat 2048 (devNat s a 256)
  if devTop < a + 256 then refuse 7 Code.mgtBadArg s
  else
    match tokenEdge s t with
    | none => refuse 7 Code.mgtBadArg s
    | some dst =>
      match cut with
      | some n => transition dst t n (busyCmd 7 s)
      | none => succeed 7 (transition dst t 5 s)

def execLifecycle (cut : Option Nat) (s : State) : Host.Outcome State Fault Refusal :=
  .next (runEntry 7 (entry .go false (.refuse Code.mgtBusyJob) s) noChange (lifecycle cut) s)

end Sys2Proof.Machine
end

