-- ==== Sys2Proof/Machine/Power.lean ====
section
/-! DEFINITION. The power manager: ceilings, domain voltages and wave withholding (R24, R34, R411 to R421), and the
continuous analogue checks (R434). -/

namespace Sys2Proof.Machine

/-- An adjustable domain (R413). -/
def adjustable (d : Nat) : Bool := decide (d < 18) || d == 22

/-- The highest ceiling of an adjustable domain, in mV (R414). -/
def topVolt (d : Nat) : Nat := if d < 16 then 850 else 700

/-- No ceiling is ever set below 0.55 V (R414). -/
def lowerCeil (v : Nat) : Nat := max 550 (v - 10)
def raiseCeil (top v : Nat) : Nat := min top (v + 10)

/-- Cause [7], the power alert. -/
def powerAlert (s : State) : State := raiseCause 7 s
/-- Cause [6], the thermal alert. -/
def thermalAlert (s : State) : State := raiseCause 6 s

/-- Every compute domain is at 0.55 V. -/
def allAtFloor (p : Power) : Bool := (p.volts.take 16).all fun v => decide (v ≤ 550)

/-- The rink's pace ceiling lies below the other ceilings of some compute domain (R417). -/
def paceWaits (p : Power) : Bool :=
  (upFrom 0 16).any fun d =>
    decide (p.rinkPace < min 850 (min (nthD 850 p.thermal d) (min (nthD 850 p.cap d) (nthD 850 p.pace d))))

/-- The pace-wait flag of the status record follows the ceilings. -/
def flagPace (s : State) : State := { s with status := { s.status with paceWait := paceWaits s.power } }

/-- The withholding share is held at 10 % at least while a cause holds it, and ends with the last cause (R416). While it
is in force the power alert is set. -/
def settleShare (s : State) : State :=
  let p := s.power
  if p.overcurrent || p.thermalHold || p.capHold then
    powerAlert { s with power := { p with share := max 1 p.share } }
  else { s with power := { p with share := 0 } }

/-- OVERCURRENT (R415, R416): above 76 A withholding starts and the cap ceilings fall. -/
def execOvercurrent (s : State) : Host.Outcome State Fault Refusal :=
  .next (settleShare (flagPace { s with power := { s.power with
    overcurrent := true
    cap := s.power.cap.map lowerCeil } }))

/-- CAP_RULE_EVAL: the rule of R415 and the share of R416; no cap ceiling rises while waves are withheld. -/
def execCapRuleEval (avgW : Nat) (below1ms over76 : Bool) (s : State) : Host.Outcome State Fault Refusal :=
  let p := { s.power with overcurrent := over76 }
  let above := decide (cfgCapW s.config < avgW)
  let p' :=
    if above || over76 then
      let q := { p with cap := p.cap.map lowerCeil }
      if allAtFloor p && above then { q with share := min 9 (p.share + 1), capHold := true } else q
    else if below1ms then
      if p.capHold then { p with share := p.share - 1, capHold := decide (1 < p.share) }
      else if p.thermalHold then p
      else { p with cap := p.cap.map (raiseCeil 850) }
    else p
  .next (settleShare (flagPace { s with power := p' }))

/-- WAVE_WITHHOLD_PERIOD (R416): acknowledges are withheld for the share of the period, a handshake stall that changes
no result; while it is in force the power alert is set. -/
def execWaveWithholdPeriod (s : State) : Host.Outcome State Fault Refusal :=
  .next (if s.power.share = 0 then s else powerAlert s)

/-- PACE_DOMAIN_EVAL (R417), the share in hundredths of a percent. -/
def execPaceDomainEval (d : Fin 16) (shareBp : Nat) (s : State) : Host.Outcome State Fault Refusal :=
  let f : Nat → Nat := if 200 < shareBp then lowerCeil else if shareBp < 50 then raiseCeil 850 else id
  .next (flagPace { s with power := { s.power with pace := updNth f s.power.pace d.val } })

/-- The rink's pace rule after a commit (R417): `waitBp` in hundredths of a percent. It moves one ceiling for all compute
domains, beside the one that each domain's own rule moves; the lower of the two is the domain's pace ceiling (R414; DEDUCED,
assumption log 110). -/
def paceRinkEval (waitBp : Nat) (s : State) : State :=
  let p := s.power
  let hi := if 100 < waitBp then p.paceHigh + 1 else 0
  let lo := if waitBp < 25 then p.paceLow + 1 else 0
  let ceil := if 4 ≤ hi then lowerCeil p.rinkPace else if 4 ≤ lo then raiseCeil 850 p.rinkPace else p.rinkPace
  flagPace { s with power := { p with paceHigh := min hi 4, paceLow := min lo 4, rinkPace := ceil } }

/-- The bursts' divisor of a stack (R418), temperatures in 1/16 °C. -/
def stackDivisor (t : Int) : Nat := if 95 * 16 ≤ t then 4 else if 93 * 16 ≤ t then 2 else 1

/-- The thermal ceiling of one domain (R418). -/
def thermalCeil (d : Nat) (t : Int) (v : Nat) : Nat :=
  if ¬ adjustable d then v
  else if 100 * 16 ≤ t then lowerCeil v
  else if t ≤ 97 * 16 then raiseCeil (topVolt d) v
  else v

/-- THERMAL_CEILING_EVAL (R418, R420): junctions by domain and stack readouts, in 1/16 °C. -/
def execThermalCeilingEval (junction stackTemps : List Int) (s : State) : Host.Outcome State Fault Refusal :=
  let p := s.power
  let hot (d : Nat) : Bool := decide (103 * 16 ≤ nthD 0 junction d)
  let alert := (upFrom 0 24).any hot || stackTemps.any fun t => decide (95 * 16 ≤ t)
  let hold := (upFrom 0 24).any fun d => hot d && adjustable d && decide (nthD 0 p.volts d ≤ 550)
  let p' := { p with
    thermal := (upFrom 0 24).map fun d => thermalCeil d (nthD 0 junction d) (nthD 850 p.thermal d)
    stackRate := (upFrom 0 12).map fun i => stackDivisor (nthD 0 stackTemps i)
    thermalHold := hold }
  let t := settleShare (flagPace { s with power := p' })
  .next (if alert then thermalAlert t else t)

/-- Idle: the ready state with no job running (R25, R421). -/
def isIdle (s : State) : Bool := decide (s.mgt.state = .ready) && decide (s.job = none)

/-- The lowest ceiling of an adjustable domain (R414), 0.55 V for a compute domain at idle (R421). -/
def targetVolt (s : State) (d : Nat) : Nat :=
  let p := s.power
  if d < 16 then
    (if isIdle s then 550
    else min 850 (min (nthD 850 p.thermal d) (min (nthD 850 p.cap d) (min (nthD 850 p.pace d) p.rinkPace))))
  else min 700 (nthD 850 p.thermal d)

/-- One step of 10 mV toward a target. -/
def stepVolt (v target : Nat) : Nat :=
  if v < target then min target (v + 10) else if target < v then max target (v - 10) else v

/-- DOMAIN_VOLTAGE_STEP (R34, R414): the domain moves 10 mV toward its lowest ceiling. -/
def execDomainVoltageStep (d : Domain) (s : State) : Host.Outcome State Fault Refusal :=
  if s.power.rails ∧ adjustable d.val then
    .next { s with power := { s.power with
      volts := updNth (fun v => stepVolt v (targetVolt s d.val)) s.power.volts d.val } }
  else .next s

/-- INPUT_OUT_OF_RANGE (R420): the input leaves 38 V to 46 V; its return is the same event with a value inside. -/
def execInputOutOfRange (volt10mV : U16) (s : State) : Host.Outcome State Fault Refusal :=
  let inside := decide (3800 ≤ volt10mV.toNat) && decide (volt10mV.toNat ≤ 4600)
  let t := { s with power := { s.power with inRange := inside } }
  .next (if inside then t else powerAlert t)

/-! ## Continuous checks (R434) -/

/-- REGULATOR_CHECK: errors in hundredths of a percent, limit ±3 %. -/
def execRegulatorCheck (errors : List Int) (s : State) : Host.Outcome State Fault Refusal :=
  .next (if errors.any fun e => decide (300 < e.natAbs) then powerAlert s else s)

/-- TEMP_SENSOR_CHECK: errors in 1/16 °C, limit ±5 °C; a sensor that fails is replaced by its reference diode. -/
def execTempSensorCheck (errors : List Int) (s : State) : Host.Outcome State Fault Refusal :=
  let bad (i : Nat) : Bool := decide (80 < (nthD 0 errors i).natAbs)
  let t := { s with power := { s.power with
    sensorSwapped := (upFrom 0 24).map fun i => bad i || nthD false s.power.sensorSwapped i } }
  .next (if (upFrom 0 24).any bad then thermalAlert t else s)

/-- INPUT_MONITOR_CHECK: the two dividers' readings, in 10 mV, limit ±1 %. -/
def execInputMonitorCheck (first second : Nat) (s : State) : Host.Outcome State Fault Refusal :=
  .next (if second < 100 * ((first : Int) - second).natAbs then powerAlert s else s)

/-- LASER_MONITOR_CHECK: a low laser is reported to the far end, which asks for a swap (R272). -/
def execLaserMonitorCheck (low : List Wave) (s : State) : Host.Outcome State Fault Refusal :=
  .next (emitAll (low.filterMap fun w =>
    if (getPort s w.port.val).phase = .up then
      ((nthD Fibre.fresh (getPort s w.port.val).txFibres w.fibre.val).lanes.findIdx? (· == w.wave.val)).map fun i =>
        .linkWord w.port (.laserLow w.fibre.val i)
    else none) s)

end Sys2Proof.Machine
end

