-- ==== Sys2Proof/Machine/Mgmt.lean ====
section
/-! DEFINITION. The management window (R362, R363, R379): register writes, the job ring registers, the interrupt
registers, and the reads that mirror state. -/

namespace Sys2Proof.Machine

/-! ## Views -/

/-- MGT_LIFECYCLE (R362). -/
def mgtLifecycle (s : State) : Nat := s.fuses.lifecycle.code

/-- MGT_COORD (R362). -/
def mgtCoord (s : State) : Nat := siteX s.site + 256 * siteY s.site + 65536 * siteZ s.site

/-- MGT_CMD_STATUS (R381). -/
def mgtCmdStatus (m : Mgt) : Nat := m.cmdState.code + 256 * m.cmd.toNat + 65536 * m.cmdCode.toNat

/-- The 4 B word at a window offset, as a read returns it (R362, R12, R13). -/
def windowWord (s : State) (off : Nat) : Nat :=
  match off with
  | 0x0000 => 0x76800101
  | 0x0004 => mgtLifecycle s
  | 0x0008 => s.mgt.state.code
  | 0x000C => mgtCoord s
  | 0x0014 => mgtCmdStatus s.mgt
  | 0x0018 => field s.mgt.arg0 31 0
  | 0x001C => field s.mgt.arg0 63 32
  | 0x0020 => field s.mgt.arg1 31 0
  | 0x0024 => field s.mgt.arg1 63 32
  | 0x0028 => field s.mgt.arg2 31 0
  | 0x002C => field s.mgt.arg2 63 32
  | 0x0030 => field s.time.value 31 0
  | 0x0034 => field s.time.value 63 32
  | 0x0038 => s.mgt.temp.toNat
  | 0x003C => s.mgt.power.toNat
  | 0x0040 => field s.mgt.ringBase 31 0
  | 0x0044 => field s.mgt.ringBase 63 32
  | 0x0048 => field s.mgt.ringCtrl 31 0
  | 0x004C => field s.mgt.ringCtrl 63 32
  | 0x0050 => s.mgt.ringSize.toNat
  | 0x0058 => field s.mgt.statusAddr 31 0
  | 0x005C => field s.mgt.statusAddr 63 32
  | 0x0060 => s.mgt.intStatus.toNat
  | 0x0064 => s.mgt.intEnable.toNat
  | 0x0068 => s.mgt.bootStatus.toNat
  | 0xF000 => s.mgt.msixPba.toNat
  | o => if 0xE000 ≤ o ∧ o < 0xE040 ∧ o % 4 = 0 then field s.mgt.msixTable (8 * (o - 0xE000) + 31) (8 * (o - 0xE000)) else 0

/-- What a read access of the window returns (R362): an aligned 4 B or 8 B word, and zero for any other access. -/
def windowRead (s : State) (off bytes : Nat) : Nat :=
  if bytes = 4 ∧ off % 4 = 0 then windowWord s off
  else if bytes = 8 ∧ off % 8 = 0 then windowWord s off + 2 ^ 32 * windowWord s (off + 4)
  else 0

/-! ## Register writes -/

/-- Replace the half or the whole of an 8 B register (R362). -/
def withPart (old : U64) (part : RegPart) (v : U64) : U64 :=
  match part with
  | .whole => v
  | .low => setField old 31 0 v.toNat
  | .high => setField old 63 32 v.toNat

/-- A ring register's new value is taken only in READY and in range and alignment; otherwise the register keeps
its value (R363). -/
def guarded (s : State) (ok : Bool) (old new : U64) : U64 := if s.mgt.state = .ready ∧ ok then new else old

/-- Enable and cause bits that R379 defines. -/
def intBits : U32 := 0x1FF

/-- Write one 4 B word of the window. The command and ring control registers have commands of their own. -/
def writeWord (off : Nat) (v : U32) (s : State) : State :=
  let m := s.mgt
  match off with
  | 0x0018 => { s with mgt := { m with arg0 := setField m.arg0 31 0 v.toNat } }
  | 0x001C => { s with mgt := { m with arg0 := setField m.arg0 63 32 v.toNat } }
  | 0x0020 => { s with mgt := { m with arg1 := setField m.arg1 31 0 v.toNat } }
  | 0x0024 => { s with mgt := { m with arg1 := setField m.arg1 63 32 v.toNat } }
  | 0x0028 => { s with mgt := { m with arg2 := setField m.arg2 31 0 v.toNat } }
  | 0x002C => { s with mgt := { m with arg2 := setField m.arg2 63 32 v.toNat } }
  | 0x0040 =>
    let n := setField m.ringBase 31 0 v.toNat
    { s with mgt := { m with ringBase := guarded s (n.toNat % 256 == 0) m.ringBase n } }
  | 0x0044 =>
    let n := setField m.ringBase 63 32 v.toNat
    { s with mgt := { m with ringBase := guarded s (n.toNat % 256 == 0) m.ringBase n } }
  | 0x0050 =>
    if m.state = .ready ∧ 4 ≤ v.toNat % 16 ∧ v.toNat % 16 ≤ 12 then
      { s with mgt := { m with ringSize := BitVec.ofNat 32 (v.toNat % 16) } }
    else s
  | 0x0058 =>
    let n := setField m.statusAddr 31 0 v.toNat
    { s with mgt := { m with statusAddr := guarded s (n.toNat % 4096 == 0) m.statusAddr n } }
  | 0x005C =>
    let n := setField m.statusAddr 63 32 v.toNat
    { s with mgt := { m with statusAddr := guarded s (n.toNat % 4096 == 0) m.statusAddr n } }
  | 0x0060 => setInterrupts (m.intStatus &&& ~~~v) m.intEnable s
  | 0x0064 => setInterrupts m.intStatus (v &&& intBits) s
  | o =>
    if 0xE000 ≤ o ∧ o < 0xE040 ∧ o % 4 = 0 then
      let i := (o - 0xE000) / 16
      let v' := if o % 16 = 12 then v.toNat % 2 else v.toNat
      let s1 := { s with mgt := { m with
        msixTable := setField m.msixTable (8 * (o - 0xE000) + 31) (8 * (o - 0xE000)) v' } }
      if o % 16 = 12 ∧ v' = 0 ∧ bitAt m.msixPba i then
        sendVector i { s1 with mgt := { s1.mgt with msixPba := setBit s1.mgt.msixPba i false } }
      else s1
    else s

/-- The 8 B registers that a whole write judges at once (R363): base, status address. -/
def writeLong (off : Nat) (v : U64) (s : State) : State :=
  match off with
  | 0x0040 => { s with mgt := { s.mgt with ringBase := guarded s (v.toNat % 256 == 0) s.mgt.ringBase v } }
  | 0x0058 => { s with mgt := { s.mgt with statusAddr := guarded s (v.toNat % 4096 == 0) s.mgt.statusAddr v } }
  | 0x0060 =>
    setInterrupts (s.mgt.intStatus &&& ~~~(BitVec.ofNat 32 (field v 31 0)))
      (BitVec.ofNat 32 (field v 63 32) &&& intBits) s
  | _ => writeWord (off + 4) (BitVec.ofNat 32 (field v 63 32)) (writeWord off (BitVec.ofNat 32 (field v 31 0)) s)

/-- The window answers from the end of the ROM phase on (R390) and in every later state. -/
def windowUp (s : State) : Bool := s.controllers.romDone

/-- MGT_REGISTER_WRITE (R362, R363): an aligned 4 B or 8 B access reaches each register it overlaps; any other
access writes nothing, and neither does a write to an RO register or a reserved offset. -/
def execMgtRegisterWrite (off : Nat) (wide : Bool) (val : U64) (s : State) : Host.Outcome State Fault Refusal :=
  if ¬ windowUp s then .next s
  else if wide then
    if off % 8 = 0 then .next (writeLong off val s) else .next s
  else if off % 4 = 0 then .next (writeWord off (BitVec.ofNat 32 val.toNat) s)
  else .next s

/-- MGT_RING_JOB_CTRL_WRITE (R363): in READY, with 128 B alignment, the module reads the producer of the control
block and takes it as its consumer position; the write re-arms a faulted ring (R365). -/
def execMgtRingJobCtrlWrite (part : RegPart) (val producer : U64) (s : State) :
    Host.Outcome State Fault Refusal :=
  let n := withPart s.mgt.ringCtrl part val
  if s.mgt.state = .ready ∧ n.toNat % 128 = 0 then
    .next { s with
      mgt := { s.mgt with ringCtrl := n }
      ring := ⟨producer, producer, false, true⟩ }
  else .next s

/-- MGT_INT_STATUS_CLEAR (R379): the named cause bits are cleared; a vector that is no longer pending is re-armed. -/
def execMgtIntStatusClear (mask : U32) (s : State) : Host.Outcome State Fault Refusal :=
  if windowUp s then .next (setInterrupts (s.mgt.intStatus &&& ~~~mask) s.mgt.intEnable s) else .next s

/-- MGT_INT_ENABLE_WRITE (R379): an already set cause that becomes enabled sends its vector's message. -/
def execMgtIntEnableWrite (val : U32) (s : State) : Host.Outcome State Fault Refusal :=
  if windowUp s then .next (setInterrupts s.mgt.intStatus (val &&& intBits) s) else .next s

end Sys2Proof.Machine
end

