-- ==== Sys2Proof/Machine/Sideband.lean ====
section
/-! DEFINITION. The SMBus commands of the sideband (R446 to R449). -/

namespace Sys2Proof.Machine

/-- The SMBus target address in 7-bit form (R447). -/
def smbusAddress (b : Sideband) : Nat := 0x58 + 2 * b.strap1.toNat + b.strap0.toNat

/-- ALERT# is low while cause [6] or [7] is set, whatever the enables hold (R420, R446). -/
def alertLow (s : State) : Bool := bitAt s.mgt.intStatus 6 || bitAt s.mgt.intStatus 7

/-- A word read: it is acknowledged and returns the present value once the sideband answers (R447, R448). -/
def sbRead (w : Nat) (s : State) : State :=
  if s.sideband.answering then
    { s with sideband := { s.sideband with lastWord := BitVec.ofNat 16 w, lastAck := true } }
  else { s with sideband := { s.sideband with lastAck := false } }

/-- SB_IDENT: MGT_IDENT[31:16]. -/
def execSbIdent (s : State) : Host.Outcome State Fault Refusal := .next (sbRead (windowWord s 0 / 65536) s)

/-- SB_STATE: [3:0] MGT_STATE, [7:4] MGT_LIFECYCLE[2:0]. -/
def execSbState (s : State) : Host.Outcome State Fault Refusal :=
  .next (sbRead (windowWord s 8 + 16 * windowWord s 4) s)

/-- SB_TEMP: MGT_TEMP[15:0]. -/
def execSbTemp (s : State) : Host.Outcome State Fault Refusal := .next (sbRead (field s.mgt.temp 15 0) s)

/-- SB_STACK_TEMP: MGT_TEMP[31:16]. -/
def execSbStackTemp (s : State) : Host.Outcome State Fault Refusal := .next (sbRead (field s.mgt.temp 31 16) s)

/-- SB_POWER: MGT_POWER[15:0]. -/
def execSbPower (s : State) : Host.Outcome State Fault Refusal := .next (sbRead (field s.mgt.power 15 0) s)

/-- SB_VOLT: MGT_POWER[31:16]. -/
def execSbVolt (s : State) : Host.Outcome State Fault Refusal := .next (sbRead (field s.mgt.power 31 16) s)

/-- SB_CAUSE: MGT_INT_STATUS[15:0]. -/
def execSbCause (s : State) : Host.Outcome State Fault Refusal := .next (sbRead (field s.mgt.intStatus 15 0) s)

/-- A byte write's acknowledge at its data byte. -/
def sbAck (ack : Bool) (s : State) : State := { s with sideband := { s.sideband with lastAck := ack } }

/-- SB_RESET_WARM: byte 0xA5 is acknowledged, and the reset begins after the stop condition (WARM_RESET). -/
def execSbResetWarm (s : State) : Host.Outcome State Fault Refusal :=
  if s.sideband.answering then
    .next (sbAck true { s with sideband := { s.sideband with request := some .warm } })
  else .next (sbAck false s)

/-- A rink-reset request is ignored during a warm reset and in BOOT or RECOVERY (R393, R449). -/
def rinkResetIgnored (s : State) : Bool := decide (s.mgt.state = .boot) || decide (s.mgt.state = .recovery)

/-- SB_RESET_RINK: byte 0x5A is acknowledged, and the module floods a rink reset (R393). -/
def execSbResetRink (s : State) : Host.Outcome State Fault Refusal :=
  if ¬ s.sideband.answering then .next (sbAck false s)
  else if rinkResetIgnored s then .next (sbAck true s)
  else
    .next (emit (.send .rinkReset)
      (sbAck true { s with sideband := { s.sideband with request := some .rink } }))

/-- SB_WRITE_REJECTED: not acknowledged at its data byte; nothing changes. -/
def execSbWriteRejected (_cmd _val : Byte) (_pecOk : Bool) (s : State) : Host.Outcome State Fault Refusal :=
  .next (sbAck false s)

/-- SMBUS_BUS_TIMEOUT (R447): the transaction is abandoned, and with it a reset request whose stop condition never
came. -/
def execSmbusBusTimeout (s : State) : Host.Outcome State Fault Refusal :=
  .next { s with sideband := { s.sideband with lastAck := false, request := none } }

end Sys2Proof.Machine
end

