-- ==== Sys2Proof/Machine/Boot.lean ====
section
/-! DEFINITION. Resets (R393, R394, R411, R418), the boot sequence (R390 to R392, R405), and rink formation (R286,
R391). -/

namespace Sys2Proof.Machine

/-! ## Power-on and loss of power -/

/-- Ports at power-on: retirements and swaps are cleared, and a wavelength fused dead has its lane on the spare (R394,
R437). -/
def portsAtPowerOn (f : Fuses) : List Port :=
  (upFrom 0 6).map fun p =>
    let fs := loseWaves ((f.deadWaves.filter fun w => w.port.val == p).map fun w => (w.fibre, w.wave))
      (List.replicate 16 Fibre.fresh)
    { Port.reset with fibres := fs, txFibres := fs }

/-- What survives a power-on (R394): the fuses and the flash copies. The pins keep their levels, host memory and what
was sent lie outside the module, and the queue waits. -/
def powerOn (s : State) : State :=
  { State.reset with
    fuses := s.fuses
    flash := { Flash.initial with bytes := s.flash.bytes }
    link := { HostLink.reset with perstLow := s.link.perstLow, decoder := s.link.decoder, readData := s.link.readData }
    sideband := { Sideband.reset with strap0 := s.sideband.strap0, strap1 := s.sideband.strap1 }
    fabric := ⟨portsAtPowerOn s.fuses, []⟩
    hostMem := s.hostMem
    sent := s.sent
    free := s.free
    pending := s.pending }

/-- Every rail off, standby included (R411): nothing but fuses and flash keeps anything. -/
def lockOut (s : State) : State :=
  let t := powerOn s
  { t with power := { t.power with locked := true, inRange := false } }

/-- POWER_ON_RESET (R393, R411). -/
def execPowerOnReset (s : State) : Host.Outcome State Fault Refusal := .next (powerOn s)

/-- INPUT_LOCKOUT (R411, R446). -/
def execInputLockout (s : State) : Host.Outcome State Fault Refusal := .next (lockOut s)

/-- INPUT_OVERVOLTAGE_STOP (R411): the same effect as lockout. -/
def execInputOvervoltageStop (s : State) : Host.Outcome State Fault Refusal := .next (lockOut s)

/-- A module that can no longer continue in a job says so before it goes silent (R316; DEDUCED, assumption log 65). -/
def lostNotice (s : State) : State := if s.job.isSome then emit (.send .lostNotice) s else s

/-- THERMAL_TRIP (R418): every rail except standby goes off, HBM contents are lost, and the module is lost to its
rink. -/
def execThermalTrip (s : State) : Host.Outcome State Fault Refusal :=
  let t := powerOn (lostNotice s)
  .next { t with power := { t.power with
    tripped := true
    volts := updNth (fun _ => 800) t.power.volts 23 } }

/-- THERMAL_TRIP_COOLED (R418): the module starts as at power-on. -/
def execThermalTripCooled (s : State) : Host.Outcome State Fault Refusal :=
  if s.power.tripped then .next (powerOn s) else .next s

/-- POWER_GOOD (R390, R446): the input has stayed in range and the Input phase ends. -/
def execPowerGood (s : State) : Host.Outcome State Fault Refusal :=
  if s.power.phase = .off ∧ ¬ s.power.locked ∧ ¬ s.power.tripped then
    .next { s with
      sideband := { s.sideband with pwrgd := true }
      power := { s.power with phase := .input, inRange := true, volts := updNth (fun _ => 800) s.power.volts 23 } }
  else .next s

/-- Fuses that show a transition which a reset interrupted: a slot filled or revoked without the state bit of its edge
(R405). -/
def transitionOpen (f : Fuses) : Bool :=
  match activeSlot f with
  | some _ => decide (f.lifecycle = .manufactured) || decide (f.lifecycle = .returned)
  | none => decide (f.lifecycle = .provisioned) || decide (f.lifecycle = .deployed)

/-- ROM finishes a transition that a reset interrupted, as the fuses show (R405). -/
def finishTransition (s : State) : State :=
  match activeSlot s.fuses with
  | some _ =>
    (match s.fuses.lifecycle with
      | .manufactured => withFuses (fun f => { f with lifecycle := .provisioned }) s
      | .returned => withFuses (fun f => { f with lifecycle := .provisioned }) s
      | _ => s)
  | none =>
    (match s.fuses.lifecycle with
      | .provisioned => withFuses (fun f => { f with lifecycle := .returned }) (eraseFlash (zeroHbm s))
      | .deployed => withFuses (fun f => { f with lifecycle := .returned }) (eraseFlash (zeroHbm s))
      | _ => s)

/-! ## Local reset (R393, R394) -/

/-- The compute and chip-level units are reset: scratchpads, drain files, cell stores, shadow slots, controller data
memory, staging buffers, spill areas and the prefix index are lost. What every module of the machine must know alike stays:
the active set with the rinks that leave or join, the votes of the step and what they have formed, and the host's manifest
(R296, R299; DESIGN CHOICE, assumption log 98). -/
def resetUnits (s : State) : State :=
  { s with
    cores := Cores.reset
    msu := Msu.reset
    kv := Kv.reset
    gatehouse := s.gatehouse.flush
    coll := { Coll.reset with
      active := s.coll.active
      joins := s.coll.joins
      leaves := s.coll.leaves
      votes := s.coll.votes
      mine := s.coll.mine
      arrivals := s.coll.arrivals
      included := s.coll.included
      weights := s.coll.weights
      hostCount := s.coll.hostCount
      hostEntries := s.coll.hostEntries }
    ended := []
    stalled := [] }

/-- A management command that was busy is lost, and MGT_CMD_STATUS reads 0 (R381). -/
def loseBusy (m : Mgt) : Mgt :=
  if m.cmdState = .busy then { m with cmdState := .idle, cmd := 0, cmdCode := 0 } else m

/-- The local reset of a warm reset: window registers take their reset values, the CXL link retrains, banks and the
running job are gone, and HBM waits in self-refresh with every stored word kept (R245, R394, R396). To its rink the
module is lost where a job ran. ROM finishes an interrupted transition here too (R405, assumption log 29). -/
def warmReset (s : State) : State :=
  let t := latchKey (finishTransition (recoverSaves (resetUnits (lostNotice s))))
  { t with
    mgt := Mgt.reset
    link := { t.link with trained := false, cxl := false, width := .x16, rate := .gt32, deviceBias := [] }
    ring := ⟨0, 0, false, false⟩
    sideband := { t.sideband with answering := !t.link.perstLow, request := none }
    status := { StatusRec.reset with updateSeq := t.status.updateSeq }
    controllers := { t.controllers with firmware := false, identity := deriveIdentity t.fuses }
    power := { t.power with
      phase := .rom
      warm := true
      share := 0
      overcurrent := false
      thermalHold := false
      capHold := false
      rinkPace := 850
      paceHigh := 0
      paceLow := 0 }
    time := { Timebase.reset with running := t.time.running }
    hbm := { t.hbm with selfRefresh := true, serving := false }
    banks := Banks.reset
    fabric := ⟨t.fabric.ports.map (fun p => { p.flush with phase := .dark, attempts := 0 }), []⟩
    coll := Coll.reset
    recovery := Recovery.reset
    selfTest := { t.selfTest with sweepHeld := false }
    job := none }

/-- The sequence of a power-on reset is in progress: the module has not come to its end, and no warm reset began it (R393;
DEDUCED, assumption log 94). -/
def powerOnRuns (s : State) : Bool := !s.power.warm && decide (s.power.phase ≠ .ready)

/-- The power-on sequence starts again, with the input in range and power good as they are (R390, R393). -/
def restartPowerOn (s : State) : State :=
  let t := powerOn s
  { t with
    link := { t.link with perstReleased := s.link.perstReleased }
    sideband := { t.sideband with pwrgd := s.sideband.pwrgd }
    power := { t.power with phase := .input, inRange := s.power.inRange, volts := updNth (fun _ => 800) t.power.volts 23 } }

/-- A warm reset that arrives while a power-on reset is in progress restarts that one, which is the stronger (R393). -/
def resetWarmly (s : State) : State := if powerOnRuns s then restartPowerOn s else warmReset s

/-- WARM_RESET (R393). In a dark module, and before ROM has run, there is nothing to reset. -/
def execWarmReset (s : State) : Host.Outcome State Fault Refusal :=
  if s.controllers.romDone then .next (resetWarmly s) else .next s

/-- PERST_ASSERT (R390, R393, R446): after the first release following power good it starts a warm reset, in which the
module holds while PERST# stays low; before that it holds only the link. -/
def execPerstAssert (s : State) : Host.Outcome State Fault Refusal :=
  let t := { s with link := { s.link with perstLow := true, trained := false, cxl := false } }
  if s.link.perstReleased ∧ s.controllers.romDone then .next (resetWarmly t) else .next t

/-- PERST_RELEASE (R390, R393): the link may train, or a held warm reset runs on from Flash. -/
def execPerstRelease (s : State) : Host.Outcome State Fault Refusal :=
  .next { s with
    link := { s.link with perstLow := false, perstReleased := s.link.perstReleased || s.sideband.pwrgd }
    sideband := { s.sideband with answering := s.controllers.romDone } }

/-- The local reset of a rink reset (R393, R394): CXL link, locked ports, the copy in use, the site record in force, the
window registers and the timebase are kept, banks are reloaded from the image, link buffers are flushed and credits
restored (R276), and a running job goes on by R395. -/
def rinkReset (s : State) : State :=
  let t := recoverSaves (resetUnits s)
  { t with
    mgt := loseBusy t.mgt
    sideband := { t.sideband with request := none }
    hbm := { t.hbm with selfRefresh := false, serving := true }
    banks := { t.banks with
      bank0 := { t.banks.bank0 with refs := [] }
      bank1 := { t.banks.bank1 with refs := [] }
      waiting := none }
    fabric := { t.fabric with ports := t.fabric.ports.map fun p => { p.flush with credits := Port.fullCredits } }
    recovery := { t.recovery with
      resume := t.job.isSome
      abortPending := false
      refreshing := false
      unacked := [] } }

/-- RINK_RESET_FLOOD (R393): ignored in BOOT and RECOVERY, and by a module whose ROM has not run. -/
def execRinkResetFlood (s : State) : Host.Outcome State Fault Refusal :=
  if rinkResetIgnored s ∨ ¬ s.controllers.romDone then .next s else .next (rinkReset s)

/-- STEP_ABORT_UNANSWERED (R393): a unit has not answered a step abort within 1 ms; the controller floods a rink
reset. -/
def execStepAbortUnanswered (s : State) : Host.Outcome State Fault Refusal :=
  if s.recovery.abortPending then .next (emit (.send .rinkReset) s) else .next s

/-- REFERENCE_CLOCK_LOSS (R38): every clocked island except the sideband stops, and the module is not in the ready
state. -/
def execReferenceClockLoss (s : State) : Host.Outcome State Fault Refusal :=
  .next { s with
    time := { s.time with running := false }
    link := { s.link with trained := false, cxl := false }
    hbm := { s.hbm with serving := false }
    fabric := { s.fabric with ports := s.fabric.ports.map fun p =>
      { p.flush with phase := if p.phase = .dark then .dark else .down } }
    mgt := { s.mgt with state := if s.mgt.state = .ready then .boot else s.mgt.state } }

/-! ## The boot sequence (R390) -/

/-- BOOT_ROM: both controllers run ROM, which reads the fuses, finishes an interrupted transition, derives the identity
key (R400), and brings up the window and the sideband (R447). -/
def execBootRom (s : State) : Host.Outcome State Fault Refusal :=
  if s.power.phase = .input then
    let t := latchKey (finishTransition s)
    .next { t with
      controllers := { t.controllers with romDone := true, identity := deriveIdentity t.fuses }
      sideband := { t.sideband with answering := true }
      mgt := { t.mgt with state := .boot }
      power := { t.power with phase := .rom } }
  else .next s

/-- ROM uses its vendor root key only when its digest is the fused one (R398). -/
def romKeyOk (f : Fuses) : Bool := keyDigest f.romKey == f.vendorRootHash

/-- FLASH_SELECT (R384, R390, R392, R406): it waits for a held warm reset's release, and a module whose ROM key does
not match stays in BOOT (R398). -/
def execFlashSelect (s : State) : Host.Outcome State Fault Refusal :=
  if s.power.phase = .rom ∧ s.mgt.state ≠ .recovery ∧ ¬ (s.power.warm ∧ s.link.perstLow) ∧ romKeyOk s.fuses ∧
      s.time.running then
    .next (flashPhase s)
  else .next s

/-- RAILS_UP (R413): the 24 domains are raised to their start voltages. -/
def execRailsUp (s : State) : Host.Outcome State Fault Refusal :=
  if s.power.phase = .flash then
    .next { s with power := { s.power with phase := .rails, rails := true, volts := startVolts } }
  else .next s

/-- A core that fails after a warm reset becomes FAILED, and its logical core, if it served one, moves to its domain's
spare, or stays unserved (R424). -/
def warmCoreFail (p : Nat) (s : State) : State :=
  let e := entryOf s p
  let t := setEntry p (fun e => { e with state := .failed, logical := 0xFF })
    { s with selfTest := { s.selfTest with parked := s.selfTest.parked.filter fun x => x.1 ≠ p } }
  if e.state = .fused then s
  else if e.state = .active then
    match spareOf s (domainOf p) with
    | none => t
    | some q => setEntry q (fun x => { x with state := .active, logical := e.logical }) t
  else t

/-- BOOT_SELF_TEST (R423 to R425): after power-on the core map is formed anew with fused cores left out; after a warm
reset it is kept but for cores that now fail. -/
def execBootSelfTest (failed : List PhysCore) (s : State) : Host.Outcome State Fault Refusal :=
  if s.power.phase = .rails then
    let t :=
      if s.power.warm ∧ s.hbm.coreMap ≠ [] then failed.foldl (fun u c => warmCoreFail c.val u) s
      else { s with hbm := { s.hbm with
        coreMap := coreMapOf (fun p => !failed.any fun c => c.val == p) (isFused s) (fun _ => (0, 0)) } }
    .next { t with power := { t.power with phase := .selfTest } }
  else .next s

/-- HBM_INIT (R245, R241): after power-on every word is written with zeros, fused remaps are loaded first (R436) and
failing rows are remapped; after a warm reset the PHYs retrain without an access to a stored word. Lanes that fail the
loop-back of either are reported (R434). -/
def execHbmInit (failedRows : List RowAddr) (badLanes : List PhyLane) (s : State) : Host.Outcome State Fault Refusal :=
  if s.power.phase = .selfTest ∧ s.time.running then
    let t :=
      if s.power.warm then s
      else
        let u := { s with hbm := { s.hbm with
          dev := []
          tandem := []
          saveArea := []
          stamps := []
          tandemStamps := []
          commitWord := 0
          poison := []
          tandemPoison := []
          repairPoison := []
          saves := []
          savePoison := []
          amendment := none
          remapped := s.fuses.deadRows } }
        failedRows.foldl (fun v r => remapRow r v) u
    .next (reportLanes badLanes { t with
      hbm := { t.hbm with serving := true, selfRefresh := false }
      power := { t.power with phase := .hbm } })
  else .next s

/-- RUNTIME_LOAD (R390): the runtime goes into every core controller, and Gatehouse and prefix unit are cleared. -/
def execRuntimeLoad (s : State) : Host.Outcome State Fault Refusal :=
  if s.power.phase = .hbm then
    .next { s with
      cores := { s.cores with ctl := [] }
      gatehouse := Gatehouse.reset
      kv := Kv.reset
      power := { s.power with phase := .load }
      fabric := { s.fabric with ports := (upFrom 0 6).map fun p =>
        { getPort s p with phase := if siteConnected s.site p then .laser else .dark, attempts := 0 } } }
  else .next s

/-! ## Rink formation (R286, R391) -/

def powerOfTwoTo32 (n : Nat) : Bool := n == 2 || n == 4 || n == 8 || n == 16 || n == 32

/-- The shapes that R286 allows. -/
def shapeOk (r : BitVec 4096) : Bool :=
  let X := siteExtX r
  let Y := siteExtY r
  let Z := siteExtZ r
  if field r 87 80 = 0 then
    decide (2 ≤ X) && decide (X ≤ 8) && decide (1 ≤ Y) && decide (Y ≤ 8) && decide (1 ≤ Z) && decide (Z ≤ 8)
  else
    field r 87 80 == 1 && powerOfTwoTo32 X && powerOfTwoTo32 Y && decide (X * Y ≤ 512) && decide (2 ≤ Z) &&
      decide (Z ≤ 32)

/-- A peer's site record agrees with this module's on every field that R391 compares. -/
def peerAgrees (r : BitVec 4096) (p : PeerSite) : Bool :=
  p.form.toNat == field r 87 80 && p.extent == ⟨siteExtX r, siteExtY r, siteExtZ r⟩ &&
    p.activeInit.toNat == field r 191 160 && p.epoch.toNat == field r 255 192

/-- Coordinates are distinct. -/
def distinctCoords : List Coord → Bool
  | [] => true
  | c :: cs => !cs.contains c && distinctCoords cs

/-- A module comes before another in the order of z, then y, then x (R40). -/
def before (a b : Coord) : Bool :=
  decide (a.z < b.z) || (a.z == b.z && (decide (a.y < b.y) || (a.y == b.y && decide (a.x < b.x))))

def insertCoord (c : Coord) : List Coord → List Coord
  | [] => [c]
  | d :: ds => if before c d then c :: d :: ds else d :: insertCoord c ds

/-- Every connected port of this module is locked. -/
def ownLocked (s : State) : Bool :=
  (upFrom 0 6).all fun p => !siteConnected s.site p || decide ((getPort s p).phase = .up)

/-- The modules of the machine whose connected ports are all locked, in the order in which they become time root. -/
def rootOrder (f : FormationIn) (s : State) : List Coord :=
  ((if ownLocked s then [s.coord] else []) ++ (f.peers.filter PeerSite.locked).map PeerSite.coord ++ f.others).foldl
    (fun cs c => insertCoord c cs) []

/-- A formation attempt: COL_SHAPE on a disagreement or a shape that R286 does not allow, FAB_UNREACHABLE where some
module is not reached 0.5 s after Optical, and otherwise the counter is set and the module is ready (R40, R390,
R391). Without a module whose connected ports are all locked there is no time root to set it by, and the attempt
waits. -/
def formRink (f : FormationIn) (s : State) : State :=
  let agree := shapeOk s.site && f.peers.all (peerAgrees s.site) && distinctCoords (s.coord :: f.peers.map PeerSite.coord)
  let all := decide (s.rinkSize ≤ f.peers.length + 1) && f.peers.all PeerSite.reachable
  let post (c : U16) : State := { s with mgt := { s.mgt with bootStatus := BitVec.ofNat 32 c.toNat } }
  if ¬ agree then post Code.colShape
  else if ¬ all then (if f.optical500ms then post Code.fabUnreachable else s)
  else
    match rootOrder f s with
    | [] => s
    | root :: rest =>
      { s with
        mgt := { s.mgt with
          bootStatus := 0
          state := if s.mgt.state = .linkPcie then .linkPcie else .ready }
        time := { s.time with
          value := if root = s.coord then BitVec.ofNat 64 (field s.site 255 192) else f.rootTime
          set := true
          root := decide (root = s.coord)
          rootAt := root
          order := root :: rest
          skip := false }
        power := { s.power with phase := .ready }
        coll := { s.coll with active := BitVec.ofNat 32 (field s.site 191 160) }
        recovery := { s.recovery with marshal := s.L == 0 && !f.beating, heard := none } }

/-- Every connected port's bring-up has ended, up or down (R390). -/
def opticalEnded (s : State) : Bool :=
  (upFrom 0 6).all fun p =>
    match (getPort s p).phase with
    | .up => true
    | .down => true
    | .refused => true
    | .dark => true
    | _ => false

/-- The module has loaded and waits in BOOT for its rink. -/
def waitsToForm (s : State) : Bool :=
  decide (s.power.phase = .load) && (decide (s.mgt.state = .boot) || decide (s.mgt.state = .linkPcie)) && s.time.running

/-- Formation may be attempted for the first time once the Optical phase has ended. -/
def canForm (s : State) : Bool := waitsToForm s && opticalEnded s

/-- RINK_FORMATION (R391). -/
def execRinkFormation (f : FormationIn) (s : State) : Host.Outcome State Fault Refusal :=
  if canForm s then .next (emit (.send .formation) (formRink f s)) else .next s

/-- RINK_FORMATION_RETRY (R391): a module held in BOOT tries again when a port comes up or an amendment is
accepted, whether or not other ports are in a bring-up of their own. -/
def execRinkFormationRetry (_cause : RetryCause) (f : FormationIn) (s : State) :
    Host.Outcome State Fault Refusal :=
  if waitsToForm s ∧ s.mgt.bootStatus ≠ 0 then .next (emit (.send .formation) (formRink f s)) else .next s

end Sys2Proof.Machine
end

