-- ==== Sys2Proof/Machine/CheckValue.lean ====
section
/-! DEFINITION. Check-value units (R349 to R354). -/

namespace Sys2Proof.Machine

def cvOf (s : State) (u : CvUnit) : CvState := SMap.get CvState.reset s.cores.cv (cvKey u)

def setCv (u : CvUnit) (v : CvState) (s : State) : State :=
  { s with cores := { s.cores with cv := SMap.set CvState.reset s.cores.cv (cvKey u) v } }

/-- A core's unit is fed by operations of a running step; a system controller's by its firmware (R349). -/
def cvRuns (u : CvUnit) (s : State) : Bool :=
  match u with
  | .core _ op => acts s op
  | .controllerA => s.controllers.firmware
  | .controllerB => s.controllers.firmware

/-- The bytes of a feed, least significant first (R352). -/
def cvBytes : CvData → List Byte
  | .byte b => [b]
  | .half h => leBytes 2 h.toNat
  | .word w => leBytes 4 w.toNat

/-- select of R351. -/
def cvSelect (p : Poly) (v : CvState) : CvState :=
  { v with poly := p, reg := BitVec.ofNat 64 (polyRow p).init, opened := true }

/-- A feed of a unit that is not open changes nothing (R353). -/
def cvFeed (d : CvData) (v : CvState) : CvState :=
  if v.opened then
    { v with reg := BitVec.ofNat 64 ((cvBytes d).foldl (crcByte (polyRow v.poly)) v.reg.toNat) }
  else v

/-- read of R351; a read of a unit that is not open returns zero (R353). -/
def cvRead (v : CvState) : CvState :=
  if v.opened then
    { v with opened := false, value := BitVec.ofNat 64 (crcOut (polyRow v.poly) v.reg.toNat) }
  else { v with value := 0 }

/-- The operation that uses a core's unit. -/
def cvOp : CvUnit → Option U32
  | .core _ op => some op
  | .controllerA => none
  | .controllerB => none

/-- A core's operation feeds or reads behind a select of its own; a program in which it does not is refused (R353). -/
def cvOwned (s : State) (u : CvUnit) : Bool :=
  match cvOp u with
  | none => true
  | some op => (cvOf s u).owner == some op

/-- A feed is never speculative (R139, R354): it waits until every branch of the core has resolved. -/
def cvWaits (s : State) (u : CvUnit) : Bool :=
  match u with
  | .core c _ => branchOpen s c.val
  | .controllerA => false
  | .controllerB => false

/-- CV_SELECT. -/
def execCvSelect (u : CvUnit) (p : Poly) (s : State) : Host.Outcome State Fault Refusal :=
  if ¬ cvRuns u s then .next s
  else if cvWaits s u then .next (stall (.cvSelect u p) s)
  else .next (setCv u { cvSelect p (cvOf s u) with owner := cvOp u } s)

/-- CV_FEED. -/
def execCvFeed (u : CvUnit) (d : CvData) (s : State) : Host.Outcome State Fault Refusal :=
  if ¬ cvRuns u s then .next s
  else if cvWaits s u then .next (stall (.cvFeed u d) s)
  else if ¬ cvOwned s u then .refused (.refusedAtBuild 353)
  else .next (setCv u (cvFeed d (cvOf s u)) s)

/-- CV_READ. -/
def execCvRead (u : CvUnit) (s : State) : Host.Outcome State Fault Refusal :=
  if ¬ cvRuns u s then .next s
  else if cvWaits s u then .next (stall (.cvRead u) s)
  else if ¬ cvOwned s u then .refused (.refusedAtBuild 353)
  else .next (setCv u (cvRead (cvOf s u)) s)

end Sys2Proof.Machine
end

