-- ==== Sys2Proof/Machine/Packets.lean ====
section
/-! DEFINITION. Routing of packets over the torus (R268, R275 to R280). -/

namespace Sys2Proof.Machine

/-- A packet has 1 to 64 blocks (R268) and its destination lies in the machine (R277). -/
def packetOk (s : State) (dest : Coord) (bytes : List Byte) : Bool :=
  decide (1 ≤ blocksOf bytes) && decide (blocksOf bytes ≤ 64) &&
    decide (dest.x < siteExtX s.site) && decide (dest.y < siteExtY s.site) && decide (dest.z < siteExtZ s.site)

/-- A link that this module must route around: one in the down table, or its own port's that is not up (R278, R281). -/
def linkIsDown (s : State) (l : Link) : Bool :=
  s.fabric.down.contains l ||
    (upFrom 0 6).any fun i =>
      decide (linkOf s (Fin.ofNat 6 i) = l) && decide ((getPort s i).phase ≠ .up)

/-- The links of `n` hops in a dimension from a coordinate. -/
def segment (len : Nat) (d : Fin 3) (plus : Bool) : Nat → Coord → List Link
  | 0, _ => []
  | n + 1, c =>
    if plus then ⟨d, c⟩ :: segment len d plus n (Coord.set c d (ringNext len (Coord.get c d)))
    else
      let b := Coord.set c d (ringBack len (Coord.get c d))
      ⟨d, b⟩ :: segment len d plus n b

/-- The direction that the source fixes in one dimension (R277, R278): the one with fewer hops, + on a tie, the other
one where the first holds a down link; none where both do. -/
def chooseDir (s : State) (d : Fin 3) (c : Coord) (t : Nat) : Option Dir :=
  let n := extent s.site d
  let hp := (t + n - Coord.get c d) % n
  let hm := (Coord.get c d + n - t) % n
  if hp = 0 then some .plus
  else
    let okP := !(segment n d true hp c).any (linkIsDown s)
    let okM := !(segment n d false hm c).any (linkIsDown s)
    if hp ≤ hm then (if okP then some .plus else if okM then some .minus else none)
    else (if okM then some .minus else if okP then some .plus else none)

/-- The directions of the three dimensions, x then y then z. -/
def route (s : State) (dest : Coord) : Option (Dir × Dir × Dir) :=
  let c := s.coord
  match chooseDir s 0 c dest.x, chooseDir s 1 { c with x := dest.x } dest.y,
      chooseDir s 2 { c with x := dest.x, y := dest.y } dest.z with
  | some x, some y, some z => some (x, y, z)
  | _, _, _ => none

/-- The port on which a packet leaves a coordinate, if it is not at its destination. -/
def nextPort (c : Coord) (p : Packet) : Option PortId :=
  if c.x ≠ p.dest.x then some (portOf 0 (decide (p.dirX = .plus)))
  else if c.y ≠ p.dest.y then some (portOf 1 (decide (p.dirY = .plus)))
  else if c.z ≠ p.dest.z then some (portOf 2 (decide (p.dirZ = .plus)))
  else none

/-- Whether the hop by which a packet came in over a port crossed the dateline between L − 1 and 0 (R277). -/
def crossedDateline (s : State) (port : PortId) : Bool :=
  let d := portDim port
  let v := Coord.get s.coord d
  if portPlus port then v == extent s.site d - 1 else v == 0

/-- The credit that a block's leaving gives back to the sender of a packet (R276). -/
def returnCredit (port : PortId) (p : Packet) (s : State) : State :=
  sendWord port (.credit [⟨p.cls, p.vc1, blocksOf p.bytes⟩]) s

/-- A packet enters the fabric with the route that its source fixes; none where its destination is unreachable. -/
def launch (cls : TrafficClass) (dest : Coord) (body : PacketBody) (s : State) : Option State :=
  match route s dest with
  | none => none
  | some (x, y, z) =>
    let p : Packet := ⟨cls, s.coord, dest, x, y, z, false, body.use, body.bytes⟩
    match nextPort s.coord p with
    | none => some (emit (.deliver p) s)
    | some port => some (enqueuePacket port p none s)

/-- PACKET_INJECT: the packet takes its route, or stops the job with FAB_UNREACHABLE (R278); without credit or room it
waits in its class's queue. -/
def execPacketInject (cls : TrafficClass) (dest : Coord) (body : PacketBody) (s : State) :
    Host.Outcome State Fault Refusal :=
  if ¬ packetOk s dest body.bytes then .refused (.refusedAtBuild 268)
  else .next ((launch cls dest body s).getD (stopJob Code.fabUnreachable noOp (moduleWhere dest) s))

/-- PACKET_FORWARD: the packet keeps the directions its source fixed; it travels on virtual channel 1 once it has
crossed the dateline of the dimension, and on 0 again when it turns. It waits in the receive buffer of the port that it came
over until it leaves, and its credit goes back as its blocks leave (R276). A packet whose way is down is lost. -/
def execPacketForward (port : PortId) (p : Packet) (s : State) : Host.Outcome State Fault Refusal :=
  match nextPort s.coord p with
  | none => .next s
  | some out =>
    let p' := { p with vc1 := decide (portDim out = portDim port) && (p.vc1 || crossedDateline s port) }
    if (getPort s out.val).phase ≠ .up then .next (returnCredit port p s)
    else .next (enqueuePacket out p' (some (port, p.vc1)) s)

/-- Send bytes to a module of the rink in packets of at most 64 blocks. -/
def sendParts (cls : TrafficClass) (dest : Coord) (use : Nat → PacketUse) : Nat → List (List Byte) → State → State
  | _, [], s => s
  | a, b :: bs, s => sendParts cls dest use (a + b.length) bs ((launch cls dest ⟨use a, b⟩ s).getD s)

/-- What a delivered packet of the offload class does here (R182): parked blocks are written to HBM, and a request is answered
with the bytes. -/
def deliverEffect (p : Packet) (s : State) : State :=
  match p.cls, p.use with
  | .offload, .park base => if base + p.bytes.length ≤ devTop then devWrite base p.bytes s else s
  | .offload, .fetch base len =>
    if base + len ≤ devTop then sendParts .offload p.src .served base (chunks 4096 (devRead s base len)) s else s
  | _, _ => s

/-- PACKET_DELIVER: the packet leaves the port for the mesh of its destination. -/
def execPacketDeliver (port : PortId) (p : Packet) (s : State) : Host.Outcome State Fault Refusal :=
  if p.dest = s.coord then .next (returnCredit port p (deliverEffect p (emit (.deliver p) s))) else .next s

/-! ## Pieces along rings (R290) -/

/-- The coordinate of the neighbour over a port. -/
def neighbour (s : State) (p : PortId) : Coord :=
  let d := portDim p
  let c := s.coord
  let n := extent s.site d
  Coord.set c d (if portPlus p then ringNext n (Coord.get c d) else ringBack n (Coord.get c d))

/-- The way from one coordinate to another in a dimension leads in the + direction: fewer hops, + on a tie. -/
def plusWay (n a b : Nat) : Bool := decide ((b + n - a) % n ≤ (a + n - b) % n)

/-- The module before `c` on the dimension-order way from `src` to it: the last dimension that differs is the one
travelled last. -/
def comesFrom (r : BitVec 4096) (src c : Coord) : Coord :=
  let back (d : Nat) : Coord :=
    let n := extent r d
    Coord.set c d (if plusWay n (Coord.get src d) (Coord.get c d) then ringBack n (Coord.get c d) else ringNext n (Coord.get c d))
  if src.z ≠ c.z then back 2 else if src.y ≠ c.y then back 1 else back 0

/-- The ports by which a piece of `src` goes on from this module: a ring is travelled dimension by dimension and both ways.
`dims` are the dimensions that the operation spans. -/
def onward (s : State) (dims : List (Fin 3)) (src : Coord) : List PortId :=
  (dims.map fun d => [portOf d true, portOf d false]).flatten.filter fun p =>
    siteConnected s.site p.val && neighbour s p != src && comesFrom s.site src (neighbour s p) == s.coord &&
      (portPlus p || neighbour s p != neighbour s (portOf (portDim p) true))

end Sys2Proof.Machine
end

