-- ==== Sys2Proof/Machine/MemSide.lean ====
section
/-! DEFINITION. The memory-side reductions (R246 to R256): segments and closes, the order in which contributions are
applied, and gradient buffers with their presence bitmaps. -/

namespace Sys2Proof.Machine

/-! ## What an operation names (R247) -/

/-- Elements of the destination in a 32 B word. -/
def wordElems (f : Fmt) : Nat := 32 / fmtBytes f

/-- The numbers of the 32 B words of a range. -/
def rangeWords (r : Range) : List Nat := upFrom (r.base / 32) (r.len / 32)

/-- Every word of the operation, in the order of its ranges. -/
def declWords (d : ReduceDecl) : List Nat := (d.ranges.map rangeWords).flatten

/-- The words that a segment covers. -/
def segWords (d : ReduceDecl) (g : Segment) : Nat := g.vals.length / wordElems d.dest

def covers (d : ReduceDecl) (w : Nat) (g : Segment) : Bool :=
  decide (g.addr ≤ 32 * w) && decide (32 * w < g.addr + 32 * segWords d g)

/-- A segment's elements for a word it covers. -/
def segSlice (d : ReduceDecl) (w : Nat) (g : Segment) : List U32 :=
  (g.vals.drop ((32 * w - g.addr) / 32 * wordElems d.dest)).take (wordElems d.dest)

/-- The range that holds all of a segment. -/
def segRange (d : ReduceDecl) (g : Segment) : Option Range :=
  d.ranges.find? fun r => decide (r.base ≤ g.addr) && decide (g.addr + 32 * segWords d g ≤ r.base + r.len)

/-- A list of numbers is strictly rising. -/
def rising : List Nat → Bool
  | [] => true
  | [_] => true
  | a :: b :: rest => decide (a < b) && rising (b :: rest)

/-- The contributor list of the range that holds a device address (R249). -/
def listAt (d : ReduceDecl) (a : Nat) : List Nat :=
  (((d.ranges.zip d.lists).find? fun e => inRange e.1 a).map fun e => e.2).getD []

/-- The combinations of the reduction formats table (R247). -/
def formatsOk (d : ReduceDecl) : Bool :=
  match d.contrib, d.dest with
  | .int32, .int32 => d.gradient.isNone
  | .fp32, .fp32 => d.gradient.isNone || decide (d.red = .sum)
  | .bf16, .fp32 => d.gradient.isNone || decide (d.red = .sum)
  | .fp32, .bf16 => d.gradient.isNone || decide (d.red = .sum)
  | .bf16, .bf16 => d.gradient.isNone || decide (d.red = .sum)
  | _, _ => false

/-- Bytes of a unit's staging buffer that serve reductions, and those that serve the update sweep (R246). -/
def stagingBytes : Nat := 14 * 2 ^ 20
def sweepBytes : Nat := 2 * 2 ^ 20

/-- The spill area lies in STEP ranges and takes the incoming volume less a staging buffer (R251); unordered mode names none
(R253). -/
def spillOk (s : State) (d : ReduceDecl) : Bool :=
  d.unordered ||
    (decide (d.volume ≤ d.spill.len + stagingBytes) && match s.job with
      | none => true
      | some j => covered j.image.stepRanges (j.image.stepRanges.length + 1) d.spill.base d.spill.len)

/-- What is refused when a program with this operation is built (R240, R247, R249, R251). -/
def reduceFault (s : State) (d : ReduceDecl) : Option Nat :=
  firstFault [unless' 247 (formatsOk d),
    unless' 247 (d.ranges.all fun r => decide (r.base % 32 = 0) && decide (r.len % 32 = 0) &&
      decide (r.base + r.len ≤ devTop)),
    unless' 247 (match d.gradient with
      | none => true
      | some (_, base) => d.ranges.all fun r => decide (base ≤ r.base)),
    unless' 240 (d.ranges.all fun r => mayWrite s r.base r.len),
    unless' 249 (decide (d.lists.length = d.ranges.length) && d.lists.all fun l =>
      decide (1 ≤ l.length) && decide (l.length ≤ 1024) && rising l),
    unless' 251 (spillOk s d)]

/-- A segment is a run of whole 32 B words (R247). -/
def segmentFault (s : State) (d : ReduceDecl) (g : Segment) : Option Nat :=
  firstFault [reduceFault s d,
    unless' 247 (decide (g.addr % 32 = 0) && decide (g.vals.length % wordElems d.dest = 0))]

/-! ## Arithmetic (R247) -/

/-- A code of a format widened to the running value's format. -/
def widen (f : Fmt) (x : Nat) : U32 :=
  match f with
  | .bf16 => BitVec.ofNat 32 (65536 * x)
  | _ => BitVec.ofNat 32 x

/-- One application of the reduction. -/
def reduceStep (red : MsuOp) (int : Bool) (a b : U32) : U32 :=
  match red, int with
  | .sum, false => add32 a b
  | .max, false => max32 a b
  | .min, false => min32 a b
  | .sum, true => a + b
  | .max, true => if a.toInt < b.toInt then b else a
  | .min, true => if b.toInt < a.toInt then b else a

/-- A running value in the destination format, and its counts (R247). -/
def reduceOut (f : Fmt) (x : U32) : Cvt :=
  match f with
  | .bf16 => convert .bf16 .ne false 0 (dec32 x)
  | _ => ⟨x.toNat, 0, 0⟩

/-! ## Rinks of sources, and their fate (R299 to R301) -/

/-- The rink number of a machine index, in a machine of several rinks. -/
def rinkOfSource (s : State) (m : Nat) : Nat := m / max 1 (siteExtX s.site * siteExtY s.site)

/-- The rinks of a u32 set. -/
def rinksOf (set : U32) : List Nat := (upFrom 0 32).filter fun z => bitAt set z

/-- What is known of a rink: included, excluded, or not yet decided. -/
inductive Fate where
  | included | excluded | unknown
deriving DecidableEq, Repr

/-- R300: a single 0 vote excludes, as many 1 votes as the active set has members include. -/
def fate (s : State) (r : Nat) : Fate :=
  match s.coll.included with
  | some i => if bitAt i r then .included else .excluded
  | none =>
    let votes := (rinksOf s.coll.active).map fun v => SMap.get 0 s.coll.votes (32 * v + r)
    if votes.any (· == 1) then .excluded
    else if votes.all (· == 2) then .included
    else .unknown

/-- What is known of a source: a source of a replica buffer shares its rink's fate, any other counts as included. -/
def sourceFate (s : State) (d : ReduceDecl) (m : Nat) : Fate :=
  if d.replica then fate s (rinkOfSource s m) else .included

/-! ## Settling (R250) -/

def segsOf (r : MsuRun) (j : Nat) : List Segment := r.segs.filter fun g => g.source == j

/-- The segment count of a source's close. -/
def closeOf (r : MsuRun) (j : Nat) : Option Nat := (r.closes.find? fun c => c.1 == j).map fun c => c.2.count

/-- The length of the unbroken run of sequence numbers from 0 upward. -/
def runLength (seqs : List Nat) : Nat → Nat → Nat
  | 0, n => n
  | fuel + 1, n => if seqs.contains n then runLength seqs fuel (n + 1) else n

/-- The close has arrived with every segment received. -/
def closedFull (r : MsuRun) (j : Nat) : Bool :=
  match closeOf r j with
  | none => false
  | some n =>
    let gs := segsOf r j
    decide (n ≤ runLength (gs.map Segment.seq) gs.length 0)

/-- The unbroken run of a source's segments has passed a word's address in its range. -/
def passed (r : MsuRun) (j w : Nat) : Bool :=
  let gs := segsOf r j
  let n := runLength (gs.map Segment.seq) gs.length 0
  match r.decl.ranges.find? fun g => inRange g (32 * w) with
  | none => false
  | some g => gs.any fun x => decide (x.seq < n) && decide (32 * w < x.addr) && inRange g x.addr

/-- A source has nothing more for a word, or its segment for the word is here; a rink that is excluded has nothing
(R301). -/
def settled (s : State) (r : MsuRun) (j w : Nat) : Bool :=
  match sourceFate s r.decl j with
  | .excluded => true
  | .unknown => false
  | .included => (segsOf r j).any (covers r.decl w) || passed r j w || closedFull r j

/-- The segments applied to a word so far, in the order of application: contributor-list order, up to the first source
that is not settled, or the order of arrival (R250, R253). -/
def appliedTo (s : State) (r : MsuRun) (w : Nat) : List Segment :=
  let live := r.segs.filter fun g => covers r.decl w g && decide (sourceFate s r.decl g.source = .included)
  if r.decl.unordered then live
  else (((listAt r.decl (32 * w)).takeWhile fun j => settled s r j w).map fun j => live.filter fun g => g.source == j).flatten

/-- A word is complete (R252). -/
def wordComplete (s : State) (r : MsuRun) (w : Nat) : Bool := (listAt r.decl (32 * w)).all fun j => settled s r j w

/-! ## Presence (R254, R255) -/

def presentBit (s : State) (bitmap tile : Nat) : Bool := devNat s (bitmap + tile / 8) 1 / 2 ^ (tile % 8) % 2 == 1

/-- Set or clear a tile's presence bit. -/
def putPresent (bitmap : Nat) (b : Bool) (tile : Nat) (s : State) : State :=
  let x := BitVec.ofNat 8 (devNat s (bitmap + tile / 8) 1)
  devWrite (bitmap + tile / 8) [setBit x (tile % 8) b] s

/-- The tile that holds a word of a gradient buffer. -/
def tileOf (d : ReduceDecl) (base w : Nat) : Nat := (32 * w - base) / (1024 * fmtBytes d.dest)

/-- The words of a tile. -/
def tileWords (d : ReduceDecl) (base tile : Nat) : List Nat :=
  upFrom ((base + 1024 * fmtBytes d.dest * tile) / 32) (32 * fmtBytes d.dest)

/-- The tiles to whose words the operation has applied something. -/
def touchedTiles (s : State) (r : MsuRun) (base : Nat) : List Nat :=
  (declWords r.decl).foldl (fun ts w =>
    if (appliedTo s r w).isEmpty then ts else insertNat ts (tileOf r.decl base w)) []

/-- A tile opens: its bit is set, and its words outside the operation's ranges are written +0. -/
def openTile (d : ReduceDecl) (bitmap base tile : Nat) (s : State) : State :=
  (tileWords d base tile).foldl
    (fun t w => if inRanges d.ranges (32 * w) then t else devWrite (32 * w) (List.replicate 32 0) t)
    (putPresent bitmap true tile s)

/-- Open every touched tile whose presence bit is clear. -/
def openTiles (r : MsuRun) (s : State) : MsuRun × State :=
  match r.decl.gradient with
  | none => (r, s)
  | some (bitmap, base) =>
    let new := (touchedTiles s r base).filter fun t => !presentBit s bitmap t
    ({ r with opened := r.opened ++ new }, new.foldl (fun t k => openTile r.decl bitmap base k t) s)

/-! ## Completion (R252, R255) -/

/-- The stored elements of a word. -/
def storedWord (s : State) (f : Fmt) (w : Nat) : List U32 :=
  (upFrom 0 (wordElems f)).map fun i => widen f (devNat s (32 * w + fmtBytes f * i) (fmtBytes f))

/-- A word's first operands: +0 in a tile that this operation opened, and the stored values otherwise. -/
def wordStart (s : State) (r : MsuRun) (w : Nat) : List U32 :=
  match r.decl.gradient with
  | none => storedWord s r.decl.dest w
  | some (_, base) =>
    if r.opened.contains (tileOf r.decl base w) then List.replicate (wordElems r.decl.dest) 0
    else storedWord s r.decl.dest w

/-- A word's running value after every applied contribution. -/
def wordValue (s : State) (r : MsuRun) (w : Nat) : List U32 :=
  (appliedTo s r w).foldl
    (fun acc g => List.zipWith
      (fun a b => reduceStep r.decl.red (r.decl.contrib == .int32) a (widen r.decl.contrib b.toNat)) acc
      (segSlice r.decl w g))
    (wordStart s r w)

/-- Write a complete word in the destination format, once, and count its conversion. -/
def writeWordValue (r : MsuRun) (w : Nat) (s : State) : State :=
  let cs := (wordValue s r w).map (reduceOut r.decl.dest)
  addTally r.decl.op (Tally.sum (cs.map tallyOf))
    (devWrite (32 * w) ((cs.map fun c => leBytes (fmtBytes r.decl.dest) c.code).flatten) s)

/-- A complete word is written unless it lies in a tile to which the operation applied nothing. -/
def dueWord (s : State) (r : MsuRun) (w : Nat) : Bool :=
  !r.written.contains w && wordComplete s r w &&
    match r.decl.gradient with
    | none => true
    | some (_, base) => (touchedTiles s r base).contains (tileOf r.decl base w)

/-- A word whose first operands are poisoned waits for the response to that read (R239, R240). -/
def startPoisoned (s : State) (r : MsuRun) (w : Nat) : Bool :=
  poisoned s (32 * w) 32 && match r.decl.gradient with
    | none => true
    | some (_, base) => !r.opened.contains (tileOf r.decl base w)

def toWrite (s : State) (r : MsuRun) (w : Nat) : Bool := dueWord s r w && !startPoisoned s r w

/-- Do whatever the arrivals so far allow: open tiles, write complete words, and note the operation's completion. -/
def advanceRun (r : MsuRun) (s : State) : MsuRun × State :=
  let (r1, s1) := openTiles r s
  let ws := (declWords r1.decl).filter (toWrite s1 r1)
  let s2 := ws.foldl (fun t w => writeWordValue r1 w t) s1
  let r2 := { r1 with written := r1.written ++ ws }
  ({ r2 with complete := (declWords r1.decl).all fun w => wordComplete s1 r1 w && !dueWord s1 r2 w }, s2)

/-! ## Staging (R246, R251) -/

/-- The unit that serves a word. -/
def unitOfWord (s : State) (w : Nat) : Nat := (unitOf (hashedGib s) (32 * w)).1

/-- The words of a segment to which it is not applied yet. -/
def waitingWords (s : State) (r : MsuRun) (g : Segment) : List Nat :=
  (upFrom (g.addr / 32) (segWords r.decl g)).filter fun w => !(appliedTo s r w).contains g

/-- One item for each unit that serves some of the words. -/
def stagedAt (s : State) (op : U32) (what : Waiting) (per : Nat) (ws : List Nat) : List StagedItem :=
  (upFrom 0 12).filterMap fun k =>
    let n := (ws.filter fun w => unitOfWord s w == k).length
    if n = 0 then none else some ⟨op, k, what, per * n, false⟩

/-- What an operation has waiting: its segments and, of the words that are not complete, the running values, 4 B an
element. -/
def waitingOf (s : State) (r : MsuRun) : List StagedItem :=
  if r.decl.unordered then []
  else
    (r.segs.map fun g =>
      stagedAt s r.decl.op (.segment g.source g.seq) (wordElems r.decl.dest * fmtBytes r.decl.contrib) (waitingWords s r g)).flatten ++
    (((declWords r.decl).filter fun w => !wordComplete s r w && !(appliedTo s r w).isEmpty).map fun w =>
      stagedAt s r.decl.op (.running w) (4 * wordElems r.decl.dest) [w]).flatten

/-- Bytes in a unit's staging buffer. -/
def stagedBytes (staging : List StagedItem) (unit : Nat) : Nat :=
  ((staging.filter fun x => x.unit == unit && !x.spilled).map StagedItem.bytes).sum

/-- An item that waits on stays where it is; a new one is staged, or spilled where the unit's buffer is full. -/
def placeStaged (old : List StagedItem) (acc : List StagedItem) (x : StagedItem) : List StagedItem :=
  let full := decide (stagingBytes < stagedBytes acc x.unit + x.bytes)
  acc ++ [{ x with spilled :=
    match old.find? fun y => y.op == x.op && y.unit == x.unit && y.what == x.what with
    | some y => y.spilled
    | none => full }]

/-- The bytes of a waiting item: a segment's elements, or a running value's. -/
def waitingBytes (s : State) (r : MsuRun) (unit : Nat) : Waiting → List Byte
  | .running w => ((wordValue s r w).map fun x => leBytes 4 x.toNat).flatten
  | .segment source seq =>
    match r.segs.find? fun g => g.source == source && g.seq == seq with
    | none => []
    | some g =>
      (((waitingWords s r g).filter fun w => unitOfWord s w == unit).map fun w =>
        ((segSlice r.decl w g).map fun x => leBytes (fmtBytes r.decl.contrib) x.toNat).flatten).flatten

/-- Write what is newly spilled behind what the operation has spilled before (assumption log 96). -/
def spillItem (r : MsuRun) (s : State) (x : StagedItem) : State :=
  let bs := waitingBytes s r x.unit x.what
  match s.msu.runs.find? fun y => y.decl.op == r.decl.op with
  | none => s
  | some y =>
    let t := devWrite (y.decl.spill.base + y.spilled) (bs.take (y.decl.spill.len - y.spilled)) s
    { t with msu := { t.msu with
        runs := t.msu.runs.map fun z => if z.decl.op = y.decl.op then { z with spilled := z.spilled + bs.length } else z } }

/-- What waits of an operation is placed anew after an arrival. -/
def restage (r : MsuRun) (s : State) : State :=
  let old := s.msu.staging
  let rest := old.filter fun x => x.op != r.decl.op
  let now := ((waitingOf s r).foldl (placeStaged old) rest).drop rest.length
  let t := { s with msu := { s.msu with staging := rest ++ now } }
  (now.filter fun x => x.spilled && !old.any fun y => y.op == x.op && y.unit == x.unit && y.what == x.what).foldl (spillItem r) t

/-! ## Runs -/

def findRun (s : State) (op : U32) : Option MsuRun := s.msu.runs.find? fun r => r.decl.op == op

/-- The run of an operation, new where none has begun. -/
def runOf (s : State) (d : ReduceDecl) : MsuRun := (findRun s d.op).getD ⟨d, [], [], [], [], 0, false⟩

def putRun (r : MsuRun) (s : State) : State :=
  { s with msu := { s.msu with
      runs := if s.msu.runs.any (fun x => x.decl.op == r.decl.op) then
          s.msu.runs.map fun x => if x.decl.op = r.decl.op then r else x
        else s.msu.runs ++ [r] } }

/-- Apply what can be applied, keep the rest, and end the operation's part with its last word (R50, R252). -/
def advanceInto (r : MsuRun) (s : State) : State :=
  let (r', t) := advanceRun r s
  let u := restage r' (putRun r' t)
  if r'.complete ∧ ¬ r.complete then endPart r.decl.op u else u

/-- Every reduction goes on after a word that it reads has been restored. -/
def advanceAll (s : State) : State := s.msu.runs.foldl (fun t r => advanceInto r t) s

/-- The coordinate of a machine index (R287). -/
def machineCoord (s : State) (m : Nat) : Coord :=
  let X := max 1 (siteExtX s.site)
  let Y := max 1 (siteExtY s.site)
  ⟨m % X, m / X % Y, m / (X * Y)⟩

/-- The stop of a program fault in a reduction: the record carries the source as a module (R249, R375). -/
def reduceStop (code : U16) (op : U32) (source : Nat) (s : State) : State :=
  stopJob code op (moduleWhere (machineCoord s source)) s

/-- A source is on the list of the range that a segment lies in; outside every range, on any list. -/
def onList (d : ReduceDecl) (g : Segment) : Bool :=
  match segRange d g with
  | some r => (listAt d r.base).contains g.source
  | none => d.lists.any fun l => l.contains g.source

/-- The ordinal fault of a segment or close once it is in (R249): a source off its range's list, a repeated sequence number, or
one at or above its source's close. -/
def ordinalBad (r : MsuRun) (g : Segment) : Bool :=
  !onList r.decl g || (segsOf r g.source).any (fun x => x.seq == g.seq) ||
    match closeOf r g.source with
    | none => false
    | some n => decide (n ≤ g.seq)

/-- A segment arrives: it is discarded where its rink is excluded (R301), stops the job where it breaks R249, and is
applied or staged otherwise. -/
def segmentIn (d : ReduceDecl) (g : Segment) (s : State) : State :=
  let r := runOf s d
  if d.replica ∧ sourceFate s d g.source = .excluded then s
  else if ordinalBad r g then reduceStop Code.msuOrdinal d.op g.source s
  else if segRange d g = none then reduceStop Code.msuRange d.op g.source s
  else advanceInto { r with segs := r.segs ++ [g] } s

/-- A close arrives (R248, R249). -/
def closeIn (d : ReduceDecl) (source : Nat) (c : Close) (s : State) : State :=
  let r := runOf s d
  if d.replica ∧ sourceFate s d source = .excluded then s
  else if (closeOf r source).isSome ∨ ¬ d.lists.any (fun l => l.contains source) then s
  else if (segsOf r source).any fun g => decide (c.count ≤ g.seq) then reduceStop Code.msuOrdinal d.op source s
  else advanceInto { r with closes := r.closes ++ [(source, c)] } s

/-- What arrives for a step that this module has not begun, or begun again, waits for its start (R251, R292). -/
def arrive (c : Instr) (op : U32) (effect : State) (s : State) : State :=
  match s.job with
  | none => s
  | some j =>
    if j.phase = .boundary ∨ j.phase = .settling then stall c s
    else if acts s op then effect
    else s

/-! ## Clearing (R254) -/

/-- Clear the first `tiles` bits of a bitmap. -/
def clearBits (bitmap tiles : Nat) (s : State) : State :=
  let whole := devWrite bitmap (List.replicate (tiles / 8) 0) s
  (upFrom (8 * (tiles / 8)) (tiles % 8)).foldl (fun t k => putPresent bitmap false k t) whole

/-- Every bit of every gradient buffer that the image declares is cleared, replica buffers included. -/
def clearPresence (s : State) : State :=
  match s.job with
  | none => s
  | some j =>
    let t := j.image.buffers.foldl (fun u b => clearBits b.bitmap b.tiles u) s
    j.image.replica.foldl (fun u b => clearBits b.destBitmap b.tiles (clearBits b.bitmap b.tiles u)) t

end Sys2Proof.Machine
end

