-- ==== Sys2Proof/Machine/Update.lean ====
section
/-! DEFINITION. The update operation (R257 to R263, R302): immediates, the divisor, the three phases of a sweep with its
page stamps, and the rule itself. -/

namespace Sys2Proof.Machine

/-! ## What an operation names (R257, R258) -/

def work8 (u : UpdateCmd) : Bool := isFp8 u.work.fmt

/-- The arrays an operation writes, each from its base with its bytes for one tile. -/
def updateArrays (u : UpdateCmd) : List (Nat × Nat) :=
  [(u.p, 4096), (u.m, 4096), (u.v, 4096), (u.t, 4), (u.work.addr, 1024 * fmtBytes u.work.fmt)] ++
    (if work8 u then [(u.work.exps, 32)] else [])

/-- A span lies in one of the ranges. -/
def spanIn (rs : List Range) (a n : Nat) : Bool := rs.any fun r => decide (r.base ≤ a) && decide (a + n ≤ r.base + r.len)

/-- The gradient buffer and the presence bitmap of an operation. -/
def gradSpan (u : UpdateCmd) : Range := ⟨u.grad, (if u.gradBf16 then 2048 else 4096) * u.tiles⟩
def bitmapSpan (u : UpdateCmd) : Range := ⟨u.bitmap, ceilDiv u.tiles 8⟩

/-- Every range of device memory that an operation covers. -/
def updateSpans (u : UpdateCmd) : List Range :=
  gradSpan u :: bitmapSpan u :: (updateArrays u).map fun a => ⟨a.1, a.2 * u.tiles⟩

/-- Two lists of ranges have a byte in common. -/
def rangesMeet (rs qs : List Range) : Bool := rs.any fun r => qs.any fun q => overlaps q r.base r.len

/-- No two update operations of a step program cover overlapping ranges (R257). -/
def coversDisjoint (p : StepProgram) : Bool :=
  p.imms.all fun a => p.imms.all fun b => a.op == b.op || !rangesMeet a.covers b.covers

/-- The operation covers what the program declares for it. -/
def withinCovers (p : StepProgram) (u : UpdateCmd) : Bool :=
  match p.imms.find? fun t => t.op == u.op with
  | none => true
  | some t => (updateSpans u).all fun r => spanIn t.covers r.base r.len

/-- What is refused when a program with this operation is built (R257). -/
def updateFault (s : State) (u : UpdateCmd) : Option Nat :=
  match s.job with
  | none => none
  | some j =>
    firstFault [unless' 257 (decide (1 ≤ u.tiles) && decide (u.tiles ≤ 2 ^ 26)),
      unless' 257 (decide (u.work.rnd ≠ .sr) && (work8 u || decide (u.work.fmt = .bf16))),
      unless' 65 (expModeOk u.work.exp),
      unless' 257 ((updateArrays u).all fun a => decide (a.1 % 65536 = 0) && spanIn j.image.stateRanges a.1 (a.2 * u.tiles)),
      unless' 257 (spanIn j.image.stepRanges u.grad (gradSpan u).len && spanIn j.image.stepRanges u.bitmap (bitmapSpan u).len),
      unless' 257 (match programOf j.image s.status.step.toNat with
        | none => true
        | some p => coversDisjoint p && withinCovers p u)]

/-- Row s − first_step of the operation's immediate table; none where step s has no row (R258). -/
def immRow (s : State) (op : U32) : Option ImmRow :=
  match s.job with
  | none => none
  | some j =>
    let step := s.status.step.toNat
    match selectStep j.image.selector step, programOf j.image step with
    | some e, some p => (p.imms.find? fun t => t.op == op).bind fun t => t.rows[step - e.1.toNat]?
    | _, _ => none

/-- A row that R258 accepts. -/
def rowOk (r : ImmRow) : Bool :=
  let unit (x : U32) : Bool := !FV.lt (dec32 x) FV.zero && FV.lt (dec32 x) (.num false 1)
  let fin (x : U32) : Bool := (dec32 x).isFinite
  unit r.b1 && unit r.b2 && fin r.eps && !FV.lt (dec32 r.eps) FV.zero && fin r.lr && fin r.lam

/-! ## The divisor (R259, R302) -/

/-- w_r of a rink: 1, or in carry mode what its closes carry (R303); none before they are in. -/
def rinkWeight (s : State) (r : Nat) : Option Nat :=
  match s.job with
  | none => some 1
  | some j => if Desc.carry j.desc then (s.coll.weights.find? fun e => e.1 == r).map fun e => e.2 else some 1

/-- Bytes of a tile of a replica buffer. -/
def replicaTile (b : ReplicaBuf) : Nat := if b.wide then 4096 else 2048

/-- The replica buffer that holds a gradient buffer, by its number (R297, R302). -/
def replicaAt (s : State) (grad : Nat) : Option Nat :=
  s.job.bind fun j => j.image.replica.findIdx? fun b => inRange ⟨b.dest, b.tiles * replicaTile b⟩ grad

/-- The operation of the step's program that reduces replica buffer `i`. -/
def replicaOp (s : State) (i : Nat) : Option Nat :=
  ((stepOps s).find? fun d => d.kind == .replica i).map OpDecl.op

/-- Every member's chunk of a replica buffer is on this module (R301). -/
def replicaReady (s : State) (i : Nat) : Bool :=
  match replicaOp s i with
  | none => false
  | some op => s.coll.gathers.any fun g => g.op.toNat == op && (rinksOf s.coll.active).all fun z => g.got.contains z

/-- The sum of the weights of a set of rinks; none before all are known. -/
def weightSum (s : State) : List Nat → Option Nat
  | [] => some 0
  | r :: rs =>
    match rinkWeight s r, weightSum s rs with
    | some w, some n => some (w + n)
    | _, _ => none

/-- n for a buffer: 1 outside a replica buffer, and the sum of the weights of the inclusion set within one (R302); none
before the inclusion set is formed and the buffer gathered. -/
def divisorOf (s : State) (grad : Nat) : Option U32 :=
  match siteSeveral s.site, replicaAt s grad with
  | true, some i =>
    if replicaReady s i then s.coll.included.bind fun set => (weightSum s (rinksOf set)).map (BitVec.ofNat 32) else none
  | _, _ => some 1

/-! ## The rule (R260) -/

/-- beta_pow over the bits of t from bit n − 1 down to bit 0. -/
def betaPow (b t : U32) : Nat → U32 → U32
  | 0, r => r
  | i + 1, r =>
    let r2 := mul32 r r
    betaPow b t i (if bitAt t i then mul32 r2 b else r2)

def betaPow32 (b t : U32) : U32 := betaPow b t 32 one32

/-- The state of one parameter. -/
structure Param where
  p : U32
  m : U32
  v : U32
deriving DecidableEq, Repr

/-- The update of one parameter: gradient `g0`, divisor `n`, and the two bias corrections. -/
def updateParam (row : ImmRow) (n c1 c2 g0 : U32) (x : Param) : Param :=
  let om1 := sub32 one32 row.b1
  let om2 := sub32 one32 row.b2
  let g := ne32 (FV.div (dec32 g0) (FV.ofRat (n.toNat : Rat)))
  let m := fma32 row.b1 x.m (mul32 om1 g)
  let v := fma32 row.b2 x.v (mul32 om2 (mul32 g g))
  let den := add32 (sqrt32 (div32 v c2)) row.eps
  let w := fma32 row.lam x.p (div32 (div32 m c1) den)
  ⟨fnma32 row.lr w x.p, m, v⟩

/-- The counter's next value. -/
def nextCount (t : U32) : U32 := if t.toNat < 0xFFFFFFFF then t + 1 else t

/-- u32 values in device memory. -/
def devU32s (s : State) (a n : Nat) : List U32 := (upFrom 0 n).map fun i => BitVec.ofNat 32 (devNat s (a + 4 * i) 4)

/-- A tile's gradient values, widened. -/
def tileGrads (s : State) (u : UpdateCmd) (i : Nat) : List U32 :=
  if u.gradBf16 then (upFrom 0 1024).map fun k => widen .bf16 (devNat s (u.grad + 2048 * i + 2 * k) 2)
  else devU32s s (u.grad + 4096 * i) 1024

/-- Little-endian bytes of u32 values. -/
def bytesOf32 (xs : List U32) : List Byte := (xs.map fun x => leBytes 4 x.toNat).flatten

/-- The working copy of a tile (R261): its bytes, its tile exponents and its counts. -/
def workBytes (w : WorkCopy) (ps : List U32) : List Byte × List Byte × Tally :=
  outBytes ⟨⟨.hbm, w.addr⟩, w.fmt, 1024, ⟨.hbm, w.exps⟩, 32⟩ (some ⟨w.rnd, w.sat, w.exp⟩) (ps.map OutVal.of)
    (List.replicate 1024 0)

/-- The new parameters of a tile. -/
def tileParams (s : State) (u : UpdateCmd) (row : ImmRow) (n : U32) (i : Nat) (t : U32) : List Param :=
  let c1 := sub32 one32 (betaPow32 row.b1 t)
  let c2 := sub32 one32 (betaPow32 row.b2 t)
  let old := List.zipWith (fun p mv => Param.mk p mv.1 mv.2) (devU32s s (u.p + 4096 * i) 1024)
    ((devU32s s (u.m + 4096 * i) 1024).zip (devU32s s (u.v + 4096 * i) 1024))
  List.zipWith (updateParam row n c1 c2) (tileGrads s u i) old

/-- Sweep one present tile. -/
def sweepTile (u : UpdateCmd) (row : ImmRow) (n : U32) (i : Nat) (s : State) : State :=
  let t := nextCount (BitVec.ofNat 32 (devNat s (u.t + 4 * i) 4))
  let ps := tileParams s u row n i t
  let (wb, we, c) := workBytes u.work (ps.map Param.p)
  let s1 := devWrite (u.t + 4 * i) (leBytes 4 t.toNat) s
  let s2 := devWrite (u.m + 4096 * i) (bytesOf32 (ps.map Param.m)) s1
  let s3 := devWrite (u.v + 4096 * i) (bytesOf32 (ps.map Param.v)) s2
  let s4 := devWrite (u.p + 4096 * i) (bytesOf32 (ps.map Param.p)) s3
  let s5 := devWrite (u.work.addr + 1024 * fmtBytes u.work.fmt * i) wb s4
  let s6 := if work8 u then devWrite (u.work.exps + 32 * i) we s5 else s5
  addTally u.op c (putPresent u.bitmap false i s6)

/-! ## Pages (R262, R263) -/

/-- The pages of a span. -/
def pagesOf (a n : Nat) : List Nat :=
  if n = 0 then [] else upFrom (a / 65536) ((a + n - 1) / 65536 + 1 - a / 65536)

/-- The tiles whose presence bit is set. -/
def presentTiles (s : State) (u : UpdateCmd) : List Nat := (upFrom 0 u.tiles).filter (presentBit s u.bitmap)

/-- The pages that the sweep of a tile writes. -/
def tilePages (u : UpdateCmd) (i : Nat) : List Nat :=
  ((updateArrays u).map fun a => pagesOf (a.1 + a.2 * i) a.2).flatten

/-- The pages of a sweep over some tiles, in rising order, each with the units that sweep a tile in it. -/
def sweepPages (u : UpdateCmd) (tiles : List Nat) : List SweepPage :=
  let ps := (tiles.map fun i => (tilePages u i).map fun p => (p, i % 12)).flatten
  let nums := ps.foldl (fun a e => insertNat a e.1) []
  nums.map fun p => ⟨p, (ps.filter fun e => e.1 == p).foldl (fun a e => insertNat a e.2) [], false, [], false⟩

def putStamp (page : Nat) (x : U64) (s : State) : State :=
  { s with hbm := { s.hbm with stamps := SMap.set 0 s.hbm.stamps page x } }

/-- Close a page's stamp with the running step. A stamp of 0 shows no step, so the pages of step 0 are noted
beside it (assumption log 20). -/
def closeStamp (page : Nat) (s : State) : State :=
  let t := putStamp page s.status.step s
  if s.status.step = 0 then { t with recovery := { t.recovery with swept := insertNat t.recovery.swept page } } else t

def openStamp (step : U64) : U64 := step ||| 0x8000000000000000

/-- The refresh of the committed step has this page to send (R312). -/
def refreshDue (s : State) (page : Nat) : Bool :=
  SMap.get 0 s.hbm.stamps page == s.recovery.refreshStep &&
    (decide (s.recovery.refreshStep ≠ 0) || s.recovery.swept.contains page)

/-- The page's refresh is still to be sent, or not acknowledged yet (R313). -/
def refreshHolds (s : State) (page : Nat) : Bool :=
  s.recovery.unacked.contains page || (s.recovery.refreshing && refreshDue s page)

/-- Open the pages of a sweep that no refresh holds (R263, R313), and let each unit that has opened every page
it owns signal so. -/
def openPages (w : Sweep) (s : State) : Sweep × State :=
  let ready := w.pages.filter fun p => !p.opened && !refreshHolds s p.page
  let s1 := ready.foldl (fun t p => putStamp p.page (openStamp s.status.step) t) s
  let pages := w.pages.map fun p => if ready.contains p then { p with opened := true } else p
  let units := (upFrom 0 12).filter fun k =>
    !w.announced.contains k && pages.all fun p => p.opened || !(p.page % 12 == k)
  ({ w with pages := pages, announced := w.announced ++ units },
    emitAll (units.map fun k => .send (.opened w.cmd.op k)) s1)

def putSweep (w : Sweep) (s : State) : State :=
  { s with msu := { s.msu with
      sweeps := if s.msu.sweeps.any (fun x => x.cmd.op == w.cmd.op) then
          s.msu.sweeps.map fun x => if x.cmd.op = w.cmd.op then w else x
        else s.msu.sweeps ++ [w] } }

def findSweep (s : State) (op : U32) : Option Sweep := s.msu.sweeps.find? fun w => w.cmd.op == op

def openInto (w : Sweep) (s : State) : State :=
  let (w', t) := openPages w s
  putSweep w' t

/-- The update of a step whose n is 0: the presence bits of the range are cleared (R259). -/
def updateEffect (u : UpdateCmd) (row : ImmRow) (n : U32) (s : State) : State :=
  if n = 0 then endPart u.op (clearBits u.bitmap u.tiles s)
  else openInto ⟨u, row, n, sweepPages u (presentTiles s u), [], [], false⟩ s

/-- The operation waits: for the reductions below it into its gradient buffer (R252), and for a poisoned word of its bitmap
(R239). -/
def updateWaits (s : State) (u : UpdateCmd) : Bool :=
  awaitsReduction s u.op (gradSpan u).base (gradSpan u).len || awaitsReduction s u.op (bitmapSpan u).base (bitmapSpan u).len ||
    poisoned s (bitmapSpan u).base (bitmapSpan u).len

/-- UPDATE_OPERATION: a bad row stops the job; the sweep's first phase begins, or waits for its gradients, with the
inclusion set that divides them. -/
def execUpdateOperation (u : UpdateCmd) (s : State) : Host.Outcome State Fault Refusal :=
  match updateFault s u with
  | some k => .refused (.refusedAtBuild k)
  | none =>
    if ¬ acts s u.op ∨ (findSweep s u.op).isSome then .next s
    else
      match immRow s u.op with
      | none => .next (stopJob Code.updNoRow u.op 0 s)
      | some row =>
        if ¬ rowOk row then .next (stopJob Code.updImmediate u.op 0 s)
        else
          match updateWaits s u, divisorOf s u.grad with
          | false, some n => .next (updateEffect u row n s)
          | _, _ => .next (stall (.updateOperation u) s)

/-- The second phase: every present tile is swept, and each unit sends done for each page it wrote. -/
def runSweep (w : Sweep) (s : State) : State :=
  let t := (presentTiles s w.cmd).foldl (fun u i => sweepTile w.cmd w.row w.n i u) s
  emitAll ((w.pages.map fun p => p.units.map fun k => Out.send (.pageDone w.cmd.op p.page k)).flatten) t

/-- A sweep has closed its pages. -/
def sweepOver (w : Sweep) : Bool := w.started && w.pages.all fun p => p.closed

/-- The operation's part ends with its sweep (R50). -/
def afterSweep (w : Sweep) (s : State) : State := if sweepOver w then endPart w.cmd.op s else s

/-- A word that the sweep reads is poisoned: it waits for the response to that read (R239, R240). -/
def sweepPoisoned (s : State) (u : UpdateCmd) : Bool :=
  (presentTiles s u).any fun i =>
    poisoned s (u.grad + (if u.gradBf16 then 2048 else 4096) * i) (if u.gradBf16 then 2048 else 4096) ||
      [(u.p, 4096), (u.m, 4096), (u.v, 4096), (u.t, 4)].any fun a => poisoned s (a.1 + a.2 * i) a.2

/-- OPENED_SIGNAL: the opened signal of a unit arrives; with all twelve the sweep runs. -/
def execOpenedSignal (op : U32) (unit : StackId) (s : State) : Host.Outcome State Fault Refusal :=
  match findSweep s op with
  | none => .next s
  | some w =>
    if ¬ inStep s ∨ ¬ w.announced.contains unit.val ∨ w.signals.contains unit.val then .next s
    else
      let w1 := { w with signals := w.signals ++ [unit.val], started := w.signals.length == 11 }
      if w1.started ∧ sweepPoisoned s w.cmd then .next (stall (.openedSignal op unit) s)
      else .next (if w1.started then afterSweep w1 (runSweep w1 (putSweep w1 s)) else putSweep w1 s)

/-- A page's owner closes its stamp; in a machine of several rinks it reads the page back and forms its CRC (R326). -/
def closePage (page : Nat) (s : State) : State :=
  let t := closeStamp page s
  if siteSeveral s.site then
    { t with msu := { t.msu with pageCrcs := SMap.put t.msu.pageCrcs page (crc32c (devRead s (65536 * page) 65536)) } }
  else t

/-- PAGE_DONE_SIGNAL: done from a sweeping unit reaches the page's owner, which closes the page with the last one. -/
def execPageDoneSignal (op : U32) (page : Nat) (unit : StackId) (s : State) : Host.Outcome State Fault Refusal :=
  match findSweep s op with
  | none => .next s
  | some w =>
    match w.pages.find? fun p => p.page == page with
    | none => .next s
    | some p =>
      if ¬ inStep s ∨ ¬ w.started ∨ ¬ p.units.contains unit.val ∨ p.done.contains unit.val then .next s
      else
        let p1 := { p with done := p.done ++ [unit.val], closed := p.done.length + 1 == p.units.length }
        let w1 := { w with pages := w.pages.map fun q => if q.page = page then p1 else q }
        .next (if p1.closed then afterSweep w1 (closePage page (putSweep w1 s)) else putSweep w1 s)

/-- Every sweep of the step has closed its pages. -/
def sweepsClosed (s : State) : Bool := s.msu.sweeps.all sweepOver

end Sys2Proof.Machine
end

