-- ==== Sys2Proof/Machine/Collective.lean ====
section
/-! DEFINITION. The collective engine (R289 to R293): gathers, reductions, broadcasts and barriers. -/

namespace Sys2Proof.Machine

/-! ## Pieces and their presence bits (R289) -/

/-- The presence bits of the tiles that a span of a gradient buffer touches. -/
def piecePresence (s : State) (g : GradPlace) (addr len : Nat) : PresencePiece :=
  let tb := max 1 g.tileBytes
  let lo := (addr - g.base) / tb
  let hi := ceilDiv (addr + len - g.base) tb
  ⟨g.bitmap, lo, (upFrom lo (hi - lo)).map (presentBit s g.bitmap), (addr - g.base) % tb != 0,
    (addr + len - g.base) % tb != 0⟩

/-- A piece's presence bits become those of its owner; a tile that two pieces share is present where either says so
(DESIGN CHOICE, assumption log 97). -/
def putPresence (p : PresencePiece) (s : State) : State :=
  let last := p.first + p.bits.length - 1
  ((upFrom p.first p.bits.length).zip p.bits).foldl (fun t e =>
    let shared := (p.cutLow && e.1 == p.first) || (p.cutHigh && e.1 == last)
    if shared && !e.2 then t else putPresent p.bitmap e.2 e.1 t) s

def putPiecePresence (p : Piece) (s : State) : State :=
  match p.presence with
  | none => s
  | some q => putPresence q s

/-! ## Rings (R290) -/

/-- The members of a gather in the order of concatenation: L of the rink, or z over the active set. -/
def gatherMembers (s : State) (ring : Bool) : List Nat :=
  if ring then rinksOf s.coll.active else upFrom 0 s.rinkSize

def gatherSelf (s : State) (ring : Bool) : Nat := if ring then s.rink else s.L

/-- The dimensions that a gather spans: z for a replica ring, and those of the rink otherwise (R286). -/
def gatherDims (s : State) (ring : Bool) : List (Fin 3) :=
  if ring then [2] else if siteSeveral s.site then [0, 1] else [0, 1, 2]

/-- The module that a piece comes from. -/
def pieceSource (s : State) (ring : Bool) (i : Nat) : Coord := if ring then { s.coord with z := i } else s.coordOf i

/-- A piece goes on along the rings, its bytes unchanged. -/
def forwardPiece (ring : Bool) (op : U32) (p : Piece) (s : State) : State :=
  match onward s (gatherDims s ring) (pieceSource s ring p.index) with
  | [] => s
  | ports => emit (.piece ports op p) s

/-! ## Gathers (R289, R290, R292) -/

def gatherOf (s : State) (op : U32) : GatherRun := (s.coll.gathers.find? fun g => g.op == op).getD ⟨op, []⟩

/-- A member's piece of a gather is in. -/
def hasPiece (s : State) (op : U32) (i : Nat) : Bool := (gatherOf s op).got.contains i

/-- Note that a member's piece is in; with the last one the operation's part ends (R50). -/
def notePiece (ring : Bool) (op : U32) (i : Nat) (s : State) : State :=
  let g : GatherRun := ⟨op, (gatherOf s op).got ++ [i]⟩
  let t := { s with coll := { s.coll with gathers := g :: s.coll.gathers.filter fun x => x.op != op } }
  if (gatherMembers s ring).all fun m => g.got.contains m then endPart op t else t

/-- The place of member k's piece behind the pieces before it. -/
def pieceOffset (lens : List Nat) (k : Nat) : Nat := (lens.take k).sum

/-- A member's rank in a gather. -/
def gatherRank (s : State) (ring : Bool) (i : Nat) : Option Nat := (gatherMembers s ring).findIdx? (· == i)

/-- Another member's piece arrives: it is written behind those before it, with its presence bits, and goes on. -/
def takePiece (g : GatherCmd) (s : State) (p : Piece) : State :=
  match gatherRank s g.ring p.index with
  | none => s
  | some k =>
    if p.index = gatherSelf s g.ring ∨ hasPiece s g.op p.index ∨ p.bytes.length ≠ nthD 0 g.lens k then s
    else
      notePiece g.ring g.op p.index
        (forwardPiece g.ring g.op p (putPiecePresence p (locWrite g.dest (pieceOffset g.lens k) p.bytes s)))

/-- This module's own piece goes out, and to its place in the destination. -/
def sendOwn (g : GatherCmd) (s : State) : State :=
  let me := gatherSelf s g.ring
  match gatherRank s g.ring me with
  | none => s
  | some k =>
    if hasPiece s g.op me then s
    else
      let n := nthD 0 g.lens k
      let p : Piece := ⟨me, locRead s g.mine 0 n, g.grad.map fun q => piecePresence s q g.mine.addr n⟩
      notePiece g.ring g.op me (forwardPiece g.ring g.op p (locWrite g.dest (pieceOffset g.lens k) p.bytes s))

/-- A collective's place: local HBM where the program may write, or a core's scratchpad (R127, R233, R240). -/
def deliveryFault (s : State) (write : Bool) (l : Loc) (n : Nat) : Option Nat :=
  firstFault [unless' 127 (match l.space with
      | .drain _ => false
      | .ring _ _ => false
      | .scratch _ => true
      | .hbm => true),
    spanFault s l n,
    unless' 240 (!write || decide (l.space ≠ .hbm) || mayWrite s l.addr n)]

def gatherFault (s : State) (g : GatherCmd) : Option Nat :=
  firstFault [unless' 289 (decide (g.lens.length = (gatherMembers s g.ring).length)),
    deliveryFault s true g.dest g.lens.sum,
    deliveryFault s false g.mine (nthD 0 g.lens ((gatherRank s g.ring (gatherSelf s g.ring)).getD 0))]

/-- What an operation sends waits for the reductions below it (R252), and for the response to a poisoned word (R239). -/
def sourceWaits (s : State) (op : U32) (l : Loc) (n : Nat) : Bool :=
  decide (l.space = .hbm) && (poisoned s l.addr n || awaitsReduction s op l.addr n)

/-- An all-gather: the pieces that are in are taken at once, whether or not this module's cores have issued the operation
(R292); its own goes out when they have. -/
def gatherEffect (g : GatherCmd) (s : State) : State :=
  let t := g.others.foldl (takePiece g) s
  let n := nthD 0 g.lens ((gatherRank s g.ring (gatherSelf s g.ring)).getD 0)
  if ¬ g.issue then t
  else if sourceWaits t g.op g.mine n then stall (.allGather { g with others := [] }) t
  else sendOwn g t

/-! ## Reductions (R289, R290) -/

/-- A contribution element at a device address. -/
def contribAt (s : State) (f : Fmt) (a : Nat) : U32 := BitVec.ofNat 32 (devNat s a (fmtBytes f))

/-- Elements of a span of the destination. -/
def spanElems (d : ReduceDecl) (len : Nat) : Nat := len / fmtBytes d.dest

/-- Elements of a whole piece. -/
def pieceElems (d : ReduceDecl) : Nat := (d.ranges.map fun r => spanElems d r.len).sum

/-- Where module `l` keeps its piece of a range. -/
def pieceBase (s : State) (r : ScatterCmd) (l : Nat) (g : Range) : Nat := g.base + r.stride * l - r.stride * s.L

/-- The segments that this module sends for the piece of module `l`: one for each range, in order, from element `k` of
the piece on. -/
def scatterSegs (s : State) (r : ScatterCmd) (l : Nat) : Nat → Nat → List Range → List Segment
  | _, _, [] => []
  | seq, k, g :: gs =>
    let d := r.decl
    let n := spanElems d g.len
    let vals := (upFrom 0 n).map fun i =>
      contribAt s d.contrib (r.src + fmtBytes d.contrib * (l * pieceElems d + k + i))
    ⟨s.M, seq, pieceBase s r l g, vals⟩ :: scatterSegs s r l (seq + 1) (k + n) gs

/-- The machine index of the module with rink-local index `l`. -/
def machineOf (s : State) (l : Nat) : Nat := machineIndex s.site (s.coordOf l)

/-- What this module sends to another. -/
def scatterOut (s : State) (r : ScatterCmd) (l : Nat) : List Out :=
  let gs := scatterSegs s r l 0 0 r.decl.ranges
  (gs.map fun g => .segment (machineOf s l) r.decl.op g) ++ [.close (machineOf s l) r.decl.op s.M ⟨gs.length, 0⟩]

/-- Take a segment while the step runs (an earlier one may have stopped the job). -/
def feedSegment (d : ReduceDecl) (s : State) (g : Segment) : State := if inStep s then segmentIn d g s else s

/-- Take a module's segments and its close, with the weight that it carries. -/
def feedContribution (d : ReduceDecl) (weight : Nat) (s : State) (c : Contribution) : State :=
  let t := c.segs.foldl (feedSegment d) s
  if inStep t then closeIn d c.source ⟨c.segs.length, weight⟩ t else t

/-- The modules of the rink in increasing M. -/
def rinkMachines (s : State) : List Nat := (upFrom 0 s.rinkSize).map (machineOf s)

/-- Every range of a rink's reduction lists every module of the rink (R289), and every module's piece lies in visible
memory (R233). -/
def scatterFault (s : State) (r : ScatterCmd) : Option Nat :=
  firstFault [reduceFault s r.decl, unless' 289 (!r.decl.replica && r.decl.lists.all fun l => l == rinkMachines s),
    unless' 233 ((upFrom 0 s.rinkSize).all fun l => r.decl.ranges.all fun g =>
      decide (r.stride * s.L ≤ g.base + r.stride * l) && decide (pieceBase s r l g + g.len ≤ devTop)),
    unless' 233 (decide (r.src + fmtBytes r.decl.contrib * (s.rinkSize * pieceElems r.decl) ≤ devTop))]

/-- This module's own pieces go out, once in the step: its own to its units, the others' to their modules. -/
def sendContribution (r : ScatterCmd) (s : State) : State :=
  if s.coll.scattered.contains r.decl.op then s
  else
    let own : Contribution := ⟨s.M, scatterSegs s r s.L 0 0 r.decl.ranges⟩
    let out := ((upFrom 0 s.rinkSize).filter fun l => l != s.L).map (scatterOut s r)
    feedContribution r.decl 0 (emitAll out.flatten { s with coll := { s.coll with scattered := s.coll.scattered ++ [r.decl.op] } }) own

/-- The contributions that are here are taken at once, and this module's own goes out (R292). -/
def scatterEffect (r : ScatterCmd) (s : State) : State :=
  sendContribution r (r.others.foldl (feedContribution r.decl 0) s)

/-- This module's input is complete and clean. -/
def scatterWaits (s : State) (r : ScatterCmd) : Bool :=
  !s.coll.scattered.contains r.decl.op &&
    sourceWaits s r.decl.op ⟨.hbm, r.src⟩ (fmtBytes r.decl.contrib * (s.rinkSize * pieceElems r.decl))

/-- REDUCE_SCATTER: contributions that are not yet here arrive as segments and closes of their own. -/
def execReduceScatter (r : ScatterCmd) (s : State) : Host.Outcome State Fault Refusal :=
  match scatterFault s r with
  | some k => .refused (.refusedAtBuild k)
  | none =>
    if ¬ acts s r.decl.op then .next s
    else if scatterWaits s r then .next (stall (.reduceScatter r) s)
    else .next (scatterEffect r s)

/-! ## All-reduce (R289) -/

/-- The device bytes of the ranges of an operation. -/
def rangesBytes (s : State) (rs : List Range) : List Byte := (rs.map fun g => devRead s g.base g.len).flatten

/-- Write the bytes of a summed piece to its ranges on this module. -/
def writeRanges (r : ScatterCmd) (l : Nat) : List Range → List Byte → State → State
  | [], _, s => s
  | g :: gs, bs, s =>
    writeRanges r l gs (bs.drop g.len) (devWrite (pieceBase s r l g) (bs.take g.len) s)

def sumPresence (r : ScatterCmd) (s : State) : Option PresencePiece :=
  match r.decl.gradient with
  | none => none
  | some (bitmap, base) =>
    match r.decl.ranges.head?, r.decl.ranges.getLast? with
    | some a, some b =>
      some (piecePresence s ⟨bitmap, base, 1024 * fmtBytes r.decl.dest⟩ a.base (b.base + b.len - a.base))
    | _, _ => none

/-- The operation's own piece is complete on this module. -/
def runComplete (s : State) (op : U32) : Bool :=
  match findRun s op with
  | none => false
  | some r => r.complete

/-- Another module's sum arrives: it is written to its ranges, with its presence bits, and goes on. -/
def takeSum (r : ScatterCmd) (s : State) (p : Piece) : State :=
  if p.index = s.L ∨ s.rinkSize ≤ p.index ∨ hasPiece s r.decl.op p.index then s
  else
    notePiece false r.decl.op p.index
      (forwardPiece false r.decl.op p (putPiecePresence p (writeRanges r p.index r.decl.ranges p.bytes s)))

/-- This module's sum goes out as soon as it is complete. -/
def sendSum (r : ScatterCmd) (s : State) : State :=
  if hasPiece s r.decl.op s.L then s
  else notePiece false r.decl.op s.L (forwardPiece false r.decl.op ⟨s.L, rangesBytes s r.decl.ranges, sumPresence r s⟩ s)

/-- An all-reduce of an operation waits already. -/
def sumWaiting (s : State) (op : U32) : Bool :=
  s.stalled.any fun i => match i with
    | .allReduce r _ => r.decl.op == op
    | _ => false

/-- The reduce-scatter of an all-reduce, the sums that are in, and this module's sum once it is complete; until then the
operation waits for it. -/
def allReduceEffect (r : ScatterCmd) (sums : List Piece) (s : State) : State :=
  let t := sums.foldl (takeSum r) (scatterEffect r s)
  if ¬ inStep t then t
  else if runComplete t r.decl.op then sendSum r t
  else if sumWaiting t r.decl.op then t
  else stall (.allReduce { r with others := [] } []) t

/-- An all-reduce leaves the whole sum on every module, where a program may write (R240, R289). -/
def allReduceFault (s : State) (r : ScatterCmd) : Option Nat :=
  firstFault [scatterFault s r, unless' 240 ((upFrom 0 s.rinkSize).all fun l => r.decl.ranges.all fun g =>
    mayWrite s (pieceBase s r l g) g.len)]

/-- ALL_REDUCE: a reduce-scatter, and the gather of the sums. -/
def execAllReduce (r : ScatterCmd) (sums : List Piece) (s : State) : Host.Outcome State Fault Refusal :=
  match allReduceFault s r with
  | some k => .refused (.refusedAtBuild k)
  | none =>
    if ¬ acts s r.decl.op then .next s
    else if scatterWaits s r then .next (stall (.allReduce r sums) s)
    else .next (allReduceEffect r sums s)

/-! ## Broadcast and barriers (R289, R291) -/

/-- The piece of a broadcast is noted; it is the whole operation. -/
def noteBroadcast (op : U32) (root : Nat) (s : State) : State :=
  endPart op { s with coll := { s.coll with gathers := ⟨op, [root]⟩ :: s.coll.gathers } }

/-- BROADCAST: every module receives the root's bytes, which go on along the rings (R290). The root sends them when its
cores issue the operation; elsewhere the command brings them, or, without them, only says that the cores have come to it. -/
def execBroadcast (op : U32) (root : Nat) (addr : Loc) (len : Nat) (bytes : List Byte) (s : State) :
    Host.Outcome State Fault Refusal :=
  match firstFault [unless' 289 (decide (root < s.rinkSize)), deliveryFault s (decide (root ≠ s.L)) addr len] with
  | some k => .refused (.refusedAtBuild k)
  | none =>
    if root ≠ s.L then
      .next (arrive (.broadcast op root addr len bytes) op
        (if hasPiece s op root ∨ bytes.length ≠ len then s
          else noteBroadcast op root (forwardPiece false op ⟨root, bytes, none⟩ (locWrite addr 0 bytes s))) s)
    else if ¬ acts s op ∨ hasPiece s op root then .next s
    else if sourceWaits s op addr len then .next (stall (.broadcast op root addr len bytes) s)
    else .next (noteBroadcast op root (forwardPiece false op ⟨root, locRead s addr 0 len, none⟩ s))

/-- BARRIER: this module enters. -/
def execBarrier (op : U32) (s : State) : Host.Outcome State Fault Refusal :=
  if ¬ acts s op ∨ s.coll.entered.contains op then .next s
  else
    .next (emit (.send (.barrierEnter op)) { s with coll := { s.coll with entered := s.coll.entered ++ [op] } })

/-- This module is the root of the barrier: the marshal of a rink, the time root where it spans the machine (R291). -/
def isRoot (s : State) (machine : Bool) : Bool := if machine then s.time.root else s.recovery.marshal

/-- The release time: the root's own timebase, which it sends on; the one received elsewhere. -/
def releaseTime (machine : Bool) (release : U64) (s : State) : U64 :=
  if isRoot s machine then s.time.value else release

/-- A released barrier is no longer entered, and its release time is known; with it the operation's part ends. -/
def noteRelease (op : U32) (rel : U64) (s : State) : State :=
  endPart op { s with coll := { s.coll with
    entered := s.coll.entered.filter (· ≠ op)
    released := SMap.put s.coll.released op.toNat rel } }

/-- The agreement on a cut point starts the dump (R56). -/
def startDump (op : U32) (s : State) : State :=
  match s.job with
  | none => s
  | some j =>
    if j.phase = .atCut ∧ op.toNat = Desc.cutOp j.desc then { s with job := some { j with phase := .dumping } } else s

/-- The second barrier confirms the snapshot (R293). -/
def confirmSnapshot (op : U32) (s : State) : State :=
  if op = noOp then { s with coll := { s.coll with snapshot := s.coll.snapshotAt, snapshotAt := none } } else s

/-- Some step of the job has committed. -/
def hasCommitted (s : State) : Bool :=
  match s.job with
  | none => false
  | some j => decide (s.status.committed + 1 ≠ BitVec.ofNat 64 (Desc.firstStep j.desc))

/-- CONSISTENT_SNAPSHOT: with the commit barrier passed and every page of the refresh acknowledged, the module enters
the second barrier (R293). -/
def execConsistentSnapshot (s : State) : Host.Outcome State Fault Refusal :=
  if ¬ hasCommitted s ∨ s.recovery.refreshing ∨ s.recovery.unacked ≠ [] ∨ s.coll.snapshotAt.isSome ∨
      s.coll.snapshot = some s.status.committed then .next s
  else
    .next (emit (.send (.barrierEnter noOp))
      { s with coll := { s.coll with snapshotAt := some s.status.committed, entered := s.coll.entered ++ [noOp] } })

end Sys2Proof.Machine
end

