-- ==== Sys2Proof/Machine/Window.lean ====
section
/-! DEFINITION. Sliding windows (R148 to R155): window positions, and the vectors that the window gatherer delivers. -/

namespace Sys2Proof.Machine

/-! ## Positions (R149, R150) -/

/-- u·(I − 1) + pb + pa − dl·(k − 1). -/
def windowSpan (d : WindowDim) : Int := (d.u : Int) * ((d.i : Int) - 1) + d.pb + d.pa - (d.dl : Int) * ((d.k : Int) - 1)

/-- The output extent of a dimension; below 1 where no window fits. -/
def outExtent (d : WindowDim) : Int := windowSpan d / (d.s : Int) + 1

/-- The input element that output `o`, tap `j` reads in a dimension; none for a zero position. -/
def tapElem (d : WindowDim) (o j : Nat) : Option Nat :=
  let z : Int := (o : Int) * d.s + (j : Int) * d.dl - d.pb
  if 0 ≤ z ∧ z ≤ (d.u : Int) * ((d.i : Int) - 1) ∧ z % (d.u : Int) = 0 then some (z / (d.u : Int)).toNat else none

/-- The digits of a row-major number over extents, outermost first. -/
def digitsOf : List Nat → Nat → List Nat
  | [], _ => []
  | e :: es, n =>
    let below := es.foldl (· * ·) 1
    (n / below % e) :: digitsOf es n

/-- The row-major number of digits. -/
def numberOf : List Nat → List Nat → Nat
  | _ :: es, d :: ds => d * es.foldl (· * ·) 1 + numberOf es ds
  | _, _ => 0

def allSome : List (Option Nat) → Option (List Nat)
  | [] => some []
  | none :: _ => none
  | some x :: xs => (allSome xs).map fun ys => x :: ys

/-- The input position of output position `o` and tap `j`, both row-major; none for a zero position. -/
def tapPosition (dims : List WindowDim) (o j : Nat) : Option Nat :=
  let os := digitsOf (dims.map fun d => (outExtent d).toNat) o
  let js := digitsOf (dims.map WindowDim.k) j
  (allSome ((dims.zip (os.zip js)).map fun (d, a, b) => tapElem d a b)).map (numberOf (dims.map WindowDim.i))

def tapCount (dims : List WindowDim) : Nat := (dims.map WindowDim.k).foldl (· * ·) 1
def outCount (dims : List WindowDim) : Nat := (dims.map fun d => (outExtent d).toNat).foldl (· * ·) 1
def inCount (dims : List WindowDim) : Nat := (dims.map WindowDim.i).foldl (· * ·) 1

/-- The ranges of R149. -/
def dimOk (gradient : Bool) (d : WindowDim) : Bool :=
  decide (1 ≤ d.i) && decide (d.i ≤ 65535) && decide (1 ≤ d.k) && decide (d.k ≤ 15) && decide (1 ≤ d.s) &&
    decide (d.s ≤ 16) && decide (1 ≤ d.dl) && decide (d.dl ≤ 255) && decide (1 ≤ d.u) && decide (d.u ≤ 16) &&
    (if gradient then decide (-1023 ≤ d.pb) && decide (d.pb ≤ 4095) && decide (-1023 ≤ d.pa) && decide (d.pa ≤ 4095)
     else decide (0 ≤ d.pb) && decide (d.pb ≤ 1023) && decide (0 ≤ d.pa) && decide (d.pa ≤ 1023)) &&
    decide (1 ≤ outExtent d)

def dimsFault (gradient : Bool) (dims : List WindowDim) : Option Nat :=
  unless' 149 (decide (1 ≤ dims.length) && decide (dims.length ≤ 3) && dims.all (dimOk gradient) &&
    decide (tapCount dims ≤ 1024))

/-! ## Feature maps (R151) -/

/-- Channels of a position in memory. -/
def padChannels (f : Fmt) (c : Nat) : Nat := if isFp8 f then 32 * ceilDiv c 32 else 16 * ceilDiv c 16

/-- The bytes of a feature map, and of its tile exponents. -/
def mapBytes (t : Tensor) (channels positions : Nat) : Nat := fmtBytes t.fmt * (positions * padChannels t.fmt channels)
def mapExps (t : Tensor) (channels positions : Nat) : Nat :=
  if isFp8 t.fmt then positions * padChannels t.fmt channels / 32 else 0

/-- The element of a feature map at a position and channel. -/
def mapElem (s : State) (t : Tensor) (channels pos ch : Nat) : WinElem :=
  let e := pos * padChannels t.fmt channels + ch
  let b := fmtBytes t.fmt
  ⟨BitVec.ofNat 32 (locNat s t.loc (b * e) b),
    if isFp8 t.fmt then BitVec.ofNat 8 (locNat s t.exps (e / 32) 1) else 127, false⟩

/-- A zero position's element (R150). -/
def zeroElem : WinElem := ⟨0, 127, false⟩

/-- The map's spans lie where the operation may name them. -/
def mapFault (ok : Loc → Bool) (s : State) (t : Tensor) (channels positions : Nat) : Option Nat :=
  firstFault [spanWhere ok s t.loc (mapBytes t channels positions),
    if isFp8 t.fmt then spanWhere ok s t.exps (mapExps t channels positions) else none]

def mapUses (t : Tensor) (channels positions : Nat) : List SpanUse :=
  [⟨t.loc, mapBytes t channels positions, 0⟩, ⟨t.exps, mapExps t channels positions, 0⟩]

/-! ## The gatherer -/

/-- C_g and C_p of a windowed operation (R151). -/
def groupChannels (c : WindowCmd) : Nat := c.channels / max 1 c.groups
def paddedGroup (c : WindowCmd) : Nat :=
  if c.wide then 16 * ceilDiv (groupChannels c) 16 else 32 * ceilDiv (groupChannels c) 32

/-- The output positions of the row tile that holds a position: 32 consecutive ones, or fewer at the end (R155). -/
def rowTile (dims : List WindowDim) (o : Nat) : List Nat :=
  let first := o / 32 * 32
  upFrom first (min 32 (outCount dims - first))

/-- A tap is pruned for a row tile when it addresses a zero position for every position of the tile (R155). -/
def prunedTap (dims : List WindowDim) (o j : Nat) : Bool := (rowTile dims o).all fun p => (tapPosition dims p j).isNone

/-- Contraction element κ of an output position. -/
def windowElem (s : State) (c : WindowCmd) (o kappa : Nat) : WinElem :=
  let cp := paddedGroup c
  let ch := kappa % cp
  let e :=
    if groupChannels c ≤ ch then zeroElem
    else
      match tapPosition c.dims o (kappa / cp) with
      | none => zeroElem
      | some p => mapElem s c.map c.channels p (c.group * groupChannels c + ch)
  { e with idle := !c.column && (decide (groupChannels c ≤ ch) || prunedTap c.dims o (kappa / cp)) }

/-- The first output positions of the row tiles that the controller's stream names (R148). -/
def originsOf (c : WindowCmd) : List Nat := (affineAddrs c.origins).map Int.toNat

/-- The output positions that are delivered. -/
def windowOuts (c : WindowCmd) : List Nat := ((originsOf c).map (rowTile c.dims)).flatten

/-- The row form: one vector for each output position; the column form: one vector for contraction element κ (R152). -/
def windowVectors (s : State) (c : WindowCmd) : List (List WinElem) :=
  if c.column then [(windowOuts c).map fun o => windowElem s c o c.kappa]
  else (windowOuts c).map fun o => (upFrom 0 (tapCount c.dims * paddedGroup c)).map fun k => windowElem s c o k

def windowFmt : Fmt → Bool
  | .e4m3 => true
  | .e5m2 => true
  | .bf16 => true
  | .fp16 => true
  | .fp32 => false
  | .int32 => false

def windowFault (s : State) (c : WindowCmd) : Option Nat :=
  let core := c.ctx.core
  let n := inCount c.dims
  firstFault [dimsFault c.gradient c.dims, unless' 67 (windowFmt c.map.fmt), unless' 84 (c.wide || isFp8 c.map.fmt),
    unless' 149 (decide (1 ≤ c.groups) && decide (1 ≤ c.channels) && c.channels % c.groups == 0 &&
      decide (1 ≤ c.outChannels) && c.outChannels % c.groups == 0 && decide (c.group < c.groups)),
    unless' 137 (decide (c.origins.levels.length ≤ 5)),
    unless' 148 ((affineAddrs c.origins).all fun a =>
      decide (0 ≤ a) && decide (a < outCount c.dims) && decide (a % 32 = 0)),
    unless' 151 (!c.column || decide (c.kappa < tapCount c.dims * paddedGroup c)),
    mapFault (inScratch core) s c.map c.channels n,
    unless' 130 (!c.column || blockedSpan s c.map.loc (mapBytes c.map c.channels n))]

/-- WINDOW_GATHER. -/
def windowRun (c : WindowCmd) : EngineRun where
  engine := .gatherer
  ctx := c.ctx
  fault s := windowFault s c
  reads _ := mapUses c.map c.channels (inCount c.dims)
  writes _ := []
  ready _ := true
  stop _ := none
  effect s := { s with cores := { s.cores with
    window := SMap.set ⟨.e4m3, []⟩ s.cores.window c.ctx.core.val ⟨c.map.fmt, windowVectors s c⟩ } }

def execWindowGather (c : WindowCmd) (s : State) : Host.Outcome State Fault Refusal :=
  runEngine (.windowGather c) (windowRun c) s

end Sys2Proof.Machine
end

