-- ==== Sys2Proof/Machine/Groom.lean ====
section
/-! DEFINITION. The Groom codec (R172 to R182): block order, the encoder, the decoder, and groomed stores and loads. -/

namespace Sys2Proof.Machine

/-! ## Modes and classes (R176) -/

/-- Block size in bytes. -/
def groomSize : GroomMode → Nat
  | .g8 => 64
  | .g6 => 48
  | .g4 => 32
  | .g3 => 24
  | .g2 => 16

/-- b[0] to b[7]. -/
def groomWidths : GroomMode → List Nat
  | .g8 => [17, 12, 11, 10, 9, 8, 6, 5]
  | .g6 => [15, 10, 9, 8, 7, 6, 4, 3]
  | .g4 => [17, 10, 8, 6, 5, 4, 2, 0]
  | .g3 => [17, 8, 7, 5, 4, 3, 0, 0]
  | .g2 => [16, 8, 6, 4, 2, 0, 0, 0]

/-- σ_max = 19 − b[1]. -/
def sigMax (m : GroomMode) : Nat := 19 - nthD 0 (groomWidths m) 1

def isSpatial : GroomShape → Bool
  | .spatial _ _ _ _ => true
  | .sequence _ _ => false

/-- The coefficients of a class in field order. -/
def classFields (spatial : Bool) (m : Nat) : List Nat :=
  if spatial then
    ((upFrom 0 (m + 1)).map fun u => 8 * u + m) ++ (upFrom 0 m).map fun i => 8 * m + (m - 1 - i)
  else upFrom (m * m) (2 * m + 1)

/-- The fields of a block: each coefficient with its width, in field order, none of width 0. -/
def groomFields (mode : GroomMode) (spatial : Bool) : List (Nat × Nat) :=
  ((upFrom 0 8).map fun m =>
    let b := nthD 0 (groomWidths mode) m
    if b = 0 then [] else (classFields spatial m).map fun k => (k, b)).flatten

/-! ## Walsh functions (R177) -/

def wal (a i bits : Nat) : Int := if popcount bits (bitrev bits (a ^^^ (a >>> 1)) &&& i) % 2 = 0 then 1 else -1

def walsh (spatial : Bool) (k n : Nat) : Int :=
  if spatial then wal (k / 8) (n / 8) 3 * wal (k % 8) (n % 8) 3 else wal k n 6

/-! ## Encoding (R177) -/

def two128 : Rat := pow2 128

/-- A NaN, an infinity or a magnitude of 2^128 or more makes a NaN block. -/
def groomBad : FV → Bool
  | .nan => true
  | .inf _ => true
  | .num _ m => decide (two128 ≤ m)

/-- Coefficient k of the samples. -/
def coefAt (spatial : Bool) (ss : List Int) (k : Nat) : Int :=
  (((upFrom 0 64).zip ss).map fun (n, s) => s * walsh spatial k n).sum

/-- The quotient of a coefficient at a shift. -/
def quantAt (c : Int) (sh : Nat) : Int := rneInt ((c : Rat) / pow2 sh)

/-- A σ at which every AC coefficient fits its field. -/
def sigFits (fields : List (Nat × Nat)) (cs : List (Nat × Int)) (t : Nat) : Bool :=
  (fields.zip cs).all fun (f, c) =>
    f.1 == 0 || decide ((rneInt ((c.2 : Rat) * pow2 ((f.2 : Int) + t - 19))).natAbs ≤ 2 ^ (f.2 - 1) - 1)

/-- The largest σ that fits, from `t` down; 0 where none does. -/
def findSig (fields : List (Nat × Nat)) (cs : List (Nat × Int)) : Nat → Nat
  | 0 => 0
  | t + 1 => if sigFits fields cs (t + 1) then t + 1 else findSig fields cs t

/-- Pack the coefficient fields from a bit position upward. -/
def packFields (sig : Nat) : List ((Nat × Nat) × (Nat × Int)) → Nat → Nat
  | [], _ => 0
  | ((k, b), (_, c)) :: rest, pos =>
    let sh := if k = 0 then 19 - b else 19 - b - sig
    let lim : Int := 2 ^ (b - 1) - 1
    let q := clampInt (-lim) lim (quantAt c sh)
    (BitVec.ofInt b q).toNat * 2 ^ pos + packFields sig rest (pos + b)

/-- groom_encode: the block as a number, bit 0 lowest. -/
def groomEncode (mode : GroomMode) (spatial : Bool) (xs : List FV) : Nat :=
  if xs.any groomBad then 0xFF
  else
    let a := groupMax xs
    if a = 0 then 0
    else
      let e := min (max (flog2 a) (-126)) 127
      let ss := xs.map fun x => clampInt (-4095) 4095 (rneInt (x.toRat * pow2 (11 - e)))
      let fields := groomFields mode spatial
      let cs := fields.map fun f => (f.1, coefAt spatial ss f.1)
      let sig := findSig fields cs (sigMax mode)
      (e + 127).toNat + 2 ^ 8 * sig + packFields sig (fields.zip cs) 12

/-! ## Decoding (R178) -/

/-- The coefficients D[k] of a block, with their numbers. -/
def unpackFields (block sig : Nat) : List (Nat × Nat) → Nat → List (Nat × Int)
  | [], _ => []
  | (k, b) :: rest, pos =>
    let q := signed b (block / 2 ^ pos % 2 ^ b)
    let sh := if k = 0 then 19 - b else 19 - b - sig
    (k, q * 2 ^ sh) :: unpackFields block sig rest (pos + b)

/-- groom_decode: 64 exact values. -/
def groomDecode (mode : GroomMode) (spatial : Bool) (block : Nat) : List FV :=
  let hdr := block % 256
  if hdr = 0xFF then List.replicate 64 .nan
  else if hdr = 0 then List.replicate 64 FV.zero
  else
    let e : Int := (hdr : Int) - 127
    let sig := min (block / 2 ^ 8 % 16) (sigMax mode)
    let ds := unpackFields block sig (groomFields mode spatial) 12
    (upFrom 0 64).map fun n =>
      FV.ofRat (((ds.map fun (k, d) => d * walsh spatial k n).sum : Rat) * pow2 (e - 17))

/-! ## Block order (R173) -/

/-- Elements of a tensor of a shape. -/
def shapeCount : GroomShape → Nat
  | .spatial t h w c => t * h * w * c
  | .sequence rows d => rows * d

def shapeBlocks : GroomShape → Nat
  | .spatial t h w c => t * ceilDiv h 8 * ceilDiv w 8 * c
  | .sequence rows d => rows * ceilDiv d 64

/-- The element number at block `i`, index `n`; none for padding. -/
def blockElem (sh : GroomShape) (i n : Nat) : Option Nat :=
  match sh with
  | .spatial _ h w c =>
    let wb := ceilDiv w 8
    let hb := ceilDiv h 8
    let ch := i % c
    let bw := i / c % wb
    let bh := i / c / wb % hb
    let t := i / c / wb / hb
    let y := 8 * bh + n / 8
    let x := 8 * bw + n % 8
    if y < h ∧ x < w then some (((t * h + y) * w + x) * c + ch) else none
  | .sequence _ d =>
    let per := ceilDiv d 64
    let e := 64 * (i % per) + n
    if e < d then some (i / per * d + e) else none

/-- The extents of a shape, outermost first. -/
def shapeExtents : GroomShape → List Nat
  | .spatial t h w c => [t, h, w, c]
  | .sequence rows d => [rows, d]

/-- The place in the command's tensor of an element of the groomed tensor; none where the part does not hold it. -/
def partElem (c : GroomCmd) (e : Nat) : Option Nat :=
  let ds := (digitsOf (shapeExtents c.shape) e).zip c.part
  if ds.all fun x => decide (x.2.1 ≤ x.1) && decide (x.1 < x.2.1 + x.2.2) then
    some (numberOf (c.part.map fun p => p.2) (ds.map fun x => x.1 - x.2.1))
  else none

/-- The element of the command's tensor at block `i`, index `n`; none for padding, and for what the part leaves out. -/
def cmdElem (c : GroomCmd) (i n : Nat) : Option Nat := (blockElem c.shape i n).bind (partElem c)

/-- The blocks that hold an element of the part, in increasing number. -/
def partBlocks (c : GroomCmd) : List Nat :=
  (upFrom 0 (shapeBlocks c.shape)).filter fun i => (upFrom 0 64).any fun n => (cmdElem c i n).isSome

/-- The values of a block, padding as +0. -/
def blockValues (s : State) (c : GroomCmd) (i : Nat) : List FV :=
  (upFrom 0 64).map fun n =>
    match cmdElem c i n with
    | none => FV.zero
    | some e => tensorValue s c.elems e

/-! ## Stores and loads -/

/-- Groomed source formats (R174). -/
def groomFmt : Fmt → Bool
  | .bf16 => true
  | .e4m3 => true
  | .e5m2 => true
  | .fp16 => false
  | .fp32 => false
  | .int32 => false

/-- Bytes of the groomed tensor, and of the part's blocks. -/
def groomBytes (c : GroomCmd) : Nat := groomSize c.mode * shapeBlocks c.shape
def partBytes (c : GroomCmd) : Nat := groomSize c.mode * (partBlocks c).length

/-- The address of block i (R173). -/
def blockAddr (c : GroomCmd) (i : Nat) : Nat := c.base + groomSize c.mode * i

/-- A part lies in its tensor and has elements. -/
def partOk (c : GroomCmd) : Bool :=
  let es := shapeExtents c.shape
  c.part.length == es.length && (c.part.zip es).all fun x => decide (1 ≤ x.1.2) && decide (x.1.1 + x.1.2 ≤ x.2)

def groomFault (s : State) (c : GroomCmd) : Option Nat :=
  firstFault [unless' 174 (groomFmt c.elems.fmt), unless' 173 (c.base % 64 == 0), unless' 173 (partOk c),
    unless' 173 (c.elems.n == (c.part.map fun p => p.2).foldl (· * ·) 1),
    unless' 172 (inScratch c.ctx.core c.elems.loc && (!isFp8 c.elems.fmt || inScratch c.ctx.core c.elems.exps)),
    tensorFault s c.ctx.core c.elems,
    match c.home with
    | .own => none
    | .peer p => unless' 182 (decide (p < s.rinkSize) && decide (p ≠ s.L) && decide (c.base + groomBytes c ≤ devTop))]

/-- An address of local HBM that the program states outright lies in it (R233). -/
def groomPlaceFault (c : GroomCmd) : Option Nat :=
  unless' 233 (c.home != .own || decide (c.base + groomBytes c ≤ devTop))

/-- A groomed store writes whole blocks: each block it writes has all its elements in the part (R180). -/
def groomStoreFault (s : State) (c : GroomCmd) : Option Nat :=
  firstFault [groomFault s c, groomPlaceFault c, unless' 180 ((partBlocks c).all fun i =>
    (upFrom 0 64).all fun n => (blockElem c.shape i n).isNone || (cmdElem c i n).isSome)]

/-- A groomed load into an FP8 destination covers whole groups of it (R174): what it writes ends at a row's end or at a
group's. A row's short last group counts as whole (DESIGN CHOICE, assumption log 85). -/
def groomLoadFault (s : State) (c : GroomCmd) : Option Nat :=
  firstFault [groomFault s c,
    unless' 174 (!isFp8 c.elems.fmt || c.elems.n % max 1 c.elems.rowLen % 32 == 0)]

/-- The bytes of block i, encoded. -/
def encodeBlock (s : State) (c : GroomCmd) (i : Nat) : List Byte :=
  leBytes (groomSize c.mode) (groomEncode c.mode (isSpatial c.shape) (blockValues s c i))

/-- Runs of consecutive numbers of a rising list: the first of each and how many. -/
def runsOf : List Nat → List (Nat × Nat)
  | [] => []
  | x :: xs =>
    match runsOf xs with
    | (y, n) :: rest => if y = x + 1 then (x, n + 1) :: rest else (x, 1) :: (y, n) :: rest
    | [] => [(x, 1)]

/-- The encoded bytes of a run of blocks. -/
def encodeRun (s : State) (c : GroomCmd) (r : Nat × Nat) : List Byte := ((upFrom r.1 r.2).map (encodeBlock s c)).flatten

/-- The part's blocks, encoded, with their places. -/
def encodeParts (s : State) (c : GroomCmd) : List (Nat × List Byte) :=
  (runsOf (partBlocks c)).map fun r => (blockAddr c r.1, encodeRun s c r)

/-- The blocks go to local HBM, or to a peer as offload traffic (R182). -/
def storeBlocks (c : GroomCmd) (s : State) : State :=
  let ps := encodeParts s c
  match c.home with
  | .own => ps.foldl (fun t p => devWrite p.1 p.2 t) s
  | .peer p => emitAll (ps.map fun e => .parkBlocks p e.1 e.2) s

/-- The spans of local HBM that a groomed store writes. -/
def groomWrites (c : GroomCmd) : List (Loc × Nat) :=
  match c.home with
  | .own => (runsOf (partBlocks c)).map fun r => (⟨.hbm, blockAddr c r.1⟩, groomSize c.mode * r.2)
  | .peer _ => []

/-- GROOMED_STORE: it is never speculative (R181). -/
def groomStoreRun (c : GroomCmd) : EngineRun where
  engine := .groom
  ctx := c.ctx
  fault s := groomStoreFault s c
  reads _ := tensorUses c.elems true
  writes _ := groomWrites c
  ready _ := true
  stop _ := none
  effect s := storeBlocks c s

def execGroomedStore (c : GroomCmd) (s : State) : Host.Outcome State Fault Refusal :=
  runEngine (.groomedStore c) (groomStoreRun c) s

/-- The blocks of the part as local HBM holds them. -/
def readBlocks (s : State) (c : GroomCmd) : List Byte :=
  ((partBlocks c).map fun i => devRead s (blockAddr c i) (groomSize c.mode)).flatten

/-- The exact values of the part from its blocks, in element order. -/
def decodeAll (c : GroomCmd) (blocks : List Byte) : List FV :=
  let dec := (chunks (groomSize c.mode) blocks).map fun b => groomDecode c.mode (isSpatial c.shape) (ofLe b)
  let pairs := (((partBlocks c).zip dec).map fun (i, vs) =>
    ((upFrom 0 64).zip vs).filterMap fun (n, v) => (cmdElem c i n).map fun e => (e, v)).flatten
  (upFrom 0 c.elems.n).map fun e => ((pairs.find? fun p => p.1 == e).map fun p => p.2).getD FV.zero

/-- Write the decoded elements in the source format (R174): nearest even, saturating, computed exponents, and no
counts. -/
def groomWrite (c : GroomCmd) (blocks : List Byte) (s : State) : State :=
  let vs := (decodeAll c blocks).map fun v => (⟨v, false⟩ : OutVal)
  let (bs, es, _) := outBytes c.elems (some ⟨.ne, true, .computed⟩) vs (vs.map fun _ => 0)
  locWrite c.elems.exps 0 es (locWrite c.elems.loc 0 bs s)

/-- The spans of local HBM that a groomed load reads. -/
def groomReads (c : GroomCmd) : List SpanUse :=
  match c.home with
  | .own => (runsOf (partBlocks c)).map fun r => ⟨⟨.hbm, blockAddr c r.1⟩, groomSize c.mode * r.2, 0⟩
  | .peer _ => []

/-- The blocks reach the destination: from local HBM, or from the peer that has been asked for them (R182). -/
def loadBlocks (c : GroomCmd) (s : State) : State :=
  match c.home with
  | .own => groomWrite c (readBlocks s c) s
  | .peer p => groomWrite c c.peerBlocks
      (emitAll ((runsOf (partBlocks c)).map fun r => .fetchBlocks p (blockAddr c r.1) (groomSize c.mode * r.2)) s)

/-- GROOMED_LOAD. -/
def groomLoadRun (c : GroomCmd) : EngineRun where
  engine := .groom
  ctx := c.ctx
  fault s := firstFault [groomLoadFault s c, groomPlaceFault c]
  reads _ := groomReads c
  writes _ := []
  ready _ := true
  stop _ := none
  effect s := loadBlocks c s

def execGroomedLoad (c : GroomCmd) (s : State) : Host.Outcome State Fault Refusal :=
  runEngine (.groomedLoad c) (groomLoadRun c) s

end Sys2Proof.Machine
end

