-- ==== Sys2Proof/Machine/CoreCtl.lean ====
section
/-! DEFINITION. The core controller (R135 to R143): issue of engine commands, the glide window with its speculative loads,
mispredictions, and time reads (R39). -/

namespace Sys2Proof.Machine

/-! ## Address streams (R137) -/

/-- An address of one of the command's streams lies outside its space. -/
def streamsOutside (s : State) (c : IssueCmd) : Bool :=
  c.addresses.any fun a => (streamAddrs s c.ctx.core a).any (addrOutside s c.ctx.core a.space 1)

/-- The status of an address outside its space: SE_ADDR_RANGE for the stream engine, CC_ADDR_RANGE for every other
consumer. -/
def addrStatus : Engine → U16
  | .stream => Code.seAddrRange
  | _ => Code.ccAddrRange

/-! ## Queues (R136, R146) -/

/-- A command enters its engine's queue and holds a reference to the active bank. -/
def enqueue (e : Engine) (core : Nat) (op : U32) (s : State) : State :=
  let k := engineNo e
  let t := setCtl core (fun c => { c with queues := SMap.set [] c.queues k (SMap.get [] c.queues k ++ [op]) }) s
  let b := t.banks
  { t with banks :=
      if b.active then { b with bank1 := { b.bank1 with refs := b.bank1.refs ++ [op] } }
      else { b with bank0 := { b.bank0 with refs := b.bank0.refs ++ [op] } } }

/-- The memory-side units and the collective engine take a command at once: their work is carried out as its data
arrives (R250, R292), so nothing of it stays in a core's queue. -/
def takenAtOnce : Engine → Bool
  | .memory => true
  | .collective => true
  | _ => false

def queueOf (k : CoreCtl) (e : Engine) : List U32 := SMap.get [] k.queues (engineNo e)

/-! ## Controller state (R138, R139, R141) -/

/-- Set address-generator channels. -/
def setGens (gs : List (Nat × Fin 4 × U64)) (m : SMap U64) : SMap U64 :=
  gs.foldl (fun m g => SMap.set 0 m g.2.1.val g.2.2) m

/-- A write of instruction `p` is behind no unresolved branch. -/
def unspeculative (branches : List Nat) (p : Nat) : Bool := branches.all fun b => decide (p ≤ b)

/-- Writes that are speculative no longer leave the write buffer for the data memory, in order. -/
def settleWrites (c : CoreCtl) : CoreCtl :=
  { c with
    writeBuf := c.writeBuf.filter fun w => !unspeculative c.branches w.1
    dataMem := (c.writeBuf.filter fun w => unspeculative c.branches w.1).foldl (fun m w => Mem.write 0 m w.2.1 [w.2.2]) c.dataMem }

/-- Of the branches older than instruction `pos`, those that `keep` names are unresolved; the others have resolved as
predicted. -/
def resolve (pos : Nat) (keep : List Nat) (c : CoreCtl) : CoreCtl :=
  let open' := keep.foldl insertNat (c.branches.filter fun b => decide (pos < b))
  settleWrites { c with branches := open', genSaved := c.genSaved.filter fun g => open'.contains g.1 }

/-- The controller's own state behind a command: its unresolved branches with the generator positions at each, its
generator positions, and its data writes. -/
def advanceCtl (c : IssueCmd) (k : CoreCtl) : CoreCtl :=
  if c.held then k
  else
    let fresh := c.unresolved.filter fun b => !k.branches.contains b
    let at' (b : Nat) : SMap U64 := setGens (c.gens.filter fun g => decide (g.1 < b)) k.genPos
    resolve c.pos c.unresolved
      { k with
        writeBuf := k.writeBuf ++ c.writes
        genSaved := k.genSaved ++ fresh.map fun b => (b, at' b)
        genPos := setGens c.gens k.genPos }

/-- The command is behind a branch that is not resolved. -/
def speculative (c : IssueCmd) (k : CoreCtl) : Bool := c.unresolved.any fun b => k.branches.contains b

/-- The commands of a core that wait in its window. -/
def windowOf (s : State) (core : Nat) : List IssueCmd :=
  s.stalled.filterMap fun i => match i with
    | .engineCommandIssue c => if c.held ∧ c.ctx.core.val = core then some c else none
    | _ => none

/-- The oldest instruction of a core that has not retired, as the model holds them: unresolved branches, speculative loads
and waiting commands. -/
def oldest (s : State) (core : Nat) (k : CoreCtl) : Option Nat :=
  (k.branches ++ (k.loads.map SpecLoad.id) ++ (windowOf s core).map IssueCmd.pos).min?

/-- The window holds the command (R138, R139): it lies at most 64 instructions beyond the oldest one that has not retired,
there are at most four unresolved branches, and the write buffer's 64 entries, one for a byte (DESIGN CHOICE, assumption
log 83), hold what is speculative. -/
def windowHolds (s : State) (c : IssueCmd) (k : CoreCtl) : Bool :=
  (match oldest s c.ctx.core.val k with
    | none => true
    | some p => decide (c.pos ≤ p + 64)) &&
    decide (k.branches.length ≤ 4) && decide (k.writeBuf.length ≤ 64)

/-! ## Loads (R139, R140) -/

/-- Slots that a load takes: ⌈L / 4096⌉, of its groomed bytes for a groomed load (R181). -/
def loadSlots (l : LoadCmd) : Nat := ceilDiv l.len 4096

def freeSlots (c : CoreCtl) : List Nat := (upFrom 0 16).filter fun i => !(SMap.get ⟨0, false, []⟩ c.slots i).held

/-- A load's bytes lie outside local HBM. -/
def loadOutside (l : LoadCmd) : Bool := decide (devTop < l.addr + l.len)

/-- A load reads a poisoned word: its response is HBM_READ_RETURN's. -/
def loadPoisoned (s : State) (l : LoadCmd) : Bool := poisoned s l.addr l.len

/-- A speculative load fetches its bytes into shadow slots under a fresh tag; one outside local HBM is not sent. -/
def startSpec (s : State) (c : IssueCmd) (l : LoadCmd) (k : CoreCtl) : CoreCtl :=
  let out := loadOutside l
  let mine := if out then [] else (freeSlots k).take (loadSlots l)
  let parts := chunks 4096 (devRead s l.addr l.len)
  { k with
    slots := (mine.zip parts).foldl (fun m e => SMap.set ⟨0, false, []⟩ m e.1 ⟨k.nextTag, true, e.2⟩) k.slots
    loads := k.loads ++ [⟨c.pos, c.ctx, l, mine, k.nextTag, out, !out && loadPoisoned s l⟩]
    nextTag := k.nextTag + 1 }

/-- The bytes of a load reach its destination: a plain copy, or a groomed decode (R181). -/
def loadWrite (core : Core) (l : LoadCmd) (bs : List Byte) (s : State) : State :=
  match l.groom with
  | some g => groomWrite g bs s
  | none => locWrite ⟨.scratch core, l.dest⟩ 0 bs s

/-- A load that is not speculative reads local HBM. -/
def loadEffect (core : Core) (l : LoadCmd) (s : State) : State := loadWrite core l (devRead s l.addr l.len) s

def loadFault (s : State) (core : Core) (l : LoadCmd) : Option Nat :=
  match l.groom with
  | some g => firstFault [groomLoadFault s g, unless' 181 (g.home == .own && (match runsOf (partBlocks g) with
      | [r] => l.addr == blockAddr g r.1 && l.len == groomSize g.mode * r.2
      | _ => false))]
  | none => spanFault s ⟨.scratch core, l.dest⟩ l.len

/-- The program reserves a shadow area on the core; without one it issues no speculative loads (R140). -/
def hasShadow (s : State) (core : Nat) : Bool :=
  match s.job with
  | none => false
  | some j => j.image.shadowAreas.any fun e => e.1 == core

/-! ## Issue -/

/-- What holds a command in the window, with the controller's state behind it (R136, R138 to R140): a full queue of 16
entries; for a load, a reduction below it that has still to complete what it reads (R252), and, where it is not speculative,
its engine's earlier commands, or, where it is, too few free shadow slots; for any other command an older unresolved branch;
and an older command of its engine that waits. -/
def issueWaits (s : State) (c : IssueCmd) (k : CoreCtl) : Bool :=
  (windowOf s c.ctx.core.val).any (fun d => d.engine == c.engine && decide (d.pos < c.pos)) ||
    (match c.load with
      | some l =>
        awaitsReduction s c.ctx.op l.addr l.len ||
          (if speculative c k then !loadOutside l && decide ((freeSlots k).length < loadSlots l)
            else !(queueOf k c.engine).isEmpty || loadPoisoned s l)
      | none => speculative c k || decide (16 ≤ (queueOf k c.engine).length))

/-- The rules that refuse a command when the program is built. -/
def issueFault (s : State) (c : IssueCmd) : Option Nat :=
  firstFault [unless' 135 (c.writes.all fun w => decide (w.2.1 < 0x40000)),
    unless' 137 (c.addresses.all fun a => addrFormOk a.form),
    match c.load with
    | none => none
    | some l => firstFault [loadFault s c.ctx.core l, unless' 140 (c.unresolved.isEmpty || hasShadow s c.ctx.core.val)]]

/-- The command issues. -/
def issueEffect (c : IssueCmd) (s : State) : State :=
  let core := c.ctx.core.val
  match c.load with
  | some l =>
    if speculative c (ctlOf s core) then setCtl core (startSpec s c l) s
    else endPart c.ctx.op (loadEffect c.ctx.core l (counterOpen c.ctx.op s))
  | none =>
    let u := counterOpen c.ctx.op s
    if takenAtOnce c.engine then u else enqueue c.engine core c.ctx.op u

/-- A command that is not speculative names an address outside its space. -/
def issueOutside (s : State) (c : IssueCmd) (k : CoreCtl) : Bool :=
  !speculative c k && (streamsOutside s c || (c.load.map loadOutside).getD false)

/-- ENGINE_COMMAND_ISSUE: the command enters the window once the window holds it, and issues once nothing in the window
holds it back. -/
def execEngineCommandIssue (c : IssueCmd) (s : State) : Host.Outcome State Fault Refusal :=
  let core := c.ctx.core.val
  if ¬ acts s c.ctx.op then .next s
  else
    match issueFault s c with
    | some r => .refused (.refusedAtBuild r)
    | none =>
      let k := advanceCtl c (ctlOf s core)
      let t := setCtl core (fun _ => k) s
      if ¬ windowHolds s c k then .next (stall (.engineCommandIssue c) s)
      else if issueWaits t c k then .next (stall (.engineCommandIssue { c with held := true, writes := [], gens := [] }) t)
      else if issueOutside t c k then .next (stopJob (addrStatus c.engine) c.ctx.op (coreWhere s core) t)
      else .next (issueEffect c t)

/-! ## Mispredictions and retirement (R140, R141) -/

/-- Free the slots of a load. -/
def freeLoad (l : SpecLoad) (m : SMap ShadowSlot) : SMap ShadowSlot :=
  l.slots.foldl (fun m i => SMap.erase m i) m

/-- Squash everything younger than a branch: controller state returns to the branch, and the responses of squashed loads
will be dropped by their tags. -/
def squash (b : Nat) (c : CoreCtl) : CoreCtl :=
  let gone := c.loads.filter fun l => decide (b < l.id)
  let pos := ((c.genSaved.find? fun g => g.1 == b).map fun g => g.2).getD c.genPos
  { c with
    branches := c.branches.filter fun x => decide (x < b)
    writeBuf := c.writeBuf.filter fun w => decide (w.1 < b)
    genSaved := c.genSaved.filter fun g => decide (g.1 < b)
    genPos := pos
    slots := gone.foldl (fun m l => freeLoad l m) c.slots
    loads := c.loads.filter fun l => decide (l.id < b)
    flying := c.flying ++ (gone.map fun l => l.slots.map fun i => (i, l.tag)).flatten }

/-- A waiting command of a core that is younger than a branch is discarded with it. -/
def youngerThan (core : Core) (b : Nat) : Instr → Bool
  | .engineCommandIssue c => c.ctx.core == core && decide (b < c.pos)
  | _ => false

/-- BRANCH_MISPREDICT: it names a branch that is not resolved. -/
def execBranchMispredict (core : Core) (branch : Nat) (s : State) : Host.Outcome State Fault Refusal :=
  if inStep s ∧ (ctlOf s core.val).branches.contains branch then
    .next { setCtl core.val (squash branch) s with stalled := s.stalled.filter fun i => !youngerThan core branch i }
  else .next s

/-- The load leaves the window: its slots are free, and every branch before it has resolved. -/
def retireCtl (l : SpecLoad) (c : CoreCtl) : CoreCtl :=
  let d := resolve l.id [] c
  { d with slots := freeLoad l d.slots, loads := d.loads.filter fun x => decide (x.id ≠ l.id) }

/-- The bytes in a load's slots. -/
def slotData (l : SpecLoad) (c : CoreCtl) : List Byte := (l.slots.map fun i => (SMap.get ⟨0, false, []⟩ c.slots i).bytes).flatten

/-- An instruction of the core older than a load waits to retire (R138: instructions retire in program order); its branches
have resolved when the load retires. -/
def olderUnretired (s : State) (core id : Nat) : Bool :=
  ((ctlOf s core).loads.any fun l => decide (l.id < id)) || (windowOf s core).any fun c => decide (c.pos < id)

/-- SPECULATIVE_LOAD_RETIRE: the slots are copied to the destination and the op counter entry is written; a load outside
local HBM stops the job, and one that fetched a poisoned word is from here on an ordinary load, whose response is
HBM_READ_RETURN's. -/
def execSpeculativeLoadRetire (core : Core) (load : Nat) (s : State) : Host.Outcome State Fault Refusal :=
  if ¬ inStep s then .next s
  else
    match (ctlOf s core.val).loads.find? fun l => l.id == load with
    | none => .next s
    | some l =>
      let t := setCtl core.val (retireCtl l) s
      if olderUnretired s core.val load then .next (stall (.speculativeLoadRetire core load) s)
      else if l.outside then .next (stopJob Code.ccAddrRange l.ctx.op (coreWhere s core.val) t)
      else if l.poisoned then
        if loadPoisoned s l.cmd then .next (stall (.speculativeLoadRetire core load) s)
        else .next (endPart l.ctx.op (loadEffect core l.cmd (counterOpen l.ctx.op t)))
      else .next (endPart l.ctx.op (loadWrite core l.cmd (slotData l (ctlOf s core.val)) (counterOpen l.ctx.op t)))

/-- HBM_RESPONSE_DROPPED: a response whose slot tag no longer holds the slot is dropped. -/
def execHbmResponseDropped (core : Core) (slot : Fin 16) (tag : Nat) (s : State) : Host.Outcome State Fault Refusal :=
  .next (setCtl core.val (fun c => { c with flying := c.flying.erase (slot.val, tag) }) s)

/-! ## Time reads (R39, R44, R139) -/

/-- TIME_READ: the u64 timebase is written at the named place, once every branch of the core has resolved (R139). -/
def execTimeRead (ctx : OpCtx) (dest : Loc) (s : State) : Host.Outcome State Fault Refusal :=
  if ¬ acts s ctx.op then .next s
  else
    match spanWhere (storePlace ctx.core) s dest 8 with
    | some r => .refused (.refusedAtBuild r)
    | none =>
      if branchOpen s ctx.core.val then .next (stall (.timeRead ctx dest) s)
      else .next (endPart ctx.op (locWrite dest 0 (leBytes 8 s.time.value.toNat) s))

end Sys2Proof.Machine
end

