-- ==== Sys2Proof/Machine/Drain.lean ====
section
/-! DEFINITION. DRAIN_RESULT: the drain's stages (R100 to R105, R187), its running sums (R92, R101) and the groups that run
over streaming rows (R69). -/

namespace Sys2Proof.Machine

/-- Pass accumulation (R101): the running sum plus the column result, saturating. -/
def accumulate (acc : Option (List U32)) (outs : List U32) : List (U32 × Bool) :=
  match acc with
  | none => outs.map fun o => (o, false)
  | some a => List.zipWith addSat32 a outs

/-- 32 FP32 values at a place. -/
def read32 (s : State) (l : Loc) (n : Nat) : List U32 :=
  (upFrom 0 n).map fun i => BitVec.ofNat 32 (locNat s l (4 * i) 4)

/-- Stages 2 and 3 of one output: bias and function in forward mode, the derivative in derivative mode. Also the value
that enters stage 3, which the save stream carries. -/
structure Staged where
  y : U32
  saved : U32
  rest : List U32
  tally : Tally
deriving DecidableEq, Repr

/-- Stages 2 and 3 (R102, R103), from the element's draws. -/
def stageOne (c : DrainCmd) (s : State) (j : Nat) (y : U32) (rs : List U32) : Staged :=
  match c.derivX with
  | some x =>
    let (v, rest, t) := inputAt x s j rs
    ⟨mul32 y (deriv32 c.func v), y, rest, t⟩
  | none =>
    let (b, sat) :=
      match c.bias with
      | none => (y, false)
      | some t => addSat32 y (intake false t none 0 s j).1
    ⟨func32 c.func b, b, rs, Tally.flag sat⟩

/-- Outputs of the wave: the features of a grouped output, and otherwise the output's elements. -/
def drainWidth (c : DrainCmd) : Nat :=
  match c.group with
  | none => c.out.t.n
  | some _ => c.out.t.n / max 1 c.out.t.rowLen

def convOf : Option OutStream → Option Conv
  | none => none
  | some o => o.conv

/-- Write the output of one wave, or hold its row in the group region until the tile's last row arrives. -/
def drainOut (c : DrainCmd) (ys : List Staged) (s : State) : State :=
  let rs := ys.map fun y => (popDraw c.out.conv y.rest).1
  match c.group with
  | none => writeOut c.ctx.op c.out (ys.map fun y => OutVal.of y.y) rs s
  | some g =>
    let key := match g.region.space with
      | .drain k => drainKey k.val g.region.addr
      | _ => g.region.addr
    let t := writeU32s ⟨g.region.space, g.region.addr + 128 * g.row⟩ (ys.map Staged.y) s
    let held := SMap.get [] t.cores.groupDraws key ++ rs.map (BitVec.ofNat 32)
    let keep (v : List U32) (u : State) : State :=
      { u with cores := { u.cores with groupDraws := SMap.set [] u.cores.groupDraws key v } }
    if g.last then
      let n := ys.length
      let rows := upFrom 0 c.out.t.rowLen
      let vals := ((upFrom 0 n).map fun j =>
        rows.map fun r => OutVal.of (BitVec.ofNat 32 (locNat t g.region (128 * r + 4 * j) 4))).flatten
      let ds := ((upFrom 0 n).map fun j => rows.map fun r => (nthD 0 held (r * n + j)).toNat).flatten
      keep [] (writeOut c.ctx.op c.out vals ds t)
    else keep held t

/-- The save stream takes its draws after the output stream's (R187, R194). -/
def drainSave (c : DrainCmd) (ys : List Staged) (s : State) : State :=
  match c.save with
  | none => s
  | some o =>
    writeOut c.ctx.op o (ys.map fun y => OutVal.of y.saved)
      (ys.map fun y => (popDraw o.conv ((popDraw c.out.conv y.rest).2)).1) s

/-- The last pass: stages 2 to 4. -/
def drainLast (c : DrainCmd) (sums : List U32) (s : State) : State :=
  let n := drainWidth c
  let d := (match c.derivX with
    | none => 0
    | some x => convDraws x.conv) + convDraws c.out.conv + convDraws (convOf c.save)
  let (rs, t) := takeDraws c.ctx ((upFrom 0 n).map fun j => List.replicate d (64 + j)).flatten s
  let es := (splitElems d n rs).1
  let ys := ((upFrom 0 n).zip ((sums.take n).zip es)).map fun (j, y, r) => stageOne c t j y r
  let u := addTally c.ctx.op (Tally.sum (ys.map Staged.tally)) t
  drainSave c ys (drainOut c ys u)

/-- The effect on the column results at the head of the queue. -/
def drainEffect (c : DrainCmd) (e : FootEntry) (s : State) : State :=
  let core := c.ctx.core.val
  let acc := accumulate (c.accIn.map fun l => read32 s l 32) e.outs
  let sat := e.sat || acc.any fun x => x.2
  let sums := acc.map fun x => x.1
  let t := addTally c.ctx.op (Tally.flag sat)
    { s with cores := { s.cores with foot := SMap.set [] s.cores.foot core ((SMap.get [] s.cores.foot core).drop 1) } }
  if c.lastPass then drainLast c sums t else writeU32s c.accOut sums t

/-- Output formats of the drain (R67). -/
def drainOutFault (s : State) (core : Core) (o : OutStream) : Option Nat :=
  firstFault [outStreamFault s core false o, unless' 67 (decide (o.t.fmt ≠ .int32))]

def drainFault (s : State) (c : DrainCmd) : Option Nat :=
  let core := c.ctx.core
  let n := drainWidth c
  firstFault [
    match c.accIn with
    | none => none
    | some l => ownSpan s core l 128,
    if c.lastPass then none else ownSpan s core c.accOut 128,
    if c.lastPass then
      firstFault [unless' 100 (decide (1 ≤ n) && decide (n ≤ 32)), drainOutFault s core c.out,
        match c.bias with
        | none => none
        | some t => firstFault [tensorFault s core t, unless' 102 (decide (n ≤ t.n)),
            unless' 67 (decide (t.fmt = .fp32) || decide (t.fmt = .bf16))],
        match c.derivX with
        | none => none
        | some x => firstFault [inStreamFault s core false x, unless' 103 (decide (n ≤ x.t.n)),
            unless' 67 (decide (x.t.fmt ≠ .int32))],
        match c.save with
        | none => none
        | some o => firstFault [drainOutFault s core o, unless' 187 (o.t.n == n && c.derivX.isNone)],
        match c.group with
        | none => none
        | some g => firstFault [unless' 69 (isFp8 c.out.t.fmt && decide (c.out.t.rowLen ≤ 32) &&
            decide (g.row < c.out.t.rowLen) && (g.last == decide (g.row + 1 = c.out.t.rowLen))),
            unless' 112 (g.region.space == .drain core), spanFault s g.region 4096]]
    else none]

/-- What the drain reads: running sums, and on the last pass the bias and the second stream (R100 to R103). -/
def drainReads (c : DrainCmd) : List SpanUse :=
  (match c.accIn with
    | none => []
    | some l => [useAll l 128]) ++
  (if c.lastPass then
    (match c.bias with
      | none => []
      | some t => tensorUses t false) ++
    (match c.derivX with
      | none => []
      | some x => tensorUses x.t true)
  else [])

/-- What the drain writes: running sums, or on the last pass its outputs, by way of the group region where there is one. -/
def drainWrites (c : DrainCmd) : List (Loc × Nat) :=
  if c.lastPass then
    tensorSpans c.out.t ++
    (match c.save with
      | none => []
      | some o => tensorSpans o.t) ++
    (match c.group with
      | none => []
      | some g => [(g.region, 4096)])
  else [(c.accOut, 128)]

/-- DRAIN_RESULT: it waits while no column result has arrived. -/
def drainRun (c : DrainCmd) : EngineRun where
  engine := .drain
  ctx := c.ctx
  fault s := drainFault s c
  reads _ := drainReads c
  writes _ := drainWrites c
  ready s := SMap.get [] s.cores.foot c.ctx.core.val != []
  stop _ := none
  effect s :=
    match SMap.get [] s.cores.foot c.ctx.core.val with
    | [] => s
    | e :: _ => drainEffect c e s

def execDrainResult (c : DrainCmd) (s : State) : Host.Outcome State Fault Refusal :=
  runEngine (.drainResult c) (drainRun c) s

end Sys2Proof.Machine
end

