-- ==== Sys2Proof/Machine/Fec.lean ====
section
/-! DEFINITION. The forward error correction of a lane, RS(544,514) over 10-bit symbols (R267): the parity of a codeword, and
the correction of one that was received. The code is the standard's that R267 names; what of it the manual does not print is
PRESUMED (assumption log 92). -/

namespace Sys2Proof.Machine

/-! ## Symbols -/

/-- A symbol times the root of the field polynomial x¹⁰ + x³ + 1. -/
def gfTwice (a : Nat) : Nat := if 2 * a < 1024 then 2 * a else (2 * a) ^^^ 0x409

/-- The product of two symbols, over the low `n` bits of the second. -/
def gfMulBits : Nat → Nat → Nat → Nat
  | 0, _, _ => 0
  | n + 1, a, b => if b % 2 = 1 then gfTwice (gfMulBits n a (b / 2)) ^^^ a else gfTwice (gfMulBits n a (b / 2))

def gfMul (a b : Nat) : Nat := gfMulBits 10 a b

/-- A power of the root. -/
def gfRoot : Nat → Nat
  | 0 => 1
  | n + 1 => gfTwice (gfRoot n)

/-- `n` squarings, each result multiplied in. -/
def gfSquares : Nat → Nat → Nat
  | 0, _ => 1
  | n + 1, a => gfMul (gfMul a a) (gfSquares n (gfMul a a))

/-- The inverse of a symbol that is not zero: its 1,022nd power. -/
def gfInv (a : Nat) : Nat := gfSquares 9 a

/-- The value of a polynomial, lowest coefficient first. -/
def gfEval (p : List Nat) (x : Nat) : Nat := p.foldr (fun c acc => c ^^^ gfMul acc x) 0

/-- The sum of two polynomials. -/
def gfAdd : List Nat → List Nat → List Nat
  | [], q => q
  | p, [] => p
  | a :: p, b :: q => (a ^^^ b) :: gfAdd p q

/-- The product of two polynomials. -/
def gfTimes : List Nat → List Nat → List Nat
  | [], _ => []
  | a :: p, q => gfAdd (q.map (gfMul a)) (0 :: gfTimes p q)

/-! ## Parity -/

/-- The generator polynomial without its leading 1, highest coefficient first: its roots are the powers 0 to 29 of the
root. -/
def rsGenerator : List Nat :=
  [575, 552, 187, 230, 552, 1, 108, 565, 282, 249, 593, 132, 94, 720, 495] ++
  [385, 942, 503, 883, 361, 788, 610, 193, 392, 127, 185, 158, 128, 834, 523]

/-- Symbols side by side, the first in the low bits. -/
def packSymbols (xs : List Nat) : Nat := xs.foldr (fun x acc => x + 1024 * acc) 0

/-- The generator times each power of the root below the tenth. -/
def rsRows : List Nat := (upFrom 0 10).map fun b => packSymbols (rsGenerator.map (gfMul (2 ^ b)))

/-- The sum of the rows that the bits of a symbol choose. -/
def rsScale : List Nat → Nat → Nat
  | [], _ => 0
  | g :: gs, c => if c % 2 = 1 then g ^^^ rsScale gs (c / 2) else rsScale gs (c / 2)

/-- The 30 parity symbols of the `n` low symbols of a number, which is read from the lowest on, behind what the register
holds; the first parity symbol is in the low bits. -/
def rsParity : Nat → Nat → Nat → Nat
  | 0, _, r => r
  | n + 1, x, r => rsParity n (x / 1024) ((r / 1024) ^^^ rsScale rsRows ((r ^^^ x) % 1024))

/-- The 5,440 bits of a codeword: its 5,140 protected bits, then their parity. -/
def rsEncode (x : BitVec 5140) : BitVec 5440 :=
  BitVec.ofNat 5440 (x.toNat + rsParity 514 x.toNat 0 * 2 ^ 5140)

/-! ## Correction -/

/-- What the received parity differs by from the parity of the received symbols, lowest coefficient first. -/
def rsRemainder (line : BitVec 5440) : List Nat :=
  let d := rsParity 514 (line.toNat % 2 ^ 5140) 0 ^^^ (line.toNat >>> 5140)
  (upFrom 0 30).map fun k => d / 2 ^ (10 * (29 - k)) % 1024

/-- The shortest recurrence for the syndromes: connection polynomial, length, and the polynomial, discrepancy and distance of
the last change of length. -/
structure Recurrence where
  conn : List Nat
  len : Nat
  last : List Nat
  disc : Nat
  gap : Nat
deriving DecidableEq, Repr

/-- One more syndrome: `seen` holds it and those before it, the latest first. -/
def Recurrence.next (seen : List Nat) (r : Recurrence) : Recurrence :=
  let d := ((r.conn.zip seen).map fun e => gfMul e.1 e.2).foldl (· ^^^ ·) 0
  if d = 0 then { r with gap := r.gap + 1 }
  else
    let conn := gfAdd r.conn (List.replicate r.gap 0 ++ r.last.map (gfMul (gfMul d (gfInv r.disc))))
    if 2 * r.len < seen.length then ⟨conn, seen.length - r.len, r.conn, d, 1⟩ else { r with conn := conn, gap := r.gap + 1 }

def rsRecurrence : List Nat → List Nat → Recurrence → Recurrence
  | [], _, r => r
  | s :: ss, seen, r => rsRecurrence ss (s :: seen) (r.next (s :: seen))

/-- The symbols to correct, as coefficient numbers with what to add; none where more than 15 symbols are wrong. -/
def rsErrors (syndromes : List Nat) : Option (List (Nat × Nat)) :=
  let r := rsRecurrence syndromes [] ⟨[1], 0, [1], 1, 1⟩
  let places := (upFrom 0 544).filter fun l => gfEval r.conn (gfRoot ((1023 - l) % 1023)) == 0
  let omega := (gfTimes syndromes r.conn).take 30
  let slope := (upFrom 0 r.conn.length).map fun k => if k % 2 = 0 then nthD 0 r.conn (k + 1) else 0
  if 15 < r.len ∨ places.length ≠ r.len then none
  else some (places.map fun l =>
    let back := gfRoot ((1023 - l) % 1023)
    (l, gfMul (gfRoot l) (gfMul (gfEval omega back) (gfInv (gfEval slope back)))))

/-- A received codeword with its wrong symbols corrected; coefficient 543 is first on the wire. -/
def rsCorrect (line : BitVec 5440) (errors : List (Nat × Nat)) : BitVec 5440 :=
  errors.foldl (fun x e => x ^^^ BitVec.ofNat 5440 (e.2 <<< (10 * (543 - e.1)))) line

/-- The protected bits of a received codeword, with up to 15 wrong symbols corrected; none where it does not decode. -/
def rsDecode (line : BitVec 5440) : Option (BitVec 5140) :=
  let rem := rsRemainder line
  if rem.all (· == 0) then some (line.setWidth 5140)
  else
    match rsErrors ((upFrom 0 30).map fun j => gfEval rem (gfRoot j)) with
    | none => none
    | some errors =>
      if (rsRemainder (rsCorrect line errors)).all (· == 0) then some ((rsCorrect line errors).setWidth 5140) else none

end Sys2Proof.Machine
end

