-- ==== Sys2Proof/Machine/TimeBase.lean ====
section
/-! DEFINITION. The timebase: slewing toward the time root, the unsynchronized flag, and the root's succession (R39,
R40). -/

namespace Sys2Proof.Machine

/-- Hops between two values of a ring of length `n`. -/
def ringDistance (n a b : Nat) : Nat := min ((a + n - b) % n) ((b + n - a) % n)

/-- Hops between two modules of the torus. -/
def distance (r : BitVec 4096) (a b : Coord) : Nat :=
  ringDistance (siteExtX r) a.x b.x + ringDistance (siteExtY r) a.y b.y + ringDistance (siteExtZ r) a.z b.z

/-- A neighbour nearer the time root (R40). -/
def nearerRoot (s : State) (p : PortId) : Bool :=
  decide (distance s.site (neighbour s p) s.time.rootAt < distance s.site s.coord s.time.rootAt)

/-- One correction toward a target: 1 ns at most, 10 µs after the last one at the earliest; a count that is ahead leaves
a nanosecond out, since the timebase never moves backward (R39, R40). -/
def slew (target : U64) (s : State) : State :=
  if s.time.value.toNat < s.time.slewAt.toNat + 10000 ∨ target = s.time.value then s
  else if s.time.value.toNat < target.toNat then
    { s with time := { s.time with value := s.time.value + 1, slewAt := s.time.value } }
  else { s with time := { s.time with skip := true, slewAt := s.time.value } }

/-- A BEAT word of lane `lane` arrives: a sample from a neighbour nearer the root, corrected by the link delay that bring-up
measured. Heartbeats come on the lowest lane in use (R281). -/
def takeBeat (port : PortId) (sample : U64) (lane : Nat) (s : State) : State :=
  if (getPort s port.val).phase = .up ∧ lane = lowestLane ∧ s.time.set ∧ ¬ s.time.root ∧ nearerRoot s port then
    slew (sample + BitVec.ofNat 64 (getPort s port.val).delayNs) s
  else s

/-- BEAT_RECEIVE. -/
def execBeatReceive (port : PortId) (sample : U64) (lane : Nat) (s : State) : Host.Outcome State Fault Refusal :=
  .next (takeBeat port sample lane s)

/-- TIMEBASE_UNSYNC: an estimated offset above 20 ns held for more than 1 ms. -/
def execTimebaseUnsync (offsetNs heldUs : Nat) (s : State) : Host.Outcome State Fault Refusal :=
  if 20 < offsetNs ∧ 1000 < heldUs then
    .next (raiseCause 8 (withStatus (fun r => { r with unsync := true }) s))
  else .next s

/-- TIME_ROOT_TAKEOVER: the time root is lost, with the modules of `before`, which were lost earlier in their turn; the next
one in the order of z, y, x becomes root, without a step in the time value. -/
def execTimeRootTakeover (lost : Coord) (before : List Coord) (s : State) : Host.Outcome State Fault Refusal :=
  match s.time.order.filter fun c => decide (c ≠ lost) && !before.contains c with
  | [] => .next s
  | c :: cs =>
    .next { s with time := { s.time with
      order := c :: cs
      rootAt := if lost = s.time.rootAt then c else s.time.rootAt
      root := decide ((if lost = s.time.rootAt then c else s.time.rootAt) = s.coord) } }

end Sys2Proof.Machine
end

