-- ==== Sys2Proof/Machine/Frames.lean ====
section
/-! DEFINITION. Codewords and link words on the lanes of a port (R267 to R272): how a port frame goes out, and how one is
received. -/

namespace Sys2Proof.Machine

/-! ## Link words (R270) -/

/-- wtype of a link word. -/
def wtype : LinkWord → Nat
  | .idle => 0
  | .credit _ => 1
  | .nack _ => 2
  | .beat _ _ _ => 3
  | .swap _ _ _ => 4
  | .swapAt _ _ _ => 4
  | .retire _ _ => 4
  | .laserLow _ _ => 4
  | .ident _ _ => 5

/-- A grant in 32 bits: blocks, class, virtual channel and a mark that it is one. -/
def grantBits (g : Grant) : Nat := g.blocks % 2 ^ 16 + classIndex g.cls * 2 ^ 16 + g.vc1.toNat * 2 ^ 18 + 2 ^ 31

/-- A SWAP word: fibre, lane of the fibre, fseq and form. -/
def swapBits (fibre place at' form : Nat) : Nat := fibre + place * 2 ^ 8 + at' * 2 ^ 16 + form * 2 ^ 32

/-- The 128 bits of a link word's content (DESIGN CHOICE, assumption log 90: the manual gives what a word holds and no
layout). -/
def linkBits : LinkWord → Nat
  | .idle => 0
  | .credit gs => ofLe (((gs.take 4).map fun g => leBytes 4 (grantBits g)).flatten)
  | .nack f => f.toNat
  | .beat _ c x => c.toNat + x.toNat * 2 ^ 64
  | .swap f p cal => swapBits f p 0 cal.toNat
  | .swapAt f p a => swapBits f p a.toNat 2
  | .retire f a => swapBits f 0 a.toNat 3
  | .laserLow f p => swapBits f p 0 4
  | .ident i part => i + part.toNat * 2 ^ 8

def classOf (n : Nat) : TrafficClass :=
  match n with
  | 0 => .recovery
  | 1 => .control
  | 2 => .collective
  | _ => .offload

/-- The grants of a CREDIT word's content. -/
def grantsIn (x : Nat) : List Grant :=
  ((upFrom 0 4).map fun i => x / 2 ^ (32 * i) % 2 ^ 32).filterMap fun g =>
    if g / 2 ^ 31 = 1 then some ⟨classOf (g / 2 ^ 16 % 4), g / 2 ^ 18 % 2 == 1, g % 2 ^ 16⟩ else none

/-- A SWAP word's content acts: a request, a switch fseq, a retirement, or a laser that is low. -/
def takeSwapWord (port : PortId) (x : Nat) (s : State) : State :=
  let fibre := x % 256
  let place := x / 2 ^ 8 % 256
  let at' := BitVec.ofNat 16 (x / 2 ^ 16)
  match x / 2 ^ 32 % 8 with
  | 0 => takeSwap port fibre place .failing s
  | 1 => takeSwap port fibre place .calibration s
  | 2 => takeSwap port fibre place (.named at') s
  | 3 => takeSwap port fibre place (.retire at') s
  | 4 =>
    match (upFrom 0 128).find? fun l => laneHome (getPort s port.val).fibres l == some (fibre, place) with
    | none => s
    | some l => failLane port l s
  | _ => s

/-- A link word received on a lane acts; types 0x6 to 0xF are ignored. -/
def takeWord (port : PortId) (lane type x : Nat) (s : State) : State :=
  match type with
  | 1 => takeGrants port (grantsIn x) s
  | 2 => resendFrom port (BitVec.ofNat 16 x) s
  | 3 => takeBeat port (BitVec.ofNat 64 (x / 2 ^ 64)) lane s
  | 4 => takeSwapWord port x s
  | 5 => takeIdent port (x % 256) (BitVec.ofNat 120 (x / 2 ^ 8)) s
  | _ => s

/-! ## Codewords (R267) -/

/-- The stated fields of a codeword's protected bits. -/
def cwSync (w : BitVec 5140) : Nat := field w 379 348
def cwFseq (w : BitVec 5140) : Nat := field w 347 332
def cwLane (w : BitVec 5140) : Nat := field w 331 324
def cwType (w : BitVec 5140) : Nat := field w 323 320
def cwLink (w : BitVec 5140) : Nat := field w 319 192
def cwAck (w : BitVec 5140) : Nat := field w 159 144
def cwData (w : BitVec 5140) : Nat := field w 5139 380

/-- The mark at the boundary of codewords. -/
def syncWord : Nat := 0x3A9F60C5

/-- A codeword has the sync mark and passes its crc (R267, R269). -/
def cwGood (w : BitVec 5140) : Bool :=
  cwSync w == syncWord && crc32cBits 4948 (w.toNat >>> 192) 0xFFFFFFFF == field w 191 160

/-- The protected bits of a codeword: 595 B of data, sync, fseq, lane, link word, crc and ack; the reserved bits are zero. -/
def codeword (data fseq lane : Nat) (w : LinkWord) (ack : U16) : BitVec 5140 :=
  let high := data * 2 ^ 188 + syncWord * 2 ^ 156 + fseq * 2 ^ 140 + lane * 2 ^ 132 + wtype w * 2 ^ 128 + linkBits w % 2 ^ 128
  BitVec.ofNat 5140 (high * 2 ^ 192 + crc32cBits 4948 high 0xFFFFFFFF * 2 ^ 160 + ack.toNat * 2 ^ 144)

/-- The 64 B of a block; the last block of a packet is filled up with zeros (DESIGN CHOICE, assumption log 91). -/
def portBlockBytes (b : Block) : List Byte :=
  let bs := (b.packet.bytes.drop (64 * b.index)).take 64
  bs ++ List.replicate (64 - bs.length) 0

/-- A port frame's data, lane 0 first; idle blocks are zeros (DESIGN CHOICE, assumption log 91). -/
def frameData (f : Frame) : Nat := ofLe ((f.blocks.map portBlockBytes).flatten)

/-- The codewords of a port frame as they leave the port: one for each lane, with the word of each lane, and the highest fseq
received in order as ack. -/
def frameWords (q : Port) (f : Frame) (words : List LinkWord) : List (BitVec 5440) :=
  (upFrom 0 (8 * inUse q.txFibres)).map fun l =>
    rsEncode (codeword (frameData f / 2 ^ (4760 * l) % 2 ^ 4760) f.fseq.toNat l (nthD .idle words l) (q.rxNext - 1))

/-! ## Receiving (R268, R269, R271, R272) -/

/-- The wavelength that each lane comes on: lanes in dense order over the fibres in use. -/
def laneWaves (q : Port) : List (Nat × Nat) :=
  ((upFrom 0 q.fibres.length).map fun f => (nthD Fibre.fresh q.fibres f).lanes.map fun w => (f, w)).flatten

/-- The protected bits of a lane's codeword: the one on its wavelength, corrected. -/
def laneWord (words : List Codeword) (at' : Nat × Nat) : Option (BitVec 5140) :=
  (words.find? fun w => w.fibre == at'.1 && w.wave == at'.2).bind fun w => rsDecode w.line

/-- The lanes of a port frame with their codewords; none where one did not come or does not decode. -/
def frameLanes (q : Port) (words : List Codeword) : List (Nat × Option (BitVec 5140)) :=
  let ws := (laneWaves q).map (laneWord words)
  (upFrom 0 ws.length).zip ws

/-- A lane's codeword is good and carries the lane's number. -/
def laneGood (e : Nat × Option (BitVec 5140)) : Bool :=
  match e.2 with
  | none => false
  | some w => cwGood w && cwLane w == e.1

/-- A port frame's 64 B blocks, lane 0 first. -/
def cutBlocks (ws : List (BitVec 5140)) : List (BitVec 512) :=
  let all := ws.foldr (fun w x => cwData w + x * 2 ^ 4760) 0
  (upFrom 0 (frameBlocks ws.length)).map fun i => BitVec.ofNat 512 (all / 2 ^ (512 * i))

/-- A port frame is accepted: its data and its ack are taken, and the link word of each lane acts. -/
def acceptFrame (port : PortId) (ws : List (BitVec 5140)) (ack : Nat) (s : State) : State :=
  let t := setPort port.val (fun q => { q with
    rxNext := q.rxNext + 1
    rxDiscard := false
    rxData := cutBlocks ws
    window := ackWindow (BitVec.ofNat 16 ack) q.window }) s
  sendAll port (((upFrom 0 ws.length).zip ws).foldl (fun u e => takeWord port e.1 (cwType e.2) (cwLink e.2) u) t)

/-- A lane has caused 10 rejected port frames within 1 s (R272). -/
def tenRejects (rs : List (Nat × U64)) (lane : Nat) : Bool := decide (10 ≤ (rs.filter fun e => e.1 == lane).length)

/-- A port frame is rejected: NACK goes out, the lanes that caused it are noted, and one that has caused ten within 1 s is
swapped. -/
def rejectFrame (port : PortId) (bad : List Nat) (s : State) : State :=
  let now := s.time.value
  let q := getPort s port.val
  let rs := (q.rejects.filter fun e => decide (now.toNat < e.2.toNat + 1000000000)) ++ bad.map fun l => (l, now)
  let t := sendWord port (.nack q.rxNext) (setPort port.val (fun q => { q with rxDiscard := true, rejects := rs }) s)
  (bad.filter (tenRejects rs)).foldl (fun u l =>
    failLane port l (setPort port.val (fun q => { q with rejects := q.rejects.filter fun e => e.1 != l }) u)) t

/-- PORT_FRAME_RECEIVE: a port frame is accepted when every one of its codewords is good and all share one fseq; after a
rejected one, port frames are discarded until its fseq arrives again. -/
def execPortFrameReceive (port : PortId) (words : List Codeword) (s : State) :
    Host.Outcome State Fault Refusal :=
  let q := getPort s port.val
  if q.phase = .dark ∨ q.phase = .down ∨ q.phase = .refused ∨ words = [] then .next s
  else
    let lanes := frameLanes q words
    let ws := lanes.filterMap Prod.snd
    let rejected := rejectFrame port ((lanes.filter fun e => !laneGood e).map Prod.fst) s
    match ws with
    | [] => .next rejected
    | w :: _ =>
      if lanes.all laneGood ∧ ws.all fun x => cwFseq x == cwFseq w then
        if cwFseq w = q.rxNext.toNat then .next (acceptFrame port ws (cwAck w) s) else .next s
      else .next rejected

end Sys2Proof.Machine
end

