-- ==== Sys2Proof/Machine/Pixel.lean ====
section
/-! DEFINITION. The pixel path of the Gatehouse (R334, R335, R338, R339): descriptors, drawn parameters, conversion,
resizing, jitter and normalization. -/

namespace Sys2Proof.Machine

/-! ## Channel table entry (R334) -/

namespace Chan
def seed (c : BitVec 1024) : U64 := BitVec.ofNat 64 (field c 63 0)
def rowLen (c : BitVec 1024) : Nat := field c 223 192
def rows (c : BitVec 1024) : Nat := field c 255 224
def outW (c : BitVec 1024) : Nat := field c 271 256
def outH (c : BitVec 1024) : Nat := field c 287 272
def frames (c : BitVec 1024) : Nat := field c 303 288
def path (c : BitVec 1024) : Nat := field c 305 304
def inFmt (c : BitVec 1024) : Nat := field c 307 306
def outFmt (c : BitVec 1024) : Fmt :=
  match field c 309 308 with
  | 1 => .e4m3
  | 2 => .e5m2
  | _ => .bf16
def fullRange (c : BitVec 1024) : Bool := bitAt c 310
def area (c : BitVec 1024) : Bool := bitAt c 311
def budgetMult (c : BitVec 1024) : Nat := if field c 319 312 = 0 then 32 else field c 319 312
def budgetCap (c : BitVec 1024) : Nat := field c 351 320
def meanInit (c : BitVec 1024) : Nat := field c 383 352
def scale (c : BitVec 1024) (ch : Nat) : U32 := BitVec.ofNat 32 (field c (415 + 32 * ch) (384 + 32 * ch))
def bias (c : BitVec 1024) (ch : Nat) : U32 := BitVec.ofNat 32 (field c (511 + 32 * ch) (480 + 32 * ch))
def gainLo (c : BitVec 1024) : U32 := BitVec.ofNat 32 (field c 607 576)
def gainHi (c : BitVec 1024) : U32 := BitVec.ofNat 32 (field c 639 608)
def offLo (c : BitVec 1024) : U32 := BitVec.ofNat 32 (field c 671 640)
def offHi (c : BitVec 1024) : U32 := BitVec.ofNat 32 (field c 703 672)
def cropW (c : BitVec 1024) : Nat := field c 719 704
def cropH (c : BitVec 1024) : Nat := field c 735 720
def tStride (c : BitVec 1024) : Nat := field c 751 736

/-- The limits of R334 for an active entry of channel `ch`. -/
def ok (c : BitVec 1024) (ch : Nat) : Bool :=
  let whole (a b : Nat) : Bool := decide (0 < b) && decide (a % b = 0)
  decide (1 ≤ rowLen c) && decide (rowLen c ≤ 1048576) && decide (1 ≤ rows c) && decide (rows c ≤ 4096) &&
    decide (4096 ≤ budgetCap c) && decide (budgetCap c ≤ 8388608) &&
    !(path c == 2 && (field c 309 308 == 1 || field c 309 308 == 2)) &&
    !(decide (14 ≤ ch) && area c && !(whole (cropH c) (outH c) && whole (cropW c) (outW c))) &&
    !(path c == 3) && field c 1023 752 == 0
end Chan

/-! ## Sample descriptor (R335) -/

namespace Samp
def dataAddr (d : BitVec 512) : Nat := field d 127 64
def dataLen (d : BitVec 512) : Nat := field d 159 128
def slotLen (d : BitVec 512) : Nat := field d 191 160
def srcW (d : BitVec 512) : Nat := field d 207 192
def srcH (d : BitVec 512) : Nat := field d 223 208
def srcFrames (d : BitVec 512) : Nat := field d 239 224
def endOfBatch (d : BitVec 512) : Bool := bitAt d 240
def alive (d : BitVec 512) : Byte := BitVec.ofNat 8 (field d 255 248)
def dataCrc (d : BitVec 512) : U32 := BitVec.ofNat 32 (field d 415 384)
def descCrc (d : BitVec 512) : U32 := BitVec.ofNat 32 (field d 511 480)
/-- Every reserved field is zero (R13). -/
def reservedZero (d : BitVec 512) : Bool := field d 247 242 == 0 && field d 479 448 == 0
end Samp

/-! ## Parameters of a sample (R338) -/

/-- What R339 needs of a sample. -/
structure PixParams where
  cropX : Nat
  cropY : Nat
  cropW : Nat
  cropH : Nat
  tStart : Nat
  tStride : Nat
  hflip : Bool
  gain : U32
  offset : U32
deriving DecidableEq, Repr

/-- gdraw of R338. -/
def gdraw (seed idx d : U64) : U64 := mix64 (seed ^^^ mix64 (idx ^^^ mix64 (d ^^^ 0x8A1F3C5ED74296B1)))

/-- An integer drawn in [0, m]. -/
def gdrawInt (seed idx d : U64) (m : Nat) : Nat := ((gdraw seed idx d).toNat >>> 32) * (m + 1) / 2 ^ 32

/-- An FP32 value drawn in [lo, hi]. -/
def gdrawFloat (seed idx d : U64) (lo hi : U32) : U32 :=
  let k : FV := .num false (mkRat ((gdraw seed idx d).toNat >>> 40) (2 ^ 24))
  ne32 (FV.add (dec32 lo) (FV.mul k (FV.add (dec32 hi) (dec32 lo).neg)))

/-- The parameters of a sample of channel `ch`: the descriptor's own, or drawn for channels 14 and 15; none where a
drawn range is empty. -/
def pixParams (ch : Nat) (c : BitVec 1024) (d : BitVec 512) : Option PixParams :=
  if ch < 14 then
    some ⟨field d 271 256, field d 287 272, field d 431 416, field d 447 432, field d 303 288, field d 319 304,
      bitAt d 241, BitVec.ofNat 32 (field d 351 320), BitVec.ofNat 32 (field d 383 352)⟩
  else
    let idx := BitVec.ofNat 64 (field d 63 0)
    let span := Chan.tStride c * (Chan.frames c - 1) + 1
    if Samp.srcH d < Chan.cropH c ∨ Samp.srcW d < Chan.cropW c ∨ Samp.srcFrames d < span then none
    else
      let g := fun k m => gdrawInt (Chan.seed c) idx k m
      some ⟨g 1 (Samp.srcW d - Chan.cropW c), g 0 (Samp.srcH d - Chan.cropH c), Chan.cropW c, Chan.cropH c,
        g 2 (Samp.srcFrames d - span), Chan.tStride c, bitAt (gdraw (Chan.seed c) idx 3) 63,
        gdrawFloat (Chan.seed c) idx 4 (Chan.gainLo c) (Chan.gainHi c),
        gdrawFloat (Chan.seed c) idx 5 (Chan.offLo c) (Chan.offHi c)⟩

/-! ## Dimensions (R346) -/

/-- in_fmt 0 and 2 are YUV 4:2:0, 2 and 3 are BF16. -/
def isYuv (f : Nat) : Bool := f % 2 == 0
def isFloat (f : Nat) : Bool := decide (2 ≤ f)

/-- Elements of one source frame. -/
def frameElems (f w h : Nat) : Nat := if isYuv f then w * h * 3 / 2 else 3 * w * h

/-- Whether a sample passes the dimension test, with its parameters; a crop of no pixel or a stride of 0 does not. -/
def dimsOk (ch : Nat) (c : BitVec 1024) (d : BitVec 512) : Bool :=
  let f := Chan.inFmt c
  let w := Samp.srcW d
  let h := Samp.srcH d
  match pixParams ch c d with
  | none => false
  | some p =>
    decide (Samp.dataLen d = Samp.srcFrames d * (frameElems f w h * (if isFloat f then 2 else 1))) &&
      !(isYuv f && (w % 2 == 1 || h % 2 == 1)) &&
      decide (1 ≤ p.cropW) && decide (1 ≤ p.cropH) && decide (1 ≤ p.tStride) &&
      decide (p.cropX + p.cropW ≤ w) && decide (p.cropY + p.cropH ≤ h) &&
      decide (p.tStart + p.tStride * (Chan.frames c - 1) < Samp.srcFrames d) &&
      !(Chan.area c && !(decide (0 < Chan.outH c) && decide (0 < Chan.outW c) &&
        decide (p.cropH % Chan.outH c = 0) && decide (p.cropW % Chan.outW c = 0)))

/-- A BF16 source element is NaN or infinite. -/
def sourceNan (c : BitVec 1024) (bytes : List Byte) : Bool :=
  isFloat (Chan.inFmt c) && (chunks 2 bytes).any fun e => !(decode .bf16 (ofLe e)).isFinite

/-! ## Source pixels (R339) -/

def crv : U32 := ofRat32 (2 * (1 - mkRat 2126 10000))
def cbu : U32 := ofRat32 (2 * (1 - mkRat 722 10000))
def cgu : U32 := ofRat32 (-2 * mkRat 722 10000 * (1 - mkRat 722 10000) / mkRat 7152 10000)
def cgv : U32 := ofRat32 (-2 * mkRat 2126 10000 * (1 - mkRat 2126 10000) / mkRat 7152 10000)

/-- Element `i` of the source: a byte, or a BF16 code. -/
def srcElem (c : BitVec 1024) (bytes : List Byte) (i : Nat) : Nat :=
  if isFloat (Chan.inFmt c) then ofLe ((bytes.drop (2 * i)).take 2) else ofLe ((bytes.drop i).take 1)

/-- A normalized luma (or RGB) or chroma element. -/
def normElem (c : BitVec 1024) (chroma : Bool) (x : Nat) : U32 :=
  if isFloat (Chan.inFmt c) then BitVec.ofNat 32 (65536 * x)
  else if isYuv (Chan.inFmt c) then
    if Chan.fullRange c then
      (if chroma then ofRat32 (((x : Rat) - 128) / 255) else ofRat32 ((x : Rat) / 255))
    else (if chroma then ofRat32 (((x : Rat) - 128) / 224) else ofRat32 (((x : Rat) - 16) / 219))
  else ofRat32 ((x : Rat) / 255)

/-- The FP32 value of colour `ch` (R 0, G 1, B 2) at row r and column q of frame t. -/
def srcPixel (c : BitVec 1024) (d : BitVec 512) (bytes : List Byte) (t r q ch : Nat) : U32 :=
  let w := Samp.srcW d
  let h := Samp.srcH d
  let base := t * frameElems (Chan.inFmt c) w h
  if isYuv (Chan.inFmt c) then
    let at' (i : Nat) := srcElem c bytes (base + i)
    let k := r / 2 * (w / 2) + q / 2
    let y := normElem c false (at' (r * w + q))
    let cb := normElem c true (at' (w * h + k))
    let cr := normElem c true (at' (w * h + w * h / 4 + k))
    match ch with
    | 0 => fma32 crv cr y
    | 1 => fma32 cgv cr (fma32 cgu cb y)
    | _ => fma32 cbu cb y
  else normElem c false (srcElem c bytes (base + 3 * (r * w + q) + ch))

/-! ## Resizing (R339) -/

/-- The two source indices and the fraction of one output index. -/
def bilinear (i crop out : Nat) : Nat × Nat × U32 :=
  let num : Int := (2 * i + 1) * crop - out
  let s := ofRat32 (max 0 (mkRat num (2 * out)))
  let lo := (rat32 s).floor.toNat
  (lo, min (lo + 1) (crop - 1), sub32 s (ofRat32 (lo : Rat)))

/-- One resized value. -/
def resizeAt (c : BitVec 1024) (p : PixParams) (pix : Nat → Nat → U32) (u v : Nat) : U32 :=
  if Chan.area c then
    let fh := p.cropH / Chan.outH c
    let fw := p.cropW / Chan.outW c
    let vals := ((upFrom 0 fh).map fun a => (upFrom 0 fw).map fun b => pix (fh * u + a) (fw * v + b)).flatten
    match vals with
    | [] => 0
    | x :: xs => ne32 (FV.div (dec32 (xs.foldl add32 x)) (FV.ofRat ((fh * fw : Nat) : Rat)))
  else
    let (y0, y1, fy) := bilinear u p.cropH (Chan.outH c)
    let (x0, x1, fx) := bilinear v p.cropW (Chan.outW c)
    let a := fma32 fx (sub32 (pix y0 x1) (pix y0 x0)) (pix y0 x0)
    let b := fma32 fx (sub32 (pix y1 x1) (pix y1 x0)) (pix y1 x0)
    fma32 fy (sub32 b a) a

/-- The FP32 value of colour `ch` of output frame i, row u, column v, before the output conversion. -/
def pixelOut (c : BitVec 1024) (d : BitVec 512) (p : PixParams) (bytes : List Byte) (i u v ch : Nat) : U32 :=
  let t := p.tStart + i * p.tStride
  let v' := if p.hflip then Chan.outW c - 1 - v else v
  let x := resizeAt c p (fun r q => srcPixel c d bytes t (p.cropY + r) (p.cropX + q) ch) u v'
  fma32 (fma32 p.gain x p.offset) (Chan.scale c ch) (Chan.bias c ch)

/-! ## Output (R339, R151) -/

/-- Channels of a stored position: 3 padded to 16 or 32. -/
def padChans (f : Fmt) : Nat := if isFp8 f then 32 else 16

/-- Bytes and tile exponents of one frame. -/
def frameBytes (c : BitVec 1024) : Nat := Chan.outH c * Chan.outW c * padChans (Chan.outFmt c) * fmtBytes (Chan.outFmt c)
def frameExpBytes (c : BitVec 1024) : Nat := if isFp8 (Chan.outFmt c) then Chan.outH c * Chan.outW c else 0

/-- One converted position of a frame: its bytes padded with zeros, its exponent, and its counts. -/
def pixelBytes (c : BitVec 1024) (xs : List U32) : List Byte × List Byte × Tally :=
  let f := Chan.outFmt c
  let conv : Conv := ⟨.ne, true, .computed⟩
  if isFp8 f then
    let g := outGroup f conv (xs.map OutVal.of) [0, 0, 0]
    (g.1, [g.2.1], g.2.2)
  else
    let (bs, _, t) := outBytes ⟨⟨.hbm, 0⟩, f, 3, ⟨.hbm, 0⟩, 3⟩ (some conv) (xs.map OutVal.of) [0, 0, 0]
    (bs ++ List.replicate (2 * 13) 0, [], t)

/-- A pixel sample's frames: element bytes, tile exponents and counts. -/
def decodeFrames (ch : Nat) (c : BitVec 1024) (d : BitVec 512) (bytes : List Byte) :
    List Byte × List Byte × Tally :=
  match pixParams ch c d with
  | none => ([], [], Tally.zero)
  | some p =>
    let ps := ((upFrom 0 (Chan.frames c)).map fun i => (upFrom 0 (Chan.outH c)).map fun u =>
      (upFrom 0 (Chan.outW c)).map fun v =>
        pixelBytes c ((upFrom 0 3).map fun k => pixelOut c d p bytes i u v k)).flatten.flatten
    ((ps.map fun x => x.1).flatten, (ps.map fun x => x.2.1).flatten, Tally.sum (ps.map fun x => x.2.2))

end Sys2Proof.Machine
end

