-- ==== Sys2Proof/Machine/HbmOps.lean ====
section
/-! DEFINITION. Refresh (R242), error correction, scrubbing and the protection classes (R238 to R241). -/

namespace Sys2Proof.Machine

/-- HBM_REFRESH: the bank is refreshed at 3.9 µs, or at 1.95 µs above 85 °C until the readout falls to 83 °C;
temperatures in 1/16 °C. No stored bit changes. -/
def execHbmRefresh (stack : StackId) (_bank : Nat) (temp : Int) (s : State) : Host.Outcome State Fault Refusal :=
  let fast :=
    if 85 * 16 < temp then true
    else if temp ≤ 83 * 16 then false
    else SMap.get false s.hbm.fastRefresh stack.val
  .next { s with hbm := { s.hbm with fastRefresh := SMap.set false s.hbm.fastRefresh stack.val fast } }

/-- A word's correctable error is corrected, written back and counted for its stack, for the job that runs; a row with such
errors in three different words within the job is due for a remap at the next step boundary (R239). -/
def correctedWord (row : RowAddr) (word : Nat) (s : State) : State :=
  if s.job = none then s
  else
    let rows := if s.hbm.ceRows.contains (row, word) then s.hbm.ceRows else s.hbm.ceRows ++ [(row, word)]
    let due := decide (3 ≤ (rows.filter fun e => decide (e.1 = row)).length)
    let t := { s with hbm := { s.hbm with
      ceRows := rows
      remapDue := if due && !s.hbm.remapDue.contains row then s.hbm.remapDue ++ [row] else s.hbm.remapDue } }
    { t with status := { t.status with
        hbmCe := SMap.set 0 t.status.hbmCe row.stack.val (satInc (SMap.get 0 t.status.hbmCe row.stack.val) 1) } }

/-- The row of a stack-local unit. -/
def rowOfUnit (stack u : Nat) : RowAddr :=
  let p := placeOf u
  ⟨Fin.ofNat 12 stack, p.pc, p.sid, p.bank, p.row⟩

/-- The stack and the stack-local byte of a byte of the tandem reserve: page j lies on stack j mod 12 (R310). -/
def tandemByte (b : Nat) : Nat × Nat := (b / 65536 % 12, 2 ^ 36 + 65536 * (b / 65536 / 12) + b % 65536)

/-- Mark a stack-local word as poisoned: a word of visible memory, of the tandem reserve or of the repair reserve (R231,
R239, R310). -/
def poisonWord (stack w : Nat) (s : State) : State :=
  let b := 32 * w
  match byteAddress s stack b with
  | some a => { s with hbm := { s.hbm with poison := SMap.set false s.hbm.poison (a / 32) true } }
  | none =>
    if 2 ^ 36 ≤ b ∧ b < 2 ^ 36 + 7 * 2 ^ 30 then
      let j := 12 * ((b - 2 ^ 36) / 65536) + stack
      { s with hbm := { s.hbm with
          tandemPoison := SMap.set false s.hbm.tandemPoison ((65536 * j + (b - 2 ^ 36) % 65536) / 32) true } }
    else { s with hbm := { s.hbm with repairPoison := SMap.set false s.hbm.repairPoison (2 ^ 32 * stack + w) true } }

/-- HBM_SCRUB (R239): word `word` of a stack, of its 72 GiB; more than one wrong symbol is uncorrectable (R238). -/
def execHbmScrub (stack : StackId) (word : Nat) (e : WordErrors) (s : State) : Host.Outcome State Fault Refusal :=
  if e.symbols = 0 then .next s
  else if e.symbols = 1 then .next (correctedWord (rowOfUnit stack.val (word / 8)) word s)
  else .next (poisonWord stack.val word s)

/-- Protection classes (R240). -/
inductive ProtClass where
  | state | step | batch | held
deriving DecidableEq, Repr

def protClass (s : State) (a : Nat) : ProtClass :=
  match s.job with
  | none => .held
  | some j =>
    if inRanges j.image.stateRanges a then .state
    else if inRanges j.image.stepRanges a then .step
    else if inRanges j.image.batchRanges a then .batch
    else .held

/-- The step number that a stamp shows (R263): its low 63 bits. -/
def stampStep (x : U64) : Nat := x.toNat % 2 ^ 63
def stampOpen (x : U64) : Bool := bitAt x 63

/-- Restore a 64 KiB page and its stamp from its tandem copy. -/
def restorePage (page : Nat) (p : PageIn) (s : State) : State :=
  let t := devWrite (65536 * page) (p.bytes.take 65536) s
  { t with hbm := { t.hbm with stamps := SMap.set 0 t.hbm.stamps page p.stamp } }

/-- The response to an uncorrectable word of visible memory (R240). -/
def uncorrectable (addr : Nat) (op : U32) (tandem : Option PageIn) (s : State) : State :=
  let r := rowOf s addr
  let s1 := postEvent Code.evHbmUe op (memDetail r.stack.val r.pc) (BitVec.ofNat 64 addr)
    (withCounts (fun c => { c with hbmUes := satInc c.hbmUes 1 }) s)
  match protClass s addr with
  | .state =>
    (match tandem with
      | none => s1
      | some p =>
        let page := addr / 65536
        let shows := decide (stampStep (SMap.get 0 s.hbm.stamps page) = s.status.step.toNat)
        let s2 := postEvent Code.evPageRestore op (memDetail r.stack.val r.pc) (BitVec.ofNat 64 (65536 * page))
          (withCounts (fun c => { c with pagesRestored := satInc c.pagesRestored 1 }) (restorePage page p s1))
        if shows then abortIfRunning s2 else advanceAll s2)
  | .step => abortIfRunning s1
  | .batch => abortIfRunning { s1 with gatehouse := { s1.gatehouse with rebuilding := true } }
  | .held => stopJob Code.hbmUncorrectable op (BitVec.ofNat 64 addr) s1

/-- A read of the tandem reserve: an uncorrectable word is only reported, a correctable one is corrected and counted. -/
def reserveRead (b : Nat) (op : U32) (bad : Bool) (e : WordErrors) (s : State) : State :=
  let (stack, a) := tandemByte b
  let row := rowOfUnit stack (a / 256)
  if bad then postEvent Code.evTandemUe op (memDetail stack row.pc) (BitVec.ofNat 64 (b / 65536)) s
  else if e.symbols = 1 then correctedWord row (a / 32) s
  else s

/-- HBM_READ_RETURN (R238 to R240): a word returns with `e.symbols` wrong symbols, or is poisoned. An uncorrectable
error of a squashed read has no effect, and one in the tandem reserve is only reported. In a reserve `addr` is the byte of
the tandem copy. -/
def execHbmReadReturn (addr : Nat) (op : U32) (e : WordErrors) (squashed reserve : Bool)
    (tandem : Option PageIn) (s : State) : Host.Outcome State Fault Refusal :=
  if reserve then
    let bad := decide (1 < e.symbols) || SMap.get false s.hbm.tandemPoison (addr / 32)
    if bad ∧ squashed then .next s else .next (reserveRead addr op bad e s)
  else
    let bad := decide (1 < e.symbols) || SMap.get false s.hbm.poison (addr / 32)
    if bad then
      if squashed then .next s else .next (uncorrectable addr op tandem s)
    else if e.symbols = 1 then .next (correctedWord (rowOf s addr) ((localByte s addr).2 / 32) s)
    else .next s

end Sys2Proof.Machine
end

