-- ==== Sys2Proof/Machine/Tandem.lean ====
section
/-! DEFINITION. Tandem copies (R309 to R315): the refresh after a commit, what the tandem does with a page, and the
settling of every STATE page by its stamps. -/

namespace Sys2Proof.Machine

/-! ## STATE pages and tandem pages (R310) -/

/-- The device pages of the STATE ranges, in increasing device address. Tandem page j holds the j-th of them. -/
def statePages (img : Image) : List Nat :=
  (img.stateRanges.map fun r => pagesOf r.base r.len).flatten.foldl insertNat []

def pageBytes (s : State) (page : Nat) : List Byte := devRead s (65536 * page) 65536

/-- A device page as tandem page j. -/
def pageOut (s : State) (j page : Nat) : PageIn := ⟨j, SMap.get 0 s.hbm.stamps page, pageBytes s page⟩

/-- Number the pages of a list from `j` on. -/
def numbered : Nat → List Nat → List (Nat × Nat)
  | _, [] => []
  | j, p :: ps => (j, p) :: numbered (j + 1) ps

def jobPages (s : State) : List (Nat × Nat) :=
  match s.job with
  | none => []
  | some j => numbered 0 (statePages j.image)

/-- Send some STATE pages to the tandem, in increasing device address; each waits for its acknowledgement. -/
def sendPages (pages : List (Nat × Nat)) (s : State) : State :=
  let t := emitAll (pages.map fun e => .tandemPage (pageOut s e.1 e.2)) s
  { t with recovery := { t.recovery with unacked := pages.foldl (fun a e => insertNat a e.2) t.recovery.unacked } }

/-! ## The refresh (R312, R313) -/

/-- The refresh has ended: its reference to an instruction bank goes (R146), and a job that waited for it ends:
it is done, or takes the end status of what stopped it (R374). -/
def refreshDone (s : State) : State :=
  if s.recovery.unacked ≠ [] ∨ s.recovery.refreshing then s
  else
    let t := { s with banks := dropRefs (· == noOp) s.banks }
    match t.job with
    | none => t
    | some j => if j.phase = .refreshing then endJob j.stop t else t

/-- TANDEM_REFRESH: after the commit barrier and the replica check, every page whose stamp is the committed step is
sent. -/
def execTandemRefresh (s : State) : Host.Outcome State Fault Refusal :=
  if ¬ s.recovery.refreshing ∨ ¬ s.recovery.replicaOk then .next s
  else
    let pages := (jobPages s).filter fun e => refreshDue s e.2
    let t := sendPages pages s
    .next (refreshDone { t with recovery := { t.recovery with refreshing := false } })

def putTandemStamp (j : Nat) (x : U64) (s : State) : State :=
  { s with hbm := { s.hbm with tandemStamps := SMap.set 0 s.hbm.tandemStamps j x } }

/-- Write bytes of a tandem page; a word written whole loses its poison mark (R239). -/
def putTandemBytes (j : Nat) (bs : List Byte) (s : State) : State :=
  { s with hbm := { s.hbm with
      tandem := Mem.write 0 s.hbm.tandem (65536 * j) bs
      tandemPoison := clearPoison (65536 * j) bs.length s.hbm.tandemPoison } }

/-- Keep a page of the partner: open stamp, bytes, closed stamp. -/
def keepPage (step : U64) (p : PageIn) (s : State) : State :=
  putTandemStamp p.index step (putTandemBytes p.index (p.bytes.take 65536) (putTandemStamp p.index (openStamp step) s))

/-- TANDEM_PAGE_RECEIVE: a page is kept and acknowledged; a reset that strikes after `n` bytes leaves the open stamp
and no acknowledgement. -/
def execTandemPageReceive (step : U64) (p : PageIn) (cut : Option Nat) (s : State) :
    Host.Outcome State Fault Refusal :=
  if ¬ s.hbm.serving then .next s
  else
    match cut with
    | some n => .next (putTandemBytes p.index ((p.bytes.take 65536).take n) (putTandemStamp p.index (openStamp step) s))
    | none => .next (emit (.tandemAck p.index) (keepPage step p s))

/-- The device page of a tandem page number. -/
def devicePage (s : State) (j : Nat) : Option Nat := ((jobPages s).find? fun e => e.1 == j).map fun e => e.2

/-- A page's acknowledgement is in: sweeps that wait to open it go on (R313). -/
def ackPage (page : Nat) (s : State) : State :=
  let t := { s with recovery := { s.recovery with unacked := s.recovery.unacked.filter (· ≠ page) } }
  t.msu.sweeps.foldl (fun u w => openInto w u) t

/-! ## The ends of a Restore phase and of a settling (R315, R317) -/

/-- The pause ends. -/
def resume (s : State) : State :=
  withStatus (fun r => { r with paused := false })
    { s with recovery := { s.recovery with paused := false, lost := [], restoring := false } }

/-- The Restore phase ends on this module once every page that it has sent is acknowledged. -/
def endRestore (s : State) : State :=
  if s.recovery.restoring ∧ s.recovery.unacked = [] ∧ s.recovery.kept = [] then resume s else s

/-- Every page is settled: the job stands at its step boundary. -/
def endSettling (s : State) : State :=
  match s.job with
  | none => s
  | some j =>
    if j.phase = .settling ∧ s.recovery.settled ∧ s.recovery.unacked = [] then
      { s with
        job := some { j with phase := .boundary }
        recovery := { s.recovery with settled := false, swept := [] } }
    else s

/-! ## Settling (R315) -/

/-- The action for one page. -/
inductive Settle where
  | keep | refresh | restore | bad
deriving DecidableEq, Repr

/-- The settling table for a page with its local and tandem stamps, under the commit word. A page that the sweep of step
0 has closed counts as above a commit word of 2^64 − 1, and as newer than its copy once step 0 has committed
(assumption log 20). -/
def settleAct (s : State) (page : Nat) (loc tan : U64) : Settle :=
  let c := s.hbm.commitWord.toNat
  let new := s.recovery.swept.contains page
  let lOk := !stampOpen loc && decide (stampStep loc ≤ c) && !(new && s.hbm.commitWord == 0xFFFFFFFFFFFFFFFF)
  let tOk := !stampOpen tan && decide (stampStep tan ≤ c)
  if ¬ lOk then (if tOk then .restore else .bad)
  else if loc = tan ∧ ¬ new then .keep
  else if stampOpen tan ∨ stampStep tan < stampStep loc ∨ new then .refresh
  else .bad

def stampIn (stamps : List (Nat × U64)) (j : Nat) : U64 := ((stamps.find? fun e => e.1 == j).map fun e => e.2).getD 0

/-- The restored copy of a page that settling asks for. -/
def restoredIn (pages : List PageIn) (j : Nat) : Option PageIn := pages.find? fun p => p.index == j

/-- Restore one page from its tandem copy, and report it (R329). -/
def settleRestore (page : Nat) (p : PageIn) (s : State) : State :=
  postEvent Code.evPageRestore noOp 0 (BitVec.ofNat 64 (65536 * page))
    (withCounts (fun c => { c with pagesRestored := satInc c.pagesRestored 1 }) (restorePage page p s))

/-- Settle every page, in increasing device address. -/
def settlePages (stamps : List (Nat × U64)) (restored : List PageIn) :
    List (Nat × Nat) → State → State
  | [], s => s
  | (j, page) :: rest, s =>
    let loc := SMap.get 0 s.hbm.stamps page
    let t :=
      match settleAct s page loc (stampIn stamps j) with
      | .refresh => sendPages [(j, page)] s
      | .restore =>
        (match restoredIn restored j with
          | some p => settleRestore page ⟨j, stampIn stamps j, p.bytes⟩ s
          | none => s)
      | .keep => s
      | .bad => s
    settlePages stamps restored rest t

/-- The actions of every page, judged before any is changed. -/
def settleActs (stamps : List (Nat × U64)) (s : State) : List (Nat × Settle) :=
  (jobPages s).map fun e => (e.1, settleAct s e.2 (SMap.get 0 s.hbm.stamps e.2) (stampIn stamps e.1))

/-- PAGE_SETTLE: a combination outside the table halts the job and changes no page; otherwise, once the restored pages
are here, every page is settled, and the job stands at its step boundary once the tandem has acknowledged what it was sent. -/
def execPageSettle (tandemStamps : List (Nat × U64)) (restored : List PageIn) (s : State) :
    Host.Outcome State Fault Refusal :=
  match s.job with
  | none => .next s
  | some j =>
    if j.phase ≠ .settling ∨ s.recovery.paused ∨ s.recovery.settled then .next s
    else
      let acts := settleActs tandemStamps s
      if acts.any fun a => decide (a.2 = .bad) then .next (haltJob Code.failStamp noOp 0 s)
      else if acts.any fun a => decide (a.2 = .restore) && (restoredIn restored a.1).isNone then .next s
      else
        let t := settlePages tandemStamps restored (jobPages s) s
        .next (endSettling { t with recovery := { t.recovery with settled := true } })

end Sys2Proof.Machine
end

