-- ==== Sys2Proof/Machine/Text.lean ====
section
/-! DEFINITION. The dictionary image (R341) and the tokenizer (R342). -/

namespace Sys2Proof.Machine

/-! ## The dictionary image (R341) -/

/-- Read `count` entries; none where one is out of limits or would run past the bytes. -/
def dictEntries : Nat → List Byte → Option (List DictEntry × List Byte)
  | 0, bs => some ([], bs)
  | n + 1, bs =>
    let len := ofLe ((bs.drop 4).take 1)
    if bs.length < 5 + len ∨ len = 0 ∨ 48 < len then none
    else
      (dictEntries n (bs.drop (5 + len))).map fun r =>
        (⟨BitVec.ofNat 32 (ofLe (bs.take 4)), (bs.drop 5).take len⟩ :: r.1, r.2)

/-- No two entries have the same byte string. -/
def distinctStrings : List DictEntry → Bool
  | [] => true
  | e :: es => !(es.any fun x => x.bytes == e.bytes) && distinctStrings es

/-- The entries and the fallback base of a dictionary image, from the 64 B header and the bytes that follow it; none
where R341 refuses it. -/
def parseDict (header : List Byte) (body : List Byte) : Option (List DictEntry × U32) :=
  let word (i : Nat) := ofLe ((header.drop (4 * i)).take 4)
  let count := word 1
  let strings := word 3
  if word 0 = 0x49444847 ∧ count ≤ 262144 ∧ strings ≤ 4194304 ∧ word 2 ≤ 0xFFFFFF00 ∧ ofLe (header.drop 16) = 0 then
    match dictEntries count (body.take (5 * count + strings)) with
    | none => none
    | some (es, rest) =>
      if rest = [] ∧ (es.map fun e => e.bytes.length).sum = strings ∧ distinctStrings es then
        some (es, BitVec.ofNat 32 (word 2))
      else none
  else none

/-! ## The tokenizer (R342) -/

/-- A walk down the trie: the longest token found with its length, and the lookups made. -/
structure Walk where
  best : Nat
  token : U32
  looks : Nat
deriving DecidableEq, Repr

/-- Steps of the trie from a node, which is the list of entries below it, each with the bytes it still has; none past
the budget. -/
def walkTrie (budget : Nat) : List Byte → List (U32 × List Byte) → Nat → Walk → Option Walk
  | [], _, _, w => if budget < w.looks + 1 then none else some { w with looks := w.looks + 1 }
  | b :: bs, node, depth, w =>
    if budget < w.looks + 1 then none
    else
      let next := node.filterMap fun e => if e.2.head? = some b then some (e.1, e.2.drop 1) else none
      if next.isEmpty then some { w with looks := w.looks + 1 }
      else
        match next.find? fun e => e.2.isEmpty with
        | some e => walkTrie budget bs next (depth + 1) ⟨depth + 1, e.1, w.looks + 1⟩
        | none => walkTrie budget bs next (depth + 1) { w with looks := w.looks + 1 }

/-- Tokens of a byte string by greedy longest match, and the lookups; none where the budget is passed. -/
def tokenizeFrom (dict : List DictEntry) (fallback : U32) (budget : Nat) :
    Nat → List Byte → Nat → Option (List U32 × Nat)
  | 0, _, l => some ([], l)
  | _, [], l => some ([], l)
  | fuel + 1, b :: bs, l =>
    match walkTrie budget (b :: bs) (dict.map fun e => (e.token, e.bytes)) 0 ⟨0, 0, l⟩ with
    | none => none
    | some w =>
      let tok := if w.best = 0 then fallback + BitVec.ofNat 32 b.toNat else w.token
      (tokenizeFrom dict fallback budget fuel ((b :: bs).drop (max 1 w.best)) w.looks).map fun r => (tok :: r.1, r.2)

def tokenize (dict : List DictEntry) (fallback : U32) (budget : Nat) (bytes : List Byte) : Option (List U32 × Nat) :=
  tokenizeFrom dict fallback budget bytes.length bytes 0

/-- The running mean after a decoded sample of `looks` lookups. -/
def nextMean (mean : U32) (looks : Nat) : U32 :=
  BitVec.ofInt 32 ((mean.toNat : Int) + (256 * (looks : Int) - mean.toNat) / 64)

end Sys2Proof.Machine
end

