-- ==== Sys2Proof/Machine/Gatehouse.lean ====
section
/-! DEFINITION. The Gatehouse (R330 to R348, R366, R453): sample rings, placement, the test of each sample, reserve
entries, the rows of a batch, the STATE page and rebuilds. -/

namespace Sys2Proof.Machine

/-! ## Channels -/

def getChan (s : State) (c : Nat) : GhChan := nthD GhChan.reset s.gatehouse.chans c

def setChan (c : Nat) (f : GhChan → GhChan) (s : State) : State :=
  { s with gatehouse := { s.gatehouse with chans := updNth f s.gatehouse.chans c } }

def chanOn (c : GhChan) : Bool := Chan.path c.cfg != 0
def chanIsText (c : GhChan) : Bool := Chan.path c.cfg == 2

/-- The numbers of the active channels. -/
def activeChans (s : State) : List Nat := (upFrom 0 16).filter fun c => chanOn (getChan s c)

/-- The causes of odd samples in the order of R346. -/
def causeNo : OddCause → Nat
  | .check => 0
  | .alive => 1
  | .dims => 2
  | .nan => 3
  | .overLength => 4
  | .budget => 5
  | .reserved => 6

/-- Add to a count of the batch being built. -/
def tallyAdd (i n : Nat) (c : GhChan) : GhChan := { c with tally := updNth (· + n) c.tally i }

/-! ## State blocks (R347) -/

/-- The state of a channel at the start of its current batch. -/
def chanBlock (c : GhChan) : BitVec 512 :=
  BitVec.ofNat 512 (c.ringPos.toNat + c.batch.toNat * 2 ^ 64 + c.descAlive.toNat * 2 ^ 144 +
    c.recAlive.toNat * 2 ^ 152 + c.descSet.toNat * 2 ^ 160 + c.recSet.toNat * 2 ^ 161 + c.meanQ.toNat * 2 ^ 176)

/-- A channel restarted from a block, with nothing of the batch built. -/
def chanFrom (b : BitVec 512) (c : GhChan) : GhChan :=
  { c with
    ringPos := BitVec.ofNat 64 (field b 63 0)
    taken := BitVec.ofNat 64 (field b 63 0)
    batch := BitVec.ofNat 64 (field b 127 64)
    descAlive := BitVec.ofNat 8 (field b 151 144)
    recAlive := BitVec.ofNat 8 (field b 159 152)
    descSet := bitAt b 160
    recSet := bitAt b 161
    meanQ := BitVec.ofNat 32 (field b 207 176) }

/-- The decode budget of a batch (R342). -/
def batchBudget (c : GhChan) : Nat :=
  min (Chan.budgetCap c.cfg) (max 4096 (Chan.budgetMult c.cfg * c.meanQ.toNat / 256))

def blockBatch (b : BitVec 512) : Nat := field b 127 64

/-- A batch begins: its budget is fixed, its rows are empty, and its starting state is held. -/
def startBatch (c : GhChan) : GhChan :=
  { c with
    budget := batchBudget c
    samples := []
    occ := List.replicate (Chan.rows c.cfg) 0
    cnt := List.replicate (Chan.rows c.cfg) 0
    ended := false
    reserve := none
    used := 0
    tally := List.replicate 12 0
    saved := (c.saved.filter fun b => decide (blockBatch b < c.batch.toNat)) ++ [chanBlock c] }

/-- A channel as the job's tables give it, at batch 0 (R342, R366). -/
def freshChan (cfg : BitVec 1024) (ring : BitVec 256) (counts : U64 × U64) : GhChan :=
  startBatch { GhChan.reset with
    cfg := cfg
    ctrl := BitVec.ofNat 64 (field ring 127 64)
    ringLog := field ring 135 128
    producer := counts.1
    consumer := counts.2
    ringPos := counts.2
    taken := counts.2
    meanQ := BitVec.ofNat 32 (256 * Chan.meanInit cfg) }

/-- The Gatehouse at job start. -/
def ghInit (j : Job) : Gatehouse :=
  ⟨(upFrom 0 16).map fun c =>
    let cfg := nthD 0 j.channels c
    if Chan.path cfg = 0 then GhChan.reset else freshChan cfg (nthD 0 j.rings c) (nthD (0, 0) j.ringCounts c),
    [], 0, false, false, false⟩

/-! ## The rings (R365) -/

/-- A producer value that lowers the producer, or runs more than the ring's size past the consumer. -/
def producerBad (c : GhChan) (producer : U64) : Bool :=
  decide (producer.toNat < c.producer.toNat) || decide (c.consumer.toNat + 2 ^ c.ringLog < producer.toNat)

/-- Where the Gatehouse works: in a job that has passed its barrier and has not come to its end. -/
def ghRuns (s : State) : Bool :=
  match s.job with
  | none => false
  | some j =>
    match j.phase with
    | .settling => true
    | .boundary => true
    | .inStep => true
    | .aborted => true
    | .barrier => false
    | .atCut => false
    | .dumping => false
    | .held => false
    | .refreshing => false
    | .halted => false

/-- A producer that the module reads while its job waits in the start barrier: the job will begin with it (R366). -/
def notePending (j : Job) (ch : Nat) (producer : U64) (s : State) : State :=
  let counts := (upFrom 0 16).map (nthD (0, 0) j.ringCounts)
  { s with job := some { j with ringCounts := updNth (fun n => (producer, n.2)) counts ch } }

/-- A channel of a job that waits in its start barrier, as its tables give it. -/
def pendingChan (j : Job) (ch : Nat) : GhChan := freshChan (nthD 0 j.channels ch) (nthD 0 j.rings ch) (nthD (0, 0) j.ringCounts ch)

/-- SAMPLE_RING_PRODUCER_UPDATE (R364, R365): the new value is taken at once; a ring fault stops the job. A halted job waits
for the host (R328). -/
def execSampleRingProducerUpdate (ch : Chan) (producer : U64) (s : State) : Host.Outcome State Fault Refusal :=
  match s.job with
  | none => .next s
  | some j =>
    let waits := decide (j.phase = .barrier)
    let c := if waits then pendingChan j ch.val else getChan s ch.val
    if ¬ chanOn c ∨ j.phase = .halted then .next s
    else if producerBad c producer then .next (stopJob Code.ghRing noOp 0 s)
    else if waits then .next (notePending j ch.val producer s)
    else .next (setChan ch.val (fun c => { c with producer := producer }) s)

/-! ## The dictionary (R341) -/

/-- DICTIONARY_LOAD: the job's dictionary image goes into the Gatehouse's store. -/
def execDictionaryLoad (s : State) : Host.Outcome State Fault Refusal :=
  match s.job with
  | none => .next s
  | some j =>
    if ¬ ghRuns s ∨ ¬ usesDict j ∨ s.gatehouse.loaded then .next s
    else
      let a := Desc.dictAddr j.desc
      match parseDict (devRead s a 64) (devRead s (a + 64) (dictExtent s a - 64)) with
      | none => .next s
      | some (es, fb) =>
        .next { s with gatehouse := { s.gatehouse with dict := es, fallback := fb, loaded := true } }

/-! ## Placement (R343) -/

/-- The lowest row that takes a slot. -/
def placeRow (c : GhChan) (slotLen : Nat) : Option Nat :=
  (upFrom 0 c.occ.length).find? fun r =>
    decide (nthD 0 c.occ r + slotLen ≤ Chan.rowLen c.cfg) && decide (nthD 0 c.cnt r < 65535)

/-- slot_len is 0, above row_len or above 65,536. -/
def slotLenBad (c : GhChan) (d : BitVec 512) : Bool :=
  Samp.slotLen d == 0 || decide (Chan.rowLen c.cfg < Samp.slotLen d) || decide (65536 < Samp.slotLen d)

/-! ## Tests (R337, R453) -/

def descOk (d : BitVec 512) : Bool := guardedValue (leBytes 60 d.toNat) 0x53 (Samp.alive d) == Samp.descCrc d

/-- The alive comparison of a descriptor whose check passes, and the channel with its expectation moved on. -/
def aliveStep (d : BitVec 512) (c : GhChan) : Bool × GhChan :=
  if ¬ c.descSet ∨ Samp.alive d = c.descAlive then
    (true, { c with descSet := true, descAlive := Samp.alive d + 1 })
  else (false, c)

/-- Steps 1 to 5 for a sample or, without steps 2 and 4, for a reserve entry. -/
def descCause (ch : Nat) (c : GhChan) (entry aliveOk : Bool) (d : BitVec 512) : Option OddCause :=
  if ¬ descOk d then some .check
  else if ¬ entry ∧ slotLenBad c d then some .overLength
  else if ¬ Samp.reservedZero d then some .reserved
  else if ¬ entry ∧ ¬ aliveOk then some .alive
  else if ¬ chanIsText c ∧ ¬ dimsOk ch c.cfg d then some .dims
  else none

/-- What a sample decodes to: odd, or a content with its length, its lookups and its conversion counts. -/
inductive Decoded where
  | odd (cause : OddCause)
  | good (content : Content) (len looks : Nat) (counts : Tally)
deriving DecidableEq, Repr

/-- Steps 6 to 8: the bytes, checked and decoded. -/
def decodeSample (ch : Nat) (s : State) (c : GhChan) (d : BitVec 512) (bytes : Option (List Byte)) : Decoded :=
  match bytes with
  | none => .odd .check
  | some bs =>
    if 2 ^ 64 < Samp.dataAddr d + Samp.dataLen d ∨ bs.length ≠ Samp.dataLen d ∨ crc32c bs ≠ Samp.dataCrc d then
      .odd .check
    else if chanIsText c then
      match tokenize s.gatehouse.dict s.gatehouse.fallback c.budget bs with
      | none => .odd .budget
      | some (ts, l) => .good (.tokens ts) ts.length l Tally.zero
    else if sourceNan c.cfg bs then .odd .nan
    else
      let (b, e, t) := decodeFrames ch c.cfg d bs
      .good (.frames (Chan.frames c.cfg) b e) (Chan.frames c.cfg) 0 t

/-- A decoded sample that is not odd updates the running mean of a text channel (R342). -/
def learn (looks : Nat) (c : GhChan) : GhChan :=
  if chanIsText c then { c with meanQ := nextMean c.meanQ looks } else c

/-! ## Descriptors (R331, R343) -/

/-- A sample's row and outcome as its descriptor alone decides them. -/
def takeSample (ch : Nat) (d : BitVec 512) (c : GhChan) : GhChan :=
  let (aliveOk, c1) := if descOk d then aliveStep d c else (false, c)
  let c2 := { c1 with taken := c1.taken + 1, ended := Samp.endOfBatch d }
  let put (row : Option Nat) (x : Sample) (c : GhChan) : GhChan :=
    let c := { c with samples := c.samples ++ [x] }
    match row with
    | none => c
    | some r => { c with occ := updNth (· + Samp.slotLen d) c.occ r, cnt := updNth (· + 1) c.cnt r }
  if ¬ descOk d then tallyAdd (causeNo .check) 1 (put none ⟨d, none, false, false, none⟩ c2)
  else if slotLenBad c d then tallyAdd (causeNo .overLength) 1 (put none ⟨d, none, false, false, none⟩ c2)
  else
    match placeRow c (Samp.slotLen d) with
    | none => tallyAdd 8 1 (put none ⟨d, none, false, false, none⟩ c2)
    | some r =>
      match descCause ch c false aliveOk d with
      | some k => tallyAdd (causeNo k) 1 (put (some r) ⟨d, some r, false, true, none⟩ c2)
      | none => put (some r) ⟨d, some r, true, false, none⟩ c2

/-- The step that a channel's current batch serves. -/
def batchStep (j : Job) (c : GhChan) : Nat := Desc.firstStep j.desc + c.batch.toNat

/-- A channel may take its next descriptor: one is published, its batch is open, and the batch lies within the four that
are held (R332) and within the job. -/
def mayTake (s : State) (j : Job) (c : GhChan) : Bool :=
  chanOn c && !c.ended && decide (c.taken.toNat < c.producer.toNat) &&
    decide (batchStep j c < s.status.step.toNat + 4) && decide (batchStep j c ≤ Desc.lastStep j.desc) &&
    (s.gatehouse.loaded || !usesDict j) && !s.gatehouse.rebuilding

/-- SAMPLE_DESCRIPTOR. -/
def execSampleDescriptor (ch : Chan) (desc : BitVec 512) (s : State) : Host.Outcome State Fault Refusal :=
  match s.job with
  | none => .next s
  | some j =>
    if ghRuns s ∧ mayTake s j (getChan s ch.val) then .next (setChan ch.val (takeSample ch.val desc) s)
    else .next s

/-! ## The reserve list (R336, R357) -/

/-- A record of the channel's record stream is accepted, and the channel with its expectation moved on. -/
def acceptRecord (rec : BitVec 512) (c : GhChan) : Bool × GhChan :=
  let alive := BitVec.ofNat 8 (field rec 479 472)
  if guardedValue (leBytes 59 rec.toNat) 0x4C alive ≠ BitVec.ofNat 32 (field rec 511 480) then (false, c)
  else if ¬ c.recSet ∨ alive = c.recAlive then (true, { c with recSet := true, recAlive := alive + 1 })
  else (false, c)

/-- The reserve list of the batch: the record's entries, or the empty list, which counts one failure. -/
def takeRecord (rec : BitVec 512) (c : GhChan) : GhChan :=
  let (ok, c1) := acceptRecord rec c
  if ok ∧ BitVec.ofNat 64 (field rec 319 256) = c.batch ∧ field rec 327 320 ≤ 8 ∧ field rec 471 328 = 0 then
    { c1 with reserve := some ((upFrom 0 (field rec 327 320)).map fun i => field rec (32 * i + 31) (32 * i)) }
  else tallyAdd 9 1 { c1 with reserve := some [] }

/-- RESERVE_LIST_RECORD: the record of a batch whose last descriptor is in. -/
def execReserveListRecord (ch : Chan) (rec : BitVec 512) (s : State) : Host.Outcome State Fault Refusal :=
  let c := getChan s ch.val
  if ghRuns s ∧ chanOn c ∧ c.ended ∧ c.reserve = none then .next (setChan ch.val (takeRecord rec) s)
  else .next s

/-! ## Bytes and replacements (R344, R346) -/

/-- The first sample of the batch that waits for bytes or, while the reserve list lasts, for a replacement. -/
def nextPending (c : GhChan) : Option Nat :=
  match c.reserve with
  | none => none
  | some l => c.samples.findIdx? fun x => x.awaiting || (x.needsReserve && decide (c.used < l.length))

def setSample (i : Nat) (f : Sample → Sample) (c : GhChan) : GhChan := { c with samples := updNth f c.samples i }

/-- Count the saturated and flushed elements of a content that is placed (R339). -/
def countContent (t : Tally) (c : GhChan) : GhChan := tallyAdd 10 t.sat (tallyAdd 11 t.flush c)

/-- A sample's bytes are in. -/
def takeBytes (ch : Nat) (s : State) (i : Nat) (x : Sample) (bytes : Option (List Byte)) (c : GhChan) : GhChan :=
  let odd (k : OddCause) : GhChan :=
    tallyAdd (causeNo k) 1 (setSample i (fun x => { x with awaiting := false, needsReserve := true }) c)
  match decodeSample ch s c x.desc bytes with
  | .odd k => odd k
  | .good content len looks counts =>
    if Samp.slotLen x.desc < len then odd .overLength
    else
      learn looks (countContent counts
        (setSample i (fun x => { x with awaiting := false, content := some content }) c))

/-- SAMPLE_BYTES_ARRIVE: the bytes of the first pending sample, or an error of their read. -/
def execSampleBytesArrive (ch : Chan) (bytes : Option (List Byte)) (s : State) : Host.Outcome State Fault Refusal :=
  let c := getChan s ch.val
  match nextPending c with
  | none => .next s
  | some i =>
    match c.samples[i]? with
    | none => .next s
    | some x =>
      if ghRuns s ∧ x.awaiting then .next (setChan ch.val (takeBytes ch.val s i x bytes) s) else .next s

/-- A reserve entry is tried for an odd sample's slot. -/
def takeEntry (ch : Nat) (s : State) (i : Nat) (x : Sample) (d : BitVec 512) (bytes : Option (List Byte))
    (c : GhChan) : GhChan :=
  let c1 := { c with used := c.used + 1 }
  match descCause ch c true true d with
  | some k => tallyAdd (causeNo k) 1 c1
  | none =>
    match decodeSample ch s c d bytes with
    | .odd k => tallyAdd (causeNo k) 1 c1
    | .good content len looks counts =>
      if len ≤ Samp.slotLen x.desc then
        learn looks (countContent counts (tallyAdd 7 1
          (setSample i (fun x => { x with needsReserve := false, content := some content }) c1)))
      else learn looks (setSample i (fun x => { x with needsReserve := false }) c1)

/-- RESERVE_ENTRY: the next unused entry of the reserve list, for the first pending sample. -/
def execReserveEntry (ch : Chan) (desc : BitVec 512) (bytes : Option (List Byte)) (s : State) :
    Host.Outcome State Fault Refusal :=
  let c := getChan s ch.val
  match nextPending c with
  | none => .next s
  | some i =>
    match c.samples[i]? with
    | none => .next s
    | some x =>
      if ghRuns s ∧ ¬ x.awaiting then .next (setChan ch.val (takeEntry ch.val s i x desc bytes) s) else .next s

/-! ## The rows (R331, R344, R345) -/

def contentLen : Content → Nat
  | .tokens t => t.length
  | .frames n _ _ => n

/-- The contents of a row in placement order; empty ones make no segment. -/
def rowContents (c : GhChan) (r : Nat) : List Content :=
  (c.samples.filter fun x => x.row == some r).filterMap fun x =>
    match x.content with
    | none => none
    | some k => if contentLen k = 0 then none else some k

/-- The bytes of one position, its tile exponents, and those of a padding position. -/
def posBytes (c : GhChan) : Nat := if chanIsText c then 4 else frameBytes c.cfg
def posExps (c : GhChan) : Nat := if chanIsText c then 0 else frameExpBytes c.cfg

def contentBytes : Content → List Byte
  | .tokens t => (t.map fun x => leBytes 4 x.toNat).flatten
  | .frames _ b _ => b

def contentExps : Content → List Byte
  | .tokens _ => []
  | .frames _ _ e => e

/-- The marks of the contents of a row, from segment `seg` on. -/
def contentMarks : Nat → List Content → List Byte
  | _, [] => []
  | seg, k :: ks =>
    ((upFrom 0 (contentLen k)).map fun p => leBytes 4 (65536 * seg + p)).flatten ++ contentMarks (seg + 1) ks

/-- Pad a list to `n`. -/
def padTo (n : Nat) (b : Byte) (bs : List Byte) : List Byte := bs ++ List.replicate (n - bs.length) b

/-- Marks of padding positions, `n` of them. -/
def padMarks (n : Nat) : List Byte := ((upFrom 0 n).map fun _ => leBytes 4 0xFFFF0000).flatten

/-- Row r: data, tile exponents and marks. -/
def rowData (c : GhChan) (r : Nat) : List Byte :=
  padTo (posBytes c * Chan.rowLen c.cfg) (if chanIsText c then 0xFF else 0) ((rowContents c r).map contentBytes).flatten
def rowExps (c : GhChan) (r : Nat) : List Byte :=
  padTo (posExps c * Chan.rowLen c.cfg) 127 ((rowContents c r).map contentExps).flatten
def rowMarks (c : GhChan) (r : Nat) : List Byte :=
  let ks := rowContents c r
  contentMarks 0 ks ++ padMarks (Chan.rowLen c.cfg - (ks.map contentLen).sum)

/-- A channel's section of a batch slot. -/
def sectionBytes (c : GhChan) : List Byte :=
  let rs := upFrom 0 (Chan.rows c.cfg)
  (rs.map (rowData c)).flatten ++ (rs.map (rowExps c)).flatten ++ (rs.map (rowMarks c)).flatten

/-- Where a channel's section of a step's batch lies. -/
def sectionAddr (b : BatchDecl) (step ch : Nat) : Nat := b.area + step % 4 * b.stride + nthD 0 b.sections ch

/-- Add a batch's counts to the status record, at its first build on the module (R348). -/
def countBatch (ch : Nat) (c : GhChan) (s : State) : State :=
  if c.batch.toNat < c.built then s
  else
    { s with status := { s.status with gh := (upFrom 0 12).foldl (fun m i =>
        SMap.set 0 m (12 * ch + i) (satInc (SMap.get 0 m (12 * ch + i)) (nthD 0 c.tally i))) s.status.gh } }

/-- The channel goes on to its next batch. -/
def nextBatch (c : GhChan) : GhChan :=
  startBatch { c with batch := c.batch + 1, ringPos := c.taken, built := max c.built (c.batch.toNat + 1) }

/-- A batch is complete: its section is written, its counts are added, and the next batch begins. -/
def completeBatch (j : Job) (ch : Nat) (s : State) : State :=
  let c := getChan s ch
  let t :=
    match j.image.batch with
    | none => s
    | some b => devWrite (sectionAddr b (batchStep j c) ch) (sectionBytes c) s
  setChan ch nextBatch (countBatch ch c t)

/-- BATCH_COMPLETE: nothing of the batch is pending any more. -/
def execBatchComplete (ch : Chan) (s : State) : Host.Outcome State Fault Refusal :=
  match s.job with
  | none => .next s
  | some j =>
    let c := getChan s ch.val
    if ghRuns s ∧ chanOn c ∧ c.ended ∧ c.reserve ≠ none ∧ nextPending c = none then .next (completeBatch j ch.val s)
    else .next s

/-- The batch of a step is complete on every active channel. -/
def batchReady (s : State) (j : Job) (step : Nat) : Bool :=
  !s.gatehouse.rebuilding && (activeChans s).all fun c => decide (step < batchStep j (getChan s c))

/-! ## Release (R332, R366) -/

/-- The held state of a channel at the start of batch k. -/
def savedBlock (c : GhChan) (k : Nat) : Option (BitVec 512) := c.saved.find? fun b => blockBatch b == k

/-- Step s has committed: the consumer passes its batch's descriptors, and states before the next batch go. -/
def releaseChan (k : Nat) (s : State) (ch : Nat) : State :=
  let c := getChan s ch
  match savedBlock c (k + 1) with
  | none => s
  | some b =>
    hostWrite (c.ctrl.toNat + 64) (leBytes 8 (field b 63 0))
      (setChan ch (fun c => { c with
        consumer := BitVec.ofNat 64 (field b 63 0)
        saved := c.saved.filter fun x => decide (k + 1 ≤ blockBatch x) }) s)

def releaseBatch (j : Job) (step : Nat) (s : State) : State :=
  (activeChans s).foldl (releaseChan (step - Desc.firstStep j.desc)) s

/-! ## The STATE page (R347) -/

/-- The bytes of the page for the start of batch k. -/
def ghPageBytes (s : State) (k : Nat) : List Byte :=
  ((upFrom 0 16).map fun ch =>
    let c := getChan s ch
    if chanOn c then leBytes 64 ((savedBlock c k).getD 0).toNat else List.replicate 64 0).flatten ++
    List.replicate (65536 - 1024) 0

/-- Write the page for the start of batch k. -/
def writeGhPage (j : Job) (k : Nat) (s : State) : State :=
  match j.image.batch with
  | none => s
  | some b => devWrite b.ghPage (ghPageBytes s k) s

/-- GATEHOUSE_STATE_PAGE: in step s, once its batch is complete, the page is opened, the state as of the start of the next
batch is written, and the page is closed with s (R263, R347); a page whose refresh is in flight waits (R313). -/
def execGatehouseStatePage (s : State) : Host.Outcome State Fault Refusal :=
  match s.job with
  | none => .next s
  | some j =>
    match j.image.batch with
    | none => .next s
    | some b =>
      let step := s.status.step.toNat
      let page := b.ghPage / 65536
      if inStep s ∧ batchReady s j step ∧ ¬ refreshHolds s page then
        .next (closeStamp page (writeGhPage j (step + 1 - Desc.firstStep j.desc)
          (putStamp page (openStamp s.status.step) s)))
      else .next s

/-! ## Rebuilding (R348, R395) -/

/-- The state of a channel at the start of batch k, for a rebuild: held internally, or read from the STATE page; before
batch 0 has been served, as the job's tables give it. -/
def rebuildChan (s : State) (j : Job) (k ch : Nat) (c : GhChan) : GhChan :=
  if ¬ chanOn c then c
  else if k = 0 then
    { freshChan c.cfg 0 (c.producer, c.consumer) with ctrl := c.ctrl, ringLog := c.ringLog, built := c.built }
  else
    let b : BitVec 512 :=
      if s.gatehouse.fromPage then
        (match j.image.batch with
          | none => 0
          | some d => BitVec.ofNat 512 (devNat s (d.ghPage + 64 * ch) 64))
      else (savedBlock c k).getD 0
    startBatch (chanFrom b c)

/-- Apply a function to each element with its number, from `k` on. -/
def mapNumbered {α : Type} (f : Nat → α → α) : Nat → List α → List α
  | _, [] => []
  | k, x :: xs => f k x :: mapNumbered f (k + 1) xs

/-- The STATE page holds the start of batch k of every active channel: it has been restored and settled (R317, R395). Batch
0 starts from the job's tables. -/
def pageServes (s : State) (j : Job) (k : Nat) : Bool :=
  k == 0 || match j.image.batch with
    | none => true
    | some d => (activeChans s).all fun ch => blockBatch (BitVec.ofNat 512 (devNat s (d.ghPage + 64 * ch) 64)) == k

/-- A rebuild may start: at once from what the Gatehouse holds, and from the STATE page once the module stands at its step
boundary with every page settled (R315, R348). -/
def mayRebuild (s : State) (j : Job) (k : Nat) : Bool :=
  s.gatehouse.rebuilding &&
    (!s.gatehouse.fromPage || (decide (j.phase = .boundary) && !s.recovery.paused && pageServes s j k))

/-- BATCH_REBUILD: every channel goes back to the batch of the uncommitted step. -/
def execBatchRebuild (s : State) : Host.Outcome State Fault Refusal :=
  match s.job with
  | none => .next s
  | some j =>
    let k := s.status.step.toNat - Desc.firstStep j.desc
    if ghRuns s ∧ mayRebuild s j k then
      .next { s with gatehouse := { s.gatehouse with
        chans := mapNumbered (rebuildChan s j k) 0 s.gatehouse.chans
        rebuilding := false
        fromPage := false } }
    else .next s

end Sys2Proof.Machine
end

