-- ==== Sys2Proof/Machine/Remap.lean ====
section
/-! DEFINITION. Cores that change places (R97, R426 to R429) and the beginning of a replay (R21, R308). -/

namespace Sys2Proof.Machine

/-! ## Remaps under R97 -/

/-- The parked core of a domain that a rotation has under test. -/
def rotatingIn (s : State) (d : Nat) : Option Nat :=
  (s.selfTest.parked.find? fun e => e.2 && domainOf e.1 == d).map fun e => e.1

/-- A rotation's test is abandoned where a domain needs its spare: the parked core becomes the spare (R429). -/
def abandonTest (p : Nat) (s : State) : State :=
  setEntry p (fun e => { e with state := .spare })
    { s with selfTest := { s.selfTest with parked := s.selfTest.parked.filter fun e => e.1 ≠ p } }

/-- A physical core is remapped out: its logical core moves to the domain's spare, and it is parked for a test, or, at its
second remap of the job, FAILED whatever a test would show (R428; DEDUCED, assumption log 109); none where the domain has no
spare. -/
def remapCore (p : Nat) (s : State) : Option State :=
  let d := domainOf p
  let t :=
    match spareOf s d, rotatingIn s d with
    | none, some q => abandonTest q s
    | _, _ => s
  match spareOf t d with
  | none => none
  | some q =>
    let l := (entryOf t p).logical
    let first := decide ((entryOf t p).remaps = 0)
    let u := setEntry q (fun e => { e with state := .active, logical := l })
      (setEntry p (fun e => { e with
        state := if first then .parked else .failed, logical := 0xFF, remaps := e.remaps + 1 }) t)
    some (postEvent Code.evCoreRemap noOp 0 (BitVec.ofNat 64 (256 * q + l.toNat))
      (withCounts (fun c => { c with coreRemaps := satInc c.coreRemaps 1 })
        { u with selfTest := { u.selfTest with
          parked := if first then u.selfTest.parked ++ [(p, false)] else u.selfTest.parked } }))

/-- The cores due for a remap, in the order of their errors; the rink halts at one whose domain has no spare. -/
def remapAll : List Nat → State → State
  | [], s => { s with selfTest := { s.selfTest with due := [] } }
  | p :: ps, s =>
    match remapCore p s with
    | some t => remapAll ps t
    | none => haltJob Code.failNoSpareCore noOp (BitVec.ofNat 64 (256 * p + (entryOf s p).logical.toNat)) s

/-! ## Rotation (R426) -/

/-- The next active core after the last one rotated whose domain has a spare. -/
def nextRotated (s : State) : Option Nat :=
  ((upFrom 1 144).map fun k => (s.selfTest.rotationLast + k) % 144).find? fun p =>
    decide ((entryOf s p).state = .active) && (spareOf s (domainOf p)).isSome

/-- A rotation, unless a previous one's test still runs. -/
def rotate (s : State) : State :=
  if s.selfTest.parked.any fun e => e.2 then s
  else
    match nextRotated s with
    | none => s
    | some p =>
      match spareOf s (domainOf p) with
      | none => s
      | some q =>
        let l := (entryOf s p).logical
        let t := setEntry q (fun e => { e with state := .active, logical := l })
          (setEntry p (fun e => { e with state := .parked, logical := 0xFF }) s)
        { t with selfTest := { t.selfTest with rotationLast := p, parked := t.selfTest.parked ++ [(p, true)] } }

/-- PARKED_CORE_TEST_DONE (R427, R428): a core that passes is its domain's spare, unless it was remapped out twice in
the job; a core found failed is reported with logical core 0xFF. -/
def execParkedCoreTestDone (core : PhysCore) (pass : Bool) (s : State) : Host.Outcome State Fault Refusal :=
  let p := core.val
  if ¬ s.selfTest.parked.any fun e => e.1 == p then .next s
  else
    let t := { s with selfTest := { s.selfTest with parked := s.selfTest.parked.filter fun e => e.1 ≠ p } }
    if pass ∧ (entryOf s p).remaps.toNat < 2 then .next (setEntry p (fun e => { e with state := .spare }) t)
    else
      .next (postEvent Code.evCoreRemap noOp 0 (BitVec.ofNat 64 (256 * p + 0xFF))
        (setEntry p (fun e => { e with state := .failed, logical := 0xFF }) t))

/-! ## The beginning of a replay (R21, R308) -/

/-- A replay begins: it is counted and reported, what arrived for the attempt before it is dropped, the cache is as the step found it, cores that are due are remapped, and the
module goes on to settle its pages; after 8 replays without a commit the job halts. -/
def beginReplay (j : Job) (s : State) : State :=
  if 8 ≤ j.replays then haltJob Code.failReplayLimit noOp 0 s
  else
    let t := postEvent Code.evReplay noOp 0 0 (withCounts (fun c => { c with replays := satInc c.replays 1 }) s)
    remapAll t.selfTest.due
      { backToStart t with
        stalled := []
        job := some { j with phase := .settling, replays := j.replays + 1 }
        recovery := { t.recovery with abortPending := false, settled := false } }

/-- What the abort of a step does to a module that did not find its cause: its work of the step is discarded. A step that
has not begun has none, but its replay counts as the rink's does. -/
def dropStep (j : Job) (s : State) : Option State :=
  match j.phase with
  | .aborted => some s
  | .boundary => some s
  | .settling => some s
  | .inStep => some (discardStep s)
  | .atCut => some (discardStep s)
  | .dumping => some (discardStep s)
  | .barrier => none
  | .held => none
  | .refreshing => none
  | .halted => none

/-- STEP_REPLAY: after a step abort on any module of the rink the step is replayed, unless the rink is paused (R317). -/
def execStepReplay (s : State) : Host.Outcome State Fault Refusal :=
  match s.job with
  | none => .next s
  | some j =>
    if s.recovery.paused then .next s
    else
      match dropStep j s with
      | some t => .next (beginReplay j t)
      | none => .next s

end Sys2Proof.Machine
end

