-- ==== Sys2Proof/Machine/HostJob.lean ====
section
/-! DEFINITION. The job ring and a job's start (R52, R363 to R366, R370 to R374): ring updates, the fetch of a descriptor
with its refusal table, the job-start barrier, host admission headers, stop notices and the resumption after a rink
reset. -/

namespace Sys2Proof.Machine

/-! ## The job ring (R365) -/

/-- A producer that lowers the count, or runs more than the ring's size past the consumer. -/
def jobProducerBad (s : State) (producer : U64) : Bool :=
  decide (producer.toNat < s.ring.producer.toNat) ||
    decide (s.ring.consumer.toNat + 2 ^ s.mgt.ringSize.toNat < producer.toNat)

/-- A ring fault: the status is set, and the ring is read no more (R365). -/
def faultRing (s : State) : State :=
  withStatus (fun r => { r with status := Code.jobRing }) { s with ring := { s.ring with faulted := true } }

/-- A job held at a cut point ends when the next descriptor is published (R374). -/
def endHeld (s : State) : State :=
  match s.job with
  | none => s
  | some j =>
    if j.phase = .held ∧ s.ring.consumer.toNat + 1 < s.ring.producer.toNat then endJob Code.cutReached s else s

/-- JOB_RING_PRODUCER_UPDATE (R364, R365). -/
def execJobRingProducerUpdate (producer : U64) (s : State) : Host.Outcome State Fault Refusal :=
  if ¬ s.ring.armed ∨ s.ring.faulted ∨ ¬ s.link.cxl then .next s
  else if jobProducerBad s producer then .next (faultRing s)
  else .next (endHeld { s with ring := { s.ring with producer := producer } })

/-! ## Refusals at job start (R372) -/

/-- The length of a job's dump area (R378). -/
def dumpLength (d : BitVec 2048) : Nat :=
  4096 + 128 * (10 * 2 ^ 20) + 128 * 65536 + ((Desc.dumpRanges d).map fun r => r.len).sum

/-- The dump ranges in use. -/
def usedRanges (d : BitVec 2048) : List Range := (Desc.dumpRanges d).filter fun r => r.len != 0

/-- A job names a manifest exactly in record or replay mode. -/
def namesManifest (d : BitVec 2048) : Bool := Desc.recordMode d || Desc.replayMode d

/-- The active channels of a fetched channel table, with their numbers. -/
def fetchedActive (f : JobFetchIn) : List (Nat × BitVec 1024) :=
  (numbered 0 (f.channels.map BitVec.toNat)).filterMap fun e =>
    let c := BitVec.ofNat 1024 e.2
    if chanActive c then some (e.1, c) else none

/-- A ring table entry of an active channel that breaks R366, or a ring that is faulted at job start. -/
def ringEntryBad (f : JobFetchIn) (ch : Nat) : Bool :=
  let r := nthD 0 f.rings ch
  let n := nthD (0, 0) f.ringCounts ch
  let log := field r 135 128
  decide (log < 4) || decide (16 < log) || field r 63 0 % 64 != 0 || field r 255 136 != 0 ||
    decide (n.1.toNat < n.2.toNat) || decide (n.2.toNat + 2 ^ log < n.1.toNat)

/-- The dictionary image breaks R341. -/
def dictBad (s : State) (a : Nat) : Bool :=
  decide (devTop < a + 64) || decide (devTop < a + dictExtent s a) ||
    (parseDict (devRead s a 64) (devRead s (a + 64) (dictExtent s a - 64))).isNone

/-- A condition of the table with its status. -/
def refuseIf (bad : Bool) (code : U16) : Option U16 := if bad then some code else none

/-- The first status of a list of conditions. -/
def firstCode : List (Option U16) → Option U16
  | [] => none
  | some c :: _ => some c
  | none :: rest => firstCode rest

/-- The conditions on the descriptor alone, in table order. -/
def descChecks (s : State) (d : BitVec 2048) : List (Option U16) :=
  [refuseIf (!Desc.reservedZero d) Code.jobReserved,
   refuseIf (!s.fuses.lifecycle.jobsRun) Code.jobField,
   refuseIf (decide (Desc.lastStep d < Desc.firstStep d)) Code.jobField,
   refuseIf (decide (2 ^ 63 ≤ Desc.firstStep d) || decide (2 ^ 63 ≤ Desc.lastStep d)) Code.updStepRange,
   refuseIf (decide (devTop < Desc.imageAddr d + Desc.imageLen d) ||
     (Desc.hasCut d && (usedRanges d).any fun r => decide (devTop < r.base + r.len))) Code.jobField,
   refuseIf (Desc.recordMode d && Desc.replayMode d) Code.jobField,
   refuseIf (namesManifest d && (Desc.manifestAddr d == 0 || Desc.manifestAddr d % 128 != 0)) Code.jobField,
   refuseIf (namesManifest d && Desc.manifestCap d == 0) Code.jobField,
   refuseIf (Desc.hasCut d && Desc.dumpAddr d % 4096 != 0) Code.jobField,
   refuseIf (decide (1000001 ≤ Desc.cutoffUs d) && decide (Desc.cutoffUs d ≤ 0xFFFFFFFE)) Code.jobField,
   refuseIf (Desc.entropy d && cfgLockEntropy s.config) Code.jobField,
   refuseIf (Desc.hasCut d && (decide (Desc.cutStep d < Desc.firstStep d) ||
     decide (Desc.lastStep d < Desc.cutStep d))) Code.progCutRange]

/-- The conditions on the image and the tables, in table order. -/
def imageChecks (s : State) (f : JobFetchIn) : List (Option U16) :=
  let d := f.desc
  [refuseIf (f.image.shape != ⟨siteExtX s.site, siteExtY s.site, siteExtZ s.site⟩) Code.progShape,
   refuseIf (f.image.hashed != hashedGib s) Code.hbmPoolSplit,
   refuseIf (f.image.corePartBytes.any fun n => decide (65536 < n)) Code.ccImageSize,
   refuseIf (f.image.unorderedFloat && cfgLockUnordered s.config) Code.jobField,
   refuseIf ((selectStep f.image.selector (Desc.firstStep d)).isNone) Code.progNoStep,
   refuseIf (Desc.hasCut d && decide (opCountOf f.image (Desc.cutStep d) ≤ Desc.cutOp d)) Code.progCutRange,
   refuseIf (Desc.hasCut d && decide (Desc.dumpLen d < dumpLength d)) Code.jobDumpSize,
   refuseIf (decide (84 * 2 ^ 30 < (f.image.stateRanges.map fun r => r.len).sum)) Code.hbmTandemSize,
   refuseIf ((fetchedActive f).any fun e => !Chan.ok e.2 e.1) Code.ghChannel,
   refuseIf ((fetchedActive f).any fun e => ringEntryBad f e.1) Code.ghRing,
   refuseIf ((Desc.textPresent d || (fetchedActive f).any fun e => chanText e.2) && dictBad s (Desc.dictAddr d))
     Code.ghDict]

/-- The first refusal of R372. -/
def startRefusal (s : State) (f : JobFetchIn) : Option U16 := firstCode (descChecks s f.desc ++ imageChecks s f)

/-! ## The fetch (R371) -/

/-- The rink-wide fields of R373, each as 8 bytes, in the order of the rule. -/
def rinkWide (d : BitVec 2048) : List Byte :=
  (([field d 63 0, field d 127 64, field d 191 128, field d 255 192, field d 837 832, field d 831 800,
    field d 767 704, field d 799 768].map fun x => leBytes 8 x) ++
    ((Desc.dumpRanges d).map fun r => leBytes 8 r.base ++ leBytes 8 r.len)).flatten

def fieldsDigest (d : BitVec 2048) : Digest := sha256 (rinkWide d)

/-- The status record at job fetch (R375): every field but update_seq takes its job-start value, and what held sweeps
have found is entered (R431). -/
def startRecord (d : BitVec 2048) (h : SelfTest) (r : StatusRec) : StatusRec :=
  let first := BitVec.ofNat 64 (Desc.firstStep d)
  { StatusRec.reset with
    updateSeq := r.updateSeq
    jobId := Desc.jobId d
    step := first
    committed := first - 1
    status := Code.jobRunning
    eventCount := h.foundCount
    events := h.foundEvents.map fun e => (e.1, { e.2 with step := first })
    counts := h.foundCounts }

/-- The module fetches the next descriptor: it is in READY, no sweep is held (R430), and the ring holds one. -/
def mayFetch (s : State) : Bool :=
  decide (s.mgt.state = .ready) && decide (s.job = none) && s.ring.armed && !s.ring.faulted &&
    !s.selfTest.sweepHeld && decide (s.ring.consumer.toNat < s.ring.producer.toNat)

/-- The job that a fetch begins: checked, and waiting in the job-start barrier. -/
def fetchedJob (s : State) (f : JobFetchIn) : Job where
  desc := f.desc
  image := f.image
  channels := f.channels
  rings := f.rings
  ringCounts := f.ringCounts
  identity := sha256 (devRead s (Desc.imageAddr f.desc) (Desc.imageLen f.desc))
  phase := .barrier
  refusal := startRefusal s f
  replays := 0
  admitted := none
  taken := []
  stop := 0

/-- JOB_FETCH: JOB_RUNNING is written, the descriptor is checked, and the module enters the job-start barrier. -/
def execJobFetch (f : JobFetchIn) (s : State) : Host.Outcome State Fault Refusal :=
  if s.ring.faulted ∧ s.job = none ∧ s.status.status ≠ Code.jobRing then
    .next (withStatus (fun r => { r with status := Code.jobRing }) s)
  else if ¬ mayFetch s then .next s
  else
    let j := fetchedJob s f
    let t := withStatus (startRecord f.desc s.selfTest) s
    .next (emit (.send (.jobStart j.refusal.isSome j.identity (fieldsDigest f.desc)))
      { t with
        job := some j
        mgt := { t.mgt with state := .running }
        selfTest := { t.selfTest with foundCount := 0, foundEvents := [], foundCounts := Counts.zero } })

/-! ## The job-start barrier (R52) -/

/-- The outcome on this module: none where the job starts, and the status it refuses with otherwise. -/
def barrierCode (j : Job) (others : List StartEntry) : Option U16 :=
  let mine := fieldsDigest j.desc
  match j.refusal with
  | some c => some c
  | none =>
    if others.any fun e => e == .refusal then some Code.jobMismatch
    else if others.any fun e => match e with
        | .ready i _ => i != j.identity
        | .refusal => false then some Code.progImageMismatch
    else if others.any fun e => match e with
        | .ready _ f => f != mine
        | .refusal => false then some Code.jobMismatch
    else none

/-- The modules that the barrier spans: the rink, or the whole machine where there are several rinks. -/
def machineSize (s : State) : Nat := siteExtX s.site * siteExtY s.site * siteExtZ s.site

/-- An image that differs from the active one goes into the inactive bank and is active from the job-start boundary on
(R145, R146). -/
def startBank (j : Job) (s : State) : State :=
  if (bankOf s.banks s.banks.active).image = some j.identity then s
  else
    let one := !s.banks.active
    { s with banks :=
        { fillBank one j.identity (Desc.imageAddr j.desc) (Desc.imageLen j.desc) s.banks with
          active := one
          pending := false } }

/-- What the units hold at a job's start: counts of core mismatches and remaps and of row errors are cleared (R425,
R239), the Gatehouse takes its channels (R337, R342, R366), the cache's slots are empty (R216), and the commit word is
the step before the first (R311). -/
def startUnits (j : Job) (s : State) : State :=
  let t := { s with
    hbm := { s.hbm with
      commitWord := BitVec.ofNat 64 (Desc.firstStep j.desc) - 1
      ceRows := []
      coreMap := s.hbm.coreMap.map fun e => { e with mismatches := 0, remaps := 0 } }
    selfTest := { s.selfTest with due := [] }
    gatehouse := ghInit j
    kv := { Kv.reset with freeQ := match j.image.cache with
      | none => []
      | some c => upFrom 0 c.pages }
    msu := Msu.reset
    coll := { Coll.reset with active := s.coll.active }
    recovery := { s.recovery with
      paused := false, awaited := [], adopted := [], restoring := false, kept := [], settled := false
      resume := false, refreshing := false, unacked := []
      replicaOk := true, abortPending := false, left := false } }
  match j.image.cache with
  | none => t
  | some c => initSlots c t

/-- Every job-owned range is placed in device bias (R369). -/
def placeBias (j : Job) (s : State) : State := { s with link := { s.link with deviceBias := jobOwned s j } }

/-- The job starts: cause [0] is set, the job-owned ranges are in device bias, the STATE page of the Gatehouse holds the
start of batch 0 (R347), and the module goes on to settle its pages; a module that leaves a logical core
unserved stops before the first step (R423, R424). -/
def startJob (j : Job) (s : State) : State :=
  let t := raiseCause 0 (withStatus (fun r => { r with replayMode := Desc.replayMode j.desc })
    (writeGhPage j 0 (placeBias j (startUnits j (startBank j { s with job := some { j with phase := .settling } })))))
  if allServed t then t else haltJob Code.failNoSpareCore noOp 0 t

/-- JOB_START_BARRIER: every other module of the barrier has entered, and the same outcome reaches each. -/
def execJobStartBarrier (others : List StartEntry) (s : State) : Host.Outcome State Fault Refusal :=
  match s.job with
  | none => .next s
  | some j =>
    if j.phase ≠ .barrier ∨ others.length + 1 ≠ machineSize s then .next s
    else
      match barrierCode j others with
      | some c => .next (endJob c s)
      | none => .next (startJob j s)

/-! ## Host admission tables (R370) -/

/-- ADMISSION_HEADER_UPDATE: the host has written a header's host_count and ready_off. -/
def execAdmissionHeaderUpdate (table : Nat) (hostCount : U32) (readyOff : U64) (s : State) :
    Host.Outcome State Fault Refusal :=
  match s.job with
  | none => .next s
  | some j =>
    match j.image.admissionTables[table]? with
    | none => .next s
    | some r => .next (devPut (r.base + 16) 8 readyOff.toNat (devPut r.base 4 hostCount.toNat s))

/-! ## Ends that reach this module from the rink (R374) -/

/-- What a flooded notice does to a job: an abort ends it as an abort here would, a halt halts it once, and any other
stop ends it with the same status. -/
def takeNotice (code : U16) (j : Job) (s : State) : State :=
  if code = Code.jobAborted then concludeJob (abortStatus j) s
  else if isHalt code then (if j.phase = .halted then s else takeHalt code noOp 0 s)
  else concludeJob code s

/-- STOP_NOTICE: another module of the rink found the cause of a stop, or was told to abort; the job ends here too. -/
def execStopNotice (code : U16) (s : State) : Host.Outcome State Fault Refusal :=
  match s.job with
  | none => .next s
  | some j => .next (takeNotice code j s)

/-! ## After a rink reset (R395) -/

/-- The uncommitted step is replayed after the reset; a job held at a cut or halted stays so, one that waits in its
start barrier or for its last refresh goes on with that, and a job that writes HELD data stops. -/
def resumeJob (j : Job) (s : State) : State :=
  let t := { s with recovery := { s.recovery with resume := false } }
  match j.phase with
  | .barrier => t
  | .held => t
  | .halted => t
  | .refreshing => { t with recovery := { t.recovery with refreshing := true } }
  | .settling => if j.image.heldWritten = [] then beginReplay j t else stopJob Code.failHeldLost noOp 0 t
  | .boundary => if j.image.heldWritten = [] then beginReplay j t else stopJob Code.failHeldLost noOp 0 t
  | .inStep => if j.image.heldWritten = [] then beginReplay j t else stopJob Code.failHeldLost noOp 0 t
  | .aborted => if j.image.heldWritten = [] then beginReplay j t else stopJob Code.failHeldLost noOp 0 t
  | .atCut => if j.image.heldWritten = [] then beginReplay j t else stopJob Code.failHeldLost noOp 0 t
  | .dumping => if j.image.heldWritten = [] then beginReplay j t else stopJob Code.failHeldLost noOp 0 t

/-- JOB_RESUME_AFTER_RINK_RESET. -/
def execJobResumeAfterRinkReset (s : State) : Host.Outcome State Fault Refusal :=
  match s.job with
  | none => .next s
  | some j => if s.recovery.resume then .next (resumeJob j s) else .next s

end Sys2Proof.Machine
end

