-- ==== Sys2Proof/Machine/Lodge.lean ====
section
/-! DEFINITION. LODGE_OPERATION (R166 to R170). -/

namespace Sys2Proof.Machine

/-- C_g, and the contraction length of a group (R151, R169). -/
def lodgeGroup (c : LodgeCmd) : Nat := c.channels / max 1 c.groups
def lodgeLen (c : LodgeCmd) : Nat := tapCount c.dims * lodgeGroup c

/-- Contraction element κ of an output position (R169): packed, without alignment by tap. -/
def lodgeValue (s : State) (c : LodgeCmd) (o kappa : Nat) : FV :=
  let cg := lodgeGroup c
  match tapPosition c.dims o (kappa / max 1 cg) with
  | none => FV.zero
  | some p => decode .bf16 (mapElem s c.map c.channels p (c.group * cg + kappa % max 1 cg)).code.toNat

/-- The filter's element for contraction element κ and output n: element κ · N + n of the stored filter (DESIGN CHOICE,
assumption log 78). -/
def lodgeFilter (s : State) (c : LodgeCmd) (kappa n : Nat) : FV := tensorValue s c.filter (kappa * c.outs + n)

/-- Passes are 128 contraction elements long in fan-out and 1,024 in fan-in (R168). -/
def lodgePass (c : LodgeCmd) : Nat := if c.fanIn then 1024 else 128

/-- One pass: chunks of 16 consecutive κ, the last padded with +0, added in increasing κ. -/
def lodgePassSum (s : State) (c : LodgeCmd) (o n lo len : Nat) : U32 × Bool :=
  let prod (k : Nat) : FV := if k < lo + len then FV.mul (lodgeValue s c o k) (lodgeFilter s c k n) else FV.zero
  columnSum ((upFrom 0 (ceilDiv len 16)).map fun i => chunkOf ((upFrom (lo + 16 * i) 16).map prod))

/-- The passes of one output, added in order. -/
def lodgeSum (s : State) (c : LodgeCmd) (o n : Nat) : U32 × Bool :=
  let K := lodgeLen c
  let P := lodgePass c
  let parts := (upFrom 0 (ceilDiv K P)).map fun p => lodgePassSum s c o n (P * p) (min P (K - P * p))
  match parts with
  | [] => (zero32, false)
  | (v, f) :: rest =>
    rest.foldl (fun (a : U32 × Bool) b =>
      let (w, o) := addSat32 a.1 b.1
      (w, a.2 || b.2 || o)) (v, f)

/-- Stages 2 and 3 of one output (R102, R103). -/
def lodgeStage (s : State) (c : LodgeCmd) (i n : Nat) (y : U32) : U32 × Tally :=
  match c.derivX with
  | some x =>
    let (v, _, t) := inputAt x s i []
    (mul32 y (deriv32 c.func v), t)
  | none =>
    let (b, sat) :=
      match c.bias with
      | none => (y, false)
      | some t => addSat32 y (intake false t none 0 s n).1
    (func32 c.func b, Tally.flag sat)

def lodgeOutFmt : Fmt → Bool
  | .bf16 => true
  | .e4m3 => true
  | .e5m2 => true
  | .fp16 => false
  | .fp32 => false
  | .int32 => false

/-- A conversion under stochastic rounding is refused for the Lodge (R192). -/
def lodgeNoDraw (c : Option Conv) : Bool := convDraws c == 0

/-- The stores that a Lodge reaches over the mesh: the scratchpad of the core that commands it, and HBM, where the
Gatehouse writes its pixels (DESIGN CHOICE, assumption log 79). -/
def lodgePlace (core : Core) (l : Loc) : Bool := inScratch core l || l.space == .hbm

/-- The narrow side of the operation: a pixel-class tensor of at most 16 channels in BF16 (R167). -/
def lodgeNarrow (c : LodgeCmd) : Bool :=
  c.pixelClass &&
    (if c.fanIn then decide (c.outs * c.groups ≤ 16) && c.out.t.fmt == .bf16 else decide (c.channels ≤ 16))

def lodgeFault (s : State) (c : LodgeCmd) : Option Nat :=
  let ok := lodgePlace c.ctx.core
  let total := outCount c.dims * c.outs
  firstFault [dimsFault c.gradient c.dims, unless' 67 (c.map.fmt == .bf16 && c.filter.fmt == .bf16),
    unless' 149 (decide (1 ≤ c.groups) && c.channels % c.groups == 0 && decide (c.group < c.groups)),
    unless' 167 (lodgeNarrow c),
    unless' 168 (decide (1 ≤ c.channels) && decide (1 ≤ c.outs)), unless' 67 (lodgeOutFmt c.out.t.fmt),
    unless' 192 (lodgeNoDraw c.out.conv), mapFault ok s c.map c.channels (inCount c.dims),
    tensorFaultIn ok s c.filter, unless' 169 (c.filter.n == lodgeLen c * c.outs),
    outStreamFaultIn ok s false c.out, unless' 169 (c.out.t.n == total),
    match c.bias with
    | none => none
    | some t => firstFault [tensorFaultIn ok s t, unless' 102 (decide (c.outs ≤ t.n)),
        unless' 67 (decide (t.fmt = .fp32) || decide (t.fmt = .bf16))],
    match c.derivX with
    | none => none
    | some x => firstFault [inStreamFaultIn ok s false x, unless' 103 (x.t.n == total),
        unless' 67 (decide (x.t.fmt ≠ .int32)), unless' 192 (lodgeNoDraw x.conv)]]

/-! ## The filter's planes (R166) -/

def LodgePlanes.empty : LodgePlanes := ⟨0, [], []⟩

/-- A piece of the filter is loaded into the plane that is not in use, which then comes into use. -/
def loadLodge (p : LodgePlanes) (piece : List Byte) : LodgePlanes :=
  if p.inUse = 0 then ⟨1, p.plane0, piece⟩ else ⟨0, piece, p.plane1⟩

/-- The filter is loaded in pieces of a plane's 32 KiB, in order. -/
def lodgeLoads (c : LodgeCmd) (s : State) : State :=
  let k := c.lodge.val
  let pieces := chunks 32768 (locRead s c.filter.loc 0 (tensorBytes c.filter))
  { s with cores := { s.cores with
      lodge := SMap.set LodgePlanes.empty s.cores.lodge k
        (pieces.foldl loadLodge (SMap.get LodgePlanes.empty s.cores.lodge k)) } }

def lodgeEffect (c : LodgeCmd) (s : State) : State :=
  let idx := upFrom 0 (outCount c.dims * c.outs)
  let sums := idx.map fun i => lodgeSum s c (i / c.outs) (i % c.outs)
  let ys := (idx.zip sums).map fun (i, v) => lodgeStage s c i (i % c.outs) v.1
  let t := addTally c.ctx.op ((Tally.sum (ys.map fun y => y.2)).add (Tally.flag (sums.any fun v => v.2)))
    (lodgeLoads c s)
  writeOut c.ctx.op c.out (ys.map fun y => OutVal.of y.1) (ys.map fun _ => 0) t

/-- What a Lodge reads. -/
def lodgeReads (c : LodgeCmd) : List SpanUse :=
  mapUses c.map c.channels (inCount c.dims) ++ tensorUses c.filter true ++
    (match c.bias with
      | none => []
      | some t => tensorUses t true) ++
    (match c.derivX with
      | none => []
      | some x => tensorUses x.t true)

/-- LODGE_OPERATION. -/
def lodgeRun (c : LodgeCmd) : EngineRun where
  engine := .lodge
  ctx := c.ctx
  fault s := lodgeFault s c
  reads _ := lodgeReads c
  writes _ := tensorSpans c.out.t
  ready _ := true
  stop _ := none
  effect s := lodgeEffect c s

def execLodgeOperation (c : LodgeCmd) (s : State) : Host.Outcome State Fault Refusal :=
  runEngine (.lodgeOperation c) (lodgeRun c) s

end Sys2Proof.Machine
end

