-- ==== Sys2Proof/Machine/Replica.lean ====
section
/-! DEFINITION. The replica reduction with its cut-off, votes, carry areas and manifest (R296 to R306, R377), and the
replica check (R326, R327, R358). -/

namespace Sys2Proof.Machine

/-! ## Chunks (R297) -/

/-- Bytes of a buffer's element and of its tiles. -/
def bufElem (b : ReplicaBuf) : Nat := if b.wide then 4 else 2
def bufTile (b : ReplicaBuf) : Nat := replicaTile b
def bufFmt (b : ReplicaBuf) : Fmt := if b.wide then .fp32 else .bf16

/-- The members of the active set in increasing z, and the rank of one. -/
def members (s : State) : List Nat := rinksOf s.coll.active
def rankOf (s : State) (r : Nat) : Nat := ((members s).findIdx? (· == r)).getD 0

/-- Chunk i of a buffer of `words` words over `n` members: whole words, the first chunks one longer. -/
def chunkOfBuf (words n i : Nat) : Nat × Nat :=
  let q := words / max 1 n
  let m := words % max 1 n
  (i * q + min i m, q + (if i < m then 1 else 0))

/-- The byte offset and length of chunk i of a buffer. -/
def chunkSpan (s : State) (b : ReplicaBuf) (i : Nat) : Nat × Nat :=
  let (w, n) := chunkOfBuf (b.tiles * bufTile b / 32) (members s).length i
  (32 * w, 32 * n)

/-- The machine index of this module's counterpart in rink `r`. -/
def counterpart (s : State) (r : Nat) : Nat := machineIndex s.site { s.coord with z := r }

/-- The reduction of this module's own chunk into its replica buffer, with every member on its list (R297, R301). -/
def replicaDecl (s : State) (op : U32) (b : ReplicaBuf) : ReduceDecl :=
  let (o, n) := chunkSpan s b (rankOf s s.rink)
  ⟨op, [⟨b.dest + o, n⟩], .sum, bufFmt b, bufFmt b, some (b.destBitmap, b.dest),
    [(members s).map (counterpart s)], false, true, b.spill, b.volume⟩

/-- The parts of the present tiles of the gradient buffer that lie in chunk i, as (offset, length). -/
def chunkParts (s : State) (b : ReplicaBuf) (i : Nat) : List (Nat × Nat) :=
  let (o, n) := chunkSpan s b i
  ((upFrom 0 b.tiles).filter (presentBit s b.bitmap)).filterMap fun t =>
    let lo := max o (t * bufTile b)
    let hi := min (o + n) ((t + 1) * bufTile b)
    if lo < hi then some (lo, hi - lo) else none

/-- The contribution of this module to chunk i, as segments numbered from 0. -/
def chunkSegs (s : State) (b : ReplicaBuf) (i : Nat) : List Segment :=
  (numbered 0 ((chunkParts s b i).map fun e => e.1)).zip (chunkParts s b i) |>.map fun (k, e) =>
    ⟨s.M, k.1, b.dest + e.1, (upFrom 0 (e.2 / bufElem b)).map fun q =>
      BitVec.ofNat 32 (devNat s (b.grad + e.1 + bufElem b * q) (bufElem b))⟩

/-- Send a chunk to its owner, with the weight of the contribution, or take it locally where this module owns it. -/
def sendChunk (op : U32) (b : ReplicaBuf) (w : Nat) (s : State) (r : Nat) : State :=
  let gs := chunkSegs s b (rankOf s r)
  if r = s.rink then feedContribution (replicaDecl s op b) w s ⟨s.M, gs⟩
  else
    emitAll ((gs.map fun g => .segment (counterpart s r) op g) ++
      [.close (counterpart s r) op s.M ⟨gs.length, w⟩]) s

/-! ## Carry areas (R303) -/

def carryMode (s : State) : Bool :=
  match s.job with
  | none => false
  | some j => Desc.carry j.desc

/-- The area that step s reads, and the one it writes. -/
def readArea (s : State) (b : ReplicaBuf) : CarryArea := if s.status.step.toNat % 2 = 0 then b.carry1 else b.carry0
def writeArea (s : State) (b : ReplicaBuf) : CarryArea := if s.status.step.toNat % 2 = 0 then b.carry0 else b.carry1

/-- One element of a tile with its carry added. -/
def carryElem (s : State) (b : ReplicaBuf) (c : CarryArea) (fresh : Bool) (k : Nat) : Cvt :=
  let old : U32 := if fresh then 0 else widen (bufFmt b) (devNat s (b.grad + bufElem b * k) (bufElem b))
  reduceOut (bufFmt b) (add32 old (widen (bufFmt b) (devNat s (c.base + bufElem b * k) (bufElem b))))

/-- Add a carry tile into the gradient buffer; a tile that was clear opens and starts from +0 (R255). -/
def addCarryTile (op : U32) (b : ReplicaBuf) (c : CarryArea) (s : State) (t : Nat) : State :=
  let fresh := !presentBit s b.bitmap t
  let cs := (upFrom (1024 * t) 1024).map (carryElem s b c fresh)
  addTally op (Tally.sum (cs.map tallyOf))
    (putPresent b.bitmap true t
      (devWrite (b.grad + bufTile b * t) ((cs.map fun x => leBytes (bufElem b) x.code).flatten) s))

def addCarry (op : U32) (b : ReplicaBuf) (s : State) : State :=
  let c := readArea s b
  ((upFrom 0 b.tiles).filter (presentBit s c.bitmap)).foldl (addCarryTile op b c) s

/-- w_r of this rink's contribution through a buffer: 1, or 1 more than the count of the carry that it has read. -/
def ownWeight (s : State) (b : ReplicaBuf) : Nat := if carryMode s then 1 + devNat s (readArea s b).count 4 else 1

/-- The tiles of a contribution that an excluded rink carries: those present in the gradient buffer. -/
def carriedTiles (s : State) (included : Bool) (b : ReplicaBuf) : List Nat :=
  if included then [] else (upFrom 0 b.tiles).filter (presentBit s b.bitmap)

/-- The pages that the engine writes in the area of a buffer, in increasing order. -/
def carryPages (s : State) (included : Bool) (b : ReplicaBuf) : List Nat :=
  let c := writeArea s b
  (((carriedTiles s included b).map fun t => pagesOf (c.base + bufTile b * t) (bufTile b)).flatten ++
    pagesOf c.bitmap (ceilDiv b.tiles 8) ++ pagesOf c.count 4).foldl insertNat []

/-- Every carry page that the step writes. -/
def allCarryPages (s : State) (included : Bool) (j : Job) : List Nat := (j.image.replica.map (carryPages s included)).flatten

/-- A page has the open stamp of the running step. -/
def pageOpen (s : State) (page : Nat) : Bool := SMap.get 0 s.hbm.stamps page == openStamp s.status.step

/-- The collective engine opens a carry page as the sweep opens its own (R263, R303): once no refresh holds it. -/
def openCarry (s : State) (page : Nat) : State :=
  if pageOpen s page || refreshHolds s page then s else putStamp page (openStamp s.status.step) s

/-- Copy one present tile of the contribution into the written area. -/
def copyCarryTile (b : ReplicaBuf) (c : CarryArea) (s : State) (t : Nat) : State :=
  devWrite (c.base + bufTile b * t) (devRead s (b.grad + bufTile b * t) (bufTile b)) s

/-- The written area once the rink's fate is known: cleared where it is included, the contribution where it is not. -/
def writeCarry (included : Bool) (s : State) (b : ReplicaBuf) : State :=
  let c := writeArea s b
  let t :=
    if included then clearBits c.bitmap b.tiles s
    else
      devWrite c.bitmap (devRead s b.bitmap (ceilDiv b.tiles 8)) ((carriedTiles s included b).foldl (copyCarryTile b c) s)
  devPut c.count 4 (if included then 0 else ownWeight s b) t

/-- The carry pages are opened as far as refreshes let it; once all are open the areas are written and the pages closed. -/
def carryStep (included : Bool) (j : Job) (s : State) : State :=
  let pages := allCarryPages s included j
  let t := pages.foldl openCarry s
  if pages.all (pageOpen t) then
    let u := j.image.replica.foldl (writeCarry included) t
    pages.foldl (fun v p => closeStamp p v) { u with coll := { u.coll with carried := true } }
  else t

/-- Every replica buffer's contribution is complete on this module. -/
def allSent (s : State) (j : Job) : Bool :=
  (upFrom 0 j.image.replica.length).all fun i => s.coll.sentBufs.contains i

/-- The carry areas are settled once this rink's contribution is complete and its fate known. -/
def settleCarry (s : State) : State :=
  match s.job with
  | none => s
  | some j =>
    if s.coll.carried ∨ ¬ inStep s ∨ ¬ allSent s j then s
    else
      match fate s s.rink with
      | .unknown => s
      | f => if carryMode s then carryStep (f == .included) j s else { s with coll := { s.coll with carried := true } }

/-! ## The owner's sum and its gather along the ring (R301) -/

/-- The gather of a replica buffer: its chunks in increasing z, with their presence bits. -/
def ringGather (s : State) (op : U32) (b : ReplicaBuf) (others : List Piece) : GatherCmd :=
  let n := (members s).length
  ⟨op, ⟨.hbm, b.dest⟩, ⟨.hbm, b.dest + (chunkSpan s b (rankOf s s.rink)).1⟩,
    (upFrom 0 n).map fun i => (chunkSpan s b i).2, true, some ⟨b.destBitmap, b.dest, bufTile b⟩, true, others⟩

/-- The replica buffer that an operation of the step reduces. -/
def bufferOf (s : State) (op : U32) : Option ReplicaBuf :=
  (stepOps s).findSome? fun d => match d.kind, s.job with
    | .replica i, some j => if d.op = op.toNat then j.image.replica[i]? else none
    | _, _ => none

/-- The sum of a buffer's own chunk begins with the inclusion set where nothing has arrived for it; once every word is
complete, the engine gathers the chunks along the replica ring. -/
def settleBuffer (s : State) (d : OpDecl) : State :=
  let op := BitVec.ofNat 32 d.op
  match bufferOf s op with
  | none => s
  | some b =>
    if ¬ acts s op ∨ ¬ bitAt s.coll.active s.rink then s
    else
      let t := if s.coll.included.isSome ∧ (findRun s op).isNone then advanceInto (runOf s (replicaDecl s op b)) s else s
      if runComplete t op then sendOwn (ringGather t op b []) t else t

/-- Note when a rink's contribution has arrived: the close of every chunk that this module owns from it is in (R297). -/
def noteArrival (j : Job) (s : State) (r : Nat) : State :=
  if s.coll.arrivals.any fun e => e.1 == r then s
  else if j.image.replica.all fun b => s.msu.runs.any fun x =>
      x.decl.replica && x.decl.gradient == some (b.destBitmap, b.dest) &&
        x.closes.any fun c => c.1 == counterpart s r then
    { s with coll := { s.coll with arrivals := SMap.put s.coll.arrivals r s.time.value } }
  else s

/-- What the replica reduction goes on with after an arrival or a vote. -/
def settleReplica (s : State) : State :=
  match s.job with
  | none => s
  | some j =>
    if inStep s ∧ siteSeveral s.site then settleCarry ((stepOps s).foldl settleBuffer ((members s).foldl (noteArrival j) s)) else s

/-! ## The inclusion set (R300, R304, R377) -/

/-- The set of the rinks of a list. -/
def setOf (rs : List Nat) : U32 := rs.foldl (fun m r => setBit m r true) 0

/-- A_s; the set of rink 0 in a one-rink machine (R377). -/
def activeSet (s : State) : U32 := if siteSeveral s.site then s.coll.active else 1

/-- The manifest entry of the running step (R377). -/
def manifestEntry (s : State) (i : U32) : List Byte :=
  leBytes 8 s.status.step.toNat ++ leBytes 4 (activeSet s).toNat ++ leBytes 4 i.toNat

/-- In record mode the module writes the entry and then the module count. -/
def recordSets (j : Job) (i : U32) (s : State) : State :=
  if Desc.recordMode j.desc then
    let k := s.status.step.toNat - Desc.firstStep j.desc
    hostWrite (Desc.manifestAddr j.desc) (leBytes 8 (k + 1))
      (hostWrite (Desc.manifestAddr j.desc + 128 + 16 * (k % Desc.manifestCap j.desc)) (manifestEntry s i) s)
  else s

/-- Publish A_s and I_s (R304). -/
def publishSets (i : U32) (s : State) : State :=
  match s.job with
  | none => s
  | some j =>
    recordSets j i (withStatus (fun r => { r with inclStep := r.step, active := activeSet s, included := i }) s)

/-- Whatever the fates known by now allow: chunks are applied, carry areas are written. -/
def useFates (s : State) : State :=
  settleReplica ((s.msu.runs.filter fun r => r.decl.replica).foldl (fun t r =>
    match findRun t r.decl.op with
    | none => t
    | some x => advanceInto x t) s)

/-- I_s forms once the fate of every member of A_s is known. -/
def formSet (s : State) : State :=
  if s.coll.included.isSome then s
  else if (members s).any fun r => decide (fate s r = .unknown) then s
  else
    let i := setOf ((members s).filter fun r => decide (fate s r = .included))
    publishSets i { s with coll := { s.coll with included := some i } }

def afterVote (s : State) : State := useFates (formSet s)

/-! ## The manifest in replay mode (R305) -/

/-- A manifest entry that does not serve the running step: another step, another active set, or no subset. -/
def manifestBad (s : State) (e : BitVec 128) : Bool :=
  field e 63 0 != s.status.step.toNat || field e 95 64 != (activeSet s).toNat ||
    (field e 127 96 &&& (activeSet s).toNat) != field e 127 96

/-- Take I_s from the entry, once the host count covers the step. -/
def takeManifest (s : State) : State :=
  match s.job with
  | none => s
  | some j =>
    let k := s.status.step.toNat - Desc.firstStep j.desc
    match s.coll.hostEntries.find? fun e => e.1 == k with
    | none => s
    | some (_, e) =>
      if Desc.replayMode j.desc ∧ s.coll.included = none ∧ inStep s ∧ k < s.coll.hostCount.toNat then
        if manifestBad s e then stopJob Code.colManifestSet noOp 0 s
        else
          let i := BitVec.ofNat 32 (field e 127 96)
          useFates (publishSets i { s with coll := { s.coll with included := some i } })
      else s

/-- The entries that a new host count covers, behind those that the count before it covered. -/
def putEntries (k : Nat) (entries : List (BitVec 128)) (m : SMap (BitVec 128)) : SMap (BitVec 128) :=
  ((upFrom k entries.length).zip entries).foldl (fun m e => SMap.put m e.1 e.2) m

/-- MANIFEST_HOST_COUNT_UPDATE: the host's count, with the entries that it newly covers (R377). -/
def execManifestHostCountUpdate (count : U64) (entries : List (BitVec 128)) (s : State) : Host.Outcome State Fault Refusal :=
  match s.job with
  | none => .next s
  | some j =>
    if Desc.replayMode j.desc then
      .next (takeManifest { s with coll := { s.coll with
        hostCount := count, hostEntries := putEntries s.coll.hostCount.toNat entries s.coll.hostEntries } })
    else .next s

/-! ## The reduction (R297 to R303) -/

/-- The cut-off of the job in µs; none where there is none (R298). -/
def cutoffOf (s : State) (j : Job) : Option Nat :=
  let c := Desc.cutoffUs j.desc
  if c = 0xFFFFFFFF then none else some (if c = 0 then cfgCutoff s.config else c)

/-- T_r and D_r at the release of the rink's barrier. -/
def setDeadline (j : Job) (release : U64) (s : State) : State :=
  { s with coll := { s.coll with
      tr := some release
      deadline := if Desc.replayMode j.desc then none
        else (cutoffOf s j).map fun c => release + BitVec.ofNat 64 (1000 * c) } }

/-- The weight of a rink's contribution, as its closes carry it. -/
def putWeight (r w : Nat) (s : State) : State := { s with coll := { s.coll with weights := SMap.put s.coll.weights r w } }

/-- The contribution of one buffer is complete: the carry is added, and the chunks go out unless the rink is known to be
excluded. -/
def contribute (op : U32) (i : Nat) (b : ReplicaBuf) (s : State) : State :=
  let w := ownWeight s b
  let t := putWeight s.rink w (if carryMode s then addCarry op b s else s)
  let u := endPart op { t with coll := { t.coll with sentBufs := t.coll.sentBufs ++ [i] } }
  settleReplica (if fate u u.rink = .excluded then u else (members u).foldl (sendChunk op b w) u)

/-- The reduction waits: for its barrier, for the manifest entry in replay mode (R305), and for what it reads. -/
def contributionWaits (s : State) (j : Job) (op : U32) (b : ReplicaBuf) : Bool :=
  !(s.coll.released.any fun e => e.1 == op.toNat) || (Desc.replayMode j.desc && s.coll.included.isNone) ||
    sourceWaits s op ⟨.hbm, b.grad⟩ (b.tiles * bufTile b) || sourceWaits s op ⟨.hbm, b.bitmap⟩ (ceilDiv b.tiles 8) ||
    (carryMode s && sourceWaits s op ⟨.hbm, (readArea s b).base⟩ (b.tiles * bufTile b))

/-- REPLICA_REDUCTION: after the release of the barrier of the same operation (R298). -/
def execReplicaReduction (op : U32) (buffer : Nat) (s : State) : Host.Outcome State Fault Refusal :=
  match s.job with
  | none => .next s
  | some j =>
    match j.image.replica[buffer]? with
    | none => .next s
    | some b =>
      if ¬ acts s op ∨ ¬ siteSeveral s.site ∨ s.coll.sentBufs.contains buffer ∨ ¬ bitAt s.coll.active s.rink then .next s
      else if contributionWaits s j op b then .next (stall (.replicaReduction op buffer) s)
      else .next (contribute op buffer b s)

/-! ## Votes (R299, R300) -/

/-- Votes are cast: a step runs on a rink of the active set, and not in replay mode. -/
def voting (s : State) (j : Job) : Bool :=
  inStep s && siteSeveral s.site && !Desc.replayMode j.desc && bitAt s.coll.active s.rink

def putMine (r : Nat) (one : Bool) (s : State) : State :=
  emit (.send (.vote r one)) { s with coll := { s.coll with mine := SMap.put s.coll.mine r (if one then 2 else 1) } }

/-- A rink's contribution has arrived at this module, at or before the deadline where there is one (R299). -/
def inTime (s : State) (r : Nat) : Bool :=
  s.coll.arrivals.any fun e => e.1 == r && match s.coll.deadline with
    | none => true
    | some d => decide (e.2.toNat ≤ d.toNat)

/-- This module's vote for a rink, where it can be cast now: 1 for its own rink and for one that has arrived in time. -/
def castVote (r : Nat) (s : State) : State :=
  if SMap.get 0 s.coll.mine r ≠ 0 then s
  else if r = s.rink ∨ inTime s r then putMine r true s
  else s

def putRinkVote (voter r : Nat) (one : Bool) (s : State) : State :=
  { s with coll := { s.coll with votes := SMap.put s.coll.votes (32 * voter + r) (if one then 2 else 1) } }

/-- The rink's vote: the AND over its modules, once every one is cast. -/
def rinkVote (r : Nat) (others : List Bool) (s : State) : State :=
  let m := SMap.get 0 s.coll.mine r
  if m = 0 ∨ others.length + 1 ≠ s.rinkSize ∨ SMap.get 0 s.coll.votes (32 * s.rink + r) ≠ 0 then s
  else
    let one := m == 2 && others.all id
    afterVote (emit (.send (.rinkVote r one)) (putRinkVote s.rink r one s))

/-- VOTE: `others` holds the votes of the other modules of the rink that are cast by now. -/
def execVote (rink : Nat) (others : List Bool) (s : State) : Host.Outcome State Fault Refusal :=
  match s.job with
  | none => .next s
  | some j =>
    if voting s j ∧ bitAt s.coll.active rink then .next (rinkVote rink others (castVote rink s)) else .next s

/-- CUTOFF_DEADLINE: at D_r this module votes 0 for every rink whose contribution has not arrived. -/
def execCutoffDeadline (s : State) : Host.Outcome State Fault Refusal :=
  match s.job, s.coll.deadline with
  | some j, some d =>
    if voting s j ∧ d.toNat ≤ s.time.value.toNat then
      .next ((members s).foldl (fun t r =>
        if SMap.get 0 t.coll.mine r ≠ 0 then t else putMine r (r == t.rink || inTime t r) t) s)
    else .next s
  | _, _ => .next s

/-- RINK_VOTE_RECEIVE: a rink's vote along the replica ring. -/
def execRinkVoteReceive (voter rink : Nat) (one : Bool) (s : State) : Host.Outcome State Fault Refusal :=
  match s.job with
  | none => .next s
  | some j =>
    if voting s j ∧ bitAt s.coll.active voter ∧ bitAt s.coll.active rink ∧
        SMap.get 0 s.coll.votes (32 * voter + rink) = 0 then
      .next (afterVote (putRinkVote voter rink one s))
    else .next s

/-! ## Leaving (R296, R306, R321) -/

/-- The active set without a rink. -/
def dropRink (r : Nat) (s : State) : State :=
  { s with coll := { s.coll with active := setBit s.coll.active r false } }

/-- LEAVE_NOTICE: before I_s is formed the step replays with the reduced active set; otherwise the rink leaves at the
next step boundary. -/
def execLeaveNotice (rink : Nat) (s : State) : Host.Outcome State Fault Refusal :=
  if ¬ siteSeveral s.site ∨ ¬ bitAt s.coll.active rink ∨ 32 ≤ rink then .next s
  else if inStep s ∧ s.coll.included = none then .next (abortStep (dropRink rink s))
  else .next { s with coll := { s.coll with leaves := insertNat s.coll.leaves rink } }

/-- The active set at a step's start: rinks that leave or rejoin by it (R296, R322). A replay whose inclusion set has
formed goes on with the set that formed it. -/
def boundarySet (s : State) : State :=
  if s.coll.included.isSome then s
  else
    let t := s.coll.leaves.foldl (fun u r => dropRink r u) s
    let now := t.coll.joins.filter fun e => decide (e.2.toNat ≤ t.status.step.toNat)
    { t with coll := { t.coll with
        leaves := []
        joins := t.coll.joins.filter fun e => !decide (e.2.toNat ≤ t.status.step.toNat)
        active := now.foldl (fun m e => setBit m e.1 true) t.coll.active } }

/-! ## The replica check (R326, R327, R358) -/

/-- The check value over the pages that the update units closed in the step. -/
def replicaValue (s : State) (step : U64) : U32 :=
  guardedValue ((s.recovery.crcs.map fun e => leBytes 4 e.1 ++ leBytes 4 e.2.toNat).flatten) 0x52
    (BitVec.ofNat 8 step.toNat)

/-- The 16 B record. -/
def replicaRecord (s : State) (step : U64) : BitVec 128 :=
  BitVec.ofNat 128 (step.toNat + (replicaValue s step).toNat * 2 ^ 64 + (step.toNat % 256) * 2 ^ 96 +
    s.rink * 2 ^ 104)

/-- A received record belongs to the step checked. -/
def recordFits (step : U64) (r : BitVec 128) : Bool :=
  BitVec.ofNat 64 (field r 63 0) == step && field r 103 96 == step.toNat % 256

/-- The values of the ring, each with its rink; a record that does not fit counts as a value of its own. -/
def ringValues (s : State) (rs : List ReplicaRecord) : List (Nat × Option Nat) :=
  (s.rink, some (replicaValue s s.recovery.refreshStep).toNat) ::
    rs.map fun r => (r.z, if recordFits s.recovery.refreshStep r.record then some (field r.record 95 64) else none)

/-- The members that hold a value. -/
def holders (vs : List (Nat × Option Nat)) (v : Nat) : Nat := (vs.filter fun e => e.2 == some v).length

/-- The value held by more than half of three or more members. -/
def majorityValue (vs : List (Nat × Option Nat)) : Option Nat :=
  if vs.length < 3 then none
  else (vs.filterMap fun e => e.2).find? fun v => decide (vs.length < 2 * holders vs v)

/-- Take the majority's pages: each is written under its open stamp and closed, as a refresh would. -/
def repairPages (pages : List PageIn) (s : State) : State :=
  let t := pages.foldl (fun u p =>
    let v := restorePage p.index ⟨p.index, u.recovery.refreshStep, p.bytes⟩ u
    { v with recovery := { v.recovery with crcs := SMap.put v.recovery.crcs p.index (crc32c (p.bytes.take 65536)) } }) s
  postEvent Code.evReplicaRepair noOp 0 0
    (withCounts (fun c => { c with replicaRepairs := satInc c.replicaRepairs 1 }) t)

/-- Report records that do not fit the step (R358). -/
def reportMisfits (rs : List ReplicaRecord) (s : State) : State :=
  (rs.filter fun r => !recordFits s.recovery.refreshStep r.record).foldl (fun t r =>
    postEvent Code.cvAlive noOp 0 (moduleWhere { t.coord with z := r.z }) t) s

def checkPassed (s : State) : State := { s with recovery := { s.recovery with replicaOk := true } }

/-- A module that has taken the majority's pages checks again, and proceeds where its value is the majority's (R327). -/
def checkAgain (v : Nat) (s : State) : State :=
  if (replicaValue s s.recovery.refreshStep).toNat = v then checkPassed s else s

/-- The comparison with every member's record here. -/
def compareReplicas (rs : List ReplicaRecord) (majority : List PageIn) (s : State) : State :=
  let vs := ringValues s rs
  let mine := (replicaValue s s.recovery.refreshStep).toNat
  let t := reportMisfits rs s
  if holders vs mine = vs.length then checkPassed t
  else
    match majorityValue vs with
    | none => haltJob Code.failReplicaSplit noOp 0 t
    | some v => if v = mine then checkPassed t else checkAgain v (repairPages majority t)

/-- REPLICA_CHECK_RECORD: the records of the ring, with the pages of the majority where this module differs. -/
def execReplicaCheckRecord (records : List ReplicaRecord) (majority : List PageIn) (s : State) :
    Host.Outcome State Fault Refusal :=
  if ¬ s.recovery.refreshing ∨ s.recovery.replicaOk ∨ s.job = none ∨ records.length + 1 ≠ (members s).length then
    .next s
  else .next (compareReplicas records majority s)

/-! ## What arrives from other modules (R292) -/

/-- An arrival of the replica reduction may let it go on. -/
def settleAfter (d : ReduceDecl) (s : State) : State := if d.replica then settleReplica s else s

/-- SEGMENT_ARRIVE (R247 to R255). -/
def execSegmentArrive (d : ReduceDecl) (seg : Segment) (s : State) : Host.Outcome State Fault Refusal :=
  match segmentFault s d seg with
  | some k => .refused (.refusedAtBuild k)
  | none => .next (arrive (.segmentArrive d seg) d.op (settleAfter d (segmentIn d seg s)) s)

/-- CLOSE_ARRIVE (R248 to R252); that of a replica contribution carries its weight (R302). -/
def execCloseArrive (d : ReduceDecl) (source : Nat) (c : Close) (s : State) : Host.Outcome State Fault Refusal :=
  match reduceFault s d with
  | some k => .refused (.refusedAtBuild k)
  | none =>
    .next (arrive (.closeArrive d source c) d.op
      (settleAfter d (closeIn d source c (if d.replica then putWeight (rinkOfSource s source) c.weight s else s))) s)

/-- What a gather names: along the replica ring the engine's own gather of the buffer that the operation reduces. -/
def gatherOfCmd (s : State) (g : GatherCmd) : Option GatherCmd :=
  if g.ring then (bufferOf s g.op).map fun b => { ringGather s g.op b g.others with issue := false } else some g

/-- ALL_GATHER: the concatenation of every member's piece, with the presence bits of a gradient buffer. -/
def execAllGather (g : GatherCmd) (s : State) : Host.Outcome State Fault Refusal :=
  match gatherOfCmd s g with
  | none => .next (arrive (.allGather g) g.op s s)
  | some c =>
    match gatherFault s c with
    | some k => .refused (.refusedAtBuild k)
    | none => .next (arrive (.allGather g) g.op (gatherEffect c s) s)

/-! ## Barriers (R291, R298) -/

/-- T_r and D_r at the release of the barrier of a replica reduction. -/
def noteDeadline (op : U32) (rel : U64) (s : State) : State :=
  match s.job with
  | none => s
  | some j => if (bufferOf s op).isSome ∧ s.coll.tr = none then setDeadline j rel s else s

/-- BARRIER_RELEASE: an entered barrier completes with its release time, which its root sends on. -/
def execBarrierRelease (op : U32) (machine : Bool) (release : U64) (s : State) : Host.Outcome State Fault Refusal :=
  if ¬ s.coll.entered.contains op then .next s
  else
    let rel := releaseTime machine release s
    let t := noteRelease op rel s
    .next (confirmSnapshot op (startDump op (noteDeadline op rel
      (if isRoot s machine then emit (.send (.barrierRelease op rel)) t else t))))

/-! ## Acknowledged pages (R313) -/

/-- A page of a refresh is acknowledged: sweeps and carry areas that wait for it go on, and what waits for the last page
ends. -/
def pageAcked (page : Nat) (s : State) : State :=
  refreshDone (endSettling (endRestore (settleReplica (ackPage page s))))

/-- TANDEM_PAGE_ACK. -/
def execTandemPageAck (a : PageAck) (s : State) : Host.Outcome State Fault Refusal :=
  if a.restored then
    .next (endRestore { s with recovery := { s.recovery with kept := s.recovery.kept.filter (· ≠ a.page) } })
  else
    match devicePage s a.page with
    | none => .next s
    | some p => if s.recovery.unacked.contains p then .next (pageAcked p s) else .next s

end Sys2Proof.Machine
end

