-- ==== Sys2Proof/Machine/Recovery.lean ====
section
/-! DEFINITION. Losing a module (R316 to R320), a rink that leaves and rejoins (R321, R322), and the marshal (R323 to
R325). -/

namespace Sys2Proof.Machine

/-! ## Pause and report (R317) -/

/-- The +x neighbour of a position, its tandem (R309). -/
def tandemOf (s : State) (c : Coord) : Coord := { c with x := ringNext (siteExtX s.site) c.x }

/-- The spare roster names no module. -/
def rosterEmpty (s : State) : Bool := (upFrom 0 (siteRosterCount s.site)).all fun i => siteRoster s.site i == 0

def inRoster (s : State) (d : Digest) : Bool := d != 0 && (upFrom 0 (siteRosterCount s.site)).any fun i => siteRoster s.site i == d

/-- What ends the job at the Pause phase (R319, R320, R328). -/
def pauseHalt (s : State) : Option U16 :=
  match s.job with
  | none => none
  | some j =>
    if s.recovery.lost = [] then none
    else if j.image.heldWritten ≠ [] then some Code.failHeldLost
    else if s.recovery.lost.any fun c => s.recovery.lost.contains (tandemOf s c) then some Code.failTandemLost
    else if rosterEmpty s then some Code.failNoStandby
    else none

/-- The uncommitted step of a job is aborted. -/
def pauseJob (s : State) : State :=
  let gone (j : Job) : State := { discardStep s with job := some { j with phase := .aborted } }
  match s.job with
  | none => s
  | some j =>
    match j.phase with
    | .inStep => gone j
    | .atCut => gone j
    | .dumping => gone j
    | .aborted => s
    | .barrier => s
    | .settling => s
    | .boundary => s
    | .held => s
    | .refreshing => s
    | .halted => s

/-- The loss of each position is written to the status record, and the marshal's module raises the host interrupt. -/
def reportLost (fresh : List Coord) (s : State) : State :=
  let t := fresh.foldl (fun u c => postEvent Code.evModuleLost noOp 0 (moduleWhere c) u)
    (withStatus (fun r => { r with paused := true }) s)
  if s.recovery.marshal then raiseCause 5 t else t

/-- A rink of several that pauses leaves the active set (R321). -/
def pauseLeave (s : State) : State :=
  if siteSeveral s.site ∧ ¬ s.recovery.left then
    leaveRink { s with
      coll := { s.coll with leaves := insertNat s.coll.leaves s.rink }
      recovery := { s.recovery with left := true } }
  else s

/-- A halted job waits for the host (R328). -/
def jobHalted (s : State) : Bool :=
  match s.job with
  | none => false
  | some j => decide (j.phase = .halted)

/-- The links of a module's connected ports: a dimension of length 1 has none (R286). -/
def moduleLinks (s : State) (c : Coord) : List Link :=
  let dims : List (Fin 3) := [0, 1, 2]
  ((dims.filter fun d => decide (1 < extent s.site d.val)).map fun d =>
    [⟨d, c⟩, ⟨d, Coord.set c d.val (ringBack (extent s.site d.val) (Coord.get c d.val))⟩]).flatten

/-- Every connected port of a module is in the down table (R316). -/
def portsDown (s : State) (c : Coord) : Bool :=
  !(moduleLinks s c).isEmpty && (moduleLinks s c).all fun l => s.fabric.down.contains l

/-- The module is lost (R316). -/
def isLost (s : State) (l : Loss) : Bool :=
  match l.cause with
  | .ports => portsDown s l.at'
  | .silence => true
  | .notice => true

/-- The pause of this module for some positions; one that is paused for them already does not change, and a position that
has been adopted in this recovery is awaited again only where it is lost again (R325). A halted job only waits for the host
(R328). -/
def pauseFor (lost : List Coord) (s : State) : State :=
  let fresh := lost.filter fun c => !s.recovery.lost.contains c
  if (s.recovery.paused ∧ fresh = []) ∨ jobHalted s then s
  else
    let new := fresh.filter fun c => !s.recovery.adopted.contains c || portsDown s c
    let t := reportLost new (pauseJob { s with recovery := { s.recovery with
      paused := true
      restoring := false
      kept := []
      lost := s.recovery.lost ++ new
      awaited := s.recovery.awaited ++ new
      adopted := s.recovery.adopted.filter fun c => !new.contains c } })
    match pauseHalt t with
    | some c => haltJob c noOp 0 t
    | none => pauseLeave t

/-- MODULE_LOST: the marshal finds modules lost, and floods PAUSE for them. -/
def execModuleLost (lost : List Loss) (s : State) : Host.Outcome State Fault Refusal :=
  let cs := (lost.filter (isLost s)).map Loss.at'
  if ¬ s.recovery.marshal ∨ cs = [] then .next s
  else .next (pauseFor cs (emit (.send (.pause cs)) s))

/-- PAUSE. -/
def execPause (lost : List Coord) (s : State) : Host.Outcome State Fault Refusal :=
  if lost = [] then .next s else .next (pauseFor lost s)

/-- RECOVERY_WAIT_EXPIRY: recovery_wait_s have passed without an adoption of every position. -/
def execRecoveryWaitExpiry (s : State) : Host.Outcome State Fault Refusal :=
  if s.recovery.awaited = [] ∨ jobHalted s then .next s else .next (haltJob Code.failNoStandby noOp 0 s)

/-! ## Join (R317, R318) -/

/-- An adoption is entered into the record. -/
def noteAdoption (c : Coord) (s : State) : State :=
  postEvent Code.evAdopted noOp 0 (moduleWhere c)
    (withCounts (fun n => { n with adoptions := satInc n.adoptions 1 }) s)

/-- The standby module takes the lost module's place in the job: its timebase and the uncommitted step are those of the
rink, and its Gatehouse will start from the STATE page (R348). -/
def joinStandby (j : Job) (a : AdoptIn) (s : State) : State :=
  let t := noteAdoption a.position (raiseCause 0 (placeBias j (startUnits j (startBank j { s with
    job := some { j with phase := .aborted }
    time := { s.time with value := a.time, set := true } }))))
  withStatus (fun r => { r with
      step := a.step
      committed := a.step - 1
      paused := true
      replayMode := Desc.replayMode j.desc })
    { t with
      hbm := { t.hbm with commitWord := a.step - 1 }
      gatehouse := { t.gatehouse with rebuilding := true, fromPage := true }
      recovery := { t.recovery with
        marshal := false, heard := none, paused := true, joined := true, left := siteSeveral t.site } }

/-- The outcome of the image identity barrier on this module (R52); none where it passes. -/
def joinOutcome (j : Job) (a : AdoptIn) : Option U16 := barrierCode j a.others

/-- A live module of the rink takes note of the adoption. -/
def joinLive (a : AdoptIn) (s : State) : State :=
  noteAdoption a.position { s with recovery := { s.recovery with
    awaited := s.recovery.awaited.filter fun c => c ≠ a.position
    adopted := s.recovery.adopted ++ [a.position] } }

/-- This module takes part in the adoption: the standby module in its job-start barrier, or a live one that awaits it. -/
def joinAwaited (j : Job) (a : AdoptIn) (s : State) : Bool :=
  if a.standby then decide (j.phase = .barrier) else s.recovery.awaited.contains a.position && decide (j.phase ≠ .halted)

/-- ADOPTION_JOIN: a module that the roster does not name is refused; every module enters the identity barrier, whose
outcome is the same on each (R52). -/
def execAdoptionJoin (a : AdoptIn) (s : State) : Host.Outcome State Fault Refusal :=
  match s.job with
  | none => .next s
  | some j =>
    if ¬ joinAwaited j a s then .next s
    else if ¬ inRoster s a.identity then .next (postEvent Code.failNotRoster noOp 0 (moduleWhere a.position) s)
    else if a.others.length + 1 ≠ s.rinkSize then .next s
    else
      match joinOutcome j a with
      | some c => .next (endJob c s)
      | none => .next (if a.standby then joinStandby j a s else joinLive a s)

/-! ## Restore (R317) -/

/-- A tandem page as this module keeps it. -/
def keptPage (s : State) (j : Nat) : PageIn :=
  ⟨j, SMap.get 0 s.hbm.tandemStamps j, Mem.read 0 s.hbm.tandem (65536 * j) 65536⟩

/-- The lost module's tandem copy goes to its successor, which acknowledges each page. -/
def sendKept (s : State) : State :=
  let t := emitAll ((jobPages s).map fun e => .restorePage (keptPage s e.1)) s
  { t with recovery := { t.recovery with kept := (jobPages s).map fun e => e.1 } }

/-- Restore the pages of this module that a list holds, with their stamps, and report each (R329). -/
def restoreOwn (pages : List PageIn) (s : State) : State :=
  (jobPages s).foldl (fun t e =>
    match restoredIn pages e.1 with
    | some p => settleRestore e.2 p t
    | none => t) s

/-- Acknowledge restored pages. -/
def ackRestored (pages : List PageIn) (s : State) : State := emitAll (pages.map fun p => .restoreAck p.index) s

/-- Keep and acknowledge the pages of the −x neighbour, each under its own stamp. -/
def keepAll (pages : List PageIn) (s : State) : State :=
  pages.foldl (fun t p => emit (.tandemAck p.index) (keepPage p.stamp p t)) s

/-- Every STATE page is in the list. -/
def wholeState (pages : List PageIn) (s : State) : Bool := (jobPages s).all fun e => (restoredIn pages e.1).isSome

/-- TANDEM_RESTORE: this module's part of the Restore phase, which a machine of several rinks skips (R322); the phase ends
once every page is restored and acknowledged. -/
def execTandemRestore (role : RestoreRole) (s : State) : Host.Outcome State Fault Refusal :=
  if ¬ s.recovery.paused ∨ s.recovery.restoring ∨ s.recovery.awaited ≠ [] ∨ siteSeveral s.site ∨ jobHalted s then .next s
  else
    match role with
    | .live plusX minusX =>
      let t := if plusX then sendKept s else s
      let u := if minusX then sendPages (jobPages t) t else t
      .next (endRestore { u with recovery := { u.recovery with restoring := true } })
    | .standby own tandem =>
      if wholeState own s then .next (resume (keepAll tandem (ackRestored own (restoreOwn own s)))) else .next s

/-! ## A rink that rejoins (R322) -/

/-- The rink with the lowest z in the active set. -/
def lowestRink (s : State) : Option Nat := (members s).head?

/-- A rink joins at a step. -/
def addJoin (r : Nat) (step : U64) (s : State) : State :=
  { s with coll := { s.coll with joins := (s.coll.joins.filter fun e => e.1 ≠ r) ++ [(r, step)] } }

/-- REJOIN_REQUEST: the recovering rink's marshal asks; the marshal of the lowest-z active rink names its current step
plus 2 and floods it; every module adds the rink to the active set of the named step. -/
def execRejoinRequest (rink : Nat) (named : Option U64) (s : State) : Host.Outcome State Fault Refusal :=
  if ¬ siteSeveral s.site ∨ 32 ≤ rink then .next s
  else
    match named with
    | some j => .next (addJoin rink j s)
    | none =>
      if rink = s.rink then
        (if s.recovery.marshal ∧ s.recovery.left ∧ s.recovery.awaited = [] then .next (emit (.send (.rejoinRequest rink)) s)
        else .next s)
      else if s.recovery.marshal ∧ lowestRink s = some s.rink ∧ ¬ bitAt s.coll.active rink ∧ ¬ s.recovery.left then
        .next (emit (.send (.rejoinStep rink (s.status.step + 2))) (addJoin rink (s.status.step + 2) s))
      else .next s

/-- Clear the carry areas and their counts. -/
def clearCarry (j : Job) (s : State) : State :=
  j.image.replica.foldl (fun t b =>
    [b.carry0, b.carry1].foldl (fun u c => devPut c.count 4 0 (clearBits c.bitmap b.tiles u)) t) s

/-- The rink's state is that of step − 1, and the step is the next to run. -/
def rejoinAt (j : Job) (step : U64) (pages : List PageIn) (s : State) : State :=
  let t := clearCarry j (restoreOwn pages s)
  let u := sendPages (jobPages t) { t with
    hbm := { t.hbm with commitWord := step - 1 }
    job := some { j with phase := .boundary, replays := 0 }
    coll := { t.coll with included := none, votes := [], mine := [], arrivals := [], weights := [] }
    gatehouse := { t.gatehouse with rebuilding := true, fromPage := true }
    recovery := { t.recovery with
      paused := false, lost := [], left := false, refreshing := false, replicaOk := true, swept := [] } }
  postEvent Code.evRejoin noOp 0 (moduleWhere u.coord)
    { u with status := { u.status with step := step, committed := step - 1, paused := false } }

/-- REJOIN_STATE_TRANSFER: every STATE page committed at step − 1 is here. -/
def execRejoinStateTransfer (step : U64) (pages : List PageIn) (s : State) : Host.Outcome State Fault Refusal :=
  match s.job with
  | none => .next s
  | some j =>
    if s.recovery.left ∧ s.recovery.awaited = [] ∧ j.phase ≠ .halted ∧ s.coll.joins.contains (s.rink, step) ∧
        wholeState pages s then
      .next (rejoinAt j step pages s)
    else .next s

/-! ## The marshal (R323 to R325) -/

/-- MARSHAL_BEAT: the marshal floods its beat; a beat from a lower index is heard, and this module holds no role
beside it. -/
def execMarshalBeat (index : Nat) (s : State) : Host.Outcome State Fault Refusal :=
  if index = s.L then
    (if s.recovery.marshal then .next (emit (.send (.marshalBeat index)) s) else .next s)
  else if index < s.L then
    .next { s with recovery := { s.recovery with heard := some index, marshal := false } }
  else .next s

/-- The index of the marshal as this module knows it: the last one heard below its own, or the first of the list. -/
def knownMarshal (s : State) : Nat := s.recovery.heard.getD 0

/-- A new marshal begins its beats, and starts a recovery that is in progress, as far as its replay has not committed, again
from Pause (R325). -/
def promote (s : State) : State :=
  let t := emit (.send (.marshalBeat s.L)) { s with recovery := { s.recovery with marshal := true } }
  let underway := t.recovery.lost ++ t.recovery.adopted.filter fun c => !t.recovery.lost.contains c
  if underway = [] ∨ jobHalted s then t else pauseFor underway (emit (.send (.pause underway)) t)

/-- MARSHAL_PROMOTION: no beat from a lower index for 50 · (L − L_m) µs. -/
def execMarshalPromotion (silenceUs : Nat) (s : State) : Host.Outcome State Fault Refusal :=
  if ¬ s.recovery.marshal ∧ knownMarshal s < s.L ∧ 50 * (s.L - knownMarshal s) ≤ silenceUs then .next (promote s)
  else .next s

/-- CONTROLLER_B_TAKEOVER: controller A has been silent for 5 µs. -/
def execControllerBTakeover (silenceUs : Nat) (s : State) : Host.Outcome State Fault Refusal :=
  if 5 ≤ silenceUs ∧ s.controllers.aAlive then
    .next { s with controllers := { s.controllers with aAlive := false, bActs := true } }
  else .next s

end Sys2Proof.Machine
end

