-- ==== Sys2Proof/Machine/Steps.lean ====
section
/-! DEFINITION. Steps (R21, R45 to R50): the start of a step with the admission records it takes, the commit barrier, and
the cut point with its dump (R56 to R59, R378). -/

namespace Sys2Proof.Machine

/-- The phase of the job, if there is one. -/
def phaseIs (s : State) (p : JobPhase) : Bool :=
  match s.job with
  | none => false
  | some j => decide (j.phase = p)

def setPhase (p : JobPhase) (s : State) : State := { s with job := s.job.map fun j => { j with phase := p } }

/-! ## Host admission tables (R370) -/

/-- The step's offset o = s − first_step. -/
def stepOffset (s : State) (j : Job) : Nat := s.status.step.toNat - Desc.firstStep j.desc

/-- ready_off ≥ o in every table of the image. -/
def admissionReady (s : State) (j : Job) : Bool :=
  j.image.admissionTables.all fun r => decide (stepOffset s j ≤ devNat s (r.base + 16) 8)

/-- Record k of a table: the records behind the header are used in turn. -/
def recordPlace (r : Range) (k : Nat) : Nat := r.base + 64 + 32 * (k % max 1 ((r.len - 64) / 32))

def takeOff (s : State) (r : Range) (k : Nat) : Nat := devNat s (recordPlace r k) 6

/-- The records taken at offset o, from record `k` on, of at most `n` written ones. -/
def dueRecords (s : State) (r : Range) (o : Nat) : Nat → Nat → List Nat
  | 0, _ => []
  | n + 1, k => if takeOff s r k ≤ o then k :: dueRecords s r o n ((k + 1) % 2 ^ 32) else []

def tableDue (s : State) (j : Job) (r : Range) : List Nat :=
  let m := devNat s (r.base + 8) 4
  dueRecords s r (stepOffset s j) ((devNat s r.base 4 + 2 ^ 32 - m) % 2 ^ 32) m

/-- A record taken late, of any table. -/
def lateRecord (s : State) (j : Job) : Option Nat :=
  (j.image.admissionTables.map fun r =>
    (tableDue s j r).filter fun k => decide (takeOff s r k < stepOffset s j)).flatten.head?

/-- A table's module_count passes the records taken. -/
def takeTable (j : Job) (s : State) (r : Range) : State :=
  devPut (r.base + 8) 4 ((devNat s (r.base + 8) 4 + (tableDue s j r).length) % 2 ^ 32) s

/-- The step takes its records, at its first attempt only; its cache operations handle exactly those (R370). -/
def takeRecords (j : Job) (s : State) : State :=
  let t := j.image.admissionTables.foldl (takeTable j) s
  { t with job := some { j with
      admitted := some s.status.step.toNat
      taken := j.image.admissionTables.map fun r => (tableDue s j r).map (recordPlace r) } }

/-! ## The start of a step -/

/-- The first update operation of the step's program whose table has no row for it (R258). -/
def missingRow (s : State) (j : Job) : Option U32 :=
  (programOf j.image s.status.step.toNat).bind fun p =>
    (p.imms.find? fun t => (immRow s t.op).isNone).map ImmTable.op

/-- The step's input is here: its batch, and the declared admission records (R332, R370). -/
def inputReady (s : State) (j : Job) : Bool :=
  batchReady s j s.status.step.toNat && (j.admitted == some s.status.step.toNat || admissionReady s j)

/-- The step waits on its input: the flag is set and the wait is counted. -/
def waitInput (s : State) : State :=
  if s.status.inputWait then s
  else
    withStatus (fun r => { r with inputWait := true })
      (withCounts (fun c => { c with inputWaits := satInc c.inputWaits 1 }) s)

/-- The collective engine at a step start: of an earlier attempt stay the votes, which are final, with what they rest on
(R299), and the set that they have formed; the second barrier of a snapshot stays entered (R293). -/
def freshColl (c : Coll) : Coll :=
  { c with
    entered := c.entered.filter (· == noOp)
    released := []
    scattered := []
    gathers := []
    tr := none
    deadline := none
    sentBufs := []
    carried := false }

/-- The commands of a step have ended, and their references to the instruction banks go; a refresh keeps its own (R146). -/
def endCommands (s : State) : State :=
  { s with cores := { s.cores with ctl := [] }, banks := dropRefs (· != noOp) s.banks, ended := [] }

/-- What the step, or its replay, rebuilds from its start (R113, R132, R134): scratchpads with their token words, drain files
with the full tokens of their slots, and the op counter entries. A byte that no operation of the step has written reads 0,
in a dump too (R57; DESIGN CHOICE, assumption log 84). -/
def freshStores (s : State) : State :=
  { s with
    cores := { s.cores with scratch := [], drain := [], rings := [], haloSent := [], haloReady := [] }
    hbm := { s.hbm with counted := [] } }

/-- The first operation may run: what a replay must meet again is kept (R21), generators are seeded (R193), presence bitmaps and the cores' stores are cleared (R132, R134,
R254), controllers and memory-side units begin afresh (R135). -/
def beginStep (s : State) : State :=
  let t := keepStart (endCommands (withStatus (fun r => { r with inputWait := false }) s))
  setPhase .inStep
    (freshStores (clearPresence (seedLanes { t with msu := Msu.reset, coll := freshColl t.coll })))

/-- The checks of a step start, with its input here. -/
def startStep (j : Job) (s : State) : State :=
  if j.admitted == some s.status.step.toNat then takeManifest (beginStep s)
  else
    match lateRecord s j with
    | some k => stopJob Code.kvAdmitLate noOp (BitVec.ofNat 64 k) s
    | none => takeManifest (beginStep (takeRecords j s))

/-- STEP_START. -/
def execStepStart (s : State) : Host.Outcome State Fault Refusal :=
  match s.job with
  | none => .next s
  | some j =>
    if j.phase ≠ .boundary ∨ s.recovery.paused ∨ s.recovery.left then .next s
    else
      let t := boundarySet s
      match missingRow t j with
      | some op => .next (stopJob Code.updNoRow op 0 t)
      | none => if inputReady t j then .next (startStep j t) else .next (waitInput t)

/-! ## The commit barrier (R21) -/

/-- The Gatehouse's STATE page shows the step (R347). -/
def ghPageDone (s : State) (j : Job) : Bool :=
  match j.image.batch with
  | none => true
  | some b =>
    let p := b.ghPage / 65536
    SMap.get 0 s.hbm.stamps p == s.status.step && (decide (s.status.step ≠ 0) || s.recovery.swept.contains p)

/-- What the replica reduction must have settled: the inclusion set, the carry areas, and every replica buffer (R301); nothing
in a one-rink machine, except that a replay has read its manifest entry. -/
def setsDone (s : State) (j : Job) : Bool :=
  if siteSeveral s.site then
    s.coll.included.isSome && s.coll.carried && (upFrom 0 j.image.replica.length).all (replicaReady s)
  else !Desc.replayMode j.desc || s.coll.included.isSome

/-- Every halo row that was sent has its READY word (R162). -/
def halosSettled (s : State) : Bool := s.cores.haloSent == s.cores.haloReady

/-- No core controller has a command queued or in its window. -/
def coresIdle (s : State) : Bool :=
  s.cores.ctl.all fun e => e.2.loads.isEmpty && e.2.queues.all fun q => q.2.isEmpty

/-- Everything that the module has begun below index `c` is complete, and so is every operation that the program declares
there (R50): no command waits or is queued, so that every comparison of a checker has been made (R96); reductions, sweeps, halo
rows, barriers and cache edits have ended. -/
def completeBelow (s : State) (c : Nat) : Bool :=
  s.stalled.isEmpty && coresIdle s && halosSettled s && s.kv.edits.isEmpty && endedBelow s c &&
    (s.msu.runs.all fun r => decide (c ≤ r.decl.op.toNat) || r.complete) &&
    (s.msu.sweeps.all fun w => decide (c ≤ w.cmd.op.toNat) || (w.started && w.pages.all fun p => p.closed)) &&
    s.coll.entered.all fun op => decide (c ≤ op.toNat)

/-- Every operation below the commit barrier is complete on the module. -/
def commitReady (s : State) (j : Job) : Bool :=
  let last := opCountOf j.image s.status.step.toNat - 1
  acts s (BitVec.ofNat 32 last) && completeBelow s last && (s.msu.runs.all fun r => r.complete) && sweepsClosed s &&
    ghPageDone s j && setsDone s j

/-- The pending image becomes active at the step boundary; the refresh keeps its reference to the old bank. -/
def swapBanks (b : Banks) : Banks :=
  let c := if b.active then { b with bank1 := { b.bank1 with refs := b.bank1.refs ++ [noOp] } }
    else { b with bank0 := { b.bank0 with refs := b.bank0.refs ++ [noOp] } }
  if b.pending then { c with active := !b.active, pending := false } else c

/-- Rows that are due are remapped at the step boundary (R239, R241). -/
def remapRows (s : State) : State :=
  let t := s.hbm.remapDue.foldl (fun u r => remapRow r u) s
  { t with hbm := { t.hbm with remapDue := [] } }

/-- The rotation of R426, where the commit calls for one. -/
def rotateAt (j : Job) (step : Nat) (s : State) : State :=
  let n := cfgRotation s.config
  if n ≠ 0 ∧ (step - Desc.firstStep j.desc + 1) % n = 0 then rotate s else s

/-- The nearest active rink in +z of a rink, with wrap (R322). -/
def donorOf (s : State) (r : Nat) : Option Nat :=
  ((upFrom 1 (siteExtZ s.site - 1)).map fun k => (r + k) % siteExtZ s.site).find? fun z => bitAt s.coll.active z

/-- Rinks that join at the next step, and take this module's pages. -/
def takers (s : State) (next : U64) : List Nat :=
  (s.coll.joins.filter fun e => e.2 == next && donorOf s e.1 == some s.rink).map Prod.fst

/-- Every STATE page goes to the counterpart in a rink that joins (R322). -/
def feedJoiners (next : U64) (s : State) : State :=
  if (takers s next).isEmpty then s
  else emitAll ((jobPages s).map fun e => .rejoinPage (pageOut s e.1 e.2)) s

/-- The role passes to an adopted position with the lowest index at its first commit (R325). -/
def passRole (s : State) : State :=
  { s with recovery := { s.recovery with
      joined := false
      adopted := []
      marshal := s.recovery.marshal || (s.recovery.joined && s.recovery.heard.isNone) } }

/-- A one-rink machine's sets for the step (R304, R377). -/
def publishOwn (s : State) : State :=
  if siteSeveral s.site then s
  else
    match s.coll.included with
    | some _ => s
    | none => publishSets 1 s

/-- The step's values in the units, with the commit word (R311), the release of the batch (R332), the refresh that is now due
(R312) and the replica check before it (R326). -/
def commitUnits (j : Job) (s : State) : State :=
  let step := s.status.step
  let t := releaseBatch j step.toNat (endCommands (publishOwn s))
  let u := { t with
    hbm := { t.hbm with commitWord := step }
    banks := swapBanks t.banks
    job := some (if step.toNat = Desc.lastStep j.desc then
        { j with replays := 0, phase := .refreshing, stop := Code.jobDone }
      else { j with replays := 0, phase := .boundary })
    coll := { t.coll with
      included := none, votes := [], mine := [], arrivals := [], weights := [] }
    kv := { t.kv with start := none }
    recovery := { t.recovery with
      refreshing := true
      refreshStep := step
      replicaOk := !siteSeveral t.site
      crcs := t.msu.pageCrcs
      swept := if step = 0 then t.recovery.swept else [] } }
  if siteSeveral u.site then emit (.send (.replicaCheck (replicaRecord u step))) u else u

/-- What happens at the step boundary behind the commit of `step`. -/
def atBoundary (j : Job) (step : U64) (waitBp : Nat) (s : State) : State :=
  let t := passRole (feedJoiners (step + 1) (paceRinkEval waitBp (rotateAt j step.toNat (remapRows s))))
  withStatus (fun r => { r with
    committed := step
    step := if step.toNat = Desc.lastStep j.desc then step else step + 1 }) t

/-- COMMIT_BARRIER: every module of the rink has passed the commit barrier of the step; `waitBp` is the share of the step
spent waiting for other modules, in hundredths of a percent (R417). -/
def execCommitBarrier (waitBp : Nat) (s : State) : Host.Outcome State Fault Refusal :=
  match s.job with
  | none => .next s
  | some j =>
    if commitReady s j ∧ ¬ s.recovery.paused then .next (atBoundary j s.status.step waitBp (commitUnits j s))
    else .next s

/-! ## The cut point (R56, R378) -/

/-- The running step has reached the cut's op boundary. -/
def cutReady (s : State) (j : Job) : Bool :=
  inStep s && Desc.hasCut j.desc && s.status.step.toNat == Desc.cutStep j.desc && completeBelow s (Desc.cutOp j.desc)

/-- CUT_POINT_REACHED: the operations below c are complete; speculation is discarded, check-value units are reset
(R354), and the module enters the rink's barrier. -/
def execCutPointReached (s : State) : Host.Outcome State Fault Refusal :=
  match s.job with
  | none => .next s
  | some j =>
    if cutReady s j ∧ ¬ s.recovery.paused then
      let op := BitVec.ofNat 32 (Desc.cutOp j.desc)
      .next (emit (.send (.barrierEnter op))
        { s with
          cores := { s.cores with
            ctl := s.cores.ctl.map fun e => (e.1, e.2.squashAll)
            cv := resetCoreCv s.cores.cv }
          coll := { s.coll with entered := s.coll.entered ++ [op] }
          job := some { j with phase := .atCut } })
    else .next s

/-- A span of a store, from `src` on, as the dump places it at `dst`. -/
structure DumpSpan where
  store : Mem
  src : Nat
  len : Nat
  dst : Nat
deriving DecidableEq, Repr

/-- The ranges of a dump, one after another from `dst` on. -/
def rangeSpans (s : State) : Nat → List Range → List DumpSpan
  | _, [] => []
  | dst, r :: rs => ⟨s.hbm.dev, r.base, r.len, dst⟩ :: rangeSpans s (dst + r.len) rs

def scratchLen : Nat := 0xA00000
def drainLen : Nat := 0x10000

/-- The spans behind the header: scratchpads, drain files, ranges. -/
def dumpSpans (s : State) (d : BitVec 2048) : List DumpSpan :=
  ((upFrom 0 128).map fun c => ⟨s.cores.scratch, 2 ^ 24 * c, scratchLen, 0x1000 + scratchLen * c⟩) ++
    ((upFrom 0 128).map fun c => ⟨s.cores.drain, 2 ^ 16 * c, drainLen, 0x1000 + 128 * scratchLen + drainLen * c⟩) ++
    rangeSpans s (0x1000 + 128 * (scratchLen + drainLen)) (usedRanges d)

/-- Write the part of a span that lies below offset `limit` of the dump. -/
def dumpSpan (base limit : Nat) (m : Mem) (p : DumpSpan) : Mem :=
  if p.dst < limit then Mem.copy p.store p.src (min p.len (limit - p.dst)) (base + p.dst) m else m

/-- The header of a dump (R378). -/
def dumpHeader (d : BitVec 2048) (complete : Bool) : List Byte :=
  leBytes 8 (field d 63 0) ++ leBytes 8 (Desc.cutStep d) ++ leBytes 4 (Desc.cutOp d) ++ leBytes 4 complete.toNat ++
    leBytes 8 (dumpLength d) ++ List.replicate (4096 - 32) 0

/-- Write the dump as far as offset `limit`, and the header. -/
def writeDump (j : Job) (limit : Nat) (complete : Bool) (s : State) : State :=
  let a := Desc.dumpAddr j.desc
  let m := (dumpSpans s j.desc).foldl (dumpSpan a limit) s.hostMem
  hostWrite a (dumpHeader j.desc complete) { s with hostMem := m }

/-- The module holds at the cut: CUT_REACHED with (s, c), and cause [4]. -/
def holdAtCut (j : Job) (s : State) : State :=
  raiseCause 4 (withStatus (fun r => { r with
      status := Code.cutReached
      cutStep := BitVec.ofNat 64 (Desc.cutStep j.desc)
      cutOp := BitVec.ofNat 32 (Desc.cutOp j.desc) })
    { s with job := some { j with phase := .held }, mgt := { s.mgt with state := .held } })

/-- CUT_DUMP: the dump is written, whole, or as far as a failure lets it go (R59); it needs the CXL link. -/
def execCutDump (upTo : Option Nat) (s : State) : Host.Outcome State Fault Refusal :=
  match s.job with
  | none => .next s
  | some j =>
    if j.phase ≠ .dumping ∨ s.recovery.paused ∨ ¬ s.link.trained ∨ ¬ s.link.cxl then .next s
    else
      match upTo with
      | some n => .next (writeDump j n false s)
      | none => .next (endHeld (holdAtCut j (writeDump j (dumpLength j.desc) true s)))

end Sys2Proof.Machine
end

