-- ==== Sys2Proof/Machine/Stream.lean ====
section
/-! DEFINITION. STREAM_OPERATION: the operations of the stream engine (R114 to R126, R164, R165, R188 to R191, R194, R198,
R199, R452). -/

namespace Sys2Proof.Machine

/-! ## Elements and rows -/

/-- An element of an operation as it was read: its operands, the draws left, and its counts. -/
structure ElemIn where
  vals : List U32
  rest : List U32
  tally : Tally
deriving DecidableEq, Repr

def ElemIn.arg (e : ElemIn) (k : Nat) : U32 := nthD 0 e.vals k

/-- One element: its input converts in stream order. -/
def elemIn (s : State) (src : List (InStream × Nat)) (rs : List U32) : ElemIn :=
  let (v, r, t) := inputsAt s src rs
  ⟨v, r, t⟩

/-- The elements of a row; `src` names the streams and indices of a position. -/
def rowIn (s : State) (src : Nat → List (InStream × Nat)) (draws : List (List U32)) : List ElemIn :=
  ((upFrom 0 draws.length).zip draws).map fun (i, rs) => elemIn s (src i) rs

/-- Rows of an operation: their first elements, and for each its elements and row draws. -/
structure RowIn where
  start : Nat
  elems : List ElemIn
  row : List U32
deriving DecidableEq, Repr

/-- Read every row; `src start i` names the streams of position i of the row that starts at `start`. -/
def rowsIn (s : State) (lens : List Nat) (src : Nat → Nat → List (InStream × Nat))
    (draws : List RowDraws) : List RowIn :=
  ((rowStarts 0 lens).zip draws).map fun (b, d) => ⟨b, rowIn s (src b) d.elems, d.row⟩

def rowsTally (rows : List RowIn) : Tally := Tally.sum (rows.map fun r => Tally.sum (r.elems.map ElemIn.tally))

/-- The operand `k` of a row's elements, masked ones left out. -/
def rowArg (s : State) (mask : Option Loc) (k : Nat) (r : RowIn) : List (Option U32) :=
  ((upFrom r.start r.elems.length).zip r.elems).map fun (i, e) => if keptAt s mask i then some (e.arg k) else none

def rowAll (k : Nat) (r : RowIn) : List U32 := r.elems.map fun e => e.arg k

/-- Write a per-element output whose draws stand at the head of each element's remaining draws. -/
def writeElems (op : U32) (out : OutStream) (vals : List OutVal) (rests : List (List U32)) (s : State) : State :=
  writeOut op out vals (rests.map fun rs => (popDraw out.conv rs).1) s

/-- Write row-level outputs, each with its values by row; every value takes the draws of its stream's convert from its
row's draws, in output order. -/
def writeRowOuts (op : U32) : List (OutStream × List (List OutVal)) → List (List U32) → State → State
  | [], _, s => s
  | (out, vals) :: more, rows, s =>
    let d := convDraws out.conv
    let rs := (vals.zip rows).map fun (vs, r) =>
      (upFrom 0 vs.length).map fun i => if d = 0 then 0 else (nthD 0 r i).toNat
    let rest := (vals.zip rows).map fun (vs, r) => r.drop (d * vs.length)
    writeRowOuts op more rest (writeOut op out vals.flatten rs.flatten s)

/-- Write a flag stream: bit 0 of each byte is the empty flag (R118). -/
def writeFlags (flags : Option Loc) (es : List Bool) (s : State) : State :=
  match flags with
  | none => s
  | some l => locWrite l 0 (es.map fun b => BitVec.ofNat 8 b.toNat) s

/-- Row-level streams that are present. -/
def present (o : Option OutStream) (v : List (List OutVal)) : List (OutStream × List (List OutVal)) :=
  match o with
  | none => []
  | some x => [(x, v)]

def optDraws (o : Option OutStream) : Nat :=
  match o with
  | none => 0
  | some x => convDraws x.conv

/-- Take the draws of rows. -/
def drawRows (ctx : OpCtx) (dE dR : Nat) (lens : List Nat) (s : State) : List RowDraws × State :=
  let (rs, t) := takeDraws ctx (rowSlots dE dR 0 lens) s
  (splitRows dE dR lens rs, t)

/-! ## Element-wise operations (R117, R452) -/

def isIntOp : EwOp → Bool
  | .iadd => true
  | .isub => true
  | .iand => true
  | .ior => true
  | .ixor => true
  | .shl => true
  | .shr => true
  | .sar => true
  | .iaddSat => true
  | .isubSat => true
  | .shlSat => true
  | _ => false

def isCompare : EwOp → Bool
  | .eq => true
  | .ne => true
  | .lt => true
  | .le => true
  | .gt => true
  | .ge => true
  | _ => false

def ewArity : EwOp → Nat
  | .fma => 3
  | .abs => 1
  | .neg => 1
  | .sqrt => 1
  | .rsqrt => 1
  | .exp => 1
  | .copy => 1
  | _ => 2

/-- An exact integer clamped to INT32 (R452). -/
def clampI32 (x : Int) : U32 := BitVec.ofInt 32 (clampInt (-2147483648) 2147483647 x)

/-- Shift left and logical shift right: a count of 32 or more shifts every bit out (R452). -/
def shl32 (a b : U32) : U32 := if b.toNat < 32 then a <<< b.toNat else 0
def shr32 (a b : U32) : U32 := if b.toNat < 32 then a >>> b.toNat else 0

/-- Arithmetic shift right by a count that may exceed the width (R452). -/
def sar32 (a b : U32) : U32 := a.sshiftRight (min b.toNat 31)

/-- A left shift clamped to INT32: a count of 32 or more clamps every non-zero operand. -/
def shlSat32 (a b : U32) : U32 := clampI32 (a.toInt * (2 ^ min b.toNat 32 : Nat))

/-- The comparisons of R71. -/
def compare32 (f : EwOp) (a b : U32) : Bool :=
  let x := dec32 a
  let y := dec32 b
  match f with
  | .eq => FV.eqv x y
  | .ne => !FV.eqv x y
  | .lt => FV.lt x y
  | .le => FV.lt x y || FV.eqv x y
  | .gt => FV.lt y x
  | .ge => FV.lt y x || FV.eqv x y
  | _ => false

/-- The result of an element-wise operation on its operands. -/
def ewResult (f : EwOp) (a b c : U32) : U32 :=
  match f with
  | .add => add32 a b
  | .sub => sub32 a b
  | .mul => mul32 a b
  | .fma => fma32 a b c
  | .min => min32 a b
  | .max => max32 a b
  | .abs => abs32 a
  | .neg => neg32 a
  | .div => div32 a b
  | .sqrt => sqrt32 a
  | .rsqrt => div32 one32 (sqrt32 a)
  | .exp => exp32 a
  | .copy => a
  | .iadd => a + b
  | .isub => a - b
  | .iand => a &&& b
  | .ior => a ||| b
  | .ixor => a ^^^ b
  | .shl => shl32 a b
  | .shr => shr32 a b
  | .sar => sar32 a b
  | .iaddSat => clampI32 (a.toInt + b.toInt)
  | .isubSat => clampI32 (a.toInt - b.toInt)
  | .shlSat => shlSat32 a b
  | .eq => (compare32 .eq a b).toNat
  | .ne => (compare32 .ne a b).toNat
  | .lt => (compare32 .lt a b).toNat
  | .le => (compare32 .le a b).toNat
  | .gt => (compare32 .gt a b).toNat
  | .ge => (compare32 .ge a b).toNat

def outVal (int : Bool) (x : U32) : OutVal := if int then OutVal.ofInt x else OutVal.of x

/-- A stream whose elements enter the operation as INT32: by its convert's target, or as they are stored (R68). -/
def isIntStream (x : InStream) : Bool := if x.conv.isSome then x.toInt else x.t.fmt == .int32

/-- One source of every stream at the same index. -/
def sameIndex (ins : List InStream) (b i : Nat) : List (InStream × Nat) := ins.map fun x => (x, b + i)

/-- A run of `n` elements as one row, with `own` draws of its own and `dOut` of its output. -/
def elementRow (ctx : OpCtx) (n own dOut : Nat) (ins : List InStream) (s : State) :
    List ElemIn × State :=
  let (ds, t) := drawRows ctx (insDraws ins + own + dOut) 0 [n] s
  let rows := rowsIn t [n] (sameIndex ins) ds
  ((rows.map RowIn.elems).flatten, addTally ctx.op (rowsTally rows) t)

def runEw (ctx : OpCtx) (f : EwOp) (ins : List InStream) (out : OutStream) (s : State) : State :=
  let int := isIntOp f || (decide (f = .copy) && ins.any isIntStream)
  let cmp := isCompare f
  let (es, t) := elementRow ctx out.t.n 0 (if cmp then 0 else convDraws out.conv) ins s
  if cmp then writeMask out.t.loc (es.map fun e => compare32 f (e.arg 0) (e.arg 1)) t
  else
    let direct : Option Tensor :=
      if f = .copy then (ins.head?.bind fun x => if x.conv.isNone then some x.t else none) else none
    let vals := ((upFrom 0 es.length).zip es).map fun (i, e) =>
      match direct with
      | some x => ⟨tensorValue t x i, false⟩
      | none => outVal int (ewResult f (e.arg 0) (e.arg 1) (e.arg 2))
    writeElems ctx.op out vals (es.map ElemIn.rest) t

def runMaskLogic (f : MaskOp) (n : Nat) (a b out : Loc) (s : State) : State :=
  writeMask out ((upFrom 0 n).map fun i =>
    match f with
    | .and => maskBit s a i && maskBit s b i
    | .or => maskBit s a i || maskBit s b i
    | .not => !maskBit s a i) s

def runSelect (ctx : OpCtx) (mask : Loc) (a b : InStream) (out : OutStream) (s : State) : State :=
  let int := isIntStream a
  let (es, t) := elementRow ctx out.t.n 0 (convDraws out.conv) [a, b] s
  let vals := ((upFrom 0 es.length).zip es).map fun (i, e) =>
    outVal int (if maskBit s mask i then e.arg 0 else e.arg 1)
  writeElems ctx.op out vals (es.map ElemIn.rest) t

def runFunc (ctx : OpCtx) (f : FuncName) (deriv : Bool) (x : InStream) (out : OutStream) (s : State) : State :=
  let (es, t) := elementRow ctx out.t.n 0 (convDraws out.conv) [x] s
  writeElems ctx.op out (es.map fun e => OutVal.of (if deriv then deriv32 f (e.arg 0) else func32 f (e.arg 0)))
    (es.map ElemIn.rest) t

/-! ## Reductions, top-k, scans -/

/-- A reduction's result and its empty flag (R119, R120, R123). -/
def reduceResult (f : RedOp) (xs : List (Option U32)) : OutVal × Bool :=
  let e := decide (keptCount xs = 0)
  match f with
  | .sum => (OutVal.of (sumRow xs), false)
  | .mean => (OutVal.of (meanRow xs), e)
  | .max => if e then (⟨.inf true, true⟩, true) else (OutVal.of ((reduceRow max32 false xs).getD 0), false)
  | .min => if e then (⟨.inf false, true⟩, true) else (OutVal.of ((reduceRow min32 false xs).getD 0), false)
  | .sumsq => (OutVal.of ((reduceRow add32 true xs).getD zero32), false)
  | .argmax => (OutVal.of zero32, false)

/-- The position that arg-max writes (R121, R123). -/
def argmaxPos (xs : List (Option U32)) : U32 :=
  match bestOf 0 xs with
  | none => 0xFFFFFFFF
  | some (i, _) => BitVec.ofNat 32 i

def runReduce (ctx : OpCtx) (f : RedOp) (x : InStream) (lens : List Nat) (mask : Option Loc) (out : OutStream)
    (flags : Option Loc) (s : State) : State :=
  let arg := decide (f = .argmax)
  let (ds, t) := drawRows ctx (insDraws [x]) (if arg then 0 else convDraws out.conv) lens s
  let rows := rowsIn t lens (sameIndex [x]) ds
  let xs := rows.map (rowArg t mask 0)
  let t := addTally ctx.op (rowsTally rows) t
  let res := xs.map (reduceResult f)
  let u :=
    if arg then writeU32s out.t.loc (xs.map argmaxPos) t
    else writeRowOuts ctx.op [(out, res.map fun r => [r.1])] (rows.map RowIn.row) t
  writeFlags flags (res.map fun r => r.2) u

/-- The k values and positions of one row, padded (R121, R123). -/
def topRow (k : Nat) (xs : List (Option U32)) : List OutVal × List U32 :=
  let best := topK k xs
  let pad := k - best.length
  (best.map (fun p => OutVal.of p.2) ++ List.replicate pad ⟨.inf true, true⟩,
    best.map (fun p => BitVec.ofNat 32 p.1) ++ List.replicate pad 0xFFFFFFFF)

def runTopk (ctx : OpCtx) (k : Nat) (x : InStream) (lens : List Nat) (mask : Option Loc) (vals : OutStream)
    (pos : Loc) (s : State) : State :=
  let (ds, t) := drawRows ctx (insDraws [x]) (k * convDraws vals.conv) lens s
  let rows := rowsIn t lens (sameIndex [x]) ds
  let tops := rows.map fun r => topRow k (rowArg t mask 0 r)
  let u := writeRowOuts ctx.op [(vals, tops.map fun p => p.1)] (rows.map RowIn.row)
    (addTally ctx.op (rowsTally rows) t)
  writeU32s pos (tops.map fun p => p.2).flatten u

/-- The slots of scans: row ρ on lane ρ mod 64, its elements in index order (R194). -/
def scanSlots (d : Nat) : Nat → List Nat → List Nat
  | _, [] => []
  | rho, n :: ns => List.replicate (d * n) (rho % 64) ++ scanSlots d (rho + 1) ns

def runScan (ctx : OpCtx) (f : ScanOp) (incl : Bool) (x : InStream) (lens : List Nat) (mask : Option Loc)
    (out : OutStream) (s : State) : State :=
  let d := insDraws [x] + convDraws out.conv
  let (rs, t) := takeDraws ctx (scanSlots d 0 lens) s
  let rows := rowsIn t lens (sameIndex [x]) (splitRows d 0 lens rs)
  let vals := (rows.map fun r => (scanRow f incl none (rowArg t mask 0 r)).map OutVal.of).flatten
  writeElems ctx.op out vals ((rows.map RowIn.elems).flatten.map ElemIn.rest) (addTally ctx.op (rowsTally rows) t)

/-! ## Soft-maximum and normalization rows -/

def restsOf (rows : List RowIn) : List (List U32) := (rows.map RowIn.elems).flatten.map ElemIn.rest

/-- Write a per-element output if the operation has it. -/
def writeOptElems (op : U32) (out : Option OutStream) (vals : List OutVal) (rests : List (List U32)) (s : State) :
    State :=
  match out with
  | none => s
  | some o => writeElems op o vals rests s

def runSoftmax (ctx : OpCtx) (x : InStream) (lens : List Nat) (mask : Option Loc) (out lse m sm : Option OutStream)
    (s : State) : State :=
  let (ds, t) := drawRows ctx (insDraws [x] + optDraws out) (optDraws lse + optDraws m + optDraws sm) lens s
  let rows := rowsIn t lens (sameIndex [x]) ds
  let rs := rows.map fun r => softRow (rowArg t mask 0 r)
  let t := addTally ctx.op (rowsTally rows) t
  let u := writeOptElems ctx.op out (rs.map fun r => r.y.map OutVal.of).flatten (restsOf rows) t
  writeRowOuts ctx.op
    (present lse (rs.map fun r => [⟨dec32 r.lse, r.empty⟩]) ++ present m (rs.map fun r => [⟨dec32 r.m, r.empty⟩]) ++
      present sm (rs.map fun r => [OutVal.of r.s])) (rows.map RowIn.row) u

/-- Streams of a normalization row: the data at the element's index and the per-feature vectors at its position. -/
def normSrc (data feat : List InStream) (b i : Nat) : List (InStream × Nat) :=
  (data.map fun x => (x, b + i)) ++ feat.map fun x => (x, i)

def runNorm (ctx : OpCtx) (layer : Bool) (x gamma beta : InStream) (eps : U32) (lens : List Nat)
    (mask : Option Loc) (out : OutStream) (mu r : Option OutStream) (flags : Option Loc) (s : State) : State :=
  let feat := if layer then [gamma, beta] else [gamma]
  let (ds, t) := drawRows ctx (insDraws (x :: feat) + convDraws out.conv) (optDraws mu + optDraws r) lens s
  let rows := rowsIn t lens (normSrc [x] feat) ds
  let rs := rows.map fun w => normRow layer eps (rowArg t mask 0 w) (rowAll 1 w) (rowAll 2 w)
  let t := addTally ctx.op (rowsTally rows) t
  let u := writeElems ctx.op out (rs.map fun w => w.y.map OutVal.of).flatten (restsOf rows) t
  let v := writeRowOuts ctx.op
    (present mu (rs.map fun w => [OutVal.of w.mu]) ++ present r (rs.map fun w => [OutVal.of w.r]))
    (rows.map RowIn.row) u
  writeFlags flags (rs.map fun w => w.empty) v

/-- The backward rows of soft-maximum and of log-sum-exp (R188, R189). The input convert of the row-level stream dl takes the
row's slot, on the lane of its number, behind the row's elements (DESIGN CHOICE, assumption log 86). -/
def runSoftmaxBack (ctx : OpCtx) (lse : Bool) (x dy dl : InStream) (lens : List Nat) (mask : Option Loc)
    (out : OutStream) (s : State) : State :=
  let ins := if lse then [x] else [x, dy]
  let (ds, t) := drawRows ctx (insDraws ins + convDraws out.conv) (if lse then convDraws dl.conv else 0) lens s
  let rows := rowsIn t lens (sameIndex ins) ds
  let dls := ((upFrom 0 rows.length).zip rows).map fun (rho, w) => inputAt dl t rho w.row
  let vals := (rows.zip dls).map fun (w, d) => softBackRow lse (rowArg t mask 0 w) (rowAll 1 w) d.1
  let tl := if lse then Tally.sum (dls.map fun d => d.2.2) else Tally.zero
  writeElems ctx.op out (vals.flatten.map OutVal.of) (restsOf rows) (addTally ctx.op ((rowsTally rows).add tl) t)

/-- Write a per-feature sum (R191): feature j's slots are on lane j mod 64, after every other slot. -/
def writeFeatures (ctx : OpCtx) (outs : List (OutStream × List U32)) (s : State) : State :=
  let n := (outs.map fun o => o.2.length).foldl max 0
  let d := (outs.map fun o => convDraws o.1.conv).sum
  let (rs, t) := takeDraws ctx ((upFrom 0 n).map fun j => List.replicate d (j % 64)).flatten s
  writeRowOuts ctx.op (outs.map fun o => (o.1, o.2.map fun v => [OutVal.of v])) (splitElems d n rs).1 t

def maxLen (lens : List Nat) : Nat := lens.foldl max 0

def runNormBack (ctx : OpCtx) (layer : Bool) (x dy gamma : InStream) (eps : U32) (lens : List Nat)
    (mask : Option Loc) (dx dgamma : OutStream) (dbeta : Option OutStream) (s : State) : State :=
  let (ds, t) := drawRows ctx (insDraws [x, dy, gamma] + convDraws dx.conv) 0 lens s
  let rows := rowsIn t lens (normSrc [x, dy] [gamma]) ds
  let rs := rows.map fun w => normBackRow layer eps (rowArg t mask 0 w) (rowAll 1 w) (rowAll 2 w)
  let u := writeElems ctx.op dx ((rs.map fun w => w.1).flatten.map OutVal.of) (restsOf rows)
    (addTally ctx.op (rowsTally rows) t)
  let g := featureSums (maxLen lens) (rs.map fun w => w.2.1)
  let b := featureSums (maxLen lens) (rs.map fun w => w.2.2)
  let outs : List (OutStream × List U32) := (dgamma, g) :: (match dbeta with
    | some o => if layer then [(o, b)] else []
    | none => [])
  writeFeatures ctx outs u

def runFeatureSum (ctx : OpCtx) (x : InStream) (features : Nat) (mask : Option Loc) (out : OutStream) (s : State) :
    State :=
  let lens := List.replicate (x.t.n / features) features
  let (ds, t) := drawRows ctx (insDraws [x]) 0 lens s
  let rows := rowsIn t lens (sameIndex [x]) ds
  writeFeatures ctx [(out, featureSums features (rows.map (rowArg t mask 0)))] (addTally ctx.op (rowsTally rows) t)

/-! ## Random operations (R198, R199) -/

/-- The operation's own draws at the head of an element's remaining draws. -/
def ownDraw (e : ElemIn) (k : Nat) : U32 := nthD 0 e.rest k

def runDropout (ctx : OpCtx) (theta scale : U32) (x : InStream) (out : OutStream) (maskOut : Option Loc) (s : State) :
    State :=
  let (es, t) := elementRow ctx out.t.n 1 (convDraws out.conv) [x] s
  let keep (e : ElemIn) : Bool := decide (theta.toNat ≤ (ownDraw e 0).toNat)
  let u := writeElems ctx.op out (es.map fun e => OutVal.of (if keep e then mul32 (e.arg 0) scale else zero32))
    (es.map fun e => e.rest.drop 1) t
  match maskOut with
  | none => u
  | some l => writeMask l (es.map keep) u

def runUniformBits (ctx : OpCtx) (n : Nat) (out : Loc) (s : State) : State :=
  let (es, t) := elementRow ctx n 1 0 [] s
  writeU32s out (es.map fun e => ownDraw e 0) t

/-- u = (r >> 8) · 2^−24, exact. -/
def uniform32 (r : U32) : U32 := ofRat32 (((r.toNat >>> 8 : Nat) : Rat) * pow2 (-24))

def runUniform (ctx : OpCtx) (n : Nat) (out : OutStream) (s : State) : State :=
  let (es, t) := elementRow ctx n 1 (convDraws out.conv) [] s
  writeElems ctx.op out (es.map fun e => OutVal.of (uniform32 (ownDraw e 0))) (es.map fun e => e.rest.drop 1) t

def runNormal (ctx : OpCtx) (n : Nat) (out : OutStream) (s : State) : State :=
  let (es, t) := elementRow ctx n 2 (convDraws out.conv) [] s
  writeElems ctx.op out (es.map fun e => OutVal.of (normalDraw (ownDraw e 0) (ownDraw e 1)))
    (es.map fun e => e.rest.drop 2) t

def sigmaStream : Sigma → List InStream
  | .imm _ => []
  | .stream x => [x]

def runNormalFma (ctx : OpCtx) (sigma : Sigma) (x : InStream) (out : OutStream) (s : State) : State :=
  let (es, t) := elementRow ctx out.t.n 2 (convDraws out.conv) (sigmaStream sigma ++ [x]) s
  let val (e : ElemIn) : U32 :=
    let z := normalDraw (ownDraw e 0) (ownDraw e 1)
    match sigma with
    | .imm v => fma32 v z (e.arg 0)
    | .stream _ => fma32 (e.arg 0) z (e.arg 1)
  writeElems ctx.op out (es.map fun e => OutVal.of (val e)) (es.map fun e => e.rest.drop 2) t

/-! ## Gathers and scatters (R126) -/

/-- A tensor's element at a byte address of its space; an FP8 element keeps the tile exponent of its group. -/
def viewAt (t : Tensor) (a : Nat) : Tensor :=
  { t with loc := ⟨t.loc.space, a⟩, n := 1, rowLen := 32, exps := ⟨t.exps.space, t.exps.addr + (a - t.loc.addr) / 32⟩ }

/-- The addresses of the operation's elements. -/
def addrsOf (s : State) (ctx : OpCtx) (a : AddrStream) : List Nat := (streamAddrs s ctx.core a).map Int.toNat

/-- Elements whose places a function of their number gives. -/
def placedRow (ctx : OpCtx) (dOut n : Nat) (x : InStream) (src : Nat → InStream × Nat) (s : State) :
    List ElemIn × State :=
  let (ds, t) := drawRows ctx (insDraws [x] + dOut) 0 [n] s
  let es := (ds.map fun d => rowIn t (fun i => [src i]) d.elems).flatten
  (es, addTally ctx.op (Tally.sum (es.map ElemIn.tally)) t)

def runGather (ctx : OpCtx) (addrs : AddrStream) (x : InStream) (out : OutStream) (s : State) : State :=
  let as := addrsOf s ctx addrs
  let (es, t) := placedRow ctx (convDraws out.conv) as.length x
    (fun i => ({ x with t := viewAt x.t (nthD 0 as i) }, 0)) s
  writeElems ctx.op out (es.map fun e => outVal (isIntStream x) (e.arg 0)) (es.map ElemIn.rest) t

/-- Place converted elements at their addresses, in element order. An FP8 element takes its group's exponent with it
(DESIGN CHOICE, assumption log 19). -/
def placeElems (t : Tensor) : List Nat → List (List Byte) → List (Option Byte) → State → State
  | a :: as, b :: bs, e :: es, s =>
    let v := viewAt t a
    let u := locWrite v.loc 0 b s
    placeElems t as bs es (match e with
      | none => u
      | some x => locWrite v.exps 0 [x] u)
  | _, _, _, s => s

def runScatter (ctx : OpCtx) (addrs : AddrStream) (x : InStream) (out : OutStream) (s : State) : State :=
  let as := addrsOf s ctx addrs
  let (es, t) := placedRow ctx (convDraws out.conv) as.length x (fun i => (x, i)) s
  let vals := es.map fun e => outVal (isIntStream x) (e.arg 0)
  let rs := es.map fun e => (popDraw out.conv e.rest).1
  let flat : Tensor := { out.t with rowLen := max 1 as.length }
  let (bs, ex, tl) := outBytes flat out.conv vals rs
  let n := fmtBytes out.t.fmt
  let exps := (upFrom 0 as.length).map fun i => if isFp8 out.t.fmt then ex[i / 32]? else none
  addTally ctx.op tl (placeElems out.t as (chunks n bs) exps t)

/-- Add one element at an address: round_ne for FP32, exactly for INT32. -/
def addElem (t : Tensor) (a : Nat) (x : U32) (s : State) : State :=
  let v := viewAt t a
  let old := BitVec.ofNat 32 (tensorCode s v 0)
  locWrite v.loc 0 (leBytes 4 (if t.fmt = .int32 then old + x else add32 old x).toNat) s

def runScatterAdd (ctx : OpCtx) (addrs : AddrStream) (x : InStream) (out : Tensor) (s : State) : State :=
  let as := addrsOf s ctx addrs
  let (es, t) := placedRow ctx 0 as.length x (fun i => (x, i)) s
  (as.zip es).foldl (fun u (a, e) => addElem out a (e.arg 0) u) t

/-! ## Pooling (R164, R165) -/

/-- The feature map of a pool as one run of stored elements (R151). -/
def flatMap (x : InStream) (channels : Nat) : InStream :=
  { x with t := { x.t with rowLen := padChannels x.t.fmt channels } }

/-- The windows of a pool: for each output position and, within it, each channel, the elements of its taps in tap order; none
for a zero position. Outputs follow one another in that order (DESIGN CHOICE, assumption log 80). -/
def poolWindows (dims : List WindowDim) (f : Fmt) (channels firstOut outs : Nat) : List (List (Option Nat)) :=
  ((upFrom firstOut outs).map fun o => (upFrom 0 channels).map fun ch =>
    (upFrom 0 (tapCount dims)).map fun j =>
      (tapPosition dims o j).map fun p => p * padChannels f channels + ch).flatten

def runPool (ctx : OpCtx) (mx inclusive : Bool) (x : InStream) (window : List (List (Option Nat)))
    (out : OutStream) (flags : Option Loc) (s : State) : State :=
  let lens := window.map List.length
  let (ds, t) := drawRows ctx (insDraws [x]) (convDraws out.conv) lens s
  let ins := (window.zip ds).map fun (w, d) =>
    (w.zip d.elems).map fun (p, rs) =>
      match p with
      | none => (none, Tally.zero)
      | some i =>
        let (v, _, tl) := inputAt x t i rs
        (some v, tl)
  let xs := ins.map fun w => w.map fun e => e.1
  let tl := Tally.sum (ins.map fun w => Tally.sum (w.map fun e => e.2))
  let res := xs.map fun w =>
    if mx then reduceResult .max w
    else if inclusive then (OutVal.of (divNat32 (sumRow w) w.length), false)
    else reduceResult .mean w
  let u := writeRowOuts ctx.op [(out, res.map fun r => [r.1])] (ds.map RowDraws.row) (addTally ctx.op tl t)
  writeFlags flags (res.map fun r => r.2) u

/-! ## Row lengths (R118) -/

/-- Lengths, each held to what the stream has left. -/
def clipLens : Nat → List Nat → List Nat
  | _, [] => []
  | n, k :: ks => min n k :: clipLens (n - k) ks

/-- The lengths of the rows of a stream of `n` elements. Lengths that a length stream gives beyond the stream's end are cut
there (DESIGN CHOICE, assumption log 81). -/
def rowLengths (s : State) (n : Nat) : RowLens → List Nat
  | .each k => List.replicate (n / max 1 k) k
  | .stream l rows => clipLens n ((upFrom 0 rows).map fun i => locNat s l (4 * i) 4)

/-! ## The command -/

/-- The meaning of a stream operation whose operands are in order. -/
def runStream (ctx : OpCtx) (o : StreamOp) (s : State) : State :=
  match o with
  | .ew f ins out => runEw ctx f ins out s
  | .maskLogic f n a b out => runMaskLogic f n a b out s
  | .select mask a b out => runSelect ctx mask a b out s
  | .func f d x out => runFunc ctx f d x out s
  | .reduce f x lens mask out flags => runReduce ctx f x (rowLengths s x.t.n lens) mask out flags s
  | .topk k x lens mask vals pos => runTopk ctx k x (rowLengths s x.t.n lens) mask vals pos s
  | .scan f incl x lens mask out => runScan ctx f incl x (rowLengths s x.t.n lens) mask out s
  | .softmax x lens mask out lse m sm => runSoftmax ctx x (rowLengths s x.t.n lens) mask out lse m sm s
  | .norm layer x g b eps lens mask out mu r flags =>
    runNorm ctx layer x g b eps (rowLengths s x.t.n lens) mask out mu r flags s
  | .softmaxBack lse x dy dl lens mask out => runSoftmaxBack ctx lse x dy dl (rowLengths s x.t.n lens) mask out s
  | .normBack layer x dy g eps lens mask dx dg db =>
    runNormBack ctx layer x dy g eps (rowLengths s x.t.n lens) mask dx dg db s
  | .featureSum x n mask out => runFeatureSum ctx x n mask out s
  | .dropout theta sc x out mask => runDropout ctx theta sc x out mask s
  | .uniformBits n out => runUniformBits ctx n out s
  | .uniform n out => runUniform ctx n out s
  | .normal n out => runNormal ctx n out s
  | .normalFma sigma x out => runNormalFma ctx sigma x out s
  | .gather addrs x out => runGather ctx addrs x out s
  | .scatter addrs x out => runScatter ctx addrs x out s
  | .scatterAdd addrs x out => runScatterAdd ctx addrs x out s
  | .pool mx incl x dims channels first outs out flags =>
    runPool ctx mx incl (flatMap x channels) (poolWindows dims x.t.fmt channels first outs) out flags s

/-! ## What refuses an operation when the program is built -/

/-- A packed mask of `n` bits in the core's own stores. -/
def maskFault (s : State) (core : Core) (l : Option Loc) (n : Nat) : Option Nat :=
  match l with
  | none => none
  | some l => ownSpan s core l (ceilDiv n 8)

def optOutFault (s : State) (core : Core) (o : Option OutStream) (n : Nat) : Option Nat :=
  match o with
  | none => none
  | some o => firstFault [outStreamFault s core false o, unless' 118 (o.t.n == n)]

/-- Per-feature vectors are FP32 or BF16 without a conversion (R125). -/
def featFault (s : State) (core : Core) (x : InStream) : Option Nat :=
  firstFault [tensorFault s core x.t,
    unless' 125 (x.conv.isSome || decide (x.t.fmt = .fp32) || decide (x.t.fmt = .bf16))]

/-- Rows over an input stream: rows of one length make up the stream, and a length stream lies in the core's stores. -/
def rowsFault (s : State) (core : Core) (x : InStream) (lens : RowLens) (mask : Option Loc) : Option Nat :=
  firstFault [inStreamFault s core false x, maskFault s core mask x.t.n,
    match lens with
    | .each k => unless' 118 (decide (0 < k) && x.t.n % k == 0)
    | .stream l rows => spanWhere (storePlace core) s l (4 * rows)]

/-- The place of an address stream's elements: the core's scratchpad, or a declared region of its drain file, as the stream
says; and the stream is of one of the forms of R137. -/
def addrFault (core : Core) (a : AddrStream) (t : Tensor) : Option Nat :=
  firstFault [unless' 137 (addrFormOk a.form), unless' 126 (match a.space with
    | .scratch => inScratch core t.loc
    | .region _ => t.loc.space == .drain core
    | _ => false), unless' 127 (!isFp8 t.fmt || ownPlace core t.exps)]

/-- A store to an address stream is not aimed at the token area (R132). -/
def storeFault (s : State) (ctx : OpCtx) (a : AddrStream) (t : Tensor) : Option Nat :=
  unless' 132 (a.space != .scratch || (match s.job with
    | some j => (addrsOf s ctx a).all fun p =>
        !hitsArea j.image.tokenAreas 0x8000 ctx.core.val p (fmtBytes t.fmt)
    | none => true))

/-- The rule of the manual that refuses an ill-formed stream operation when the program is built, if any. -/
def streamFault (s : State) (ctx : OpCtx) (o : StreamOp) : Option Nat :=
  let core := ctx.core
  let inF := inStreamFault s core
  let outF := outStreamFault s core
  match o with
  | .ew f ins out =>
    let int := isIntOp f || (decide (f = .copy) && ins.any isIntStream)
    firstFault ([unless' 115 (ins.length == ewArity f)] ++
      (ins.map fun x => firstFault [
        if f = .copy ∧ out.conv.isSome then tensorFault s core x.t else inF int x, unless' 114 (x.t.n == out.t.n)]) ++
      [if isCompare f then ownSpan s core out.t.loc (ceilDiv out.t.n 8) else outF int out])
  | .maskLogic _ n a b out =>
    firstFault [maskFault s core (some a) n, maskFault s core (some b) n, maskFault s core (some out) n]
  | .select mask a b out =>
    let int := isIntStream a
    firstFault [maskFault s core (some mask) out.t.n, inF int a, inF int b, outF int out,
      unless' 114 (a.t.n == out.t.n && b.t.n == out.t.n)]
  | .func _ _ x out => firstFault [inF false x, outF false out, unless' 114 (x.t.n == out.t.n)]
  | .reduce f x lens mask out flags =>
    let n := (rowLengths s x.t.n lens).length
    firstFault [rowsFault s core x lens mask, unless' 118 (out.t.n == n),
      if f = .argmax then ownSpan s core out.t.loc (4 * n) else outF false out, maskFault s core flags (8 * n)]
  | .topk k x lens mask vals pos =>
    let n := (rowLengths s x.t.n lens).length
    firstFault [unless' 121 (decide (1 ≤ k) && decide (k ≤ 8)), rowsFault s core x lens mask, outF false vals,
      unless' 118 (vals.t.n == k * n), ownSpan s core pos (4 * k * n)]
  | .scan _ _ x lens mask out =>
    firstFault [rowsFault s core x lens mask, outF false out, unless' 114 (x.t.n == out.t.n)]
  | .softmax x lens mask out lse m sm =>
    let n := (rowLengths s x.t.n lens).length
    firstFault [rowsFault s core x lens mask, optOutFault s core out x.t.n, optOutFault s core lse n,
      optOutFault s core m n, optOutFault s core sm n]
  | .norm layer x g b _ lens mask out mu r flags =>
    let ls := rowLengths s x.t.n lens
    firstFault [rowsFault s core x lens mask, outF false out, unless' 114 (x.t.n == out.t.n), featFault s core g,
      unless' 125 (decide (maxLen ls ≤ g.t.n)),
      if layer then firstFault [featFault s core b, unless' 125 (decide (maxLen ls ≤ b.t.n))] else none,
      unless' 125 (layer || mu.isNone), optOutFault s core mu ls.length, optOutFault s core r ls.length,
      maskFault s core flags (8 * ls.length)]
  | .softmaxBack lse x dy dl lens mask out =>
    firstFault [rowsFault s core x lens mask, outF false out, unless' 114 (x.t.n == out.t.n),
      if lse then firstFault [inF false dl, unless' 118 (dl.t.n == (rowLengths s x.t.n lens).length)]
      else firstFault [inF false dy, unless' 114 (dy.t.n == x.t.n)]]
  | .normBack layer x dy g _ lens mask dx dg db =>
    let m := maxLen (rowLengths s x.t.n lens)
    firstFault [rowsFault s core x lens mask, inF false dy, unless' 114 (dy.t.n == x.t.n), featFault s core g,
      unless' 125 (decide (m ≤ g.t.n)), outF false dx, unless' 114 (dx.t.n == x.t.n),
      outF false dg, unless' 191 (dg.t.n == m), unless' 190 (layer || db.isNone), optOutFault s core db m]
  | .featureSum x n mask out =>
    firstFault [inF false x, unless' 191 (decide (0 < n) && x.t.n % n == 0), maskFault s core mask x.t.n,
      outF false out, unless' 191 (out.t.n == n)]
  | .dropout _ _ x out mask =>
    firstFault [inF false x, outF false out, unless' 114 (x.t.n == out.t.n), maskFault s core mask x.t.n]
  | .uniformBits n out => ownSpan s core out (4 * n)
  | .uniform n out => firstFault [outF false out, unless' 114 (out.t.n == n)]
  | .normal n out => firstFault [outF false out, unless' 114 (out.t.n == n)]
  | .normalFma sigma x out =>
    firstFault ([inF false x, outF false out, unless' 114 (x.t.n == out.t.n)] ++
      (sigmaStream sigma).map fun y => firstFault [inF false y, unless' 114 (y.t.n == out.t.n)])
  | .gather addrs x out =>
    let int := isIntStream x
    firstFault [addrFault core addrs x.t, inF int { x with t := { x.t with n := 0 } }, outF int out,
      unless' 114 (out.t.n == (streamAddrs s core addrs).length)]
  | .scatter addrs x out =>
    let int := isIntStream x
    firstFault [addrFault core addrs out.t, storeFault s ctx addrs out.t, inF int x,
      outF int { out with t := { out.t with n := 0 } }, unless' 114 (x.t.n == (streamAddrs s core addrs).length)]
  | .scatterAdd addrs x out =>
    firstFault [addrFault core addrs out, storeFault s ctx addrs out, inF (out.fmt == .int32) x,
      unless' 126 (decide (out.fmt = .fp32) || decide (out.fmt = .int32)),
      unless' 114 (x.t.n == (streamAddrs s core addrs).length)]
  | .pool _ _ x dims channels first outs out flags =>
    firstFault [dimsFault false dims, unless' 164 (dims.all fun d => d.u == 1),
      unless' 164 (decide (1 ≤ channels) && decide (first + outs ≤ outCount dims)),
      unless' 164 (x.t.n == inCount dims * padChannels x.t.fmt channels), inF false (flatMap x channels), outF false out,
      unless' 164 (out.t.n == outs * channels), maskFault s core flags (8 * out.t.n)]

/-! ## What an operation reads and writes -/

/-- The address stream of an operation with the tensor whose elements its addresses name. -/
def streamTarget : StreamOp → Option (AddrStream × Tensor)
  | .gather addrs x _ => some (addrs, x.t)
  | .scatter addrs _ out => some (addrs, out.t)
  | .scatterAdd addrs _ out => some (addrs, out)
  | _ => none

/-- The input streams that are read from their first element to their last. -/
def streamIns : StreamOp → List InStream
  | .ew _ ins _ => ins
  | .maskLogic _ _ _ _ _ => []
  | .select _ a b _ => [a, b]
  | .func _ _ x _ => [x]
  | .reduce _ x _ _ _ _ => [x]
  | .topk _ x _ _ _ _ => [x]
  | .scan _ _ x _ _ _ => [x]
  | .softmax x _ _ _ _ _ _ => [x]
  | .norm layer x g b _ _ _ _ _ _ _ => if layer then [x, g, b] else [x, g]
  | .softmaxBack lse x dy dl _ _ _ => if lse then [x, dl] else [x, dy]
  | .normBack _ x dy g _ _ _ _ _ _ => [x, dy, g]
  | .featureSum x _ _ _ => [x]
  | .dropout _ _ x _ _ => [x]
  | .uniformBits _ _ => []
  | .uniform _ _ => []
  | .normal _ _ => []
  | .normalFma sigma x _ => sigmaStream sigma ++ [x]
  | .gather _ _ _ => []
  | .scatter _ x _ => [x]
  | .scatterAdd _ x _ => [x]
  | .pool _ _ x _ _ _ _ _ _ => [x]

def optOuts : Option OutStream → List OutStream
  | none => []
  | some o => [o]

/-- The output streams that are written from their first element to their last. -/
def streamOuts : StreamOp → List OutStream
  | .ew f _ out => if isCompare f then [] else [out]
  | .maskLogic _ _ _ _ _ => []
  | .select _ _ _ out => [out]
  | .func _ _ _ out => [out]
  | .reduce f _ _ _ out _ => if f = .argmax then [] else [out]
  | .topk _ _ _ _ vals _ => [vals]
  | .scan _ _ _ _ _ out => [out]
  | .softmax _ _ _ out lse m sm => optOuts out ++ optOuts lse ++ optOuts m ++ optOuts sm
  | .norm _ _ _ _ _ _ _ out mu r _ => out :: optOuts mu ++ optOuts r
  | .softmaxBack _ _ _ _ _ _ out => [out]
  | .normBack _ _ _ _ _ _ _ dx dg db => dx :: dg :: optOuts db
  | .featureSum _ _ _ out => [out]
  | .dropout _ _ _ out _ => [out]
  | .uniformBits _ _ => []
  | .uniform _ out => [out]
  | .normal _ out => [out]
  | .normalFma _ _ out => [out]
  | .gather _ _ out => [out]
  | .scatter _ _ _ => []
  | .scatterAdd _ _ _ => []
  | .pool _ _ _ _ _ _ _ out _ => [out]

/-- Bytes of a packed mask that an operation may have. -/
def maskSpan (l : Option Loc) (n : Nat) : List (Loc × Nat) := l.toList.map fun l => (l, ceilDiv n 8)

/-- The masks that an operation reads (R117, R118). -/
def streamMasks : StreamOp → List (Loc × Nat)
  | .ew _ _ _ => []
  | .maskLogic f n a b _ => maskSpan (some a) n ++ (if f = .not then [] else maskSpan (some b) n)
  | .select mask _ _ out => maskSpan (some mask) out.t.n
  | .func _ _ _ _ => []
  | .reduce _ x _ mask _ _ => maskSpan mask x.t.n
  | .topk _ x _ mask _ _ => maskSpan mask x.t.n
  | .scan _ _ x _ mask _ => maskSpan mask x.t.n
  | .softmax x _ mask _ _ _ _ => maskSpan mask x.t.n
  | .norm _ x _ _ _ _ mask _ _ _ _ => maskSpan mask x.t.n
  | .softmaxBack _ x _ _ _ mask _ => maskSpan mask x.t.n
  | .normBack _ x _ _ _ _ mask _ _ _ => maskSpan mask x.t.n
  | .featureSum x _ mask _ => maskSpan mask x.t.n
  | .dropout _ _ _ _ _ => []
  | .uniformBits _ _ => []
  | .uniform _ _ => []
  | .normal _ _ => []
  | .normalFma _ _ _ => []
  | .gather _ _ _ => []
  | .scatter _ _ _ => []
  | .scatterAdd _ _ _ => []
  | .pool _ _ _ _ _ _ _ _ _ => []

/-- The masks, flag streams, positions and random words that an operation writes (R117, R118, R121, R185). -/
def streamMarks (s : State) : StreamOp → List (Loc × Nat)
  | .ew f _ out => if isCompare f then maskSpan (some out.t.loc) out.t.n else []
  | .maskLogic _ n _ _ out => maskSpan (some out) n
  | .select _ _ _ _ => []
  | .func _ _ _ _ => []
  | .reduce f _ _ _ out flags =>
    (if f = .argmax then [(out.t.loc, 4 * out.t.n)] else []) ++ maskSpan flags (8 * out.t.n)
  | .topk _ _ _ _ vals pos => [(pos, 4 * vals.t.n)]
  | .scan _ _ _ _ _ _ => []
  | .softmax _ _ _ _ _ _ _ => []
  | .norm _ x _ _ _ lens _ _ _ _ flags => maskSpan flags (8 * (rowLengths s x.t.n lens).length)
  | .softmaxBack _ _ _ _ _ _ _ => []
  | .normBack _ _ _ _ _ _ _ _ _ _ => []
  | .featureSum _ _ _ _ => []
  | .dropout _ _ x _ mask => maskSpan mask x.t.n
  | .uniformBits n out => [(out, 4 * n)]
  | .uniform _ _ => []
  | .normal _ _ => []
  | .normalFma _ _ _ => []
  | .gather _ _ _ => []
  | .scatter _ _ _ => []
  | .scatterAdd _ _ _ => []
  | .pool _ _ _ _ _ _ _ out flags => maskSpan flags (8 * out.t.n)

/-- The region that an address stream names, as a span of the drain file. -/
def targetSpan (s : State) (core : Core) (o : StreamOp) : Option (Loc × Nat) :=
  match streamTarget o with
  | some (⟨.region k, _⟩, _) =>
    let r := spaceRange s core (.region k)
    some (⟨.drain core, r.base⟩, r.len)
  | _ => none

def isGather : StreamOp → Bool
  | .gather _ _ _ => true
  | _ => false

def streamReads (s : State) (core : Core) (o : StreamOp) : List SpanUse :=
  ((streamIns o).map fun x => tensorUses x.t true).flatten ++ (streamMasks o).map (fun e => useAll e.1 e.2) ++
    (if isGather o then ((targetSpan s core o).map fun e => ⟨e.1, e.2, 0⟩).toList else [])

def streamWrites (s : State) (core : Core) (o : StreamOp) : List (Loc × Nat) :=
  ((streamOuts o).map fun x => tensorSpans x.t).flatten ++ streamMarks s o ++
    (if isGather o then [] else (targetSpan s core o).toList)

/-- An address of the operation's address stream lies outside its space, or outside the tile exponents that go with the
named elements. None of the operation's elements takes effect then (DESIGN CHOICE, assumption log 82). -/
def addressStop (s : State) (core : Core) (o : StreamOp) : Option (U16 × U64) :=
  match streamTarget o with
  | none => none
  | some (a, t) =>
    if (streamAddrs s core a).any fun p => addrOutside s core a.space (fmtBytes t.fmt) p ||
        (isFp8 t.fmt && (decide (p < t.loc.addr) ||
          decide (spaceSize t.exps.space ≤ t.exps.addr + (p - t.loc.addr).toNat / 32)))
    then some (Code.seAddrRange, coreWhere s core.val) else none

/-- STREAM_OPERATION. -/
def streamRun (c : StreamCmd) : EngineRun where
  engine := .stream
  ctx := c.ctx
  fault s := streamFault s c.ctx c.op
  reads s := streamReads s c.ctx.core c.op
  writes s := streamWrites s c.ctx.core c.op
  ready _ := true
  stop s := addressStop s c.ctx.core c.op
  effect s := runStream c.ctx c.op s

def execStreamOperation (c : StreamCmd) (s : State) : Host.Outcome State Fault Refusal :=
  runEngine (.streamOperation c) (streamRun c) s

end Sys2Proof.Machine
end

