-- ==== Sys2Proof/Machine/Dispatch.lean ====
section
/-! DEFINITION. One arm for each command: a direct call of its meaning. -/

namespace Sys2Proof.Machine

def exec (i : Instr) (s : State) : Host.Outcome State Fault Refusal :=
  match i with
  | .mgtRegisterWrite off wide val => Sys2Proof.Machine.execMgtRegisterWrite off wide val s
  | .mgtRingJobCtrlWrite part val producer => Sys2Proof.Machine.execMgtRingJobCtrlWrite part val producer s
  | .mgtIntStatusClear mask => Sys2Proof.Machine.execMgtIntStatusClear mask s
  | .mgtIntEnableWrite val => Sys2Proof.Machine.execMgtIntEnableWrite val s
  | .flashProgram cut => Sys2Proof.Machine.execFlashProgram cut s
  | .attest => Sys2Proof.Machine.execAttest s
  | .healthSweep f => Sys2Proof.Machine.execHealthSweep f s
  | .siteAmend => Sys2Proof.Machine.execSiteAmend s
  | .jobAbort => Sys2Proof.Machine.execJobAbort s
  | .bankLoad partBytes => Sys2Proof.Machine.execBankLoad partBytes s
  | .lifecycle cut => Sys2Proof.Machine.execLifecycle cut s
  | .identityBarrierRelease b => Sys2Proof.Machine.execIdentityBarrierRelease b s
  | .identityBarrierTimeout => Sys2Proof.Machine.execIdentityBarrierTimeout s
  | .sbIdent => Sys2Proof.Machine.execSbIdent s
  | .sbState => Sys2Proof.Machine.execSbState s
  | .sbTemp => Sys2Proof.Machine.execSbTemp s
  | .sbStackTemp => Sys2Proof.Machine.execSbStackTemp s
  | .sbPower => Sys2Proof.Machine.execSbPower s
  | .sbVolt => Sys2Proof.Machine.execSbVolt s
  | .sbCause => Sys2Proof.Machine.execSbCause s
  | .sbResetWarm => Sys2Proof.Machine.execSbResetWarm s
  | .sbResetRink => Sys2Proof.Machine.execSbResetRink s
  | .sbWriteRejected cmd val pecOk => Sys2Proof.Machine.execSbWriteRejected cmd val pecOk s
  | .jobRingProducerUpdate producer => Sys2Proof.Machine.execJobRingProducerUpdate producer s
  | .jobFetch f => Sys2Proof.Machine.execJobFetch f s
  | .jobStartBarrier others => Sys2Proof.Machine.execJobStartBarrier others s
  | .sampleRingProducerUpdate ch producer => Sys2Proof.Machine.execSampleRingProducerUpdate ch producer s
  | .manifestHostCountUpdate count entries => Sys2Proof.Machine.execManifestHostCountUpdate count entries s
  | .admissionHeaderUpdate table hostCount readyOff => Sys2Proof.Machine.execAdmissionHeaderUpdate table hostCount readyOff s
  | .cxlMemWrite addr data => Sys2Proof.Machine.execCxlMemWrite addr data s
  | .cxlMemRead addr len => Sys2Proof.Machine.execCxlMemRead addr len s
  | .cxlLinkTrained cxl width rate => Sys2Proof.Machine.execCxlLinkTrained cxl width rate s
  | .statusRecordTelemetry t => Sys2Proof.Machine.execStatusRecordTelemetry t s
  | .telemetryRefresh junction stack powerW volt10mV => Sys2Proof.Machine.execTelemetryRefresh junction stack powerW volt10mV s
  | .powerGood => Sys2Proof.Machine.execPowerGood s
  | .powerOnReset => Sys2Proof.Machine.execPowerOnReset s
  | .inputLockout => Sys2Proof.Machine.execInputLockout s
  | .inputOvervoltageStop => Sys2Proof.Machine.execInputOvervoltageStop s
  | .inputOutOfRange volt10mV => Sys2Proof.Machine.execInputOutOfRange volt10mV s
  | .overcurrent => Sys2Proof.Machine.execOvercurrent s
  | .perstAssert => Sys2Proof.Machine.execPerstAssert s
  | .perstRelease => Sys2Proof.Machine.execPerstRelease s
  | .warmReset => Sys2Proof.Machine.execWarmReset s
  | .rinkResetFlood => Sys2Proof.Machine.execRinkResetFlood s
  | .stepAbortUnanswered => Sys2Proof.Machine.execStepAbortUnanswered s
  | .jobResumeAfterRinkReset => Sys2Proof.Machine.execJobResumeAfterRinkReset s
  | .referenceClockLoss => Sys2Proof.Machine.execReferenceClockLoss s
  | .thermalTrip => Sys2Proof.Machine.execThermalTrip s
  | .thermalTripCooled => Sys2Proof.Machine.execThermalTripCooled s
  | .bootRom => Sys2Proof.Machine.execBootRom s
  | .flashSelect => Sys2Proof.Machine.execFlashSelect s
  | .railsUp => Sys2Proof.Machine.execRailsUp s
  | .bootSelfTest failed => Sys2Proof.Machine.execBootSelfTest failed s
  | .hbmInit failedRows badLanes => Sys2Proof.Machine.execHbmInit failedRows badLanes s
  | .runtimeLoad => Sys2Proof.Machine.execRuntimeLoad s
  | .rinkFormation f => Sys2Proof.Machine.execRinkFormation f s
  | .rinkFormationRetry cause f => Sys2Proof.Machine.execRinkFormationRetry cause f s
  | .pageSettle tandemStamps restored => Sys2Proof.Machine.execPageSettle tandemStamps restored s
  | .capRuleEval avgW below1ms over76 => Sys2Proof.Machine.execCapRuleEval avgW below1ms over76 s
  | .waveWithholdPeriod => Sys2Proof.Machine.execWaveWithholdPeriod s
  | .paceDomainEval d shareBp => Sys2Proof.Machine.execPaceDomainEval d shareBp s
  | .thermalCeilingEval junction stackTemps => Sys2Proof.Machine.execThermalCeilingEval junction stackTemps s
  | .domainVoltageStep d => Sys2Proof.Machine.execDomainVoltageStep d s
  | .regulatorCheck errors => Sys2Proof.Machine.execRegulatorCheck errors s
  | .tempSensorCheck errors => Sys2Proof.Machine.execTempSensorCheck errors s
  | .inputMonitorCheck first second => Sys2Proof.Machine.execInputMonitorCheck first second s
  | .laserMonitorCheck low => Sys2Proof.Machine.execLaserMonitorCheck low s
  | .hbmRefresh stack bank temp => Sys2Proof.Machine.execHbmRefresh stack bank temp s
  | .hbmScrub stack word e => Sys2Proof.Machine.execHbmScrub stack word e s
  | .timebaseUnsync offsetNs heldUs => Sys2Proof.Machine.execTimebaseUnsync offsetNs heldUs s
  | .timeRootTakeover lost before => Sys2Proof.Machine.execTimeRootTakeover lost before s
  | .timeRead ctx dest => Sys2Proof.Machine.execTimeRead ctx dest s
  | .portFrameReceive port words => Sys2Proof.Machine.execPortFrameReceive port words s
  | .nack port fseq => Sys2Proof.Machine.execNack port fseq s
  | .credit port grants => Sys2Proof.Machine.execCredit port grants s
  | .packetInject cls dest body => Sys2Proof.Machine.execPacketInject cls dest body s
  | .packetForward port p => Sys2Proof.Machine.execPacketForward port p s
  | .packetDeliver port p => Sys2Proof.Machine.execPacketDeliver port p s
  | .beat port => Sys2Proof.Machine.execBeat port s
  | .beatReceive port sample lane => Sys2Proof.Machine.execBeatReceive port sample lane s
  | .portDownTimeout port uncommitted => Sys2Proof.Machine.execPortDownTimeout port uncommitted s
  | .downNotice link => Sys2Proof.Machine.execDownNotice link s
  | .swapCondition port lane cause => Sys2Proof.Machine.execSwapCondition port lane cause s
  | .swap port fibre lane kind => Sys2Proof.Machine.execSwap port fibre lane kind s
  | .swapSwitch port sw => Sys2Proof.Machine.execSwapSwitch port sw s
  | .portBringup port r => Sys2Proof.Machine.execPortBringup port r s
  | .bringupPhaseTimeout port phase => Sys2Proof.Machine.execBringupPhaseTimeout port phase s
  | .ident port x => Sys2Proof.Machine.execIdent port x s
  | .calibration port fibre place => Sys2Proof.Machine.execCalibration port fibre place s
  | .allGather g => Sys2Proof.Machine.execAllGather g s
  | .reduceScatter r => Sys2Proof.Machine.execReduceScatter r s
  | .allReduce r sums => Sys2Proof.Machine.execAllReduce r sums s
  | .broadcast op root addr len bytes => Sys2Proof.Machine.execBroadcast op root addr len bytes s
  | .barrier op => Sys2Proof.Machine.execBarrier op s
  | .barrierRelease op machine release => Sys2Proof.Machine.execBarrierRelease op machine release s
  | .consistentSnapshot => Sys2Proof.Machine.execConsistentSnapshot s
  | .replicaReduction op buffer => Sys2Proof.Machine.execReplicaReduction op buffer s
  | .cutoffDeadline => Sys2Proof.Machine.execCutoffDeadline s
  | .vote rink others => Sys2Proof.Machine.execVote rink others s
  | .rinkVoteReceive voter rink one => Sys2Proof.Machine.execRinkVoteReceive voter rink one s
  | .leaveNotice rink => Sys2Proof.Machine.execLeaveNotice rink s
  | .rejoinRequest rink named => Sys2Proof.Machine.execRejoinRequest rink named s
  | .rejoinStateTransfer step pages => Sys2Proof.Machine.execRejoinStateTransfer step pages s
  | .replicaCheckRecord records majority => Sys2Proof.Machine.execReplicaCheckRecord records majority s
  | .stopNotice code => Sys2Proof.Machine.execStopNotice code s
  | .moduleLost lost => Sys2Proof.Machine.execModuleLost lost s
  | .pause lost => Sys2Proof.Machine.execPause lost s
  | .recoveryWaitExpiry => Sys2Proof.Machine.execRecoveryWaitExpiry s
  | .adoptionJoin a => Sys2Proof.Machine.execAdoptionJoin a s
  | .tandemRestore role => Sys2Proof.Machine.execTandemRestore role s
  | .marshalBeat index => Sys2Proof.Machine.execMarshalBeat index s
  | .marshalPromotion silenceUs => Sys2Proof.Machine.execMarshalPromotion silenceUs s
  | .controllerBTakeover silenceUs => Sys2Proof.Machine.execControllerBTakeover silenceUs s
  | .segmentArrive d seg => Sys2Proof.Machine.execSegmentArrive d seg s
  | .closeArrive d source c => Sys2Proof.Machine.execCloseArrive d source c s
  | .updateOperation u => Sys2Proof.Machine.execUpdateOperation u s
  | .openedSignal op unit => Sys2Proof.Machine.execOpenedSignal op unit s
  | .pageDoneSignal op page unit => Sys2Proof.Machine.execPageDoneSignal op page unit s
  | .tandemRefresh => Sys2Proof.Machine.execTandemRefresh s
  | .tandemPageReceive step p cut => Sys2Proof.Machine.execTandemPageReceive step p cut s
  | .tandemPageAck a => Sys2Proof.Machine.execTandemPageAck a s
  | .hbmReadReturn addr op e squashed reserve tandem => Sys2Proof.Machine.execHbmReadReturn addr op e squashed reserve tandem s
  | .stepStart => Sys2Proof.Machine.execStepStart s
  | .commitBarrier waitBp => Sys2Proof.Machine.execCommitBarrier waitBp s
  | .stepReplay => Sys2Proof.Machine.execStepReplay s
  | .cutPointReached => Sys2Proof.Machine.execCutPointReached s
  | .cutDump upTo => Sys2Proof.Machine.execCutDump upTo s
  | .parkedCoreTestDone core pass => Sys2Proof.Machine.execParkedCoreTestDone core pass s
  | .engineCommandIssue c => Sys2Proof.Machine.execEngineCommandIssue c s
  | .trellisWave c => Sys2Proof.Machine.execTrellisWave c s
  | .tileLoad c => Sys2Proof.Machine.execTileLoad c s
  | .tileSwap ctx => Sys2Proof.Machine.execTileSwap ctx s
  | .drainResult c => Sys2Proof.Machine.execDrainResult c s
  | .streamOperation c => Sys2Proof.Machine.execStreamOperation c s
  | .windowGather c => Sys2Proof.Machine.execWindowGather c s
  | .lodgeOperation c => Sys2Proof.Machine.execLodgeOperation c s
  | .groomedStore c => Sys2Proof.Machine.execGroomedStore c s
  | .groomedLoad c => Sys2Proof.Machine.execGroomedLoad c s
  | .haloSend op h use src => Sys2Proof.Machine.execHaloSend op h use src s
  | .haloReady op h use => Sys2Proof.Machine.execHaloReady op h use s
  | .haloAck op h use => Sys2Proof.Machine.execHaloAck op h use s
  | .branchMispredict core branch => Sys2Proof.Machine.execBranchMispredict core branch s
  | .speculativeLoadRetire core load => Sys2Proof.Machine.execSpeculativeLoadRetire core load s
  | .hbmResponseDropped core slot tag => Sys2Proof.Machine.execHbmResponseDropped core slot tag s
  | .cvSelect u p => Sys2Proof.Machine.execCvSelect u p s
  | .cvFeed u d => Sys2Proof.Machine.execCvFeed u d s
  | .cvRead u => Sys2Proof.Machine.execCvRead u s
  | .fusedAttention c => Sys2Proof.Machine.execFusedAttention c s
  | .attentionBackward c => Sys2Proof.Machine.execAttentionBackward c s
  | .walkerSnapshot core op slot upTo => Sys2Proof.Machine.execWalkerSnapshot core op slot upTo s
  | .snapshotRelease core op slot => Sys2Proof.Machine.execSnapshotRelease core op slot s
  | .admission op table => Sys2Proof.Machine.execAdmission op table s
  | .append c => Sys2Proof.Machine.execAppend c s
  | .release op slots => Sys2Proof.Machine.execRelease op slots s
  | .cachePublish slot => Sys2Proof.Machine.execCachePublish slot s
  | .dictionaryLoad => Sys2Proof.Machine.execDictionaryLoad s
  | .sampleDescriptor ch desc => Sys2Proof.Machine.execSampleDescriptor ch desc s
  | .sampleBytesArrive ch bytes => Sys2Proof.Machine.execSampleBytesArrive ch bytes s
  | .reserveListRecord ch rec => Sys2Proof.Machine.execReserveListRecord ch rec s
  | .reserveEntry ch desc bytes => Sys2Proof.Machine.execReserveEntry ch desc bytes s
  | .batchComplete ch => Sys2Proof.Machine.execBatchComplete ch s
  | .gatehouseStatePage => Sys2Proof.Machine.execGatehouseStatePage s
  | .batchRebuild => Sys2Proof.Machine.execBatchRebuild s
  | .heldSweepStart f => Sys2Proof.Machine.execHeldSweepStart f s
  | .mgtCmdRejected val => Sys2Proof.Machine.execMgtCmdRejected val s
  | .downNoticeWithdrawn link => Sys2Proof.Machine.execDownNoticeWithdrawn link s
  | .smbusBusTimeout => Sys2Proof.Machine.execSmbusBusTimeout s

end Sys2Proof.Machine
end

