-- ==== Sys2Proof/Machine/Step.lean ====
section
/-! DEFINITION. One step: the command at the front of the queue, or, where none waits, one tick of the timebase. -/

namespace Sys2Proof.Machine

/-- The queue's front command is taken and run on the state with the queue's rest. On an empty queue a nanosecond passes
(`tick`; DESIGN CHOICE, assumption log 2), and the commands that wait by handshake are tried again, in order (DESIGN CHOICE,
assumption log 13). -/
def step (s : State) : Host.Outcome State Fault Refusal :=
  match s.pending with
  | [] => retryAll exec s.stalled { tick s with stalled := [] }
  | c :: rest => exec c { s with pending := rest }

/-- The state with the command that a word spells at the front of its queue; no row of the table gives bits, so
no word spells one. -/
def State.withFetchWord (s : State) (nbits w : Nat) : State :=
  match decodeTableWord nbits w with
  | some c => { s with pending := c :: s.pending }
  | none => s

end Sys2Proof.Machine
end

