-- ==== Sys2Proof/Safety.lean ====
section
/-! DEFINITION. What counts as a safe step: one that answers a next state; the canonical form of the state's byte
stores, which makes equal stores equal data; and the terms in which the statements speak of answers and interrupts. -/

namespace Sys2Proof.Machine

/-- A step that neither faults nor refuses. -/
def Safe (o : Host.Outcome State Fault Refusal) : Prop := ∃ t, o = .next t

/-- A command that waits by handshake: it joins the commands that wait, and nothing else changes (R31). -/
def Waits (i : Instr) (s : State) : Prop := exec i s = .next (stall i s)

/-- A command answers a next state, of which `P` holds. -/
def Answers (i : Instr) (s : State) (P : State → Prop) : Prop := ∃ t, exec i s = .next t ∧ P t

/-- A job ends with a status: at once, or, where a tandem refresh is in progress, once that has completed (R374). The
status that an earlier stop gave a job which waits so stays. The module is in READY then, where its reference clock is
present (R38). -/
def Ends (code : U16) (s t : State) : Prop :=
  ∃ j, s.job = some j ∧
    (refreshRuns s = true → ∃ k, t.job = some k ∧ k.desc = j.desc ∧ k.phase = .refreshing ∧ k.stop = endStatus j code) ∧
    (refreshRuns s = false → t.job = none ∧ t.status.status = endStatus j code ∧
      t.mgt.state = if s.time.running then .ready else .boot)

/-- Every byte store of the state is in its canonical form. -/
def State.canonical (s : State) : Bool :=
  Mem.wf 0 s.hostMem && Mem.wf 0xFF s.flash.bytes && Mem.wf 0 s.hbm.dev && Mem.wf 0 s.hbm.tandem &&
    Mem.wf 0 s.hbm.saveArea && Mem.wf 0 s.cores.scratch && Mem.wf 0 s.cores.drain && Mem.wf 0 s.cores.cells &&
    Mem.wf 0 s.cores.cellExps && (s.cores.ctl.all fun e => Mem.wf 0 e.2.dataMem) &&
    s.kv.start.all fun k => Mem.wf 0 k.held

/-! ## Interrupts (R379) -/

/-- A vector's mask bit in the MSI-X table. -/
def vectorMasked (m : Mgt) (v : Nat) : Bool := bitAt m.msixTable (128 * v + 96)

/-- A vector that goes from not pending to pending when the cause and enable registers become these. -/
def vectorFresh (m : Mgt) (status enable : U32) (v : Nat) : Bool :=
  vectorPending status enable v && !vectorPending m.intStatus m.intEnable v

/-- A vector's message, as its MSI-X table entry gives it. -/
def vectorMessage (m : Mgt) (v : Nat) : Out :=
  .msix v (BitVec.ofNat 64 (field m.msixTable (128 * v + 63) (128 * v)))
    (BitVec.ofNat 32 (field m.msixTable (128 * v + 95) (128 * v + 64)))

/-- The messages that leave the module when the cause and enable registers become these: one for each vector that
becomes pending, in order, masked ones left out. -/
def vectorMessages (m : Mgt) (status enable : U32) : List Out :=
  ((upFrom 0 4).filter fun v => vectorFresh m status enable v && !vectorMasked m v).map (vectorMessage m)

/-- The messages that leave the module when cause `n` is set. -/
def causeMessages (m : Mgt) (n : Nat) : List Out := vectorMessages m (setBit m.intStatus n true) m.intEnable

end Sys2Proof.Machine
end

