-- ==== Sys2Proof/Certificates/Slice0/Obligations.lean ====
section
/-! DEFINITION. The statements for the provers, family by family in the order of spec/opcode_table.json. A statement about
an instruction answers with the next state it gives; `Answers i s P` says that the command answers a next state of which
`P` holds. -/



open Sys2Proof Sys2Proof.Machine

/-- The front command is what a step runs; with an empty queue one nanosecond passes and the commands that wait by handshake
run again (the latter two are the model's choices, assumption log 2 and 13). -/
def Obligations.StepTakesFrontCommand : Prop :=
  ∀ (s : State),
    (∀ (c : Instr) (rest : List Instr), step { s with pending := c :: rest } = exec c { s with pending := rest }) ∧
    (s.pending = [] → s.stalled = [] → ∃ t, step s = .next t ∧ t = { s with time := t.time } ∧
      (s.time.running = true → s.time.skip = false → t.time = { s.time with value := s.time.value + 1 })) ∧
    (∀ c : Instr, s.pending = [] → s.stalled = [c] → s.time.running = true → s.time.skip = false →
      step s = exec c { s with stalled := [], time := { s.time with value := s.time.value + 1 } })

/-- R362: MGT_CMD_ARG0 to ARG2 take 4 B halves and 8 B words; read-only and reserved offsets and unaligned accesses take
nothing. The ring registers, the interrupt registers and MGT_CMD have statements of their own. -/
def Obligations.WindowWriteReachesItsRegister : Prop :=
  ∀ (off : Nat) (wide : Bool) (val : U64) (s : State), s.controllers.romDone = true →
    (off % (if wide then 8 else 4) ≠ 0 → exec (.mgtRegisterWrite off wide val) s = .next s) ∧
    (wide = false → off ∈ [0x18, 0x1C, 0x20, 0x24, 0x28, 0x2C] →
      Answers (.mgtRegisterWrite off wide val) s fun t =>
        t = { s with mgt := { s.mgt with arg0 := t.mgt.arg0, arg1 := t.mgt.arg1, arg2 := t.mgt.arg2 } } ∧
        windowRead t off 4 = val.toNat % 2 ^ 32 ∧
        ∀ o, windowWord t o = if o = off then val.toNat % 2 ^ 32 else windowWord s o) ∧
    (wide = true → off ∈ [0x18, 0x20, 0x28] →
      Answers (.mgtRegisterWrite off wide val) s fun t =>
        t = { s with mgt := { s.mgt with arg0 := t.mgt.arg0, arg1 := t.mgt.arg1, arg2 := t.mgt.arg2 } } ∧
        windowRead t off 8 = val.toNat ∧
        ∀ o, windowWord t o =
          if o = off then val.toNat % 2 ^ 32 else if o = off + 4 then val.toNat / 2 ^ 32 else windowWord s o) ∧
    (wide = false → off ∈ [0x00, 0x04, 0x08, 0x0C, 0x14, 0x30, 0x34, 0x38, 0x3C, 0x54, 0x68, 0x6C, 0xF000] ∨
        (0x70 ≤ off ∧ off < 0xE000) →
      exec (.mgtRegisterWrite off wide val) s = .next s) ∧
    (wide = true → off ∈ [0x00, 0x08, 0x30, 0x38, 0x68, 0xF000] ∨ (0x70 ≤ off ∧ off + 8 ≤ 0xE000) →
      exec (.mgtRegisterWrite off wide val) s = .next s) ∧
    (∀ bytes, (bytes ≠ 4 ∧ bytes ≠ 8) ∨ off % bytes ≠ 0 → windowRead s off bytes = 0)

/-- R363. `withPart old part val` is what an 8 B register holds after the write, halves included. The producer operand of
MGT_RING_JOB_CTRL_WRITE is what the control block holds. -/
def Obligations.RingRegistersOnlyInReady : Prop :=
  ∀ (part : RegPart) (val producer : U64) (s : State), s.controllers.romDone = true →
    let high := if part = .high then 4 else 0
    let base := withPart s.mgt.ringBase part val
    let addr := withPart s.mgt.statusAddr part val
    let ctrl := withPart s.mgt.ringCtrl part val
    let size := val.toNat % 16
    exec (.mgtRegisterWrite (0x40 + high) (decide (part = .whole)) val) s =
      .next (if s.mgt.state = .ready ∧ base.toNat % 256 = 0 then { s with mgt := { s.mgt with ringBase := base } }
        else s) ∧
    exec (.mgtRegisterWrite (0x58 + high) (decide (part = .whole)) val) s =
      .next (if s.mgt.state = .ready ∧ addr.toNat % 4096 = 0 then { s with mgt := { s.mgt with statusAddr := addr } }
        else s) ∧
    exec (.mgtRegisterWrite 0x50 false val) s =
      .next (if s.mgt.state = .ready ∧ 4 ≤ size ∧ size ≤ 12 then
        { s with mgt := { s.mgt with ringSize := BitVec.ofNat 32 size } } else s) ∧
    exec (.mgtRingJobCtrlWrite part val producer) s =
      .next (if s.mgt.state = .ready ∧ ctrl.toNat % 128 = 0 then
        { s with
          mgt := { s.mgt with ringCtrl := ctrl }
          ring := ⟨producer, producer, false, true⟩ } else s)

/-- R379: a vector is pending while one of its causes is both set and enabled; its message is sent when it becomes
pending and at no other time. -/
def Obligations.InterruptVectorsFollowTheirCauses : Prop :=
  ∀ (v : U32) (s : State),
    let moved (status enable : U32) (t : State) : Prop :=
      t = { s with
        mgt := { s.mgt with intStatus := status, intEnable := enable, msixPba := t.mgt.msixPba }
        sent := s.sent ++ vectorMessages s.mgt status enable } ∧
      ∀ n, n < 4 → bitAt t.mgt.msixPba n =
        (bitAt s.mgt.msixPba n || (vectorFresh s.mgt status enable n && vectorMasked s.mgt n))
    (s.controllers.romDone = true →
      Answers (.mgtIntStatusClear v) s (moved (s.mgt.intStatus &&& ~~~v) s.mgt.intEnable) ∧
      Answers (.mgtIntEnableWrite v) s (moved s.mgt.intStatus (v &&& 0x1FF)) ∧
      Answers (.mgtRegisterWrite 0x60 false (v.setWidth 64)) s (moved (s.mgt.intStatus &&& ~~~v) s.mgt.intEnable) ∧
      Answers (.mgtRegisterWrite 0x64 false (v.setWidth 64)) s (moved s.mgt.intStatus (v &&& 0x1FF))) ∧
    (s.controllers.romDone = false → exec (.mgtIntStatusClear v) s = .next s ∧ exec (.mgtIntEnableWrite v) s = .next s)

/-- R447, R448. -/
def Obligations.SidebandReadsMirrorRegisters : Prop :=
  ∀ (s : State),
    let word (i : Instr) (w : U16) : Prop :=
      exec i s = .next { s with sideband :=
        if s.sideband.answering then { s.sideband with lastWord := w, lastAck := true }
        else { s.sideband with lastAck := false } }
    word .sbIdent 0x7680 ∧
    word .sbState (BitVec.ofNat 16 (s.mgt.state.code + 16 * s.fuses.lifecycle.code)) ∧
    word .sbTemp (s.mgt.temp.setWidth 16) ∧
    word .sbStackTemp ((s.mgt.temp >>> 16).setWidth 16) ∧
    word .sbPower (s.mgt.power.setWidth 16) ∧
    word .sbVolt ((s.mgt.power >>> 16).setWidth 16) ∧
    word .sbCause (s.mgt.intStatus.setWidth 16)

/-- R448, R449. -/
def Obligations.SidebandResetRequests : Prop :=
  ∀ (s : State) (cmd val : Byte) (pec : Bool),
    (s.sideband.answering = true →
      exec .sbResetWarm s = .next { s with sideband := { s.sideband with request := some .warm, lastAck := true } } ∧
      (s.mgt.state ≠ .boot ∧ s.mgt.state ≠ .recovery →
        exec .sbResetRink s = .next { s with
          sideband := { s.sideband with request := some .rink, lastAck := true }
          sent := s.sent ++ [.send .rinkReset] }) ∧
      (s.mgt.state = .boot ∨ s.mgt.state = .recovery →
        exec .sbResetRink s = .next { s with sideband := { s.sideband with lastAck := true } })) ∧
    exec (.sbWriteRejected cmd val pec) s = .next { s with sideband := { s.sideband with lastAck := false } } ∧
    exec .smbusBusTimeout s = .next { s with sideband := { s.sideband with lastAck := false, request := none } }

/-- R380, R381, R360. `ends` says what the end of a command leaves: its code and state in MGT_CMD_STATUS, and cause [2]. -/
def Obligations.ManagementCommandsAcceptedByState : Prop :=
  ∀ (s : State) (f : SweepFindings) (cut : Option Nat) (val : U32), s.controllers.romDone = true →
    let ends (cmd : Byte) (st : CmdState) (code : U16) (held : Bool) (t : State) : Prop :=
      t = { s with
        mgt := { s.mgt with cmd := cmd, cmdState := st, cmdCode := code,
                            intStatus := setBit s.mgt.intStatus 2 true, msixPba := t.mgt.msixPba }
        sent := s.sent ++ causeMessages s.mgt 2
        selfTest := { s.selfTest with sweepHeld := s.selfTest.sweepHeld || held } }
    (s.mgt.cmdState ≠ .busy → s.mgt.state.duringJob = true →
      Answers (.flashProgram cut) s (ends 1 .refused 0x0702 false) ∧
      Answers (.lifecycle cut) s (ends 7 .refused 0x0702 false) ∧
      (s.fuses.lifecycle ≠ .blank → Answers (.healthSweep f) s (ends 3 .done 0x0704 true)) ∧
      ((∀ j, s.job = some j → s.mgt.arg0 ≠ Desc.jobId j.desc) → Answers .jobAbort s (ends 5 .refused 0x0705 false))) ∧
    (s.mgt.cmdState ≠ .busy → s.mgt.state ≠ .linkPcie → (val = 0 ∨ 7 < val.toNat) →
      Answers (.mgtCmdRejected val) s (ends (val.setWidth 8) .refused 0x0703 false)) ∧
    (s.mgt.cmdState = .busy ∨ s.mgt.state = .linkPcie →
      ∀ i ∈ ([.flashProgram cut, .attest, .healthSweep f, .siteAmend, .jobAbort, .bankLoad [], .lifecycle cut,
          .mgtCmdRejected val] : List Instr),
        exec i s = .next s)

/-- R385: flash A's byte a is kept under a, flash B's under 2^26 + a. -/
def Obligations.FlashProgramWritesTheOtherCopy : Prop :=
  ∀ (s : State), s.controllers.romDone = true → s.mgt.cmdState ≠ .busy → s.mgt.state = .ready →
    let a := s.mgt.arg0.toNat
    let n := s.mgt.arg1.toNat
    let c := stagedCopy s a
    let good := a + n ≤ devTop ∧ c.length = n ∧ c.valid s.flash.key = true ∧ c.reservedZero = true ∧ seqHigher c.seq s.flash.seq.toNat = true
    let base := if s.flash.inUse.getD true then 0 else 2 ^ 26
    (good → Answers (.flashProgram none) s fun t =>
      t = { s with flash := { s.flash with bytes := t.flash.bytes }, mgt := t.mgt, sent := t.sent } ∧
      t.mgt.cmdState = .done ∧ t.mgt.cmdCode = 0x0700 ∧ t.mgt.cmd = 1 ∧ bitAt t.mgt.intStatus 2 = true ∧
      Mem.read 0xFF t.flash.bytes base n = devRead s a n ∧
      ∀ b, (b < base ∨ base + 2 ^ 26 ≤ b) → Mem.get 0xFF t.flash.bytes b = Mem.get 0xFF s.flash.bytes b) ∧
    (¬ good → Answers (.flashProgram none) s fun t =>
      t = { s with mgt := t.mgt, sent := t.sent } ∧ t.mgt.cmdState = .refused ∧ t.mgt.cmdCode = 0x0703) ∧
    (a + n ≤ devTop → c.length = n → c.valid s.flash.key = true → c.reservedZero = true →
      Answers (.flashProgram none) { s with mgt := { s.mgt with state := .recovery } } fun t =>
        t.mgt.cmdState = .done ∧ t.mgt.cmdCode = 0x0700 ∧ t.hbm.dev = s.hbm.dev ∧
        Mem.read 0xFF t.flash.bytes 0 n = devRead s a n ∧
        ∀ b, 2 ^ 26 ≤ b → Mem.get 0xFF t.flash.bytes b = Mem.get 0xFF s.flash.bytes b)

/-- R408: the report's bytes 0 to 383, the signature after them (zero where there is no identity key). -/
def Obligations.AttestFormsItsReport : Prop :=
  ∀ (s : State), s.controllers.romDone = true → s.mgt.cmdState ≠ .busy →
    s.mgt.state = .ready ∨ s.mgt.state = .recovery ∨ s.mgt.state.duringJob = true →
    let a := s.mgt.arg0.toNat
    let good := a % 64 = 0 ∧ hostFree s a 768 = true
    (good → Answers .attest s fun t =>
      t = { s with hbm := { s.hbm with dev := t.hbm.dev, poison := t.hbm.poison }, mgt := t.mgt, sent := t.sent,
                   free := t.free } ∧
      t.mgt.cmdState = .done ∧ t.mgt.cmdCode = 0x0700 ∧ t.mgt.cmd = 2 ∧
      devRead t (a + 256) 384 = reportBody s (devRead s a 32) ∧
      devRead t (a + 288) 32 = devRead s a 32 ∧
      devRead t (a + 256) 6 = [0x41, 0x53, 0x54, 0x54, 1, 0] ∧
      (s.controllers.identity = none → devRead t (a + 640) 128 = List.replicate 128 0) ∧
      ∀ b n, b + n ≤ a + 256 ∨ a + 768 ≤ b → devRead t b n = devRead s b n) ∧
    (¬ good → Answers .attest s fun t =>
      t = { s with mgt := t.mgt, sent := t.sent } ∧ t.mgt.cmdState = .refused ∧ t.mgt.cmdCode = 0x0703)

/-- R423, R430, R431: the sweep that no reset cuts short. -/
def Obligations.HealthSweepClassesCores : Prop :=
  ∀ (f : SweepFindings) (s : State), f.cut = none → s.mgt.state = .ready → s.job = none →
    let swept (t : State) : Prop :=
      t = { s with hbm := t.hbm, fabric := t.fabric, fuses := t.fuses, status := t.status, hostMem := t.hostMem,
                   selfTest := t.selfTest, mgt := t.mgt, sent := t.sent } ∧
      t.hbm.dev = s.hbm.dev ∧ (fullSelfTest s = false → t.fuses = s.fuses) ∧
      t.hbm.coreMap.length = 144 ∧
      (∀ c ∈ f.failedCores, (entryOf t c.val).state = .failed ∨ (entryOf t c.val).state = .fused) ∧
      (∀ c : PhysCore, c ∉ f.failedCores → isFused t c.val = false →
        (entryOf t c.val).state = .active ∨ (entryOf t c.val).state = .spare)
    (s.controllers.romDone = true → s.mgt.cmdState ≠ .busy → s.fuses.lifecycle ≠ .blank →
      s.selfTest.sweepHeld = false →
      Answers (.healthSweep f) s fun t =>
        swept t ∧ t.mgt.cmdState = .done ∧ t.mgt.cmdCode = 0x0700 ∧ t.mgt.cmd = 3) ∧
    (s.selfTest.sweepHeld = true →
      Answers (.heldSweepStart f) s fun t =>
        swept t ∧ t.selfTest.sweepHeld = false ∧ t.mgt = s.mgt ∧ t.status = s.status ∧
          t.hostMem = s.hostMem)

/-- R389. `amendFault` is the first of the rule's checks that the amendment fails. -/
def Obligations.SiteAmendTakesEffectWhole : Prop :=
  ∀ (s : State), s.controllers.romDone = true → s.mgt.cmdState ≠ .busy →
    s.mgt.state = .ready ∨ s.mgt.state.duringJob = true →
    let r := BitVec.ofNat 4096 (devNat s s.mgt.arg0.toNat 512)
    (amendFault s r = none → Answers .siteAmend s fun t =>
      t = { s with
        site := r
        siteAlive := BitVec.ofNat 8 (field r 71 64)
        hbm := { s.hbm with amendment := some (r, s.flash.inUse.getD false, s.flash.seq) }
        flash := { s.flash with measSite := sha256 (leBytes 512 r.toNat) }
        fabric := { s.fabric with ports := t.fabric.ports }
        mgt := t.mgt
        sent := t.sent } ∧
      t.mgt.cmdState = .done ∧ t.mgt.cmdCode = 0x0700 ∧ t.mgt.cmd = 4 ∧
      ∀ p, siteConnected s.site p = siteConnected r p → siteNeighbour s.site p = siteNeighbour r p →
        getPort t p = getPort s p) ∧
    (∀ c, amendFault s r = some c → Answers .siteAmend s fun t =>
      t = { s with mgt := t.mgt, sent := t.sent, status := t.status, hostMem := t.hostMem } ∧
      t.mgt.cmdState = .refused ∧ t.mgt.cmdCode = c ∧
      t.status.counts = { s.status.counts with
        amendmentsRefused := satInc s.status.counts.amendmentsRefused 1 }) ∧
    (s.mgt.arg1 ≠ 512 → amendFault s r = some 0x0703)

/-- R374: `JOB_ABORTED` is 0x0003 and `CUT_REACHED` 0x0004 (R376). -/
def Obligations.JobAbortEndsTheJob : Prop :=
  ∀ (s : State) (j : Job), s.controllers.romDone = true → s.mgt.cmdState ≠ .busy → s.mgt.state.duringJob = true →
    s.job = some j → s.mgt.arg0 = Desc.jobId j.desc →
    Answers .jobAbort s fun t =>
      t = { s with mgt := t.mgt, ring := t.ring, status := t.status, hostMem := t.hostMem, cores := t.cores,
                   msu := t.msu, kv := t.kv, recovery := t.recovery, job := t.job, sent := t.sent, stalled := [],
                   link := t.link, banks := t.banks } ∧
      t.mgt.cmdState = .done ∧ t.mgt.cmdCode = 0x0700 ∧ t.mgt.cmd = 5 ∧ bitAt t.mgt.intStatus 2 = true ∧
      Out.send .abortJob ∈ t.sent ∧
      Ends (match j.phase with
        | .halted => j.stop
        | .held => 0x0004
        | _ => 0x0003) s t ∧
      (refreshRuns s = true → t.ring = s.ring ∧ t.status = s.status ∧ t.recovery = s.recovery ∧ t.link = s.link ∧
        t.banks = s.banks) ∧
      (refreshRuns s = false → bitAt t.mgt.intStatus 1 = true ∧ t.link = { s.link with deviceBias := [] } ∧
        t.banks = { s.banks with bank0 := { s.banks.bank0 with refs := [] }, bank1 := { s.banks.bank1 with refs := [] } } ∧
        t.ring = { s.ring with consumer := s.ring.consumer + 1 } ∧
        (s.link.trained = true → s.link.cxl = true →
          Mem.read 0 t.hostMem (s.mgt.ringCtrl.toNat + 64) 8 = leBytes 8 (s.ring.consumer + 1).toNat))

/-- R145. A waiting load holds its bank, identity, address, length and local refusal. `released pass b` is what a module's
outcome `pass` leaves, with what reaches the module at the barrier's release. -/
def Obligations.BankLoadIsARinkOperation : Prop :=
  ∀ (s : State) (parts : List Nat),
    (s.controllers.romDone = true → s.mgt.cmdState ≠ .busy → s.mgt.state = .ready ∨ s.mgt.state.duringJob = true →
      s.mgt.arg0.toNat + s.mgt.arg1.toNat ≤ devTop → s.mgt.arg1 ≠ 0 → s.mgt.arg2.toNat ≤ 1 →
      let one := s.mgt.arg2 == 1
      let id := sha256 (devRead s s.mgt.arg0.toNat s.mgt.arg1.toNat)
      Answers (.bankLoad parts) s fun t => ∃ bad : Option U16,
        t = { s with
          banks := { s.banks with waiting := some (one, id, s.mgt.arg0.toNat, s.mgt.arg1.toNat, bad) }
          mgt := { s.mgt with cmd := 6, cmdCode := 0, cmdState := .busy }
          sent := s.sent ++ [.send (.bankLoad bad.isSome one id)] } ∧
        (one = s.banks.active → bad = some 0x0203) ∧
        (one ≠ s.banks.active → (bankOf s.banks one).refs ≠ [] → bad = some 0x0204) ∧
        (one ≠ s.banks.active → (bankOf s.banks one).refs = [] → (∃ n ∈ parts, 65536 < n) → bad = some 0x0202) ∧
        (one ≠ s.banks.active → (bankOf s.banks one).refs = [] → (∀ n ∈ parts, n ≤ 65536) → bad = none)) ∧
    (∀ (one : Bool) (id : Digest) (a n : Nat) (bad : Option U16), s.banks.waiting = some (one, id, a, n, bad) →
      let ends (st : CmdState) (code : U16) (b : Banks) (t : State) : Prop :=
        t = { s with banks := b, mgt := t.mgt, sent := t.sent } ∧
        t.mgt.cmdState = st ∧ t.mgt.cmdCode = code ∧ t.mgt.cmd = 6 ∧ bitAt t.mgt.intStatus 2 = true
      let kept : Banks := { s.banks with waiting := none }
      Answers .identityBarrierTimeout s (ends .refused (bad.getD 0x0102) kept) ∧
      let released (pass : Bool) (b : BankBarrierIn) : Prop :=
        (pass = false → Answers (.identityBarrierRelease b) s (ends .refused (bad.getD 0x0102) kept)) ∧
        (∀ c, bad = some c → Answers (.identityBarrierRelease b) s (ends .refused c kept)) ∧
        (pass = true → bad = none → Answers (.identityBarrierRelease b) s fun t =>
          ends .done 0x0700 t.banks t ∧ bankOf t.banks one = ⟨some id, a, n, []⟩ ∧
            bankOf t.banks (!one) = bankOf s.banks (!one) ∧ t.banks.pending = true ∧ t.banks.active = s.banks.active ∧
            t.banks.waiting = none)
      (s.recovery.marshal = false → ∀ pass, released pass (.outcome pass)) ∧
      (s.recovery.marshal = true → ∀ others : List BankEntry, others.length + 1 = s.rinkSize →
        let pass := others.all fun e => e == .ready one id
        released pass (.entries others) ∧
        Answers (.identityBarrierRelease (.entries others)) s fun t =>
          Out.send (.identityRelease (bad.isNone && pass)) ∈ t.sent))

/-- R402 to R404: `tokenEdge` is the target of a token that passes every check of R403. -/
def Obligations.LifecycleFollowsItsEdges : Prop :=
  ∀ (s : State), s.controllers.romDone = true → s.mgt.cmdState ≠ .busy → s.mgt.state = .ready →
    s.mgt.arg0.toNat + 256 ≤ devTop →
    let token := BitVec.ofNat 2048 (devNat s s.mgt.arg0.toNat 256)
    (∀ l, tokenEdge s token = some l → Answers (.lifecycle none) s fun t =>
      (s.fuses.lifecycle, l) ∈ [(Lifecycle.blank, Lifecycle.manufactured), (.manufactured, .provisioned),
        (.provisioned, .deployed), (.provisioned, .returned), (.deployed, .returned), (.returned, .provisioned)] ∧
      t = { s with fuses := t.fuses, hbm := t.hbm, flash := t.flash, controllers := t.controllers, mgt := t.mgt,
                   sent := t.sent, free := t.free } ∧
      t.fuses.lifecycle = l ∧ t.mgt.cmdState = .done ∧ t.mgt.cmdCode = 0x0700 ∧ t.mgt.cmd = 7 ∧
      (l = .manufactured ∨ l = .deployed →
        t.fuses = { s.fuses with lifecycle := l } ∧ t.hbm = s.hbm ∧ t.flash = s.flash ∧
          t.controllers = s.controllers) ∧
      (l = .provisioned →
        let i := field token 55 48
        unusedSlot s.fuses = some i ∧ (slotOf t.fuses i).ownerKey = tokenKey token ∧
          (slotOf t.fuses i).valid = true ∧ (∀ k, k < 4 → k ≠ i → slotOf t.fuses k = slotOf s.fuses k) ∧
          t.controllers.identity = deriveIdentity t.fuses ∧ t.hbm = s.hbm ∧ t.flash = s.flash) ∧
      (l = .returned →
        t.controllers.identity = none ∧ t.hbm.dev = [] ∧ t.hbm.tandem = [] ∧ t.hbm.saveArea = [] ∧
          t.hbm.stamps = [] ∧ t.hbm.tandemStamps = [] ∧ t.hbm.commitWord = 0 ∧ t.hbm.amendment = none ∧
          t.flash.bytes = [] ∧
          ∀ i, activeSlot s.fuses = some i → (slotOf t.fuses i).revoked = true)) ∧
    (tokenEdge s token = none → Answers (.lifecycle none) s fun t =>
      t = { s with mgt := t.mgt, sent := t.sent } ∧ t.mgt.cmdState = .refused ∧ t.mgt.cmdCode = 0x0703)

/-- R365: rules 2 and 3 of a ring's producer; R374: a job held at a cut ends when the next descriptor is published. -/
def Obligations.JobRingFollowsItsProducer : Prop :=
  ∀ (producer : U64) (s : State), s.ring.armed = true → s.link.cxl = true →
    let good := s.ring.producer.toNat ≤ producer.toNat ∧
      producer.toNat ≤ s.ring.consumer.toNat + 2 ^ s.mgt.ringSize.toNat
    let ended := ∃ j, s.job = some j ∧ j.phase = .held ∧ s.ring.consumer.toNat + 1 < producer.toNat
    (s.ring.faulted = true → exec (.jobRingProducerUpdate producer) s = .next s) ∧
    (s.ring.faulted = false → good → ¬ ended →
      exec (.jobRingProducerUpdate producer) s = .next { s with ring := { s.ring with producer := producer } }) ∧
    (s.ring.faulted = false → good → ended → Answers (.jobRingProducerUpdate producer) s fun t =>
      t.job = none ∧ t.mgt.state = (if s.time.running then .ready else .boot) ∧ t.status.status = 0x0004 ∧ t.hbm = s.hbm ∧
      t.ring = { s.ring with producer := producer, consumer := s.ring.consumer + 1 } ∧
      bitAt t.mgt.intStatus 1 = true) ∧
    (s.ring.faulted = false → ¬ good → Answers (.jobRingProducerUpdate producer) s fun t =>
      t = { s with ring := { s.ring with faulted := true }, status := t.status, hostMem := t.hostMem } ∧
      t.status = { s.status with status := 0x0009, updateSeq := s.status.updateSeq + 2, time := s.time.value })

/-- R371, R372: `startRefusal` is the first status of the table; the first four rows are written out. -/
def Obligations.JobFetchChecksItsDescriptor : Prop :=
  ∀ (f : JobFetchIn) (s : State),
    (s.mgt.state = .ready → s.job = none → s.ring.armed = true → s.ring.faulted = false →
      s.selfTest.sweepHeld = false → s.ring.consumer.toNat < s.ring.producer.toNat →
      Answers (.jobFetch f) s fun t => ∃ j : Job,
        t = { s with
          job := some j
          mgt := { s.mgt with state := .running }
          status := t.status
          hostMem := t.hostMem
          selfTest := { s.selfTest with foundCount := 0, foundEvents := [], foundCounts := Counts.zero }
          sent := s.sent ++ [.send (.jobStart j.refusal.isSome j.identity (fieldsDigest f.desc))] } ∧
        j.desc = f.desc ∧ j.image = f.image ∧ j.channels = f.channels ∧ j.phase = .barrier ∧ j.replays = 0 ∧
        j.identity = sha256 (devRead s (Desc.imageAddr f.desc) (Desc.imageLen f.desc)) ∧
        t.status = { StatusRec.reset with
          updateSeq := s.status.updateSeq + 2
          jobId := Desc.jobId f.desc
          step := BitVec.ofNat 64 (Desc.firstStep f.desc)
          committed := BitVec.ofNat 64 (Desc.firstStep f.desc) - 1
          time := s.time.value
          status := 0x0001
          eventCount := s.selfTest.foundCount
          events := t.status.events
          counts := s.selfTest.foundCounts } ∧
        j.refusal = startRefusal s f ∧
        (Desc.reservedZero f.desc = false → j.refusal = some 0x0005) ∧
        (Desc.reservedZero f.desc = true →
          (s.fuses.lifecycle = .blank ∨ s.fuses.lifecycle = .provisioned → j.refusal = some 0x0006) ∧
          (s.fuses.lifecycle ≠ .blank → s.fuses.lifecycle ≠ .provisioned →
            (Desc.lastStep f.desc < Desc.firstStep f.desc → j.refusal = some 0x0006) ∧
            (Desc.firstStep f.desc ≤ Desc.lastStep f.desc → 2 ^ 63 ≤ Desc.lastStep f.desc →
              j.refusal = some 0x0307)))) ∧
    (s.ring.faulted = true → s.job = none → Answers (.jobFetch f) s fun t =>
      t = { s with status := t.status, hostMem := t.hostMem } ∧ t.status.status = 0x0009)

/-- R52: the four outcomes, in order. -/
def Obligations.JobStartBarrierDecides : Prop :=
  ∀ (s : State) (j : Job) (others : List StartEntry), s.job = some j → j.phase = .barrier →
    others.length + 1 = siteExtX s.site * siteExtY s.site * siteExtZ s.site →
    let mine := fieldsDigest j.desc
    let refused (code : U16) : Prop := Answers (.jobStartBarrier others) s fun t =>
      t = { s with mgt := t.mgt, ring := { s.ring with consumer := s.ring.consumer + 1 }, status := t.status,
                   hostMem := t.hostMem, cores := t.cores, msu := t.msu, kv := t.kv, recovery := t.recovery,
                   job := none, sent := t.sent, stalled := [], link := { s.link with deviceBias := [] },
                   banks := { s.banks with bank0 := { s.banks.bank0 with refs := [] },
                                           bank1 := { s.banks.bank1 with refs := [] } } } ∧
      t.mgt.state = (if s.time.running then .ready else .boot) ∧ t.status.status = code ∧ bitAt t.mgt.intStatus 1 = true ∧
      bitAt t.mgt.intStatus 0 = bitAt s.mgt.intStatus 0
    (∀ c, j.refusal = some c → refused c) ∧
    (j.refusal = none → StartEntry.refusal ∈ others → refused 0x0007) ∧
    (j.refusal = none → StartEntry.refusal ∉ others → (∃ i g, StartEntry.ready i g ∈ others ∧ i ≠ j.identity) →
      refused 0x0102) ∧
    (j.refusal = none → StartEntry.refusal ∉ others → (∀ i g, StartEntry.ready i g ∈ others → i = j.identity) →
      (∃ i g, StartEntry.ready i g ∈ others ∧ g ≠ mine) → refused 0x0007) ∧
    (j.refusal = none → StartEntry.refusal ∉ others →
      (∀ i g, StartEntry.ready i g ∈ others → i = j.identity ∧ g = mine) → allServed s = true →
      Answers (.jobStartBarrier others) s fun t =>
        t.job = some { j with phase := .settling } ∧ bitAt t.mgt.intStatus 0 = true ∧ t.mgt.state = s.mgt.state ∧
        t.hbm.commitWord = BitVec.ofNat 64 (Desc.firstStep j.desc) - 1 ∧ t.hbm.stamps = s.hbm.stamps ∧
        t.hbm.tandem = s.hbm.tandem ∧
        (j.image.cache = none → t.link = { s.link with deviceBias := jobOwned s j } ∧
          (j.image.batch = none → t.hbm.dev = s.hbm.dev) ∧
          ∀ b, j.image.batch = some b → devRead t b.ghPage 65536 = ghPageBytes t 0 ∧
            ∀ a, a < b.ghPage ∨ b.ghPage + 65536 ≤ a → Mem.get 0 t.hbm.dev a = Mem.get 0 s.hbm.dev a) ∧
        t.ring = s.ring ∧ t.fuses = s.fuses ∧ t.flash = s.flash ∧ t.fabric = s.fabric ∧ t.power = s.power)

/-- R364 to R366, R370, R377. -/
def Obligations.WatchedLinesAreTaken : Prop :=
  ∀ (s : State) (j : Job), s.job = some j →
    (∀ (ch : Chan) (producer : U64), j.phase ≠ .barrier → j.phase ≠ .halted → chanOn (getChan s ch.val) = true →
      let c := getChan s ch.val
      let good := c.producer.toNat ≤ producer.toNat ∧ producer.toNat ≤ c.consumer.toNat + 2 ^ c.ringLog
      (good → exec (.sampleRingProducerUpdate ch producer) s =
        .next (setChan ch.val (fun c => { c with producer := producer }) s)) ∧
      (¬ good → Answers (.sampleRingProducerUpdate ch producer) s fun t =>
        Ends 0x0602 s t ∧ t.hbm = s.hbm ∧
        Out.send (.stopNotice 0x0602) ∈ t.sent)) ∧
    (∀ (ch : Chan) (producer : U64), j.phase = .barrier → chanOn (pendingChan j ch.val) = true →
      producerBad (pendingChan j ch.val) producer = false →
      Answers (.sampleRingProducerUpdate ch producer) s fun t => ∃ counts,
        t = { s with job := some { j with ringCounts := counts } } ∧
        ∀ i, i < 16 → nthD (0, 0) counts i =
          if i = ch.val then (producer, (nthD (0, 0) j.ringCounts i).2) else nthD (0, 0) j.ringCounts i) ∧
    (∀ (count : U64) (entries : List (BitVec 128)), Desc.replayMode j.desc = true → j.phase = .inStep →
      s.coll.included = none →
      let k := s.status.step.toNat - Desc.firstStep j.desc
      let known := putEntries s.coll.hostCount.toNat entries s.coll.hostEntries
      (count.toNat ≤ k → exec (.manifestHostCountUpdate count entries) s =
        .next { s with coll := { s.coll with hostCount := count, hostEntries := known } }) ∧
      (∀ entry rest, s.coll.hostEntries = [] → s.coll.hostCount.toNat = k → entries = entry :: rest →
        (known.find? fun e => e.1 == k) = some (k, entry)) ∧
      (∀ entry, k < count.toNat → (known.find? fun e => e.1 == k) = some (k, entry) →
        field entry 63 0 ≠ s.status.step.toNat →
        Answers (.manifestHostCountUpdate count entries) s fun t =>
          Ends 0x0405 s t) ∧
      (∀ entry, k < count.toNat → (known.find? fun e => e.1 == k) = some (k, entry) → manifestBad s entry = false →
        s.msu.runs = [] → j.image.replica = [] →
        Answers (.manifestHostCountUpdate count entries) s fun t =>
          t.coll.included = some (BitVec.ofNat 32 (field entry 127 96)) ∧
          t.status.inclStep = s.status.step ∧ t.status.included = BitVec.ofNat 32 (field entry 127 96) ∧
          t.job = s.job ∧ t.hbm = s.hbm)) ∧
    (∀ (table : Nat) (r : Range) (count : U32) (off : U64), j.image.admissionTables[table]? = some r →
      Answers (.admissionHeaderUpdate table count off) s fun t =>
        t = { s with hbm := { s.hbm with dev := t.hbm.dev, poison := t.hbm.poison } } ∧
        devNat t r.base 4 = count.toNat ∧ devNat t (r.base + 16) 8 = off.toNat ∧
        ∀ b, (b < r.base ∨ r.base + 4 ≤ b) → (b < r.base + 16 ∨ r.base + 24 ≤ b) →
          Mem.get 0 t.hbm.dev b = Mem.get 0 s.hbm.dev b)

/-- R367, R368. `readSpecified` says where a read's bytes are specified. -/
def Obligations.HostReachesDeviceMemory : Prop :=
  ∀ (s : State) (addr : Nat), s.link.trained = true → s.link.cxl = true → s.hbm.serving = true →
    (∀ data : List Byte, addr + data.length ≤ devTop → addr + data.length ≤ s.link.decoder →
      let owned (a : Nat) : Bool := match s.job with
        | none => false
        | some j => inRanges (jobOwned s j) a
      Answers (.cxlMemWrite addr data) s fun t =>
        t = { s with hbm := { s.hbm with dev := t.hbm.dev, poison := t.hbm.poison }, status := t.status,
                     hostMem := t.hostMem } ∧
        (∀ i, i < data.length → Mem.get 0 t.hbm.dev (addr + i) =
          if owned (addr + i) then Mem.get 0 s.hbm.dev (addr + i) else data.getD i 0) ∧
        (∀ b, b < addr ∨ addr + data.length ≤ b → Mem.get 0 t.hbm.dev b = Mem.get 0 s.hbm.dev b) ∧
        ((∀ i, i < data.length → owned (addr + i) = false) → t.status = s.status) ∧
        ((∃ i, i < data.length ∧ owned (addr + i) = true) →
          t.status.counts = { s.status.counts with writesDiscarded := satInc s.status.counts.writesDiscarded 1 } ∧
          t.status.eventCount = s.status.eventCount + 1 ∧
          SMap.get Event.none t.status.events (s.status.eventCount.toNat % 32) =
            ⟨s.time.value, s.status.step, 0xFFFFFFFF, 0x0606, 0, BitVec.ofNat 64 addr⟩)) ∧
    (∀ len : Nat, addr + len ≤ devTop → addr + len ≤ s.link.decoder →
      Answers (.cxlMemRead addr len) s fun t =>
        t = { s with free := t.free, link := { s.link with readData := t.link.readData } } ∧
        t.link.readData.length = len ∧
        ∀ i, i < len → readSpecified s (addr + i) = true → SMap.get false s.hbm.poison ((addr + i) / 32) = false →
          t.link.readData.getD i 0 = Mem.get 0 s.hbm.dev (addr + i)) ∧
    (∀ (data : List Byte) (len : Nat),
      (devTop < addr + data.length ∨ s.link.decoder < addr + data.length →
        exec (.cxlMemWrite addr data) s = .fault .outsideDevice) ∧
      (devTop < addr + len ∨ s.link.decoder < addr + len → exec (.cxlMemRead addr len) s = .fault .outsideDevice))

/-- R38, R360, R362, R375, R419. -/
def Obligations.LinkTrainingAndTelemetry : Prop :=
  ∀ (s : State) (w : LinkWidth) (r : LinkRate) (junction stack powerW volt10mV : U16) (tel : Telemetry),
    (s.time.running = false → ∀ cxl, exec (.cxlLinkTrained cxl w r) s = .next s) ∧
    (s.link.perstLow = false → s.controllers.romDone = true → s.time.running = true →
      exec (.cxlLinkTrained true w r) s =
        .next { s with link := { s.link with trained := true, cxl := true, width := w, rate := r } } ∧
      exec (.cxlLinkTrained false w r) s =
        .next { s with
          link := { s.link with trained := true, cxl := false, width := w, rate := r }
          mgt := { s.mgt with state := .linkPcie } }) ∧
    exec (.telemetryRefresh junction stack powerW volt10mV) s =
      .next { s with mgt := { s.mgt with temp := stack ++ junction, power := volt10mV ++ powerW } } ∧
    Answers (.statusRecordTelemetry tel) s fun t =>
      t = { s with status := t.status, hostMem := t.hostMem } ∧
      t.status = { s.status with telemetry := tel, updateSeq := s.status.updateSeq + 2, time := s.time.value } ∧
      t.status.bytes.length = 4096 ∧
      (s.link.trained = true → s.link.cxl = true →
        Mem.read 0 t.hostMem s.mgt.statusAddr.toNat 4096 = t.status.bytes)

/-- R362, R375, R394. -/
def Obligations.ResetValues : Prop :=
  let s := State.reset
  windowWord s 0x0 = 0x76800101 ∧ windowWord s 0x8 = 0 ∧ windowWord s 0xC = 0 ∧ windowWord s 0x14 = 0 ∧
  (∀ o ∈ [0x18, 0x1C, 0x20, 0x24, 0x28, 0x2C, 0x30, 0x34, 0x38, 0x3C, 0x40, 0x44, 0x48, 0x4C, 0x58, 0x5C, 0x60,
      0x64, 0x68], windowWord s o = 0) ∧
  windowWord s 0x50 = 4 ∧
  s.hbm.dev = [] ∧ s.hbm.stamps = [] ∧ s.hbm.commitWord = 0 ∧ s.hbm.tandem = [] ∧ s.hbm.tandemStamps = [] ∧
  s.hbm.poison = [] ∧ s.hbm.tandemPoison = [] ∧
  s.status.updateSeq = 0 ∧ s.job = none ∧ s.fabric.down = [] ∧ s.pending = [] ∧ s.canonical = true

/-- R394's Power-on column, R411, R418. -/
def Obligations.PowerDownKeepsFusesAndFlash : Prop :=
  ∀ (s : State),
    let lost (t : State) : Prop :=
      t.fuses = s.fuses ∧ t.flash.bytes = s.flash.bytes ∧ t.hbm = Hbm.reset ∧ t.cores = Cores.reset ∧
      t.msu = Msu.reset ∧ t.kv = Kv.reset ∧ t.gatehouse = Gatehouse.reset ∧ t.job = none ∧ t.mgt = Mgt.reset ∧
      t.sideband.answering = false ∧ t.banks = Banks.reset ∧ t.coll = Coll.reset ∧ t.recovery = Recovery.reset ∧
      t.time.set = false ∧ t.link.trained = false ∧ t.pending = s.pending ∧ t.hostMem = s.hostMem
    Answers .powerOnReset s (fun t => lost t ∧ t.power = Power.reset ∧ t.sent = s.sent) ∧
    Answers .inputLockout s (fun t => lost t ∧ t.power.locked = true ∧ t.power.rails = false ∧ t.sent = s.sent) ∧
    Answers .inputOvervoltageStop s (fun t => lost t ∧ t.power.locked = true ∧ t.power.rails = false ∧ t.sent = s.sent) ∧
    Answers .thermalTrip s (fun t => lost t ∧ t.power.tripped = true ∧ t.power.rails = false ∧
      t.sent = s.sent ++ if s.job.isSome then [.send .lostNotice] else []) ∧
    (s.power.tripped = true → Answers .thermalTripCooled s fun t => lost t ∧ t.power = Power.reset ∧ t.sent = s.sent)

/-- R394's Warm reset column, R390 and R393 for PERST#. -/
def Obligations.WarmResetKeepsHbm : Prop :=
  ∀ (s : State),
    let warm (t : State) : Prop :=
      t.hbm.stamps = s.hbm.stamps ∧ t.hbm.commitWord = s.hbm.commitWord ∧ t.hbm.tandem = s.hbm.tandem ∧
      t.hbm.tandemStamps = s.hbm.tandemStamps ∧ t.hbm.remapped = s.hbm.remapped ∧ t.hbm.coreMap = s.hbm.coreMap ∧
      (s.hbm.saves = [] → t.hbm.dev = s.hbm.dev ∧ t.hbm.poison = s.hbm.poison) ∧
      t.hbm.serving = false ∧ t.hbm.selfRefresh = true ∧
      t.fuses = s.fuses ∧ t.flash = { s.flash with key := flashKey s.fuses } ∧ t.cores = Cores.reset ∧
      t.msu = Msu.reset ∧ t.kv = Kv.reset ∧ t.stalled = [] ∧ t.link.deviceBias = [] ∧ t.banks = Banks.reset ∧ t.mgt = Mgt.reset ∧ t.job = none ∧ t.gatehouse.dict = [] ∧
      t.gatehouse.loaded = false ∧ t.ring.armed = false ∧ t.status.updateSeq = s.status.updateSeq ∧
      t.pending = s.pending ∧ t.hostMem = s.hostMem ∧
      t.sent = s.sent ++ if s.job.isSome then [.send .lostNotice] else []
    let again (t : State) : Prop :=
      t.power.phase = .input ∧ t.power.warm = false ∧ t.hbm = Hbm.reset ∧ t.cores = Cores.reset ∧ t.job = none ∧ t.mgt = Mgt.reset ∧
      t.fuses = s.fuses ∧ t.flash.bytes = s.flash.bytes ∧ t.link.perstReleased = s.link.perstReleased ∧
      t.sideband.pwrgd = s.sideband.pwrgd ∧ t.pending = s.pending ∧ t.sent = s.sent
    (s.controllers.romDone = true → powerOnRuns s = false → transitionOpen s.fuses = false → Answers .warmReset s warm) ∧
    (s.controllers.romDone = true → powerOnRuns s = false → transitionOpen s.fuses = true → Answers .warmReset s fun t =>
      transitionOpen t.fuses = false ∧ t.job = none) ∧
    (s.controllers.romDone = true → s.link.perstReleased = true → powerOnRuns s = false → transitionOpen s.fuses = false →
      Answers .perstAssert s fun t => warm t ∧ t.link.perstLow = true ∧ t.link.trained = false) ∧
    (s.controllers.romDone = true → s.power.warm = false → s.power.phase ≠ .ready → Answers .warmReset s again ∧
      (s.link.perstReleased = true → Answers .perstAssert s fun t => again t ∧ t.link.perstLow = true)) ∧
    (s.link.perstReleased = false → exec .perstAssert s =
      .next { s with link := { s.link with perstLow := true, trained := false, cxl := false } }) ∧
    Answers .perstRelease s (fun t =>
      t = { s with link := { s.link with perstLow := false, perstReleased := t.link.perstReleased },
                   sideband := { s.sideband with answering := s.controllers.romDone } } ∧
      (s.sideband.pwrgd = true → t.link.perstReleased = true))

/-- R394's Rink reset column, R395. -/
def Obligations.RinkResetKeepsTheJob : Prop :=
  ∀ (s : State), s.controllers.romDone = true →
    (s.mgt.state ≠ .boot → s.mgt.state ≠ .recovery → Answers .rinkResetFlood s fun t =>
      t.hbm.stamps = s.hbm.stamps ∧ t.hbm.commitWord = s.hbm.commitWord ∧ t.hbm.tandem = s.hbm.tandem ∧
      (s.hbm.saves = [] → t.hbm.dev = s.hbm.dev ∧ t.hbm.poison = s.hbm.poison) ∧ t.hbm.serving = true ∧
      (s.mgt.cmdState ≠ .busy → t.mgt = s.mgt) ∧ (s.mgt.cmdState = .busy → mgtCmdStatus t.mgt = 0) ∧
      t.link = s.link ∧ t.flash = s.flash ∧ t.fuses = s.fuses ∧ t.site = s.site ∧ t.config = s.config ∧
      t.time = s.time ∧ t.status = s.status ∧ t.job = s.job ∧ t.ring = s.ring ∧ t.cores = Cores.reset ∧
      t.msu = Msu.reset ∧ t.kv = Kv.reset ∧ t.fabric.down = s.fabric.down ∧ t.fabric.ports.length = s.fabric.ports.length ∧
      (∀ p, p < s.fabric.ports.length → (getPort t p).phase = (getPort s p).phase ∧
        (getPort t p).fibres = (getPort s p).fibres ∧ (getPort t p).credits = Port.fullCredits ∧
        (getPort t p).window = []) ∧
      t.recovery.resume = s.job.isSome) ∧
    (s.recovery.abortPending = true →
      exec .stepAbortUnanswered s = .next { s with sent := s.sent ++ [.send .rinkReset] }) ∧
    (∀ j, s.job = some j → s.recovery.resume = true → j.phase = .inStep →
      (j.image.heldWritten ≠ [] → Answers .jobResumeAfterRinkReset s fun t =>
        t.mgt.state = .halted ∧ (∃ k, t.job = some k ∧ k.phase = .halted ∧ k.stop = 0x0502)
          ∧ t.status.status = 0x0502 ∧ bitAt t.mgt.intStatus 3 = true) ∧
      (j.image.heldWritten = [] → j.replays = 0 → Answers .jobResumeAfterRinkReset s fun t =>
        t.recovery.resume = false ∧ t.hbm.commitWord = s.hbm.commitWord ∧ t.hbm.stamps = s.hbm.stamps ∧
          ∃ k, t.job = some k ∧ k.desc = j.desc ∧ k.image = j.image ∧ k.replays = 1))

/-- R390's phases. `chooseCopy` is the choice of R384. -/
def Obligations.BootPhasesInOrder : Prop :=
  ∀ (s : State) (failed : List PhysCore) (rows : List RowAddr) (lanes : List PhyLane),
    (s.power.phase = .off → s.power.locked = false → s.power.tripped = false → Answers .powerGood s fun t =>
      t = { s with sideband := { s.sideband with pwrgd := true }, power := t.power } ∧ t.power.phase = .input) ∧
    (s.power.phase = .input → Answers .bootRom s fun t =>
      t.power.phase = .rom ∧ t.controllers.romDone = true ∧ t.sideband.answering = true ∧ t.mgt.state = .boot ∧
      t.controllers.identity = deriveIdentity t.fuses ∧ t.flash.key = flashKey t.fuses ∧
      (s.fuses.lifecycle = .manufactured → activeSlot s.fuses = none → t.fuses = s.fuses ∧ t.hbm = s.hbm)) ∧
    (s.power.phase = .rom → s.mgt.state ≠ .recovery → (s.power.warm = true → s.link.perstLow = false) →
      keyDigest s.fuses.romKey = s.fuses.vendorRootHash → s.time.running = true →
      (∀ b, chooseCopy s.flash = some b → Answers .flashSelect s fun t =>
        t.power.phase = .flash ∧ t.flash.inUse = some b ∧ t.config = (flashCopy s.flash b).config ∧
        (s.hbm.amendment = none → t.site = (flashCopy s.flash b).site) ∧ t.flash.bytes = s.flash.bytes ∧
        t.controllers.firmware = true ∧ t.mgt.state = if s.mgt.state = .linkPcie then .linkPcie else .boot) ∧
      (chooseCopy s.flash = none → Answers .flashSelect s fun t =>
        t.mgt.state = (if s.mgt.state = .linkPcie then .linkPcie else .recovery) ∧ t.flash.inUse = none ∧ t.power.rails = true ∧ t.hbm.serving = true ∧
        t.flash.bytes = s.flash.bytes ∧ hashedGib t = 64)) ∧
    (s.power.phase = .flash → exec .railsUp s =
      .next { s with power := { s.power with phase := .rails, rails := true, volts := startVolts } }) ∧
    (s.power.phase = .rails → s.power.warm = false → Answers (.bootSelfTest failed) s fun t =>
      t = { s with hbm := { s.hbm with coreMap := t.hbm.coreMap }, power := { s.power with phase := .selfTest } } ∧
      t.hbm.coreMap.length = 144 ∧
      ∀ c : PhysCore, ((entryOf t c.val).state = .fused ↔ isFused s c.val = true) ∧
        ((entryOf t c.val).state = .failed ↔ c ∈ failed ∧ isFused s c.val = false) ∧
        ((entryOf t c.val).state = .active ↔ (entryOf t c.val).logical ≠ 0xFF)) ∧
    (s.power.phase = .selfTest → s.time.running = true → Answers (.hbmInit rows lanes) s fun t =>
      t.power.phase = .hbm ∧ t.hbm.serving = true ∧ t.hbm.selfRefresh = false ∧
      (s.power.warm = false → t.hbm.dev = [] ∧ t.hbm.stamps = [] ∧ t.hbm.commitWord = 0 ∧ t.hbm.tandem = [] ∧
        t.hbm.tandemStamps = [] ∧ t.hbm.poison = []) ∧
      (s.power.warm = true → t.hbm.dev = s.hbm.dev ∧ t.hbm.stamps = s.hbm.stamps ∧
        t.hbm.commitWord = s.hbm.commitWord ∧ t.hbm.tandem = s.hbm.tandem ∧ t.hbm.remapped = s.hbm.remapped)) ∧
    (s.power.phase = .hbm → Answers .runtimeLoad s fun t =>
      t.power.phase = .load ∧ t.cores.ctl = [] ∧ t.gatehouse = Gatehouse.reset ∧ t.kv = Kv.reset ∧ t.hbm = s.hbm ∧
      ∀ p, p < 6 → (getPort t p).phase = if siteConnected s.site p then .laser else .dark)

/-- R391, R40. -/
def Obligations.RinkFormationReachesReady : Prop :=
  ∀ (s : State) (f : FormationIn) (cause : RetryCause), s.power.phase = .load → s.mgt.state = .boot →
    opticalEnded s = true → s.time.running = true →
    let agree := shapeOk s.site = true ∧ (∀ p ∈ f.peers, peerAgrees s.site p = true) ∧
      (s.coord :: f.peers.map PeerSite.coord).Nodup
    let reached := s.rinkSize ≤ f.peers.length + 1 ∧ ∀ p ∈ f.peers, p.reachable = true
    let outcome (i : Instr) : Prop :=
      (agree → reached → rootOrder f s ≠ [] → Answers i s fun t =>
        t.mgt = { s.mgt with state := .ready, bootStatus := 0 } ∧ t.power.phase = .ready ∧ t.time.set = true ∧
        t.time.rootAt ∈ rootOrder f s ∧ (∀ c ∈ rootOrder f s, before c t.time.rootAt = false) ∧
        (t.time.root = true ↔ t.time.rootAt = s.coord) ∧
        (t.time.rootAt = s.coord → t.time.value.toNat = field s.site 255 192) ∧
        (t.time.rootAt ≠ s.coord → t.time.value = f.rootTime) ∧
        t.hbm = s.hbm ∧ t.fuses = s.fuses ∧ t.site = s.site ∧ t.fabric = s.fabric) ∧
      (¬ agree → Answers i s fun t =>
        t = { s with mgt := { s.mgt with bootStatus := 0x0404 }, sent := t.sent }) ∧
      (agree → ¬ reached → f.optical500ms = true → Answers i s fun t =>
        t = { s with mgt := { s.mgt with bootStatus := 0x0401 }, sent := t.sent })
    outcome (.rinkFormation f) ∧ (s.mgt.bootStatus ≠ 0 → outcome (.rinkFormationRetry cause f))

/-- R414 to R418, R420. Temperatures are in 1/16 °C, shares of waiting in hundredths of a percent. -/
def Obligations.PowerManagerMovesCeilings : Prop :=
  ∀ (s : State) (avg share : Nat) (hot : Bool) (d : Fin 16) (dom : Domain) (junction stackTemps : List Int) (v : U16),
    let p := s.power
    let down (v : Nat) := max 550 (v - 10)
    let up (v : Nat) := min 850 (v + 10)
    let only (t : State) : Prop :=
      t = { s with power := t.power, mgt := t.mgt, sent := t.sent, status := { s.status with paceWait := t.status.paceWait } }
    (∀ below, Answers .overcurrent s only ∧ Answers (.capRuleEval avg below hot) s only ∧
      Answers .waveWithholdPeriod s only ∧ Answers (.paceDomainEval d share) s only ∧
      Answers (.thermalCeilingEval junction stackTemps) s only ∧ Answers (.domainVoltageStep dom) s only ∧
      Answers (.inputOutOfRange v) s only) ∧
    Answers .overcurrent s (fun t => only t ∧ t.power.cap = p.cap.map down ∧ t.power.share = max 1 p.share ∧
      t.power.overcurrent = true ∧ bitAt t.mgt.intStatus 7 = true) ∧
    (∀ below, cfgCapW s.config < avg ∨ hot = true →
      Answers (.capRuleEval avg below hot) s fun t => only t ∧ t.power.cap = p.cap.map down) ∧
    (∀ below, cfgCapW s.config < avg → allAtFloor p = true → Answers (.capRuleEval avg below hot) s fun t =>
      only t ∧ t.power.share = min 9 (p.share + 1) ∧ bitAt t.mgt.intStatus 7 = true) ∧
    (avg ≤ cfgCapW s.config →
      (p.capHold = false → p.thermalHold = false → Answers (.capRuleEval avg true false) s fun t =>
        only t ∧ t.power.cap = p.cap.map up) ∧
      (p.thermalHold = true → Answers (.capRuleEval avg true false) s fun t => only t ∧ t.power.cap = p.cap) ∧
      (p.capHold = true → p.thermalHold = false → Answers (.capRuleEval avg true false) s fun t =>
        only t ∧ t.power.cap = p.cap ∧ t.power.share = p.share - 1) ∧
      Answers (.capRuleEval avg false false) s (fun t => only t ∧ t.power.cap = p.cap)) ∧
    (p.share = 0 → exec .waveWithholdPeriod s = .next s) ∧
    (p.share ≠ 0 → Answers .waveWithholdPeriod s fun t => only t ∧ t.power = p ∧ bitAt t.mgt.intStatus 7 = true) ∧
    Answers (.paceDomainEval d share) s (fun t =>
      t = { s with power := { p with pace := t.power.pace }, status := { s.status with paceWait := t.status.paceWait } } ∧
      (t.status.paceWait = true ↔ ∃ i, i < 16 ∧ p.rinkPace <
        min 850 (min (nthD 850 p.thermal i) (min (nthD 850 p.cap i) (nthD 850 t.power.pace i)))) ∧
      ∀ i, nthD 0 t.power.pace i =
        if i = d.val ∧ i < p.pace.length then
          (if 200 < share then down (nthD 0 p.pace i) else if share < 50 then up (nthD 0 p.pace i) else nthD 0 p.pace i)
        else nthD 0 p.pace i) ∧
    Answers (.thermalCeilingEval junction stackTemps) s (fun t => only t ∧
      (∀ i, i < 24 → nthD 0 t.power.thermal i =
        let old := nthD 850 p.thermal i
        let j := nthD 0 junction i
        if adjustable i = true ∧ 1600 ≤ j then down old
        else if adjustable i = true ∧ j ≤ 1552 then min (if i < 16 then 850 else 700) (old + 10) else old) ∧
      (∀ i, i < 12 → nthD 0 t.power.stackRate i =
        if 1520 ≤ nthD 0 stackTemps i then 4 else if 1488 ≤ nthD 0 stackTemps i then 2 else 1) ∧
      ((∃ i, i < 24 ∧ 1648 ≤ nthD 0 junction i) ∨ (∃ x ∈ stackTemps, 1520 ≤ x) → bitAt t.mgt.intStatus 6 = true)) ∧
    (p.rails = true → adjustable dom.val = true → Answers (.domainVoltageStep dom) s fun t =>
      t = { s with power := { p with volts := t.power.volts } } ∧
      ∀ i, nthD 0 t.power.volts i =
        if i = dom.val ∧ i < p.volts.length then
          (let v := nthD 0 p.volts i
           let goal := targetVolt s i
           if v < goal then min goal (v + 10) else if goal < v then max goal (v - 10) else v)
        else nthD 0 p.volts i) ∧
    Answers (.inputOutOfRange v) s (fun t => only t ∧
      (t.power.inRange = true ↔ 3800 ≤ v.toNat ∧ v.toNat ≤ 4600) ∧
      (v.toNat < 3800 ∨ 4600 < v.toNat → bitAt t.mgt.intStatus 7 = true))

/-- R434. Errors of regulators are in hundredths of a percent, of sensors in 1/16 °C. -/
def Obligations.AnalogueChecksReport : Prop :=
  ∀ (s : State) (errors : List Int) (first second : Nat) (port : PortId) (fibre : Fin 16) (wave : Fin 9) (i : Nat)
      (low : List Wave),
    let only (t : State) : Prop := t = { s with power := t.power, mgt := t.mgt, sent := t.sent }
    (Answers (.regulatorCheck errors) s only ∧ Answers (.tempSensorCheck errors) s only ∧
      Answers (.inputMonitorCheck first second) s only ∧ Answers (.laserMonitorCheck low) s only) ∧
    ((∀ e ∈ errors, e.natAbs ≤ 300) → exec (.regulatorCheck errors) s = .next s) ∧
    ((∃ e ∈ errors, 300 < e.natAbs) → Answers (.regulatorCheck errors) s fun t =>
      t = { s with mgt := t.mgt, sent := t.sent } ∧ bitAt t.mgt.intStatus 7 = true) ∧
    Answers (.tempSensorCheck errors) s (fun t =>
      t = { s with power := { s.power with sensorSwapped := t.power.sensorSwapped }, mgt := t.mgt, sent := t.sent } ∧
      (∀ k, k < 24 → nthD false t.power.sensorSwapped k =
        (decide (80 < (nthD 0 errors k).natAbs) || nthD false s.power.sensorSwapped k)) ∧
      ((∃ k, k < 24 ∧ 80 < (nthD 0 errors k).natAbs) → bitAt t.mgt.intStatus 6 = true) ∧
      ((∀ k, k < 24 → (nthD 0 errors k).natAbs ≤ 80) → t.mgt = s.mgt ∧ t.sent = s.sent)) ∧
    (100 * ((first : Int) - second).natAbs ≤ second → exec (.inputMonitorCheck first second) s = .next s) ∧
    (second < 100 * ((first : Int) - second).natAbs → Answers (.inputMonitorCheck first second) s fun t =>
      t = { s with mgt := t.mgt, sent := t.sent } ∧ bitAt t.mgt.intStatus 7 = true) ∧
    ((getPort s port.val).phase = .up →
      (nthD Fibre.fresh (getPort s port.val).txFibres fibre.val).lanes.findIdx? (· == wave.val) = some i →
      exec (.laserMonitorCheck [⟨port, fibre, wave⟩]) s =
        .next { s with sent := s.sent ++ [.linkWord port (.laserLow fibre.val i)] }) ∧
    exec (.laserMonitorCheck []) s = .next s

/-- R239, R240, R242. -/
def Obligations.HbmErrorsAreHandledByClass : Prop :=
  ∀ (s : State) (stack : StackId) (bank word addr : Nat) (temp : Int) (op : U32) (e : WordErrors),
    Answers (.hbmRefresh stack bank temp) s (fun t =>
      t = { s with hbm := { s.hbm with fastRefresh := t.hbm.fastRefresh } } ∧
      (SMap.wf false s.hbm.fastRefresh = true → SMap.get false t.hbm.fastRefresh stack.val =
        (decide (1360 < temp) || (decide (1328 < temp) && SMap.get false s.hbm.fastRefresh stack.val)))) ∧
    (e.symbols = 0 → exec (.hbmScrub stack word e) s = .next s) ∧
    (e.symbols = 1 → Answers (.hbmScrub stack word e) s fun t =>
      t = { s with hbm := { s.hbm with ceRows := t.hbm.ceRows, remapDue := t.hbm.remapDue },
                   status := { s.status with hbmCe := t.status.hbmCe } } ∧
      (s.job = none → t = s) ∧
      (s.job ≠ none → SMap.wf 0 s.status.hbmCe = true → SMap.get 0 t.status.hbmCe stack.val =
        satInc (SMap.get 0 s.status.hbmCe stack.val) 1)) ∧
    (2 ≤ e.symbols → Answers (.hbmScrub stack word e) s fun t =>
      t = { s with hbm := { s.hbm with poison := t.hbm.poison, tandemPoison := t.hbm.tandemPoison,
                                       repairPoison := t.hbm.repairPoison } } ∧
      ∀ a, byteAddress s stack.val (32 * word) = some a → SMap.get false t.hbm.poison (a / 32) = true) ∧
    (let bad := 1 < e.symbols ∨ SMap.get false s.hbm.poison (addr / 32) = true
     let read (squashed : Bool) (page : Option PageIn) : Instr := .hbmReadReturn addr op e squashed false page
     (¬ bad → e.symbols = 0 → ∀ q page, exec (read q page) s = .next s) ∧
     (¬ bad → e.symbols = 1 → ∀ q page, Answers (read q page) s fun t =>
       t.hbm.dev = s.hbm.dev ∧ t.hbm.poison = s.hbm.poison ∧ t.job = s.job ∧ t.cores = s.cores) ∧
     (bad → ∀ page, exec (read true page) s = .next s) ∧
     (1 < e.symbols → Answers (.hbmReadReturn addr op e false true none) s fun t =>
       t = { s with status := t.status, hostMem := t.hostMem } ∧ t.status.eventCount = s.status.eventCount + 1 ∧
       t.status.counts = s.status.counts) ∧
     (bad → ∀ j, s.job = some j → j.phase = .inStep ∨ j.phase = .atCut ∨ j.phase = .dumping →
       (protClass s addr = .step → Answers (read false none) s fun t =>
         t.job = some { j with phase := .aborted } ∧ t.recovery.abortPending = true ∧ t.hbm = s.hbm ∧
         t.status.counts = { s.status.counts with hbmUes := satInc s.status.counts.hbmUes 1 } ∧
         t.status.eventCount = s.status.eventCount + 1) ∧
       (protClass s addr = .state → ∀ p : PageIn, p.bytes.length = 65536 →
         stampStep (SMap.get 0 s.hbm.stamps (addr / 65536)) = s.status.step.toNat ∨ s.msu.runs = [] → Answers (read false (some p)) s fun t =>
         devRead t (65536 * (addr / 65536)) 65536 = p.bytes ∧
         (SMap.wf 0 s.hbm.stamps = true → SMap.get 0 t.hbm.stamps (addr / 65536) = p.stamp) ∧
         t.status.counts = { s.status.counts with
           hbmUes := satInc s.status.counts.hbmUes 1, pagesRestored := satInc s.status.counts.pagesRestored 1 } ∧
         (t.job = some { j with phase := .aborted } ↔
           stampStep (SMap.get 0 s.hbm.stamps (addr / 65536)) = s.status.step.toNat) ∧
         ∀ b n, b + n ≤ 65536 * (addr / 65536) ∨ 65536 * (addr / 65536) + 65536 ≤ b → devRead t b n = devRead s b n) ∧
       (protClass s addr = .held → Answers (read false none) s fun t =>
         t.job = some { j with phase := .halted, stop := 0x0302 } ∧ t.mgt.state = .halted ∧
         t.status.status = 0x0302 ∧ t.hbm = s.hbm)))

/-- R38 to R40. -/
def Obligations.TimebaseNeverRunsBack : Prop :=
  ∀ (s : State) (port : PortId) (sample : U64) (offset held lane : Nat) (lost : Coord) (lostBefore : List Coord)
      (ctx : OpCtx) (dest : Loc),
    Answers (.beatReceive port sample lane) s (fun t =>
      t = { s with time := t.time } ∧
      (s.time.value.toNat < 2 ^ 64 - 1 → s.time.value.toNat ≤ t.time.value.toNat ∧
        t.time.value.toNat ≤ s.time.value.toNat + 1) ∧
      ((getPort s port.val).phase = .up → lane = 0 → s.time.set = true → s.time.root = false → nearerRoot s port = true →
        s.time.slewAt.toNat + 10000 ≤ s.time.value.toNat → s.time.value.toNat < (sample + BitVec.ofNat 64 (getPort s port.val).delayNs).toNat →
        t.time.value = s.time.value + 1 ∧ t.time.slewAt = s.time.value) ∧
      (s.time.value.toNat < s.time.slewAt.toNat + 10000 → t = s)) ∧
    (20 < offset → 1000 < held → Answers (.timebaseUnsync offset held) s fun t =>
      t = { s with status := t.status, hostMem := t.hostMem, mgt := t.mgt, sent := t.sent } ∧
      t.status.unsync = true ∧ bitAt t.mgt.intStatus 8 = true) ∧
    (offset ≤ 20 ∨ held ≤ 1000 → exec (.timebaseUnsync offset held) s = .next s) ∧
    (∀ gone next rest, s.time.order = gone ++ next :: rest → (∀ c ∈ gone, c = lost ∨ c ∈ lostBefore) →
      next ≠ lost → next ∉ lostBefore → lost = s.time.rootAt →
      Answers (.timeRootTakeover lost lostBefore) s fun t =>
        t = { s with time := { s.time with rootAt := next, order := t.time.order, root := decide (next = s.coord) } } ∧
        t.time.order = next :: rest.filter fun c => decide (c ≠ lost) && !lostBefore.contains c) ∧
    Answers .referenceClockLoss s (fun t =>
      t.time = { s.time with running := false } ∧ t.hbm = { s.hbm with serving := false } ∧
      t.link.trained = false ∧ (s.mgt.state = .ready → t.mgt.state = .boot) ∧ t.sideband = s.sideband ∧
      t.cores = s.cores ∧ t.fuses = s.fuses ∧ t.flash = s.flash ∧
      ∀ p, p < s.fabric.ports.length → (getPort t p).phase = .dark ∨ (getPort t p).phase = .down) ∧
    (acts s ctx.op = true → spanWhere (storePlace ctx.core) s dest 8 = none →
      (branchOpen s ctx.core.val = false → Answers (.timeRead ctx dest) s fun t =>
        locRead t dest 0 8 = leBytes 8 s.time.value.toNat ∧
        t = { s with cores := { s.cores with scratch := t.cores.scratch, drain := t.cores.drain }, ended := t.ended }) ∧
      (branchOpen s ctx.core.val = true → Waits (.timeRead ctx dest) s))

/-- R268, R269, R271, R272, R276. `frameLanes` pairs each lane with the protected bits of the codeword that came on its
wavelength, where it decodes. -/
def Obligations.PortFramesArriveInOrder : Prop :=
  ∀ (s : State) (port : PortId) (words : List Codeword) (fseq : U16) (g : Grant), port.val < s.fabric.ports.length →
    let q := getPort s port.val
    let only (t : State) : Prop :=
      t = { s with fabric := { s.fabric with ports := t.fabric.ports }, sent := t.sent } ∧
      ∀ p, p ≠ port.val → getPort t p = getPort s p
    let lanes := frameLanes q words
    let bad := (lanes.filter fun e => !laneGood e).map Prod.fst
    let noted := (q.rejects.filter fun e => decide (s.time.value.toNat < e.2.toNat + 1000000000)) ++
      bad.map fun l => (l, s.time.value)
    let rejected : Prop := Answers (.portFrameReceive port words) s fun t =>
      (∃ more, t.sent = s.sent ++ .linkWord port (.nack q.rxNext) :: more) ∧
      ((∀ l ∈ bad, tenRejects noted l = false) → only t ∧
        getPort t port.val = { q with rxDiscard := true, rejects := noted } ∧
        t.sent = s.sent ++ [.linkWord port (.nack q.rxNext)])
    (q.phase = .up → words ≠ [] → lanes.filterMap Prod.snd = [] → rejected) ∧
    (q.phase = .up → ∀ first rest, lanes.filterMap Prod.snd = first :: rest →
      let sound := lanes.all laneGood = true ∧ ∀ w ∈ rest, cwFseq w = cwFseq first
      (sound → cwFseq first = q.rxNext.toNat → (∀ w ∈ first :: rest, cwType w = 0 ∨ 6 ≤ cwType w) →
        (∀ l ∈ q.queues, l = []) → Answers (.portFrameReceive port words) s fun t => only t ∧
          getPort t port.val = { q with
            rxNext := q.rxNext + 1
            rxDiscard := false
            rxData := cutBlocks (first :: rest)
            window := ackWindow (BitVec.ofNat 16 (cwAck first)) q.window } ∧ t.sent = s.sent) ∧
      (sound → cwFseq first ≠ q.rxNext.toNat → exec (.portFrameReceive port words) s = .next s) ∧
      (¬ sound → rejected)) ∧
    (∀ before f after, q.window = before ++ f :: after → f.fseq = fseq → (∀ e ∈ before, e.fseq ≠ fseq) →
      exec (.nack port fseq) s = .next { s with sent := s.sent ++ [.frames port (f :: after)] }) ∧
    ((∀ f ∈ q.window, f.fseq ≠ fseq) → exec (.nack port fseq) s = .next s) ∧
    (∀ gs, Answers (.credit port gs) s fun t => t = { s with fabric := t.fabric, sent := t.sent }) ∧
    (q.phase = .up → (∀ l ∈ q.queues, l = []) →
      ∀ i c, i = classIndex g.cls → q.credits[i]? = some c → c.1 ≤ 64 → c.2.1 ≤ 64 →
      Answers (.credit port [g]) s fun t => only t ∧ t.sent = s.sent ∧
        ∃ c', (getPort t port.val).credits[i]? = some c' ∧ c'.1 + c'.2.1 + c'.2.2 = c.1 + c.2.1 + c.2.2 + g.blocks ∧
          c'.1 ≤ 64 ∧ c'.2.1 ≤ 64 ∧ (if g.vc1 then c'.1 = c.1 else c'.2.1 = c.2.1))

/-- R276 to R278. `room` says that a port can send a packet at once, `leaves` what its leaving does. -/
def Obligations.PacketsTakeTheirRoute : Prop :=
  ∀ (s : State) (cls : TrafficClass) (dest : Coord) (body : PacketBody) (inPort : PortId) (p : Packet),
    let hops (n a b : Nat) : Nat := (b + n - a) % n
    let dir (n a b : Nat) : Dir := if hops n a b ≤ hops n b a then .plus else .minus
    let X := siteExtX s.site
    let Y := siteExtY s.site
    let Z := siteExtZ s.site
    let c := s.coord
    let credits (port : PortId) (k : TrafficClass) := nthD (0, 0, 0) (getPort s port.val).credits (classIndex k)
    let room (port : PortId) (pk : Packet) (credit : Nat × Nat × Nat) : Prop :=
      let q := getPort s port.val
      port.val < s.fabric.ports.length ∧ q.phase = .up ∧ q.window.length < 41 ∧ q.queues = List.replicate 8 [] ∧
      1 ≤ inUse q.txFibres ∧ takeCredit pk.vc1 (blocksOf pk.bytes) (credits port pk.cls) = some credit
    let leaves (port : PortId) (pk : Packet) (credit : Nat × Nat × Nat) (back : List Out) (t : State) : Prop :=
      let q := getPort s port.val
      let f : Frame := ⟨q.txNext, (upFrom 0 (blocksOf pk.bytes)).map fun i => ⟨pk, i⟩⟩
      t = { s with fabric := { s.fabric with ports := t.fabric.ports }, sent := s.sent ++ .frames port [f] :: back } ∧
      (∀ k, k ≠ port.val → getPort t k = getPort s k) ∧
      getPort t port.val = { q with
        credits := updNth (fun _ => credit) q.credits (classIndex pk.cls)
        window := q.window ++ [f]
        txNext := q.txNext + 1
        share := (getPort t port.val).share } ∧
      credit.1 + credit.2.1 + credit.2.2 + blocksOf pk.bytes =
        (credits port pk.cls).1 + (credits port pk.cls).2.1 + (credits port pk.cls).2.2
    (packetOk s dest body.bytes = false → exec (.packetInject cls dest body) s = .refused (.refusedAtBuild 268)) ∧
    (packetOk s dest body.bytes = true →
      ((∀ l, linkIsDown s l = false) →
        route s dest = some (dir X c.x dest.x, dir Y c.y dest.y, dir Z c.z dest.z)) ∧
      (route s dest = none → ∀ j, s.job = some j → j.phase ≠ .halted → Answers (.packetInject cls dest body) s fun t =>
        t.job = some { j with phase := .halted, stop := 0x0401 } ∧ t.status.status = 0x0401 ∧ t.mgt.state = .halted) ∧
      (∀ x y z port, route s dest = some (x, y, z) →
        let pk : Packet := ⟨cls, c, dest, x, y, z, false, body.use, body.bytes⟩
        nextPort c pk = some port →
        (∀ credit, room port pk credit → Answers (.packetInject cls dest body) s (leaves port pk credit [])) ∧
        (port.val < s.fabric.ports.length → (getPort s port.val).queues = List.replicate 8 [] →
          takeCredit false 1 (credits port cls) = none → Answers (.packetInject cls dest body) s fun t =>
            t = { s with fabric := { s.fabric with ports := t.fabric.ports } } ∧
            (∀ k, k ≠ port.val → getPort t k = getPort s k) ∧
            getPort t port.val = { getPort s port.val with
              queues := updNth (fun _ => [⟨pk, 0, none⟩]) (List.replicate 8 []) (2 * classIndex cls) }))) ∧
    (let back : Out := .linkWord inPort (.credit [⟨p.cls, p.vc1, blocksOf p.bytes⟩])
     (p.dest = c → p.use = .plain ∨ p.cls ≠ .offload →
       exec (.packetDeliver inPort p) s = .next { s with sent := s.sent ++ [.deliver p, back] }) ∧
     (∀ base, p.dest = c → p.cls = .offload → p.use = .park base → base + p.bytes.length ≤ devTop →
       Answers (.packetDeliver inPort p) s fun t =>
         t = { s with hbm := { s.hbm with dev := t.hbm.dev, poison := t.hbm.poison },
                      sent := s.sent ++ [.deliver p, back] } ∧
         devRead t base p.bytes.length = p.bytes ∧
         ∀ b n, b + n ≤ base ∨ base + p.bytes.length ≤ b → devRead t b n = devRead s b n) ∧
     (∀ out, nextPort c p = some out → (getPort s out.val).phase ≠ .up →
       exec (.packetForward inPort p) s = .next { s with sent := s.sent ++ [back] }) ∧
     (∀ out credit, nextPort c p = some out → 1 ≤ blocksOf p.bytes → blocksOf p.bytes ≤ 64 →
       let pk := { p with vc1 := decide (portDim out = portDim inPort) && (p.vc1 || crossedDateline s inPort) }
       room out pk credit → Answers (.packetForward inPort p) s
         (leaves out pk credit (List.replicate (blocksOf p.bytes) (.linkWord inPort (.credit [⟨p.cls, p.vc1, 1⟩]))))))

/-- R278, R281. -/
def Obligations.PortsBeatAndGoDown : Prop :=
  ∀ (s : State) (port : PortId) (link : Link), port.val < s.fabric.ports.length →
    let q := getPort s port.val
    (q.phase = .up → Answers (.beat port) s fun t =>
      t = { s with fabric := { s.fabric with ports := t.fabric.ports },
                   sent := s.sent ++ [.linkWord port (.beat 0 (q.beats + 1) s.time.value)] } ∧
      getPort t port.val = { q with beats := q.beats + 1 } ∧ ∀ p, p ≠ port.val → getPort t p = getPort s p) ∧
    (q.phase = .up → ∀ uncommitted, Answers (.portDownTimeout port uncommitted) s fun t =>
      (getPort t port.val).phase = .down ∧ (getPort t port.val).window = [] ∧ (getPort t port.val).rxData = [] ∧
      (∀ p, p ≠ port.val → getPort t p = getPort s p) ∧ linkOf s port ∈ t.fabric.down ∧
      (∀ l ∈ t.fabric.down, l ∈ s.fabric.down ∨ l = linkOf s port) ∧ (∀ l ∈ s.fabric.down, l ∈ t.fabric.down) ∧
      Out.send (.linkDown (linkOf s port)) ∈ t.sent ∧ t.hbm = s.hbm ∧
      t.status.counts = { s.status.counts with portsDown := satInc s.status.counts.portsDown 1 } ∧
      t.status.eventCount = s.status.eventCount + 1 ∧
      (uncommitted = false → q.holdsStep = false → t.job = s.job) ∧
      (uncommitted = true ∨ q.holdsStep = true → ∀ j, s.job = some j →
        j.phase = .inStep ∨ j.phase = .atCut ∨ j.phase = .dumping → t.job = some { j with phase := .aborted })) ∧
    Answers (.downNotice link) s (fun t =>
      t = { s with fabric := { s.fabric with down := t.fabric.down } } ∧
      ∀ l, l ∈ t.fabric.down ↔ l ∈ s.fabric.down ∨ l = link) ∧
    Answers (.downNoticeWithdrawn link) s (fun t =>
      t = { s with fabric := { s.fabric with down := t.fabric.down } } ∧
      ∀ l, l ∈ t.fabric.down ↔ l ∈ s.fabric.down ∧ l ≠ link)

/-- R272 to R274, R435. -/
def Obligations.SpareWavelengthsServeOnce : Prop :=
  ∀ (s : State) (port : PortId) (cause : SwapCause) (fibre : Fin 16) (place : Fin 8) (cal : Bool) (at' : U16),
    port.val < s.fabric.ports.length →
    let q := getPort s port.val
    let f := nthD Fibre.fresh q.fibres fibre.val
    let h := nthD Fibre.fresh q.txFibres fibre.val
    let kind : SwapKind := if cal then .calibration else .failing
    (∀ lane, laneHome q.fibres lane = some (fibre.val, place.val) →
      (f.spare ≠ none → swapOn q fibre.val = none → Answers (.swapCondition port lane cause) s fun t =>
        t = { s with fabric := { s.fabric with ports := t.fabric.ports },
                     sent := s.sent ++ [.linkWord port (.swap fibre.val place.val false)] } ∧
        swapOn (getPort t port.val) fibre.val = some ⟨fibre.val, place.val, false, none⟩ ∧
        (getPort t port.val).fibres = q.fibres) ∧
      (f.spare = none → Answers (.swapCondition port lane cause) s fun t =>
        (nthD Fibre.fresh (getPort t port.val).fibres fibre.val).retired = true ∧
        (∀ i, i ≠ fibre.val → nthD Fibre.fresh (getPort t port.val).fibres i = nthD Fibre.fresh q.fibres i) ∧
        t.status.counts.fibresRetired = satInc s.status.counts.fibresRetired 1 ∧
        Out.linkWord port (.retire fibre.val q.rxNext) ∈ t.sent ∧
        (tooFew (getPort t port.val) = true → (getPort t port.val).phase = .down))) ∧
    (h.spare ≠ none → h.retired = false → place.val < h.lanes.length → mirrorsOther q fibre.val place.val = false →
      Answers (.swap port fibre place.val kind) s fun t =>
        t = { s with fabric := { s.fabric with ports := t.fabric.ports },
                     sent := s.sent ++ [.linkWord port (.swapAt fibre.val place.val (q.txNext + 64))] } ∧
        ⟨fibre.val, place.val, q.txNext + 64, cal⟩ ∈ (getPort t port.val).mirrors) ∧
    (h.spare = none → exec (.swap port fibre place.val kind) s = .next s) ∧
    (h.retired = false → fibre.val < q.txFibres.length → Answers (.swap port fibre place.val (.retire at')) s fun t =>
      let fs := (getPort t port.val).txFibres
      (nthD Fibre.fresh fs fibre.val).retired = true ∧ (nthD Fibre.fresh fs fibre.val).lanes = [] ∧
      (∀ i, i ≠ fibre.val → nthD Fibre.fresh fs i = nthD Fibre.fresh q.txFibres i) ∧
      (tooFew (getPort t port.val) = false →
        ((getPort t port.val).window.map Frame.blocks).flatten = (q.window.map Frame.blocks).flatten)) ∧
    (∀ r, swapOn q fibre.val = some r → r.place = place.val → Answers (.swap port fibre place.val (.named at')) s fun t =>
      t = { s with fabric := { s.fabric with ports := t.fabric.ports } } ∧
      swapOn (getPort t port.val) fibre.val = some { r with switchAt := some at' }) ∧
    (∀ sp r, swapOn q fibre.val = some r → f.spare = some sp → r.place < f.lanes.length → fibre.val < q.fibres.length →
      r.switchAt = some at' → reached q.rxNext at' = true →
      Answers (.swapSwitch port ⟨fibre, false⟩) s fun t =>
        let g := nthD Fibre.fresh (getPort t port.val).fibres fibre.val
        g.lanes[r.place]? = some sp ∧ (∀ i, i ≠ r.place → g.lanes[i]? = f.lanes[i]?) ∧
        (getPort t port.val).txFibres = q.txFibres ∧
        (r.calibration = false → g.spare = none ∧ t.status.counts.swaps = satInc s.status.counts.swaps 1 ∧
          t.status.eventCount = s.status.eventCount + 1) ∧
        (r.calibration = true → g.spare = f.lanes[r.place]? ∧ t.status = s.status ∧ t.sent = s.sent)) ∧
    ((∀ r ∈ q.swaps, r.fibre = fibre.val → ∀ a, r.switchAt = some a → reached q.rxNext a = false) →
      exec (.swapSwitch port ⟨fibre, false⟩) s = .next s) ∧
    (∀ sp m, (q.mirrors.find? fun m => m.fibre == fibre.val) = some m → h.spare = some sp → m.place < h.lanes.length →
      fibre.val < q.txFibres.length → reached q.txNext m.switchAt = true →
      Answers (.swapSwitch port ⟨fibre, true⟩) s fun t =>
        let g := nthD Fibre.fresh (getPort t port.val).txFibres fibre.val
        t = { s with fabric := { s.fabric with ports := t.fabric.ports } } ∧
        g.lanes[m.place]? = some sp ∧ (∀ i, i ≠ m.place → g.lanes[i]? = h.lanes[i]?) ∧
        g.spare = (if m.calibration then h.lanes[m.place]? else none) ∧ (getPort t port.val).fibres = q.fibres) ∧
    ((∀ m ∈ q.mirrors, m.fibre = fibre.val → reached q.txNext m.switchAt = false) →
      exec (.swapSwitch port ⟨fibre, true⟩) s = .next s) ∧
    (q.phase = .up → f.spare ≠ none → f.retired = false → q.calibrating = none → swapOn q fibre.val = none →
      Answers (.calibration port fibre place) s fun t =>
        t = { s with fabric := { s.fabric with ports := t.fabric.ports },
                     sent := s.sent ++ [.linkWord port (.swap fibre.val place.val true)] } ∧
        (getPort t port.val).calibrating = some fibre.val ∧
        swapOn (getPort t port.val) fibre.val = some ⟨fibre.val, place.val, true, none⟩) ∧
    (f.spare = none ∨ q.calibrating ≠ none → exec (.calibration port fibre place) s = .next s)

/-- R282, R283. `kept` is the port with the fragment; `peerHello` and `peerSignature` read the fragments that are in. -/
def Obligations.BringUpVerifiesTheNeighbour : Prop :=
  ∀ (s : State) (port : PortId) (r : BringReport) (x : IdentIn) (gs : List Grant), port.val < s.fabric.ports.length →
    let q := getPort s port.val
    let lit : Port := { q with fibres := loseWaves r.badWaves q.fibres, txFibres := loseWaves r.badTxWaves q.txFibres }
    let others (t : State) : Prop := ∀ p, p ≠ port.val → getPort t p = getPort s p
    let up (t : State) : Prop :=
      (getPort t port.val).phase = .up ∧ (getPort t port.val).credits = Port.fullCredits ∧
      (getPort t port.val).attempts = 0 ∧ linkOf s port ∉ t.fabric.down ∧
      Out.send (.linkUp (linkOf s port)) ∈ t.sent ∧ t.status = s.status ∧ others t
    (siteConnected s.site port.val = true → q.phase ≠ .up → q.phase ≠ .refused → s.power.rails = true →
      s.time.running = true → tooFew lit = false → r.alignOk = true → r.deskewOk = true →
      (r.delayNs ≤ 500 → Answers (.portBringup port r) s fun t =>
        t = { s with fabric := { s.fabric with ports := t.fabric.ports }, free := t.free, sent := t.sent,
                     status := t.status, hostMem := t.hostMem } ∧
        (newlyRetired q.fibres lit.fibres = [] → t.status = s.status ∧ t.hostMem = s.hostMem) ∧
        (getPort t port.val).phase = .identity ∧ (getPort t port.val).fibres = lit.fibres ∧
        (getPort t port.val).txFibres = lit.txFibres ∧
        (getPort t port.val).attempts = q.attempts + 1 ∧ (getPort t port.val).delayNs = r.delayNs ∧
        t.sent = s.sent ++
          (fragments 0 (identMessage (getPort t port.val).nonce (ownKey s) port.val)).map (Out.linkWord port)) ∧
      (500 < r.delayNs → newlyRetired q.fibres lit.fibres = [] → Answers (.portBringup port r) s fun t =>
        (getPort t port.val).phase = .down ∧ linkOf s port ∈ t.fabric.down ∧
        (SMap.get Event.none t.status.events (s.status.eventCount.toNat % 32)).code = 0x0400)) ∧
    (q.phase = .laser →
      (q.attempts < 2 → Answers (.bringupPhaseTimeout port .laser) s fun t =>
        t = { s with fabric := { s.fabric with ports := t.fabric.ports } } ∧
        getPort t port.val = { q with attempts := q.attempts + 1 }) ∧
      (2 ≤ q.attempts → Answers (.bringupPhaseTimeout port .laser) s fun t =>
        (getPort t port.val).phase = .down ∧ linkOf s port ∈ t.fabric.down ∧
        (SMap.get Event.none t.status.events (s.status.eventCount.toNat % 32)).code = 0x0402)) ∧
    (q.phase = .identity →
      let kept : Port := { q with identIn := SMap.put q.identIn x.index.val x.part }
      (peerHello kept = none → Answers (.ident port x) s fun t =>
        t = { s with fabric := { s.fabric with ports := t.fabric.ports } } ∧ getPort t port.val = kept ∧ others t) ∧
      (∀ nonce key peer, peerHello kept = some (nonce, key, peer) →
        (peerSignature kept = none → Answers (.ident port x) s fun t =>
          getPort t port.val = { kept with signed := true } ∧ others t ∧ t.status = s.status) ∧
        (∀ sig, peerSignature kept = some sig →
          let good := keyDigest key = siteNeighbour s.site port.val ∧ peer = port.val ^^^ 1 ∧
            ecdsaVerify key (identMessage q.nonce key peer) sig = true
          (good → allGranted q = false → Answers (.ident port x) s fun t =>
            getPort t port.val = { kept with signed := true, phase := .credits } ∧ others t ∧ t.status = s.status ∧
            ∃ signature, t.sent = s.sent ++ signature ++
              [.linkWord port (.credit (initialGrants.take 4)), .linkWord port (.credit (initialGrants.drop 4))]) ∧
          (good → allGranted q = true → Answers (.ident port x) s up) ∧
          (¬ good → Answers (.ident port x) s fun t =>
            (getPort t port.val).phase = .refused ∧ linkOf s port ∈ t.fabric.down ∧
            (SMap.get Event.none t.status.events (s.status.eventCount.toNat % 32)).code = 0x0403 ∧ others t)))) ∧
    (q.phase = .credits → allGranted { q with granted := q.granted ++ (gs.take 4).map fun g => (g.cls, g.vc1) } = true →
      Answers (.credit port gs) s up)

/-- R289, R290, R292. `gatherMembers` lists the members in the order of concatenation, `gatherOfCmd` what the command names;
`goesOn` is what leaves by the ports of the rings. -/
def Obligations.GathersConcatenate : Prop :=
  ∀ (s : State) (g c : GatherCmd) (ps : List Piece) (p : Piece) (k root : Nat) (op : U32) (addr : Loc) (bytes : List Byte),
    let goesOn (ring : Bool) (o : U32) (x : Piece) : List Out :=
      match onward s (gatherDims s ring) (pieceSource s ring x.index) with
      | [] => []
      | ports => [.piece ports o x]
    let whole (t : State) (outs : List Out) : Prop :=
      t = { s with hbm := { s.hbm with dev := t.hbm.dev, poison := t.hbm.poison },
                   cores := { s.cores with scratch := t.cores.scratch }, coll := { s.coll with gathers := t.coll.gathers },
                   ended := t.ended, sent := s.sent ++ outs }
    let written (t : State) (d : Loc) (off : Nat) (bs : List Byte) : Prop :=
      locRead t d off bs.length = bs ∧
      ∀ (l : Loc) n, spanFault s l n = none →
        l.space ≠ d.space ∨ l.addr + n ≤ d.addr + off ∨ d.addr + off + bs.length ≤ l.addr → locRead t l 0 n = locRead s l 0 n
    let mine : Piece := ⟨s.L, locRead s g.mine 0 (nthD 0 g.lens s.L), none⟩
    (acts s g.op = true → g.ring = false → gatherFault s g = none → g.grad = none → g.issue = true → s.L < s.rinkSize →
      (s.coll.gathers.find? fun x => x.op == g.op) = none → sourceWaits s g.op g.mine (nthD 0 g.lens s.L) = false →
      ps.map Piece.index = upFrom 0 s.rinkSize → g.lens = ps.map (fun x => x.bytes.length) → mine ∈ ps →
      (∀ x ∈ ps, x.presence = none) → List.Perm g.others (ps.filter fun x => x.index != s.L) →
      (g.mine.space ≠ g.dest.space ∨ g.mine.addr + mine.bytes.length ≤ g.dest.addr ∨
        g.dest.addr + g.lens.sum ≤ g.mine.addr ∨ g.mine.addr = g.dest.addr + (g.lens.take s.L).sum) →
      Answers (.allGather g) s fun t =>
        whole t ((g.others.map (goesOn false g.op)).flatten ++ goesOn false g.op mine) ∧
        written t g.dest 0 (ps.map Piece.bytes).flatten ∧ (∀ i, i < s.rinkSize → hasPiece t g.op i = true) ∧
        SMap.get 0 t.ended g.op.toNat = SMap.get 0 s.ended g.op.toNat + 1) ∧
    (acts s g.op = true → gatherOfCmd s { g with issue := false, others := [p] } = some c → gatherFault s c = none →
      gatherRank s c.ring p.index = some k → p.index ≠ gatherSelf s c.ring → hasPiece s c.op p.index = false →
      p.bytes.length = nthD 0 c.lens k → p.presence = none →
      Answers (.allGather { g with issue := false, others := [p] }) s fun t =>
        whole t (goesOn c.ring c.op p) ∧ written t c.dest (c.lens.take k).sum p.bytes ∧ hasPiece t c.op p.index = true) ∧
    (acts s g.op = true → g.ring = false → gatherFault s g = none → g.issue = true → g.others = [] →
      sourceWaits s g.op g.mine (nthD 0 g.lens ((gatherRank s false s.L).getD 0)) = true → Waits (.allGather g) s) ∧
    (∀ r, g.ring = false → gatherFault s g = some r → exec (.allGather g) s = .refused (.refusedAtBuild r)) ∧
    (acts s op = true → root < s.rinkSize → hasPiece s op root = false →
      (root = s.L → deliveryFault s false addr bytes.length = none → sourceWaits s op addr bytes.length = false →
        Answers (.broadcast op root addr bytes.length []) s fun t =>
          t = { s with coll := { s.coll with gathers := t.coll.gathers }, ended := t.ended,
                       sent := s.sent ++ goesOn false op ⟨root, locRead s addr 0 bytes.length, none⟩ } ∧
          hasPiece t op root = true) ∧
      (root ≠ s.L → deliveryFault s true addr bytes.length = none →
        Answers (.broadcast op root addr bytes.length bytes) s fun t =>
          whole t (goesOn false op ⟨root, bytes, none⟩) ∧ written t addr 0 bytes ∧ hasPiece t op root = true))

/-- R250: the order of application is the list's. `vals j` is what source j contributes, if anything. -/
def Obligations.SumsRunInContributorOrder : Prop :=
  ∀ (s : State) (d : ReduceDecl) (r : MsuRun) (base w : Nat) (list : List Nat) (vals : Nat → Option (List U32)),
    acts s d.op = true → reduceFault s d = none → d.ranges = [⟨base, 32⟩] → d.lists = [list] → d.red = .sum →
    d.contrib = .fp32 → d.dest = .fp32 → d.gradient = none → d.unordered = false → d.replica = false →
    findRun s d.op = some r → r.decl = d → r.written = [] → r.opened = [] → poisoned s base 32 = false →
    (∀ j v, vals j = some v → v.length = 8) →
    (∀ a, counterAddr s d.op = some a → a + 16 ≤ base ∨ base + 32 ≤ a) →
    let counts (closes : List (Nat × Close)) (j : Nat) : List Nat :=
      (closes.filter fun c => c.1 == j).map fun c => c.2.count
    let full (segs : List Segment) (closes : List (Nat × Close)) : Prop := ∀ j ∈ list,
      match vals j with
      | some v => segs.filter (fun g => g.source == j) = [⟨j, 0, base, v⟩]
      | none => segs.filter (fun g => g.source == j) = [] ∧ counts closes j = [0]
    let summed (t : State) : Prop :=
      (∀ i, i < 8 → devNat t (base + 4 * i) 4 =
        (list.foldl (fun acc j => match vals j with
          | some v => add32 acc (v.getD i 0)
          | none => acc) (BitVec.ofNat 32 (devNat s (base + 4 * i) 4))).toNat) ∧
      (∀ b n, (b + n ≤ base ∨ base + 32 ≤ b) → (∀ a, counterAddr s d.op = some a → b + n ≤ a ∨ a + 16 ≤ b) →
        devRead t b n = devRead s b n) ∧
      t.job = s.job ∧ t.cores = s.cores ∧ t.sent = s.sent ∧ runComplete t d.op = true
    (∀ j v, j ∈ list → vals j = some v → (r.segs.filter fun g => g.source == j) = [] → counts r.closes j = [] →
      full (r.segs ++ [⟨j, 0, base, v⟩]) r.closes → Answers (.segmentArrive d ⟨j, 0, base, v⟩) s summed) ∧
    (∀ j, j ∈ list → vals j = none → (r.segs.filter fun g => g.source == j) = [] → counts r.closes j = [] →
      full r.segs (r.closes ++ [(j, ⟨0, w⟩)]) → Answers (.closeArrive d j ⟨0, w⟩) s summed) ∧
    (∀ g : Segment, segmentFault s d g = none →
      (g.source ∉ list ∨ (∃ x ∈ r.segs, x.source = g.source ∧ x.seq = g.seq) →
        Answers (.segmentArrive d g) s fun t => Ends 0x0303 s t ∧ t.hbm = s.hbm) ∧
      (g.source ∈ list → (∀ x ∈ r.segs, x.source ≠ g.source) → (∀ c ∈ r.closes, c.1 ≠ g.source) →
        g.vals ≠ [] → g.addr + 32 ≤ base ∨ base + 32 ≤ g.addr →
        Answers (.segmentArrive d g) s fun t => Ends 0x0304 s t ∧ t.hbm = s.hbm))

/-- R289, R290, R292. `scatterOut` is what goes to another module, `scatterSegs` this module's contribution to its own
piece. -/
def Obligations.ReduceScatterIsItsArrivals : Prop :=
  ∀ (s : State) (r : ScatterCmd),
    let arrivals (c : Contribution) : List Instr :=
      (c.segs.map fun g => Instr.segmentArrive r.decl g) ++ [.closeArrive r.decl c.source ⟨c.segs.length, 0⟩]
    let arrive (u : State) (i : Instr) : State := match exec i u with
      | .next v => v
      | _ => u
    let taken := ((r.others.map arrivals).flatten).foldl arrive s
    let own : Contribution := ⟨s.M, scatterSegs taken r s.L 0 0 r.decl.ranges⟩
    let out := (((upFrom 0 s.rinkSize).filter fun l => l != s.L).map (scatterOut taken r)).flatten
    let whole := (arrivals own).foldl arrive { taken with
      sent := taken.sent ++ out, coll := { taken.coll with scattered := taken.coll.scattered ++ [r.decl.op] } }
    (scatterFault s r = none → acts s r.decl.op = true → r.decl.op ∉ s.coll.scattered →
      (scatterWaits s r = true → Waits (.reduceScatter r) s) ∧
      (scatterWaits s r = false → (∀ c ∈ own :: r.others, ∀ g ∈ c.segs, segmentFault s r.decl g = none) →
        exec (.reduceScatter r) s = .next whole ∧
        (allReduceFault s r = none → inStep whole = true → runComplete whole r.decl.op = false →
          sumWaiting whole r.decl.op = false →
          exec (.allReduce r []) s = .next (stall (.allReduce { r with others := [] } []) whole)))) ∧
    (∀ k, scatterFault s r = some k → exec (.reduceScatter r) s = .refused (.refusedAtBuild k) ∧
      ∀ sums, exec (.allReduce r sums) s = .refused (.refusedAtBuild k)) ∧
    (∀ (p : Piece) (g : Range) (run : MsuRun), allReduceFault s r = none → acts s r.decl.op = true →
      r.decl.op ∈ s.coll.scattered → r.others = [] → findRun s r.decl.op = some run → run.complete = true →
      s.rinkSize = 2 → s.L < 2 → r.decl.ranges = [g] → r.decl.gradient = none →
      p.presence = none → p.index = 1 - s.L → p.bytes.length = g.len → (s.coll.gathers.find? fun x => x.op == r.decl.op) = none →
      let a := pieceBase s r p.index g
      a + g.len ≤ g.base ∨ g.base + g.len ≤ a →
      let goesOn (x : Piece) : List Out :=
        match onward s (gatherDims s false) (s.coordOf x.index) with
        | [] => []
        | ports => [.piece ports r.decl.op x]
      Answers (.allReduce r [p]) s fun t =>
        t = { s with hbm := { s.hbm with dev := t.hbm.dev, poison := t.hbm.poison },
                     coll := { s.coll with gathers := t.coll.gathers }, ended := t.ended,
                     sent := s.sent ++ goesOn p ++ goesOn ⟨s.L, devRead s g.base g.len, none⟩ } ∧
        SMap.get 0 t.ended r.decl.op.toNat = SMap.get 0 s.ended r.decl.op.toNat + 1 ∧
        devRead t a g.len = p.bytes ∧
        ∀ b n, b + n ≤ a ∨ a + g.len ≤ b → devRead t b n = devRead s b n)

/-- R291, R293. A rink's root is its marshal, the machine's its time root. -/
def Obligations.BarriersReleaseAtOneTime : Prop :=
  ∀ (s : State) (op : U32) (machine : Bool) (release : U64),
    (acts s op = true → op ∉ s.coll.entered → exec (.barrier op) s = .next { s with
      coll := { s.coll with entered := s.coll.entered ++ [op] }
      sent := s.sent ++ [.send (.barrierEnter op)] }) ∧
    (op ∈ s.coll.entered → exec (.barrier op) s = .next s) ∧
    (op ∈ s.coll.entered → Answers (.barrierRelease op machine release) s fun t =>
      let root := if machine then s.time.root else s.recovery.marshal
      let time := if root then s.time.value else release
      t = { s with
        coll := { s.coll with
          entered := t.coll.entered, released := t.coll.released, tr := t.coll.tr, deadline := t.coll.deadline
          snapshot := t.coll.snapshot, snapshotAt := t.coll.snapshotAt }
        ended := t.ended
        job := t.job
        sent := s.sent ++ if root then [.send (.barrierRelease op time)] else [] } ∧
      op ∉ t.coll.entered ∧ (∀ o, o ≠ op → (o ∈ t.coll.entered ↔ o ∈ s.coll.entered)) ∧
      SMap.get 0 t.coll.released op.toNat = time ∧
      SMap.get 0 t.ended op.toNat = SMap.get 0 s.ended op.toNat + 1 ∧
      (∀ j, s.job = some j → t.job = some
        (if j.phase = .atCut ∧ op.toNat = Desc.cutOp j.desc then { j with phase := .dumping } else j)) ∧
      (s.job = none → t.job = none) ∧
      (bufferOf s op = none → t.coll.tr = s.coll.tr ∧ t.coll.deadline = s.coll.deadline) ∧
      (op = noOp → t.coll.snapshot = s.coll.snapshotAt ∧ t.coll.snapshotAt = none) ∧
      (op ≠ noOp → t.coll.snapshot = s.coll.snapshot ∧ t.coll.snapshotAt = s.coll.snapshotAt)) ∧
    (hasCommitted s = true → s.recovery.refreshing = false → s.recovery.unacked = [] → s.coll.snapshotAt = none →
      s.coll.snapshot ≠ some s.status.committed → exec .consistentSnapshot s = .next { s with
        coll := { s.coll with snapshotAt := some s.status.committed, entered := s.coll.entered ++ [noOp] }
        sent := s.sent ++ [.send (.barrierEnter noOp)] }) ∧
    (s.recovery.refreshing = true ∨ s.recovery.unacked ≠ [] → exec .consistentSnapshot s = .next s)

/-- R298 to R300, R302, R304, R306. Rink votes are kept under 32 * voter + rink: 1 for a 0 vote, 2 for a 1 vote. -/
def Obligations.InclusionFollowsTheVotes : Prop :=
  ∀ (s : State) (j : Job) (op : U32) (voter rink : Nat) (one machine : Bool) (release : U64) (others : List Bool),
    s.job = some j →
    let members := rinksOf s.coll.active
    (∀ b, bufferOf s op = some b → op ∈ s.coll.entered → s.coll.tr = none →
      Answers (.barrierRelease op machine release) s fun t =>
        let time := if (if machine then s.time.root else s.recovery.marshal) then s.time.value else release
        t.coll.tr = some time ∧ t.coll.deadline = if Desc.replayMode j.desc then none
          else (cutoffOf s j).map fun us => time + BitVec.ofNat 64 (1000 * us)) ∧
    (∀ i b, j.image.replica[i]? = some b → acts s op = true → siteSeveral s.site = true →
      i ∉ s.coll.sentBufs → bitAt s.coll.active s.rink = true →
      (contributionWaits s j op b = true → Waits (.replicaReduction op i) s) ∧
      (contributionWaits s j op b = false → fate s s.rink ≠ .excluded → Answers (.replicaReduction op i) s fun t =>
        i ∈ t.coll.sentBufs ∧
        ∀ r ∈ members, r ≠ s.rink → ∃ n, Out.close (counterpart s r) op s.M ⟨n, ownWeight s b⟩ ∈ t.sent)) ∧
    (voting s j = true → bitAt s.coll.active s.rink = true → SMap.get 0 s.coll.mine s.rink = 0 →
      SMap.get 0 s.coll.votes (32 * s.rink + s.rink) = 0 → others.length + 1 = s.rinkSize →
      Answers (.vote s.rink others) s fun t =>
        SMap.get 0 t.coll.mine s.rink = 2 ∧ Out.send (.vote s.rink true) ∈ t.sent ∧
        Out.send (.rinkVote s.rink (others.all id)) ∈ t.sent ∧
        SMap.get 0 t.coll.votes (32 * s.rink + s.rink) = if others.all id then 2 else 1) ∧
    (voting s j = true → ∀ d, s.coll.deadline = some d → d.toNat ≤ s.time.value.toNat →
      Answers .cutoffDeadline s fun t =>
        t = { s with coll := { s.coll with mine := t.coll.mine }, sent := t.sent } ∧
        ∀ r ∈ members, SMap.get 0 t.coll.mine r =
          if SMap.get 0 s.coll.mine r ≠ 0 then SMap.get 0 s.coll.mine r
          else if r = s.rink ∨ (s.coll.arrivals.any fun e => e.1 == r && decide (e.2.toNat ≤ d.toNat)) = true then 2
          else 1) ∧
    (let votes := SMap.put s.coll.votes (32 * voter + rink) (if one then 2 else 1)
     voting s j = true → bitAt s.coll.active voter = true → bitAt s.coll.active rink = true →
     SMap.get 0 s.coll.votes (32 * voter + rink) = 0 → s.coll.included = none →
     (∀ r ∈ members, (∃ v ∈ members, SMap.get 0 votes (32 * v + r) = 1) ∨
       ∀ v ∈ members, SMap.get 0 votes (32 * v + r) = 2) →
     Answers (.rinkVoteReceive voter rink one) s fun t => ∃ i : U32,
       t.coll.included = some i ∧ t.status.included = i ∧ t.status.active = s.coll.active ∧
       t.status.inclStep = s.status.step ∧
       ∀ r, bitAt i r = (bitAt s.coll.active r && members.all fun v => SMap.get 0 votes (32 * v + r) == 2)) ∧
    (siteSeveral s.site = true → bitAt s.coll.active rink = true → rink < 32 →
      (j.phase = .inStep → s.coll.included = none → Answers (.leaveNotice rink) s fun t =>
        t.job = some { j with phase := .aborted } ∧
        ∀ r, r < 32 → bitAt t.coll.active r = (bitAt s.coll.active r && decide (r ≠ rink))) ∧
      (s.coll.included ≠ none → Answers (.leaveNotice rink) s fun t =>
        t = { s with coll := { s.coll with leaves := t.coll.leaves } } ∧ rink ∈ t.coll.leaves))

/-- R322, R326, R327. -/
def Obligations.RinksRejoinAndReplicasAgree : Prop :=
  ∀ (s : State) (j : Job) (rink : Nat) (step : U64) (pages : List PageIn) (r0 r1 : ReplicaRecord), s.job = some j →
    (siteSeveral s.site = true → rink < 32 →
      (Answers (.rejoinRequest rink (some step)) s fun t =>
        t = { s with coll := { s.coll with joins := t.coll.joins } } ∧ (rink, step) ∈ t.coll.joins) ∧
      (rink ≠ s.rink → s.recovery.marshal = true → lowestRink s = some s.rink → bitAt s.coll.active rink = false →
        s.recovery.left = false → Answers (.rejoinRequest rink none) s fun t =>
          t = { s with coll := { s.coll with joins := t.coll.joins },
                       sent := s.sent ++ [.send (.rejoinStep rink (s.status.step + 2))] } ∧
          (rink, s.status.step + 2) ∈ t.coll.joins) ∧
      (s.recovery.marshal = true → s.recovery.left = true → s.recovery.awaited = [] → s.rink < 32 →
        exec (.rejoinRequest s.rink none) s =
          .next { s with sent := s.sent ++ [.send (.rejoinRequest s.rink)] })) ∧
    (s.recovery.left = true → s.recovery.awaited = [] → j.phase ≠ .halted → (s.rink, step) ∈ s.coll.joins →
      wholeState pages s = true → (∀ p ∈ pages, p.bytes.length = 65536) → j.image.replica = [] →
      Answers (.rejoinStateTransfer step pages) s fun t =>
        (∀ e ∈ jobPages s, ∀ p, restoredIn pages e.1 = some p → devRead t (65536 * e.2) 65536 = p.bytes) ∧
        t.hbm.commitWord = step - 1 ∧ t.status.step = step ∧ t.status.committed = step - 1 ∧
        t.job = some { j with phase := .boundary, replays := 0 } ∧ t.recovery.left = false ∧
        (∀ e ∈ jobPages s, e.2 ∈ t.recovery.unacked) ∧
        t.status.eventCount = s.status.eventCount + BitVec.ofNat 32 (jobPages s).length + 1) ∧
    (let mine := (replicaValue s s.recovery.refreshStep).toNat
     let v (r : ReplicaRecord) := field r.record 95 64
     s.recovery.refreshing = true → s.recovery.replicaOk = false →
     recordFits s.recovery.refreshStep r0.record = true → recordFits s.recovery.refreshStep r1.record = true →
     (∀ rs, rs.length + 1 = (members s).length →
       (∀ r ∈ rs, recordFits s.recovery.refreshStep r.record = true ∧ v r = mine) →
       exec (.replicaCheckRecord rs pages) s = .next { s with recovery := { s.recovery with replicaOk := true } }) ∧
     ((members s).length = 2 → v r0 ≠ mine → j.phase ≠ .halted → Answers (.replicaCheckRecord [r0] pages) s fun t =>
       t.job = some { j with phase := .halted, stop := 0x0505 } ∧ t.status.status = 0x0505 ∧ t.hbm = s.hbm) ∧
     ((members s).length = 3 → v r0 ≠ mine → v r1 = v r0 → Answers (.replicaCheckRecord [r0, r1] pages) s fun t =>
       t.recovery.replicaOk = decide ((replicaValue t s.recovery.refreshStep).toNat = v r0) ∧ t.job = some j ∧
       t.status.counts = { s.status.counts with
         replicaRepairs := satInc s.status.counts.replicaRepairs 1 } ∧
       t.status.eventCount = s.status.eventCount + 1 ∧
       ∀ p ∈ pages, pages = [p] → p.bytes.length = 65536 → devRead t (65536 * p.index) 65536 = p.bytes))

/-- R317, R319, R320, R321, R328, R374. -/
def Obligations.LossPausesTheRink : Prop :=
  ∀ (s : State) (j : Job) (lost : List Coord) (found : List Loss) (code : U16), s.job = some j →
    let fresh := lost.filter fun c => !s.recovery.lost.contains c
    let new := fresh.filter fun c => !s.recovery.adopted.contains c || portsDown s c
    let all := s.recovery.lost ++ new
    let gone := (found.filter (isLost s)).map Loss.at'
    let halts (c : U16) (t : State) : Prop :=
      (∃ k, t.job = some k ∧ k.phase = .halted ∧ k.stop = c ∧ k.desc = j.desc) ∧ t.status.status = c ∧
      t.mgt.state = .halted ∧ bitAt t.mgt.intStatus 3 = true ∧ t.hbm = s.hbm
    let noticed (c : U16) (t : State) : Prop :=
      Ends c s t ∧ t.status.eventCount = s.status.eventCount ∧ t.sent.take s.sent.length = s.sent ∧ t.hbm = s.hbm ∧
      (refreshRuns s = false → bitAt t.mgt.intStatus 1 = true ∧ t.ring.consumer = s.ring.consumer + 1)
    (isHalt code = false → code ≠ 0x0003 → Answers (.stopNotice code) s (noticed code)) ∧
    Answers (.stopNotice 0x0003) s (noticed (match j.phase with
      | .halted => j.stop
      | .held => 0x0004
      | _ => 0x0003)) ∧
    (isHalt code = true → j.phase ≠ .halted → Answers (.stopNotice code) s (halts code)) ∧
    (isHalt code = true → j.phase = .halted → exec (.stopNotice code) s = .next s) ∧
    (∀ l ∈ found, l.cause = .ports → isLost s l = true → ∀ k ∈ moduleLinks s l.at', k ∈ s.fabric.down) ∧
    (s.recovery.marshal = true → gone ≠ [] →
      exec (.moduleLost found) s = exec (.pause gone) { s with sent := s.sent ++ [.send (.pause gone)] }) ∧
    (s.recovery.marshal = false ∨ gone = [] → exec (.moduleLost found) s = .next s) ∧
    (lost = [] ∨ (s.recovery.paused = true ∧ fresh = []) ∨ j.phase = .halted → exec (.pause lost) s = .next s) ∧
    (lost ≠ [] → s.recovery.paused = false ∨ fresh ≠ [] → j.phase ≠ .halted →
      (all ≠ [] → j.image.heldWritten ≠ [] → Answers (.pause lost) s (halts 0x0502)) ∧
      (j.image.heldWritten = [] → (∃ c ∈ all, tandemOf s c ∈ all) → Answers (.pause lost) s (halts 0x0503)) ∧
      (all ≠ [] → j.image.heldWritten = [] → (∀ c ∈ all, tandemOf s c ∉ all) → rosterEmpty s = true →
        Answers (.pause lost) s (halts 0x0507)) ∧
      (j.image.heldWritten = [] → (∀ c ∈ all, tandemOf s c ∉ all) → rosterEmpty s = false →
        Answers (.pause lost) s fun t =>
          t.recovery.paused = true ∧ t.recovery.lost = all ∧ t.recovery.awaited = s.recovery.awaited ++ new ∧
          t.status.paused = true ∧ t.status.eventCount = s.status.eventCount + BitVec.ofNat 32 new.length ∧
          t.hbm = s.hbm ∧
          (j.phase = .inStep ∨ j.phase = .atCut ∨ j.phase = .dumping → t.job = some { j with phase := .aborted }) ∧
          (j.phase = .boundary ∨ j.phase = .settling ∨ j.phase = .held ∨ j.phase = .refreshing → t.job = some j) ∧
          bitAt t.mgt.intStatus 5 = (bitAt s.mgt.intStatus 5 || s.recovery.marshal) ∧
          (siteSeveral s.site = true → s.recovery.left = false →
            Out.send (.leave s.rink) ∈ t.sent ∧ s.rink ∈ t.coll.leaves ∧ t.recovery.left = true))) ∧
    (s.recovery.awaited ≠ [] → j.phase ≠ .halted → Answers .recoveryWaitExpiry s (halts 0x0507)) ∧
    (s.recovery.awaited = [] ∨ j.phase = .halted → exec .recoveryWaitExpiry s = .next s)

/-- R317, R318, R307, R323 to R325. -/
def Obligations.AdoptionAndLeadership : Prop :=
  ∀ (s : State) (a : AdoptIn) (plusX minusX : Bool) (own : List PageIn) (k : PageIn) (index us : Nat),
    let reports (t : State) (code : U16) : Prop :=
      t.status.eventCount = s.status.eventCount + 1 ∧
      (SMap.get Event.none t.status.events (s.status.eventCount.toNat % 32)).code = code ∧
      (SMap.get Event.none t.status.events (s.status.eventCount.toNat % 32)).loc = moduleWhere a.position
    let only (t : State) : Prop := t = { s with status := t.status, hostMem := t.hostMem, recovery := t.recovery }
    (∀ j, s.job = some j →
      (a.standby = false → a.position ∈ s.recovery.awaited → j.phase ≠ .halted → inRoster s a.identity = true →
        a.others.length + 1 = s.rinkSize → barrierCode j a.others = none → Answers (.adoptionJoin a) s fun t => only t ∧ reports t 0x080C ∧
          t.recovery = { s.recovery with
            awaited := t.recovery.awaited, adopted := s.recovery.adopted ++ [a.position] } ∧
          (∀ c, c ∈ t.recovery.awaited ↔ c ∈ s.recovery.awaited ∧ c ≠ a.position) ∧
          t.status.counts = { s.status.counts with adoptions := satInc s.status.counts.adoptions 1 }) ∧
      ((a.standby = false ∧ a.position ∈ s.recovery.awaited ∧ j.phase ≠ .halted) ∨
          (a.standby = true ∧ j.phase = .barrier) →
        (inRoster s a.identity = false →
          Answers (.adoptionJoin a) s fun t => only t ∧ reports t 0x0501 ∧ t.recovery = s.recovery) ∧
        (∀ c, inRoster s a.identity = true → a.others.length + 1 = s.rinkSize → barrierCode j a.others = some c →
          Answers (.adoptionJoin a) s fun t => t.job = none ∧ t.status.status = c)) ∧
      (a.standby = true → j.phase = .barrier → inRoster s a.identity = true → a.others.length + 1 = s.rinkSize →
        barrierCode j a.others = none →
        Answers (.adoptionJoin a) s fun t =>
          t.job = some { j with phase := .aborted } ∧ t.time.value = a.time ∧ t.time.set = true ∧
          t.status.step = a.step ∧ t.status.committed = a.step - 1 ∧ t.hbm.commitWord = a.step - 1 ∧
          t.gatehouse.rebuilding = true ∧ t.gatehouse.fromPage = true ∧ t.recovery.joined = true ∧
          t.recovery.paused = true ∧ t.recovery.marshal = false ∧ bitAt t.mgt.intStatus 0 = true)) ∧
    (s.recovery.paused = true → s.recovery.restoring = false → s.recovery.awaited = [] → s.recovery.kept = [] →
      (∀ j, s.job = some j → j.phase ≠ .halted) →
      let resumed (t : State) : Prop :=
        t.recovery.paused = false ∧ t.recovery.lost = [] ∧ t.status.paused = false ∧ t.job = s.job
      (siteSeveral s.site = false → Answers (.tandemRestore (.live plusX minusX)) s fun t =>
        t.hbm = s.hbm ∧ t.job = s.job ∧
        t.sent = s.sent ++ (if plusX then (jobPages s).map fun e => .restorePage (keptPage s e.1) else []) ++
          (if minusX then (jobPages s).map fun e => .tandemPage (pageOut s e.1 e.2) else []) ∧
        (s.recovery.unacked = [] → jobPages s = [] ∨ (plusX = false ∧ minusX = false) → resumed t) ∧
        (s.recovery.unacked ≠ [] ∨ (jobPages s ≠ [] ∧ (plusX = true ∨ minusX = true)) →
          t.recovery.paused = true ∧ t.recovery.restoring = true)) ∧
      (∀ page, Answers (.tandemPageAck ⟨page, true⟩)
        { s with recovery := { s.recovery with restoring := true, kept := [page], unacked := [] } } resumed) ∧
      (siteSeveral s.site = false → wholeState own s = true → (∀ p ∈ own, p.bytes.length = 65536) →
        k.bytes.length = 65536 → SMap.wf 0 s.hbm.stamps = true → SMap.wf 0 s.hbm.tandemStamps = true →
        Answers (.tandemRestore (.standby own [k])) s fun t =>
          resumed t ∧ t.sent = s.sent ++ (own.map fun p => .restoreAck p.index) ++ [.tandemAck k.index] ∧
          t.status.eventCount = s.status.eventCount + BitVec.ofNat 32 (jobPages s).length ∧
          Mem.read 0 t.hbm.tandem (65536 * k.index) 65536 = k.bytes ∧
          SMap.get 0 t.hbm.tandemStamps k.index = k.stamp ∧
          ∀ e ∈ jobPages s, ∀ p, restoredIn own e.1 = some p →
            devRead t (65536 * e.2) 65536 = p.bytes ∧ SMap.get 0 t.hbm.stamps e.2 = p.stamp) ∧
      (siteSeveral s.site = true → ∀ role, exec (.tandemRestore role) s = .next s)) ∧
    (index < s.L → exec (.marshalBeat index) s =
      .next { s with recovery := { s.recovery with heard := some index, marshal := false } }) ∧
    (s.recovery.marshal = true → exec (.marshalBeat s.L) s =
      .next { s with sent := s.sent ++ [.send (.marshalBeat s.L)] }) ∧
    (s.L < index ∨ (index = s.L ∧ s.recovery.marshal = false) → exec (.marshalBeat index) s = .next s) ∧
    (s.recovery.marshal = false → s.recovery.heard.getD 0 < s.L →
      (50 * (s.L - s.recovery.heard.getD 0) ≤ us →
        let leads : State := { s with
          recovery := { s.recovery with marshal := true }, sent := s.sent ++ [.send (.marshalBeat s.L)] }
        let underway := s.recovery.lost ++ s.recovery.adopted.filter fun c => !s.recovery.lost.contains c
        (underway = [] ∨ jobHalted s = true → exec (.marshalPromotion us) s = .next leads) ∧
        (underway ≠ [] → jobHalted s = false → exec (.marshalPromotion us) s =
          exec (.pause underway) { leads with sent := leads.sent ++ [.send (.pause underway)] })) ∧
      (us < 50 * (s.L - s.recovery.heard.getD 0) → exec (.marshalPromotion us) s = .next s)) ∧
    (5 ≤ us → s.controllers.aAlive = true → exec (.controllerBTakeover us) s =
      .next { s with controllers := { s.controllers with aAlive := false, bActs := true } }) ∧
    (us < 5 → exec (.controllerBTakeover us) s = .next s)

/-- R257 to R263. `tileParams` is the rule of R260 over a tile. -/
def Obligations.UpdateSweepsInThreePhases : Prop :=
  ∀ (s : State) (u : UpdateCmd) (row : ImmRow) (w : Sweep) (unit : StackId) (op : U32) (p : SweepPage),
    (∀ k, updateFault s u = some k → exec (.updateOperation u) s = .refused (.refusedAtBuild k)) ∧
    (updateFault s u = none → acts s u.op = true → findSweep s u.op = none →
      (immRow s u.op = none → Answers (.updateOperation u) s fun t =>
        Ends 0x0305 s t ∧ t.hbm = s.hbm) ∧
      (immRow s u.op = some row → rowOk row = false → Answers (.updateOperation u) s fun t =>
        Ends 0x0306 s t ∧ t.hbm = s.hbm) ∧
      (immRow s u.op = some row → rowOk row = true → updateWaits s u = true ∨ divisorOf s u.grad = none →
        Waits (.updateOperation u) s) ∧
      (immRow s u.op = some row → rowOk row = true → updateWaits s u = false → divisorOf s u.grad = some 0 →
        Answers (.updateOperation u) s fun t =>
          t = { s with hbm := { s.hbm with dev := t.hbm.dev, poison := t.hbm.poison }, ended := t.ended } ∧
          SMap.get 0 t.ended u.op.toNat = SMap.get 0 s.ended u.op.toNat + 1 ∧
          (∀ i, i < u.tiles → presentBit t u.bitmap i = false) ∧
          ∀ b n, b + n ≤ u.bitmap ∨ u.bitmap + ceilDiv u.tiles 8 ≤ b → devRead t b n = devRead s b n) ∧
      (∀ n, immRow s u.op = some row → rowOk row = true → updateWaits s u = false → divisorOf s u.grad = some n → n ≠ 0 →
        Answers (.updateOperation u) s fun t => ∃ x : Sweep,
          t = { s with hbm := { s.hbm with stamps := t.hbm.stamps },
                       msu := { s.msu with sweeps := s.msu.sweeps ++ [x] },
                       sent := s.sent ++ x.announced.map fun k => .send (.opened u.op k) } ∧
          x.cmd = u ∧ x.row = row ∧ x.n = n ∧ x.signals = [] ∧ x.started = false ∧
          x.pages.map SweepPage.page = (sweepPages u (presentTiles s u)).map SweepPage.page ∧
          (∀ q ∈ x.pages, q.opened = !refreshHolds s q.page ∧
            (q.opened = true → SMap.get 0 t.hbm.stamps q.page = s.status.step ||| 0x8000000000000000)) ∧
          ∀ k, k ∈ x.announced ↔ k < 12 ∧ ∀ q ∈ x.pages, q.page % 12 = k → q.opened = true)) ∧
    (findSweep s op = some w → w.cmd.op = op → inStep s = true →
      (unit.val ∉ w.announced ∨ unit.val ∈ w.signals → exec (.openedSignal op unit) s = .next s) ∧
      (unit.val ∈ w.announced → unit.val ∉ w.signals → w.signals.length < 11 → Answers (.openedSignal op unit) s fun t =>
        t = { s with msu := { s.msu with sweeps := t.msu.sweeps } } ∧
        findSweep t op = some { w with signals := w.signals ++ [unit.val], started := false }) ∧
      (unit.val ∈ w.announced → unit.val ∉ w.signals → w.signals.length = 11 → sweepPoisoned s w.cmd = true →
        Waits (.openedSignal op unit) s) ∧
      (∀ i, unit.val ∈ w.announced → unit.val ∉ w.signals → w.signals.length = 11 → presentTiles s w.cmd = [i] →
        sweepPoisoned s w.cmd = false →
        w.cmd.work.fmt = .bf16 → List.Pairwise (fun a b : Nat × Nat => a.1 + a.2 ≤ b.1 ∨ b.1 + b.2 ≤ a.1)
          ([(w.cmd.t + 4 * i, 4), (w.cmd.m + 4096 * i, 4096), (w.cmd.v + 4096 * i, 4096), (w.cmd.p + 4096 * i, 4096),
            (w.cmd.work.addr + 2048 * i, 2048), (w.cmd.bitmap + i / 8, 1)] ++
            (counterAddr s op).toList.map fun a => (a, 16)) →
        Answers (.openedSignal op unit) s fun t =>
          let c := nextCount (BitVec.ofNat 32 (devNat s (w.cmd.t + 4 * i) 4))
          let ps := tileParams s w.cmd w.row w.n i c
          devNat t (w.cmd.t + 4 * i) 4 = c.toNat ∧
          devRead t (w.cmd.m + 4096 * i) (4 * ps.length) = bytesOf32 (ps.map Param.m) ∧
          devRead t (w.cmd.v + 4096 * i) (4 * ps.length) = bytesOf32 (ps.map Param.v) ∧
          devRead t (w.cmd.p + 4096 * i) (4 * ps.length) = bytesOf32 (ps.map Param.p) ∧
          devRead t (w.cmd.work.addr + 2048 * i) (2 * ps.length) = (workBytes w.cmd.work (ps.map Param.p)).1 ∧
          presentBit t w.cmd.bitmap i = false ∧ t.job = s.job ∧ t.cores = s.cores ∧
          t.sent = s.sent ++ (w.pages.map fun q => q.units.map fun k => Out.send (.pageDone op q.page k)).flatten)) ∧
    (findSweep s op = some w → w.cmd.op = op → inStep s = true → w.started = true →
      w.pages.find? (fun q => q.page == p.page) = some p → unit.val ∈ p.units → unit.val ∉ p.done →
      SMap.wf 0 s.hbm.stamps = true →
      (p.done.length + 1 ≠ p.units.length → Answers (.pageDoneSignal op p.page unit) s fun t =>
        t = { s with msu := { s.msu with sweeps := t.msu.sweeps } }) ∧
      (p.done.length + 1 = p.units.length → Answers (.pageDoneSignal op p.page unit) s fun t =>
        t = { s with hbm := { s.hbm with stamps := t.hbm.stamps }, msu := t.msu, recovery := t.recovery, ended := t.ended } ∧
        SMap.get 0 t.hbm.stamps p.page = s.status.step ∧
        (∀ q, q ≠ p.page → SMap.get 0 t.hbm.stamps q = SMap.get 0 s.hbm.stamps q) ∧
        (siteSeveral s.site = true →
          SMap.get 0 t.msu.pageCrcs p.page = crc32c (devRead s (65536 * p.page) 65536))))

/-- R312, R313. -/
def Obligations.TandemKeepsCommittedPages : Prop :=
  ∀ (s : State) (step : U64) (p : PageIn) (n : Nat),
    let due := (jobPages s).filter fun e => refreshDue s e.2
    let finished (t : State) : Prop := ∃ j, s.job = some j ∧ t.job = none ∧ t.status.status = j.stop ∧
      t.mgt.state = (if s.time.running then .ready else .boot) ∧ t.hbm = s.hbm
    let waits (j : Job) : Prop := s.job = some j ∧ j.phase = .refreshing
    (s.recovery.refreshing = true → s.recovery.replicaOk = true →
      (due ≠ [] → Answers .tandemRefresh s fun t =>
        t = { s with recovery := { s.recovery with refreshing := false, unacked := t.recovery.unacked },
                     sent := s.sent ++ due.map fun e => .tandemPage (pageOut s e.1 e.2) } ∧
        ∀ q, q ∈ t.recovery.unacked ↔ q ∈ s.recovery.unacked ∨ q ∈ due.map Prod.snd) ∧
      (due = [] → s.recovery.unacked = [] →
        ((∃ j, waits j) → Answers .tandemRefresh s finished) ∧
        ((¬ ∃ j, waits j) → Answers .tandemRefresh s fun t =>
          t = { s with recovery := { s.recovery with refreshing := false }, banks := t.banks }))) ∧
    (s.recovery.refreshing = false ∨ s.recovery.replicaOk = false → exec .tandemRefresh s = .next s) ∧
    (p.bytes.length = 65536 → SMap.wf 0 s.hbm.tandemStamps = true →
      (s.hbm.serving = true →
        let only (t : State) : Prop :=
          t = { s with hbm := { s.hbm with tandem := t.hbm.tandem, tandemPoison := t.hbm.tandemPoison,
                                           tandemStamps := t.hbm.tandemStamps }, sent := t.sent } ∧
          (∀ b m, b + m ≤ 65536 * p.index ∨ 65536 * p.index + 65536 ≤ b →
            Mem.read 0 t.hbm.tandem b m = Mem.read 0 s.hbm.tandem b m) ∧
          ∀ q, q ≠ p.index → SMap.get 0 t.hbm.tandemStamps q = SMap.get 0 s.hbm.tandemStamps q
        (Answers (.tandemPageReceive step p none) s fun t => only t ∧
          Mem.read 0 t.hbm.tandem (65536 * p.index) 65536 = p.bytes ∧
          SMap.get 0 t.hbm.tandemStamps p.index = step ∧ t.sent = s.sent ++ [.tandemAck p.index]) ∧
        (n ≤ 65536 → Answers (.tandemPageReceive step p (some n)) s fun t => only t ∧
          Mem.read 0 t.hbm.tandem (65536 * p.index) n = p.bytes.take n ∧
          Mem.read 0 t.hbm.tandem (65536 * p.index + n) (65536 - n) =
            Mem.read 0 s.hbm.tandem (65536 * p.index + n) (65536 - n) ∧
          SMap.get 0 t.hbm.tandemStamps p.index = step ||| 0x8000000000000000 ∧ t.sent = s.sent)) ∧
      (s.hbm.serving = false → ∀ cut, exec (.tandemPageReceive step p cut) s = .next s)) ∧
    (∀ d, devicePage s p.index = some d →
      let ack : Instr := .tandemPageAck ⟨p.index, false⟩
      let rest := s.recovery.unacked.filter (· ≠ d)
      (d ∉ s.recovery.unacked → exec ack s = .next s) ∧
      (d ∈ s.recovery.unacked → s.msu.sweeps = [] → rest ≠ [] →
        let u : State := { s with recovery := { s.recovery with unacked := rest } }
        exec ack s = .next (settleReplica u) ∧ (inStep s = false ∨ siteSeveral s.site = false → exec ack s = .next u)) ∧
      (d ∈ s.recovery.unacked → s.msu.sweeps = [] → rest = [] → s.recovery.refreshing = false → (∃ j, waits j) →
        Answers ack s finished) ∧
      (∀ w q, d ∈ s.recovery.unacked → s.msu.sweeps = [w] → q ∈ w.pages → q.page = d → q.opened = false →
        s.recovery.refreshing = false → settleReplica (ackPage d s) = ackPage d s → Answers ack s fun t =>
          SMap.get 0 t.hbm.stamps d = s.status.step ||| 0x8000000000000000 ∧ t.hbm.dev = s.hbm.dev)) ∧
    (devicePage s p.index = none → exec (.tandemPageAck ⟨p.index, false⟩) s = .next s)

/-- R315, outside a replay of step 0 (assumption log 20 holds the pages of that step beside the table). -/
def Obligations.SettlingFollowsTheTable : Prop :=
  ∀ (s : State) (j : Job) (stamps : List (Nat × U64)) (copies : List PageIn), s.job = some j →
    let c := s.hbm.commitWord.toNat
    let committed (x : U64) : Prop := bitAt x 63 = false ∧ x.toNat ≤ c
    let act (e : Nat × Nat) : Settle := settleAct s e.2 (SMap.get 0 s.hbm.stamps e.2) (stampIn stamps e.1)
    (∀ page loc tan, page ∉ s.recovery.swept →
      (committed loc → tan = loc → settleAct s page loc tan = .keep) ∧
      (committed loc → bitAt tan 63 = true ∨ (bitAt tan 63 = false ∧ tan.toNat < loc.toNat) →
        settleAct s page loc tan = .refresh) ∧
      (¬ committed loc → committed tan → settleAct s page loc tan = .restore) ∧
      (¬ committed loc → ¬ committed tan → settleAct s page loc tan = .bad) ∧
      (committed loc → bitAt tan 63 = false → loc.toNat < tan.toNat → settleAct s page loc tan = .bad)) ∧
    (j.phase = .settling → s.recovery.settled = true → exec (.pageSettle stamps copies) s = .next s) ∧
    (∀ n d, j.phase = .settling → s.recovery.settled = true → devicePage s n = some d → s.recovery.unacked = [d] →
      Answers (.tandemPageAck ⟨n, false⟩) s fun t => t.job = some { j with phase := .boundary }) ∧
    (j.phase = .settling → s.recovery.paused = false → s.recovery.settled = false →
      ((∃ e ∈ jobPages s, act e = .bad) → Answers (.pageSettle stamps copies) s fun t =>
        t.job = some { j with phase := .halted, stop := 0x0504 } ∧ t.status.status = 0x0504 ∧ t.hbm = s.hbm) ∧
      ((∀ e ∈ jobPages s, act e ≠ .bad) → (∃ e ∈ jobPages s, act e = .restore ∧ restoredIn copies e.1 = none) →
        exec (.pageSettle stamps copies) s = .next s) ∧
      ((∀ e ∈ jobPages s, act e ≠ .bad) → (∀ e ∈ jobPages s, act e = .restore → restoredIn copies e.1 ≠ none) →
        (∀ p ∈ copies, p.bytes.length = 65536) → SMap.wf 0 s.hbm.stamps = true →
        Answers (.pageSettle stamps copies) s fun t =>
          (s.recovery.unacked = [] → (∀ e ∈ jobPages s, act e ≠ .refresh) → t.job = some { j with phase := .boundary }) ∧
          (s.recovery.unacked ≠ [] ∨ (∃ e ∈ jobPages s, act e = .refresh) → t.job = some j ∧ t.recovery.settled = true) ∧
          t.cores = s.cores ∧ t.hbm.commitWord = s.hbm.commitWord ∧
          t.status.eventCount =
            s.status.eventCount + BitVec.ofNat 32 ((jobPages s).filter fun e => decide (act e = .restore)).length ∧
          ∀ e ∈ jobPages s,
            (act e ≠ .restore → devRead t (65536 * e.2) 65536 = devRead s (65536 * e.2) 65536 ∧
              SMap.get 0 t.hbm.stamps e.2 = SMap.get 0 s.hbm.stamps e.2) ∧
            (act e = .refresh → e.2 ∈ t.recovery.unacked ∧ Out.tandemPage (pageOut s e.1 e.2) ∈ t.sent) ∧
            (∀ p, act e = .restore → restoredIn copies e.1 = some p →
              devRead t (65536 * e.2) 65536 = p.bytes ∧ SMap.get 0 t.hbm.stamps e.2 = stampIn stamps e.1)))

/-- R21, R97, R308, R428. The clause on a step's start leaves out replay mode, whose manifest entry has a statement of its
own. -/
def Obligations.StepsStartCommitAndReplay : Prop :=
  ∀ (s : State) (j : Job) (waitBp p q : Nat) (core : PhysCore) (pass : Bool), s.job = some j →
    let b := boundarySet s
    let step := s.status.step
    let last : Prop := step.toNat = Desc.lastStep j.desc
    (j.phase ≠ .boundary ∨ s.recovery.paused = true ∨ s.recovery.left = true → exec .stepStart s = .next s) ∧
    (j.phase = .boundary → s.recovery.paused = false → s.recovery.left = false →
      (∀ op, missingRow b j = some op → Answers .stepStart s fun t => Ends 0x0305 s t) ∧
      (missingRow b j = none → inputReady b j = false → Answers .stepStart s fun t =>
        t.job = some j ∧ t.status.inputWait = true ∧ t.hbm = s.hbm ∧ t.cores = s.cores ∧
        t.status.counts.inputWaits =
          if s.status.inputWait then s.status.counts.inputWaits else satInc s.status.counts.inputWaits 1) ∧
      (missingRow b j = none → inputReady b j = true → j.admitted ≠ some step.toNat →
        (∃ k, lateRecord b j = some k) → Answers .stepStart s fun t => Ends 0x0607 s t) ∧
      (missingRow b j = none → inputReady b j = true → Desc.replayMode j.desc = false →
        j.admitted = some step.toNat ∨ lateRecord b j = none → Answers .stepStart s fun t =>
          t.job = some { j with
            phase := .inStep
            admitted := some step.toNat
            taken := if j.admitted = some step.toNat then j.taken
              else j.image.admissionTables.map fun r => (tableDue b j r).map (recordPlace r) } ∧
          t.status.inputWait = false ∧ t.cores.ctl = [] ∧ t.ended = [] ∧ t.msu = Msu.reset ∧
          t.hbm.stamps = s.hbm.stamps ∧ t.coll.entered = s.coll.entered.filter (· == noOp) ∧
          t.cores.lanes.runSeed = Desc.runSeed j.desc ∧ t.cores.lanes.step = step ∧ t.cores.lanes.ctrs = [] ∧
          (∀ g ∈ j.image.buffers, ∀ i, i < g.tiles → presentBit t g.bitmap i = false) ∧
          (∃ k, t.kv.start = some k ∧ k.index = s.kv.index ∧ k.refs = s.kv.refs ∧ k.freeQ = s.kv.freeQ) ∧
          t.cores.scratch = [] ∧ t.cores.drain = [] ∧ t.cores.rings = [] ∧ t.cores.haloSent = [] ∧
          t.cores.haloReady = [] ∧ t.hbm.counted = [])) ∧
    (commitReady s j = true → s.recovery.paused = false → Answers (.commitBarrier waitBp) s fun t =>
      t.hbm.commitWord = step ∧ t.status.committed = step ∧
      (last → t.status.step = step ∧ t.job = some { j with replays := 0, phase := .refreshing, stop := 0x0002 }) ∧
      (¬ last → t.status.step = step + 1 ∧ t.job = some { j with replays := 0, phase := .boundary }) ∧
      t.kv.start = none ∧ t.recovery.refreshing = true ∧ t.recovery.refreshStep = step ∧ t.recovery.replicaOk = !siteSeveral s.site ∧
      t.hbm.dev = s.hbm.dev ∧ t.hbm.stamps = s.hbm.stamps ∧ t.cores.ctl = [] ∧
      t.banks.active = (s.banks.active != s.banks.pending) ∧ t.banks.pending = false ∧
      (waitBp ≤ 100 → t.power.paceHigh = 0) ∧
      (100 < waitBp → t.power.rinkPace = if 3 ≤ s.power.paceHigh then max 550 (s.power.rinkPace - 10) else s.power.rinkPace) ∧
      (25 ≤ waitBp → waitBp ≤ 100 → t.power.rinkPace = s.power.rinkPace) ∧
      (waitBp < 25 → t.power.rinkPace = if 3 ≤ s.power.paceLow then min 850 (s.power.rinkPace + 10) else s.power.rinkPace)) ∧
    (commitReady s j = false ∨ s.recovery.paused = true → exec (.commitBarrier waitBp) s = .next s) ∧
    (j.phase ∈ [.barrier, .held, .refreshing, .halted] ∨ s.recovery.paused = true → exec .stepReplay s = .next s) ∧
    (j.phase ∈ [.aborted, .settling, .boundary, .inStep, .atCut, .dumping] → s.recovery.paused = false →
      let halts (c : U16) (t : State) : Prop := t.status.status = c ∧ ∃ k, t.job = some k ∧ k.phase = .halted ∧ k.stop = c
      let again (t : State) : Prop :=
        t.job = some { j with phase := .settling, replays := j.replays + 1 } ∧ t.recovery.abortPending = false ∧
        t.status.counts.replays = satInc s.status.counts.replays 1 ∧ t.selfTest.due = [] ∧ t.stalled = [] ∧
        (s.kv.start = none → t.hbm.dev = s.hbm.dev ∧ t.kv.index = s.kv.index) ∧
        ∀ k, s.kv.start = some k →
          t.kv.index = k.index ∧ t.kv.refs = k.refs ∧ t.kv.freeQ = k.freeQ ∧ t.kv.edits = [] ∧
          (s.canonical = true →
            (∀ r ∈ heldRanges j.image, ∀ x n, r.base ≤ x → x + n ≤ r.base + r.len →
              devRead t x n = Mem.read 0 k.held x n) ∧
            ∀ x, (∀ r ∈ heldRanges j.image, x < r.base ∨ r.base + r.len ≤ x) → devRead t x 1 = devRead s x 1)
      (8 ≤ j.replays → Answers .stepReplay s (halts 0x0500)) ∧
      (j.replays < 8 → s.selfTest.due = [] → Answers .stepReplay s fun t => again t ∧ t.hbm = { s.hbm with dev := t.hbm.dev } ∧
        t.status.eventCount = s.status.eventCount + 1) ∧
      (j.replays < 8 → s.selfTest.due = [p] → spareOf s (domainOf p) = some q → (entryOf s p).state = .active →
        Answers .stepReplay s fun t => again t ∧ t.status.counts.coreRemaps = satInc s.status.counts.coreRemaps 1 ∧
          entryOf t q = { entryOf s q with state := .active, logical := (entryOf s p).logical } ∧
          if (entryOf s p).remaps = 0 then (entryOf t p).state = .parked ∧ (p, false) ∈ t.selfTest.parked
          else (entryOf t p).state = .failed ∧ t.selfTest.parked = s.selfTest.parked) ∧
      (j.replays < 8 → s.selfTest.due = [p] → spareOf s (domainOf p) = none → s.selfTest.parked = [] →
        Answers .stepReplay s (halts 0x0506))) ∧
    ((∀ e ∈ s.selfTest.parked, e.1 ≠ core.val) → exec (.parkedCoreTestDone core pass) s = .next s) ∧
    ((∃ e ∈ s.selfTest.parked, e.1 = core.val) → core.val < s.hbm.coreMap.length →
      Answers (.parkedCoreTestDone core pass) s fun t =>
        (∀ e ∈ t.selfTest.parked, e.1 ≠ core.val) ∧ t.job = s.job ∧
        (∀ k, k ≠ core.val → entryOf t k = entryOf s k) ∧
        if pass = true ∧ (entryOf s core.val).remaps.toNat < 2 then
          entryOf t core.val = { entryOf s core.val with state := .spare } ∧ t.status = s.status
        else
          entryOf t core.val = { entryOf s core.val with state := .failed, logical := 0xFF } ∧
          t.status.eventCount = s.status.eventCount + 1)

/-- R311, whole: `hbm.commitWord` is the word. -/
def Obligations.CommitWordFollowsCommits : Prop :=
  ∀ (s : State) (j : Job) (waitBp : Nat) (others : List StartEntry),
    (s.job = some j → commitReady s j = true → s.recovery.paused = false →
      Answers (.commitBarrier waitBp) s fun t => t.hbm.commitWord = s.status.step) ∧
    (transitionOpen s.fuses = false → powerOnRuns s = false → ∀ i ∈ [Instr.warmReset, .perstAssert, .perstRelease, .rinkResetFlood],
      Answers i s fun t => t.hbm.commitWord = s.hbm.commitWord) ∧
    (s.job = some j → j.phase = .barrier → others.length + 1 = machineSize s → barrierCode j others = none →
      Answers (.jobStartBarrier others) s fun t =>
        t.hbm.commitWord = BitVec.ofNat 64 (Desc.firstStep j.desc) - 1)

/-- R56, R59, R378: offsets in the dump are 0x1000 for scratchpads, of 10 MiB each, then drain files of 64 KiB, then the
ranges. -/
def Obligations.CutPointsHoldAndDump : Prop :=
  ∀ (s : State) (j : Job) (n : Nat), s.job = some j →
    let c : U32 := BitVec.ofNat 32 (Desc.cutOp j.desc)
    let a := Desc.dumpAddr j.desc
    (cutReady s j = true → s.recovery.paused = false → Answers .cutPointReached s fun t =>
      t.job = some { j with phase := .atCut } ∧ t.hbm = s.hbm ∧ c ∈ t.coll.entered ∧
      t.sent = s.sent ++ [.send (.barrierEnter c)] ∧ t.cores.scratch = s.cores.scratch ∧ t.cores.drain = s.cores.drain ∧
      (∀ e ∈ t.cores.ctl, e.2.slots = [] ∧ e.2.loads = [] ∧ e.2.writeBuf = [] ∧ e.2.branches = [] ∧
        e.2.flying = []) ∧
      (∀ k o, cvOf t (.core k o) = CvState.reset) ∧ cvOf t .controllerA = cvOf s .controllerA ∧
      cvOf t .controllerB = cvOf s .controllerB) ∧
    (cutReady s j = false ∨ s.recovery.paused = true → exec .cutPointReached s = .next s) ∧
    (j.phase = .dumping → s.recovery.paused = false → s.link.trained = true → s.link.cxl = true → s.canonical = true →
      let apart (x m : Nat) : Prop := x + m ≤ a ∨ a + dumpLength j.desc ≤ x
      (apart s.mgt.statusAddr.toNat 4096 → s.ring.producer.toNat ≤ s.ring.consumer.toNat + 1 →
        Answers (.cutDump none) s fun t =>
          t.job = some { j with phase := .held } ∧ t.mgt.state = .held ∧ t.status.status = 0x0004 ∧
          t.status.cutStep = BitVec.ofNat 64 (Desc.cutStep j.desc) ∧ t.status.cutOp = c ∧
          bitAt t.mgt.intStatus 4 = true ∧ t.hbm = s.hbm ∧ t.cores = s.cores ∧
          Mem.read 0 t.hostMem a 4096 = dumpHeader j.desc true ∧
          (∀ k x m, k < 128 → x + m ≤ 0xA00000 →
            Mem.read 0 t.hostMem (a + 0x1000 + 0xA00000 * k + x) m = Mem.read 0 s.cores.scratch (2 ^ 24 * k + x) m) ∧
          (∀ k x m, k < 128 → x + m ≤ 0x10000 →
            Mem.read 0 t.hostMem (a + 0x1000 + 0xA00000 * 128 + 0x10000 * k + x) m =
              Mem.read 0 s.cores.drain (2 ^ 16 * k + x) m) ∧
          ∀ before r after x m, usedRanges j.desc = before ++ r :: after → x + m ≤ r.len →
            Mem.read 0 t.hostMem
                (a + 0x1000 + (0xA00000 + 0x10000) * 128 + (before.map Range.len).sum + x) m =
              devRead s (r.base + x) m) ∧
      (apart s.mgt.statusAddr.toNat 4096 → apart (s.mgt.ringCtrl.toNat + 64) 8 →
        s.ring.consumer.toNat + 1 < s.ring.producer.toNat → Answers (.cutDump none) s fun t =>
          t.job = none ∧ t.status.status = 0x0004 ∧ t.ring.consumer = s.ring.consumer + 1 ∧ t.hbm = s.hbm ∧
          Mem.read 0 t.hostMem a 4096 = dumpHeader j.desc true) ∧
      Answers (.cutDump (some n)) s fun t =>
        t = { s with hostMem := t.hostMem } ∧ Mem.read 0 t.hostMem a 4096 = dumpHeader j.desc false) ∧
    (j.phase ≠ .dumping ∨ s.recovery.paused = true ∨ s.link.trained = false ∨ s.link.cxl = false →
      ∀ cut, exec (.cutDump cut) s = .next s) ∧
    ∀ o, withheld s o = true →
      (∀ x : IssueCmd, x.ctx.op = o → exec (.engineCommandIssue x) s = .next s) ∧
      (∀ x : TileLoadCmd, x.ctx.op = o → exec (.tileLoad x) s = .next s) ∧
      (∀ x : WaveCmd, x.ctx.op = o → exec (.trellisWave x) s = .next s) ∧
      (∀ x : DrainCmd, x.ctx.op = o → exec (.drainResult x) s = .next s) ∧
      (∀ x : StreamCmd, x.ctx.op = o → exec (.streamOperation x) s = .next s) ∧
      (∀ x : LodgeCmd, x.ctx.op = o → exec (.lodgeOperation x) s = .next s) ∧
      (∀ x : GroomCmd, x.ctx.op = o → exec (.groomedStore x) s = .next s ∧ exec (.groomedLoad x) s = .next s) ∧
      (∀ x : AttnCmd, x.ctx.op = o → exec (.fusedAttention x) s = .next s) ∧
      (∀ h use src, exec (.haloSend o h use src) s = .next s ∧ exec (.haloReady o h use) s = .next s ∧
        exec (.haloAck o h use) s = .next s) ∧
      (∀ r, exec (.admission o r) s = .next s ∧ exec (.barrier o) s = .next s)

/-- R136 to R142. Commands that wait are tried again (assumption log 13); an entry of the write buffer is a byte (assumption
log 83). -/
def Obligations.ControllersIssueInOrder : Prop :=
  ∀ (s : State) (c : IssueCmd) (core : Core) (branch id tag : Nat) (slot : Fin 16) (x : SpecLoad),
    SMap.wf CoreCtl.fresh s.cores.ctl = true →
    let me := c.ctx.core.val
    let k := ctlOf s me
    let k1 := advanceCtl c k
    let s1 := setCtl me (fun _ => k1) s
    let old := ctlOf s core.val
    let op := c.ctx.op
    let free : ShadowSlot := ⟨0, false, []⟩
    let copied (t : State) (who : Nat) (l : LoadCmd) (bs : List Byte) : Prop :=
      Mem.read 0 t.cores.scratch (2 ^ 24 * who + l.dest) bs.length = bs ∧
      ∀ b n, b + n ≤ 2 ^ 24 * who + l.dest ∨ 2 ^ 24 * who + l.dest + bs.length ≤ b →
        Mem.read 0 t.cores.scratch b n = Mem.read 0 s.cores.scratch b n
    (acts s op = false → exec (.engineCommandIssue c) s = .next s) ∧
    (acts s op = true →
      (∀ r, issueFault s c = some r → exec (.engineCommandIssue c) s = .refused (.refusedAtBuild r)) ∧
      (issueFault s c = none →
        4 < k1.branches.length ∨ 64 < k1.writeBuf.length ∨ (∃ p, oldest s me k1 = some p ∧ p + 64 < c.pos) →
        Waits (.engineCommandIssue c) s) ∧
      (issueFault s c = none → windowHolds s c k1 = true →
        (issueWaits s1 c k1 = true → Answers (.engineCommandIssue c) s fun t =>
          ctlOf t me = k1 ∧ t = { s with
            cores := { s.cores with ctl := t.cores.ctl }
            stalled := s.stalled ++ [.engineCommandIssue { c with held := true, writes := [], gens := [] }] }) ∧
        (issueWaits s1 c k1 = false → issueOutside s1 c k1 = true → Answers (.engineCommandIssue c) s fun t =>
          Ends (if c.engine = .stream then 0x0200 else 0x0201) s t ∧ t.hbm = s.hbm) ∧
        (issueWaits s1 c k1 = false → issueOutside s1 c k1 = false → c.load = none →
          Answers (.engineCommandIssue c) s fun t =>
            t.job = s.job ∧ t.cores.scratch = s.cores.scratch ∧ t.cores.drain = s.cores.drain ∧
            t.hbm.stamps = s.hbm.stamps ∧ t.stalled = s.stalled ∧ hasIssued t op = true ∧
            (∀ e, SMap.get [] (ctlOf t me).queues e = if e = engineNo c.engine ∧ takenAtOnce c.engine = false
              then SMap.get [] k.queues e ++ [op] else SMap.get [] k.queues e) ∧
            (hasIssued s op = true → t.hbm = s.hbm) ∧
            (hasIssued s op = false → ∀ a, counterAddr s op = some a →
              devNat t a 16 = s.status.step.toNat % 2 ^ 32 * 2 ^ 64 ∧
              ∀ b n, b + n ≤ a ∨ a + 16 ≤ b → devRead t b n = devRead s b n) ∧
            ∀ p a v, c.held = false → p ≤ c.pos → c.writes = [(p, a, v)] → Mem.get 0 (ctlOf t me).dataMem a = v) ∧
        (∀ l, issueWaits s1 c k1 = false → issueOutside s1 c k1 = false → c.load = some l → l.groom = none →
          (speculative c k1 = false → Answers (.engineCommandIssue c) s fun t =>
            t.job = s.job ∧ t.stalled = s.stalled ∧ hasIssued t op = true ∧ copied t me l (devRead t l.addr l.len)) ∧
          (speculative c k1 = true → SMap.wf free k.slots = true → Answers (.engineCommandIssue c) s fun t =>
            t = { s with cores := { s.cores with ctl := t.cores.ctl } } ∧
            ∃ y ∈ (ctlOf t me).loads, y.id = c.pos ∧ y.cmd = l ∧ y.ctx = c.ctx ∧ y.outside = loadOutside l ∧
              y.slots.length = (if loadOutside l then 0 else loadSlots l) ∧
              (∀ i ∈ y.slots, (SMap.get free (ctlOf t me).slots i).tag = y.tag ∧
                (SMap.get free (ctlOf t me).slots i).held = true) ∧
              (loadOutside l = false → slotData y (ctlOf t me) = devRead s l.addr l.len))))) ∧
    (inStep s = true → SMap.wf free old.slots = true →
      (old.branches.contains branch = true → Answers (.branchMispredict core branch) s fun t =>
        t = { s with cores := { s.cores with ctl := t.cores.ctl }, stalled := t.stalled } ∧
        (ctlOf t core.val).dataMem = old.dataMem ∧
        (∀ i, i ∈ t.stalled ↔ i ∈ s.stalled ∧
          ∀ d, i = .engineCommandIssue d → d.ctx.core = core → d.pos ≤ branch) ∧
        (∀ l, l ∈ (ctlOf t core.val).loads ↔ l ∈ old.loads ∧ l.id < branch) ∧
        (∀ b, b ∈ (ctlOf t core.val).branches ↔ b ∈ old.branches ∧ b < branch) ∧
        (∀ w, w ∈ (ctlOf t core.val).writeBuf ↔ w ∈ old.writeBuf ∧ w.1 < branch) ∧
        (∀ g, old.genSaved.find? (fun e => e.1 == branch) = some g → (ctlOf t core.val).genPos = g.2) ∧
        ∀ l ∈ old.loads, branch < l.id → ∀ i ∈ l.slots,
          (SMap.get free (ctlOf t core.val).slots i).held = false ∧ (i, l.tag) ∈ (ctlOf t core.val).flying) ∧
      (old.branches.contains branch = false → exec (.branchMispredict core branch) s = .next s) ∧
      (old.loads.find? (fun l => l.id == id) = some x →
        let retired (t : State) : Prop :=
          t.job = s.job ∧ hasIssued t x.ctx.op = true ∧
          (∀ l, l ∈ (ctlOf t core.val).loads ↔ l ∈ old.loads ∧ l.id ≠ id) ∧
          ∀ i ∈ x.slots, (SMap.get free (ctlOf t core.val).slots i).held = false
        (olderUnretired s core.val id = true → Waits (.speculativeLoadRetire core id) s) ∧
        (olderUnretired s core.val id = false → x.outside = true → Answers (.speculativeLoadRetire core id) s fun t =>
          Ends 0x0201 s t ∧ t.hbm = s.hbm ∧ t.cores.scratch = s.cores.scratch) ∧
        (olderUnretired s core.val id = false → x.outside = false → x.poisoned = true →
          (loadPoisoned s x.cmd = true → Waits (.speculativeLoadRetire core id) s) ∧
          (loadPoisoned s x.cmd = false → x.cmd.groom = none →
            Answers (.speculativeLoadRetire core id) s fun t =>
              retired t ∧ copied t core.val x.cmd (devRead t x.cmd.addr x.cmd.len))) ∧
        (olderUnretired s core.val id = false → x.outside = false → x.poisoned = false → x.cmd.groom = none →
          Answers (.speculativeLoadRetire core id) s fun t =>
            retired t ∧ copied t core.val x.cmd (slotData x old))) ∧
      (old.loads.find? (fun l => l.id == id) = none → exec (.speculativeLoadRetire core id) s = .next s)) ∧
    (inStep s = false → exec (.branchMispredict core branch) s = .next s ∧
      exec (.speculativeLoadRetire core id) s = .next s) ∧
    Answers (.hbmResponseDropped core slot tag) s fun t =>
      t = { s with cores := { s.cores with ctl := t.cores.ctl } } ∧
      ctlOf t core.val = { old with flying := old.flying.erase (slot.val, tag) }

/-- R86, R94, R96, R101, R112, R136. -/
def Obligations.TrellisFeedsTheDrain : Prop :=
  ∀ (s : State) (j : Job) (l : TileLoadCmd) (ctx : OpCtx) (w : WaveCmd) (d : DrainCmd) (e : FootEntry)
      (es : List FootEntry), s.job = some j → j.phase = .inStep → (∀ o, withheld s o = false) →
    let aborted (t : State) : Prop :=
      t.job = some { j with phase := .aborted } ∧ t.hbm.dev = s.hbm.dev ∧ Out.send .stepAbort ∈ t.sent ∧
      t.cores.scratch = s.cores.scratch ∧ t.cores.foot = [] ∧ t.status.eventCount = s.status.eventCount + 1
    let bad (t : State) : Prop := aborted t ∧ t.status.counts.scratchUes = satInc s.status.counts.scratchUes 1
    let lc := l.ctx.core.val
    let cc := ctx.core.val
    let wc := w.ctx.core.val
    let dc := d.ctx.core.val
    let ws := (waveRun w).taken s
    let ds := (drainRun d).taken s
    SMap.wf PlaneInfo.empty s.cores.planes = true → SMap.wf 0 s.cores.planeInUse = true →
    SMap.wf [] s.cores.foot = true →
    (∀ x ∈ [(Instr.tileLoad l, tileLoadRun l), (.tileSwap ctx, tileSwapRun ctx), (.trellisWave w, waveRun w),
        (.drainResult d, drainRun d)],
      (atHead s x.2.engine x.2.ctx.core.val x.2.ctx.op = false ∨ halosHere s x.2.ctx = false → Waits x.1 s) ∧
      (x.2.turn s = true → ∀ k, x.2.refusal s = some k → exec x.1 s = .refused (.refusedAtBuild k)) ∧
      (x.2.turn s = true → x.2.refusal s = none → x.2.can s = false → exec x.1 s = .next (stall x.1 (x.2.taken s))) ∧
      (x.2.turn s = true → x.2.refusal s = none → x.2.can s = true → x.2.ctx.uncorrectable = true → Answers x.1 s bad)) ∧
    ((tileLoadRun l).turn s = true →
      (∀ k, tileLoadFault s l = some k → exec (.tileLoad l) s = .refused (.refusedAtBuild k)) ∧
      ((tileLoadRun l).refusal s = none → (planeAt s lc (loadingPlane s lc)).loaded = true → Waits (.tileLoad l) s) ∧
      ((tileLoadRun l).refusal s = none → (planeAt s lc (loadingPlane s lc)).loaded = false →
        l.ctx.uncorrectable = false → Answers (.tileLoad l) s fun t =>
          let p := planeAt t lc (loadingPlane s lc)
          t = { s with banks := t.banks, ended := t.ended, cores := { s.cores with
                  cells := t.cores.cells, cellExps := t.cores.cellExps, checker := t.cores.checker
                  planes := t.cores.planes, ctl := t.cores.ctl } } ∧
          p.loaded = true ∧ p.k = l.k ∧ p.n = l.n ∧ p.contractInner = l.contractInner ∧ p.transposed = l.transposed ∧
          p.wide = l.wide ∧ p.fmt = l.w.fmt ∧
          ∀ q, q ≠ planeKey lc (loadingPlane s lc) →
            SMap.get PlaneInfo.empty t.cores.planes q = SMap.get PlaneInfo.empty s.cores.planes q)) ∧
    ((tileSwapRun ctx).turn s = true →
      ((planeAt s cc (loadingPlane s cc)).loaded = false → Waits (.tileSwap ctx) s) ∧
      ((planeAt s cc (loadingPlane s cc)).loaded = true → inUsePlane s cc ≤ 1 → ctx.uncorrectable = false →
        Answers (.tileSwap ctx) s fun t =>
          t = { s with banks := t.banks, ended := t.ended, cores := { s.cores with
                  planeInUse := t.cores.planeInUse, planes := t.cores.planes, ctl := t.cores.ctl } } ∧
          inUsePlane t cc = loadingPlane s cc ∧
          planeAt t cc (inUsePlane t cc) = planeAt s cc (loadingPlane s cc) ∧
          (planeAt t cc (loadingPlane t cc)).loaded = false)) ∧
    ((waveRun w).turn s = true →
      let info := planeAt s wc (inUsePlane s wc)
      (info.n ≠ 0 → ∀ k, waveFault s w = some k → exec (.trellisWave w) s = .refused (.refusedAtBuild k)) ∧
      ((waveRun w).refusal s = none → info.n = 0 → exec (.trellisWave w) s = .next (stall (.trellisWave w) ws)) ∧
      ((waveRun w).refusal s = none → (waveRun w).can s = true → w.ctx.uncorrectable = false →
        let idle := passIdle ws w
        let r := if idle then skippedWave else runWave ws w
        let outs := ((upFrom 0 32).zip r.outs).map fun (i, v) => struck w.flip i v
        let miss := waveMismatch { r with outs := outs, check := struck w.flip 32 r.check }
        (miss = false → Answers (.trellisWave w) s fun t =>
          SMap.get [] t.cores.foot wc = SMap.get [] s.cores.foot wc ++ [⟨w.ctx.op, w.r.val, outs, r.sat⟩] ∧
          t.job = s.job ∧ t.status = s.status ∧ t.cores.scratch = s.cores.scratch ∧ t.cores.cells = s.cores.cells) ∧
        (idle = true → w.flip = [] → miss = false ∧ outs = List.replicate 32 zero32) ∧
        (miss = true → Answers (.trellisWave w) s fun t =>
          t.job = some { j with phase := .aborted } ∧ Out.send .stepAbort ∈ t.sent ∧ t.cores.foot = [] ∧
          t.status.counts.mismatches = satInc s.status.counts.mismatches 1 ∧
          t.status.eventCount = s.status.eventCount + 1))) ∧
    ((drainRun d).turn s = true →
      (∀ k, drainFault s d = some k → exec (.drainResult d) s = .refused (.refusedAtBuild k)) ∧
      ((drainRun d).refusal s = none → SMap.get [] s.cores.foot dc = [] →
        exec (.drainResult d) s = .next (stall (.drainResult d) ds)) ∧
      ((drainRun d).refusal s = none → (drainRun d).can s = true → SMap.get [] s.cores.foot dc = e :: es →
        d.ctx.uncorrectable = false → Answers (.drainResult d) s fun t =>
          let acc := accumulate (d.accIn.map fun a => read32 ds a 32) e.outs
          SMap.get [] t.cores.foot dc = es ∧ t.job = s.job ∧ t.status = s.status ∧ t.cores.cells = s.cores.cells ∧
          t.cores.planes = s.cores.planes ∧
          (d.lastPass = false → (∀ c r, d.accOut.space ≠ .ring c r) → acc.length = 32 →
            read32 t d.accOut 32 = acc.map fun v => v.1) ∧
          (d.lastPass = true → d.bias = none → d.derivX = none → d.save = none → d.group = none →
            isFp8 d.out.t.fmt = false → convDraws d.out.conv = 0 → (∀ c r, d.out.t.loc.space ≠ .ring c r) →
            acc.length = 32 →
            let ys := (acc.take d.out.t.n).map fun v => func32 d.func v.1
            let bs := (outBytes d.out.t d.out.conv (ys.map OutVal.of) (ys.map fun _ => 0)).1
            locRead t d.out.t.loc 0 bs.length = bs)))

/-- R114, R136, R148, R166, R172, R201: completion and frame. -/
def Obligations.EngineOperationsComplete : Prop :=
  ∀ (s : State) (j : Job) (c : StreamCmd) (w : WindowCmd) (l : LodgeCmd) (g : GroomCmd) (a : AttnCmd) (b : AttnBackCmd),
    s.job = some j → j.phase = .inStep → (∀ o, withheld s o = false) →
    let can (r : EngineRun) : Prop := r.turn s = true ∧ r.refusal s = none ∧ r.can s = true
    let runs (r : EngineRun) : Prop := can r ∧ r.ctx.uncorrectable = false ∧ r.stop s = none
    let stores (t : State) : Prop :=
      t = { s with banks := t.banks, ended := t.ended
                   hbm := { s.hbm with dev := t.hbm.dev, poison := t.hbm.poison, counted := t.hbm.counted }
                   cores := { s.cores with scratch := t.cores.scratch, drain := t.cores.drain, rings := t.cores.rings
                                           ctl := t.cores.ctl, lodge := t.cores.lodge
                                           lanes := { s.cores.lanes with ctrs := t.cores.lanes.ctrs } } }
    let apart (r : EngineRun) (t : State) : Prop := ∀ x n,
      (∀ p, counterAddr s r.ctx.op = some p → x + n ≤ p ∨ p + 16 ≤ x) →
      (∀ v ∈ r.writes s, v.1.space = .hbm → x + n ≤ v.1.addr ∨ v.1.addr + v.2 ≤ x) → devRead t x n = devRead s x n
    (∀ x ∈ [(Instr.streamOperation c, streamRun c), (.windowGather w, windowRun w), (.lodgeOperation l, lodgeRun l),
        (.groomedStore g, groomStoreRun g), (.groomedLoad g, groomLoadRun g), (.fusedAttention a, attnRun a),
        (.attentionBackward b, attnBackRun b)],
      let r := x.2
      (atHead s r.engine r.ctx.core.val r.ctx.op = false ∨ halosHere s r.ctx = false → Waits x.1 s) ∧
      (r.turn s = true → ∀ k, r.refusal s = some k → exec x.1 s = .refused (.refusedAtBuild k)) ∧
      (r.turn s = true → r.refusal s = none → r.can s = false → exec x.1 s = .next (stall x.1 (r.taken s))) ∧
      (can r → r.ctx.uncorrectable = true → Answers x.1 s fun t =>
        t.job = some { j with phase := .aborted } ∧ t.cores.scratch = s.cores.scratch ∧
        t.status.counts.scratchUes = satInc s.status.counts.scratchUes 1) ∧
      (can r → r.ctx.uncorrectable = false → ∀ code loc, r.stop s = some (code, loc) → Answers x.1 s fun t =>
        Ends code s t ∧ t.cores.scratch = s.cores.scratch ∧ t.hbm = s.hbm) ∧
      (runs r → Answers x.1 s (apart r))) ∧
    (∀ k, streamFault s c.ctx c.op = some k → (streamRun c).refusal s = some k) ∧
    (∀ k, windowFault s w = some k → (windowRun w).refusal s = some k) ∧
    (∀ k, lodgeFault s l = some k → (lodgeRun l).refusal s = some k) ∧
    (∀ k, groomStoreFault s g = some k → (groomStoreRun g).refusal s = some k) ∧
    (∀ k, groomLoadFault s g = some k → (groomLoadRun g).refusal s = some k) ∧
    (∀ k, attnFault s a = some k → (attnRun a).refusal s = some k) ∧
    (∀ k, attnBackFault s b = some k → (attnBackRun b).refusal s = some k) ∧
    (∀ d u, streamTarget c.op = some (d, u) →
      (∃ p ∈ streamAddrs s c.ctx.core d, addrOutside s c.ctx.core d.space (fmtBytes u.fmt) p = true) →
      ∃ x, (streamRun c).stop s = some (0x0200, x)) ∧
    (streamTarget c.op = none → (streamRun c).stop s = none) ∧
    (∀ (i : Nat) e, (tableEntries s a.form)[i]? = some e → entryBad s a.ctx.op e = true →
      ∃ x, (attnRun a).stop s = some (0x0603, x)) ∧
    (tableWaits s a.ctx a.form = true → (attnRun a).ready s = false) ∧
    (tableWaits s b.ctx b.form = true → (attnBackRun b).ready s = false) ∧
    (runs (streamRun c) → Answers (.streamOperation c) s fun t => stores t ∧ t.cores.lodge = s.cores.lodge) ∧
    (runs (windowRun w) → Answers (.windowGather w) s fun t =>
      t = { s with banks := t.banks, ended := t.ended
                   cores := { s.cores with window := t.cores.window, ctl := t.cores.ctl } }) ∧
    (runs (lodgeRun l) → Answers (.lodgeOperation l) s stores) ∧
    (runs (groomStoreRun g) → Answers (.groomedStore g) s fun t =>
      t = { s with banks := t.banks, ended := t.ended
                   hbm := { s.hbm with dev := t.hbm.dev, poison := t.hbm.poison }
                   cores := { s.cores with ctl := t.cores.ctl }, sent := t.sent } ∧
      match g.home with
      | .own => t.sent = s.sent
      | .peer p => t.hbm = s.hbm ∧ t.sent = s.sent ++ (encodeParts s g).map fun e => .parkBlocks p e.1 e.2) ∧
    (runs (groomLoadRun g) → Answers (.groomedLoad g) s fun t =>
      t = { s with banks := t.banks, ended := t.ended
                   cores := { s.cores with scratch := t.cores.scratch, ctl := t.cores.ctl }, sent := t.sent } ∧
      match g.home with
      | .own => t.sent = s.sent
      | .peer p => t.sent = s.sent ++
          (runsOf (partBlocks g)).map fun e => .fetchBlocks p (blockAddr g e.1) (groomSize g.mode * e.2)) ∧
    (runs (attnRun a) → Answers (.fusedAttention a) s fun t => stores t ∧ t.cores.lodge = s.cores.lodge) ∧
    (runs (attnBackRun b) → Answers (.attentionBackward b) s fun t => stores t ∧ t.cores.lodge = s.cores.lodge)

/-- R112, R117, R152, R173, R177, R178. `passes` is what the reader of a hand-off region has still to take. -/
def Obligations.EngineResults : Prop :=
  ∀ (s : State) (j : Job) (ctx : OpCtx) (f : EwOp) (ins : List Tensor) (out : Tensor) (w : WindowCmd) (g : GroomCmd),
    s.job = some j → j.phase = .inStep → (∀ o, withheld s o = false) →
    let runs (r : EngineRun) : Prop := r.turn s = true ∧ r.refusal s = none ∧ r.can s = true ∧
      r.ctx.uncorrectable = false ∧ r.stop s = none
    (let c : StreamCmd := ⟨ctx, .ew f (ins.map fun x => ⟨x, none, false⟩) ⟨out, none⟩⟩
     let u := (streamRun c).taken s
     let arg (i k : Nat) : U32 := match ins[k]? with
       | some x => BitVec.ofNat 32 (tensorCode u x i)
       | none => 0
     let code (i : Nat) : Nat :=
       (outCode out.fmt none (outVal (isIntOp f) (ewResult f (arg i 0) (arg i 1) (arg i 2))).v 0).code % 2 ^ 32
     let passes (t : State) (k : Nat) (r : Region) : List Byte :=
       ((upFrom (ringAt t k).taken ((ringAt t k).filled - (ringAt t k).taken)).map fun n =>
         Mem.read 0 t.cores.drain (slotPlace r n) (slotBytes r)).flatten ++ (ringAt t k).waiting
     f ≠ .copy → isCompare f = false → runs (streamRun c) →
     Answers (.streamOperation c) s fun t =>
       ((∀ a r, out.loc.space ≠ .ring a r) → ∀ i, i < out.n → tensorCode t out i = code i) ∧
       t.cores.lanes = s.cores.lanes ∧ t.status = s.status ∧
       ((∀ x ∈ out :: ins, ∀ a r, x.loc.space ≠ .ring a r) →
         (∀ a x n, out.loc.space = .scratch a →
           x + n ≤ 2 ^ 24 * a.val + out.loc.addr ∨ 2 ^ 24 * a.val + out.loc.addr + 4 * out.n ≤ x →
           Mem.read 0 t.cores.scratch x n = Mem.read 0 s.cores.scratch x n ∧ t.cores.drain = s.cores.drain) ∧
         ∀ a x n, out.loc.space = .drain a →
           x + n ≤ 2 ^ 16 * a.val + out.loc.addr ∨ 2 ^ 16 * a.val + out.loc.addr + 4 * out.n ≤ x →
           Mem.read 0 t.cores.drain x n = Mem.read 0 s.cores.drain x n ∧ t.cores.scratch = s.cores.scratch) ∧
       ∀ a k r, out.loc.space = .ring a k → regionAt s k = some r → 1 ≤ slotCount r →
         (∀ x ∈ ins, ∀ a r, x.loc.space ≠ .ring a r) → (ringAt s k).taken ≤ (ringAt s k).filled →
         (ringAt s k).filled ≤ (ringAt s k).taken + slotCount r → SMap.wf Ring.empty s.cores.rings = true →
         t.cores.scratch = s.cores.scratch ∧
         passes t k r = passes s k r ++ ((upFrom 0 out.n).map fun i => leBytes 4 (code i)).flatten) ∧
    (runs (windowRun w) → SMap.wf ⟨.e4m3, []⟩ s.cores.window = true → Answers (.windowGather w) s fun t =>
      let b := SMap.get ⟨.e4m3, []⟩ t.cores.window w.ctx.core.val
      b.fmt = w.map.fmt ∧
      (w.column = false → b.vecs.length = (windowOuts w).length ∧
        ∀ (i o k : Nat), (windowOuts w)[i]? = some o → k < tapCount w.dims * paddedGroup w →
          (b.vecs[i]?.bind fun (v : List WinElem) => v[k]?) = some (windowElem s w o k)) ∧
      (w.column = true → ∃ v, b.vecs = [v] ∧ v.length = (windowOuts w).length ∧
        ∀ (i o : Nat), (windowOuts w)[i]? = some o → v[i]? = some (windowElem s w o w.kappa)) ∧
      (∀ o k, groupChannels w ≤ k % paddedGroup w ∨ tapPosition w.dims o (k / paddedGroup w) = none →
        (windowElem s w o k).code = 0 ∧ (windowElem s w o k).exp = 127) ∧
      ∀ q, q ≠ w.ctx.core.val →
        SMap.get ⟨.e4m3, []⟩ t.cores.window q = SMap.get ⟨.e4m3, []⟩ s.cores.window q) ∧
    (runs (groomStoreRun g) → g.home = .own → Answers (.groomedStore g) s fun t =>
      (∀ i ∈ partBlocks g, devNat t (blockAddr g i) (groomSize g.mode) =
        groomEncode g.mode (isSpatial g.shape) (blockValues s g i) % 2 ^ (8 * groomSize g.mode)) ∧
      ∀ x n, (∀ i ∈ partBlocks g, x + n ≤ blockAddr g i ∨ blockAddr g i + groomSize g.mode ≤ x) →
        devRead t x n = devRead s x n) ∧
    (runs (groomLoadRun g) → g.home = .own → g.elems.fmt = .bf16 →
      Answers (.groomedLoad g) s fun t => ∀ i v, i < g.elems.n →
        (decodeAll g (readBlocks s g))[i]? = some v →
        tensorCode t g.elems i = (convert .bf16 .ne true 0 v).code % 2 ^ 16)

/-- R158 to R161: a token word is seq in its upper half and the op index in its lower half. Where slots and words lie is
assumption log 75. -/
def Obligations.HaloUsesAlternate : Prop :=
  ∀ (s : State) (op : U32) (h : HaloBuf) (use : Nat) (src : HaloRow), acts s op = true →
    let i := (use - 1) % h.slots
    let word (base : Option Nat) (who : Core) (n : Nat) : Option Nat :=
      base.map fun b => 2 ^ 24 * who.val + b + 8 * n
    let ready := word (tokenBase s h.consumer.val) h.consumer (h.ready + i)
    let ack := word (tokenBase s h.producer.val) h.producer (h.ack + i)
    let seq (a : Nat) : Nat := ofLe (Mem.read 0 s.cores.scratch a 8) / 2 ^ 32
    let put (a : Nat) (bs : List Byte) (t : State) : Prop :=
      t = { s with cores := { s.cores with
              scratch := t.cores.scratch, haloSent := t.cores.haloSent, haloReady := t.cores.haloReady } } ∧
      Mem.read 0 t.cores.scratch a bs.length = bs ∧
      ∀ x n, x + n ≤ a ∨ a + bs.length ≤ x → Mem.read 0 t.cores.scratch x n = Mem.read 0 s.cores.scratch x n
    let token : List Byte := leBytes 8 (use % 2 ^ 32 * 2 ^ 32 + op.toNat)
    let pOpen := branchOpen s h.producer.val
    (∀ k, haloFault s h use = some k → exec (.haloSend op h use src) s = .refused (.refusedAtBuild k) ∧
      exec (.haloReady op h use) s = .refused (.refusedAtBuild k) ∧
      exec (.haloAck op h use) s = .refused (.refusedAtBuild k)) ∧
    (haloFault s h use = none → ∀ r a, ready = some r → ack = some a →
      (spanFault s ⟨.scratch h.producer, src.addr⟩ h.rowBytes = none →
        (use ≤ seq a + h.slots → lastSent s h + 1 = use → pOpen = false →
          (src.uncorrectable = false → Answers (.haloSend op h use src) s fun t =>
            put (2 ^ 24 * h.consumer.val + h.slotBase + i * h.rowBytes)
              (Mem.read 0 s.cores.scratch (2 ^ 24 * h.producer.val + src.addr) h.rowBytes) t ∧ lastSent t h = use) ∧
          (src.uncorrectable = true → Answers (.haloSend op h use src) s fun t =>
            t.cores.scratch = s.cores.scratch ∧ Out.send .stepAbort ∈ t.sent ∧
            t.status.counts.scratchUes = satInc s.status.counts.scratchUes 1)) ∧
        (seq a + h.slots < use ∨ lastSent s h + 1 ≠ use ∨ pOpen = true → Waits (.haloSend op h use src) s)) ∧
      (use ≤ lastSent s h → lastReady s h + 1 = use → pOpen = false →
        Answers (.haloReady op h use) s fun t => put r token t ∧ lastReady t h = use) ∧
      (lastSent s h < use ∨ lastReady s h + 1 ≠ use ∨ pOpen = true → Waits (.haloReady op h use) s) ∧
      (seq r = use → branchOpen s h.consumer.val = false → Answers (.haloAck op h use) s (put a token)) ∧
      (seq r ≠ use ∨ branchOpen s h.consumer.val = true → Waits (.haloAck op h use) s)) ∧
    (haloFault s h use = none → ready ≠ none ∧ ack ≠ none)

/-- R350, whole. `run` is the state behind a list of commands that each answer a next state. -/
def Obligations.CheckValuesFollowTheTable : Prop :=
  ∀ (s : State) (core : Core) (op : U32) (p : Poly), acts s op = true → branchOpen s core.val = false →
    let u : CvUnit := .core core op
    let digits : List Byte := [0x31, 0x32, 0x33, 0x34, 0x35, 0x36, 0x37, 0x38, 0x39]
    let run (is : List Instr) : Option State := is.foldl (fun o i => o.bind fun t => match exec i t with
      | .next v => some v
      | _ => none) (some s)
    polyRow .crc32c = ⟨32, 0x1EDC6F41, 0xFFFFFFFF, true, true, 0xFFFFFFFF⟩ ∧
    polyRow .crc32 = ⟨32, 0x04C11DB7, 0xFFFFFFFF, true, true, 0xFFFFFFFF⟩ ∧
    polyRow .crc16 = ⟨16, 0x1021, 0xFFFF, false, false, 0x0000⟩ ∧
    polyRow .crc64 = ⟨64, 0x42F0E1EBA9EA3693, 0x0, false, false, 0x0⟩ ∧
    ∃ t, run ([.cvSelect u p] ++ (digits.map fun b => .cvFeed u (.byte b)) ++ [.cvRead u]) = some t ∧
      (cvOf t u).value = match p with
        | .crc32c => 0xE3069283
        | .crc32 => 0xCBF43926
        | .crc16 => 0x29B1
        | .crc64 => 0x6C40DF5F0B497347

/-- R351 to R354. -/
def Obligations.CheckUnitsHoldOneComputation : Prop :=
  ∀ (s : State) (u : CvUnit) (p : Poly) (d : CvData), SMap.wf CvState.reset s.cores.cv = true →
    let runs : Bool := match u with
      | .core _ op => acts s op
      | _ => s.controllers.firmware
    let waits : Bool := match u with
      | .core c _ => branchOpen s c.val
      | _ => false
    let user : Option U32 := match u with
      | .core _ op => some op
      | _ => none
    let v := cvOf s u
    let bytes : List Byte := match d with
      | .byte b => [b]
      | .half h => leBytes 2 h.toNat
      | .word w => leBytes 4 w.toNat
    let only (t : State) : Prop :=
      t = { s with cores := { s.cores with cv := t.cores.cv } } ∧ ∀ x, cvKey x ≠ cvKey u → cvOf t x = cvOf s x
    (runs = false → exec (.cvSelect u p) s = .next s ∧ exec (.cvFeed u d) s = .next s ∧ exec (.cvRead u) s = .next s) ∧
    (runs = true → waits = true → Waits (.cvSelect u p) s ∧ Waits (.cvFeed u d) s ∧ Waits (.cvRead u) s) ∧
    (runs = true → waits = false →
      (Answers (.cvSelect u p) s fun t => only t ∧
        cvOf t u = { v with poly := p, reg := BitVec.ofNat 64 (polyRow p).init, opened := true, owner := user }) ∧
      (user ≠ none → v.owner ≠ user → exec (.cvFeed u d) s = .refused (.refusedAtBuild 353) ∧
        exec (.cvRead u) s = .refused (.refusedAtBuild 353)) ∧
      (user = none ∨ v.owner = user →
        (v.opened = true → Answers (.cvFeed u d) s fun t => only t ∧
          cvOf t u = { v with reg := BitVec.ofNat 64 (bytes.foldl (crcByte (polyRow v.poly)) v.reg.toNat) }) ∧
        (v.opened = true → Answers (.cvRead u) s fun t => only t ∧
          cvOf t u = { v with opened := false, value := BitVec.ofNat 64 (crcOut (polyRow v.poly) v.reg.toNat) }) ∧
        (v.opened = false → Answers (.cvFeed u d) s fun t => only t ∧ cvOf t u = v) ∧
        (v.opened = false → Answers (.cvRead u) s fun t => only t ∧ cvOf t u = { v with value := 0 })))

/-- R218 to R227. Statuses: 0 accepted, 1 to 3 the checks of R220, 4 LENGTH_LIMIT, 5 FREE. -/
def Obligations.CacheSlotsAreEditedAndPublished : Prop :=
  ∀ (s u : State) (j : Job) (c : CacheDecl) (op : U32) (record slot upTo k : Nat) (a : AppendRecord) (core : Core)
      (rs : List Nat) (as : List AppendRecord), s.job = some j → cacheOf s = some c → SMap.wf 0 s.kv.refs = true →
    let r := readAdmit s record
    let sh := admitShared s c r
    let st := admitStatus s c r
    let edits (t : State) (n : Nat) (o : U32) : Prop := t.kv.edits = s.kv.edits ++ [(n, o)]
    let storesOnly (t : State) : Prop :=
      t = { s with hbm := { s.hbm with dev := t.hbm.dev, poison := t.hbm.poison }, kv := t.kv, ended := t.ended }
    let answered (x : U16) (t : State) : Prop := t = { s with kv := { s.kv with result := x }, ended := t.ended }
    let enter (l : List Nat) : Instr := .admission op (.built l)
    let append (l : List AppendRecord) : Instr := .append ⟨op, l⟩
    let free (l : List Nat) : Instr := .release op l
    (acts s op = true → exec (.admission op (.host k)) s = exec (enter (nthD [] j.taken k)) s) ∧
    (acts s op = true → ∀ e, cacheFault s c = some e → exec (enter rs) s = .refused (.refusedAtBuild e) ∧
      exec (append as) s = .refused (.refusedAtBuild e) ∧ exec (free rs) s = .refused (.refusedAtBuild e)) ∧
    (acts s op = true → cacheFault s c = none → cacheTurn s op = false →
      Waits (enter rs) s ∧ Waits (append as) s ∧ Waits (free rs) s) ∧
    (acts s op = true → cacheFault s c = none → cacheTurn s op = true →
      (admitOne op c record s = some u →
        exec (enter (record :: rs)) s = .next (runTable op enter (admitOne op c) rs u)) ∧
      (admitOne op c record s = none → Waits (enter (record :: rs)) s) ∧
      (appendOne op c a s = some u → exec (append (a :: as)) s = .next (runTable op append (appendOne op c) as u)) ∧
      (appendOne op c a s = none → Waits (append (a :: as)) s) ∧
      (releaseOne op c slot s = some u → exec (free (slot :: rs)) s = .next (runTable op free (releaseOne op c) rs u)) ∧
      (releaseOne op c slot s = none → Waits (free (slot :: rs)) s) ∧
      (st ≠ 0 → Answers (enter [record]) s fun t => storesOnly t ∧ t.kv = { s.kv with result := st } ∧
        devNat t (record + 6) 2 = st.toNat ∧
        ∀ b n, b + n ≤ record + 6 ∨ record + 8 ≤ b → devRead t b n = devRead s b n) ∧
      (st = 0 → editPending s r.slot = true → admitOne op c record s = none) ∧
      (st = 0 → editPending s r.slot = false →
        record + 32 ≤ slotAddr c r.slot ∨ slotAddr c r.slot + 8256 ≤ record → Answers (enter [record]) s fun t =>
          storesOnly t ∧ edits t r.slot op ∧ t.kv.freeQ = s.kv.freeQ ∧ t.kv.result = 0 ∧
          (∀ p, SMap.get 0 t.kv.refs p = SMap.get 0 s.kv.refs p + (sh.map Prod.fst).count p) ∧
          slotStatus t c r.slot = 1 ∧ slotLen t c r.slot = 256 * sh.length ∧ slotMax t c r.slot = r.maxLen ∧
          slotReserved t c r.slot = admitNeed r sh ∧ slotGen t c r.slot = slotGen s c r.slot ∧
          livePages t c r.slot = livePages s c r.slot ∧
          (∀ i, i < 1024 → devNat t (rowAddr c r.slot (1 - liveRow s c r.slot) + 4 * i) 4 =
            match sh[i]? with
            | some e => e.1 % 2 ^ 32
            | none => 0xFFFFFFFF) ∧
          devNat t (record + 8) 4 = 256 * sh.length ∧ devNat t (record + 6) 2 = 0) ∧
      (let status := slotStatus s c a.slot
       let len := slotLen s c a.slot
       let m := appendCount s c a
       let new := appendPages len m
       (status = 0 → Answers (append [a]) s (answered 5)) ∧
       (status = 2 → Answers (append [a]) s (answered 4)) ∧
       (status ≠ 0 → status ≠ 2 → editPending s a.slot = true ∨ (s.kv.freeQ.take new).any (pagePending s.kv) = true →
         appendOne op c a s = none) ∧
       (status ≠ 0 → status ≠ 2 → editPending s a.slot = false → (s.kv.freeQ.take new).any (pagePending s.kv) = false →
         new ≤ slotReserved s c a.slot → Answers (append [a]) s fun t =>
           storesOnly t ∧ edits t a.slot op ∧ t.kv.freeQ = s.kv.freeQ.drop new ∧ slotLen t c a.slot = len + m ∧
           slotMax t c a.slot = slotMax s c a.slot ∧ slotReserved t c a.slot = slotReserved s c a.slot - new ∧
           t.kv.result = (if slotMax s c a.slot ≤ len + m then 4 else 0) ∧
           slotStatus t c a.slot = if slotMax s c a.slot ≤ len + m then 2 else 1)) ∧
      (slotStatus s c slot = 0 → Answers (free [slot]) s (answered 5)) ∧
      (slotStatus s c slot ≠ 0 → editPending s slot = true → releaseOne op c slot s = none) ∧
      (slotStatus s c slot ≠ 0 → editPending s slot = false → (livePages s c slot).Nodup →
        Answers (free [slot]) s fun t =>
          storesOnly t ∧ edits t slot op ∧ slotStatus t c slot = 0 ∧ slotLen t c slot = 0 ∧ t.kv.result = 0 ∧
          livePages t c slot = livePages s c slot ∧
          (∀ p ∈ livePages s c slot, SMap.get 0 t.kv.refs p = SMap.get 0 s.kv.refs p - 1) ∧
          t.kv.freeQ = s.kv.freeQ ++ (livePages s c slot).filter (fun p => decide (SMap.get 0 s.kv.refs p ≤ 1)) ∧
          ∀ e, e ∈ t.kv.index ↔
            e ∈ s.kv.index ∧ ¬ (e.2 ∈ livePages s c slot ∧ SMap.get 0 s.kv.refs e.2 ≤ 1))) ∧
    (acts s op = true → (∃ e ∈ s.kv.edits, e.1 = slot ∧ e.2.toNat < op.toNat) ∨ kindEnded s .cache op = false →
      Waits (.walkerSnapshot core op slot upTo) s) ∧
    (acts s op = true → (∀ e ∈ s.kv.edits, e.1 = slot → op.toNat ≤ e.2.toNat) → kindEnded s .cache op = true →
      exec (.walkerSnapshot core op slot upTo) s = .next { s with kv := { s.kv with snaps := s.kv.snaps ++
        [⟨core, op, slot, BitVec.ofNat 32 (slotGen s c slot), (livePages s c slot).take (ceilDiv upTo 256)⟩] } }) ∧
    (∀ before n after, s.kv.snaps = before ++ n :: after → isSnap core op slot n = true →
      (∀ x ∈ before, isSnap core op slot x = false) →
      exec (.snapshotRelease core op slot) s = .next { s with kv := { s.kv with snaps := before ++ after } }) ∧
    ((∀ x ∈ s.kv.snaps, isSnap core op slot x = false) → exec (.snapshotRelease core op slot) s = .next s) ∧
    (∀ o, s.kv.edits.find? (fun e => e.1 == slot) = some (slot, o) →
      let held : Prop := kindEnded s .walker o = false ∨ ∃ n ∈ s.kv.snaps, n.slot = slot ∧ n.op.toNat < o.toNat
      (¬ held → Answers (.cachePublish slot) s fun t =>
        storesOnly t ∧ t.kv = { s.kv with edits := t.kv.edits } ∧ t.kv.edits.length + 1 = s.kv.edits.length ∧
        slotGen t c slot = (slotGen s c slot + 1) % 2 ^ 32 ∧
        ∀ b n, b + n ≤ slotAddr c slot ∨ slotAddr c slot + 4 ≤ b → devRead t b n = devRead s b n) ∧
      (held → Waits (.cachePublish slot) s)) ∧
    (editPending s slot = false → exec (.cachePublish slot) s = .next s)

/-- R331 to R348, R453. Counts 0 to 6 are the causes of R346, 7 replacements, 8 unplaced, 9 failed records. -/
def Obligations.GatehouseBuildsBatches : Prop :=
  ∀ (s : State) (j : Job) (ch : Chan) (d rec : BitVec 512) (bytes : Option (List Byte)) (x : Sample) (i r : Nat)
      (b : BatchDecl) (k : OddCause), s.job = some j →
    let n := ch.val
    let c := getChan s n
    let only (t : State) : Prop :=
      t = { s with gatehouse := { s.gatehouse with chans := t.gatehouse.chans } } ∧
      ∀ q, q ≠ n → getChan t q = getChan s q
    let counted (t : State) (m by_ : Nat) : Prop :=
      ∀ q, nthD 0 (getChan t n).tally q = nthD 0 c.tally q + if q = m then by_ else 0
    let placedCount (t : State) (tl : Tally) (more : Nat) : Prop :=
      ∀ q, nthD 0 (getChan t n).tally q = nthD 0 c.tally q +
        if q = 7 then more else if q = 10 then tl.sat else if q = 11 then tl.flush else 0
    let loads : Bool := ghRuns s && usesDict j && !s.gatehouse.loaded
    let dict := parseDict (devRead s (Desc.dictAddr j.desc) 64)
      (devRead s (Desc.dictAddr j.desc + 64) (dictExtent s (Desc.dictAddr j.desc) - 64))
    (loads = false ∨ dict = none → exec .dictionaryLoad s = .next s) ∧
    (∀ es fb, loads = true → dict = some (es, fb) → exec .dictionaryLoad s =
      .next { s with gatehouse := { s.gatehouse with dict := es, fallback := fb, loaded := true } }) ∧
    (ghRuns s = false ∨ mayTake s j c = false → exec (.sampleDescriptor ch d) s = .next s) ∧
    (n < s.gatehouse.chans.length → c.tally.length = 12 →
      (ghRuns s = true → mayTake s j c = true →
        let aliveOk := (aliveStep d c).1
        let taken (t : State) : Prop := only t ∧ (getChan t n).taken = c.taken + 1 ∧
          (getChan t n).ended = Samp.endOfBatch d ∧ (getChan t n).batch = c.batch
        let unplaced (t : State) : Prop :=
          (getChan t n).samples = c.samples ++ [⟨d, none, false, false, none⟩] ∧ (getChan t n).occ = c.occ
        let placed (t : State) (y : Sample) : Prop :=
          (getChan t n).samples = c.samples ++ [y] ∧ (getChan t n).occ = updNth (· + Samp.slotLen d) c.occ r
        (descOk d = false → Answers (.sampleDescriptor ch d) s fun t => taken t ∧ unplaced t ∧ counted t 0 1) ∧
        (descOk d = true → slotLenBad c d = true → Answers (.sampleDescriptor ch d) s fun t =>
          taken t ∧ unplaced t ∧ counted t 4 1) ∧
        (descOk d = true → slotLenBad c d = false → placeRow c (Samp.slotLen d) = none →
          Answers (.sampleDescriptor ch d) s fun t => taken t ∧ unplaced t ∧ counted t 8 1) ∧
        (descOk d = true → slotLenBad c d = false → placeRow c (Samp.slotLen d) = some r →
          (descCause n c false aliveOk d = none → Answers (.sampleDescriptor ch d) s fun t =>
            taken t ∧ placed t ⟨d, some r, true, false, none⟩ ∧ counted t 0 0) ∧
          (descCause n c false aliveOk d = some k → Answers (.sampleDescriptor ch d) s fun t =>
            taken t ∧ placed t ⟨d, some r, false, true, none⟩ ∧ counted t (causeNo k) 1))) ∧
      (ghRuns s = true → chanOn c = true → c.ended = true → c.reserve = none →
        let good := (acceptRecord rec c).1 && BitVec.ofNat 64 (field rec 319 256) == c.batch &&
          decide (field rec 327 320 ≤ 8) && field rec 471 328 == 0
        Answers (.reserveListRecord ch rec) s fun t => only t ∧ (getChan t n).samples = c.samples ∧
          (good = true → counted t 9 0 ∧ (getChan t n).reserve =
            some ((upFrom 0 (field rec 327 320)).map fun e => field rec (32 * e + 31) (32 * e))) ∧
          (good = false → counted t 9 1 ∧ (getChan t n).reserve = some [])) ∧
      (ghRuns s = true → nextPending c = some i → c.samples[i]? = some x →
        (x.awaiting = true →
          (∀ e, decodeSample n s c x.desc bytes = .odd e → Answers (.sampleBytesArrive ch bytes) s fun t =>
            only t ∧ counted t (causeNo e) 1 ∧
            (getChan t n).samples[i]? = some { x with awaiting := false, needsReserve := true }) ∧
          (∀ content len looks tl, decodeSample n s c x.desc bytes = .good content len looks tl →
            (len ≤ Samp.slotLen x.desc → Answers (.sampleBytesArrive ch bytes) s fun t =>
              only t ∧ placedCount t tl 0 ∧
              (getChan t n).samples[i]? = some { x with awaiting := false, content := some content }) ∧
            (Samp.slotLen x.desc < len → Answers (.sampleBytesArrive ch bytes) s fun t => only t ∧ counted t 4 1 ∧
              (getChan t n).samples[i]? = some { x with awaiting := false, needsReserve := true })) ∧
          exec (.reserveEntry ch d bytes) s = .next s) ∧
        (x.awaiting = false →
          (descCause n c true true d = some k → Answers (.reserveEntry ch d bytes) s fun t =>
            only t ∧ counted t (causeNo k) 1 ∧ (getChan t n).used = c.used + 1 ∧ (getChan t n).samples = c.samples) ∧
          (∀ e, descCause n c true true d = none → decodeSample n s c d bytes = .odd e →
            Answers (.reserveEntry ch d bytes) s fun t =>
              only t ∧ counted t (causeNo e) 1 ∧ (getChan t n).used = c.used + 1 ∧ (getChan t n).samples = c.samples) ∧
          (∀ content len looks tl, descCause n c true true d = none →
            decodeSample n s c d bytes = .good content len looks tl →
            (len ≤ Samp.slotLen x.desc → Answers (.reserveEntry ch d bytes) s fun t =>
              only t ∧ placedCount t tl 1 ∧ (getChan t n).used = c.used + 1 ∧
              (getChan t n).samples[i]? = some { x with needsReserve := false, content := some content }) ∧
            (Samp.slotLen x.desc < len → Answers (.reserveEntry ch d bytes) s fun t =>
              only t ∧ counted t 0 0 ∧ (getChan t n).used = c.used + 1 ∧
              (getChan t n).samples[i]? = some { x with needsReserve := false })) ∧
          exec (.sampleBytesArrive ch bytes) s = .next s)) ∧
      (ghRuns s = true → chanOn c = true → c.ended = true → c.reserve ≠ none → nextPending c = none →
        j.image.batch = some b → SMap.wf 0 s.status.gh = true → Answers (.batchComplete ch) s fun t =>
          let a := sectionAddr b (batchStep j c) n
          devRead t a (sectionBytes c).length = sectionBytes c ∧
          (∀ y m, y + m ≤ a ∨ a + (sectionBytes c).length ≤ y → devRead t y m = devRead s y m) ∧
          (getChan t n).batch = c.batch + 1 ∧ (getChan t n).ringPos = c.taken ∧ (getChan t n).samples = [] ∧
          (getChan t n).ended = false ∧ (getChan t n).reserve = none ∧
          (∀ q, q ≠ n → getChan t q = getChan s q) ∧
          ∀ q, q < 12 → SMap.get 0 t.status.gh (12 * n + q) =
            if c.batch.toNat < c.built then SMap.get 0 s.status.gh (12 * n + q)
            else satInc (SMap.get 0 s.status.gh (12 * n + q)) (nthD 0 c.tally q))) ∧
    (ghRuns s = false → ∀ ch' d' b', exec (.sampleBytesArrive ch' b') s = .next s ∧
      exec (.reserveEntry ch' d' b') s = .next s ∧ exec (.batchComplete ch') s = .next s ∧
      exec (.reserveListRecord ch' d') s = .next s ∧ exec .batchRebuild s = .next s) ∧
    (j.image.batch = some b →
      let page := b.ghPage / 65536
      let ready : Bool := inStep s && batchReady s j s.status.step.toNat && !refreshHolds s page
      (ready = true → SMap.wf 0 s.hbm.stamps = true → Answers .gatehouseStatePage s fun t =>
        devRead t b.ghPage 65536 = ghPageBytes s (s.status.step.toNat + 1 - Desc.firstStep j.desc) ∧
        SMap.get 0 t.hbm.stamps page = s.status.step ∧ t.gatehouse = s.gatehouse ∧ t.job = s.job ∧
        ∀ y m, y + m ≤ b.ghPage ∨ b.ghPage + 65536 ≤ y → devRead t y m = devRead s y m) ∧
      (ready = false → exec .gatehouseStatePage s = .next s)) ∧
    (s.gatehouse.rebuilding = false → exec .batchRebuild s = .next s) ∧
    (let offset := s.status.step.toNat - Desc.firstStep j.desc
     let page : Bool := decide (j.phase = .boundary) && !s.recovery.paused && pageServes s j offset
     (s.gatehouse.fromPage = true → page = false → exec .batchRebuild s = .next s) ∧
     (ghRuns s = true → s.gatehouse.rebuilding = true → s.gatehouse.fromPage = false ∨ page = true →
      Answers .batchRebuild s fun t =>
      t = { s with gatehouse := { s.gatehouse with
        chans := t.gatehouse.chans, rebuilding := false, fromPage := false } } ∧
      ∀ q, q < s.gatehouse.chans.length →
        getChan t q = rebuildChan s j (s.status.step.toNat - Desc.firstStep j.desc) q (getChan s q)))

/-- The form is `State.canonical`; no state that no run reaches is left out but those without it. -/
def Obligations.CanonicalStoresStay : Prop :=
  ∀ s t : State, s.canonical = true → step s = .next t → t.canonical = true

/-- R399, R402, R405, R437, over every command and every state. -/
def Obligations.FusesOnlyBlow : Prop :=
  ∀ s t : State, step s = .next t →
    (t.fuses ≠ s.fuses → ∃ i, (s.pending.head? = some i ∨ (s.pending = [] ∧ i ∈ s.stalled)) ∧
      ((∃ c, i = .lifecycle c) ∨ (∃ f, i = .healthSweep f) ∨ (∃ f, i = .heldSweepStart f) ∨
        (i ∈ [.bootRom, .warmReset, .perstAssert] ∧ transitionOpen s.fuses = true ∧
          t.fuses = { s.fuses with lifecycle := t.fuses.lifecycle }))) ∧
    t.fuses.vendorRootHash = s.fuses.vendorRootHash ∧ t.fuses.romKey = s.fuses.romKey ∧
    t.fuses.deviceSecret = s.fuses.deviceSecret ∧ t.fuses.deviceId = s.fuses.deviceId ∧
    (∀ k, k < 4 →
      let o := slotOf s.fuses k
      let p := slotOf t.fuses k
      (o.valid = true → p.valid = true) ∧ (o.revoked = true → p.revoked = true) ∧
      (o.touched = true → p.ownerKey = o.ownerKey ∧ p.seed = o.seed)) ∧
    s.fuses.deadCores <+: t.fuses.deadCores ∧ s.fuses.deadRows <+: t.fuses.deadRows ∧
    s.fuses.deadWaves <+: t.fuses.deadWaves
end

