-- ==== Sys2Proof/Laws/Mem.lean ====
section
/-! SUPPORT. The laws of the byte stores and sparse maps: a read after a write to the same place gives what was written,
a write leaves every other place alone, and every operation keeps the canonical form. -/

namespace Sys2Proof.Machine

/-! ## Reading -/

@[simp] theorem Mem.get_nil (fill : Byte) (a : Nat) : Mem.get fill [] a = fill := rfl

/-- Entries below an address are passed over by a read at or above it. -/
theorem Mem.get_below_append (fill : Byte) (m r : Mem) (a b : Nat) (h : a ≤ b) :
    Mem.get fill (Mem.below m a ++ r) b = Mem.get fill r b := by
  induction m with
  | nil => rfl
  | cons e m ih =>
    obtain ⟨k, v⟩ := e
    by_cases hk : k < a
    · have h1 : ¬ k = b := by omega
      have h2 : ¬ b < k := by omega
      simp [Mem.below, hk, Mem.get, h1, h2, ih]
    · simp [Mem.below, hk]

/-- What a read below an address finds is what lies below it. -/
theorem Mem.get_below (fill : Byte) (m r : Mem) (a b : Nat) (h : b < a)
    (hr : Mem.get fill r b = fill) : Mem.get fill (Mem.below m a ++ r) b = Mem.get fill m b := by
  induction m with
  | nil => simpa [Mem.below, Mem.get] using hr
  | cons e m ih =>
    obtain ⟨k, v⟩ := e
    by_cases hk : k < a
    · simp only [Mem.below, hk, if_true, List.cons_append, Mem.get, ih]
    · have h1 : ¬ k = b := by omega
      have h2 : b < k := by omega
      simp [Mem.below, hk, Mem.get, h1, h2, hr]

theorem Mem.get_above_lt (fill : Byte) (m : Mem) (a b : Nat) (h : b < a) :
    Mem.get fill (Mem.above m a) b = fill := by
  induction m with
  | nil => rfl
  | cons e m ih =>
    obtain ⟨k, v⟩ := e
    by_cases hk : k < a
    · simpa [Mem.above, hk] using ih
    · have h1 : ¬ k = b := by omega
      have h2 : b < k := by omega
      simp [Mem.above, hk, Mem.get, h1, h2]

theorem Mem.get_above (fill : Byte) (m : Mem) (a b : Nat) (h : a ≤ b) :
    Mem.get fill (Mem.above m a) b = Mem.get fill m b := by
  induction m with
  | nil => rfl
  | cons e m ih =>
    obtain ⟨k, v⟩ := e
    by_cases hk : k < a
    · have h1 : ¬ k = b := by omega
      have h2 : ¬ b < k := by omega
      simp [Mem.above, hk, Mem.get, h1, h2, ih]
    · simp [Mem.above, hk]

/-- A read below a block of bytes finds nothing in it. -/
theorem Mem.get_block_lt (fill : Byte) (bs : List Byte) (r : Mem) (a b : Nat) (h : b < a)
    (hr : Mem.get fill r b = fill) : Mem.get fill (Mem.block fill a bs ++ r) b = fill := by
  induction bs generalizing a with
  | nil => simpa [Mem.block] using hr
  | cons x bs ih =>
    by_cases hx : x = fill
    · simpa [Mem.block, hx] using ih (a + 1) (by omega)
    · have h1 : ¬ a = b := by omega
      simp [Mem.block, hx, Mem.get, h1, h]

/-- A block of bytes is passed over by a read above it. -/
theorem Mem.get_block_ge (fill : Byte) (bs : List Byte) (r : Mem) (a b : Nat) (h : a + bs.length ≤ b) :
    Mem.get fill (Mem.block fill a bs ++ r) b = Mem.get fill r b := by
  induction bs generalizing a with
  | nil => simp [Mem.block]
  | cons x bs ih =>
    have hl : a + 1 + bs.length ≤ b := by simp at h; omega
    have h1 : ¬ a = b := by omega
    have h2 : ¬ b < a := by omega
    by_cases hx : x = fill
    · simpa [Mem.block, hx] using ih (a + 1) hl
    · simpa [Mem.block, hx, Mem.get, h1, h2] using ih (a + 1) hl

/-- A read inside a block of bytes finds its byte. -/
theorem Mem.get_block (fill : Byte) (bs : List Byte) (r : Mem) (a i : Nat) (h : i < bs.length)
    (hr : ∀ b, b < a + bs.length → Mem.get fill r b = fill) :
    Mem.get fill (Mem.block fill a bs ++ r) (a + i) = bs.getD i fill := by
  induction bs generalizing a i with
  | nil => simp at h
  | cons x bs ih =>
    have hr' : ∀ b, b < a + 1 + bs.length → Mem.get fill r b = fill := fun b hb => hr b (by simp; omega)
    cases i with
    | zero =>
      by_cases hx : x = fill
      · simpa [Mem.block, hx] using
          Mem.get_block_lt fill bs r (a + 1) a (by omega) (hr a (by simp))
      · simp [Mem.block, hx, Mem.get]
    | succ i =>
      have e : a + (i + 1) = a + 1 + i := by omega
      have := ih (a + 1) i (by simpa using h) hr'
      by_cases hx : x = fill
      · simpa [Mem.block, hx, e] using this
      · have h1 : ¬ a = a + 1 + i := by omega
        have h2 : ¬ a + 1 + i < a := by omega
        simpa [Mem.block, hx, e, Mem.get, h1, h2] using this

/-- A read of a written byte gives it. -/
theorem Mem.get_write_same (fill : Byte) (m : Mem) (a : Nat) (bs : List Byte) (i : Nat) (h : i < bs.length) :
    Mem.get fill (Mem.write fill m a bs) (a + i) = bs.getD i fill := by
  rw [Mem.write, Mem.get_below_append _ _ _ _ _ (by omega)]
  exact Mem.get_block fill bs _ a i h fun b hb => Mem.get_above_lt fill m _ b hb

/-- A write leaves every other byte alone. -/
theorem Mem.get_write_other (fill : Byte) (m : Mem) (a : Nat) (bs : List Byte) (b : Nat)
    (h : b < a ∨ a + bs.length ≤ b) : Mem.get fill (Mem.write fill m a bs) b = Mem.get fill m b := by
  rcases h with h | h
  · exact Mem.get_below fill m _ a b h
      (Mem.get_block_lt fill bs _ a b h (Mem.get_above_lt fill m _ b (by omega)))
  · rw [Mem.write, Mem.get_below_append _ _ _ _ _ (by omega), Mem.get_block_ge _ _ _ _ _ h,
      Mem.get_above _ _ _ _ h]

@[simp] theorem Mem.read_length (fill : Byte) (m : Mem) (a n : Nat) : (Mem.read fill m a n).length = n := by
  induction n generalizing a with
  | zero => rfl
  | succ n ih => simp [Mem.read, ih]

theorem Mem.read_congr (fill : Byte) (m m' : Mem) (a n : Nat)
    (h : ∀ b, a ≤ b → b < a + n → Mem.get fill m b = Mem.get fill m' b) :
    Mem.read fill m a n = Mem.read fill m' a n := by
  induction n generalizing a with
  | zero => rfl
  | succ n ih =>
    simp only [Mem.read]
    rw [h a (Nat.le_refl a) (by omega), ih (a + 1) fun b h1 h2 => h b (by omega) (by omega)]

theorem Mem.read_eq (fill : Byte) (m : Mem) (bs : List Byte) (a : Nat)
    (h : ∀ i, i < bs.length → Mem.get fill m (a + i) = bs.getD i fill) : Mem.read fill m a bs.length = bs := by
  induction bs generalizing a with
  | nil => rfl
  | cons x bs ih =>
    simp only [List.length_cons, Mem.read]
    have h0 := h 0 (by simp)
    rw [ih (a + 1) fun i hi => ?_]
    · simpa using h0
    · have := h (i + 1) (by simpa using hi)
      rw [show a + 1 + i = a + (i + 1) by omega]
      simpa using this

/-- Reading back what was written. -/
@[simp] theorem Mem.read_write_same (fill : Byte) (m : Mem) (a : Nat) (bs : List Byte) :
    Mem.read fill (Mem.write fill m a bs) a bs.length = bs :=
  Mem.read_eq fill _ bs a fun i hi => Mem.get_write_same fill m a bs i hi

/-- Reading a range that a write does not touch. -/
theorem Mem.read_write_other (fill : Byte) (m : Mem) (a : Nat) (bs : List Byte) (b n : Nat)
    (h : b + n ≤ a ∨ a + bs.length ≤ b) :
    Mem.read fill (Mem.write fill m a bs) b n = Mem.read fill m b n :=
  Mem.read_congr fill _ _ b n fun c _ _ => Mem.get_write_other fill m a bs c (by omega)

/-- A cleared byte reads as the store's default, every other one as before. -/
theorem Mem.get_clear (fill : Byte) (m : Mem) (a len b : Nat) :
    Mem.get fill (Mem.clear m a len) b = if a ≤ b ∧ b < a + len then fill else Mem.get fill m b := by
  unfold Mem.clear
  by_cases h : a ≤ b ∧ b < a + len
  · rw [Mem.get_below_append _ _ _ _ _ h.1, Mem.get_above_lt _ _ _ _ h.2, if_pos h]
  · rw [if_neg h]
    by_cases h1 : b < a
    · exact Mem.get_below fill m _ a b h1 (Mem.get_above_lt fill m _ b (by omega))
    · rw [Mem.get_below_append _ _ _ _ _ (by omega), Mem.get_above _ _ _ _ (by omega)]

/-! ## The canonical form -/

theorem Mem.wfFrom_mono (fill : Byte) (m : Mem) (a b : Nat) (h : b ≤ a) (hm : Mem.wfFrom fill a m = true) :
    Mem.wfFrom fill b m = true := by
  cases m with
  | nil => rfl
  | cons e m =>
    obtain ⟨k, v⟩ := e
    simp only [Mem.wfFrom, Bool.and_eq_true, decide_eq_true_eq] at hm ⊢
    exact ⟨⟨by omega, hm.1.2⟩, hm.2⟩

/-- The entries below an address, followed by a canonical store above it. -/
theorem Mem.wfFrom_below_append (fill : Byte) (m r : Mem) (lo a : Nat) (hlo : lo ≤ a)
    (hm : Mem.wfFrom fill lo m = true) (hr : Mem.wfFrom fill a r = true) :
    Mem.wfFrom fill lo (Mem.below m a ++ r) = true := by
  induction m generalizing lo with
  | nil => exact Mem.wfFrom_mono fill r a lo hlo hr
  | cons e m ih =>
    obtain ⟨k, v⟩ := e
    simp only [Mem.wfFrom, Bool.and_eq_true, decide_eq_true_eq] at hm
    by_cases hk : k < a
    · simp only [Mem.below, hk, if_true, List.cons_append, Mem.wfFrom, Bool.and_eq_true, decide_eq_true_eq]
      exact ⟨hm.1, ih (k + 1) hk hm.2⟩
    · simpa [Mem.below, hk] using Mem.wfFrom_mono fill r a lo hlo hr

theorem Mem.wfFrom_above (fill : Byte) (m : Mem) (lo a : Nat) (hm : Mem.wfFrom fill lo m = true) :
    Mem.wfFrom fill a (Mem.above m a) = true := by
  induction m generalizing lo with
  | nil => rfl
  | cons e m ih =>
    obtain ⟨k, v⟩ := e
    simp only [Mem.wfFrom, Bool.and_eq_true, decide_eq_true_eq] at hm
    by_cases hk : k < a
    · simpa [Mem.above, hk] using ih (k + 1) hm.2
    · simp only [Mem.above, hk, if_false, Mem.wfFrom, Bool.and_eq_true, decide_eq_true_eq]
      exact ⟨⟨by omega, hm.1.2⟩, hm.2⟩

theorem Mem.wfFrom_block_append (fill : Byte) (bs : List Byte) (r : Mem) (a : Nat)
    (hr : Mem.wfFrom fill (a + bs.length) r = true) :
    Mem.wfFrom fill a (Mem.block fill a bs ++ r) = true := by
  induction bs generalizing a with
  | nil => simpa [Mem.block] using hr
  | cons x bs ih =>
    have hr' : Mem.wfFrom fill (a + 1 + bs.length) r = true :=
      Mem.wfFrom_mono fill r _ _ (by simp; omega) hr
    by_cases hx : x = fill
    · simpa [Mem.block, hx] using Mem.wfFrom_mono fill _ _ _ (Nat.le_succ a) (ih (a + 1) hr')
    · simpa [Mem.block, hx, Mem.wfFrom] using ih (a + 1) hr'

/-- A write keeps the canonical form. -/
theorem Mem.wf_write (fill : Byte) (m : Mem) (a : Nat) (bs : List Byte) (h : Mem.wf fill m = true) :
    Mem.wf fill (Mem.write fill m a bs) = true :=
  Mem.wfFrom_below_append fill m _ 0 a (Nat.zero_le a) h
    (Mem.wfFrom_block_append fill bs _ a (Mem.wfFrom_above fill m 0 _ h))

/-- Clearing a range keeps the canonical form. -/
theorem Mem.wf_clear (fill : Byte) (m : Mem) (a len : Nat) (h : Mem.wf fill m = true) :
    Mem.wf fill (Mem.clear m a len) = true :=
  Mem.wfFrom_below_append fill m _ 0 a (Nat.zero_le a) h
    (Mem.wfFrom_mono fill _ _ _ (Nat.le_add_right a len) (Mem.wfFrom_above fill m 0 _ h))

/-- The part of a canonical store between two addresses, moved to another place, before a canonical store. -/
theorem Mem.wfFrom_moved (fill : Byte) (m r : Mem) (lo src n dst : Nat) (hlo : src ≤ lo)
    (hm : Mem.wfFrom fill lo m = true) (hr : Mem.wfFrom fill (dst + n) r = true) (hn : lo ≤ src + n) :
    Mem.wfFrom fill (lo - src + dst)
      ((Mem.below m (src + n)).map (fun c => (c.1 - src + dst, c.2)) ++ r) = true := by
  induction m generalizing lo with
  | nil => exact Mem.wfFrom_mono fill r _ _ (by omega) hr
  | cons e m ih =>
    obtain ⟨k, v⟩ := e
    simp only [Mem.wfFrom, Bool.and_eq_true, decide_eq_true_eq] at hm
    by_cases hk : k < src + n
    · simp only [Mem.below, hk, if_true, List.map_cons, List.cons_append, Mem.wfFrom, Bool.and_eq_true,
        decide_eq_true_eq]
      refine ⟨⟨by omega, hm.1.2⟩, ?_⟩
      have := ih (k + 1) (by omega) hm.2 (by omega)
      rwa [show k + 1 - src + dst = k - src + dst + 1 by omega] at this
    · simpa [Mem.below, hk] using Mem.wfFrom_mono fill r _ _ (by omega) hr

/-- A copy between two stores keeps the canonical form. -/
theorem Mem.wf_copy (fill : Byte) (store m : Mem) (src n dst : Nat) (hs : Mem.wf fill store = true)
    (h : Mem.wf fill m = true) : Mem.wf fill (Mem.copy store src n dst m) = true := by
  have h1 := Mem.wfFrom_moved fill (Mem.above store src) (Mem.above m (dst + n)) src src n dst (Nat.le_refl _)
    (Mem.wfFrom_above fill store 0 src hs) (Mem.wfFrom_above fill m 0 _ h) (Nat.le_add_right _ _)
  rw [Nat.sub_self, Nat.zero_add] at h1
  unfold Mem.copy Mem.wf
  rw [List.append_assoc]
  exact Mem.wfFrom_below_append fill m _ 0 dst (Nat.zero_le _) h h1

theorem Mem.wfFrom_filter (fill : Byte) (m : Mem) (lo : Nat) (p : Host.Cell → Bool)
    (h : Mem.wfFrom fill lo m = true) : Mem.wfFrom fill lo (m.filter p) = true := by
  induction m generalizing lo with
  | nil => rfl
  | cons e m ih =>
    obtain ⟨k, v⟩ := e
    simp only [Mem.wfFrom, Bool.and_eq_true, decide_eq_true_eq] at h
    have := ih (k + 1) h.2
    by_cases hp : p (k, v) = true
    · simp only [List.filter_cons, hp, if_true, Mem.wfFrom, Bool.and_eq_true, decide_eq_true_eq]
      exact ⟨h.1, this⟩
    · simp only [List.filter_cons, hp]
      exact Mem.wfFrom_mono fill _ _ _ (by omega) this

/-- Leaving entries out keeps the canonical form. -/
theorem Mem.wf_filter (fill : Byte) (m : Mem) (p : Host.Cell → Bool) (h : Mem.wf fill m = true) :
    Mem.wf fill (m.filter p) = true := Mem.wfFrom_filter fill m 0 p h

@[simp] theorem Mem.wf_nil (fill : Byte) : Mem.wf fill [] = true := rfl

/-! ## Sparse maps -/

@[simp] theorem SMap.get_nil {α : Type} (d : α) (a : Nat) : SMap.get d [] a = d := rfl

theorem SMap.get_put_same {α : Type} (d : α) (m : SMap α) (a : Nat) (x : α) :
    SMap.get d (SMap.put m a x) a = x := by
  induction m with
  | nil => simp [SMap.put, SMap.get]
  | cons e m ih =>
    obtain ⟨k, v⟩ := e
    rcases Nat.lt_trichotomy k a with h | h | h
    · have h1 : ¬ k = a := by omega
      have h2 : ¬ a < k := by omega
      simp [SMap.put, h, SMap.get, h1, h2, ih]
    · simp [SMap.put, h, SMap.get]
    · have h1 : ¬ k < a := by omega
      have h2 : ¬ k = a := by omega
      simp [SMap.put, h1, h2, SMap.get]

theorem SMap.get_put_other {α : Type} (d : α) (m : SMap α) (a b : Nat) (x : α) (hab : b ≠ a) :
    SMap.get d (SMap.put m a x) b = SMap.get d m b := by
  induction m with
  | nil => have h : ¬ a = b := fun h => hab h.symm; simp [SMap.put, SMap.get, h]
  | cons e m ih =>
    obtain ⟨k, v⟩ := e
    rcases Nat.lt_trichotomy k a with h | h | h
    · simp only [SMap.put, h, if_true, SMap.get, ih]
    · subst h
      have h1 : ¬ k = b := fun h => hab h.symm
      simp [SMap.put, SMap.get, h1]
    · have h1 : ¬ k < a := by omega
      have h2 : ¬ k = a := by omega
      have h3 : ¬ a = b := fun h => hab h.symm
      simp only [SMap.put, h1, h2, if_false, SMap.get, h3]
      by_cases hb : b < a
      · have h4 : ¬ k = b := by omega
        have h5 : b < k := by omega
        simp [hb, h4, h5]
      · simp [hb]

theorem SMap.wfFrom_mono {α : Type} [DecidableEq α] (d : α) (m : SMap α) (a b : Nat) (h : b ≤ a)
    (hm : SMap.wfFrom d a m = true) : SMap.wfFrom d b m = true := by
  cases m with
  | nil => rfl
  | cons e m =>
    obtain ⟨k, v⟩ := e
    simp only [SMap.wfFrom, Bool.and_eq_true, decide_eq_true_eq] at hm ⊢
    exact ⟨⟨by omega, hm.1.2⟩, hm.2⟩

/-- Below its lower bound a canonical map reads as the default. -/
theorem SMap.get_lt {α : Type} [DecidableEq α] (d : α) (m : SMap α) (lo a : Nat) (h : a < lo)
    (hm : SMap.wfFrom d lo m = true) : SMap.get d m a = d := by
  cases m with
  | nil => rfl
  | cons e m =>
    obtain ⟨k, v⟩ := e
    simp only [SMap.wfFrom, Bool.and_eq_true, decide_eq_true_eq] at hm
    have h1 : ¬ k = a := by omega
    have h2 : a < k := by omega
    simp [SMap.get, h1, h2]

theorem SMap.get_erase_other {α : Type} [DecidableEq α] (d : α) (m : SMap α) (lo a b : Nat) (hab : b ≠ a)
    (hm : SMap.wfFrom d lo m = true) : SMap.get d (SMap.erase m a) b = SMap.get d m b := by
  induction m generalizing lo with
  | nil => rfl
  | cons e m ih =>
    obtain ⟨k, v⟩ := e
    simp only [SMap.wfFrom, Bool.and_eq_true, decide_eq_true_eq] at hm
    rcases Nat.lt_trichotomy k a with h | h | h
    · simp only [SMap.erase, h, if_true, SMap.get, ih (k + 1) hm.2]
    · subst h
      have h1 : ¬ k = b := fun h => hab h.symm
      simp only [SMap.erase, Nat.lt_irrefl, if_false, if_true, SMap.get, h1]
      by_cases hb : b < k
      · simp [hb, SMap.get_lt d m (k + 1) b (by omega) hm.2]
      · simp [hb]
    · have h1 : ¬ k < a := by omega
      have h2 : ¬ k = a := by omega
      simp [SMap.erase, h1, h2]

theorem SMap.get_erase_same {α : Type} [DecidableEq α] (d : α) (m : SMap α) (lo a : Nat)
    (hm : SMap.wfFrom d lo m = true) : SMap.get d (SMap.erase m a) a = d := by
  induction m generalizing lo with
  | nil => rfl
  | cons e m ih =>
    obtain ⟨k, v⟩ := e
    simp only [SMap.wfFrom, Bool.and_eq_true, decide_eq_true_eq] at hm
    rcases Nat.lt_trichotomy k a with h | h | h
    · have h1 : ¬ k = a := by omega
      have h2 : ¬ a < k := by omega
      simp [SMap.erase, h, SMap.get, h1, h2, ih (k + 1) hm.2]
    · subst h
      simpa [SMap.erase] using SMap.get_lt d m (k + 1) k (by omega) hm.2
    · have h1 : ¬ k < a := by omega
      have h2 : ¬ k = a := by omega
      simp [SMap.erase, h1, h2, SMap.get, h]

/-- A read of the entry just set. -/
theorem SMap.get_set_same {α : Type} [DecidableEq α] (d : α) (m : SMap α) (a : Nat) (x : α)
    (hm : SMap.wf d m = true) : SMap.get d (SMap.set d m a x) a = x := by
  unfold SMap.set
  split
  · next h => rw [SMap.get_erase_same d m 0 a hm, h]
  · exact SMap.get_put_same d m a x

/-- Setting an entry leaves every other one alone. -/
theorem SMap.get_set_other {α : Type} [DecidableEq α] (d : α) (m : SMap α) (a b : Nat) (x : α) (hab : b ≠ a)
    (hm : SMap.wf d m = true) : SMap.get d (SMap.set d m a x) b = SMap.get d m b := by
  unfold SMap.set
  split
  · exact SMap.get_erase_other d m 0 a b hab hm
  · exact SMap.get_put_other d m a b x hab

theorem SMap.wfFrom_erase {α : Type} [DecidableEq α] (d : α) (m : SMap α) (lo a : Nat)
    (hm : SMap.wfFrom d lo m = true) : SMap.wfFrom d lo (SMap.erase m a) = true := by
  induction m generalizing lo with
  | nil => rfl
  | cons e m ih =>
    obtain ⟨k, v⟩ := e
    have h' := hm
    simp only [SMap.wfFrom, Bool.and_eq_true, decide_eq_true_eq] at hm
    unfold SMap.erase
    split
    · simp only [SMap.wfFrom, Bool.and_eq_true, decide_eq_true_eq]
      exact ⟨hm.1, ih (k + 1) hm.2⟩
    · split
      · exact SMap.wfFrom_mono d m _ _ (by omega) hm.2
      · exact h'

theorem SMap.wfFrom_put {α : Type} [DecidableEq α] (d : α) (m : SMap α) (lo a : Nat) (x : α) (hlo : lo ≤ a)
    (hx : x ≠ d) (hm : SMap.wfFrom d lo m = true) : SMap.wfFrom d lo (SMap.put m a x) = true := by
  induction m generalizing lo with
  | nil => simp [SMap.put, SMap.wfFrom, hlo, hx]
  | cons e m ih =>
    obtain ⟨k, v⟩ := e
    simp only [SMap.wfFrom, Bool.and_eq_true, decide_eq_true_eq] at hm
    rcases Nat.lt_trichotomy k a with h | h | h
    · simp only [SMap.put, h, if_true, SMap.wfFrom, Bool.and_eq_true, decide_eq_true_eq]
      exact ⟨hm.1, ih (k + 1) h hm.2⟩
    · subst h
      simp only [SMap.put, Nat.lt_irrefl, if_false, if_true, SMap.wfFrom, Bool.and_eq_true, decide_eq_true_eq]
      exact ⟨⟨hlo, hx⟩, hm.2⟩
    · have h1 : ¬ k < a := by omega
      have h2 : ¬ k = a := by omega
      simp only [SMap.put, h1, h2, if_false, SMap.wfFrom, Bool.and_eq_true, decide_eq_true_eq]
      exact ⟨⟨hlo, hx⟩, ⟨by omega, hm.1.2⟩, hm.2⟩

/-- Setting an entry keeps the canonical form. -/
theorem SMap.wf_set {α : Type} [DecidableEq α] (d : α) (m : SMap α) (a : Nat) (x : α)
    (hm : SMap.wf d m = true) : SMap.wf d (SMap.set d m a x) = true := by
  unfold SMap.set
  split
  · exact SMap.wfFrom_erase d m 0 a hm
  · next h => exact SMap.wfFrom_put d m 0 a x (Nat.zero_le a) h hm

end Sys2Proof.Machine
end

