-- ==== Sys2Proof/Laws/State.lean ====
section
/-! SUPPORT. What each shared operation leaves alone: for every field of the state that an operation does not change, one
equation, so that no proof unfolds an operation to know it. -/

namespace Sys2Proof.Machine

/-- A command that waits joins the waiting commands and changes nothing else. -/
@[simp] theorem stall_frame (c : Instr) (s : State) :
    (stall c s).mgt = s.mgt ∧
    (stall c s).link = s.link ∧
    (stall c s).ring = s.ring ∧
    (stall c s).sideband = s.sideband ∧
    (stall c s).status = s.status ∧
    (stall c s).hostMem = s.hostMem ∧
    (stall c s).fuses = s.fuses ∧
    (stall c s).flash = s.flash ∧
    (stall c s).config = s.config ∧
    (stall c s).site = s.site ∧
    (stall c s).siteAlive = s.siteAlive ∧
    (stall c s).controllers = s.controllers ∧
    (stall c s).power = s.power ∧
    (stall c s).time = s.time ∧
    (stall c s).hbm = s.hbm ∧
    (stall c s).cores = s.cores ∧
    (stall c s).banks = s.banks ∧
    (stall c s).msu = s.msu ∧
    (stall c s).fabric = s.fabric ∧
    (stall c s).coll = s.coll ∧
    (stall c s).recovery = s.recovery ∧
    (stall c s).kv = s.kv ∧
    (stall c s).gatehouse = s.gatehouse ∧
    (stall c s).selfTest = s.selfTest ∧
    (stall c s).job = s.job ∧
    (stall c s).ended = s.ended ∧
    (stall c s).sent = s.sent ∧
    (stall c s).free = s.free ∧
    (stall c s).pending = s.pending := by
  exact ⟨rfl, rfl, rfl, rfl, rfl, rfl, rfl, rfl, rfl, rfl, rfl, rfl, rfl, rfl, rfl, rfl, rfl, rfl, rfl, rfl, rfl, rfl, rfl, rfl, rfl, rfl, rfl, rfl, rfl⟩

@[simp] theorem stall_stalled (c : Instr) (s : State) : (stall c s).stalled = s.stalled ++ [c] := rfl

/-- Sending changes what has been sent and nothing else. -/
@[simp] theorem emit_frame (o : Out) (s : State) :
    (emit o s).mgt = s.mgt ∧
    (emit o s).link = s.link ∧
    (emit o s).ring = s.ring ∧
    (emit o s).sideband = s.sideband ∧
    (emit o s).status = s.status ∧
    (emit o s).hostMem = s.hostMem ∧
    (emit o s).fuses = s.fuses ∧
    (emit o s).flash = s.flash ∧
    (emit o s).config = s.config ∧
    (emit o s).site = s.site ∧
    (emit o s).siteAlive = s.siteAlive ∧
    (emit o s).controllers = s.controllers ∧
    (emit o s).power = s.power ∧
    (emit o s).time = s.time ∧
    (emit o s).hbm = s.hbm ∧
    (emit o s).cores = s.cores ∧
    (emit o s).banks = s.banks ∧
    (emit o s).msu = s.msu ∧
    (emit o s).fabric = s.fabric ∧
    (emit o s).coll = s.coll ∧
    (emit o s).recovery = s.recovery ∧
    (emit o s).kv = s.kv ∧
    (emit o s).gatehouse = s.gatehouse ∧
    (emit o s).selfTest = s.selfTest ∧
    (emit o s).job = s.job ∧
    (emit o s).ended = s.ended ∧
    (emit o s).free = s.free ∧
    (emit o s).stalled = s.stalled ∧
    (emit o s).pending = s.pending := by
  exact ⟨rfl, rfl, rfl, rfl, rfl, rfl, rfl, rfl, rfl, rfl, rfl, rfl, rfl, rfl, rfl, rfl, rfl, rfl, rfl, rfl, rfl, rfl, rfl, rfl, rfl, rfl, rfl, rfl, rfl⟩

@[simp] theorem emit_sent (o : Out) (s : State) : (emit o s).sent = s.sent ++ [o] := rfl

/-- Sending changes what has been sent and nothing else. -/
@[simp] theorem emitAll_frame (os : List Out) (s : State) :
    (emitAll os s).mgt = s.mgt ∧
    (emitAll os s).link = s.link ∧
    (emitAll os s).ring = s.ring ∧
    (emitAll os s).sideband = s.sideband ∧
    (emitAll os s).status = s.status ∧
    (emitAll os s).hostMem = s.hostMem ∧
    (emitAll os s).fuses = s.fuses ∧
    (emitAll os s).flash = s.flash ∧
    (emitAll os s).config = s.config ∧
    (emitAll os s).site = s.site ∧
    (emitAll os s).siteAlive = s.siteAlive ∧
    (emitAll os s).controllers = s.controllers ∧
    (emitAll os s).power = s.power ∧
    (emitAll os s).time = s.time ∧
    (emitAll os s).hbm = s.hbm ∧
    (emitAll os s).cores = s.cores ∧
    (emitAll os s).banks = s.banks ∧
    (emitAll os s).msu = s.msu ∧
    (emitAll os s).fabric = s.fabric ∧
    (emitAll os s).coll = s.coll ∧
    (emitAll os s).recovery = s.recovery ∧
    (emitAll os s).kv = s.kv ∧
    (emitAll os s).gatehouse = s.gatehouse ∧
    (emitAll os s).selfTest = s.selfTest ∧
    (emitAll os s).job = s.job ∧
    (emitAll os s).ended = s.ended ∧
    (emitAll os s).free = s.free ∧
    (emitAll os s).stalled = s.stalled ∧
    (emitAll os s).pending = s.pending := by
  exact ⟨rfl, rfl, rfl, rfl, rfl, rfl, rfl, rfl, rfl, rfl, rfl, rfl, rfl, rfl, rfl, rfl, rfl, rfl, rfl, rfl, rfl, rfl, rfl, rfl, rfl, rfl, rfl, rfl, rfl⟩

@[simp] theorem emitAll_sent (os : List Out) (s : State) : (emitAll os s).sent = s.sent ++ os := rfl

/-- A count changes the status record's fields only. -/
@[simp] theorem withCounts_frame (f : Counts → Counts) (s : State) :
    (withCounts f s).mgt = s.mgt ∧
    (withCounts f s).link = s.link ∧
    (withCounts f s).ring = s.ring ∧
    (withCounts f s).sideband = s.sideband ∧
    (withCounts f s).hostMem = s.hostMem ∧
    (withCounts f s).fuses = s.fuses ∧
    (withCounts f s).flash = s.flash ∧
    (withCounts f s).config = s.config ∧
    (withCounts f s).site = s.site ∧
    (withCounts f s).siteAlive = s.siteAlive ∧
    (withCounts f s).controllers = s.controllers ∧
    (withCounts f s).power = s.power ∧
    (withCounts f s).time = s.time ∧
    (withCounts f s).hbm = s.hbm ∧
    (withCounts f s).cores = s.cores ∧
    (withCounts f s).banks = s.banks ∧
    (withCounts f s).msu = s.msu ∧
    (withCounts f s).fabric = s.fabric ∧
    (withCounts f s).coll = s.coll ∧
    (withCounts f s).recovery = s.recovery ∧
    (withCounts f s).kv = s.kv ∧
    (withCounts f s).gatehouse = s.gatehouse ∧
    (withCounts f s).selfTest = s.selfTest ∧
    (withCounts f s).job = s.job ∧
    (withCounts f s).ended = s.ended ∧
    (withCounts f s).sent = s.sent ∧
    (withCounts f s).free = s.free ∧
    (withCounts f s).stalled = s.stalled ∧
    (withCounts f s).pending = s.pending := by
  exact ⟨rfl, rfl, rfl, rfl, rfl, rfl, rfl, rfl, rfl, rfl, rfl, rfl, rfl, rfl, rfl, rfl, rfl, rfl, rfl, rfl, rfl, rfl, rfl, rfl, rfl, rfl, rfl, rfl, rfl⟩

/-- A write to host memory changes host memory only. -/
@[simp] theorem hostWrite_frame (a : Nat) (bs : List Byte) (s : State) :
    (hostWrite a bs s).mgt = s.mgt ∧
    (hostWrite a bs s).link = s.link ∧
    (hostWrite a bs s).ring = s.ring ∧
    (hostWrite a bs s).sideband = s.sideband ∧
    (hostWrite a bs s).status = s.status ∧
    (hostWrite a bs s).fuses = s.fuses ∧
    (hostWrite a bs s).flash = s.flash ∧
    (hostWrite a bs s).config = s.config ∧
    (hostWrite a bs s).site = s.site ∧
    (hostWrite a bs s).siteAlive = s.siteAlive ∧
    (hostWrite a bs s).controllers = s.controllers ∧
    (hostWrite a bs s).power = s.power ∧
    (hostWrite a bs s).time = s.time ∧
    (hostWrite a bs s).hbm = s.hbm ∧
    (hostWrite a bs s).cores = s.cores ∧
    (hostWrite a bs s).banks = s.banks ∧
    (hostWrite a bs s).msu = s.msu ∧
    (hostWrite a bs s).fabric = s.fabric ∧
    (hostWrite a bs s).coll = s.coll ∧
    (hostWrite a bs s).recovery = s.recovery ∧
    (hostWrite a bs s).kv = s.kv ∧
    (hostWrite a bs s).gatehouse = s.gatehouse ∧
    (hostWrite a bs s).selfTest = s.selfTest ∧
    (hostWrite a bs s).job = s.job ∧
    (hostWrite a bs s).ended = s.ended ∧
    (hostWrite a bs s).sent = s.sent ∧
    (hostWrite a bs s).free = s.free ∧
    (hostWrite a bs s).stalled = s.stalled ∧
    (hostWrite a bs s).pending = s.pending := by
  unfold hostWrite; split <;> exact ⟨rfl, rfl, rfl, rfl, rfl, rfl, rfl, rfl, rfl, rfl, rfl, rfl, rfl, rfl, rfl, rfl, rfl, rfl, rfl, rfl, rfl, rfl, rfl, rfl, rfl, rfl, rfl, rfl, rfl⟩

/-- What a write to host memory leaves there. -/
theorem hostWrite_hostMem (a : Nat) (bs : List Byte) (s : State) :
    (hostWrite a bs s).hostMem = if s.link.trained && s.link.cxl then Mem.write 0 s.hostMem a bs else s.hostMem := by
  unfold hostWrite; split <;> rfl

/-- Writing the status record changes its sequence number and time, and host memory. -/
@[simp] theorem postStatus_frame (s : State) :
    (postStatus s).mgt = s.mgt ∧
    (postStatus s).link = s.link ∧
    (postStatus s).ring = s.ring ∧
    (postStatus s).sideband = s.sideband ∧
    (postStatus s).fuses = s.fuses ∧
    (postStatus s).flash = s.flash ∧
    (postStatus s).config = s.config ∧
    (postStatus s).site = s.site ∧
    (postStatus s).siteAlive = s.siteAlive ∧
    (postStatus s).controllers = s.controllers ∧
    (postStatus s).power = s.power ∧
    (postStatus s).time = s.time ∧
    (postStatus s).hbm = s.hbm ∧
    (postStatus s).cores = s.cores ∧
    (postStatus s).banks = s.banks ∧
    (postStatus s).msu = s.msu ∧
    (postStatus s).fabric = s.fabric ∧
    (postStatus s).coll = s.coll ∧
    (postStatus s).recovery = s.recovery ∧
    (postStatus s).kv = s.kv ∧
    (postStatus s).gatehouse = s.gatehouse ∧
    (postStatus s).selfTest = s.selfTest ∧
    (postStatus s).job = s.job ∧
    (postStatus s).ended = s.ended ∧
    (postStatus s).sent = s.sent ∧
    (postStatus s).free = s.free ∧
    (postStatus s).stalled = s.stalled ∧
    (postStatus s).pending = s.pending := by
  simp [postStatus]

/-- Writing the status record changes its fields and host memory. -/
@[simp] theorem withStatus_frame (f : StatusRec → StatusRec) (s : State) :
    (withStatus f s).mgt = s.mgt ∧
    (withStatus f s).link = s.link ∧
    (withStatus f s).ring = s.ring ∧
    (withStatus f s).sideband = s.sideband ∧
    (withStatus f s).fuses = s.fuses ∧
    (withStatus f s).flash = s.flash ∧
    (withStatus f s).config = s.config ∧
    (withStatus f s).site = s.site ∧
    (withStatus f s).siteAlive = s.siteAlive ∧
    (withStatus f s).controllers = s.controllers ∧
    (withStatus f s).power = s.power ∧
    (withStatus f s).time = s.time ∧
    (withStatus f s).hbm = s.hbm ∧
    (withStatus f s).cores = s.cores ∧
    (withStatus f s).banks = s.banks ∧
    (withStatus f s).msu = s.msu ∧
    (withStatus f s).fabric = s.fabric ∧
    (withStatus f s).coll = s.coll ∧
    (withStatus f s).recovery = s.recovery ∧
    (withStatus f s).kv = s.kv ∧
    (withStatus f s).gatehouse = s.gatehouse ∧
    (withStatus f s).selfTest = s.selfTest ∧
    (withStatus f s).job = s.job ∧
    (withStatus f s).ended = s.ended ∧
    (withStatus f s).sent = s.sent ∧
    (withStatus f s).free = s.free ∧
    (withStatus f s).stalled = s.stalled ∧
    (withStatus f s).pending = s.pending := by
  simp [withStatus]

/-- The status record after it is written (R375): the fields asked for, the next even sequence number, and the time. -/
@[simp] theorem withStatus_status (f : StatusRec → StatusRec) (s : State) :
    (withStatus f s).status =
      { f s.status with updateSeq := (f s.status).updateSeq + 2, time := s.time.value } := by
  simp [withStatus, postStatus]

/-- An event changes the status record and host memory. -/
@[simp] theorem postEvent_frame (code : U16) (op : U32) (detail : U16) (loc : U64) (s : State) :
    (postEvent code op detail loc s).mgt = s.mgt ∧
    (postEvent code op detail loc s).link = s.link ∧
    (postEvent code op detail loc s).ring = s.ring ∧
    (postEvent code op detail loc s).sideband = s.sideband ∧
    (postEvent code op detail loc s).fuses = s.fuses ∧
    (postEvent code op detail loc s).flash = s.flash ∧
    (postEvent code op detail loc s).config = s.config ∧
    (postEvent code op detail loc s).site = s.site ∧
    (postEvent code op detail loc s).siteAlive = s.siteAlive ∧
    (postEvent code op detail loc s).controllers = s.controllers ∧
    (postEvent code op detail loc s).power = s.power ∧
    (postEvent code op detail loc s).time = s.time ∧
    (postEvent code op detail loc s).hbm = s.hbm ∧
    (postEvent code op detail loc s).cores = s.cores ∧
    (postEvent code op detail loc s).banks = s.banks ∧
    (postEvent code op detail loc s).msu = s.msu ∧
    (postEvent code op detail loc s).fabric = s.fabric ∧
    (postEvent code op detail loc s).coll = s.coll ∧
    (postEvent code op detail loc s).recovery = s.recovery ∧
    (postEvent code op detail loc s).kv = s.kv ∧
    (postEvent code op detail loc s).gatehouse = s.gatehouse ∧
    (postEvent code op detail loc s).selfTest = s.selfTest ∧
    (postEvent code op detail loc s).job = s.job ∧
    (postEvent code op detail loc s).ended = s.ended ∧
    (postEvent code op detail loc s).sent = s.sent ∧
    (postEvent code op detail loc s).free = s.free ∧
    (postEvent code op detail loc s).stalled = s.stalled ∧
    (postEvent code op detail loc s).pending = s.pending := by
  simp [postEvent]

/-- An interrupt message changes the pending-bit array or what has been sent. -/
@[simp] theorem sendVector_frame (v : Nat) (s : State) :
    (sendVector v s).link = s.link ∧
    (sendVector v s).ring = s.ring ∧
    (sendVector v s).sideband = s.sideband ∧
    (sendVector v s).status = s.status ∧
    (sendVector v s).hostMem = s.hostMem ∧
    (sendVector v s).fuses = s.fuses ∧
    (sendVector v s).flash = s.flash ∧
    (sendVector v s).config = s.config ∧
    (sendVector v s).site = s.site ∧
    (sendVector v s).siteAlive = s.siteAlive ∧
    (sendVector v s).controllers = s.controllers ∧
    (sendVector v s).power = s.power ∧
    (sendVector v s).time = s.time ∧
    (sendVector v s).hbm = s.hbm ∧
    (sendVector v s).cores = s.cores ∧
    (sendVector v s).banks = s.banks ∧
    (sendVector v s).msu = s.msu ∧
    (sendVector v s).fabric = s.fabric ∧
    (sendVector v s).coll = s.coll ∧
    (sendVector v s).recovery = s.recovery ∧
    (sendVector v s).kv = s.kv ∧
    (sendVector v s).gatehouse = s.gatehouse ∧
    (sendVector v s).selfTest = s.selfTest ∧
    (sendVector v s).job = s.job ∧
    (sendVector v s).ended = s.ended ∧
    (sendVector v s).free = s.free ∧
    (sendVector v s).stalled = s.stalled ∧
    (sendVector v s).pending = s.pending := by
  unfold sendVector; split <;> simp

/-- The interrupt registers hold what was set; every vector that becomes pending has sent its message, or is held by
its mask in the pending-bit array. -/
theorem setInterrupts_eq (status enable : U32) (s : State) :
    setInterrupts status enable s =
      { s with
        mgt := { s.mgt with
          intStatus := status
          intEnable := enable
          msixPba := ((upFrom 0 4).filter fun v => vectorFresh s.mgt status enable v && vectorMasked s.mgt v).foldl
            (fun p v => setBit p v true) s.mgt.msixPba }
        sent := s.sent ++ vectorMessages s.mgt status enable } := by
  have step : ∀ (vs : List Nat) (t : State), (∀ v, vectorMasked t.mgt v = vectorMasked s.mgt v) →
      (∀ v, vectorMessage t.mgt v = vectorMessage s.mgt v) →
      vs.foldl (fun t v => sendVector v t) t =
        { t with
          mgt := { t.mgt with msixPba := (vs.filter (vectorMasked s.mgt)).foldl (fun p v => setBit p v true) t.mgt.msixPba }
          sent := t.sent ++ (vs.filter fun v => !vectorMasked s.mgt v).map (vectorMessage s.mgt) } := by
    intro vs
    induction vs with
    | nil => intro t _ _; simp
    | cons v vs ih =>
      intro t hm hv
      rw [List.foldl_cons, ih]
      · by_cases h : vectorMasked s.mgt v = true
        · have h' : bitAt t.mgt.msixTable (128 * v + 96) = true := by rw [← h, ← hm v]; rfl
          simp [sendVector, h', h]
        · have h' : ¬ bitAt t.mgt.msixTable (128 * v + 96) = true := by rw [← hm v] at h; exact h
          have e : Out.msix v (BitVec.ofNat 64 (field t.mgt.msixTable (128 * v + 63) (128 * v)))
            (BitVec.ofNat 32 (field t.mgt.msixTable (128 * v + 95) (128 * v + 64))) = vectorMessage s.mgt v := hv v
          have h2 : vectorMasked s.mgt v = false := by simpa using h
          have h3 : sendVector v t = { t with sent := t.sent ++ [vectorMessage s.mgt v] } := by
            unfold sendVector; rw [if_neg h', e]; rfl
          simp [h3, h2]
      · intro w; rw [← hm w]; unfold sendVector; split <;> rfl
      · intro w; rw [← hv w]; unfold sendVector; split <;> rfl
  have hf : (fun v => vectorPending status enable v && !vectorPending s.mgt.intStatus s.mgt.intEnable v) =
      vectorFresh s.mgt status enable := rfl
  simp only [setInterrupts, hf]
  refine (step _ _ ?_ ?_).trans ?_
  · intro v; rfl
  · intro v; rfl
  · simp only [List.filter_filter, vectorMessages, Bool.and_comm]

/-- Setting the interrupt registers changes them, the pending-bit array and what has been sent. -/
@[simp] theorem setInterrupts_frame (status enable : U32) (s : State) :
    (setInterrupts status enable s).link = s.link ∧
    (setInterrupts status enable s).ring = s.ring ∧
    (setInterrupts status enable s).sideband = s.sideband ∧
    (setInterrupts status enable s).status = s.status ∧
    (setInterrupts status enable s).hostMem = s.hostMem ∧
    (setInterrupts status enable s).fuses = s.fuses ∧
    (setInterrupts status enable s).flash = s.flash ∧
    (setInterrupts status enable s).config = s.config ∧
    (setInterrupts status enable s).site = s.site ∧
    (setInterrupts status enable s).siteAlive = s.siteAlive ∧
    (setInterrupts status enable s).controllers = s.controllers ∧
    (setInterrupts status enable s).power = s.power ∧
    (setInterrupts status enable s).time = s.time ∧
    (setInterrupts status enable s).hbm = s.hbm ∧
    (setInterrupts status enable s).cores = s.cores ∧
    (setInterrupts status enable s).banks = s.banks ∧
    (setInterrupts status enable s).msu = s.msu ∧
    (setInterrupts status enable s).fabric = s.fabric ∧
    (setInterrupts status enable s).coll = s.coll ∧
    (setInterrupts status enable s).recovery = s.recovery ∧
    (setInterrupts status enable s).kv = s.kv ∧
    (setInterrupts status enable s).gatehouse = s.gatehouse ∧
    (setInterrupts status enable s).selfTest = s.selfTest ∧
    (setInterrupts status enable s).job = s.job ∧
    (setInterrupts status enable s).ended = s.ended ∧
    (setInterrupts status enable s).free = s.free ∧
    (setInterrupts status enable s).stalled = s.stalled ∧
    (setInterrupts status enable s).pending = s.pending := by
  rw [setInterrupts_eq]; exact ⟨rfl, rfl, rfl, rfl, rfl, rfl, rfl, rfl, rfl, rfl, rfl, rfl, rfl, rfl, rfl, rfl, rfl, rfl, rfl, rfl, rfl, rfl, rfl, rfl, rfl, rfl, rfl, rfl⟩

/-- A cause changes the interrupt registers and what has been sent. -/
@[simp] theorem raiseCause_frame (n : Nat) (s : State) :
    (raiseCause n s).link = s.link ∧
    (raiseCause n s).ring = s.ring ∧
    (raiseCause n s).sideband = s.sideband ∧
    (raiseCause n s).status = s.status ∧
    (raiseCause n s).hostMem = s.hostMem ∧
    (raiseCause n s).fuses = s.fuses ∧
    (raiseCause n s).flash = s.flash ∧
    (raiseCause n s).config = s.config ∧
    (raiseCause n s).site = s.site ∧
    (raiseCause n s).siteAlive = s.siteAlive ∧
    (raiseCause n s).controllers = s.controllers ∧
    (raiseCause n s).power = s.power ∧
    (raiseCause n s).time = s.time ∧
    (raiseCause n s).hbm = s.hbm ∧
    (raiseCause n s).cores = s.cores ∧
    (raiseCause n s).banks = s.banks ∧
    (raiseCause n s).msu = s.msu ∧
    (raiseCause n s).fabric = s.fabric ∧
    (raiseCause n s).coll = s.coll ∧
    (raiseCause n s).recovery = s.recovery ∧
    (raiseCause n s).kv = s.kv ∧
    (raiseCause n s).gatehouse = s.gatehouse ∧
    (raiseCause n s).selfTest = s.selfTest ∧
    (raiseCause n s).job = s.job ∧
    (raiseCause n s).ended = s.ended ∧
    (raiseCause n s).free = s.free ∧
    (raiseCause n s).stalled = s.stalled ∧
    (raiseCause n s).pending = s.pending := by
  simp [raiseCause]

/-- A write to device memory changes HBM only. -/
@[simp] theorem devWrite_frame (a : Nat) (bs : List Byte) (s : State) :
    (devWrite a bs s).mgt = s.mgt ∧
    (devWrite a bs s).link = s.link ∧
    (devWrite a bs s).ring = s.ring ∧
    (devWrite a bs s).sideband = s.sideband ∧
    (devWrite a bs s).status = s.status ∧
    (devWrite a bs s).hostMem = s.hostMem ∧
    (devWrite a bs s).fuses = s.fuses ∧
    (devWrite a bs s).flash = s.flash ∧
    (devWrite a bs s).config = s.config ∧
    (devWrite a bs s).site = s.site ∧
    (devWrite a bs s).siteAlive = s.siteAlive ∧
    (devWrite a bs s).controllers = s.controllers ∧
    (devWrite a bs s).power = s.power ∧
    (devWrite a bs s).time = s.time ∧
    (devWrite a bs s).cores = s.cores ∧
    (devWrite a bs s).banks = s.banks ∧
    (devWrite a bs s).msu = s.msu ∧
    (devWrite a bs s).fabric = s.fabric ∧
    (devWrite a bs s).coll = s.coll ∧
    (devWrite a bs s).recovery = s.recovery ∧
    (devWrite a bs s).kv = s.kv ∧
    (devWrite a bs s).gatehouse = s.gatehouse ∧
    (devWrite a bs s).selfTest = s.selfTest ∧
    (devWrite a bs s).job = s.job ∧
    (devWrite a bs s).ended = s.ended ∧
    (devWrite a bs s).sent = s.sent ∧
    (devWrite a bs s).free = s.free ∧
    (devWrite a bs s).stalled = s.stalled ∧
    (devWrite a bs s).pending = s.pending := by
  exact ⟨rfl, rfl, rfl, rfl, rfl, rfl, rfl, rfl, rfl, rfl, rfl, rfl, rfl, rfl, rfl, rfl, rfl, rfl, rfl, rfl, rfl, rfl, rfl, rfl, rfl, rfl, rfl, rfl, rfl⟩

/-- A write to device memory changes HBM only. -/
@[simp] theorem devPut_frame (a n v : Nat) (s : State) :
    (devPut a n v s).mgt = s.mgt ∧
    (devPut a n v s).link = s.link ∧
    (devPut a n v s).ring = s.ring ∧
    (devPut a n v s).sideband = s.sideband ∧
    (devPut a n v s).status = s.status ∧
    (devPut a n v s).hostMem = s.hostMem ∧
    (devPut a n v s).fuses = s.fuses ∧
    (devPut a n v s).flash = s.flash ∧
    (devPut a n v s).config = s.config ∧
    (devPut a n v s).site = s.site ∧
    (devPut a n v s).siteAlive = s.siteAlive ∧
    (devPut a n v s).controllers = s.controllers ∧
    (devPut a n v s).power = s.power ∧
    (devPut a n v s).time = s.time ∧
    (devPut a n v s).cores = s.cores ∧
    (devPut a n v s).banks = s.banks ∧
    (devPut a n v s).msu = s.msu ∧
    (devPut a n v s).fabric = s.fabric ∧
    (devPut a n v s).coll = s.coll ∧
    (devPut a n v s).recovery = s.recovery ∧
    (devPut a n v s).kv = s.kv ∧
    (devPut a n v s).gatehouse = s.gatehouse ∧
    (devPut a n v s).selfTest = s.selfTest ∧
    (devPut a n v s).job = s.job ∧
    (devPut a n v s).ended = s.ended ∧
    (devPut a n v s).sent = s.sent ∧
    (devPut a n v s).free = s.free ∧
    (devPut a n v s).stalled = s.stalled ∧
    (devPut a n v s).pending = s.pending := by
  exact ⟨rfl, rfl, rfl, rfl, rfl, rfl, rfl, rfl, rfl, rfl, rfl, rfl, rfl, rfl, rfl, rfl, rfl, rfl, rfl, rfl, rfl, rfl, rfl, rfl, rfl, rfl, rfl, rfl, rfl⟩

/-- A read of device memory just written. -/
@[simp] theorem devRead_devWrite_same (a : Nat) (bs : List Byte) (s : State) :
    devRead (devWrite a bs s) a bs.length = bs := Mem.read_write_same 0 s.hbm.dev a bs

/-- A write to device memory leaves every other range alone. -/
theorem devRead_devWrite_other (a : Nat) (bs : List Byte) (s : State) (b n : Nat)
    (h : b + n ≤ a ∨ a + bs.length ≤ b) : devRead (devWrite a bs s) b n = devRead s b n :=
  Mem.read_write_other 0 s.hbm.dev a bs b n h

/-- A free value advances its counter only. -/
@[simp] theorem takeFree_frame (s : State) :
    ((takeFree s).2).mgt = s.mgt ∧
    ((takeFree s).2).link = s.link ∧
    ((takeFree s).2).ring = s.ring ∧
    ((takeFree s).2).sideband = s.sideband ∧
    ((takeFree s).2).status = s.status ∧
    ((takeFree s).2).hostMem = s.hostMem ∧
    ((takeFree s).2).fuses = s.fuses ∧
    ((takeFree s).2).flash = s.flash ∧
    ((takeFree s).2).config = s.config ∧
    ((takeFree s).2).site = s.site ∧
    ((takeFree s).2).siteAlive = s.siteAlive ∧
    ((takeFree s).2).controllers = s.controllers ∧
    ((takeFree s).2).power = s.power ∧
    ((takeFree s).2).time = s.time ∧
    ((takeFree s).2).hbm = s.hbm ∧
    ((takeFree s).2).cores = s.cores ∧
    ((takeFree s).2).banks = s.banks ∧
    ((takeFree s).2).msu = s.msu ∧
    ((takeFree s).2).fabric = s.fabric ∧
    ((takeFree s).2).coll = s.coll ∧
    ((takeFree s).2).recovery = s.recovery ∧
    ((takeFree s).2).kv = s.kv ∧
    ((takeFree s).2).gatehouse = s.gatehouse ∧
    ((takeFree s).2).selfTest = s.selfTest ∧
    ((takeFree s).2).job = s.job ∧
    ((takeFree s).2).ended = s.ended ∧
    ((takeFree s).2).sent = s.sent ∧
    ((takeFree s).2).stalled = s.stalled ∧
    ((takeFree s).2).pending = s.pending := by
  exact ⟨rfl, rfl, rfl, rfl, rfl, rfl, rfl, rfl, rfl, rfl, rfl, rfl, rfl, rfl, rfl, rfl, rfl, rfl, rfl, rfl, rfl, rfl, rfl, rfl, rfl, rfl, rfl, rfl, rfl⟩

/-- The end of a command changes the management window and what has been sent. -/
@[simp] theorem finishCmd_frame (cmd : Byte) (st : CmdState) (code : U16) (s : State) :
    (finishCmd cmd st code s).link = s.link ∧
    (finishCmd cmd st code s).ring = s.ring ∧
    (finishCmd cmd st code s).sideband = s.sideband ∧
    (finishCmd cmd st code s).status = s.status ∧
    (finishCmd cmd st code s).hostMem = s.hostMem ∧
    (finishCmd cmd st code s).fuses = s.fuses ∧
    (finishCmd cmd st code s).flash = s.flash ∧
    (finishCmd cmd st code s).config = s.config ∧
    (finishCmd cmd st code s).site = s.site ∧
    (finishCmd cmd st code s).siteAlive = s.siteAlive ∧
    (finishCmd cmd st code s).controllers = s.controllers ∧
    (finishCmd cmd st code s).power = s.power ∧
    (finishCmd cmd st code s).time = s.time ∧
    (finishCmd cmd st code s).hbm = s.hbm ∧
    (finishCmd cmd st code s).cores = s.cores ∧
    (finishCmd cmd st code s).banks = s.banks ∧
    (finishCmd cmd st code s).msu = s.msu ∧
    (finishCmd cmd st code s).fabric = s.fabric ∧
    (finishCmd cmd st code s).coll = s.coll ∧
    (finishCmd cmd st code s).recovery = s.recovery ∧
    (finishCmd cmd st code s).kv = s.kv ∧
    (finishCmd cmd st code s).gatehouse = s.gatehouse ∧
    (finishCmd cmd st code s).selfTest = s.selfTest ∧
    (finishCmd cmd st code s).job = s.job ∧
    (finishCmd cmd st code s).ended = s.ended ∧
    (finishCmd cmd st code s).free = s.free ∧
    (finishCmd cmd st code s).stalled = s.stalled ∧
    (finishCmd cmd st code s).pending = s.pending := by
  simp [finishCmd]

/-- A command that stays busy changes the management window only. -/
@[simp] theorem busyCmd_frame (cmd : Byte) (s : State) :
    (busyCmd cmd s).link = s.link ∧
    (busyCmd cmd s).ring = s.ring ∧
    (busyCmd cmd s).sideband = s.sideband ∧
    (busyCmd cmd s).status = s.status ∧
    (busyCmd cmd s).hostMem = s.hostMem ∧
    (busyCmd cmd s).fuses = s.fuses ∧
    (busyCmd cmd s).flash = s.flash ∧
    (busyCmd cmd s).config = s.config ∧
    (busyCmd cmd s).site = s.site ∧
    (busyCmd cmd s).siteAlive = s.siteAlive ∧
    (busyCmd cmd s).controllers = s.controllers ∧
    (busyCmd cmd s).power = s.power ∧
    (busyCmd cmd s).time = s.time ∧
    (busyCmd cmd s).hbm = s.hbm ∧
    (busyCmd cmd s).cores = s.cores ∧
    (busyCmd cmd s).banks = s.banks ∧
    (busyCmd cmd s).msu = s.msu ∧
    (busyCmd cmd s).fabric = s.fabric ∧
    (busyCmd cmd s).coll = s.coll ∧
    (busyCmd cmd s).recovery = s.recovery ∧
    (busyCmd cmd s).kv = s.kv ∧
    (busyCmd cmd s).gatehouse = s.gatehouse ∧
    (busyCmd cmd s).selfTest = s.selfTest ∧
    (busyCmd cmd s).job = s.job ∧
    (busyCmd cmd s).ended = s.ended ∧
    (busyCmd cmd s).sent = s.sent ∧
    (busyCmd cmd s).free = s.free ∧
    (busyCmd cmd s).stalled = s.stalled ∧
    (busyCmd cmd s).pending = s.pending := by
  exact ⟨rfl, rfl, rfl, rfl, rfl, rfl, rfl, rfl, rfl, rfl, rfl, rfl, rfl, rfl, rfl, rfl, rfl, rfl, rfl, rfl, rfl, rfl, rfl, rfl, rfl, rfl, rfl, rfl, rfl⟩

/-- A nanosecond changes the timebase only. -/
@[simp] theorem tick_frame (s : State) :
    (tick s).mgt = s.mgt ∧
    (tick s).link = s.link ∧
    (tick s).ring = s.ring ∧
    (tick s).sideband = s.sideband ∧
    (tick s).status = s.status ∧
    (tick s).hostMem = s.hostMem ∧
    (tick s).fuses = s.fuses ∧
    (tick s).flash = s.flash ∧
    (tick s).config = s.config ∧
    (tick s).site = s.site ∧
    (tick s).siteAlive = s.siteAlive ∧
    (tick s).controllers = s.controllers ∧
    (tick s).power = s.power ∧
    (tick s).hbm = s.hbm ∧
    (tick s).cores = s.cores ∧
    (tick s).banks = s.banks ∧
    (tick s).msu = s.msu ∧
    (tick s).fabric = s.fabric ∧
    (tick s).coll = s.coll ∧
    (tick s).recovery = s.recovery ∧
    (tick s).kv = s.kv ∧
    (tick s).gatehouse = s.gatehouse ∧
    (tick s).selfTest = s.selfTest ∧
    (tick s).job = s.job ∧
    (tick s).ended = s.ended ∧
    (tick s).sent = s.sent ∧
    (tick s).free = s.free ∧
    (tick s).stalled = s.stalled ∧
    (tick s).pending = s.pending := by
  unfold tick; split
  · split <;> exact ⟨rfl, rfl, rfl, rfl, rfl, rfl, rfl, rfl, rfl, rfl, rfl, rfl, rfl, rfl, rfl, rfl, rfl, rfl, rfl, rfl, rfl, rfl, rfl, rfl, rfl, rfl, rfl, rfl, rfl⟩
  · exact ⟨rfl, rfl, rfl, rfl, rfl, rfl, rfl, rfl, rfl, rfl, rfl, rfl, rfl, rfl, rfl, rfl, rfl, rfl, rfl, rfl, rfl, rfl, rfl, rfl, rfl, rfl, rfl, rfl, rfl⟩

/-- An op counter table entry lies in HBM. -/
@[simp] theorem counterOpen_frame (op : U32) (s : State) :
    (counterOpen op s).mgt = s.mgt ∧
    (counterOpen op s).link = s.link ∧
    (counterOpen op s).ring = s.ring ∧
    (counterOpen op s).sideband = s.sideband ∧
    (counterOpen op s).status = s.status ∧
    (counterOpen op s).hostMem = s.hostMem ∧
    (counterOpen op s).fuses = s.fuses ∧
    (counterOpen op s).flash = s.flash ∧
    (counterOpen op s).config = s.config ∧
    (counterOpen op s).site = s.site ∧
    (counterOpen op s).siteAlive = s.siteAlive ∧
    (counterOpen op s).controllers = s.controllers ∧
    (counterOpen op s).power = s.power ∧
    (counterOpen op s).time = s.time ∧
    (counterOpen op s).cores = s.cores ∧
    (counterOpen op s).banks = s.banks ∧
    (counterOpen op s).msu = s.msu ∧
    (counterOpen op s).fabric = s.fabric ∧
    (counterOpen op s).coll = s.coll ∧
    (counterOpen op s).recovery = s.recovery ∧
    (counterOpen op s).kv = s.kv ∧
    (counterOpen op s).gatehouse = s.gatehouse ∧
    (counterOpen op s).selfTest = s.selfTest ∧
    (counterOpen op s).job = s.job ∧
    (counterOpen op s).ended = s.ended ∧
    (counterOpen op s).sent = s.sent ∧
    (counterOpen op s).free = s.free ∧
    (counterOpen op s).stalled = s.stalled ∧
    (counterOpen op s).pending = s.pending := by
  unfold counterOpen; split
  · simp
  · split <;> simp

/-- An op counter table entry lies in HBM. -/
@[simp] theorem counterAdd_frame (op : U32) (sat flushed : Nat) (tile : Bool) (s : State) :
    (counterAdd op sat flushed tile s).mgt = s.mgt ∧
    (counterAdd op sat flushed tile s).link = s.link ∧
    (counterAdd op sat flushed tile s).ring = s.ring ∧
    (counterAdd op sat flushed tile s).sideband = s.sideband ∧
    (counterAdd op sat flushed tile s).status = s.status ∧
    (counterAdd op sat flushed tile s).hostMem = s.hostMem ∧
    (counterAdd op sat flushed tile s).fuses = s.fuses ∧
    (counterAdd op sat flushed tile s).flash = s.flash ∧
    (counterAdd op sat flushed tile s).config = s.config ∧
    (counterAdd op sat flushed tile s).site = s.site ∧
    (counterAdd op sat flushed tile s).siteAlive = s.siteAlive ∧
    (counterAdd op sat flushed tile s).controllers = s.controllers ∧
    (counterAdd op sat flushed tile s).power = s.power ∧
    (counterAdd op sat flushed tile s).time = s.time ∧
    (counterAdd op sat flushed tile s).cores = s.cores ∧
    (counterAdd op sat flushed tile s).banks = s.banks ∧
    (counterAdd op sat flushed tile s).msu = s.msu ∧
    (counterAdd op sat flushed tile s).fabric = s.fabric ∧
    (counterAdd op sat flushed tile s).coll = s.coll ∧
    (counterAdd op sat flushed tile s).recovery = s.recovery ∧
    (counterAdd op sat flushed tile s).kv = s.kv ∧
    (counterAdd op sat flushed tile s).gatehouse = s.gatehouse ∧
    (counterAdd op sat flushed tile s).selfTest = s.selfTest ∧
    (counterAdd op sat flushed tile s).job = s.job ∧
    (counterAdd op sat flushed tile s).ended = s.ended ∧
    (counterAdd op sat flushed tile s).sent = s.sent ∧
    (counterAdd op sat flushed tile s).free = s.free ∧
    (counterAdd op sat flushed tile s).stalled = s.stalled ∧
    (counterAdd op sat flushed tile s).pending = s.pending := by
  unfold counterAdd; split <;> simp

/-- A step's work in progress lies in the cores, the memory-side units and the prefix unit. -/
@[simp] theorem discardStep_frame (s : State) :
    (discardStep s).mgt = s.mgt ∧
    (discardStep s).link = s.link ∧
    (discardStep s).ring = s.ring ∧
    (discardStep s).sideband = s.sideband ∧
    (discardStep s).status = s.status ∧
    (discardStep s).hostMem = s.hostMem ∧
    (discardStep s).fuses = s.fuses ∧
    (discardStep s).flash = s.flash ∧
    (discardStep s).config = s.config ∧
    (discardStep s).site = s.site ∧
    (discardStep s).siteAlive = s.siteAlive ∧
    (discardStep s).controllers = s.controllers ∧
    (discardStep s).power = s.power ∧
    (discardStep s).time = s.time ∧
    (discardStep s).hbm = s.hbm ∧
    (discardStep s).banks = s.banks ∧
    (discardStep s).fabric = s.fabric ∧
    (discardStep s).coll = s.coll ∧
    (discardStep s).recovery = s.recovery ∧
    (discardStep s).gatehouse = s.gatehouse ∧
    (discardStep s).selfTest = s.selfTest ∧
    (discardStep s).job = s.job ∧
    (discardStep s).ended = s.ended ∧
    (discardStep s).sent = s.sent ∧
    (discardStep s).free = s.free ∧
    (discardStep s).pending = s.pending := by
  exact ⟨rfl, rfl, rfl, rfl, rfl, rfl, rfl, rfl, rfl, rfl, rfl, rfl, rfl, rfl, rfl, rfl, rfl, rfl, rfl, rfl, rfl, rfl, rfl, rfl, rfl, rfl⟩

/-- The end of a command changes the record of what has ended and nothing else. -/
@[simp] theorem endPart_frame (op : U32) (s : State) :
    (endPart op s).mgt = s.mgt ∧
    (endPart op s).link = s.link ∧
    (endPart op s).ring = s.ring ∧
    (endPart op s).sideband = s.sideband ∧
    (endPart op s).status = s.status ∧
    (endPart op s).hostMem = s.hostMem ∧
    (endPart op s).fuses = s.fuses ∧
    (endPart op s).flash = s.flash ∧
    (endPart op s).config = s.config ∧
    (endPart op s).site = s.site ∧
    (endPart op s).siteAlive = s.siteAlive ∧
    (endPart op s).controllers = s.controllers ∧
    (endPart op s).power = s.power ∧
    (endPart op s).time = s.time ∧
    (endPart op s).hbm = s.hbm ∧
    (endPart op s).cores = s.cores ∧
    (endPart op s).banks = s.banks ∧
    (endPart op s).msu = s.msu ∧
    (endPart op s).fabric = s.fabric ∧
    (endPart op s).coll = s.coll ∧
    (endPart op s).recovery = s.recovery ∧
    (endPart op s).kv = s.kv ∧
    (endPart op s).gatehouse = s.gatehouse ∧
    (endPart op s).selfTest = s.selfTest ∧
    (endPart op s).job = s.job ∧
    (endPart op s).sent = s.sent ∧
    (endPart op s).free = s.free ∧
    (endPart op s).stalled = s.stalled ∧
    (endPart op s).pending = s.pending := by
  exact ⟨rfl, rfl, rfl, rfl, rfl, rfl, rfl, rfl, rfl, rfl, rfl, rfl, rfl, rfl, rfl, rfl, rfl, rfl, rfl, rfl, rfl, rfl, rfl, rfl, rfl, rfl, rfl, rfl, rfl⟩

/-- A rink that leaves sends a notice. -/
@[simp] theorem leaveRink_frame (s : State) :
    (leaveRink s).mgt = s.mgt ∧
    (leaveRink s).link = s.link ∧
    (leaveRink s).ring = s.ring ∧
    (leaveRink s).sideband = s.sideband ∧
    (leaveRink s).status = s.status ∧
    (leaveRink s).hostMem = s.hostMem ∧
    (leaveRink s).fuses = s.fuses ∧
    (leaveRink s).flash = s.flash ∧
    (leaveRink s).config = s.config ∧
    (leaveRink s).site = s.site ∧
    (leaveRink s).siteAlive = s.siteAlive ∧
    (leaveRink s).controllers = s.controllers ∧
    (leaveRink s).power = s.power ∧
    (leaveRink s).time = s.time ∧
    (leaveRink s).hbm = s.hbm ∧
    (leaveRink s).cores = s.cores ∧
    (leaveRink s).banks = s.banks ∧
    (leaveRink s).msu = s.msu ∧
    (leaveRink s).fabric = s.fabric ∧
    (leaveRink s).coll = s.coll ∧
    (leaveRink s).recovery = s.recovery ∧
    (leaveRink s).kv = s.kv ∧
    (leaveRink s).gatehouse = s.gatehouse ∧
    (leaveRink s).selfTest = s.selfTest ∧
    (leaveRink s).job = s.job ∧
    (leaveRink s).ended = s.ended ∧
    (leaveRink s).free = s.free ∧
    (leaveRink s).stalled = s.stalled ∧
    (leaveRink s).pending = s.pending := by
  unfold leaveRink; split <;> simp

/-- The job ring's consumer moves on, in the module and in host memory. -/
@[simp] theorem advanceRing_frame (s : State) :
    (advanceRing s).mgt = s.mgt ∧
    (advanceRing s).link = s.link ∧
    (advanceRing s).sideband = s.sideband ∧
    (advanceRing s).status = s.status ∧
    (advanceRing s).fuses = s.fuses ∧
    (advanceRing s).flash = s.flash ∧
    (advanceRing s).config = s.config ∧
    (advanceRing s).site = s.site ∧
    (advanceRing s).siteAlive = s.siteAlive ∧
    (advanceRing s).controllers = s.controllers ∧
    (advanceRing s).power = s.power ∧
    (advanceRing s).time = s.time ∧
    (advanceRing s).hbm = s.hbm ∧
    (advanceRing s).cores = s.cores ∧
    (advanceRing s).banks = s.banks ∧
    (advanceRing s).msu = s.msu ∧
    (advanceRing s).fabric = s.fabric ∧
    (advanceRing s).coll = s.coll ∧
    (advanceRing s).recovery = s.recovery ∧
    (advanceRing s).kv = s.kv ∧
    (advanceRing s).gatehouse = s.gatehouse ∧
    (advanceRing s).selfTest = s.selfTest ∧
    (advanceRing s).job = s.job ∧
    (advanceRing s).ended = s.ended ∧
    (advanceRing s).sent = s.sent ∧
    (advanceRing s).free = s.free ∧
    (advanceRing s).stalled = s.stalled ∧
    (advanceRing s).pending = s.pending := by
  simp [advanceRing]

/-- What the end of a job leaves alone. -/
@[simp] theorem endJob_frame (code : U16) (s : State) :
    (endJob code s).sideband = s.sideband ∧
    (endJob code s).fuses = s.fuses ∧
    (endJob code s).flash = s.flash ∧
    (endJob code s).config = s.config ∧
    (endJob code s).site = s.site ∧
    (endJob code s).siteAlive = s.siteAlive ∧
    (endJob code s).controllers = s.controllers ∧
    (endJob code s).power = s.power ∧
    (endJob code s).time = s.time ∧
    (endJob code s).hbm = s.hbm ∧
    (endJob code s).fabric = s.fabric ∧
    (endJob code s).coll = s.coll ∧
    (endJob code s).gatehouse = s.gatehouse ∧
    (endJob code s).selfTest = s.selfTest ∧
    (endJob code s).ended = s.ended ∧
    (endJob code s).free = s.free ∧
    (endJob code s).pending = s.pending := by
  simp [endJob]

/-- What an abort or a stop of a job leaves alone. -/
@[simp] theorem concludeJob_frame (code : U16) (s : State) :
    (concludeJob code s).sideband = s.sideband ∧
    (concludeJob code s).fuses = s.fuses ∧
    (concludeJob code s).flash = s.flash ∧
    (concludeJob code s).config = s.config ∧
    (concludeJob code s).site = s.site ∧
    (concludeJob code s).siteAlive = s.siteAlive ∧
    (concludeJob code s).controllers = s.controllers ∧
    (concludeJob code s).power = s.power ∧
    (concludeJob code s).time = s.time ∧
    (concludeJob code s).hbm = s.hbm ∧
    (concludeJob code s).fabric = s.fabric ∧
    (concludeJob code s).coll = s.coll ∧
    (concludeJob code s).gatehouse = s.gatehouse ∧
    (concludeJob code s).selfTest = s.selfTest ∧
    (concludeJob code s).ended = s.ended ∧
    (concludeJob code s).free = s.free ∧
    (concludeJob code s).pending = s.pending := by
  unfold concludeJob; split
  · simp
  · split <;> simp

/-- What a halt leaves alone. -/
@[simp] theorem takeHalt_frame (code : U16) (op : U32) (loc : U64) (s : State) :
    (takeHalt code op loc s).link = s.link ∧
    (takeHalt code op loc s).ring = s.ring ∧
    (takeHalt code op loc s).sideband = s.sideband ∧
    (takeHalt code op loc s).fuses = s.fuses ∧
    (takeHalt code op loc s).flash = s.flash ∧
    (takeHalt code op loc s).config = s.config ∧
    (takeHalt code op loc s).site = s.site ∧
    (takeHalt code op loc s).siteAlive = s.siteAlive ∧
    (takeHalt code op loc s).controllers = s.controllers ∧
    (takeHalt code op loc s).power = s.power ∧
    (takeHalt code op loc s).time = s.time ∧
    (takeHalt code op loc s).hbm = s.hbm ∧
    (takeHalt code op loc s).cores = s.cores ∧
    (takeHalt code op loc s).banks = s.banks ∧
    (takeHalt code op loc s).msu = s.msu ∧
    (takeHalt code op loc s).fabric = s.fabric ∧
    (takeHalt code op loc s).coll = s.coll ∧
    (takeHalt code op loc s).recovery = s.recovery ∧
    (takeHalt code op loc s).kv = s.kv ∧
    (takeHalt code op loc s).gatehouse = s.gatehouse ∧
    (takeHalt code op loc s).selfTest = s.selfTest ∧
    (takeHalt code op loc s).ended = s.ended ∧
    (takeHalt code op loc s).free = s.free ∧
    (takeHalt code op loc s).stalled = s.stalled ∧
    (takeHalt code op loc s).pending = s.pending := by
  unfold takeHalt; split
  · simp
  · split <;> simp

/-- What a halt leaves alone. -/
@[simp] theorem haltJob_frame (code : U16) (op : U32) (loc : U64) (s : State) :
    (haltJob code op loc s).link = s.link ∧
    (haltJob code op loc s).ring = s.ring ∧
    (haltJob code op loc s).sideband = s.sideband ∧
    (haltJob code op loc s).fuses = s.fuses ∧
    (haltJob code op loc s).flash = s.flash ∧
    (haltJob code op loc s).config = s.config ∧
    (haltJob code op loc s).site = s.site ∧
    (haltJob code op loc s).siteAlive = s.siteAlive ∧
    (haltJob code op loc s).controllers = s.controllers ∧
    (haltJob code op loc s).power = s.power ∧
    (haltJob code op loc s).time = s.time ∧
    (haltJob code op loc s).hbm = s.hbm ∧
    (haltJob code op loc s).cores = s.cores ∧
    (haltJob code op loc s).banks = s.banks ∧
    (haltJob code op loc s).msu = s.msu ∧
    (haltJob code op loc s).fabric = s.fabric ∧
    (haltJob code op loc s).coll = s.coll ∧
    (haltJob code op loc s).recovery = s.recovery ∧
    (haltJob code op loc s).kv = s.kv ∧
    (haltJob code op loc s).gatehouse = s.gatehouse ∧
    (haltJob code op loc s).selfTest = s.selfTest ∧
    (haltJob code op loc s).ended = s.ended ∧
    (haltJob code op loc s).free = s.free ∧
    (haltJob code op loc s).stalled = s.stalled ∧
    (haltJob code op loc s).pending = s.pending := by
  unfold haltJob; split
  · simp
  · split <;> simp

/-- What a stop leaves alone. -/
@[simp] theorem stopJob_frame (code : U16) (op : U32) (loc : U64) (s : State) :
    (stopJob code op loc s).sideband = s.sideband ∧
    (stopJob code op loc s).fuses = s.fuses ∧
    (stopJob code op loc s).flash = s.flash ∧
    (stopJob code op loc s).config = s.config ∧
    (stopJob code op loc s).site = s.site ∧
    (stopJob code op loc s).siteAlive = s.siteAlive ∧
    (stopJob code op loc s).controllers = s.controllers ∧
    (stopJob code op loc s).power = s.power ∧
    (stopJob code op loc s).time = s.time ∧
    (stopJob code op loc s).hbm = s.hbm ∧
    (stopJob code op loc s).fabric = s.fabric ∧
    (stopJob code op loc s).coll = s.coll ∧
    (stopJob code op loc s).gatehouse = s.gatehouse ∧
    (stopJob code op loc s).selfTest = s.selfTest ∧
    (stopJob code op loc s).ended = s.ended ∧
    (stopJob code op loc s).free = s.free ∧
    (stopJob code op loc s).pending = s.pending := by
  unfold stopJob; split
  · simp
  · split <;> simp

/-- What a step abort leaves alone. -/
@[simp] theorem abortStep_frame (s : State) :
    (abortStep s).mgt = s.mgt ∧
    (abortStep s).link = s.link ∧
    (abortStep s).ring = s.ring ∧
    (abortStep s).sideband = s.sideband ∧
    (abortStep s).status = s.status ∧
    (abortStep s).hostMem = s.hostMem ∧
    (abortStep s).fuses = s.fuses ∧
    (abortStep s).flash = s.flash ∧
    (abortStep s).config = s.config ∧
    (abortStep s).site = s.site ∧
    (abortStep s).siteAlive = s.siteAlive ∧
    (abortStep s).controllers = s.controllers ∧
    (abortStep s).power = s.power ∧
    (abortStep s).time = s.time ∧
    (abortStep s).hbm = s.hbm ∧
    (abortStep s).banks = s.banks ∧
    (abortStep s).fabric = s.fabric ∧
    (abortStep s).coll = s.coll ∧
    (abortStep s).gatehouse = s.gatehouse ∧
    (abortStep s).selfTest = s.selfTest ∧
    (abortStep s).ended = s.ended ∧
    (abortStep s).free = s.free ∧
    (abortStep s).pending = s.pending := by
  unfold abortStep; split <;> simp

/-- A repeated operation keeps what each of its steps keeps. -/
theorem foldl_keeps {α β : Type} (p : State → β) (g : State → α → State) (h : ∀ s x, p (g s x) = p s) (xs : List α)
    (s : State) : p (xs.foldl g s) = p s := by
  induction xs generalizing s with
  | nil => rfl
  | cons x xs ih => rw [List.foldl_cons, ih, h]

end Sys2Proof.Machine
end

