-- ==== Sys2Proof/WellFormed.lean ====
section
/-! DEFINITION. The operand checks that need no state: ranges that the types of the operands leave open. What depends on
the job's image (the ranges it declares, the spans of its areas) is checked where the command runs. -/

namespace Sys2Proof

/-- `n` bytes of device memory from `a` (R233). -/
def inDevice (a n : Nat) : Bool := decide (a + n ≤ 0xC000000000)

/-- A whole 64 KiB page (R310). -/
def PageIn.whole (p : PageIn) : Bool := p.bytes.length == 65536

def RestoreRole.ok : RestoreRole → Bool
  | .live _ _ => true
  | .standby own tandem => own.all PageIn.whole && tandem.all PageIn.whole

/-- A place in the core's own stores (R113, R127). -/
def Loc.onCore (l : Loc) (c : Core) : Bool :=
  match l.space with
  | .scratch d => d == c && decide (l.addr < 0xA00000)
  | .drain d => d == c && decide (l.addr < 0x10000)
  | .hbm => false
  | .ring d _ => d == c

/-- The shape of a reduction: ranges of whole 32 B words, each with its list of 1 to 1,024 contributors (R247, R249). -/
def ReduceDecl.ok (d : ReduceDecl) : Bool :=
  (d.ranges.all fun r => r.base % 32 == 0 && r.len % 32 == 0 && inDevice r.base r.len) &&
    d.lists.length == d.ranges.length && d.lists.all fun l => decide (1 ≤ l.length) && decide (l.length ≤ 1024)

/-- Bytes from a place: local HBM has an end here, the core's own stores where the command runs (R113, R233). -/
def Loc.span (l : Loc) (n : Nat) : Bool :=
  match l.space with
  | .hbm => inDevice l.addr n
  | .scratch _ => true
  | .drain _ => true
  | .ring _ _ => true

/-- A gather: one length for each contributor (R290). -/
def GatherCmd.ok (g : GatherCmd) : Bool := decide (1 ≤ g.lens.length) && g.dest.span g.lens.sum && g.mine.span 0

/-- The records of an admission lie in device memory (R219). -/
def AdmitTable.ok : AdmitTable → Bool
  | .host _ => true
  | .built records => records.all fun a => inDevice a 32

/-- An update operation: 1 to 2^26 tiles, arrays on page boundaries, no stochastic rounding of the working copy (R257). -/
def UpdateCmd.ok (u : UpdateCmd) : Bool :=
  decide (1 ≤ u.tiles) && decide (u.tiles ≤ 2 ^ 26) &&
    ([u.p, u.m, u.v, u.t, u.work.addr].all fun a => a % 65536 == 0) && decide (u.work.rnd ≠ .sr)

/-- A tile: up to 1,024 contraction elements, or 512 in wide mode, by up to 1,024 outputs (R83, R84). -/
def TileLoadCmd.ok (t : TileLoadCmd) : Bool :=
  decide (1 ≤ t.k) && decide (t.k ≤ if t.wide then 512 else 1024) && decide (1 ≤ t.n) && decide (t.n ≤ 1024) &&
    t.w.n == t.k * t.n

/-- The addresses that a stream gives (R137). -/
def AddrForm.count : AddrForm → Nat
  | .affine a => (a.levels.map fun l => l.1).foldl (· * ·) 1
  | .indexed _ _ _ n inner => n * (inner.map fun l => l.1).foldl (· * ·) 1

/-- Five nested counts at most, and two inside an indexed stream (R137). -/
def AddrForm.ok : AddrForm → Bool
  | .affine a => decide (a.levels.length ≤ 5)
  | .indexed _ _ _ _ inner => decide (inner.length ≤ 2)

/-- Rows of one length make up the stream (R118). -/
def RowLens.ok (n : Nat) : RowLens → Bool
  | .each k => decide (0 < k) && n % k == 0
  | .stream _ _ => true

/-- The rows of a stream of `n` elements. -/
def RowLens.rows (n : Nat) : RowLens → Nat
  | .each k => n / max 1 k
  | .stream _ rows => rows

/-- What an operation of the stream engine asks of its own operands: streams of one length, and rows that fill their
stream (R114, R118, R121). -/
def StreamOp.ok : StreamOp → Bool
  | .ew _ ins out => ins.all fun x => x.t.n == out.t.n
  | .maskLogic _ _ _ _ _ => true
  | .select _ a b out => a.t.n == out.t.n && b.t.n == out.t.n
  | .func _ _ x out => x.t.n == out.t.n
  | .reduce _ x lens _ out _ => lens.ok x.t.n && out.t.n == lens.rows x.t.n
  | .topk k x lens _ vals _ => decide (1 ≤ k) && decide (k ≤ 8) && lens.ok x.t.n && vals.t.n == k * lens.rows x.t.n
  | .scan _ _ x lens _ out => lens.ok x.t.n && out.t.n == x.t.n
  | .softmax x lens _ _ _ _ _ => lens.ok x.t.n
  | .norm layer x _ _ _ lens _ out mu _ _ => lens.ok x.t.n && out.t.n == x.t.n && (layer || mu.isNone)
  | .softmaxBack _ x _ _ lens _ out => lens.ok x.t.n && out.t.n == x.t.n
  | .normBack layer x dy _ _ lens _ dx _ db =>
    lens.ok x.t.n && dy.t.n == x.t.n && dx.t.n == x.t.n && (layer || db.isNone)
  | .featureSum x n _ out => decide (0 < n) && x.t.n % n == 0 && out.t.n == n
  | .dropout _ _ x out _ => x.t.n == out.t.n
  | .uniformBits _ _ => true
  | .uniform n out => out.t.n == n
  | .normal n out => out.t.n == n
  | .normalFma _ x out => x.t.n == out.t.n
  | .gather addrs _ out => addrs.form.ok && out.t.n == addrs.form.count
  | .scatter addrs x _ => addrs.form.ok && x.t.n == addrs.form.count
  | .scatterAdd addrs x _ => addrs.form.ok && x.t.n == addrs.form.count
  | .pool _ _ _ dims channels _ outs out _ =>
    decide (1 ≤ dims.length) && decide (dims.length ≤ 3) && (dims.all fun d => d.u == 1) && out.t.n == outs * channels

/-- A windowed operation: 1 to 3 dimensions, channels that divide into its groups (R149). -/
def WindowCmd.ok (c : WindowCmd) : Bool :=
  decide (1 ≤ c.dims.length) && decide (c.dims.length ≤ 3) && decide (1 ≤ c.groups) && decide (1 ≤ c.channels) &&
    c.channels % c.groups == 0 && c.outChannels % c.groups == 0 && decide (c.group < c.groups) &&
    decide (c.origins.levels.length ≤ 5)

/-- A Lodge operation serves the pixel class (R167, R168). -/
def LodgeCmd.ok (c : LodgeCmd) : Bool :=
  c.pixelClass && decide (1 ≤ c.dims.length) && decide (c.dims.length ≤ 3) && decide (1 ≤ c.channels) &&
    decide (1 ≤ c.outs) && decide (c.group < c.groups) && c.channels % c.groups == 0

/-- Blocks begin on 64 B boundaries and hold at least one element (R173). -/
def GroomCmd.ok (c : GroomCmd) : Bool := c.base % 64 == 0 && decide (0 < c.elems.n)

/-- A halo buffer has 1 to 8 slots of up to 256 KiB, and uses are numbered from 1 (R158, R160). -/
def HaloBuf.ok (h : HaloBuf) (use : Nat) : Bool :=
  decide (1 ≤ h.slots) && decide (h.slots ≤ 8) && decide (h.rowBytes ≤ 0x40000) && decide (1 ≤ use)

/-- Head dimension 32 to 256 by 32, and 1 to 16 query heads a key head (R201). -/
def attnShape (dim heads kvHeads : Nat) : Bool :=
  dim % 32 == 0 && decide (32 ≤ dim) && decide (dim ≤ 256) && decide (1 ≤ kvHeads) && heads % kvHeads == 0 &&
    decide (kvHeads ≤ heads) && decide (heads ≤ 16 * kvHeads)

/-- Windows and frames of 16 bits (R207). -/
def maskOk (r : MaskRule) (window : Nat) : Bool :=
  decide (window ≤ 65535) &&
    match r with
    | .bidirectional => true
    | .causal => true
    | .blockCausal f => decide (1 ≤ f) && decide (f ≤ 65535)

/-- Formats of the probabilities (R203). -/
def probOk : Fmt → Bool
  | .e4m3 => true
  | .e5m2 => true
  | .bf16 => true
  | .fp16 => false
  | .fp32 => false
  | .int32 => false

/-- The lines of two regions lie apart. -/
def Region.apart (a b : Region) : Bool :=
  a.core != b.core || decide (a.first + a.lines ≤ b.first) || decide (b.first + b.lines ≤ a.first)

/-- Regions are whole lines of a drain file's 512; a hand-off region is a ring of slots of 1 to 32 lines (R112). -/
def Region.ok (r : Region) : Bool :=
  decide (r.first + r.lines ≤ 512) &&
    match r.kind with
    | .own _ => true
    | .handOff _ _ n => decide (1 ≤ n) && decide (n ≤ 32) && decide (0 < r.lines) && r.lines % n == 0
    | .group => r.lines % 32 == 0

/-- No two regions overlap (R112, R113). -/
def regionsOk : List Region → Bool
  | [] => true
  | r :: rs => r.ok && (rs.all fun q => r.apart q) && regionsOk rs

/-- A command whose operands are well formed. -/
def Instr.wellFormed : Instr → Bool
  | .mgtRegisterWrite off wide _ => decide (off < 0x10000) && off % (if wide then 8 else 4) == 0
  | .mgtRingJobCtrlWrite _ _ _ => true
  | .mgtIntStatusClear _ => true
  | .mgtIntEnableWrite _ => true
  | .flashProgram _ => true
  | .attest => true
  | .healthSweep _ => true
  | .siteAmend => true
  | .jobAbort => true
  | .bankLoad partBytes => partBytes.length == 128
  | .lifecycle _ => true
  | .identityBarrierRelease _ => true
  | .identityBarrierTimeout => true
  | .sbIdent => true
  | .sbState => true
  | .sbTemp => true
  | .sbStackTemp => true
  | .sbPower => true
  | .sbVolt => true
  | .sbCause => true
  | .sbResetWarm => true
  | .sbResetRink => true
  | .sbWriteRejected _ _ _ => true
  | .jobRingProducerUpdate _ => true
  | .jobFetch f => f.channels.length == 16 && f.rings.length == 16 && f.ringCounts.length == 16 &&
      regionsOk f.image.regions && f.image.blocked.all fun g => decide (g.1 < 128) && decide (g.2 < 320)
  | .jobStartBarrier _ => true
  | .sampleRingProducerUpdate _ _ => true
  | .manifestHostCountUpdate _ _ => true
  | .admissionHeaderUpdate _ _ _ => true
  | .cxlMemWrite addr data => inDevice addr data.length
  | .cxlMemRead addr len => inDevice addr len
  | .cxlLinkTrained _ _ _ => true
  | .statusRecordTelemetry t => t.domains.length == 24
  | .telemetryRefresh _ _ _ _ => true
  | .powerGood => true
  | .powerOnReset => true
  | .inputLockout => true
  | .inputOvervoltageStop => true
  | .inputOutOfRange _ => true
  | .overcurrent => true
  | .perstAssert => true
  | .perstRelease => true
  | .warmReset => true
  | .rinkResetFlood => true
  | .stepAbortUnanswered => true
  | .jobResumeAfterRinkReset => true
  | .referenceClockLoss => true
  | .thermalTrip => true
  | .thermalTripCooled => true
  | .bootRom => true
  | .flashSelect => true
  | .railsUp => true
  | .bootSelfTest _ => true
  | .hbmInit _ _ => true
  | .runtimeLoad => true
  | .rinkFormation _ => true
  | .rinkFormationRetry _ _ => true
  | .pageSettle _ restored => restored.all PageIn.whole
  | .capRuleEval _ _ _ => true
  | .waveWithholdPeriod => true
  | .paceDomainEval _ _ => true
  | .thermalCeilingEval junction stackTemps => junction.length == 24 && stackTemps.length == 12
  | .domainVoltageStep _ => true
  | .regulatorCheck _ => true
  | .tempSensorCheck errors => errors.length == 24
  | .inputMonitorCheck _ _ => true
  | .laserMonitorCheck _ => true
  | .hbmRefresh _ bank _ => decide (bank < 48)
  | .hbmScrub _ word _ => decide (word < 72 * 2 ^ 30 / 32)
  | .timebaseUnsync _ _ => true
  | .timeRootTakeover _ _ => true
  | .timeRead ctx dest => dest.onCore ctx.core
  | .portFrameReceive _ _ => true
  | .nack _ _ => true
  | .credit _ _ => true
  | .packetInject _ _ body => decide (body.bytes.length ≤ 4096)
  | .packetForward _ p => decide (p.bytes.length ≤ 4096)
  | .packetDeliver _ p => decide (p.bytes.length ≤ 4096)
  | .beat _ => true
  | .beatReceive _ _ lane => decide (lane < 128)
  | .portDownTimeout _ _ => true
  | .downNotice _ => true
  | .swapCondition _ lane _ => decide (lane < 128)
  | .swap _ _ lane _ => decide (lane < 8)
  | .swapSwitch _ _ => true
  | .portBringup _ _ => true
  | .bringupPhaseTimeout _ _ => true
  | .ident _ _ => true
  | .calibration _ _ _ => true
  | .allGather g => g.ok
  | .reduceScatter r => r.decl.ok
  | .allReduce r _ => r.decl.ok
  | .broadcast _ _ addr len _ => addr.span len
  | .barrier _ => true
  | .barrierRelease _ _ _ => true
  | .consistentSnapshot => true
  | .replicaReduction _ _ => true
  | .cutoffDeadline => true
  | .vote rink _ => decide (rink < 32)
  | .rinkVoteReceive voter rink _ => decide (voter < 32) && decide (rink < 32)
  | .leaveNotice rink => decide (rink < 32)
  | .rejoinRequest rink _ => decide (rink < 32)
  | .rejoinStateTransfer _ pages => pages.all PageIn.whole
  | .replicaCheckRecord records majority => majority.all PageIn.whole && records.all fun r => decide (r.z < 32)
  | .stopNotice _ => true
  | .moduleLost _ => true
  | .pause _ => true
  | .recoveryWaitExpiry => true
  | .adoptionJoin _ => true
  | .tandemRestore role => role.ok
  | .marshalBeat _ => true
  | .marshalPromotion _ => true
  | .controllerBTakeover _ => true
  | .segmentArrive d seg => d.ok && seg.addr % 32 == 0
  | .closeArrive d _ _ => d.ok
  | .updateOperation u => u.ok
  | .openedSignal _ _ => true
  | .pageDoneSignal _ _ _ => true
  | .tandemRefresh => true
  | .tandemPageReceive _ p _ => p.whole
  | .tandemPageAck _ => true
  | .hbmReadReturn _ _ _ _ _ tandem => tandem.all PageIn.whole
  | .stepStart => true
  | .commitBarrier _ => true
  | .stepReplay => true
  | .cutPointReached => true
  | .cutDump _ => true
  | .parkedCoreTestDone _ _ => true
  | .engineCommandIssue c => !c.held && (c.addresses.all fun a => a.form.ok) && c.writes.all fun w => decide (w.2.1 < 0x40000)
  | .trellisWave c => decide (c.tile < 0x10000)
  | .tileLoad c => c.ok
  | .tileSwap _ => true
  | .drainResult _ => true
  | .streamOperation c => c.op.ok
  | .windowGather c => c.ok
  | .lodgeOperation c => c.ok
  | .groomedStore c => c.ok
  | .groomedLoad c => c.ok
  | .haloSend _ h use _ => h.ok use
  | .haloReady _ h use => h.ok use
  | .haloAck _ h use => h.ok use
  | .branchMispredict _ _ => true
  | .speculativeLoadRetire _ _ => true
  | .hbmResponseDropped _ _ _ => true
  | .cvSelect _ _ => true
  | .cvFeed _ _ => true
  | .cvRead _ => true
  | .fusedAttention c => attnShape c.dim c.heads c.kvHeads && maskOk c.rule c.window && probOk c.fmtP
  | .attentionBackward c => attnShape c.dim c.heads c.kvHeads && maskOk c.rule c.window && probOk c.fmtP && probOk c.fmtS
  | .walkerSnapshot _ _ _ _ => true
  | .snapshotRelease _ _ _ => true
  | .admission _ table => table.ok
  | .append _ => true
  | .release _ _ => true
  | .cachePublish _ => true
  | .dictionaryLoad => true
  | .sampleDescriptor _ _ => true
  | .sampleBytesArrive _ _ => true
  | .reserveListRecord _ _ => true
  | .reserveEntry _ _ _ => true
  | .batchComplete _ => true
  | .gatehouseStatePage => true
  | .batchRebuild => true
  | .heldSweepStart _ => true
  | .mgtCmdRejected _ => true
  | .downNoticeWithdrawn _ => true
  | .smbusBusTimeout => true

end Sys2Proof
end

