-- ==== Sys2Proof/Tests/Slice0.lean ====
section
/-! SUPPORT. Named tests. `refused_…` are ill-formed operands that the checks of WellFormed refuse; `meets_…` are, for each
statement, concrete states and operands that meet the hypotheses of each of its clauses together, most with the outcome
that the clause states; `test_…` are values that the manual itself works out, with the rule they come from. -/

open Sys2Proof Sys2Proof.Machine

namespace Sys2Proof.Tests

-- One theorem at a time: many kernel evaluations at once need a thread and a stack each.
set_option Elab.async false

/-! ## Small states -/

/-- A command answers a next state that passes a check. -/
def gives (i : Instr) (s : State) (p : State → Bool) : Bool :=
  match exec i s with
  | .next t => p t
  | _ => false

/-- A command leaves the state as it is. -/
def stays (i : Instr) (s : State) : Bool := gives i s fun t => decide (t = s)

/-- A command waits by handshake. -/
def waits (i : Instr) (s : State) : Bool := gives i s fun t => decide (t = stall i s)

/-- A command is refused when the program is built, by a rule. -/
def refusedBy (i : Instr) (s : State) (rule : Nat) : Bool :=
  match exec i s with
  | .refused (.refusedAtBuild k) => k == rule
  | _ => false

/-- A site record: form 0, extents X × Y × Z, at (x, y, z), every port connected. -/
def site (form X Y Z x y z : Nat) : BitVec 4096 :=
  BitVec.ofNat 4096 (0x45544953 + 0x3F * 2 ^ 72 + form * 2 ^ 80 + X * 2 ^ 96 + Y * 2 ^ 104 + Z * 2 ^ 112 + x * 2 ^ 120 +
    y * 2 ^ 128 + z * 2 ^ 136 + 3 * 2 ^ 160)

/-- A module in READY in a rink of two, with a trained link and HBM served. -/
def ready : State :=
  { State.reset with
    mgt := { Mgt.reset with state := .ready }
    link := { HostLink.reset with trained := true, cxl := true, perstLow := false, perstReleased := true }
    ring := ⟨1, 0, false, true⟩
    sideband := { Sideband.reset with answering := true, pwrgd := true }
    controllers := ⟨true, false, true, true, none⟩
    power := { Power.reset with phase := .ready, rails := true, volts := startVolts }
    site := site 0 2 1 1 0 0 0
    hbm := { Hbm.reset with serving := true }
    time := { Timebase.reset with value := 1000, set := true } }

/-- The image of a job: no operation but the two of its one step program. -/
def image : Image where
  shape := ⟨2, 1, 1⟩
  hashed := 0
  corePartBytes := []
  unorderedFloat := false
  selector := [(0, 0)]
  programs := [⟨2, [], []⟩]
  stateRanges := []
  stepRanges := []
  batchRanges := []
  heldWritten := []
  admissionTables := []
  counterBase := 0x10000
  buffers := []
  tokenAreas := []
  shadowAreas := []
  blocked := []
  regions := []
  replica := []
  cache := none
  batch := none

/-- Steps 5 to 9 of job 7. -/
def desc : BitVec 2048 := BitVec.ofNat 2048 (7 + 5 * 2 ^ 64 + 9 * 2 ^ 128)

def job (p : JobPhase) : Job := ⟨desc, image, [], [], [], 0, p, none, 0, none, [], 0⟩

/-- The module with a job in a phase. -/
def busy (p : JobPhase) : State :=
  { ready with
    job := some (job p)
    mgt := { ready.mgt with state := .running }
    status := { StatusRec.reset with status := 1, step := 5, committed := 4, jobId := 7 }
    recovery := { Recovery.reset with marshal := true } }

/-! ## The statements' hypotheses -/

theorem meets_StepTakesFrontCommand :
    ready.pending = [] ∧ ready.stalled = [] ∧ ready.time.running = true ∧ ready.time.skip = false ∧
    (match step (stall .sbIdent ready) with
      | .next t => t.time.value == 1001 && t.stalled == [] && t.sideband.lastWord == 0x7680
      | _ => false) = true ∧
    (match step ready with
      | .next t => t.time.value == 1001
      | _ => false) = true := by decide +kernel

theorem meets_WindowWriteReachesItsRegister :
    ready.controllers.romDone = true ∧
    gives (.mgtRegisterWrite 0x1C false 0xABCD) ready (fun t => windowWord t 0x1C == 0xABCD && windowWord t 0x18 == 0) = true ∧
    gives (.mgtRegisterWrite 0x28 true 0x500000007) ready (fun t => windowWord t 0x28 == 7 && windowWord t 0x2C == 5 &&
      windowRead t 0x28 8 == 0x500000007 && windowRead t 0x2A 4 == 0 && windowRead t 0x2C 8 == 0) = true ∧
    stays (.mgtRegisterWrite 0x02 false 1) ready = true ∧ stays (.mgtRegisterWrite 0x6C false 1) ready = true ∧
    stays (.mgtRegisterWrite 0x70 true 1) ready = true ∧ stays (.mgtRegisterWrite 0xDFFC false 1) ready = true := by
  decide +kernel

theorem meets_RingRegistersOnlyInReady :
    ready.controllers.romDone = true ∧
    gives (.mgtRegisterWrite 0x40 true 0x500) ready (fun t => t.mgt.ringBase == 0x500) = true ∧
    stays (.mgtRegisterWrite 0x40 true 0x501) ready = true ∧ stays (.mgtRegisterWrite 0x40 true 0x500) (busy .inStep) = true ∧
    gives (.mgtRegisterWrite 0x50 false 4) ready (fun t => t.mgt.ringSize == 4) = true ∧
    gives (.mgtRegisterWrite 0x50 false 12) ready (fun t => t.mgt.ringSize == 12) = true ∧
    stays (.mgtRegisterWrite 0x50 false 13) ready = true ∧ stays (.mgtRegisterWrite 0x5C false 1) (busy .held) = true ∧
    gives (.mgtRingJobCtrlWrite .high 1 9) ready (fun t => t.mgt.ringCtrl == 0x100000000 && t.ring.consumer == 9) = true ∧
    stays (.mgtRingJobCtrlWrite .whole 64 9) ready = true := by decide +kernel

/-- Vectors 0 (open) and 2 (masked), with causes 0 and 3 enabled. -/
def vectors : State :=
  { ready with mgt := { ready.mgt with intEnable := 0x9, msixTable := setField Mgt.reset.msixTable 127 0 (0x80000000) } }

theorem meets_InterruptVectorsFollowTheirCauses :
    vectors.controllers.romDone = true ∧
    gives (.mgtIntEnableWrite 0x1FF) { vectors with mgt := { vectors.mgt with intStatus := 0x6 } }
      (fun t => t.mgt.intEnable == 0x1FF && t.sent == [.msix 0 0x80000000 0] && t.mgt.msixPba == 2) = true ∧
    gives (.mgtRegisterWrite 0x60 false 0x8) { vectors with mgt := { vectors.mgt with intStatus := 0x8 } }
      (fun t => t.mgt.intStatus == 0 && t.sent == []) = true := by decide +kernel

theorem meets_SidebandReadsMirrorRegisters :
    gives .sbState ready (fun t => t.sideband.lastWord == 0x0013 && t.sideband.lastAck) = true ∧
    gives .sbIdent State.reset (fun t => t.sideband.lastWord == 0 && !t.sideband.lastAck) = true := by decide +kernel

theorem meets_SidebandResetRequests :
    ready.sideband.answering = true ∧ ready.mgt.state ≠ .boot ∧ ready.mgt.state ≠ .recovery ∧
    gives .sbResetRink ready (fun t => t.sent == [.send .rinkReset]) = true ∧
    gives .sbResetRink { ready with mgt := Mgt.reset } (fun t => t.sideband.request == none && t.sideband.lastAck) = true := by
  decide +kernel

def findings (cores : List PhysCore) : SweepFindings := ⟨cores, [], [], [], none⟩

theorem meets_ManagementCommandsAcceptedByState :
    let s := busy .inStep
    let b := { ready with mgt := { ready.mgt with cmdState := .busy } }
    s.controllers.romDone = true ∧ s.mgt.cmdState ≠ .busy ∧ s.mgt.state.duringJob = true ∧ s.fuses.lifecycle ≠ .blank ∧
    (s.job.all fun j => s.mgt.arg0 != Desc.jobId j.desc) = true ∧
    gives (.flashProgram none) s (fun t => t.mgt.cmdCode == 0x0702 && t.mgt.cmdState == .refused) = true ∧
    gives (.healthSweep (findings [])) s (fun t => t.mgt.cmdCode == 0x0704 && t.selfTest.sweepHeld) = true ∧
    gives .jobAbort s (fun t => t.mgt.cmdCode == 0x0705) = true ∧
    gives (.mgtCmdRejected 8) ready (fun t => t.mgt.cmdCode == 0x0703 && t.mgt.cmd == 8 && bitAt t.mgt.intStatus 2) = true ∧
    gives (.mgtCmdRejected 0) s (fun t => t.mgt.cmdCode == 0x0703) = true ∧
    b.mgt.cmdState = .busy ∧ stays .attest b = true ∧ stays (.bankLoad []) b = true ∧
    stays .siteAmend { ready with mgt := { ready.mgt with state := .linkPcie } } = true := by
  decide +kernel

theorem meets_HealthSweepClassesCores :
    let f := findings [5]
    let s := { ready with
      fuses := { ready.fuses with lifecycle := .deployed }
      hbm := { ready.hbm with coreMap := coreMapOf (fun _ => true) (fun _ => false) (fun _ => (0, 0)) } }
    f.cut = none ∧ s.mgt.state = .ready ∧ s.job = none ∧ s.controllers.romDone = true ∧ s.mgt.cmdState ≠ .busy ∧
    s.fuses.lifecycle ≠ .blank ∧ s.selfTest.sweepHeld = false ∧ fullSelfTest s = false ∧
    gives (.healthSweep f) s (fun t => t.mgt.cmdCode == 0x0700 && (entryOf t 5).state == .failed && allServed t) = true ∧
    gives (.heldSweepStart f) { s with fuses := Fuses.initial, selfTest := { s.selfTest with sweepHeld := true } }
      (fun t => (entryOf t 5).state == .failed && !t.selfTest.sweepHeld && t.selfTest.foundCount == 1) = true := by
  decide +kernel

theorem meets_JobAbortEndsTheJob :
    let s := { busy .inStep with mgt := { (busy .inStep).mgt with arg0 := 7 } }
    s.controllers.romDone = true ∧ s.mgt.cmdState ≠ .busy ∧ s.mgt.state.duringJob = true ∧
    s.job = some (job .inStep) ∧ s.mgt.arg0 = Desc.jobId (job .inStep).desc ∧ s.link.trained = true ∧ s.link.cxl = true ∧
    gives .jobAbort s (fun t => t.status.status == 3 && t.job == none && t.mgt.cmdCode == 0x0700 &&
      Mem.read 0 t.hostMem 64 8 == leBytes 8 1) = true ∧
    gives .jobAbort { s with job := some (job .held), mgt := { s.mgt with state := .held } }
      (fun t => t.status.status == 4) = true ∧
    gives .jobAbort { s with job := some { job .halted with stop := 0x0503 }, mgt := { s.mgt with state := .halted } }
      (fun t => t.status.status == 0x0503) = true ∧
    gives .jobAbort { s with recovery := { s.recovery with unacked := [1] } }
      (fun t => (t.job.map fun j => (j.phase, j.stop)) == some (.refreshing, 3) && t.mgt.cmdCode == 0x0700 &&
        t.ring.consumer == s.ring.consumer) = true := by decide +kernel

theorem meets_BankLoadIsARinkOperation :
    let s := { ready with mgt := { ready.mgt with arg1 := 1, arg2 := 1 } }
    let w (bad : Option U16) : State := { ready with
      mgt := { ready.mgt with cmdState := .busy, cmd := 6 }
      banks := { Banks.reset with waiting := some (true, 9, 0, 1, bad) } }
    let head (bad : Option U16) : State := { w bad with recovery := { Recovery.reset with marshal := true } }
    s.controllers.romDone = true ∧ s.mgt.cmdState ≠ .busy ∧ s.mgt.state = .ready ∧
    s.mgt.arg0.toNat + s.mgt.arg1.toNat ≤ devTop ∧ s.mgt.arg1 ≠ 0 ∧ s.mgt.arg2.toNat ≤ 1 ∧
    true ≠ s.banks.active ∧ (bankOf s.banks true).refs = [] ∧
    gives (.bankLoad [65536]) s (fun t => t.mgt.cmdState == .busy && (t.banks.waiting.map fun w => w.2.2.2.2) == some none) = true ∧
    gives (.bankLoad [65537]) s (fun t => (t.banks.waiting.map fun w => w.2.2.2.2) == some (some 0x0202)) = true ∧
    gives (.bankLoad []) { s with mgt := { s.mgt with arg2 := 0 } }
      (fun t => (t.banks.waiting.map fun w => w.2.2.2.2) == some (some 0x0203)) = true ∧
    gives (.bankLoad []) { s with banks := { s.banks with bank1 := { Bank.empty with refs := [4] } } }
      (fun t => (t.banks.waiting.map fun w => w.2.2.2.2) == some (some 0x0204)) = true ∧
    (w none).recovery.marshal = false ∧ (head none).recovery.marshal = true ∧ [BankEntry.refusal].length + 1 = (head none).rinkSize ∧
    gives (.identityBarrierRelease (.outcome true)) (w none)
      (fun t => t.mgt.cmdCode == 0x0700 && t.banks.bank1.image == some 9) = true ∧
    gives (.identityBarrierRelease (.outcome true)) (w (some 0x0204))
      (fun t => t.mgt.cmdCode == 0x0204 && t.banks.bank1.image == none) = true ∧
    gives (.identityBarrierRelease (.entries [.ready true 9])) (head none)
      (fun t => t.mgt.cmdCode == 0x0700 && t.sent.contains (.send (.identityRelease true))) = true ∧
    gives (.identityBarrierRelease (.entries [.ready true 8])) (head none) (fun t => t.mgt.cmdCode == 0x0102) = true ∧
    gives (.identityBarrierRelease (.entries [.refusal])) (head (some 0x0204))
      (fun t => t.mgt.cmdCode == 0x0204 && t.sent.contains (.send (.identityRelease false))) = true ∧
    gives .identityBarrierTimeout (w none) (fun t => t.mgt.cmdCode == 0x0102 && t.banks.bank1.image == none) = true := by
  decide +kernel

/-! ### Records, keys and tokens: signatures are made with the private key 1, whose public key State.reset fuses -/

theorem meets_AttestFormsItsReport :
    ready.controllers.romDone = true ∧ ready.mgt.cmdState ≠ .busy ∧ ready.mgt.state = .ready ∧
    ready.mgt.arg0.toNat % 64 = 0 ∧ hostFree ready ready.mgt.arg0.toNat 768 = true ∧ ready.controllers.identity = none ∧
    gives .attest ready (fun t => t.mgt.cmdCode == 0x0700 && devRead t 256 6 == [0x41, 0x53, 0x54, 0x54, 1, 0]) = true ∧
    gives .attest { ready with mgt := { ready.mgt with arg0 := 32 } } (fun t => t.mgt.cmdCode == 0x0703) = true := by
  decide +kernel

/-- The site record of `ready` with port −x dark, alive counter 1 and its check value. -/
def amendment : Nat := 0x3000000000001010200003d01d8bf1c3845544953

def amending (r : Nat) : State :=
  { ready with hbm := { ready.hbm with dev := Mem.block 0 0 (leBytes 512 r) }, mgt := { ready.mgt with arg1 := 512 } }

set_option maxRecDepth 100000 in
theorem meets_SiteAmendTakesEffectWhole :
    let s := amending amendment
    let bad := { s with mgt := { s.mgt with arg1 := 511 } }
    s.controllers.romDone = true ∧ s.mgt.cmdState ≠ .busy ∧ s.mgt.state = .ready ∧
    amendFault s (BitVec.ofNat 4096 (devNat s 0 512)) = none ∧
    siteConnected s.site 0 = siteConnected (BitVec.ofNat 4096 amendment) 0 ∧
    siteNeighbour s.site 0 = siteNeighbour (BitVec.ofNat 4096 amendment) 0 ∧
    amendFault bad (BitVec.ofNat 4096 (devNat bad 0 512)) = some 0x0703 ∧ bad.mgt.arg1 ≠ 512 ∧
    gives .siteAmend bad (fun t => t.mgt.cmdCode == 0x0703 && t.status.counts.amendmentsRefused == 1) = true := by
  decide +kernel

/-- A token in device memory, its bytes read as a little-endian number. -/
def holding (token : Nat) (l : Lifecycle) (slot : OwnerSlot) : State :=
  { ready with
    hbm := { ready.hbm with dev := Mem.block 0 0 (leBytes 256 token) }
    fuses := { ready.fuses with lifecycle := l, slot0 := slot } }

/-- Manufactured to Provisioned, slot 0, signed by the vendor. -/
def toProvisioned : Nat :=
  0xd4eb17e9ae6819d9e5eaea26acf02ef76d152c5311827d74600909f8f172e3112d8daf9e921f9f9c99c645b9433f7b222913a8be18791664ae3e90ebdceef26000000000000000000000000000000000000000000000000000000000000000000000000000000000000000000000000f551bf376840b6cbce5e316b5733ce2b169e0f7c4aebe78e9b7f1afee242e34f96c298d84539a1f4a033eb2d817d0377f240a463e5e6bcf847422ce1f2d1176b0000000000000000000002014b4f544c
/-- Provisioned to Deployed, signed by the owner. -/
def toDeployed : Nat :=
  0x1a20e915412d971559873a02d24d3aac0177378356c1efc82a5edd53f5115cd812d8daf9e921f9f9c99c645b9433f7b222913a8be18791664ae3e90ebdceef26000000000000000000000000000000000000000000000000000000000000000000000000000000000000000000000000000000000000000000000000000000000000000000000000000000000000000000000000000000000000000000000000000000000000000000000000000000000000000000000000010003024b4f544c
/-- Deployed to Returned, slot 0, signed by the owner. -/
def toReturned : Nat :=
  0x3e30d104b3e0568e1e22f99a594ff6a371f3eb6e7305bda689e20d0b17a671e512d8daf9e921f9f9c99c645b9433f7b222913a8be18791664ae3e90ebdceef26000000000000000000000000000000000000000000000000000000000000000000000000000000000000000000000000000000000000000000000000000000000000000000000000000000000000000000000000000000000000000000000000000000000000000000000000000000000000000000000000010004034b4f544c

/-- An owner slot in use, with the public key of `Fuses.initial`. -/
def owned : OwnerSlot := ⟨Fuses.initial.romKey, 1, true, true, false⟩

theorem meets_LifecycleFollowsItsEdges_provisioned :
    let s := holding toProvisioned .manufactured OwnerSlot.empty
    s.controllers.romDone = true ∧ s.mgt.cmdState ≠ .busy ∧ s.mgt.state = .ready ∧ s.mgt.arg0.toNat + 256 ≤ devTop ∧
    tokenEdge s (BitVec.ofNat 2048 (devNat s s.mgt.arg0.toNat 256)) = some .provisioned := by decide +kernel

theorem meets_LifecycleFollowsItsEdges_deployed :
    let s := holding toDeployed .provisioned owned
    s.controllers.romDone = true ∧ s.mgt.cmdState ≠ .busy ∧ s.mgt.state = .ready ∧ s.mgt.arg0.toNat + 256 ≤ devTop ∧
    tokenEdge s (BitVec.ofNat 2048 (devNat s s.mgt.arg0.toNat 256)) = some .deployed := by decide +kernel

theorem meets_LifecycleFollowsItsEdges_returned :
    let s := holding toReturned .deployed owned
    s.controllers.romDone = true ∧ s.mgt.cmdState ≠ .busy ∧ s.mgt.state = .ready ∧ s.mgt.arg0.toNat + 256 ≤ devTop ∧
    tokenEdge s (BitVec.ofNat 2048 (devNat s s.mgt.arg0.toNat 256)) = some .returned := by decide +kernel

theorem meets_LifecycleFollowsItsEdges_refused :
    let s := holding 0 .manufactured OwnerSlot.empty
    tokenEdge s (BitVec.ofNat 2048 (devNat s s.mgt.arg0.toNat 256)) = none ∧
    gives (.lifecycle none) s (fun t => t.mgt.cmdCode == 0x0703) = true := by decide +kernel

/-! ### Jobs, resets, boot -/

/-- The core map with every core good. -/
def fullMap : List CoreEntry := coreMapOf (fun _ => true) (fun _ => false) (fun _ => (0, 0))

theorem meets_JobRingFollowsItsProducer :
    let held := { busy .held with mgt := { ready.mgt with state := .held } }
    ready.time.running = true ∧ ready.ring.armed = true ∧ ready.link.cxl = true ∧ ready.ring.faulted = false ∧ 2 ^ ready.mgt.ringSize.toNat = 16 ∧
    gives (.jobRingProducerUpdate 16) ready (fun t => t.ring.producer == 16 && !t.ring.faulted) = true ∧
    gives (.jobRingProducerUpdate 17) ready (fun t => t.ring.faulted && t.status.status == 9) = true ∧
    gives (.jobRingProducerUpdate 0) ready (fun t => t.ring.faulted) = true ∧
    gives (.jobRingProducerUpdate 17) held (fun t => t.ring.faulted && t.status.status == 9) = true ∧
    stays (.jobRingProducerUpdate 1) held = true ∧
    gives (.jobRingProducerUpdate 2) held (fun t => t.job == none && t.status.status == 4 && t.ring.consumer == 1) = true ∧
    stays (.jobRingProducerUpdate 2) { ready with ring := { ready.ring with faulted := true } } = true := by decide +kernel

def fetch (d : BitVec 2048) : JobFetchIn := ⟨d, image, List.replicate 16 0, List.replicate 16 0, List.replicate 16 (0, 0)⟩

theorem meets_JobFetchChecksItsDescriptor :
    ready.mgt.state = .ready ∧ ready.job = none ∧ ready.ring.armed = true ∧ ready.ring.faulted = false ∧
    ready.selfTest.sweepHeld = false ∧ ready.ring.consumer.toNat < ready.ring.producer.toNat ∧
    (let refusal (d : BitVec 2048) (s : State) (code : Option U16) : Bool :=
      gives (.jobFetch (fetch d)) s fun t => (t.job.map Job.refusal) == some code && t.status.committed == 4
     refusal desc ready none = true ∧
     refusal (setBit desc 838 true) ready (some 5) = true ∧
     refusal (setBit desc 863 true) ready (some 5) = true ∧
     refusal desc { ready with fuses := { ready.fuses with lifecycle := .provisioned } } (some 6) = true ∧
     refusal (setField desc 191 128 4) ready (some 6) = true ∧
     refusal (setField desc 191 128 (2 ^ 63)) ready (some 0x0307) = true ∧
     refusal (setField desc 191 128 (2 ^ 63 - 1)) ready none = true) ∧
    gives (.jobFetch (fetch desc)) { ready with ring := { ready.ring with faulted := true } }
      (fun t => t.status.status == 9) = true := by decide +kernel

theorem meets_JobStartBarrierDecides :
    let s := { busy .barrier with hbm := { ready.hbm with coreMap := fullMap } }
    let j := job .barrier
    let mine := fieldsDigest desc
    let refused (u : State) (others : List StartEntry) (code : U16) : Bool :=
      gives (.jobStartBarrier others) u fun t => t.status.status == code && t.job == none && t.mgt.state == .ready
    let b : BatchDecl := ⟨0x10000, 64, [], 0x20000⟩
    let sb := { s with job := some { j with image := { image with batch := some b } } }
    s.job = some j ∧ j.phase = .barrier ∧ j.image.cache = none ∧ j.image.batch = none ∧ 1 + 1 = siteExtX s.site * siteExtY s.site * siteExtZ s.site ∧
    j.refusal = none ∧ allServed s = true ∧
    refused { s with job := some { j with refusal := some 6 } } [.ready 0 mine] 6 = true ∧
    refused s [.refusal] 7 = true ∧ refused s [.ready 1 mine] 0x0102 = true ∧ refused s [.ready 0 (mine + 1)] 7 = true ∧
    gives (.jobStartBarrier [.ready 0 mine]) s
      (fun t => (t.job.map Job.phase) == some .settling && t.hbm.commitWord == 4 && bitAt t.mgt.intStatus 0) = true ∧
    gives (.jobStartBarrier [.ready 0 mine]) sb (fun t => t.link.deviceBias == [⟨0, 0⟩]) = true := by
  decide +kernel

/-- A replaying job, in a step of a machine of two rinks. -/
def replaying : State :=
  { busy .inStep with
    job := some { job .inStep with desc := setBit desc 834 true, image := { image with admissionTables := [⟨0x1000, 64⟩] } }
    site := site 1 1 1 2 0 0 0
    coll := { Coll.reset with active := 3 }
    gatehouse := { Gatehouse.reset with chans := updNth (fun c => { c with cfg := BitVec.ofNat 1024 (2 ^ 304) }) Gatehouse.reset.chans 0 } }

theorem meets_WatchedLinesAreTaken :
    let s := replaying
    let entry (step active included : Nat) : BitVec 128 := BitVec.ofNat 128 (step + active * 2 ^ 64 + included * 2 ^ 96)
    let b := { s with job := some { job .barrier with
      channels := [BitVec.ofNat 1024 (2 ^ 304)], rings := [BitVec.ofNat 256 (4 * 2 ^ 128)], ringCounts := [(1, 1)] } }
    (b.job.map Job.phase) = some .barrier ∧
    (b.job.map fun j => chanOn (pendingChan j 0) && !producerBad (pendingChan j 0) 17) = some true ∧
    gives (.sampleRingProducerUpdate 0 17) b
      (fun t => (t.job.map fun j => j.ringCounts.take 1) == some [(17, 1)] && t.mgt == b.mgt) = true ∧
    s.coll.hostEntries = [] ∧ s.coll.hostCount = 0 ∧
    (s.job.map Job.phase) = some .inStep ∧ chanOn (getChan s 0) = true ∧ (getChan s 0).ringLog = 4 ∧
    gives (.sampleRingProducerUpdate 0 16) s (fun t => (getChan t 0).producer == 16) = true ∧
    gives (.sampleRingProducerUpdate 0 17) s (fun t => t.job == none && t.status.status == 0x0602) = true ∧
    (s.job.map fun j => Desc.replayMode j.desc) = some true ∧ s.coll.included = none ∧ s.msu.runs = [] ∧
    gives (.manifestHostCountUpdate 0 [entry 5 3 1]) s (fun t => t.coll.included == none && t.coll.hostCount == 0) = true ∧
    gives (.manifestHostCountUpdate 1 [entry 6 3 1]) s (fun t => t.status.status == 0x0405 && t.job == none) = true ∧
    manifestBad s (entry 5 3 1) = false ∧
    gives (.manifestHostCountUpdate 1 [entry 5 3 1]) s (fun t => t.coll.included == some 1 && t.status.included == 1) = true ∧
    (s.job.bind fun j => j.image.admissionTables[0]?) = some ⟨0x1000, 64⟩ ∧
    gives (.admissionHeaderUpdate 0 3 0x40) s (fun t => devNat t 0x1000 4 == 3 && devNat t 0x1010 8 == 0x40) = true := by
  decide +kernel

theorem meets_HostReachesDeviceMemory :
    let s := { busy .inStep with job := some { job .inStep with image := { image with stateRanges := [⟨0x20, 2⟩] } } }
    let faults (i : Instr) : Bool := match exec i s with
      | .fault _ => true
      | _ => false
    s.link.trained = true ∧ s.link.cxl = true ∧ s.hbm.serving = true ∧
    0xBF_FFFF_FFFE + 2 ≤ devTop ∧ 0xBF_FFFF_FFFE + 2 ≤ s.link.decoder ∧
    inRanges (jobOwned s { job .inStep with image := { image with stateRanges := [⟨0x20, 2⟩] } }) 0x21 = true ∧
    gives (.cxlMemWrite 0x1F [1, 2, 3, 4]) s (fun t => devRead t 0x1F 4 == [1, 0, 0, 4] &&
      t.status.counts.writesDiscarded == 1 && (SMap.get Event.none t.status.events 0).code == 0x0606) = true ∧
    gives (.cxlMemWrite 0xBF_FFFF_FFFE [5, 6]) s (fun t => devRead t 0xBF_FFFF_FFFE 2 == [5, 6] && t.status.eventCount == 0) = true ∧
    faults (.cxlMemWrite 0xBF_FFFF_FFFF [5, 6]) = true ∧ faults (.cxlMemRead 0xC0_0000_0000 1) = true ∧
    readSpecified s 0x1F = true ∧ SMap.get false s.hbm.poison 0 = false ∧
    gives (.cxlMemRead 0x1F 1) { s with hbm := { s.hbm with dev := [(0x1F, 9)] } } (fun t => t.link.readData == [9]) = true := by
  decide +kernel

theorem meets_LinkTrainingAndTelemetry :
    ready.time.running = true ∧ ready.link.perstLow = false ∧ ready.controllers.romDone = true ∧ ready.link.trained = true ∧ ready.link.cxl = true ∧
    gives (.cxlLinkTrained false .x8 .gt16) ready (fun t => t.mgt.state == .linkPcie && t.link.width == .x8) = true ∧
    gives (.telemetryRefresh 0x100 0x200 900 1200) ready (fun t => t.mgt.temp == 0x02000100 && t.mgt.power == 0x04B00384) =
      true ∧
    gives (.statusRecordTelemetry ⟨1, 2, 3, 4, []⟩) ready (fun t => t.status.telemetry.stack == 2 && t.status.updateSeq == 2) =
      true := by decide +kernel

theorem meets_PowerDownKeepsFusesAndFlash :
    let s := { ready with power := { ready.power with tripped := true } }
    s.power.tripped = true ∧
    gives .thermalTripCooled s (fun t => t.power == Power.reset && t.fuses == s.fuses && t.hbm == Hbm.reset) = true ∧
    gives .inputLockout ready (fun t => t.power.locked && t.cores == Cores.reset) = true := by decide +kernel

theorem meets_WarmResetKeepsHbm :
    let s := { busy .inStep with hbm := { ready.hbm with dev := [(7, 7)], commitWord := 4 } }
    let early := { ready with power := { ready.power with phase := .hbm }, hbm := { ready.hbm with dev := [(7, 7)] } }
    s.controllers.romDone = true ∧ s.link.perstReleased = true ∧ s.hbm.saves = [] ∧ s.sideband.pwrgd = true ∧
    transitionOpen s.fuses = false ∧ powerOnRuns s = false ∧ early.power.phase ≠ .ready ∧ early.power.warm = false ∧
    gives .warmReset early (fun t => t.power.phase == .input && t.hbm == Hbm.reset && t.sideband.pwrgd && t.link.perstReleased) = true ∧
    gives .perstAssert early (fun t => t.power.phase == .input && t.hbm == Hbm.reset && t.link.perstLow) = true ∧
    gives .warmReset { s with fuses := setSlot 0 (fun o => { o with valid := true, touched := true }) s.fuses }
      (fun t => t.fuses.lifecycle == .provisioned && t.hbm.commitWord == 4 && t.sent == [.send .lostNotice]) = true ∧
    gives .warmReset s (fun t => t.hbm.dev == [(7, 7)] && t.hbm.commitWord == 4 && t.job == none && t.hbm.selfRefresh) = true ∧
    gives .perstAssert s (fun t => t.link.perstLow && t.mgt == Mgt.reset) = true ∧
    gives .perstAssert { s with link := { s.link with perstReleased := false } } (fun t => t.link.perstLow && t.job == s.job) =
      true := by decide +kernel

theorem meets_RinkResetKeepsTheJob :
    let s := { busy .inStep with recovery := { Recovery.reset with abortPending := true, resume := true } }
    let held := { s with job := some { job .inStep with image := { image with heldWritten := [⟨0, 1⟩] } } }
    s.controllers.romDone = true ∧ s.mgt.state ≠ .boot ∧ s.mgt.state ≠ .recovery ∧ s.hbm.saves = [] ∧
    s.mgt.cmdState ≠ .busy ∧ 0 < s.fabric.ports.length ∧
    gives .rinkResetFlood s (fun t => t.recovery.resume && t.job == s.job && t.mgt == s.mgt) = true ∧
    gives .rinkResetFlood { s with mgt := { s.mgt with cmdState := .busy, cmd := 6 } } (fun t => mgtCmdStatus t.mgt == 0) = true ∧
    s.recovery.abortPending = true ∧ gives .stepAbortUnanswered s (fun t => t.sent == [.send .rinkReset]) = true ∧
    s.recovery.resume = true ∧ (job .inStep).replays = 0 ∧
    gives .jobResumeAfterRinkReset held (fun t => t.status.status == 0x0502 && t.mgt.state == .halted) = true ∧
    gives .jobResumeAfterRinkReset s (fun t => (t.job.map Job.replays) == some 1 && !t.recovery.resume) = true := by
  decide +kernel

theorem meets_BootPhasesInOrder :
    let at_ (p : BootPhase) : State := { State.reset with
      power := { Power.reset with phase := p }
      controllers := { State.reset.controllers with romDone := true } }
    let rom := at_ .rom
    State.reset.power.phase = .off ∧ State.reset.power.locked = false ∧ State.reset.power.tripped = false ∧
    gives .powerGood State.reset (fun t => t.power.phase == .input && t.sideband.pwrgd) = true ∧
    (at_ .input).fuses.lifecycle = .manufactured ∧ activeSlot (at_ .input).fuses = none ∧
    gives .bootRom (at_ .input) (fun t => t.power.phase == .rom && t.controllers.romDone) = true ∧
    rom.mgt.state ≠ .recovery ∧ rom.power.warm = false ∧ keyDigest rom.fuses.romKey = rom.fuses.vendorRootHash ∧
    rom.time.running = true ∧ chooseCopy rom.flash = none ∧
    gives .flashSelect rom (fun t => t.mgt.state == .recovery && hashedGib t == 64) = true ∧
    gives .railsUp (at_ .flash) (fun t => t.power.phase == .rails && t.power.volts == startVolts) = true ∧
    (at_ .rails).power.warm = false ∧
    gives (.bootSelfTest [0, 143]) (at_ .rails) (fun t => (entryOf t 0).state == .failed && (entryOf t 1).logical == 0 &&
      allServed t) = true ∧
    gives (.hbmInit [] []) (at_ .selfTest) (fun t => t.power.phase == .hbm && t.hbm.serving) = true ∧
    gives (.hbmInit [] []) { at_ .selfTest with
      power := { Power.reset with phase := .selfTest, warm := true }
      hbm := { Hbm.reset with dev := [(3, 3)] } } (fun t => t.hbm.dev == [(3, 3)]) = true ∧
    gives .runtimeLoad { at_ .hbm with site := site 0 2 1 1 0 0 0 } (fun t => (getPort t 5).phase == .laser) = true ∧
    gives .runtimeLoad (at_ .hbm) (fun t => (getPort t 0).phase == .dark) = true := by decide +kernel

def peer (c : Coord) (reachable : Bool) : PeerSite := ⟨0, ⟨2, 1, 1⟩, 3, 0, c, reachable, true⟩

theorem meets_RinkFormationReachesReady :
    let s := { ready with power := { ready.power with phase := .load }, mgt := Mgt.reset
                          fabric := ⟨List.replicate 6 { Port.reset with phase := .up }, []⟩ }
    let retry := { s with mgt := { s.mgt with bootStatus := 0x0401 } }
    let f (p : PeerSite) (late : Bool) : FormationIn := ⟨[p], [], 77, late, false⟩
    let behind := { retry with fabric := ⟨List.replicate 6 { Port.reset with phase := .down }, []⟩ }
    s.power.phase = .load ∧ s.mgt.state = .boot ∧ opticalEnded s = true ∧ s.time.running = true ∧
    rootOrder (f (peer ⟨1, 0, 0⟩ true) false) s = [⟨0, 0, 0⟩, ⟨1, 0, 0⟩] ∧
    rootOrder (f (peer ⟨1, 0, 0⟩ true) false) behind = [⟨1, 0, 0⟩] ∧ opticalEnded behind = true ∧
    shapeOk s.site = true ∧ peerAgrees s.site (peer ⟨1, 0, 0⟩ true) = true ∧ s.rinkSize = 2 ∧
    gives (.rinkFormation (f (peer ⟨1, 0, 0⟩ true) false)) s (fun t => t.mgt.state == .ready && t.time.root) = true ∧
    gives (.rinkFormationRetry .portUp (f (peer ⟨1, 0, 0⟩ true) false)) behind
      (fun t => t.mgt.state == .ready && t.time.value == 77 && !t.time.root) = true ∧
    gives (.rinkFormation (f (peer ⟨0, 0, 0⟩ true) false)) s (fun t => t.mgt.bootStatus == 0x0404) = true ∧
    gives (.rinkFormation (f (peer ⟨1, 0, 0⟩ false) true)) s (fun t => t.mgt.bootStatus == 0x0401) = true := by
  decide +kernel

theorem meets_PowerManagerMovesCeilings :
    let cap1000 := { ready with config := BitVec.ofNat 512 (1000 * 2 ^ 128) }
    let floor := { cap1000 with power := { ready.power with volts := List.replicate 24 550, share := 3, capHold := true } }
    let d : Fin 16 := 2
    let dom : Domain := 22
    cfgCapW cap1000.config < 1001 ∧ allAtFloor cap1000.power = false ∧
    gives (.capRuleEval 1001 false false) cap1000 (fun t => t.power.cap == List.replicate 16 840) = true ∧
    allAtFloor floor.power = true ∧
    gives (.capRuleEval 1001 false false) floor (fun t => t.power.share == 4 && bitAt t.mgt.intStatus 7) = true ∧
    cap1000.power.capHold = false ∧ floor.power.thermalHold = false ∧
    gives (.capRuleEval 1000 true false) { cap1000 with power := { ready.power with cap := List.replicate 16 845 } }
      (fun t => t.power.cap == List.replicate 16 850) = true ∧
    gives (.capRuleEval 1000 true false) floor (fun t => t.power.share == 2) = true ∧
    gives (.capRuleEval 1000 true false) { cap1000 with power := { ready.power with thermalHold := true, share := 1 } }
      (fun t => t.power.cap == ready.power.cap && t.power.share == 1) = true ∧
    gives .overcurrent ready (fun t => t.power.cap == List.replicate 16 840 && t.power.share == 1) = true ∧
    stays (.capRuleEval 1000 false false) cap1000 = true ∧
    ready.power.share = 0 ∧ stays .waveWithholdPeriod ready = true ∧
    gives .waveWithholdPeriod floor (fun t => bitAt t.mgt.intStatus 7) = true ∧
    gives (.paceDomainEval d 201) ready (fun t => nthD 0 t.power.pace 2 == 840 && nthD 0 t.power.pace 3 == 850) = true ∧
    stays (.paceDomainEval d 200) ready = true ∧
    gives (.thermalCeilingEval [1600, 1599, 1552] [1520, 1488]) ready (fun t => t.power.thermal.take 3 == [840, 850, 850] &&
      t.power.stackRate.take 3 == [4, 2, 1] && bitAt t.mgt.intStatus 6) = true ∧
    ready.power.rails = true ∧ adjustable dom.val = true ∧
    gives (.domainVoltageStep dom) ready (fun t => nthD 0 t.power.volts 22 == 700) = true ∧
    gives (.inputOutOfRange 3800) ready (fun t => t.power.inRange) = true ∧
    gives (.inputOutOfRange 4601) ready (fun t => !t.power.inRange && bitAt t.mgt.intStatus 7) = true := by decide +kernel

/-- Port 0 up, port 1 dark. -/
def lit : State :=
  { ready with fabric := { ready.fabric with ports := updNth (fun q => { q with phase := .up }) ready.fabric.ports 0 } }

theorem meets_AnalogueChecksReport :
    stays (.regulatorCheck [300, -300]) ready = true ∧
    gives (.regulatorCheck [-301]) ready (fun t => bitAt t.mgt.intStatus 7) = true ∧
    gives (.tempSensorCheck [80, -81]) ready (fun t => t.power.sensorSwapped.take 3 == [false, true, false] &&
      bitAt t.mgt.intStatus 6) = true ∧
    stays (.inputMonitorCheck 4242 4200) ready = true ∧
    gives (.inputMonitorCheck 4243 4200) ready (fun t => bitAt t.mgt.intStatus 7) = true ∧
    (getPort lit 0).phase = .up ∧ (nthD Fibre.fresh (getPort lit 0).txFibres 3).lanes.findIdx? (· == 6) = some 6 ∧
    gives (.laserMonitorCheck [⟨0, 3, 6⟩]) lit (fun t => t.sent == [.linkWord 0 (.laserLow 3 6)]) = true := by decide +kernel

/-- A job with one STATE page (page 0), one STEP page (page 1) and one HELD page (page 2), in a step. -/
def paged : State :=
  { busy .inStep with
    job := some { job .inStep with image := { image with
      stateRanges := [⟨0, 65536⟩], stepRanges := [⟨65536, 65536⟩], heldWritten := [⟨131072, 65536⟩] } } }

theorem meets_HbmErrorsAreHandledByClass :
    let one : WordErrors := ⟨1⟩
    let two : WordErrors := ⟨2⟩
    SMap.wf false ready.hbm.fastRefresh = true ∧
    gives (.hbmRefresh 3 0 1361) ready (fun t => SMap.get false t.hbm.fastRefresh 3) = true ∧
    gives (.hbmRefresh 3 0 1360) ready (fun t => !SMap.get false t.hbm.fastRefresh 3) = true ∧
    SMap.wf 0 paged.status.hbmCe = true ∧ paged.job ≠ none ∧ stays (.hbmScrub 3 8 one) ready = true ∧
    gives (.hbmScrub 3 8 one) paged (fun t => SMap.get 0 t.status.hbmCe 3 == 1) = true ∧
    gives (.hbmReadReturn 65536 0 two false true none) ready (fun t => t.status.eventCount == 1) = true ∧
    (byteAddress ready 3 (32 * 8)).isSome = true ∧
    gives (.hbmScrub 3 8 two) ready (fun t => t.hbm.poison.length == 1) = true ∧
    stays (.hbmReadReturn 0 0 two true false none) paged = true ∧
    protClass paged 65536 = .step ∧ protClass paged 0 = .state ∧ protClass paged 131072 = .held ∧
    gives (.hbmReadReturn 65536 0 two false false none) paged (fun t => (t.job.map Job.phase) == some .aborted) = true ∧
    SMap.wf 0 paged.hbm.stamps = true ∧
    stampStep (SMap.get 0 paged.hbm.stamps 0) ≠ paged.status.step.toNat ∧ paged.msu.runs = [] ∧
    gives (.hbmReadReturn 65536 0 two false false none) { paged with job := paged.job.map fun j => { j with phase := .dumping } }
      (fun t => (t.job.map Job.phase) == some .aborted) = true ∧
    gives (.hbmReadReturn 131072 0 two false false none) paged (fun t => t.status.status == 0x0302) = true := by decide +kernel

/-- A whole page of one byte value, for the statements that take pages. -/
def page (i : Nat) (stamp : U64) (b : Byte) : PageIn := ⟨i, stamp, List.replicate 65536 b⟩

theorem meets_page_length (i : Nat) (stamp : U64) (b : Byte) : (page i stamp b).bytes.length = 65536 :=
  List.length_replicate

/-! ### The fabric -/

theorem meets_TimebaseNeverRunsBack :
    let s := { lit with
      site := site 0 2 1 1 1 0 0
      time := { lit.time with value := 20000, slewAt := 10000, order := [⟨0, 0, 0⟩, ⟨1, 0, 0⟩] }
      fabric := ⟨lit.fabric.ports.map fun p => { p with delayNs := 7 }, []⟩ }
    let ctx : OpCtx := ⟨3, 1, none, [], false⟩
    let branch := { busy .inStep with cores := { Cores.reset with ctl := [(3, { CoreCtl.fresh with branches := [1] })] } }
    (getPort s 0).phase = .up ∧ s.time.set = true ∧ s.time.root = false ∧ nearerRoot s 0 = true ∧
    s.time.slewAt.toNat + 10000 ≤ s.time.value.toNat ∧
    gives (.beatReceive 0 20043 0) s (fun t => t.time.value == 20001 && t.time.slewAt == 20000) = true ∧
    gives (.beatReceive 0 19000 0) s (fun t => t.time.value == 20000 && t.time.skip) = true ∧
    stays (.beatReceive 0 20043 0) { s with time := { s.time with slewAt := 10001 } } = true ∧
    gives (.timebaseUnsync 21 1001) s (fun t => t.status.unsync && bitAt t.mgt.intStatus 8) = true ∧
    stays (.timebaseUnsync 20 1001) s = true ∧ stays (.timebaseUnsync 21 1000) s = true ∧
    gives (.timeRootTakeover ⟨0, 0, 0⟩ []) s (fun t => t.time.root && t.time.value == 20000) = true ∧
    s.mgt.state = .ready ∧
    gives .referenceClockLoss s (fun t => t.mgt.state == .boot && (getPort t 0).phase == .down) = true ∧
    inStep (busy .inStep) = true ∧ spanWhere (storePlace ctx.core) (busy .inStep) ⟨.scratch 3, 0x9FFFF8⟩ 8 = none ∧
    branchOpen (busy .inStep) 3 = false ∧ branchOpen branch 3 = true ∧
    gives (.timeRead ctx ⟨.scratch 3, 0⟩) branch (fun t => t.stalled == [.timeRead ctx ⟨.scratch 3, 0⟩]) = true ∧
    gives (.timeRead ctx ⟨.scratch 3, 0x9FFFF8⟩) (busy .inStep)
      (fun t => locRead t ⟨.scratch 3, 0x9FFFF8⟩ 0 8 == leBytes 8 1000) = true := by decide +kernel

/-- Port 0 up with one lane in use, expecting port frame 1, with port frames 7 to 9 in its window. -/
def thin : State :=
  { lit with fabric := { lit.fabric with ports := updNth (fun q => { q with
      fibres := ⟨false, [4], some 8⟩ :: List.replicate 15 ⟨true, [], none⟩
      rxNext := 1
      window := [⟨7, []⟩, ⟨8, []⟩, ⟨9, []⟩] }) lit.fabric.ports 0 } }

/-- The codeword of lane 0 of a port frame whose data is zero, with an ack. -/
def laneZero (fseq : Nat) (ack : U16) : BitVec 5140 := codeword 0 fseq 0 .idle ack

/-- It arrives on its wavelength with some bits flipped on the way. -/
def onWave (w : BitVec 5140) (flips : Nat) : Sys2Proof.Codeword := ⟨0, 4, rsEncode w ^^^ BitVec.ofNat 5440 flips⟩

set_option maxRecDepth 100000 in
theorem meets_PortFramesArriveInOrder :
    let q := getPort thin 0
    let good := laneZero 1 7
    let old := laneZero 0 7
    let nine := updNth (fun q => { q with rejects := List.replicate 9 (0, 1000) }) thin.fabric.ports 0
    let full := { thin with fabric := { thin.fabric with ports := nine } }
    q.phase = .up ∧ (∀ l ∈ q.queues, l = []) ∧ frameLanes q [onWave good 0] = [(0, some good)] ∧
    frameLanes q [onWave good (2 ^ 400 - 1)] = [(0, none)] ∧
    cwSync good = 0x3A9F60C5 ∧ cwLane good = 0 ∧ cwType good = 0 ∧ cwFseq good = q.rxNext.toNat ∧ cwFseq old ≠ q.rxNext.toNat ∧
    gives (.portFrameReceive 0 [onWave good 0]) thin (fun t => (getPort t 0).rxNext == 2 &&
      (getPort t 0).window.map Frame.fseq == [8, 9] && t.sent == []) = true ∧
    stays (.portFrameReceive 0 [onWave old 0]) thin = true ∧
    gives (.portFrameReceive 0 [onWave good (2 ^ 400 - 1)]) thin (fun t => (getPort t 0).rxDiscard &&
      (getPort t 0).rejects == [(0, 1000)] && t.sent == [.linkWord 0 (.nack 1)]) = true ∧
    gives (.portFrameReceive 0 [onWave (good ^^^ 1 <<< 400) 0]) full (fun t =>
      t.sent == [.linkWord 0 (.nack 1), .linkWord 0 (.swap 0 0 false)]) = true ∧
    q.window = [⟨7, []⟩] ++ ⟨8, []⟩ :: [⟨9, []⟩] ∧
    gives (.nack 0 8) thin (fun t => t.sent == [.frames 0 [⟨8, []⟩, ⟨9, []⟩]]) = true ∧ stays (.nack 0 6) thin = true ∧
    q.credits[0]? = some (64, 64, 0x40000 / 64 - 128) ∧
    gives (.credit 0 [⟨.recovery, false, 5⟩]) thin (fun t => (getPort t 0).credits[0]? == some (64, 64, 0x40000 / 64 - 123)) =
      true := by decide +kernel

set_option maxRecDepth 100000 in
/-- R267, R269. A wrong symbol is corrected. -/
theorem test_fec_corrects :
    rsDecode (onWave (laneZero 1 7) (0x2F1 <<< 4020)).line = some (laneZero 1 7) := by decide +kernel

/-- The generator's roots are the powers 0 to 29 of the root of the field polynomial. -/
theorem test_rs_generator :
    (upFrom 0 30).foldl (fun g j => gfTimes g [gfRoot j, 1]) [1] = rsGenerator.reverse ++ [1] := by decide +kernel

set_option maxRecDepth 100000 in
/-- R267. A codeword that leaves a port is the one that the far end reads. -/
theorem test_codeword_is_read :
    let w := codeword 0xABC 7 3 (.nack 5) 9
    cwData w = 0xABC ∧ cwFseq w = 7 ∧ cwLane w = 3 ∧ cwType w = 2 ∧ cwLink w = 5 ∧ cwAck w = 9 := by decide +kernel

/-- Module (0, 0, 0) of a 4 × 2 × 1 rink, port 0 (+x) up. -/
def torus : State := { lit with site := site 0 4 2 1 0 0 0 }

theorem meets_PacketsTakeTheirRoute :
    let b : List Byte := [0xAA]
    let p (dest : Coord) (cls : TrafficClass) (use : PacketUse) : Packet := ⟨cls, ⟨0, 0, 0⟩, dest, .plus, .plus, .plus, false, use, b⟩
    let held := { torus with job := (busy .inStep).job, fabric := { torus.fabric with down := [⟨0, ⟨0, 0, 0⟩⟩, ⟨0, ⟨3, 0, 0⟩⟩] } }
    let bare := updNth (fun q => { q with credits := List.replicate 4 (0, 64, 0) }) torus.fabric.ports 0
    let poor := { torus with fabric := { torus.fabric with ports := bare } }
    let q := getPort torus 0
    packetOk torus ⟨4, 0, 0⟩ b = false ∧ refusedBy (.packetInject .control ⟨4, 0, 0⟩ ⟨.plain, b⟩) torus 268 = true ∧
    packetOk torus ⟨2, 1, 0⟩ b = true ∧ linkIsDown torus ⟨0, ⟨0, 0, 0⟩⟩ = false ∧
    route torus ⟨2, 1, 0⟩ = some (.plus, .plus, .plus) ∧
    nextPort torus.coord (p ⟨2, 1, 0⟩ .control .plain) = some 0 ∧ q.phase = .up ∧ q.window.length < 41 ∧
    q.queues = List.replicate 8 [] ∧ 1 ≤ inUse q.txFibres ∧
    takeCredit false (blocksOf b) (nthD (0, 0, 0) q.credits 1) = some (63, 64, 0x40000 / 64 - 128) ∧
    gives (.packetInject .control ⟨2, 1, 0⟩ ⟨.plain, b⟩) torus (fun t =>
      t.sent == [.frames 0 [⟨0, [⟨p ⟨2, 1, 0⟩ .control .plain, 0⟩]⟩]] && (getPort t 0).txNext == 1) = true ∧
    takeCredit false 1 (nthD (0, 0, 0) (getPort poor 0).credits 1) = none ∧
    gives (.packetInject .control ⟨2, 1, 0⟩ ⟨.plain, b⟩) poor (fun t => t.sent == [] &&
      nthD [] (getPort t 0).queues 2 == [⟨p ⟨2, 1, 0⟩ .control .plain, 0, none⟩]) = true ∧
    route held ⟨2, 1, 0⟩ = none ∧
    gives (.packetInject .control ⟨2, 1, 0⟩ ⟨.plain, b⟩) held (fun t => t.status.status == 0x0401 && t.mgt.state == .halted) = true ∧
    gives (.packetDeliver 1 (p ⟨0, 0, 0⟩ .control .plain)) torus (fun t => t.sent.length == 2) = true ∧
    gives (.packetDeliver 1 (p ⟨0, 0, 0⟩ .offload (.park 0x1000))) torus (fun t => t.sent.length == 2 &&
      devRead t 0xFFF 3 == [0, 0xAA, 0]) = true ∧
    nextPort torus.coord (p ⟨0, 1, 0⟩ .control .plain) = some 2 ∧ (getPort torus 2).phase ≠ .up ∧
    gives (.packetForward 1 (p ⟨0, 1, 0⟩ .control .plain)) torus (fun t => t.sent.length == 1) = true ∧
    crossedDateline torus 1 = true ∧
    gives (.packetForward 1 (p ⟨2, 0, 0⟩ .control .plain)) torus (fun t =>
      t.sent == [.frames 0 [⟨0, [⟨{ p ⟨2, 0, 0⟩ .control .plain with vc1 := true }, 0⟩]⟩], .linkWord 1 (.credit [⟨.control, false, 1⟩])]) =
      true := by decide +kernel

theorem meets_PortsBeatAndGoDown :
    let s := { busy .inStep with fabric := lit.fabric }
    let p : Packet := ⟨.collective, ⟨0, 0, 0⟩, ⟨1, 0, 0⟩, .plus, .plus, .plus, false, .plain, [1]⟩
    let full := { s with fabric := { s.fabric with ports := updNth (fun q => { q with window := [⟨0, [⟨p, 0⟩]⟩] }) s.fabric.ports 0 } }
    (getPort s 0).phase = .up ∧ (getPort s 0).holdsStep = false ∧ (getPort full 0).holdsStep = true ∧
    gives (.beat 0) s (fun t => t.sent == [.linkWord 0 (.beat 0 1 1000)] && (getPort t 0).beats == 1) = true ∧
    gives (.portDownTimeout 0 false) s (fun t => (getPort t 0).phase == .down && t.fabric.down == [⟨0, ⟨0, 0, 0⟩⟩] &&
      t.job == s.job && t.status.counts.portsDown == 1) = true ∧
    gives (.portDownTimeout 0 true) s (fun t => (t.job.map Job.phase) == some .aborted) = true ∧
    gives (.portDownTimeout 0 false) full (fun t => (t.job.map Job.phase) == some .aborted && (getPort t 0).window == []) = true ∧
    gives (.downNotice ⟨1, ⟨1, 0, 0⟩⟩) s (fun t => t.fabric.down == [⟨1, ⟨1, 0, 0⟩⟩]) = true ∧
    gives (.downNoticeWithdrawn ⟨1, ⟨1, 0, 0⟩⟩) { s with fabric := { s.fabric with down := [⟨1, ⟨1, 0, 0⟩⟩] } }
      (fun t => t.fabric.down == []) = true := by decide +kernel

theorem meets_SpareWavelengthsServeOnce :
    let with_ (fs : List Fibre) (sw : List SwapRun) (mi : List MirrorRun) : State := { lit with
      fabric := { lit.fabric with ports := updNth (fun q => { q with
        fibres := fs, txFibres := fs, swaps := sw, mirrors := mi, rxNext := 64, txNext := 64 }) lit.fabric.ports 0 } }
    let fresh := List.replicate 16 Fibre.fresh
    let used := updNth (fun f => { f with spare := none }) fresh 2
    let asked := with_ fresh [⟨2, 5, false, some 64⟩] [⟨2, 5, 64, false⟩]
    let early := with_ fresh [⟨2, 5, false, some 65⟩] [⟨2, 5, 65, false⟩]
    let tuned := with_ fresh [⟨2, 5, true, some 64⟩] [⟨2, 5, 64, true⟩]
    let moved : Fibre := ⟨false, [0, 1, 2, 3, 4, 8, 6, 7], none⟩
    laneHome fresh 21 = some (2, 5) ∧ laneHome fresh 127 = some (15, 7) ∧ swapOn (getPort lit 0) 2 = none ∧
    gives (.swapCondition 0 21 .laserPower) (with_ fresh [] [])
      (fun t => swapOn (getPort t 0) 2 == some ⟨2, 5, false, none⟩ && t.sent == [.linkWord 0 (.swap 2 5 false)]) = true ∧
    gives (.swapCondition 0 21 .laserPower) (with_ used [] []) (fun t => t.status.counts.fibresRetired == 1) = true ∧
    gives (.swapCondition 0 0 .errorRatio) (with_ (({ Fibre.fresh with spare := none }) ::
        (List.replicate 7 Fibre.fresh ++ List.replicate 8 ⟨true, [], none⟩)) [] []) (fun t => (getPort t 0).phase == .down) = true ∧
    gives (.swap 0 2 7 .failing) lit (fun t => t.sent == [.linkWord 0 (.swapAt 2 7 64)] &&
      (getPort t 0).mirrors == [⟨2, 7, 64, false⟩]) = true ∧
    stays (.swap 0 2 7 .calibration) (with_ used [] []) = true ∧ mirrorsOther (getPort lit 0) 2 7 = false ∧
    gives (.swap 0 2 0 (.retire 3)) lit (fun t => inUse (getPort t 0).txFibres == 15 && (getPort t 0).phase == .up) = true ∧
    gives (.swap 0 2 5 (.named 70)) (with_ fresh [⟨2, 5, false, none⟩] [])
      (fun t => swapOn (getPort t 0) 2 == some ⟨2, 5, false, some 70⟩) = true ∧
    swapOn (getPort asked 0) 2 = some ⟨2, 5, false, some 64⟩ ∧ (nthD Fibre.fresh (getPort asked 0).fibres 2).spare = some 8 ∧
    reached (getPort asked 0).rxNext 64 = true ∧ reached (getPort early 0).rxNext 65 = false ∧
    gives (.swapSwitch 0 ⟨2, false⟩) asked (fun t => (nthD Fibre.fresh (getPort t 0).fibres 2) == moved &&
      (nthD Fibre.fresh (getPort t 0).txFibres 2) == Fibre.fresh && t.status.counts.swaps == 1) = true ∧
    gives (.swapSwitch 0 ⟨2, false⟩) tuned (fun t => (nthD Fibre.fresh (getPort t 0).fibres 2).spare == some 5 && t.sent == []) = true ∧
    stays (.swapSwitch 0 ⟨2, false⟩) early = true ∧
    gives (.swapSwitch 0 ⟨2, true⟩) asked (fun t => (nthD Fibre.fresh (getPort t 0).txFibres 2) == moved &&
      (nthD Fibre.fresh (getPort t 0).fibres 2) == Fibre.fresh) = true ∧
    gives (.swapSwitch 0 ⟨2, true⟩) tuned (fun t => (nthD Fibre.fresh (getPort t 0).txFibres 2).spare == some 5) = true ∧
    stays (.swapSwitch 0 ⟨2, true⟩) early = true ∧
    (getPort lit 0).phase = .up ∧ (getPort lit 0).calibrating = none ∧
    gives (.calibration 0 2 5) lit (fun t => (getPort t 0).calibrating == some 2) = true ∧
    stays (.calibration 0 2 5) (with_ used [] []) = true := by decide +kernel

/-- The fragments that a peer at a port sends: its nonce 0, the model's key, the port, and a signature. -/
def told (peer : Nat) (sig : Nat) : SMap (BitVec 120) :=
  (fragments 0 (identMessage 0 Fuses.initial.romKey peer) ++ fragments 6 (beBytes 64 sig)).filterMap fun w =>
    match w with
    | .ident i part => some (i, part)
    | _ => none

theorem meets_BringUpVerifiesTheNeighbour :
    let key := Fuses.initial.romKey
    let sig := 0x26efcebd0ee9e34a669187e18b3a9122b2f733945b649cc9f9f921e9f9dad812a86f7dad092d5fb6a32c129aa3393eb9bf3e04840e863a36e31a11c616329024
    let p (q : Port) : State := { ready with
      site := BitVec.ofNat 4096 (ready.site.toNat + fieldOfDigest (keyDigest key) * 2 ^ 512)
      fabric := { ready.fabric with ports := updNth (fun _ => q) ready.fabric.ports 0 } }
    let r (delay : Nat) : BringReport := ⟨[(0, 8), (1, 3)], [(1, 3)], true, true, delay⟩
    let lasing (n : Nat) : State := p { Port.reset with phase := .laser, attempts := n }
    let known (n peer : Nat) (gs : List Grant) : State := p { Port.reset with
      phase := .identity, identIn := (told peer sig).take n, granted := gs.map fun g => (g.cls, g.vc1) }
    let fragment (i : Fin 11) (peer : Nat) : IdentIn := ⟨i, nthD 0 ((told peer sig).map Prod.snd) i.val⟩
    let granting := p { Port.reset with phase := .credits, granted := (initialGrants.take 4).map fun g => (g.cls, g.vc1) }
    siteConnected (lasing 0).site 0 = true ∧ (lasing 0).power.rails = true ∧ (lasing 0).time.running = true ∧
    tooFew { Port.reset with fibres := loseWaves (r 0).badWaves Port.reset.fibres,
                             txFibres := loseWaves (r 0).badTxWaves Port.reset.txFibres } = false ∧
    gives (.portBringup 0 (r 500)) (lasing 0) (fun t => (getPort t 0).phase == .identity && (getPort t 0).attempts == 1 &&
      t.sent.length == 6) = true ∧
    gives (.portBringup 0 (r 501)) (lasing 0) (fun t => (getPort t 0).phase == .down) = true ∧
    newlyRetired Port.reset.fibres (loseWaves (r 0).badWaves Port.reset.fibres) = [] ∧
    gives (.bringupPhaseTimeout 0 .laser) (lasing 1) (fun t => (getPort t 0).phase == .laser && (getPort t 0).attempts == 2) = true ∧
    gives (.bringupPhaseTimeout 0 .lock) (lasing 2) (fun t => (getPort t 0).phase == .down) = true ∧
    keyDigest key = siteNeighbour (lasing 0).site 0 ∧ 1 = (0 ^^^ 1) ∧
    gives (.ident 0 (fragment 4 1)) (known 4 1 []) (fun t => (getPort t 0).phase == .identity && !(getPort t 0).signed) = true ∧
    gives (.ident 0 (fragment 5 1)) (known 5 1 []) (fun t => (getPort t 0).signed && t.sent.length == 5) = true ∧
    allGranted (getPort (known 10 1 []) 0) = false ∧ allGranted (getPort (known 10 1 initialGrants) 0) = true ∧
    gives (.ident 0 (fragment 10 1)) (known 10 1 []) (fun t => (getPort t 0).phase == .credits) = true ∧
    gives (.ident 0 (fragment 10 1)) (known 10 1 initialGrants) (fun t => (getPort t 0).phase == .up) = true ∧
    gives (.ident 0 (fragment 10 0)) (known 10 0 initialGrants) (fun t => (getPort t 0).phase == .refused) = true ∧
    gives (.credit 0 (initialGrants.drop 4)) granting (fun t => (getPort t 0).phase == .up) = true := by decide +kernel

/-! ### Collectives, rinks, recovery -/

/-- The image with a STEP range below 1 MiB. -/
def written : Image := { image with stepRanges := [⟨0, 0x100000⟩] }

/-- A running step whose program may write there. -/
def writing : State := { busy .inStep with job := some { job .inStep with image := written } }

theorem meets_GathersConcatenate :
    let s := { writing with hbm := { ready.hbm with dev := [(0x1000, 7), (0x1001, 8)] } }
    let mem (a : Nat) : Loc := ⟨.hbm, a⟩
    let p : Piece := ⟨1, [5, 6, 4], none⟩
    let g (issue : Bool) (others : List Piece) : GatherCmd := ⟨1, mem 0x2000, mem 0x1000, [2, 3], false, none, issue, others⟩
    let far : GatherCmd := { g true [p] with dest := ⟨.scratch 3, 0x10⟩ }
    let held := { s with hbm := { s.hbm with poison := [(0x80, true)] } }
    acts s 1 = true ∧ gatherFault s (g true [p]) = none ∧ gatherFault s far = none ∧ s.L < s.rinkSize ∧
    (s.coll.gathers.find? fun x => x.op == 1) = none ∧ sourceWaits s 1 (mem 0x1000) 2 = false ∧
    [0, 1] = upFrom 0 s.rinkSize ∧ [p].Perm ([(⟨0, [7, 8], none⟩ : Piece), p].filter fun x => x.index != s.L) ∧
    gives (.allGather (g true [p])) s (fun t => devRead t 0x2000 5 == [7, 8, 5, 6, 4] &&
      t.sent == [.piece [0] 1 ⟨0, [7, 8], none⟩] && SMap.get 0 t.ended 1 == 1) = true ∧
    gives (.allGather far) s (fun t => locRead t far.dest 0 5 == [7, 8, 5, 6, 4]) = true ∧
    gatherOfCmd s (g false [p]) = some (g false [p]) ∧ gatherRank s false 1 = some 1 ∧ hasPiece s 1 1 = false ∧
    gives (.allGather (g false [p])) s (fun t => devRead t 0x2000 5 == [0, 0, 5, 6, 4] && t.sent == []) = true ∧
    sourceWaits held 1 (mem 0x1000) 2 = true ∧
    gives (.allGather (g true [])) held (fun t => t.stalled == [.allGather (g true [])]) = true ∧
    refusedBy (.allGather { g true [p] with dest := mem 0x200000 }) s 240 = true ∧
    deliveryFault s false (mem 0x1000) 2 = none ∧ deliveryFault s true (mem 0x1001) 2 = none ∧
    gives (.broadcast 1 0 (mem 0x1000) 2 []) s (fun t => t.sent == [.piece [0] 1 ⟨0, [7, 8], none⟩]) = true ∧
    gives (.broadcast 1 1 (mem 0x1001) 2 [1, 2]) s (fun t => devRead t 0x1000 3 == [7, 1, 2]) = true := by decide +kernel

/-- 8 FP32 codes of one value, in 32 B. -/
def eight (x : U32) : List U32 := List.replicate 8 x
def eightBytes (x : Nat) : List Byte := (List.replicate 8 (leBytes 4 x)).flatten

/-- A sum of two FP32 contributors into the 32 B at 0x100, as the operations table names it. -/
def sumDecl : ReduceDecl := ⟨1, [⟨0x100, 32⟩], .sum, .fp32, .fp32, none, [[0, 1]], false, false, ⟨0x800, 0⟩, 64⟩

/-- Source 1's segment (2.0 each) is here, and source 0 is awaited. -/
def sumRun : MsuRun := ⟨sumDecl, [], [⟨1, 0, 0x100, eight 0x40000000⟩], [], [], 0, false⟩

/-- The destination holds 1.0 each. -/
def summing : State :=
  { writing with
    hbm := { ready.hbm with dev := Mem.block 0 0x100 (eightBytes 0x3F800000) }
    msu := { Msu.reset with runs := [sumRun] } }

theorem meets_SumsRunInContributorOrder :
    acts summing 1 = true ∧ reduceFault summing sumDecl = none ∧ findRun summing 1 = some sumRun ∧ poisoned summing 0x100 32 = false ∧
    counterAddr summing 1 = some 0x10010 ∧ (sumRun.segs.filter fun g => g.source == 0) = [] ∧
    ((sumRun.segs ++ [(⟨0, 0, 0x100, eight 0x40400000⟩ : Segment)]).filter fun g => g.source == 1) = [⟨1, 0, 0x100, eight 0x40000000⟩] ∧
    gives (.segmentArrive sumDecl ⟨0, 0, 0x100, eight 0x40400000⟩) summing
      (fun t => devRead t 0x100 32 == eightBytes 0x40C00000 && runComplete t 1) = true ∧
    gives (.closeArrive sumDecl 0 ⟨0, 0⟩) summing (fun t => devRead t 0x100 32 == eightBytes 0x40400000) = true ∧
    segmentFault summing sumDecl ⟨2, 0, 0x100, eight 0⟩ = none ∧
    gives (.segmentArrive sumDecl ⟨2, 0, 0x100, eight 0⟩) summing (fun t => t.status.status == 0x0303 && t.job == none) = true ∧
    gives (.segmentArrive sumDecl ⟨1, 0, 0x100, eight 0⟩) summing (fun t => t.status.status == 0x0303) = true ∧
    segmentFault summing sumDecl ⟨0, 0, 0x120, eight 0⟩ = none ∧
    gives (.segmentArrive sumDecl ⟨0, 0, 0x120, eight 0⟩) summing (fun t => t.status.status == 0x0304 && t.job == none) = true := by
  decide +kernel

theorem meets_ReduceScatterIsItsArrivals :
    let s := { summing with msu := Msu.reset }
    let r : ScatterCmd := ⟨sumDecl, 0x200, 32, [⟨1, [⟨1, 0, 0x100, eight 0x40000000⟩]⟩]⟩
    let bad : ScatterCmd := { r with decl := { sumDecl with dest := .bf16, red := .max, contrib := .int32 } }
    let alone : ScatterCmd := { r with others := [] }
    let sums := { summing with
      coll := { Coll.reset with scattered := [1] }
      msu := { Msu.reset with runs := [⟨sumDecl, [], [], [], [8], 0, true⟩] } }
    let held := { s with hbm := { s.hbm with poison := [(0x10, true)] } }
    scatterFault s r = none ∧ allReduceFault s r = none ∧ acts s r.decl.op = true ∧ scatterWaits s r = false ∧
    ((scatterSegs s r s.L 0 0 r.decl.ranges).all fun g => segmentFault s r.decl g == none) = true ∧
    segmentFault s r.decl ⟨1, 0, 0x100, eight 0x40000000⟩ = none ∧
    gives (.reduceScatter r) s (fun t => devRead t 0x100 32 == eightBytes 0x40400000 && t.sent.length == 2) = true ∧
    gives (.allReduce alone []) s (fun t => t.stalled == [.allReduce alone []] && t.sent.length == 2) = true ∧
    scatterWaits held r = true ∧ gives (.reduceScatter r) held (fun t => t.stalled == [.reduceScatter r]) = true ∧
    scatterFault s bad = some 247 ∧ refusedBy (.reduceScatter bad) s 247 = true ∧
    allReduceFault sums alone = none ∧ runComplete sums 1 = true ∧ sums.rinkSize = 2 ∧ pieceBase sums r 1 ⟨0x100, 32⟩ = 0x120 ∧
    gives (.allReduce alone [⟨1, eightBytes 5, none⟩]) sums (fun t => devRead t 0x120 32 == eightBytes 5 &&
      t.sent.length == 1 && SMap.get 0 t.ended 1 == 1) = true := by decide +kernel

theorem meets_BarriersReleaseAtOneTime :
    let s := busy .inStep
    let e := { s with coll := { s.coll with entered := [4, 9], snapshotAt := some 5 }
                      job := some { job .atCut with desc := BitVec.ofNat 2048 (4 * 2 ^ 768) } }
    let other := { e with recovery := { e.recovery with marshal := false } }
    acts s 4 = true ∧ 4 ∉ s.coll.entered ∧ gives (.barrier 4) s (fun t => t.coll.entered == [4]) = true ∧
    4 ∈ e.coll.entered ∧ stays (.barrier 4) { e with job := some (job .inStep) } = true ∧ bufferOf e 4 = none ∧
    gives (.barrierRelease 4 false 77) e (fun t => t.coll.released == [(4, 1000)] && t.coll.entered == [9] &&
      (t.job.map Job.phase) == some .dumping) = true ∧
    gives (.barrierRelease 9 false 77) e (fun t => (t.job.map Job.phase) == some .atCut) = true ∧
    gives (.barrierRelease 4 false 77) other (fun t => t.coll.released == [(4, 77)] && t.sent == []) = true ∧
    e.time.root = false ∧ gives (.barrierRelease 4 true 77) e (fun t => t.coll.released == [(4, 77)] && t.sent == []) = true ∧
    gives (.barrierRelease noOp false 77) { e with coll := { e.coll with entered := [noOp] } }
      (fun t => t.coll.snapshot == some 5 && t.coll.snapshotAt == none) = true ∧
    hasCommitted s = false ∧
    (let c := { s with status := { s.status with committed := 5 } }
     hasCommitted c = true ∧ c.recovery.refreshing = false ∧ c.recovery.unacked = [] ∧ c.coll.snapshotAt = none ∧
     c.coll.snapshot ≠ some 5 ∧
     gives .consistentSnapshot c (fun t => t.coll.entered == [noOp]) = true ∧
     stays .consistentSnapshot { c with recovery := { c.recovery with unacked := [3] } } = true) := by decide +kernel

/-- A one-tile replica buffer. -/
def buffer : ReplicaBuf :=
  ⟨0x100000, 0x200000, 1, true, 0x300000, 0x400000, ⟨0x500000, 0x600000, 0x600010⟩, ⟨0x700000, 0x800000, 0x800010⟩, ⟨0x900000, 0⟩,
    0x3000⟩

/-- Rink 0 of a machine of three rinks of one module each, in a step whose operation 2 reduces one replica buffer. -/
def voting3 : State :=
  { busy .inStep with
    job := some { job .inStep with image := { image with
      replica := [buffer], stepRanges := [⟨0, 0x1000000⟩], selector := [(0, 0)], programs := [⟨3, [⟨2, .replica 0, 3⟩], []⟩] } }
    site := site 1 1 1 3 0 0 0
    config := BitVec.ofNat 512 (5 * 2 ^ 160)
    coll := { Coll.reset with active := 7, released := [(2, 900)] } }

theorem meets_InclusionFollowsTheVotes :
    let s := voting3
    let late := { s with coll := { s.coll with deadline := some 1000, mine := [(2, 2)], arrivals := [(1, 1001)] } }
    let two := { s with coll := { s.coll with votes := [(0, 2), (1, 2), (2, 1), (32, 2), (33, 2), (64, 2)] } }
    let early := { s with coll := { s.coll with released := [], entered := [2] } }
    bufferOf s 2 = some buffer ∧ acts s 2 = true ∧ siteSeveral s.site = true ∧ s.rinkSize = 1 ∧
    bitAt s.coll.active s.rink = true ∧ s.coll.tr = none ∧ fate s s.rink ≠ .excluded ∧
    (s.job.map fun j => cutoffOf s j) = some (some 5) ∧
    gives (.barrierRelease 2 false 0) early (fun t => t.coll.tr == some 1000 && t.coll.deadline == some 6000) = true ∧
    (s.job.map fun j => contributionWaits s j 2 buffer) = some false ∧
    (s.job.map fun j => contributionWaits early j 2 buffer) = some true ∧
    gives (.replicaReduction 2 0) early (fun t => t.stalled == [.replicaReduction 2 0]) = true ∧
    gives (.replicaReduction 2 0) s (fun t => t.coll.sentBufs == [0] && t.sent == [.close 1 2 0 ⟨0, 1⟩, .close 2 2 0 ⟨0, 1⟩]) = true ∧
    (s.job.map fun j => voting s j) = some true ∧ SMap.get 0 s.coll.mine 0 = 0 ∧
    gives (.vote 0 []) s (fun t => SMap.get 0 t.coll.mine 0 == 2 && SMap.get 0 t.coll.votes 0 == 2) = true ∧
    late.coll.deadline = some 1000 ∧ (1000 : U64).toNat ≤ late.time.value.toNat ∧
    gives .cutoffDeadline late (fun t => t.coll.mine == [(0, 2), (1, 1), (2, 2)]) = true ∧
    SMap.get 0 two.coll.votes 65 = 0 ∧ two.coll.included = none ∧
    ((rinksOf s.coll.active).all fun r => let v := SMap.put two.coll.votes 65 2
      (rinksOf s.coll.active).any (fun x => SMap.get 0 v (32 * x + r) == 1) ||
        (rinksOf s.coll.active).all (fun x => SMap.get 0 v (32 * x + r) == 2)) = true ∧
    gives (.rinkVoteReceive 2 1 true) two (fun t => t.coll.included == some 3 && t.status.included == 3) = true ∧
    gives (.leaveNotice 2) s (fun t => (t.job.map Job.phase) == some .aborted && t.coll.active == 3) = true ∧
    gives (.leaveNotice 2) { s with coll := { s.coll with included := some 7 } } (fun t => t.coll.leaves == [2]) = true := by
  decide +kernel

theorem meets_RinksRejoinAndReplicasAgree :
    let s := { voting3 with coll := { voting3.coll with active := 5 } }
    let away := { s with recovery := { s.recovery with left := true }, coll := { s.coll with joins := [(0, 9)] }
                         job := some (job .inStep) }
    let rec_ (v : Nat) : ReplicaRecord := ⟨1, BitVec.ofNat 128 (5 + v * 2 ^ 64 + 5 * 2 ^ 96)⟩
    let check (set : U32) : State := { s with coll := { s.coll with active := set }
                                              recovery := { s.recovery with refreshing := true, refreshStep := 5, replicaOk := false } }
    let mine := (replicaValue (check 3) 5).toNat
    s.recovery.marshal = true ∧ lowestRink s = some s.rink ∧ bitAt s.coll.active 1 = false ∧ s.recovery.left = false ∧
    gives (.rejoinRequest 1 (some 9)) s (fun t => t.coll.joins == [(1, 9)]) = true ∧
    gives (.rejoinRequest 1 none) s (fun t => t.coll.joins == [(1, 7)] && t.sent == [.send (.rejoinStep 1 7)]) = true ∧
    away.recovery.left = true ∧ away.recovery.awaited = [] ∧
    gives (.rejoinRequest 0 none) away (fun t => t.sent == [.send (.rejoinRequest 0)]) = true ∧
    (away.rink, (9 : U64)) ∈ away.coll.joins ∧ wholeState [] away = true ∧ (job .inStep).image.replica = [] ∧
    gives (.rejoinStateTransfer 9 []) away (fun t => t.hbm.commitWord == 8 && t.status.step == 9) = true ∧
    recordFits 5 (rec_ mine).record = true ∧ field (rec_ mine).record 95 64 = mine ∧
    field (rec_ (mine + 1)).record 95 64 ≠ mine ∧ (members (check 3)).length = 2 ∧ (members (check 7)).length = 3 ∧
    gives (.replicaCheckRecord [rec_ mine] []) (check 3) (fun t => t.recovery.replicaOk && t.job == s.job) = true ∧
    gives (.replicaCheckRecord [rec_ (mine + 1)] []) (check 3) (fun t => t.status.status == 0x0505) = true ∧
    gives (.replicaCheckRecord [rec_ (mine + 1), rec_ (mine + 1)] []) (check 7)
      (fun t => t.status.counts.replicaRepairs == 1 && !t.recovery.replicaOk) = true := by decide +kernel

/-- The site of `ready` in a rink of four, with one roster entry, of digest 5 (its last byte). -/
def rostered : BitVec 4096 := BitVec.ofNat 4096 ((site 0 4 1 1 0 0 0).toNat + 2 ^ 88 + fieldOfDigest 5 * 2 ^ 2048)

theorem meets_LossPausesTheRink :
    let s := { busy .inStep with site := rostered }
    let held := { s with job := some { job .inStep with image := { image with heldWritten := [⟨0, 1⟩] } } }
    let a : Coord := ⟨1, 0, 0⟩
    let b : Coord := ⟨2, 0, 0⟩
    let waiting := { s with recovery := { s.recovery with awaited := [a] } }
    let status (i : Instr) (u : State) (c : U16) (halted : Bool) : Bool :=
      gives i u fun t => t.status.status == c && t.mgt.state == (if halted then .halted else .ready)
    isHalt 0x0405 = false ∧ isHalt 0x0504 = true ∧ status (.stopNotice 0x0405) s 0x0405 false = true ∧
    status (.stopNotice 0x0504) s 0x0504 true = true ∧ s.recovery.marshal = true ∧
    gives (.stopNotice 3) (busy .held) (fun t => t.status.status == 4 && t.job == none) = true ∧
    stays (.stopNotice 0x0504) (busy .halted) = true ∧
    isLost s ⟨a, .ports⟩ = false ∧
    isLost { s with fabric := { s.fabric with down := [⟨0, ⟨0, 0, 0⟩⟩, ⟨0, a⟩] } } ⟨a, .ports⟩ = true ∧
    gives (.moduleLost [⟨a, .notice⟩, ⟨b, .ports⟩]) s (fun t => t.sent == [.send (.pause [a])] && t.recovery.paused) = true ∧
    tandemOf s a = b ∧ status (.pause [a, b]) s 0x0503 true = true ∧ status (.pause [a]) held 0x0502 true = true ∧
    rosterEmpty s = false ∧ status (.pause [a]) (busy .inStep) 0x0507 true = true ∧
    gives (.pause [a]) s (fun t => (t.job.map Job.phase) == some .aborted && t.recovery.awaited == [a] && t.status.paused &&
      bitAt t.mgt.intStatus 5) = true ∧
    gives (.pause [a]) { s with job := some (job .held) } (fun t => (t.job.map Job.phase) == some .held) = true ∧
    stays (.pause [a]) { s with recovery := { s.recovery with paused := true, lost := [a] } } = true ∧
    stays (.pause [a]) { s with job := some (job .halted) } = true ∧
    gives (.pause [a]) { s with recovery := { s.recovery with adopted := [a] } } (fun t => t.recovery.lost == []) = true ∧
    gives (.pause [⟨0, 0, 1⟩]) { s with site := BitVec.ofNat 4096 ((site 1 2 2 2 0 0 0).toNat + 2 ^ 88 + fieldOfDigest 5 * 2 ^ 2048) }
      (fun t => t.recovery.left && t.coll.leaves == [0]) = true ∧
    status .recoveryWaitExpiry waiting 0x0507 true = true ∧ stays .recoveryWaitExpiry s = true := by decide +kernel

theorem meets_AdoptionAndLeadership :
    let a : Coord := ⟨1, 0, 0⟩
    let s := { busy .inStep with site := rostered, recovery := { Recovery.reset with awaited := [a], paused := true, lost := [a] } }
    let ad (identity : Digest) (standby : Bool) : AdoptIn :=
      ⟨a, identity, 5000, 6, List.replicate 3 (.ready 0 (fieldsDigest desc)), standby⟩
    let spare := { s with job := some (job .barrier) }
    let free := { s with recovery := { s.recovery with awaited := [] } }
    let paged := { free with job := some { job .inStep with image := { image with stateRanges := [⟨0, 65536⟩] } } }
    let third := { free with site := site 0 4 1 1 3 0 0 }
    inRoster s 5 = true ∧ inRoster s 6 = false ∧ a ∈ s.recovery.awaited ∧
    (ad 5 false).others.length + 1 = s.rinkSize ∧ barrierCode (job .inStep) (ad 5 false).others = none ∧
    gives (.adoptionJoin { ad 5 false with others := List.replicate 3 .refusal }) s (fun t => t.job == none && t.status.status == 7) =
      true ∧
    gives (.adoptionJoin (ad 5 false)) s (fun t => t.recovery.awaited == [] && t.recovery.adopted == [a] && t.status.counts.adoptions == 1) = true ∧
    gives (.adoptionJoin (ad 6 false)) s (fun t => t.recovery.awaited == [a] && (SMap.get Event.none t.status.events 0).code == 0x0501) =
      true ∧
    gives (.adoptionJoin (ad 5 true)) spare (fun t => (t.job.map Job.phase) == some .aborted && t.hbm.commitWord == 5 &&
      t.time.value == 5000) = true ∧
    free.recovery.paused = true ∧ free.recovery.restoring = false ∧ free.recovery.kept = [] ∧ free.recovery.awaited = [] ∧ siteSeveral free.site = false ∧
    gives (.tandemRestore (.live true true)) free (fun t => !t.recovery.paused) = true ∧
    gives (.tandemRestore (.live true false)) paged (fun t => t.recovery.paused && t.recovery.kept == [0]) = true ∧
    gives (.tandemPageAck ⟨0, true⟩) { paged with recovery := { paged.recovery with restoring := true, kept := [0] } }
      (fun t => !t.recovery.paused) = true ∧
    wholeState [] free = true ∧ SMap.wf 0 free.hbm.stamps = true ∧ SMap.wf 0 free.hbm.tandemStamps = true ∧
    stays (.tandemRestore (.live true true)) { free with site := site 1 2 2 2 0 0 0 } = true ∧
    third.L = 3 ∧ third.recovery.marshal = false ∧
    gives (.marshalBeat 2) third (fun t => t.recovery.heard == some 2) = true ∧ stays (.marshalBeat 3) third = true ∧
    gives (.marshalPromotion 150) third (fun t => t.recovery.marshal && t.sent.length == 2) = true ∧
    stays (.marshalPromotion 149) third = true ∧ s.controllers.aAlive = true ∧
    gives (.controllerBTakeover 5) s (fun t => t.controllers.bActs) = true ∧ stays (.controllerBTakeover 4) s = true := by
  decide +kernel

/-- An update of one tile: parameters at page 1, moments at pages 2 and 3, counters at page 4, a BF16 working copy at
page 5, the gradient at page 8 and its presence bitmap at page 9. -/
def update : UpdateCmd :=
  ⟨1, 1, 0x80000, false, 0x90000, 0x10000, 0x20000, 0x30000, 0x40000, ⟨.bf16, .ne, true, .computed, 0x50000, 0⟩⟩

def row : ImmRow := ⟨0x3A83126F, 0x3F666666, 0x3F7FBE77, 0x322BCC77, 0⟩

/-- A job with that update and its immediate rows, the tile's presence bit set. -/
def updating (rows : List ImmRow) : State :=
  { busy .inStep with
    job := some { job .inStep with image := { image with
      programs := [⟨2, [], [⟨1, rows, [⟨0x10000, 0x50000⟩, ⟨0x80000, 0x30000⟩]⟩]⟩]
      selector := [(5, 0)]
      counterBase := 0xA0000
      stateRanges := [⟨0x10000, 0x50000⟩], stepRanges := [⟨0x80000, 0x30000⟩] } }
    hbm := { ready.hbm with dev := [(0x90000, 1)] } }

/-- Its sweep after `n` opened signals. -/
def sweeping (n : Nat) (started : Bool) : Sweep :=
  ⟨update, row, 1, (sweepPages update [0]).map (fun p => { p with opened := true }), upFrom 0 12, upFrom 0 n, started⟩

theorem meets_UpdateSweepsInThreePhases :
    let s := updating [row]
    let w (n : Nat) (started : Bool) : State := { s with msu := { Msu.reset with sweeps := [sweeping n started] } }
    updateFault s { update with tiles := 0 } = some 257 ∧ refusedBy (.updateOperation { update with tiles := 0 }) s 257 = true ∧
    updateFault s update = none ∧ acts s 1 = true ∧ findSweep s 1 = none ∧
    immRow (updating []) 1 = none ∧
    gives (.updateOperation update) (updating []) (fun t => t.status.status == 0x0305 && t.job == none) = true ∧
    rowOk { row with b1 := 0x3F800000 } = false ∧
    gives (.updateOperation update) (updating [{ row with b1 := 0x3F800000 }]) (fun t => t.status.status == 0x0306) = true ∧
    immRow s 1 = some row ∧ rowOk row = true ∧ updateWaits s update = false ∧ divisorOf s update.grad = some 1 ∧
    gives (.updateOperation update) s (fun t => t.hbm.stamps.length == 5 && t.sent.length == 12) = true ∧
    (findSweep (w 10 false) 1).isSome = true ∧ 10 ∈ upFrom 0 12 ∧ 10 ∉ upFrom 0 10 ∧
    gives (.openedSignal 1 10) (w 10 false) (fun t => (findSweep t 1).map Sweep.started == some false) = true ∧
    11 ∉ upFrom 0 11 ∧ (upFrom 0 11).length = 11 ∧ presentTiles (w 11 false) update = [0] ∧ sweepPoisoned s update = false ∧
    sweepPoisoned { s with hbm := { s.hbm with poison := [(0x4000, true)] } } update = true ∧
    List.Pairwise (fun a b : Nat × Nat => a.1 + a.2 ≤ b.1 ∨ b.1 + b.2 ≤ a.1)
      ([(0x40000, 4), (0x20000, 4096), (0x30000, 4096), (0x10000, 4096), (0x50000, 2048), (0x90000, 1)] ++
        (counterAddr s 1).toList.map fun a => (a, 16)) ∧
    ((w 12 true).msu.sweeps.map Sweep.started) = [true] ∧ inStep s = true ∧
    ((sweeping 12 true).pages.find? fun q => q.page == 1) = some ⟨1, [0], true, [], false⟩ ∧
    SMap.wf 0 s.hbm.stamps = true ∧
    gives (.pageDoneSignal 1 1 0) (w 12 true) (fun t => t.hbm.stamps == [(1, 5)] && t.msu.pageCrcs == []) = true := by
  decide +kernel

/-- The divisor of a replica buffer waits for the inclusion set, and is 0 for an empty one. -/
theorem meets_UpdateSweepsInThreePhases_divisor :
    let b : ReplicaBuf := { buffer with dest := 0x80000 }
    let s (i : Option U32) : State := { updating [row] with
      site := site 1 2 2 2 0 0 0
      coll := { Coll.reset with active := 3, included := i, gathers := [⟨0, [0, 1]⟩] }
      job := (updating [row]).job.map fun j => { j with image := { j.image with
        replica := [b], programs := j.image.programs.map fun p => { p with ops := [⟨0, .replica 0, 3⟩] } } } }
    updateFault (s none) update = none ∧ acts (s none) 1 = true ∧ immRow (s none) 1 = some row ∧
    divisorOf (s none) 0x80000 = none ∧ updateWaits (s none) update = false ∧
    gives (.updateOperation update) (s none) (fun t => t.stalled == [.updateOperation update]) = true ∧
    divisorOf (s (some 0)) 0x80000 = some 0 ∧
    gives (.updateOperation update) (s (some 0)) (fun t => !presentBit t 0x90000 0 && t.msu.sweeps == []) = true := by
  decide +kernel

/-- One STATE page (device page 1, tandem page 0), committed at step 5 and due for its refresh. -/
def refreshing (p : JobPhase) : State :=
  { busy p with
    job := some { job p with image := { image with stateRanges := [⟨0x10000, 0x10000⟩] }, stop := 2 }
    hbm := { ready.hbm with stamps := [(1, 5)], commitWord := 5 }
    recovery := { Recovery.reset with refreshing := true, refreshStep := 5 } }

theorem meets_TandemKeepsCommittedPages :
    let s := refreshing .boundary
    let sent := { refreshing .refreshing with recovery := { Recovery.reset with unacked := [1], refreshStep := 5 } }
    let closed := { s with hbm := { s.hbm with stamps := [(1, 4)] } }
    let w : Sweep := ⟨update, row, 1, [⟨1, [0], false, [], false⟩], [], [], false⟩
    s.recovery.refreshing = true ∧ s.recovery.replicaOk = true ∧ jobPages s = [(0, 1)] ∧ refreshDue s 1 = true ∧
    gives .tandemRefresh s (fun t => t.recovery.unacked == [1] && !t.recovery.refreshing && t.sent.length == 1) = true ∧
    refreshDue closed 1 = false ∧ closed.recovery.unacked = [] ∧
    gives .tandemRefresh closed (fun t => !t.recovery.refreshing && t.job == s.job) = true ∧
    gives .tandemRefresh { closed with job := (refreshing .refreshing).job } (fun t => t.job == none && t.status.status == 2) =
      true ∧
    stays .tandemRefresh { s with recovery := { s.recovery with replicaOk := false } } = true ∧
    SMap.wf 0 s.hbm.tandemStamps = true ∧ s.hbm.serving = true ∧
    gives (.tandemPageReceive 5 ⟨0, 5, [9]⟩ none) s (fun t => t.hbm.tandem == [(0, 9)] && t.hbm.tandemStamps == [(0, 5)] &&
      t.sent == [.tandemAck 0]) = true ∧
    gives (.tandemPageReceive 5 ⟨0, 5, [9]⟩ (some 0)) s (fun t => t.hbm.tandem == [] && t.hbm.tandemStamps ==
      [(0, 0x8000000000000005)] && t.sent == []) = true ∧
    devicePage sent 0 = some 1 ∧ devicePage sent 1 = none ∧ 1 ∈ sent.recovery.unacked ∧
    gives (.tandemPageAck ⟨0, false⟩) sent (fun t => t.job == none && t.status.status == 2) = true ∧
    gives (.tandemPageAck ⟨0, false⟩) { sent with recovery := { sent.recovery with unacked := [1, 7] } }
      (fun t => t.recovery.unacked == [7]) = true ∧
    stays (.tandemPageAck ⟨1, false⟩) sent = true ∧
    (let begun := { sent with job := (refreshing .inStep).job, status := { sent.status with step := 6 }
                              msu := { Msu.reset with sweeps := [w] } }
     gives (.tandemPageAck ⟨0, false⟩) begun (fun t => t.hbm.stamps == [(1, 0x8000000000000006)]) = true) := by decide +kernel

theorem meets_SettlingFollowsTheTable :
    let s (loc : U64) : State := { refreshing .settling with
      hbm := { ready.hbm with stamps := [(1, loc)], commitWord := 5 }, recovery := Recovery.reset }
    (1 : Nat) ∉ (s 5).recovery.swept ∧ (s 5).recovery.paused = false ∧ jobPages (s 5) = [(0, 1)] ∧
    settleAct (s 5) 1 5 5 = .keep ∧ settleAct (s 5) 1 5 4 = .refresh ∧ settleAct (s 5) 1 5 0x8000000000000005 = .refresh ∧
    settleAct (s 5) 1 6 5 = .restore ∧ settleAct (s 5) 1 0x8000000000000004 5 = .restore ∧
    settleAct (s 5) 1 6 6 = .bad ∧ settleAct (s 5) 1 4 5 = .bad ∧
    gives (.pageSettle [(0, 6)] []) (s 6) (fun t => t.status.status == 0x0504 && t.mgt.state == .halted) = true ∧
    stays (.pageSettle [(0, 5)] []) (s 6) = true ∧
    gives (.pageSettle [(0, 4)] []) (s 5) (fun t => (t.job.map Job.phase) == some .settling && t.recovery.settled) = true ∧
    gives (.tandemPageAck ⟨0, false⟩) { s 5 with recovery := { Recovery.reset with settled := true, unacked := [1] } }
      (fun t => (t.job.map Job.phase) == some .boundary) = true ∧
    gives (.pageSettle [(0, 5)] []) (s 5) (fun t => (t.job.map Job.phase) == some .boundary && t.sent == []) = true ∧
    gives (.pageSettle [(0, 5)] [⟨0, 5, [9]⟩]) (s 6) (fun t => t.hbm.stamps == [(1, 5)] && t.hbm.dev == [(0x10000, 9)] &&
      t.status.counts.pagesRestored == 1) = true := by decide +kernel

/-! ### Steps, cores, engines -/

/-- A table at 0x1000. -/
def tables (readyOff takeOff : Nat) : Mem :=
  Mem.block 0 0x1000 (leBytes 8 1 ++ leBytes 8 0 ++ leBytes 8 readyOff) ++ Mem.block 0 0x1040 (leBytes 6 takeOff)

theorem meets_StepsStartCommitAndReplay :
    let s := busy .boundary
    let needs (rows : List ImmRow) : State := { s with job := some { job .boundary with image := { image with
      programs := [⟨2, [], [⟨1, rows, []⟩]⟩], selector := [(5, 0)] } } }
    let table (readyOff takeOff : Nat) : State := { s with
      status := { s.status with step := 6 }
      job := some { job .boundary with image := { image with admissionTables := [⟨0x1000, 96⟩] } }
      hbm := { ready.hbm with dev := tables readyOff takeOff } }
    let step := busy .inStep
    let aborted (n : Nat) : State := { busy .aborted with
      job := some { job .aborted with replays := n }, hbm := { ready.hbm with coreMap := fullMap } }
    let due : State := { aborted 0 with selfTest := { ready.selfTest with due := [0] } }
    s.recovery.paused = false ∧ s.recovery.left = false ∧ stays .stepStart (busy .held) = true ∧
    missingRow (boundarySet (needs [])) { job .boundary with image := { image with
      programs := [⟨2, [], [⟨1, [], []⟩]⟩], selector := [(5, 0)] } } = some 1 ∧
    gives .stepStart (needs []) (fun t => t.status.status == 0x0305 && t.job == none) = true ∧
    gives .stepStart (needs [row]) (fun t => (t.job.map Job.phase) == some .inStep) = true ∧
    gives .stepStart (table 0 1) (fun t => t.status.inputWait && t.status.counts.inputWaits == 1) = true ∧
    gives .stepStart (table 1 0) (fun t => t.status.status == 0x0607 && t.job == none) = true ∧
    gives .stepStart (table 1 1) (fun t => (t.job.map Job.admitted) == some (some 6) && devNat t 0x1008 4 == 1) = true ∧
    commitReady step (job .inStep) = true ∧ step.recovery.paused = false ∧ step.status.step.toNat ≠ Desc.lastStep desc ∧
    gives (.commitBarrier 0) step (fun t => t.hbm.commitWord == 5 && t.status.step == 6 && t.recovery.refreshing) = true ∧
    gives (.commitBarrier 0) { step with status := { step.status with step := 9 } }
      (fun t => (t.job.map Job.phase) == some .refreshing && t.status.step == 9) = true ∧
    stays (.commitBarrier 0) s = true ∧
    gives .stepReplay (busy .inStep) (fun t => (t.job.map Job.phase) == some .settling && t.status.counts.replays == 1) = true ∧
    stays .stepReplay (busy .held) = true ∧
    (let kept : State := { step with
       job := some { job .inStep with image := { image with heldWritten := [⟨0x5000, 4⟩] } }
       kv := { step.kv with start := some ⟨[], [], [3], [(0x5001, 9)]⟩ }
       hbm := { step.hbm with dev := [(0x5000, 1), (0x6000, 2)] } }
     kept.canonical = true ∧
     gives .stepReplay kept (fun t => t.kv.freeQ == [3] && devRead t 0x5000 2 == [0, 9] && devRead t 0x6000 1 == [2]) =
       true) ∧
    gives .stepReplay (aborted 8) (fun t => t.status.status == 0x0500 && t.mgt.state == .halted) = true ∧
    gives .stepReplay (aborted 7) (fun t => (t.job.map Job.replays) == some 8 && (t.job.map Job.phase) == some .settling) = true ∧
    spareOf due (domainOf 0) = some 26 ∧ (entryOf due 0).state = .active ∧
    gives .stepReplay due (fun t => (entryOf t 26).logical == 0 && (entryOf t 0).state == .parked) = true ∧
    (let bare := { due with hbm := { due.hbm with coreMap := updNth (fun e => { e with state := .failed }) fullMap 26 } }
     spareOf bare (domainOf 0) = none ∧ bare.selfTest.parked = [] ∧
     gives .stepReplay bare (fun t => t.status.status == 0x0506) = true) ∧
    (let p := { s with selfTest := { s.selfTest with parked := [(0, false)] }, hbm := { ready.hbm with
       coreMap := updNth (fun e => { e with state := .parked, logical := 0xFF, remaps := 1 }) fullMap 0 } }
     0 < p.hbm.coreMap.length ∧
     gives (.parkedCoreTestDone 0 true) p (fun t => (entryOf t 0).state == .spare && t.selfTest.parked == []) = true ∧
     gives (.parkedCoreTestDone 0 false) p (fun t => (entryOf t 0).state == .failed && t.status.eventCount == 1) = true ∧
     stays (.parkedCoreTestDone 1 true) p = true) := by decide +kernel

theorem meets_CommitWordFollowsCommits :
    (busy .inStep).job = some (job .inStep) ∧ commitReady (busy .inStep) (job .inStep) = true ∧
    (busy .inStep).recovery.paused = false ∧ (busy .barrier).job = some (job .barrier) ∧ 1 + 1 = machineSize (busy .barrier) ∧
    barrierCode (job .barrier) [.ready 0 (fieldsDigest desc)] = none ∧ transitionOpen (busy .inStep).fuses = false ∧ powerOnRuns (busy .inStep) = false ∧
    gives .rinkResetFlood { busy .inStep with hbm := { ready.hbm with commitWord := 4 } } (fun t => t.hbm.commitWord == 4) =
      true := by decide +kernel

/-- A job cut before operation 1 of step 5, its dump at host address 0x10000, one range of two bytes. -/
def cutDesc : BitVec 2048 :=
  BitVec.ofNat 2048 (desc.toNat + 5 * 2 ^ 704 + 2 ^ 768 + 2 ^ 836 + 0x10000 * 2 ^ 576 + 0x3000 * 2 ^ 1024 + 2 * 2 ^ 1088)

def cutting (p : JobPhase) : State :=
  { busy p with
    job := some { job p with desc := cutDesc }
    cores := { Cores.reset with scratch := [(2 ^ 24 + 1, 7)], drain := [(3, 8)] }
    hbm := { ready.hbm with dev := [(0x3001, 9)] } }

theorem meets_CutPointsHoldAndDump :
    let s := cutting .dumping
    cutReady (cutting .inStep) { job .inStep with desc := cutDesc } = true ∧ s.recovery.paused = false ∧
    gives .cutPointReached (cutting .inStep) (fun t => (t.job.map Job.phase) == some .atCut && t.coll.entered == [1]) = true ∧
    stays .cutPointReached (busy .inStep) = true ∧ withheld (cutting .inStep) 1 = true ∧ s.link.trained = true ∧ s.link.cxl = true ∧ s.canonical = true ∧
    s.mgt.statusAddr.toNat + 4096 ≤ Desc.dumpAddr cutDesc ∧ s.ring.producer.toNat ≤ s.ring.consumer.toNat + 1 ∧
    usedRanges cutDesc = [] ++ ⟨0x3000, 2⟩ :: [] ∧
    gives (.cutDump none) s (fun t => t.mgt.state == .held && t.status.status == 4 &&
      Mem.read 0 t.hostMem (0x10000 + 0x1000 + 0xA00000 + 1) 1 == [7] &&
      Mem.read 0 t.hostMem (0x10000 + 0x1000 + 0xA00000 * 128 + 3) 1 == [8] &&
      Mem.read 0 t.hostMem (0x10000 + 0x1000 + (0xA00000 + 0x10000) * 128 + 1) 1 == [9]) = true ∧
    s.mgt.ringCtrl.toNat + 64 + 8 ≤ Desc.dumpAddr cutDesc ∧
    gives (.cutDump none) { s with ring := { s.ring with producer := 2 } } (fun t => t.job == none && t.status.status == 4) =
      true ∧
    gives (.cutDump (some 0)) s (fun t => t.hostMem.length > 0 && (t.job.map Job.phase) == some .dumping) = true ∧
    stays (.cutDump none) { s with link := { s.link with trained := false } } = true := by decide +kernel

/-- Operation 1 on logical core 3. -/
def ctx : OpCtx := ⟨3, 1, none, [], false⟩

/-- A step in which core 3 has a shadow area and HBM holds four bytes at 0x2000. -/
def running : State :=
  { busy .inStep with
    job := some { job .inStep with image := { image with shadowAreas := [(3, 0x20000)], tokenAreas := [(3, 0x30000), (4, 0x30000)] } }
    hbm := { ready.hbm with dev := Mem.block 0 0x2000 [1, 2, 3, 4] } }

/-- A command of operation 1 at the head of each of core 3's queues. -/
def queued (s : State) : State :=
  { s with cores := { s.cores with ctl := [(3, { CoreCtl.fresh with queues := (upFrom 0 7).map fun e => (e, [1]) })] } }

/-- A command of an engine can run. -/
def runs (r : EngineRun) (s : State) : Bool := r.turn s && r.refusal s == none && r.can s && !r.ctx.uncorrectable && r.stop s == none

theorem meets_ControllersIssueInOrder :
    let s := running
    let c (open' : List Nat) (load : Option LoadCmd) (addrs : List AddrStream) : IssueCmd :=
      ⟨ctx, .stream, 9, open', load, addrs, [(8, 5, 6)], [], false⟩
    let at' (x : Nat) : AddrStream := ⟨.hbm, .affine ⟨x, []⟩⟩
    let l (a n : Nat) : LoadCmd := ⟨a, n, 0x100, none⟩
    let k1 (d : IssueCmd) (u : State) : CoreCtl := advanceCtl d (ctlOf u 3)
    let s1 (d : IssueCmd) (u : State) : State := setCtl 3 (fun _ => k1 d u) u
    let full := { s with cores := { s.cores with ctl := [(3, { CoreCtl.fresh with queues := [(2, List.replicate 16 1)] })] } }
    SMap.wf CoreCtl.fresh s.cores.ctl = true ∧ acts s 1 = true ∧ acts (busy .held) 1 = false ∧
    stays (.engineCommandIssue (c [] none [])) (busy .held) = true ∧
    issueFault s { c [] none [] with writes := [(8, 0x40000, 0)] } = some 135 ∧
    refusedBy (.engineCommandIssue { c [] none [] with writes := [(8, 0x40000, 0)] }) s 135 = true ∧
    (let far := { c [1] none [] with pos := 99 }
     issueFault s far = none ∧ oldest s 3 (k1 far s) = some 1 ∧ waits (.engineCommandIssue far) s = true) ∧
    issueFault full (c [] none []) = none ∧ windowHolds full (c [] none []) (k1 (c [] none []) full) = true ∧
    issueWaits (s1 (c [] none []) full) (c [] none []) (k1 (c [] none []) full) = true ∧
    gives (.engineCommandIssue (c [] none [])) full (fun t => t.stalled.length == 1 && Mem.get 0 (ctlOf t 3).dataMem 5 == 6) =
      true ∧
    issueFault s (c [] none []) = none ∧ windowHolds s (c [] none []) (k1 (c [] none []) s) = true ∧
    issueWaits (s1 (c [] none []) s) (c [] none []) (k1 (c [] none []) s) = false ∧
    issueOutside (s1 (c [] none [at' devTop]) s) (c [] none [at' devTop]) (k1 (c [] none [at' devTop]) s) = true ∧
    gives (.engineCommandIssue (c [] none [at' devTop])) s (fun t => t.status.status == 0x0200 && t.job == none) = true ∧
    gives (.engineCommandIssue { c [] none [at' devTop] with engine := .walker }) s (fun t => t.status.status == 0x0201) =
      true ∧
    gives (.engineCommandIssue (c [] none [at' (devTop - 1)])) s (fun t => hasIssued t 1 &&
      SMap.get [] (ctlOf t 3).queues 2 == [1] && devNat t 0x10010 16 == 5 * 2 ^ 64 && Mem.get 0 (ctlOf t 3).dataMem 5 == 6) =
      true ∧
    loadPoisoned s (l 0x2000 4) = false ∧
    gives (.engineCommandIssue (c [] (some (l 0x2000 4)) [])) s
      (fun t => Mem.read 0 t.cores.scratch (2 ^ 24 * 3 + 0x100) 4 == [1, 2, 3, 4]) = true ∧
    (let d := c [2] (some (l 0x2000 4)) []
     speculative d (k1 d s) = true ∧ issueWaits (s1 d s) d (k1 d s) = false ∧ issueOutside (s1 d s) d (k1 d s) = false ∧
     SMap.wf ⟨0, false, []⟩ (ctlOf s 3).slots = true ∧
     gives (.engineCommandIssue d) s (fun t => (ctlOf t 3).branches == [2] && t.cores.scratch == s.cores.scratch &&
       (ctlOf t 3).slots == [(0, ⟨0, true, [1, 2, 3, 4]⟩)]) = true) := by decide +kernel

theorem meets_ControllersIssueInOrder_retire :
    let s := running
    let spec (id : Nat) (out bad : Bool) (a : Nat) : SpecLoad := ⟨id, ctx, ⟨a, 4, 0x100, none⟩, if out then [] else [0], 7, out, bad⟩
    let flight (ls : List SpecLoad) : State := { s with cores := { s.cores with ctl := [(3, { CoreCtl.fresh with
      branches := [2], genSaved := [(2, [(0, 5)])], writeBuf := [(3, 9, 9)], slots := [(0, ⟨7, true, [1, 2, 3, 4]⟩)]
      loads := ls, nextTag := 8 })] } }
    let one := flight [spec 7 false false 0x2000]
    let copied (t : State) : Bool :=
      (ctlOf t 3).loads == [] && Mem.read 0 t.cores.scratch (2 ^ 24 * 3 + 0x100) 4 == [1, 2, 3, 4]
    inStep one = true ∧ SMap.wf ⟨0, false, []⟩ (ctlOf one 3).slots = true ∧ (ctlOf one 3).branches.contains 2 = true ∧
    (ctlOf one 3).branches.contains 3 = false ∧ stays (.branchMispredict 3 3) one = true ∧
    gives (.branchMispredict 3 2) { one with stalled := [.engineCommandIssue ⟨ctx, .stream, 9, [2], none, [], [], [], true⟩] }
      (fun t => (ctlOf t 3).loads == [] && (ctlOf t 3).flying == [(0, 7)] && (ctlOf t 3).slots == [] && t.stalled == [] &&
        (ctlOf t 3).genPos == [(0, 5)]) = true ∧
    (ctlOf one 3).loads.find? (fun l => l.id == 7) = some (spec 7 false false 0x2000) ∧ olderUnretired one 3 7 = false ∧
    gives (.speculativeLoadRetire 3 7) one copied = true ∧
    (let two := flight [spec 5 true false devTop, spec 7 false false 0x2000]
     olderUnretired two 3 7 = true ∧ waits (.speculativeLoadRetire 3 7) two = true) ∧
    gives (.speculativeLoadRetire 3 7) (flight [spec 7 true false devTop]) (fun t => t.status.status == 0x0201 && t.job == none) =
      true ∧
    (let bad := flight [spec 7 false true 0x2000]
     let worse := { bad with hbm := { bad.hbm with poison := [(0x100, true)] } }
     loadPoisoned worse ⟨0x2000, 4, 0x100, none⟩ = true ∧ waits (.speculativeLoadRetire 3 7) worse = true ∧
     loadPoisoned bad ⟨0x2000, 4, 0x100, none⟩ = false ∧ gives (.speculativeLoadRetire 3 7) bad copied = true) ∧
    stays (.speculativeLoadRetire 3 6) one = true ∧
    gives (.hbmResponseDropped 3 0 7) { s with cores := { s.cores with ctl := [(3, { CoreCtl.fresh with flying := [(0, 7)] })] } }
      (fun t => (ctlOf t 3).flying == []) = true := by decide +kernel

/-- A stored tensor in core 3's scratchpad, with FP8 exponents at 0x900. -/
def tensor (f : Fmt) (addr n rowLen : Nat) : Tensor := ⟨⟨.scratch 3, addr⟩, f, n, ⟨.scratch 3, 0x900⟩, rowLen⟩

/-- `running` with an E4M3 code of 2.0 at 0 and of 3.0 at 0x40 in core 3's scratchpad, exponents 127, and a command of operation
1 at the head of its queues. -/
def loaded : State :=
  queued { running with cores := { running.cores with
      scratch := [(2 ^ 24 * 3, 0x40), (2 ^ 24 * 3 + 0x40, 0x44), (2 ^ 24 * 3 + 0x900, 127)] } }

theorem meets_TrellisFeedsTheDrain :
    let l : TileLoadCmd := ⟨ctx, tensor .e4m3 0 1 1, 1, 1, true, false, false⟩
    let w : WaveCmd := ⟨ctx, .tensor (tensor .e4m3 0x40 1 1), 0, false, false, 9, []⟩
    let bad : OpCtx := { ctx with uncorrectable := true }
    let full := { loaded with cores := { loaded.cores with planes := [(7, ⟨1, 1, true, false, false, .e4m3, false, false, true⟩)] } }
    let use := { loaded with cores := { loaded.cores with planes := [(6, ⟨1, 1, true, false, false, .e4m3, false, false, false⟩)] } }
    let foot := { loaded with cores := { loaded.cores with foot := [(3, [⟨1, 0, List.replicate 32 0x40C00000, false⟩])] } }
    let d (last : Bool) : DrainCmd := ⟨ctx, none, last, ⟨.drain 3, 0⟩, none, .relu, none,
      ⟨tensor .fp32 0x200 2 2, none⟩, none, none⟩
    let aborts (i : Instr) (u : State) : Bool := gives i u fun t => (t.job.map Job.phase) == some .aborted
    SMap.wf PlaneInfo.empty loaded.cores.planes = true ∧ SMap.wf 0 loaded.cores.planeInUse = true ∧
    SMap.wf [] foot.cores.foot = true ∧ SMap.wf PlaneInfo.empty full.cores.planes = true ∧
    atHead running .trellis 3 1 = false ∧ waits (.tileLoad l) running = true ∧ waits (.drainResult (d true)) running = true ∧
    (let halo : OpCtx := { ctx with halos := [(⟨4, 3, 1, 0x100, 2, 0, 8⟩, 1)] }
     halosHere loaded halo = false ∧ waits (.tileLoad { l with ctx := halo }) loaded = true) ∧
    tileLoadFault loaded { l with k := 0 } = some 83 ∧ tileLoadFault loaded l = none ∧
    (tileLoadRun l).turn loaded = true ∧ (tileLoadRun l).refusal loaded = none ∧ (tileLoadRun l).can loaded = true ∧
    (tileLoadRun l).refusal full = none ∧ (planeAt full 3 (loadingPlane full 3)).loaded = true ∧
    (tileLoadRun l).can full = false ∧ waits (.tileLoad l) full = true ∧
    (planeAt loaded 3 (loadingPlane loaded 3)).loaded = false ∧ aborts (.tileLoad { l with ctx := bad }) loaded = true ∧
    gives (.tileLoad l) loaded (fun t => (planeAt t 3 1).loaded && (planeAt t 3 1).k == 1) = true ∧
    waits (.tileSwap ctx) loaded = true ∧ (tileSwapRun ctx).turn full = true ∧ inUsePlane full 3 ≤ 1 ∧
    gives (.tileSwap ctx) full (fun t => inUsePlane t 3 == 1) = true ∧
    (planeAt loaded 3 (inUsePlane loaded 3)).n = 0 ∧ (waveRun w).refusal loaded = none ∧ waits (.trellisWave w) loaded = true ∧
    (planeAt use 3 (inUsePlane use 3)).n ≠ 0 ∧ waveFault use { w with column := true } = some 87 ∧
    waveFault use { w with r := 1 } = some 83 ∧ runs (waveRun w) use = true ∧
    aborts (.trellisWave { w with ctx := bad }) use = true ∧
    SMap.get [] loaded.cores.foot 3 = [] ∧ (drainRun (d true)).refusal loaded = none ∧
    waits (.drainResult (d true)) loaded = true ∧
    drainFault foot { d true with out := ⟨tensor .int32 0x200 2 2, none⟩ } = some 68 ∧
    runs (drainRun (d true)) foot = true ∧ runs (drainRun (d false)) foot = true ∧
    isFp8 (d true).out.t.fmt = false ∧ convDraws (d true).out.conv = 0 ∧
    gives (.drainResult (d true)) foot (fun t => Mem.read 0 t.cores.scratch (2 ^ 24 * 3 + 0x200) 8 ==
      leBytes 4 0x40C00000 ++ leBytes 4 0x40C00000) = true ∧
    gives (.drainResult (d false)) foot (fun t => read32 t ⟨.drain 3, 0⟩ 32 == List.replicate 32 0x40C00000) = true := by
  decide +kernel

/-- A wave that is struck: 2 × 3 = 6 in column 0, the checker sees a fault in column 1. A pass of a pruned tap is not streamed,
and yields +0. -/
theorem meets_TrellisFeedsTheDrain_wave :
    let l : TileLoadCmd := ⟨ctx, tensor .e4m3 0 1 1, 1, 1, true, false, false⟩
    let w (flip : List (Fin 33 × U32)) : WaveCmd := ⟨ctx, .tensor (tensor .e4m3 0x40 1 1), 0, false, false, 9, flip⟩
    let use : State := match exec (.tileLoad l) loaded with
      | .next t => queued { t with cores := { t.cores with planeInUse := [(3, 1)] } }
      | _ => loaded
    let idle : WaveCmd := { w [] with x := .window 0 0 }
    let pruned : State := { use with cores := { use.cores with window := [(3, ⟨.e4m3, [[⟨0, 127, true⟩]]⟩)] } }
    waveFault use (w []) = none ∧ (waveRun (w [])).can use = true ∧
    gives (.trellisWave (w [])) use (fun t => ((SMap.get [] t.cores.foot 3).map fun e => e.outs.take 2) == [[0x40C00000, 0]]) =
      true ∧
    gives (.trellisWave (w [(1, 0x4B000000)])) use (fun t => t.status.counts.mismatches == 1 &&
      (t.job.map Job.phase) == some .aborted && (SMap.get Event.none t.status.events 0).detail == 9) = true ∧
    runs (waveRun idle) pruned = true ∧ passIdle pruned idle = true ∧
    gives (.trellisWave idle) pruned (fun t => ((SMap.get [] t.cores.foot 3).map fun e => e.outs) == [List.replicate 32 0]) =
      true := by decide +kernel

/-! ### Engines -/

/-- A BF16 or FP32 tensor in core 3's scratchpad. -/
def plain (f : Fmt) (addr n : Nat) : Tensor := ⟨⟨.scratch 3, addr⟩, f, n, ⟨.scratch 3, 0x900⟩, n⟩

/-- A stream without a conversion. -/
def raw (t : Tensor) : InStream := ⟨t, none, false⟩

/-- `loaded`, where group 0 of core 3's scratchpad is blocked, HBM may be written at 0x3000, and two hand-off regions of two
slots of a line lead from the stream engine to the Trellis, and from the drain to the stream engine. -/
def engines : State :=
  { loaded with job := some { job .inStep with image := { image with
      shadowAreas := [(3, 0x20000)], tokenAreas := [(3, 0x30000), (4, 0x30000)], blocked := [(3, 0)]
      stepRanges := [⟨0x3000, 0x1000⟩]
      regions := [⟨3, 0, 2, .handOff .stream .trellis 1⟩, ⟨3, 2, 2, .handOff .drain .stream 1⟩] } } }

/-- Two output positions of a window of one element. -/
def oneDim : WindowDim := ⟨2, 1, 1, 1, 1, 0, 0⟩

def windowOf (column : Bool) : WindowCmd :=
  ⟨ctx, [oneDim], 1, 0, 1, 1, tensor .e4m3 0 64 32, false, column, false, ⟨0, []⟩, 0⟩

def lodgeOf : LodgeCmd :=
  ⟨ctx, 0, false, false, [{ oneDim with i := 1 }], 1, 0, 1, plain .bf16 0 1, true, 1, plain .bf16 0x40 1, none, .relu, none,
    ⟨plain .bf16 0x80 1, some ⟨.ne, true, .computed⟩⟩⟩

def groomOf (home : GroomHome) : GroomCmd :=
  ⟨ctx, .g8, .sequence 1 64, [(0, 1), (0, 64)], home, 0x3000, plain .bf16 0 64, List.replicate 64 0⟩

def attnOf (form : AttnForm) : AttnCmd :=
  ⟨ctx, form, 32, 1, 1, 0x3F800000, .bidirectional, 0, .bf16, plain .bf16 0 32, plain .bf16 0x100 32, plain .bf16 0x200 32,
    ⟨plain .fp32 0x300 32, none⟩, none⟩

def attnBackOf (form : AttnForm) : AttnBackCmd :=
  ⟨ctx, form, 32, 1, 1, 0x3F800000, .bidirectional, 0, .bf16, .bf16, plain .bf16 0 32, plain .bf16 0x100 32,
    plain .bf16 0x200 32, plain .bf16 0x400 32, plain .bf16 0x500 32, ⟨.scratch 3, 0x600⟩, ⟨plain .fp32 0x700 32, none⟩,
    ⟨plain .fp32 0xA00 32, none⟩, ⟨plain .fp32 0xB00 32, none⟩⟩

/-- One packed query and key of segment 0, or a table of one entry at 0x1000 that names no slot. -/
def packedForm : AttnForm := .packed ⟨.scratch 3, 0xC00⟩ ⟨.scratch 3, 0xC00⟩
def tableForm : AttnForm := .table ⟨.scratch 3, 0x1000⟩ 1 0

set_option maxRecDepth 100000 in
theorem meets_EngineOperationsComplete :
    let s := engines
    let add (n : Nat) (c : OpCtx) : StreamCmd :=
      ⟨c, .ew .add [raw (plain .fp32 0 2), raw (plain .fp32 0x40 2)] ⟨plain .fp32 0x80 n, none⟩⟩
    let bad : OpCtx := { ctx with uncorrectable := true }
    let gather : StreamCmd := ⟨ctx, .gather ⟨.scratch, .affine ⟨0xA00000, []⟩⟩ (raw (plain .fp32 0 2)) ⟨plain .fp32 0x80 1, none⟩⟩
    let p : State := { s with hbm := { s.hbm with poison := [(0x180, true)] } }
    waits (.streamOperation (add 2 ctx)) running = true ∧ waits (.groomedStore (groomOf .own)) running = true ∧
    streamFault s ctx (add 1 ctx).op = some 114 ∧ refusedBy (.streamOperation (add 1 ctx)) s 114 = true ∧
    runs (streamRun (add 2 ctx)) s = true ∧ (streamRun gather).turn s = true ∧ (streamRun gather).refusal s = none ∧
    (streamRun gather).can s = true ∧ (streamRun (add 2 bad)).can s = true ∧
    gives (.streamOperation (add 2 bad)) s (fun t => (t.job.map Job.phase) == some .aborted) = true ∧
    gives (.streamOperation gather) s (fun t => t.job == none && t.status.status == 0x0200) = true ∧
    gives (.streamOperation (add 2 ctx)) s (fun t => t.cores.scratch != s.cores.scratch) = true ∧
    windowFault s { windowOf false with channels := 0 } = some 149 ∧ runs (windowRun (windowOf false)) s = true ∧
    refusedBy (.windowGather { windowOf false with channels := 0 }) s 149 = true ∧
    gives (.windowGather (windowOf false)) s (fun t => t.cores.window != s.cores.window) = true ∧
    lodgeFault s { lodgeOf with pixelClass := false } = some 167 ∧ runs (lodgeRun lodgeOf) s = true ∧
    refusedBy (.lodgeOperation { lodgeOf with pixelClass := false }) s 167 = true ∧
    gives (.lodgeOperation lodgeOf) s (fun t => t.cores.lodge != s.cores.lodge) = true ∧
    groomStoreFault s { groomOf .own with base := 1 } = some 173 ∧ runs (groomStoreRun (groomOf .own)) s = true ∧
    refusedBy (.groomedStore { groomOf .own with base := 1 }) s 173 = true ∧
    refusedBy (.groomedStore { groomOf .own with base := 0x5000 }) s 240 = true ∧
    gives (.groomedStore (groomOf .own)) s (fun t => t.hbm.dev != s.hbm.dev) = true ∧
    runs (groomStoreRun (groomOf (.peer 1))) s = true ∧
    gives (.groomedStore (groomOf (.peer 1))) s (fun t => t.sent.length == 1) = true ∧
    groomLoadFault s { groomOf .own with base := 1 } = some 173 ∧ (groomLoadRun (groomOf .own)).can p = false ∧
    refusedBy (.groomedLoad { groomOf .own with base := 1 }) s 173 = true ∧ waits (.groomedLoad (groomOf .own)) p = true ∧
    runs (groomLoadRun (groomOf .own)) s = true ∧ runs (groomLoadRun (groomOf (.peer 1))) s = true := by decide +kernel

set_option maxRecDepth 100000 in
theorem meets_EngineOperationsComplete_attention :
    let s := engines
    let bad : State := { s with cores := { s.cores with scratch := [(2 ^ 24 * 3 + 0x1002, 0xFF), (2 ^ 24 * 3 + 0x1003, 0xFF),
      (2 ^ 24 * 3 + 0x100C, 1)] } }
    let far : State := { s with cores := { s.cores with scratch := [(2 ^ 24 * 3 + 0x1002, 0xFF), (2 ^ 24 * 3 + 0x1003, 0xFF),
      (2 ^ 24 * 3 + 0x1008, 2)] } }
    attnFault s { attnOf packedForm with dim := 31 } = some 201 ∧ runs (attnRun (attnOf packedForm)) s = true ∧
    attnBackFault s { attnBackOf packedForm with dim := 31 } = some 201 ∧
    runs (attnBackRun (attnBackOf packedForm)) s = true ∧
    refusedBy (.fusedAttention { attnOf packedForm with dim := 31 }) s 201 = true ∧
    (attnRun (attnOf tableForm)).refusal bad = none ∧ (attnRun (attnOf tableForm)).can bad = true ∧
    (attnRun (attnOf tableForm)).stop bad = some (0x0603, 0) ∧
    (attnBackRun (attnBackOf tableForm)).refusal bad = none ∧ (attnBackRun (attnBackOf tableForm)).can bad = true ∧
    (tableEntries bad tableForm)[0]? = some ⟨1, 0, 0, 0xFFFF⟩ ∧ entryBad bad 9 ⟨1, 0, 0, 0xFFFF⟩ = true ∧
    gives (.fusedAttention (attnOf tableForm)) bad (fun t => t.job == none && t.status.status == 0x0603) = true ∧
    gives (.attentionBackward (attnBackOf tableForm)) bad (fun t => t.status.status == 0x0603) = true ∧
    gives (.fusedAttention (attnOf tableForm)) far (fun t => t.status.status == 0x0201) = true ∧
    tableWaits s ctx packedForm = false ∧
    (let w : State := { far with
       kv := { far.kv with edits := [(0, 0)] }
       cores := { far.cores with scratch := [(2 ^ 24 * 3 + 0x1008, 1)] } }
     tableWaits w ctx tableForm = true ∧ (attnRun (attnOf tableForm)).refusal w = none ∧
     (attnBackRun (attnBackOf tableForm)).refusal w = none ∧
     waits (.fusedAttention (attnOf tableForm)) w = true ∧ waits (.attentionBackward (attnBackOf tableForm)) w = true) ∧
    gives (.fusedAttention (attnOf packedForm)) s (fun t => t.status == s.status) = true ∧
    gives (.attentionBackward (attnBackOf packedForm)) s (fun t => t.status == s.status) = true := by
  decide +kernel

set_option maxRecDepth 100000 in
theorem meets_EngineResults :
    let s : State := { engines with cores := { engines.cores with
      scratch := [(2 ^ 24 * 3, 0x40), (2 ^ 24 * 3 + 3, 0x40), (2 ^ 24 * 3 + 0x42, 0x80), (2 ^ 24 * 3 + 0x43, 0x3F)] } }
    let c (n : Nat) (x : Loc) (out : Loc) : StreamCmd :=
      ⟨ctx, .ew .add [raw { plain .fp32 0 n with loc := x }, raw (plain .fp32 0x40 n)] ⟨{ plain .fp32 0 n with loc := out }, none⟩⟩
    let here : Loc := ⟨.scratch 3, 0⟩
    let there : Loc := ⟨.scratch 3, 0x80⟩
    let ring (k : Nat) : Loc := ⟨.ring 3 k, 0⟩
    let full : State := { s with cores := { s.cores with rings := [(1, ⟨1, 0, [], []⟩)], drain := [(2 ^ 16 * 3 + 0x103, 0x40)] } }
    EwOp.add ≠ .copy ∧ isCompare .add = false ∧ runs (streamRun (c 1 here there)) s = true ∧
    gives (.streamOperation (c 1 here there)) s (fun t => tensorCode t (plain .fp32 0x80 1) 0 == 0x40400040) = true ∧
    runs (streamRun (c 32 here (ring 0))) s = true ∧ regionAt s 0 = some ⟨3, 0, 2, .handOff .stream .trellis 1⟩ ∧
    slotCount ⟨3, 0, 2, .handOff .stream .trellis 1⟩ = 2 ∧ SMap.wf Ring.empty s.cores.rings = true ∧
    gives (.streamOperation (c 32 here (ring 0))) s (fun t => (ringAt t 0).filled == 1 && (ringAt t 0).waiting == [] &&
      Mem.read 0 t.cores.drain (2 ^ 16 * 3) 4 == [0x40, 0, 0x40, 0x40]) = true ∧
    waits (.streamOperation (c 1 (ring 1) there)) s = true ∧ runs (streamRun (c 1 (ring 1) there)) full = true ∧
    gives (.streamOperation (c 1 (ring 1) there)) full (fun t => tensorCode t (plain .fp32 0x80 1) 0 == 0x40400000 &&
      (ringAt t 1).taken == 1 && (ringAt t 1).intake.length == 124) = true ∧
    refusedBy (.streamOperation (c 1 (ring 0) there)) s 113 = true ∧
    runs (windowRun (windowOf false)) s = true ∧ runs (windowRun (windowOf true)) s = true ∧
    SMap.wf ⟨.e4m3, []⟩ s.cores.window = true ∧
    gives (.windowGather (windowOf false)) s (fun t => (SMap.get ⟨.e4m3, []⟩ t.cores.window 3).vecs.length == 2) = true ∧
    gives (.windowGather (windowOf true)) s (fun t =>
      ((SMap.get ⟨.e4m3, []⟩ t.cores.window 3).vecs.map List.length) == [2]) = true ∧
    runs (groomStoreRun (groomOf .own)) s = true ∧ (groomOf .own).home = .own ∧ partBlocks (groomOf .own) = [0] ∧
    runs (groomLoadRun (groomOf .own)) s = true ∧ (groomOf .own).elems.fmt = .bf16 ∧
    ((decodeAll (groomOf .own) (readBlocks s (groomOf .own)))[0]?).isSome = true := by decide +kernel

/-- A halo of two slots from core 3 to core 4. -/
def halo : HaloBuf := ⟨3, 4, 2, 0x100, 2, 0, 8⟩

theorem meets_HaloUsesAlternate :
    let s := loaded
    let row : HaloRow := ⟨0, false⟩
    let got (sent : Nat) (ready ack : Byte) : State := { s with cores := { s.cores with
      haloSent := [(haloKey halo, sent)]
      scratch := [(2 ^ 24 * 3, 0x40), (2 ^ 24 * 3 + 0x30000 + 64 + 4, ack), (2 ^ 24 * 4 + 0x30000 + 4, ready)] } }
    let behind (u : State) : State := { u with cores := { u.cores with ctl := [(3, { CoreCtl.fresh with branches := [2] })] } }
    acts s 1 = true ∧ haloFault s { halo with slots := 0 } 1 = some 158 ∧ haloFault s halo 0 = some 160 ∧
    refusedBy (.haloSend 1 { halo with slots := 0 } 1 row) s 158 = true ∧ refusedBy (.haloReady 1 halo 0) s 160 = true ∧
    haloFault s halo 1 = none ∧ haloFault s halo 3 = none ∧ (tokenBase s 3).isSome = true ∧ (tokenBase s 4).isSome = true ∧
    spanFault s ⟨.scratch 3, 0⟩ 2 = none ∧ branchOpen s 3 = false ∧ branchOpen s 4 = false ∧
    gives (.haloSend 1 halo 1 row) s (fun t => Mem.get 0 t.cores.scratch (2 ^ 24 * 4 + 0x100) == 0x40 && lastSent t halo == 1) =
      true ∧
    waits (.haloSend 1 halo 1 row) (behind s) = true ∧ waits (.haloReady 1 halo 1) s = true ∧
    gives (.haloSend 1 halo 1 ⟨0, true⟩) s (fun t => t.sent == [.send .stepAbort]) = true ∧
    gives (.haloReady 1 halo 1) (got 1 0 0) (fun t => Mem.get 0 t.cores.scratch (2 ^ 24 * 4 + 0x30000 + 4) == 1) = true ∧
    waits (.haloSend 1 halo 3 row) (got 2 0 0) = true ∧ waits (.haloSend 1 halo 3 row) s = true ∧
    gives (.haloSend 1 halo 3 row) (got 2 1 1) (fun t => Mem.get 0 t.cores.scratch (2 ^ 24 * 4 + 0x100) == 0x40) = true ∧
    gives (.haloAck 1 halo 1) (got 1 1 0) (fun t => Mem.get 0 t.cores.scratch (2 ^ 24 * 3 + 0x30000 + 68) == 1) = true ∧
    waits (.haloAck 1 halo 1) s = true := by decide +kernel

theorem meets_CheckValuesFollowTheTable : acts (busy .inStep) 1 = true ∧ branchOpen (busy .inStep) 3 = false := by
  decide +kernel

theorem meets_CheckUnitsHoldOneComputation :
    let s := busy .inStep
    let u : CvUnit := .core 3 1
    let opened := { s with cores := { s.cores with cv := [(3, ⟨.crc32c, 0xFFFFFFFF, true, 0, some 1⟩)] } }
    let closed := { s with cores := { s.cores with cv := [(3, ⟨.crc32c, 0, false, 0, some 1⟩)] } }
    let held := { opened with cores := { opened.cores with ctl := [(3, { CoreCtl.fresh with branches := [2] })] } }
    SMap.wf CvState.reset s.cores.cv = true ∧ SMap.wf CvState.reset opened.cores.cv = true ∧
    acts (busy .boundary) 1 = false ∧ stays (.cvSelect u .crc32) (busy .boundary) = true ∧
    { s with controllers := { s.controllers with firmware := false } }.controllers.firmware = false ∧
    acts s 1 = true ∧ s.controllers.firmware = true ∧ (cvOf opened u).opened = true ∧
    waits (.cvFeed u (.byte 1)) held = true ∧ refusedBy (.cvFeed (.core 3 0) (.byte 1)) opened 353 = true ∧
    gives (.cvFeed u (.half 0x3231)) opened (fun t => (cvOf t u).reg != 0xFFFFFFFF) = true ∧
    gives (.cvRead u) opened (fun t => !(cvOf t u).opened) = true ∧
    (cvOf closed u).opened = false ∧ stays (.cvFeed u (.byte 1)) closed = true ∧
    gives (.cvSelect .controllerA .crc16) s (fun t => (cvOf t .controllerA).reg == 0xFFFF) = true := by decide +kernel

/-! ### The cache and the Gatehouse -/

def cacheDecl : CacheDecl := ⟨1, 32, 1, .e4m3, 4, 8, 0, false, 0x100000, 0x200000, 0x300000, 0x10000⟩

/-- Slot 0 is FREE, slot 1 ACTIVE with no page and one reserved, slot 2 ACTIVE with one token in page 2, slot 3 at its length
limit; admission records: at 0x1000 one of 1 token up to 256 in slot 0, at 0x1100 one for slot 1. -/
def cacheBytes : Mem :=
  Mem.block 0 0x100E [0, 0, 0, 1, 0, 0, 1] ++ Mem.block 0 0x110E [1] ++
  Mem.block 0 (0x10000 + 8256) (leBytes 4 0 ++ leBytes 4 0 ++ leBytes 4 256 ++ leBytes 4 1 ++ leBytes 2 1) ++
  Mem.block 0 (0x10000 + 8256 + 64) (leBytes 4 0xFFFFFFFF) ++
  Mem.block 0 (0x10000 + 2 * 8256) (leBytes 4 0 ++ leBytes 4 1 ++ leBytes 4 256 ++ leBytes 4 0 ++ leBytes 2 1) ++
  Mem.block 0 (0x10000 + 2 * 8256 + 64) (leBytes 8 0xFFFFFFFF00000002) ++
  Mem.block 0 (0x10000 + 3 * 8256 + 16) [2]

def cacheImage : Image :=
  { image with cache := some cacheDecl, heldWritten := [⟨0x10000, 0x10000⟩, ⟨0x100000, 0x300000⟩] }

def caching (edits : List (Nat × U32)) (snaps : List Snapshot) : State :=
  { busy .inStep with
    job := some { job .inStep with image := cacheImage }
    kv := ⟨[(9, 2)], [(2, 1)], [3, 4], snaps, edits, [], 7, none⟩
    hbm := { ready.hbm with dev := cacheBytes } }

/-- A job without a cut withholds nothing. -/
theorem meets_no_cut (o : U32) : withheld loaded o = false ∧ withheld (caching [] []) o = false := by
  have h : Desc.hasCut desc = false := by decide +kernel
  simp [withheld, loaded, queued, running, caching, busy, job, h]

set_option maxRecDepth 100000 in
theorem meets_CacheSlotsAreEditedAndPublished :
    let s := caching [] []
    let edited := caching [(0, 1), (1, 1), (2, 1)] []
    let rec' (slot : Nat) : AppendRecord := ⟨slot, [7], [[(List.replicate 32 1, List.replicate 32 2, [3], [4])]]⟩
    let append (slot : Nat) : Instr := .append ⟨9, [rec' slot]⟩
    let enter (rs : List Nat) : Instr := .admission 9 (.built rs)
    let free (slot : Nat) : Instr := .release 9 [slot]
    let below := { s with job := some { job .inStep with image := { cacheImage with programs := [⟨16, [⟨3, .cache, 1⟩], []⟩] } } }
    let took := { s with job := some { job .inStep with image := cacheImage, taken := [[0x1100]] } }
    let bare := { s with job := some { job .inStep with image := { cacheImage with heldWritten := [] } } }
    cacheOf s = some cacheDecl ∧ SMap.wf 0 s.kv.refs = true ∧ acts s 9 = true ∧ cacheFault s cacheDecl = none ∧
    cacheFault bare cacheDecl = some 240 ∧ refusedBy (enter [0x1000]) bare 240 = true ∧
    cacheTurn s 9 = true ∧ cacheTurn below 9 = false ∧ waits (enter [0x1000]) below = true ∧ waits (append 1) below = true ∧
    waits (free 2) below = true ∧ gives (.admission 9 (.host 0)) took (fun t => devNat t 0x1106 2 == 1) = true ∧
    admitStatus s cacheDecl (readAdmit s 0x1000) = 0 ∧ admitStatus s cacheDecl (readAdmit s 0x1100) = 1 ∧
    admitStatus { s with kv := { s.kv with freeQ := [3] } } cacheDecl (readAdmit s 0x1000) = 3 ∧
    gives (enter [0x1100]) s (fun t => t.kv.result == 1 && devNat t 0x1106 2 == 1 && t.ended == [(9, 1)]) = true ∧
    gives (enter [0x1100, 0x1000]) s (fun t => devNat t 0x1106 2 == 1 && slotStatus t cacheDecl 0 == 1) = true ∧
    gives (enter [0x1100, 0x1000]) edited (fun t => devNat t 0x1106 2 == 1 && t.stalled == [enter [0x1000]]) = true ∧
    editPending edited 0 = true ∧ waits (enter [0x1000]) edited = true ∧ editPending s 0 = false ∧
    0x1000 + 32 ≤ slotAddr cacheDecl (readAdmit s 0x1000).slot ∧
    gives (enter [0x1000]) s (fun t => t.kv.result == 0 && slotStatus t cacheDecl 0 == 1 &&
      slotReserved t cacheDecl 0 == 1) = true ∧
    slotStatus s cacheDecl 0 = 0 ∧ gives (append 0) s (fun t => t.kv.result == 5) = true ∧
    slotStatus s cacheDecl 3 = 2 ∧ gives (append 3) s (fun t => t.kv.result == 4) = true ∧
    slotStatus s cacheDecl 1 = 1 ∧ waits (append 1) edited = true ∧
    (let w := caching [] [⟨3, 1, 2, 0, [3]⟩]
     (w.kv.freeQ.take 1).any (pagePending w.kv) = true ∧ waits (append 1) w = true) ∧
    appendCount s cacheDecl (rec' 1) = 1 ∧ appendPages 0 1 = 1 ∧ slotReserved s cacheDecl 1 = 1 ∧
    (s.kv.freeQ.take 1).any (pagePending s.kv) = false ∧ editPending s 1 = false ∧
    gives (append 1) s (fun t => t.kv.result == 0 && t.kv.freeQ == [4] && slotLen t cacheDecl 1 == 1) = true ∧
    gives (free 0) s (fun t => t.kv.result == 5) = true ∧ waits (free 2) edited = true ∧
    slotStatus s cacheDecl 2 = 1 ∧ editPending s 2 = false ∧ (livePages s cacheDecl 2).Nodup ∧
    gives (free 2) s (fun t => t.kv.freeQ == [3, 4, 2] && t.kv.index == [] && slotStatus t cacheDecl 2 == 0) = true := by
  decide +kernel

theorem meets_CacheSlotsAreEditedAndPublished_snapshots :
    let s := caching [] []
    let edited := caching [(0, 1), (1, 1), (2, 1)] []
    let snap : Snapshot := ⟨3, 1, 1, 0, [2]⟩
    let held := caching [(1, 2)] [⟨3, 1, 1, 0, [3]⟩]
    acts s 9 = true ∧ kindEnded s .cache 9 = true ∧ waits (.walkerSnapshot 3 9 1 1) edited = true ∧
    gives (.walkerSnapshot 3 9 2 1) s (fun t => t.kv.snaps == [⟨3, 9, 2, 0, [2]⟩]) = true ∧
    (caching [] [snap]).kv.snaps = [] ++ snap :: [] ∧ isSnap 3 1 1 snap = true ∧
    gives (.snapshotRelease 3 1 1) (caching [] [snap]) (fun t => t.kv.snaps == []) = true ∧
    isSnap 3 2 1 snap = false ∧ stays (.snapshotRelease 3 2 1) (caching [] [snap]) = true ∧
    edited.kv.edits.find? (fun e => e.1 == 2) = some (2, 1) ∧ kindEnded edited .walker 1 = true ∧ edited.kv.snaps = [] ∧
    gives (.cachePublish 2) edited (fun t => t.kv.edits == [(0, 1), (1, 1)] && slotGen t cacheDecl 2 == 1) = true ∧
    held.kv.edits.find? (fun e => e.1 == 1) = some (1, 2) ∧ canPublish held 1 2 = false ∧
    waits (.cachePublish 1) held = true ∧ stays (.cachePublish 0) s = true := by decide +kernel

/-- A text channel of one row of 4 tokens. -/
def textCfg : BitVec 1024 := BitVec.ofNat 1024 (4 * 2 ^ 192 + 2 ^ 224 + 2 * 2 ^ 304 + 4096 * 2 ^ 320 + 2 ^ 352)

/-- A sample descriptor under its check value; `extra` is added to its fields. -/
def sampleOf (len slot : Nat) (last : Bool) (alive : Nat) (bytes : List Byte) (extra : Nat) : BitVec 512 :=
  let d := 0x1000 * 2 ^ 64 + len * 2 ^ 128 + slot * 2 ^ 160 + (if last then 2 ^ 240 else 0) + alive * 2 ^ 248 +
    (crc32c bytes).toNat * 2 ^ 384 + extra
  BitVec.ofNat 512 (d + (guardedValue (leBytes 60 d) 0x53 (BitVec.ofNat 8 alive)).toNat * 2 ^ 480)

/-- A reserve list record of one entry (7) for a batch. -/
def recordOf (batch : Nat) : BitVec 512 :=
  let r := 7 + batch * 2 ^ 256 + 2 ^ 320
  BitVec.ofNat 512 (r + (guardedValue (leBytes 59 r) 0x4C 0).toNat * 2 ^ 480)

/-- The bytes "ab", and a sample of them in two tokens: "a" is token 5 of the dictionary. -/
def ab : List Byte := [0x61, 0x62]
def good : BitVec 512 := sampleOf 2 2 false 0 ab 0

/-- A dictionary image of one entry. -/
def dictImage : Mem :=
  Mem.block 0 0x4000 (leBytes 4 0x49444847 ++ leBytes 4 1 ++ leBytes 4 0x100 ++ leBytes 4 1) ++
  Mem.block 0 0x4040 [5, 0, 0, 0, 1, 0x61]

/-- Step 5 with the channel on, one descriptor published; `f` changes the channel. -/
def feeding (loaded : Bool) (f : GhChan → GhChan) : State :=
  let c := f { freshChan textCfg 0 (9, 0) with ctrl := 0x8000, ringLog := 4 }
  { busy .inStep with
    job := some { job .inStep with
      desc := BitVec.ofNat 2048 (desc.toNat + 0x4000 * 2 ^ 320), channels := [textCfg]
      image := { image with batch := some ⟨0x40000, 0x1000, [0], 0x50000⟩ } }
    gatehouse := ⟨[c], [⟨5, [0x61]⟩], 0x100, loaded, false, false⟩
    hbm := { ready.hbm with dev := dictImage } }

/-- The channel with one sample placed in its row. -/
def placing (d : BitVec 512) (awaiting : Bool) (c : GhChan) : GhChan :=
  { c with samples := [⟨d, some 0, awaiting, !awaiting, none⟩], occ := [Samp.slotLen d], cnt := [1], ended := true,
           reserve := some [7] }

set_option maxRecDepth 100000 in
theorem meets_GatehouseBuildsBatches_descriptors :
    let s := feeding true id
    let j := (s.job).getD (job .inStep)
    let c := getChan s 0
    let count (i : Nat) (t : State) : Nat := nthD 0 (getChan t 0).tally i
    let last := feeding true fun c => { c with ended := true }
    let took (d : BitVec 512) (u : State) (p : State → Bool) : Bool :=
      gives (.sampleDescriptor 0 d) u fun t => (getChan t 0).taken == 1 && p t
    ghRuns s = true ∧ usesDict j = true ∧ stays .dictionaryLoad s = true ∧
    parseDict (devRead s 0x4000 64) (devRead s 0x4040 6) = some ([⟨5, [0x61]⟩], 0x100) ∧
    dictExtent s (Desc.dictAddr j.desc) - 64 = 6 ∧
    gives .dictionaryLoad (feeding false id) (fun t => t.gatehouse.loaded) = true ∧
    mayTake s j c = true ∧ mayTake last j (getChan last 0) = false ∧ stays (.sampleDescriptor 0 good) last = true ∧
    ghRuns (busy .held) = false ∧ stays (.sampleDescriptor 0 good) (busy .held) = true ∧
    0 < s.gatehouse.chans.length ∧ c.tally.length = 12 ∧
    descOk (good + 1) = false ∧ took (good + 1) s (fun t => count 0 t == 1 && (getChan t 0).occ == [0]) = true ∧
    descOk (sampleOf 2 5 false 0 ab 0) = true ∧ slotLenBad c (sampleOf 2 5 false 0 ab 0) = true ∧
    took (sampleOf 2 5 false 0 ab 0) s (fun t => count 4 t == 1) = true ∧
    (let full := feeding true fun c => { c with occ := [3] }
     placeRow (getChan full 0) 2 = none ∧ took good full (fun t => count 8 t == 1) = true) ∧
    descOk good = true ∧ slotLenBad c good = false ∧ Samp.slotLen good = 2 ∧ placeRow c 2 = some 0 ∧
    (aliveStep good c).1 = true ∧ descCause 0 c false true good = none ∧
    took good s (fun t => count 0 t == 0 && (getChan t 0).occ == [2]) = true ∧
    (let late := feeding true fun c => { c with descSet := true, descAlive := 3 }
     (aliveStep good (getChan late 0)).1 = false ∧ descCause 0 (getChan late 0) false false good = some .alive ∧
     took good late (fun t => count 1 t == 1 && (getChan t 0).occ == [2]) = true) ∧
    chanOn c = true ∧ (getChan last 0).ended = true ∧ (getChan last 0).reserve = none ∧
    (acceptRecord (recordOf 0) (getChan last 0)).1 = true ∧
    gives (.reserveListRecord 0 (recordOf 0)) last (fun t => (getChan t 0).reserve == some [7] && count 9 t == 0) = true ∧
    gives (.reserveListRecord 0 (recordOf 1)) last (fun t => (getChan t 0).reserve == some [] && count 9 t == 1) = true ∧
    stays (.reserveListRecord 0 (recordOf 0)) (busy .held) = true := by decide +kernel

set_option maxRecDepth 100000 in
theorem meets_GatehouseBuildsBatches_bytes :
    let short := sampleOf 2 1 false 0 ab 0
    let wait := feeding true (placing good true)
    let waitShort := feeding true (placing short true)
    let open' := feeding true (placing good false)
    let openShort := feeding true (placing short false)
    let c := getChan wait 0
    let count (i : Nat) (t : State) : Nat := nthD 0 (getChan t 0).tally i
    ghRuns wait = true ∧ nextPending c = some 0 ∧ (c.samples[0]?.map Sample.awaiting) = some true ∧
    (getChan open' 0).samples[0]? = some ⟨good, some 0, false, true, none⟩ ∧ nextPending (getChan open' 0) = some 0 ∧
    decodeSample 0 wait c good none = .odd .check ∧
    gives (.sampleBytesArrive 0 none) wait (fun t => count 0 t == 1) = true ∧
    decodeSample 0 wait c good (some ab) = .good (.tokens [5, 0x162]) 2 3 Tally.zero ∧ 2 ≤ Samp.slotLen good ∧
    gives (.sampleBytesArrive 0 (some ab)) wait (fun t =>
      (getChan t 0).samples == [⟨good, some 0, false, false, some (.tokens [5, 0x162])⟩]) = true ∧
    decodeSample 0 waitShort (getChan waitShort 0) short (some ab) = .good (.tokens [5, 0x162]) 2 3 Tally.zero ∧
    Samp.slotLen short < 2 ∧ gives (.sampleBytesArrive 0 (some ab)) waitShort (fun t => count 4 t == 1) = true ∧
    stays (.reserveEntry 0 good (some ab)) wait = true ∧ stays (.sampleBytesArrive 0 (some ab)) open' = true ∧
    descCause 0 (getChan open' 0) true true (good + 1) = some .check ∧
    gives (.reserveEntry 0 (good + 1) none) open' (fun t => count 0 t == 1 && (getChan t 0).used == 1) = true ∧
    descCause 0 (getChan open' 0) true true good = none ∧
    gives (.reserveEntry 0 good none) open' (fun t => count 0 t == 1 && (getChan t 0).used == 1) = true ∧
    gives (.reserveEntry 0 good (some ab)) open' (fun t => count 7 t == 1 && nextPending (getChan t 0) == none) = true ∧
    descCause 0 (getChan openShort 0) true true good = none ∧
    gives (.reserveEntry 0 good (some ab)) openShort (fun t => count 7 t == 0 && nextPending (getChan t 0) == none) = true := by
  decide +kernel

set_option maxRecDepth 100000 in
theorem meets_GatehouseBuildsBatches_batches :
    let done := feeding true fun c => { c with
      samples := [⟨good, some 0, false, false, some (.tokens [5, 0x162])⟩], occ := [2], cnt := [1], ended := true, taken := 1
      reserve := some [], tally := [1, 0, 0, 0, 0, 0, 0, 0, 0, 0, 0, 0] }
    let again := feeding true fun c => { getChan done 0 with built := 1, saved := c.saved }
    let built := feeding true fun c => { c with batch := 1, saved := c.saved ++ [chanBlock { c with batch := 1 }] }
    let due : State := { built with gatehouse := { built.gatehouse with rebuilding := true } }
    let j := (done.job).getD (job .inStep)
    let c := getChan done 0
    ghRuns done = true ∧ chanOn c = true ∧ c.ended = true ∧ c.reserve ≠ none ∧ nextPending c = none ∧
    j.image.batch = some ⟨0x40000, 0x1000, [0], 0x50000⟩ ∧ SMap.wf 0 done.status.gh = true ∧ batchStep j c = 5 ∧
    sectionAddr ⟨0x40000, 0x1000, [0], 0x50000⟩ 5 0 = 0x41000 ∧
    sectionBytes c = leBytes 4 5 ++ leBytes 4 0x162 ++ leBytes 8 (2 ^ 64 - 1) ++ leBytes 4 0 ++ leBytes 4 1 ++
      leBytes 8 0xFFFF0000FFFF0000 ∧
    gives (.batchComplete 0) done (fun t => devRead t 0x41000 8 == leBytes 4 5 ++ leBytes 4 0x162 &&
      (getChan t 0).batch == 1 && SMap.get 0 t.status.gh 0 == 1) = true ∧
    gives (.batchComplete 0) again (fun t => SMap.get 0 t.status.gh 0 == 0) = true ∧
    stays (.batchComplete 0) (busy .held) = true ∧ stays .batchRebuild (busy .held) = true ∧
    inStep built = true ∧ batchReady built j 5 = true ∧ refreshHolds built 5 = false ∧ SMap.wf 0 built.hbm.stamps = true ∧
    gives .gatehouseStatePage built (fun t => SMap.get 0 t.hbm.stamps 5 == 5 && devNat t 0x50008 8 == 1) = true ∧
    batchReady done j 5 = false ∧ stays .gatehouseStatePage done = true ∧ stays .batchRebuild done = true ∧
    gives .batchRebuild due (fun t => !t.gatehouse.rebuilding && (getChan t 0).batch == 0) = true ∧
    (let paged : State := { due with gatehouse := { due.gatehouse with fromPage := true } }
     stays .batchRebuild paged = true ∧
     gives .batchRebuild { paged with job := paged.job.map fun j => { j with phase := .boundary } }
       (fun t => !t.gatehouse.rebuilding) = true) := by decide +kernel

theorem meets_CanonicalStoresStay :
    State.reset.canonical = true ∧ (loaded.canonical = true ∧
      gives (.tileLoad ⟨ctx, tensor .e4m3 0 1 1, 1, 1, true, false, false⟩) loaded (fun t => t.canonical) = true) := by
  decide +kernel

theorem meets_FusesOnlyBlow :
    let s : State := { ready with
      pending := [.healthSweep (findings [5])]
      fuses := { ready.fuses with lifecycle := .manufactured }
      hbm := { ready.hbm with coreMap := fullMap, sweepCores := [5] } }
    (match step s with
      | .next t => t.fuses.deadCores == [5] && t.fuses != s.fuses
      | _ => false) = true := by decide +kernel

/-! ### The flash copy that FLASH_PROGRAM accepts -/

/-- A flash copy of 8,736 B with empty firmware and runtime sections, staged at device address 0. -/
def staged : Mem :=
  Mem.block 0 0 (leBytes 160 0xc4b10607b02a1a6508e99cf98f8edced3ecfff3d51e7b66f543c34ef1aad976212d8daf9e921f9f9c99c645b9433f7b222913a8be18791664ae3e90ebdceef26fd1ffcc5e8897523624da1f55a2cbc9503dcc9968ae86c9174c06b99014339ba0000000000000000000000000000000000000200000020000000004000001000000000000000100000000000000010000000000000002220000000014c525753) ++
    Mem.block 0 4096 (leBytes 24 0x10000032000000000000000000000000047464e43) ++
    Mem.block 0 8192 (leBytes 16 0x10102000000000000000045544953) ++ Mem.block 0 8704 (leBytes 8 0x1444E4521)

/-- The same module with the copy staged, `MGT_CMD_ARG0` and `ARG1` naming it. -/
def flashing : State :=
  { ready with
    hbm := { ready.hbm with dev := staged }
    mgt := { ready.mgt with arg1 := 8736 }
    flash := { ready.flash with key := some ready.fuses.romKey } }

/-- Every condition of a valid copy (the site record's bytes 16 to 511 list nothing and read 0) but the body's digest, whose
133 SHA-256 blocks are too long for the kernel: the digest in the header is the SHA-256 of bytes 256 to 8,735 as any
implementation of it gives, and `(stagedCopy flashing 0).digestOk` evaluates to true. -/
theorem meets_FlashProgramWritesTheOtherCopy_good :
    let c := stagedCopy flashing 0
    flashing.controllers.romDone = true ∧ flashing.mgt.cmdState ≠ .busy ∧ flashing.mgt.state = .ready ∧
    0 + flashing.mgt.arg1.toNat ≤ devTop ∧ c.length = flashing.mgt.arg1.toNat ∧ seqHigher c.seq flashing.flash.seq.toNat = true ∧
    c.magicOk = true ∧ c.layoutOk = true ∧ c.endOk = true ∧ c.reservedZero = true ∧
    flashing.flash.key = flashKey flashing.fuses ∧ flashing.flash.key = some flashing.fuses.romKey ∧
    c.signedBy flashing.fuses.romKey = true ∧
    c.config = 0x10000032000000000000000000000000047464e43 ∧
    c.read 8192 16 = leBytes 16 0x10102000000000000000045544953 ∧
    configOk 0x10000032000000000000000000000000047464e43 = true ∧ siteOk 0x10102000000000000000045544953 = true := by decide +kernel

theorem meets_FlashProgramWritesTheOtherCopy_refused :
    ready.controllers.romDone = true ∧ ready.mgt.cmdState ≠ .busy ∧ ready.mgt.state = .ready ∧
    (stagedCopy ready 0).valid ready.flash.key = false ∧
    gives (.flashProgram none) ready (fun t => t.mgt.cmdState == .refused && t.mgt.cmdCode == 0x0703) = true := by
  decide +kernel

/-! ### Ill-formed operands are refused -/

def whole (b : Nat) : PageIn := ⟨0, 0, List.replicate b 0⟩

/-- A job fetch with the regions of an image. -/
def regioned (rs : List Region) : Instr := .jobFetch { fetch desc with image := { image with regions := rs } }

theorem refused_registers_and_jobs :
    Instr.wellFormed (.mgtRegisterWrite 0x10 true 0) = true ∧ Instr.wellFormed (.mgtRegisterWrite 0x14 true 0) = false ∧
    Instr.wellFormed (.mgtRegisterWrite 2 false 0) = false ∧ Instr.wellFormed (.mgtRegisterWrite 0x10000 false 0) = false ∧
    Instr.wellFormed (.bankLoad []) = false ∧ Instr.wellFormed (.bankLoad (List.replicate 128 0)) = true ∧
    Instr.wellFormed (.jobFetch (fetch desc)) = true ∧ Instr.wellFormed (.jobFetch { fetch desc with channels := [] }) = false ∧
    Instr.wellFormed (.jobFetch { fetch desc with rings := [] }) = false ∧
    Instr.wellFormed (.jobFetch { fetch desc with ringCounts := [] }) = false ∧
    Instr.wellFormed (.jobFetch { fetch desc with image := { image with blocked := [(3, 320)] } }) = false ∧
    Instr.wellFormed (.cxlMemRead 0xBFFFFFFFFF 1) = true ∧ Instr.wellFormed (.cxlMemRead 0xBFFFFFFFFF 2) = false ∧
    Instr.wellFormed (.cxlMemWrite 0xC000000000 [0]) = false ∧ Instr.wellFormed (.admission 1 (.built [0xBFFFFFFFF0])) = false ∧
    Instr.wellFormed (.admission 1 (.built [0xBFFFFFFFE0])) = true := by
  decide +kernel

/-- R112: whole lines of the 512, rings of slots of 1 to 32 lines, group regions of 32 lines, none over another. -/
theorem refused_regions :
    Instr.wellFormed (regioned [⟨3, 0, 4, .handOff .stream .trellis 2⟩, ⟨3, 4, 508, .own .stream⟩]) = true ∧
    Instr.wellFormed (regioned [⟨3, 0, 4, .handOff .stream .trellis 2⟩, ⟨3, 3, 1, .own .stream⟩]) = false ∧
    Instr.wellFormed (regioned [⟨3, 0, 513, .own .stream⟩]) = false ∧
    Instr.wellFormed (regioned [⟨3, 0, 5, .handOff .stream .trellis 2⟩]) = false ∧
    Instr.wellFormed (regioned [⟨3, 0, 66, .handOff .stream .trellis 33⟩]) = false ∧
    Instr.wellFormed (regioned [⟨3, 0, 33, .group⟩]) = false := by decide +kernel

theorem refused_monitors_and_time :
    Instr.wellFormed (.statusRecordTelemetry ⟨0, 0, 0, 0, []⟩) = false ∧
    Instr.wellFormed (.thermalCeilingEval [] (List.replicate 12 0)) = false ∧
    Instr.wellFormed (.thermalCeilingEval (List.replicate 24 0) []) = false ∧
    Instr.wellFormed (.tempSensorCheck [0]) = false ∧ Instr.wellFormed (.hbmRefresh 0 48 0) = false ∧
    Instr.wellFormed (.hbmRefresh 0 47 0) = true ∧ Instr.wellFormed (.hbmScrub 0 (72 * 2 ^ 25) ⟨0⟩) = false ∧
    Instr.wellFormed (.timeRead ctx ⟨.scratch 4, 0⟩) = false ∧ Instr.wellFormed (.timeRead ctx ⟨.hbm, 0⟩) = false ∧
    Instr.wellFormed (.timeRead ctx ⟨.drain 3, 0x10000⟩) = false ∧ Instr.wellFormed (.timeRead ctx ⟨.scratch 3, 0⟩) = true := by
  decide +kernel

theorem refused_fabric_and_rinks :
    let far : Packet := ⟨.control, ⟨0, 0, 0⟩, ⟨0, 0, 0⟩, .plus, .plus, .plus, false, .plain, List.replicate 4097 0⟩
    let g : GatherCmd := ⟨1, ⟨.hbm, 0⟩, ⟨.hbm, 0⟩, [1, 1], false, none, true, []⟩
    Instr.wellFormed (.packetInject .control ⟨0, 0, 0⟩ ⟨.plain, List.replicate 4097 0⟩) = false ∧
    Instr.wellFormed (.packetForward 0 far) = false ∧ Instr.wellFormed (.packetDeliver 0 far) = false ∧
    Instr.wellFormed (.swapCondition 0 128 .errorRatio) = false ∧ Instr.wellFormed (.swap 0 0 8 .failing) = false ∧
    Instr.wellFormed (.beatReceive 0 0 128) = false ∧
    Instr.wellFormed (.vote 32 []) = false ∧ Instr.wellFormed (.rinkVoteReceive 0 32 true) = false ∧
    Instr.wellFormed (.rinkVoteReceive 32 0 true) = false ∧ Instr.wellFormed (.leaveNotice 32) = false ∧
    Instr.wellFormed (.rejoinRequest 32 none) = false ∧ Instr.wellFormed (.replicaCheckRecord [⟨32, 0⟩] []) = false ∧
    Instr.wellFormed (.allGather g) = true ∧ Instr.wellFormed (.allGather { g with lens := [] }) = false ∧
    Instr.wellFormed (.allGather { g with dest := ⟨.hbm, devTop - 1⟩ }) = false ∧
    Instr.wellFormed (.allGather { g with mine := ⟨.hbm, devTop + 1⟩ }) = false ∧
    Instr.wellFormed (.broadcast 1 0 ⟨.hbm, devTop⟩ 1 []) = false := by decide +kernel

theorem refused_pages :
    Instr.wellFormed (.pageSettle [] [whole 1]) = false ∧ Instr.wellFormed (.rejoinStateTransfer 0 [whole 1]) = false ∧
    Instr.wellFormed (.replicaCheckRecord [] [whole 1]) = false ∧ Instr.wellFormed (.tandemRestore (.standby [whole 1] [])) = false ∧
    Instr.wellFormed (.tandemRestore (.standby [] [whole 1])) = false ∧ Instr.wellFormed (.tandemPageReceive 0 (whole 1) none) = false ∧
    Instr.wellFormed (.hbmReadReturn 0 0 ⟨3⟩ false false (some (whole 1))) = false := by decide +kernel

theorem refused_memory_side_operations :
    Instr.wellFormed (.segmentArrive sumDecl ⟨1, 0, 0x100, eight 0⟩) = true ∧
    Instr.wellFormed (.segmentArrive sumDecl ⟨1, 0, 0x101, eight 0⟩) = false ∧
    Instr.wellFormed (.closeArrive { sumDecl with lists := [] } 0 ⟨0, 0⟩) = false ∧
    Instr.wellFormed (.closeArrive { sumDecl with lists := [[]] } 0 ⟨0, 0⟩) = false ∧
    Instr.wellFormed (.closeArrive { sumDecl with lists := [List.replicate 1025 0] } 0 ⟨0, 0⟩) = false ∧
    Instr.wellFormed (.reduceScatter ⟨{ sumDecl with ranges := [⟨0x101, 32⟩] }, 0, 0, []⟩) = false ∧
    Instr.wellFormed (.allReduce ⟨{ sumDecl with ranges := [⟨0x100, 31⟩] }, 0, 0, []⟩ []) = false ∧
    Instr.wellFormed (.closeArrive { sumDecl with ranges := [⟨devTop, 32⟩] } 0 ⟨0, 0⟩) = false ∧
    Instr.wellFormed (.updateOperation update) = true ∧ Instr.wellFormed (.updateOperation { update with tiles := 0 }) = false ∧
    Instr.wellFormed (.updateOperation { update with tiles := 2 ^ 26 + 1 }) = false ∧
    Instr.wellFormed (.updateOperation { update with m := 32 }) = false ∧
    Instr.wellFormed (.updateOperation { update with work := { update.work with rnd := .sr } }) = false := by decide +kernel

theorem refused_engine_operations :
    Instr.wellFormed (.engineCommandIssue ⟨ctx, .stream, 9, [], none, [], [(8, 0x40000, 0)], [], false⟩) = false ∧
    Instr.wellFormed (.engineCommandIssue ⟨ctx, .stream, 9, [], none, [], [(8, 0x3FFFF, 0)], [], false⟩) = true ∧
    Instr.wellFormed (.engineCommandIssue ⟨ctx, .stream, 9, [], none, [], [], [], true⟩) = false ∧
    Instr.wellFormed (.engineCommandIssue
      ⟨ctx, .stream, 9, [], none, [⟨.hbm, .affine ⟨0, List.replicate 6 (1, 1)⟩⟩], [], [], false⟩) = false ∧
    Instr.wellFormed (.engineCommandIssue
      ⟨ctx, .stream, 9, [], none, [⟨.hbm, .indexed 0 1 (.dataMem 0) 1 (List.replicate 3 (1, 1))⟩], [], [], false⟩) = false ∧
    Instr.wellFormed (.trellisWave ⟨ctx, .window 0 0, 0, false, false, 0x10000, []⟩) = false ∧
    Instr.wellFormed (.tileLoad ⟨ctx, tensor .e4m3 0 0 1, 0, 1, true, false, false⟩) = false ∧
    Instr.wellFormed (.tileLoad ⟨ctx, tensor .bf16 0 513 1, 513, 1, true, false, true⟩) = false ∧
    Instr.wellFormed (.tileLoad ⟨ctx, tensor .e4m3 0 1025 1, 1, 1025, true, false, false⟩) = false ∧
    Instr.wellFormed (.tileLoad ⟨ctx, tensor .e4m3 0 2 1, 1, 1, true, false, false⟩) = false ∧
    Instr.wellFormed (.windowGather { windowOf false with dims := [] }) = false ∧
    Instr.wellFormed (.windowGather { windowOf false with groups := 2 }) = false ∧
    Instr.wellFormed (.windowGather { windowOf false with groups := 2, channels := 2 }) = false ∧
    Instr.wellFormed (.windowGather { windowOf false with groups := 2, channels := 2, outChannels := 4 }) = true ∧
    Instr.wellFormed (.windowGather { windowOf false with origins := ⟨0, List.replicate 6 (1, 1)⟩ }) = false ∧
    Instr.wellFormed (.windowGather { windowOf false with group := 1 }) = false ∧
    Instr.wellFormed (.lodgeOperation { lodgeOf with pixelClass := false }) = false ∧
    Instr.wellFormed (.lodgeOperation { lodgeOf with groups := 2 }) = false ∧
    Instr.wellFormed (.lodgeOperation { lodgeOf with outs := 0 }) = false ∧
    Instr.wellFormed (.groomedStore { groomOf .own with base := 1 }) = false ∧
    Instr.wellFormed (.groomedLoad { groomOf .own with elems := plain .bf16 0 0 }) = false ∧
    Instr.wellFormed (.haloSend 1 { halo with slots := 9 } 1 ⟨0, false⟩) = false ∧
    Instr.wellFormed (.haloReady 1 { halo with rowBytes := 0x40001 } 1) = false ∧ Instr.wellFormed (.haloAck 1 halo 0) = false ∧
    Instr.wellFormed (.fusedAttention { attnOf packedForm with dim := 48 }) = false ∧
    Instr.wellFormed (.fusedAttention { attnOf packedForm with heads := 17 }) = false ∧
    Instr.wellFormed (.fusedAttention { attnOf packedForm with rule := .blockCausal 0 }) = false ∧
    Instr.wellFormed (.fusedAttention { attnOf packedForm with fmtP := .fp32 }) = false ∧
    Instr.wellFormed (.attentionBackward { attnBackOf packedForm with window := 65536 }) = false ∧
    Instr.wellFormed (.attentionBackward { attnBackOf packedForm with fmtS := .fp16 }) = false := by decide +kernel

theorem refused_stream_operations :
    let x (n : Nat) : InStream := raw (plain .fp32 0 n)
    let y (n : Nat) : OutStream := ⟨plain .fp32 0x40 n, none⟩
    let one : AddrStream := ⟨.scratch, .affine ⟨0, []⟩⟩
    StreamOp.ok (.ew .add [x 2, x 1] (y 2)) = false ∧ StreamOp.ok (.select ⟨.scratch 3, 0⟩ (x 2) (x 1) (y 2)) = false ∧
    StreamOp.ok (.func .relu false (x 1) (y 2)) = false ∧ StreamOp.ok (.reduce .sum (x 3) (.each 2) none (y 1) none) = false ∧
    StreamOp.ok (.reduce .sum (x 3) (.stream ⟨.scratch 3, 0x800⟩ 2) none (y 1) none) = false ∧
    StreamOp.ok (.reduce .sum (x 3) (.stream ⟨.scratch 3, 0x800⟩ 1) none (y 1) none) = true ∧
    StreamOp.ok (.topk 9 (x 2) (.each 2) none (y 9) ⟨.scratch 3, 0⟩) = false ∧
    StreamOp.ok (.scan .sum true (x 2) (.each 2) none (y 1)) = false ∧
    StreamOp.ok (.softmax (x 2) (.each 0) none none none none none) = false ∧
    StreamOp.ok (.norm false (x 2) (x 2) (x 2) 0 (.each 2) none (y 2) (some (y 1)) none none) = false ∧
    StreamOp.ok (.softmaxBack true (x 3) (x 2) (x 1) (.each 2) none (y 3)) = false ∧
    StreamOp.ok (.normBack false (x 2) (x 2) (x 2) 0 (.each 2) none (y 2) (y 2) (some (y 2))) = false ∧
    StreamOp.ok (.featureSum (x 3) 2 none (y 2)) = false ∧ StreamOp.ok (.dropout 0 0 (x 1) (y 2) none) = false ∧
    StreamOp.ok (.uniform 2 (y 1)) = false ∧ StreamOp.ok (.normal 2 (y 1)) = false ∧
    StreamOp.ok (.normalFma (.imm 0) (x 2) (y 1)) = false ∧ StreamOp.ok (.gather one (x 2) (y 2)) = false ∧
    StreamOp.ok (.gather one (x 2) (y 1)) = true ∧
    StreamOp.ok (.scatter one (x 2) (y 2)) = false ∧ StreamOp.ok (.scatterAdd one (x 2) (plain .fp32 0 2)) = false ∧
    StreamOp.ok (.pool true true (x 2) [{ oneDim with u := 2 }] 1 0 2 (y 2) none) = false ∧
    StreamOp.ok (.pool true true (x 2) [oneDim] 1 0 2 (y 1) none) = false ∧
    Instr.wellFormed (.streamOperation ⟨ctx, .ew .add [x 2, x 1] (y 2)⟩) = false := by decide +kernel

/-! ### What the manual works out -/

/-- Logical placement of the examples of R16 and R25: physical core 77, and the modules of the example machine. -/
theorem test_physical_core_77 : domainOf 77 = 9 ∧ coresOf 9 = [75, 76, 77, 87, 88, 89, 99, 100, 101] := by decide +kernel

/-- The example of R74: the largest magnitude is 1,000.0, and five elements of the group. -/
theorem test_e4m3_group :
    encodeGroup .e4m3 ⟨.ne, true, .computed⟩
      (([0x447A0000, 0xC0533333, 0x3BC49BA6, 0x3AC49BA6, 0x80000000] : List U32).map dec32) [0, 0, 0, 0, 0] =
      ⟨[0x78, 0xB5, 0x01, 0x00, 0x80], 0x81, 0, 1⟩ := by decide +kernel

/-- The example of R89: the third product lies below the alignment unit, and the chunk is 200,703.140625. -/
theorem test_chunk_truncates :
    let v (b : Byte) : FV := decodeTile .e4m3 127 b
    let r := chunkOf ([FV.mul (v 0x7E) (v 0x7E), FV.mul (v 0xBB) (v 0x32), FV.mul (v 0x01) (v 0x39)] ++
      List.replicate 29 FV.zero)
    r.v = 0x4843FFC9 ∧ r.q = some 17 := by decide +kernel

/-- The example of R121: ten elements, element 8 masked. -/
def topRow : List (Option U32) :=
  [some 0x40000000, some 0x7FC00000, some 0x40A00000, some 0x7F800000, some 0x40A00000, some 0x80000000, some 0,
   some 0xBF800000, none, some 0x40A00000]

theorem test_top_4 : topK 4 topRow = [(1, 0x7FC00000), (3, 0x7F800000), (2, 0x40A00000), (4, 0x40A00000)] := by
  decide +kernel

theorem test_top_8 : (topK 8 topRow).map Prod.fst = [1, 3, 2, 4, 9, 0, 6, 5] := by decide +kernel

/-- The example of R150: in a dilated 3 × 3 convolution over 80 × 44 only tap 4 reaches the map. -/
theorem test_dilated_taps :
    let w (i : Nat) : WindowDim := ⟨i, 3, 1, 96, 1, 96, 96⟩
    outExtent (w 80) = 80 ∧ outExtent (w 44) = 44 ∧
    (upFrom 0 9).map (tapPosition [w 44, w 80] 1234) =
      [none, none, none, none, some 1234, none, none, none, none] := by decide +kernel

/-- The example of R177: 1.0 in columns 0 to 3 and 0.5 in columns 4 to 7, in G4; it decodes exactly, in G2 too. -/
def groomed : List FV := (upFrom 0 64).map fun n => if n % 8 < 4 then FV.ofRat 1 else FV.ofRat (1 / 2)

theorem test_groom_block : groomEncode .g4 true groomed = ofLe [0x7F, 0x02, 0x00, 0x06, 0x20] := by decide +kernel

theorem test_groom_decodes :
    groomDecode .g4 true (ofLe [0x7F, 0x02, 0x00, 0x06, 0x20]) = groomed ∧
    groomDecode .g2 true (groomEncode .g2 true groomed) = groomed := by decide +kernel

/-- The example of R192: stream lane 7 of core 12 at (3, 5, 2). -/
theorem test_lane_identity : machineIndex (site 1 8 8 4 3 5 2) ⟨3, 5, 2⟩ = 171 ∧ laneId 171 12 7 = 0xAB0C07 := by
  decide +kernel

/-- The example of R231: H = 48. -/
theorem test_contiguous_pool :
    ([0x9000000000, 0x93FFFFFFFF, 0x9C00000000, 0x9FFFFFFFFF, 0xBC00000000, 0xBFFFFFFFFF].map fun a => (unitOf 48 a).1) =
      [0, 0, 3, 3, 11, 11] := by decide +kernel

/-- The example of R235: three units with H = 64. -/
theorem test_placement :
    unitOf 64 0x12345600 = (7, 99420) ∧ unitOf 64 0x12345700 = (8, 99420) ∧ unitOf 64 0x12346200 = (6, 99421) ∧
    placeOf 99420 = ⟨28, 1, 8, 16, 2⟩ ∧ placeOf 99421 = ⟨29, 1, 8, 16, 2⟩ := by decide +kernel

/-- The example of R253: sources 3 to 6 send 2^24, 1.0, 1.0 and −2^24 for one word; arrivals in the order 6, 4, 3, 5. -/
def contributions (unordered : Bool) : MsuRun :=
  ⟨{ sumDecl with lists := [[3, 4, 5, 6]], gradient := some (0x1000, 0x100), unordered := unordered },
   [0], [⟨6, 0, 0x100, eight 0xCB800000⟩, ⟨4, 0, 0x100, eight 0x3F800000⟩, ⟨3, 0, 0x100, eight 0x4B800000⟩,
     ⟨5, 0, 0x100, eight 0x3F800000⟩], [], [], 0, false⟩

theorem test_sequenced_sum :
    wordValue { busy .inStep with site := site 0 8 8 1 0 0 0 } (contributions false) 8 = eight 0 ∧
    wordValue { busy .inStep with site := site 0 8 8 1 0 0 0 } (contributions true) 8 = eight 0x40000000 := by
  decide +kernel

/-- The example of R260: t becomes 3, and the parameter moves from 2.0 to about 1.9986111. -/
def example260 : ImmRow := ⟨0x3A800000, 0x3F600000, 0x3F700000, 0x35800000, 0x3D800000⟩

theorem test_update_of_one_parameter :
    let c1 := sub32 one32 (betaPow32 0x3F600000 3)
    let c2 := sub32 one32 (betaPow32 0x3F700000 3)
    let x := updateParam example260 2 c1 c2 0x40400000 ⟨0x40000000, 0x3F000000, 0x3E800000⟩
    betaPow32 0x3F600000 3 = 0x3F2B8000 ∧ x.m = 0x3F200000 ∧ x.v = 0x3EC00000 ∧
    Rat.abs ((dec32 x.p).toRat - 19986111 / 10000000) < 1 / 10000000 ∧
    (convert .bf16 .tz true 0 (dec32 x.p)).code = 0x3FFF ∧ (convert .bf16 .ne true 0 (dec32 x.p)).code = 0x4000 := by
  decide +kernel

/-- The example of R417: the fourth consecutive step above 1.0 % lowers the ceiling, which is then held. -/
theorem test_pace_matching :
    let at700 := { ready with power := { ready.power with rinkPace := 700, cap := List.replicate 16 700 } }
    let step (a : List (Nat × Bool) × State) (w : Nat) : List (Nat × Bool) × State :=
      let t := paceRinkEval w a.2
      (a.1 ++ [(t.power.rinkPace, t.status.paceWait)], t)
    ([250, 250, 250, 250, 60, 60].foldl step ([], at700)).1 =
      [(700, false), (700, false), (700, false), (690, true), (690, true), (690, true)] := by decide +kernel

/-- The example of R278: (0, 0, 0) to (5, 3, 2) in the 8 × 8 × 4 machine, and with the link (5, 1, 0)–(5, 2, 0) down. -/
def eightByEight : State :=
  { ready with
    site := site 1 8 8 4 0 0 0
    fabric := { ready.fabric with ports := ready.fabric.ports.map fun q => { q with phase := .up } } }

theorem test_route :
    route eightByEight ⟨5, 3, 2⟩ = some (.minus, .plus, .plus) ∧
    route { eightByEight with fabric := { eightByEight.fabric with down := [⟨1, ⟨5, 1, 0⟩⟩] } } ⟨5, 3, 2⟩ =
      some (.minus, .minus, .plus) := by decide +kernel

/-- The example of R342: a mean of 300 lookups and k_m = 32 give a budget of 9,600. -/
theorem test_decode_budget :
    batchBudget { GhChan.reset with cfg := BitVec.ofNat 1024 (100000 * 2 ^ 320), meanQ := 76800 } = 9600 := by decide +kernel

/-- The example of R343: six samples in two rows of 512. -/
theorem test_rows_by_slot_len :
    let step (a : List (Option Nat) × List Nat) (n : Nat) : List (Option Nat) × List Nat :=
      let c := { GhChan.reset with cfg := BitVec.ofNat 1024 (512 * 2 ^ 192 + 2 * 2 ^ 224), occ := a.2, cnt := [0, 0] }
      let r := placeRow c n
      (a.1 ++ [r], updNth (· + n) a.2 (r.getD 2))
    [180, 250, 200, 120, 80, 150].foldl step ([], [0, 0]) =
      ([some 0, some 0, some 1, some 1, some 0, some 1], [510, 470]) := by decide +kernel

/-- R345: the marks of a segment, and of padding. -/
theorem test_row_marks :
    contentMarks 1 [.tokens [9, 9]] ++ padMarks 1 = leBytes 4 0x10000 ++ leBytes 4 0x10001 ++ leBytes 4 0xFFFF0000 := by
  decide +kernel

/-- The check column of R350. -/
theorem test_check_column :
    [Poly.crc32c, .crc32, .crc16, .crc64].map (fun p => crcOf (polyRow p) [0x31, 0x32, 0x33, 0x34, 0x35, 0x36, 0x37, 0x38, 0x39]) =
      [0xE3069283, 0xCBF43926, 0x29B1, 0x6C40DF5F0B497347] := by decide +kernel

/-- R352: a word is fed as its bytes, the lowest first. -/
theorem test_word_fed_lowest_first : cvBytes (.word 0x04030201) = [1, 2, 3, 4] := by decide +kernel

/-- The example of R359: six alive counters, of which the third and the fifth are odd. -/
theorem test_alive_stream :
    let step (a : List Bool × GhChan) (n : Nat) : List Bool × GhChan :=
      let r := aliveStep (BitVec.ofNat 512 (n * 2 ^ 248)) a.2
      (a.1 ++ [r.1], r.2)
    ([0x7E, 0x7F, 0x7F, 0x80, 0x82, 0x81].foldl step ([], GhChan.reset)).1 = [true, true, false, true, false, true] := by
  decide +kernel

/-- The example of R384: seq 0 follows seq 0xFFFF_FFFF. -/
theorem test_seq_wraps : seqHigher 0 0xFFFFFFFF = true ∧ seqHigher 0xFFFFFFFF 0 = false := by decide +kernel
end Sys2Proof.Tests
end

section
/-! Bit fields after a replacement, and what one step of the machine runs (O1). -/

namespace Sys2Proof.Machine

/-! ## Bit fields -/

/-- The bits of a replaced field are the new value's, every other bit is as before. -/
theorem getLsbD_setField {w : Nat} (x : BitVec w) (hi lo v i : Nat) :
    (setField x hi lo v).getLsbD i =
      (decide (i < w) && if lo ≤ i ∧ i ≤ hi then v.testBit (i - lo) else x.getLsbD i) := by
  have hlt : (2 ^ (hi + 1 - lo) - 1) <<< lo % 2 ^ w < 2 ^ w := Nat.mod_lt _ (Nat.two_pow_pos w)
  have hmask : 2 ^ w - 1 - (2 ^ (hi + 1 - lo) - 1) <<< lo % 2 ^ w =
      2 ^ w - ((2 ^ (hi + 1 - lo) - 1) <<< lo % 2 ^ w + 1) := by omega
  by_cases hi' : i < w
  · have hin : (lo ≤ i ∧ i ≤ hi) ↔ (lo ≤ i ∧ i - lo < hi + 1 - lo) := by omega
    simp only [setField, hmask, BitVec.getLsbD_ofNat, Nat.testBit_or, Nat.testBit_and,
      Nat.testBit_two_pow_sub_succ hlt, Nat.testBit_mod_two_pow, Nat.testBit_shiftLeft, Nat.testBit_two_pow_sub_one,
      hi', hin, decide_true, Bool.true_and, BitVec.testBit_toNat]
    by_cases h1 : lo ≤ i <;> by_cases h2 : i - lo < hi + 1 - lo <;> simp [h1, h2]
  · simp [hi', BitVec.getLsbD_of_ge _ i (Nat.le_of_not_lt hi')]

/-- A field's bits are the register's, counted from the field's lowest. -/
theorem testBit_field {w : Nat} (x : BitVec w) (hi lo i : Nat) :
    (field x hi lo).testBit i = (decide (i < hi + 1 - lo) && x.getLsbD (lo + i)) := by
  simp [field, Nat.testBit_mod_two_pow, Nat.testBit_shiftRight, BitVec.getLsbD]

/-- A field just replaced reads as the value put there. -/
theorem field_setField_same {w : Nat} (x : BitVec w) (hi lo v : Nat) (h : hi < w) :
    field (setField x hi lo v) hi lo = v % 2 ^ (hi + 1 - lo) := by
  refine Nat.eq_of_testBit_eq fun i => ?_
  rw [testBit_field, getLsbD_setField, Nat.testBit_mod_two_pow]
  by_cases hi' : i < hi + 1 - lo
  · have h1 : lo + i < w := by omega
    have h2 : lo ≤ lo + i ∧ lo + i ≤ hi := by omega
    simp [hi', h1, h2]
  · simp [hi']

/-- Replacing a field leaves a field that shares no bit with it alone. -/
theorem field_setField_disjoint {w : Nat} (x : BitVec w) (hi lo v hi' lo' : Nat) (h : hi' < lo ∨ hi < lo') :
    field (setField x hi lo v) hi' lo' = field x hi' lo' := by
  refine Nat.eq_of_testBit_eq fun i => ?_
  rw [testBit_field, testBit_field, getLsbD_setField]
  by_cases hi' : i < hi' + 1 - lo'
  · have h1 : ¬ (lo ≤ lo' + i ∧ lo' + i ≤ hi) := by omega
    rw [if_neg h1]
    by_cases hw : lo' + i < w
    · simp [hw]
    · simp [hw, BitVec.getLsbD_of_ge x (lo' + i) (by omega)]
  · simp [hi']

/-- A bit just written reads as the value put there. -/
theorem bitAt_setBit_same {w : Nat} (x : BitVec w) (n : Nat) (b : Bool) (h : n < w) : bitAt (setBit x n b) n = b := by
  rw [bitAt, setBit, getLsbD_setField, if_pos ⟨Nat.le_refl n, Nat.le_refl n⟩]
  cases b <;> simp [h]

/-! ## One step -/

theorem step_cons (s : State) (c : Instr) (rest : List Instr) :
    step { s with pending := c :: rest } = exec c { s with pending := rest } := rfl

/-- A nanosecond changes the timebase alone, in the form of an equation. -/
theorem tick_eq (s : State) : tick s = { s with time := (tick s).time } := by
  unfold tick
  split
  · split <;> rfl
  · rfl

/-- Where the clock runs and slewing leaves no nanosecond out, the timebase counts on by one (R39). -/
theorem tick_of_running (s : State) (hr : s.time.running = true) (hk : s.time.skip = false) :
    tick s = { s with time := { s.time with value := s.time.value + 1 } } := by
  simp [tick, hr, hk]

theorem step_nil (s : State) (hp : s.pending = []) :
    step s = retryAll exec s.stalled { tick s with stalled := [] } := by
  simp only [step, hp]

/-- A single waiting command that is tried again is all that the retry runs. -/
theorem retryAll_singleton (run : Instr → State → Host.Outcome State Fault Refusal) (c : Instr) (s : State) :
    retryAll run [c] s = run c s := by
  unfold retryAll
  cases run c s <;> rfl

/-- Settles O1: the front command is run as `step` says; on an empty queue the retry has nothing or one command to run
after the nanosecond. -/
theorem stepTakesFrontCommand : Obligations.StepTakesFrontCommand := by
  intro s
  refine ⟨step_cons s, fun hp hs => ?_, fun c hp hs hr hk => ?_⟩
  · refine ⟨tick s, ?_, tick_eq s, fun hr hk => by rw [tick_of_running s hr hk]⟩
    have hst : (tick s).stalled = [] := by simp [hs]
    rw [step_nil s hp, hs, retryAll, ← hst]
  · rw [step_nil s hp, hs, retryAll_singleton, tick_of_running s hr hk]

end Sys2Proof.Machine
end

section
/-! Writes and reads of the management window's words (O2). -/

namespace Sys2Proof.Machine

/-! ## Writes of the management window (R362) -/

/-- Once the window answers, an aligned 4 B access writes its word; any other narrow access nothing. -/
theorem exec_mgtRegisterWrite_narrow (off : Nat) (val : U64) (s : State) (h : s.controllers.romDone = true) :
    exec (.mgtRegisterWrite off false val) s =
      .next (if off % 4 = 0 then writeWord off (BitVec.ofNat 32 val.toNat) s else s) := by
  change execMgtRegisterWrite off false val s = _
  by_cases ha : off % 4 = 0 <;> simp [execMgtRegisterWrite, windowUp, h, ha]

/-- Once the window answers, an aligned 8 B access writes both its words; any other wide access nothing. -/
theorem exec_mgtRegisterWrite_wide (off : Nat) (val : U64) (s : State) (h : s.controllers.romDone = true) :
    exec (.mgtRegisterWrite off true val) s = .next (if off % 8 = 0 then writeLong off val s else s) := by
  change execMgtRegisterWrite off true val s = _
  by_cases ha : off % 8 = 0 <;> simp [execMgtRegisterWrite, windowUp, h, ha]

/-- The offsets of the words of MGT_CMD_ARG0 to ARG2. -/
def argOffsets : List Nat := [0x18, 0x1C, 0x20, 0x24, 0x28, 0x2C]

/-- The state with other command arguments. -/
def withArgs (a0 a1 a2 : U64) (s : State) : State :=
  { s with mgt := { s.mgt with arg0 := a0, arg1 := a1, arg2 := a2 } }

/-- Of the window's words, only the six of the command arguments show them. -/
theorem windowWord_withArgs (a0 a1 a2 : U64) (s : State) (o : Nat) :
    windowWord (withArgs a0 a1 a2 s) o =
      if o = 0x18 then field a0 31 0 else if o = 0x1C then field a0 63 32
      else if o = 0x20 then field a1 31 0 else if o = 0x24 then field a1 63 32
      else if o = 0x28 then field a2 31 0 else if o = 0x2C then field a2 63 32
      else windowWord s o := by
  by_cases h : o ∈ argOffsets
  · simp only [argOffsets, List.mem_cons, List.not_mem_nil, or_false] at h
    rcases h with rfl | rfl | rfl | rfl | rfl | rfl <;> rfl
  · simp only [argOffsets, List.mem_cons, List.not_mem_nil, or_false, not_or] at h
    simp only [h, if_false]
    unfold windowWord
    split
    case h_6 | h_7 | h_8 | h_9 | h_10 | h_11 => omega
    all_goals rfl

/-- A write to the word of a command argument changes the arguments alone, and of the window's words that one alone. -/
theorem writeWord_arg (off : Nat) (v : U32) (s : State) (h : off ∈ argOffsets) :
    (∃ a0 a1 a2, writeWord off v s = withArgs a0 a1 a2 s) ∧
    ∀ o, windowWord (writeWord off v s) o = if o = off then v.toNat else windowWord s o := by
  have hs : s = withArgs s.mgt.arg0 s.mgt.arg1 s.mgt.arg2 s := rfl
  have low (x : U64) : field (setField x 31 0 v.toNat) 31 0 = v.toNat := by
    rw [field_setField_same x 31 0 _ (by decide)]; exact Nat.mod_eq_of_lt v.isLt
  have high (x : U64) : field (setField x 63 32 v.toNat) 63 32 = v.toNat := by
    rw [field_setField_same x 63 32 _ (by decide)]; exact Nat.mod_eq_of_lt v.isLt
  have lowKept (x : U64) : field (setField x 63 32 v.toNat) 31 0 = field x 31 0 :=
    field_setField_disjoint x 63 32 _ 31 0 (by decide)
  have highKept (x : U64) : field (setField x 31 0 v.toNat) 63 32 = field x 63 32 :=
    field_setField_disjoint x 31 0 _ 63 32 (by decide)
  simp only [argOffsets, List.mem_cons, List.not_mem_nil, or_false] at h
  rcases h with rfl | rfl | rfl | rfl | rfl | rfl
  all_goals
    refine ⟨⟨_, _, _, rfl⟩, fun o => ?_⟩
    refine (windowWord_withArgs _ _ _ s o).trans ?_
    conv_rhs => rw [hs, windowWord_withArgs]
    simp only [low, high, lowKept, highKept]
    split_ifs <;> omega

/-- The offsets, below the MSI-X table and in the pending-bit array's 8 B, at which a 4 B write finds no register that it
can change: those of the read-only registers and the reserved ones (R362, R13). -/
def TakesNoWrite (off : Nat) : Prop :=
  off ∈ [0x00, 0x04, 0x08, 0x0C, 0x14, 0x30, 0x34, 0x38, 0x3C, 0x54, 0xF000, 0xF004] ∨ (0x68 ≤ off ∧ off < 0xE000)

theorem writeWord_of_takesNoWrite (off : Nat) (v : U32) (s : State) (h : TakesNoWrite off) : writeWord off v s = s := by
  rcases h with h | ⟨hlo, hhi⟩
  · simp only [List.mem_cons, List.not_mem_nil, or_false] at h
    rcases h with rfl | rfl | rfl | rfl | rfl | rfl | rfl | rfl | rfl | rfl | rfl | rfl <;> rfl
  · unfold writeWord
    split
    case h_14 => rw [if_neg (by omega)]
    all_goals omega

/-- Where no 8 B register is judged whole, a wide write is the writes of its two words. -/
theorem writeLong_eq_words (off : Nat) (v : U64) (s : State) (h : off ∉ [0x40, 0x58, 0x60]) :
    writeLong off v s =
      writeWord (off + 4) (BitVec.ofNat 32 (v.toNat / 2 ^ 32)) (writeWord off (BitVec.ofNat 32 v.toNat) s) := by
  simp only [List.mem_cons, List.not_mem_nil, or_false, not_or] at h
  obtain ⟨h40, h58, h60⟩ := h
  have hhi : field v 63 32 = v.toNat / 2 ^ 32 := by
    rw [field, Nat.shiftRight_eq_div_pow]
    exact Nat.mod_eq_of_lt (by have := v.isLt; omega)
  have hlo : BitVec.ofNat 32 (field v 31 0) = BitVec.ofNat 32 v.toNat := by
    apply BitVec.eq_of_toNat_eq
    simp [field]
  unfold writeLong
  split
  · exact absurd rfl h40
  · exact absurd rfl h58
  · exact absurd rfl h60
  · rw [hhi, hlo]

theorem writeLong_of_takesNoWrite (off : Nat) (v : U64) (s : State) (h : off ∉ [0x40, 0x58, 0x60])
    (h0 : TakesNoWrite off) (h4 : TakesNoWrite (off + 4)) : writeLong off v s = s := by
  rw [writeLong_eq_words off v s h, writeWord_of_takesNoWrite off _ s h0, writeWord_of_takesNoWrite (off + 4) _ s h4]

/-- A wide write to a command argument changes the arguments alone, and of the window's words its own two alone. -/
theorem writeLong_arg (off : Nat) (v : U64) (s : State) (h : off ∈ [0x18, 0x20, 0x28]) :
    (∃ a0 a1 a2, writeLong off v s = withArgs a0 a1 a2 s) ∧
    ∀ o, windowWord (writeLong off v s) o =
      if o = off then v.toNat % 2 ^ 32 else if o = off + 4 then v.toNat / 2 ^ 32 else windowWord s o := by
  simp only [List.mem_cons, List.not_mem_nil, or_false] at h
  have hv := v.isLt
  have hlow : off ∈ argOffsets := by simp only [argOffsets, List.mem_cons, List.not_mem_nil, or_false]; omega
  have hhigh : off + 4 ∈ argOffsets := by simp only [argOffsets, List.mem_cons, List.not_mem_nil, or_false]; omega
  rw [writeLong_eq_words off v s (by simp only [List.mem_cons, List.not_mem_nil, or_false]; omega)]
  obtain ⟨⟨a0, a1, a2, ha⟩, wordsLow⟩ := writeWord_arg off (BitVec.ofNat 32 v.toNat) s hlow
  obtain ⟨⟨b0, b1, b2, hb⟩, wordsHigh⟩ :=
    writeWord_arg (off + 4) (BitVec.ofNat 32 (v.toNat / 2 ^ 32)) (writeWord off (BitVec.ofNat 32 v.toNat) s) hhigh
  refine ⟨⟨b0, b1, b2, by rw [hb, ha]; rfl⟩, fun o => ?_⟩
  rw [wordsHigh, wordsLow, BitVec.toNat_ofNat, BitVec.toNat_ofNat]
  split_ifs <;> omega

/-- What a state with other command arguments differs in. -/
theorem eq_with_args {s t : State} {a0 a1 a2 : U64} (h : t = withArgs a0 a1 a2 s) :
    t = { s with mgt := { s.mgt with arg0 := t.mgt.arg0, arg1 := t.mgt.arg1, arg2 := t.mgt.arg2 } } := by
  subst h
  rfl

/-! ## Reads of the management window (R362) -/

theorem windowRead_four (s : State) (off : Nat) (h : off % 4 = 0) : windowRead s off 4 = windowWord s off :=
  if_pos ⟨rfl, h⟩

theorem windowRead_eight (s : State) (off : Nat) (h : off % 8 = 0) :
    windowRead s off 8 = windowWord s off + 2 ^ 32 * windowWord s (off + 4) := by
  simp [windowRead, h]

theorem windowRead_other (s : State) (off bytes : Nat) (h : (bytes ≠ 4 ∧ bytes ≠ 8) ∨ off % bytes ≠ 0) :
    windowRead s off bytes = 0 := by
  have h4 : ¬ (bytes = 4 ∧ off % 4 = 0) := by rintro ⟨rfl, h0⟩; omega
  have h8 : ¬ (bytes = 8 ∧ off % 8 = 0) := by rintro ⟨rfl, h0⟩; omega
  rw [windowRead, if_neg h4, if_neg h8]

/-- Settles O2: an argument's word takes its write alone, a wide write is two such words, and the other offsets named
hold no register that a write can change. -/
theorem windowWriteReachesItsRegister : Obligations.WindowWriteReachesItsRegister := by
  intro off wide val s hrom
  have narrow := exec_mgtRegisterWrite_narrow off val s hrom
  have long := exec_mgtRegisterWrite_wide off val s hrom
  refine ⟨fun h => ?unaligned, ?half, ?whole, ?narrowNone, ?wideNone, fun bytes => windowRead_other s off bytes⟩
  case unaligned =>
    cases wide with
    | false => rw [narrow, if_neg (by simpa using h)]
    | true => rw [long, if_neg (by simpa using h)]
  case half =>
    rintro rfl h
    obtain ⟨⟨a0, a1, a2, hargs⟩, words⟩ := writeWord_arg off (BitVec.ofNat 32 val.toNat) s h
    simp only [List.mem_cons, List.not_mem_nil, or_false] at h
    have aligned : off % 4 = 0 := by omega
    rw [if_pos aligned] at narrow
    refine ⟨_, narrow, eq_with_args hargs, ?_, words⟩
    rw [windowRead_four _ off aligned, words, if_pos rfl, BitVec.toNat_ofNat]
  case whole =>
    rintro rfl h
    obtain ⟨⟨a0, a1, a2, hargs⟩, words⟩ := writeLong_arg off val s h
    simp only [List.mem_cons, List.not_mem_nil, or_false] at h
    have aligned : off % 8 = 0 := by omega
    rw [if_pos aligned] at long
    refine ⟨_, long, eq_with_args hargs, ?_, words⟩
    rw [windowRead_eight _ off aligned, words, words, if_pos rfl, if_neg (by omega), if_pos rfl]
    exact Nat.mod_add_div _ _
  case narrowNone =>
    rintro rfl h
    simp only [List.mem_cons, List.not_mem_nil, or_false] at h
    have hno : TakesNoWrite off := by
      simp only [TakesNoWrite, List.mem_cons, List.not_mem_nil, or_false]; omega
    rw [narrow, writeWord_of_takesNoWrite off _ s hno, ite_self]
  case wideNone =>
    rintro rfl h
    simp only [List.mem_cons, List.not_mem_nil, or_false] at h
    have hno : TakesNoWrite off ∧ TakesNoWrite (off + 4) := by
      simp only [TakesNoWrite, List.mem_cons, List.not_mem_nil, or_false]; omega
    have hwhole : off ∉ [0x40, 0x58, 0x60] := by simp only [List.mem_cons, List.not_mem_nil, or_false]; omega
    rw [long, writeLong_of_takesNoWrite off val s hwhole hno.1 hno.2, ite_self]

end Sys2Proof.Machine
end

section
/-! The end of a management command, writes of the flash devices, and FLASH_PROGRAM (O8). -/

namespace Sys2Proof.Machine

/-! ## The end of a management command (R381) -/

/-- The end of a command: its code and state in MGT_CMD_STATUS, cause [2] set, and the message that sends. -/
theorem finishCmd_eq (cmd : Byte) (st : CmdState) (code : U16) (s : State) :
    finishCmd cmd st code s =
      { s with
        mgt := { s.mgt with cmd := cmd, cmdState := st, cmdCode := code,
                            intStatus := setBit s.mgt.intStatus 2 true,
                            msixPba := (finishCmd cmd st code s).mgt.msixPba }
        sent := s.sent ++ causeMessages s.mgt 2 } := by
  simp only [finishCmd, raiseCause, setInterrupts_eq]
  rfl

theorem finishCmd_mgt (cmd : Byte) (st : CmdState) (code : U16) (s : State) :
    (finishCmd cmd st code s).mgt.cmdState = st ∧ (finishCmd cmd st code s).mgt.cmdCode = code ∧
    (finishCmd cmd st code s).mgt.cmd = cmd ∧ bitAt (finishCmd cmd st code s).mgt.intStatus 2 = true := by
  rw [finishCmd_eq]
  exact ⟨rfl, rfl, rfl, bitAt_setBit_same _ 2 true (by decide)⟩

/-- The end of a command changes the management window and what has been sent, in the form of an equation. -/
theorem finishCmd_eq_frame (cmd : Byte) (st : CmdState) (code : U16) (s : State) :
    finishCmd cmd st code s =
      { s with mgt := (finishCmd cmd st code s).mgt, sent := (finishCmd cmd st code s).sent } := by
  rw [finishCmd_eq]

theorem finishCmd_flash (cmd : Byte) (st : CmdState) (code : U16) (s : State) :
    (finishCmd cmd st code s).flash = s.flash := by simp

theorem finishCmd_hbm (cmd : Byte) (st : CmdState) (code : U16) (s : State) :
    (finishCmd cmd st code s).hbm = s.hbm := by simp

/-! ## Copies in the flash devices (R382 to R385) -/

theorem Copy.length_le_of_valid {c : Copy} {key : Option (BitVec 512)} (h : c.valid key = true) :
    c.length ≤ 25165824 := by
  simp only [Copy.valid, Copy.layoutOk, Bool.and_eq_true, decide_eq_true_eq] at h
  omega

/-- The address under which a flash device's byte 0 is kept: flash A, or flash B. -/
def flashBase (b : Bool) : Nat := if b then 2 ^ 26 else 0

/-- The bytes of the flash devices once a copy is written whole: erased, then the body, then the header. -/
theorem programFlash_none_bytes (b : Bool) (bytes : List Byte) (s : State) :
    (programFlash b bytes none s).flash.bytes =
      Mem.write 0xFF
        (Mem.write 0xFF (Mem.clear s.flash.bytes (flashBase b) bytes.length) (flashBase b + 256) (bytes.drop 256))
        (flashBase b) (bytes.take 256) := by
  have hn : bytes.length - (bytes.drop 256).length = (bytes.take 256).length := by
    simp only [List.length_drop, List.length_take]; omega
  simp only [programFlash, Option.getD_none, hn, List.take_length]
  rw [List.take_of_length_le (by simp)]
  rfl

/-- A copy written whole reads back. -/
theorem read_programFlash_same (b : Bool) (bytes : List Byte) (s : State) :
    Mem.read 0xFF (programFlash b bytes none s).flash.bytes (flashBase b) bytes.length = bytes := by
  rw [programFlash_none_bytes]
  refine Mem.read_eq _ _ bytes _ fun i hi => ?_
  by_cases hd : i < 256
  · rw [Mem.get_write_same _ _ _ _ i (by simp; omega)]
    simp [List.getD, hd]
  · obtain ⟨j, rfl⟩ := Nat.exists_eq_add_of_le (Nat.le_of_not_lt hd)
    rw [Mem.get_write_other _ _ _ _ _ (by simp), ← Nat.add_assoc,
      Mem.get_write_same _ _ _ _ j (by simp; omega)]
    simp [List.getD]

/-- A copy written leaves every byte outside its extent alone. -/
theorem get_programFlash_other (b : Bool) (bytes : List Byte) (s : State) (x : Nat)
    (h : x < flashBase b ∨ flashBase b + bytes.length ≤ x) :
    Mem.get 0xFF (programFlash b bytes none s).flash.bytes x = Mem.get 0xFF s.flash.bytes x := by
  rw [programFlash_none_bytes,
    Mem.get_write_other _ _ _ _ _ (by rw [List.length_take]; omega),
    Mem.get_write_other _ _ _ _ _ (by rw [List.length_drop]; omega), Mem.get_clear, if_neg (by omega)]

theorem programFlash_eq_frame (b : Bool) (bytes : List Byte) (cut : Option Nat) (s : State) :
    programFlash b bytes cut s =
      { s with flash := { s.flash with bytes := (programFlash b bytes cut s).flash.bytes } } := rfl

/-- The Flash phase reads the flash devices and device memory and leaves the end of the last command standing. -/
theorem flashPhase_keeps (s : State) :
    (flashPhase s).flash.bytes = s.flash.bytes ∧ (flashPhase s).hbm.dev = s.hbm.dev ∧
    (flashPhase s).mgt.cmdState = s.mgt.cmdState ∧ (flashPhase s).mgt.cmdCode = s.mgt.cmdCode := by
  unfold flashPhase
  split <;> exact ⟨rfl, rfl, rfl, rfl⟩

/-! ## FLASH_PROGRAM (R385) -/

/-- READY and RECOVERY accept FLASH_PROGRAM, unless a command is busy (R380, R381). -/
theorem exec_flashProgram (cut : Option Nat) (s : State) (hrom : s.controllers.romDone = true)
    (hidle : s.mgt.cmdState ≠ .busy) (hst : s.mgt.state = .ready ∨ s.mgt.state = .recovery) :
    exec (.flashProgram cut) s = .next (flashProgram cut s) := by
  have hgo : entry .go true (.refuse Code.mgtBusyJob) s = .go := by
    rcases hst with h | h <;> simp [entry, cmdIgnored, hrom, hidle, h]
  change execFlashProgram cut s = _
  rw [execFlashProgram, hgo, runEntry]

/-- What FLASH_PROGRAM checks of a staged copy in every state: it lies in device memory, is valid under the key in force,
has the length that ARG1 gives, and its reserved fields are zero. -/
def StagedGood (s : State) : Prop :=
  s.mgt.arg0.toNat + s.mgt.arg1.toNat ≤ devTop ∧ (stagedCopy s s.mgt.arg0.toNat).length = s.mgt.arg1.toNat ∧
    (stagedCopy s s.mgt.arg0.toNat).valid s.flash.key = true ∧ (stagedCopy s s.mgt.arg0.toNat).reservedZero = true

/-- The staged copy's seq is higher than that of the copy in use (R384). -/
def StagedHigher (s : State) : Prop := seqHigher (stagedCopy s s.mgt.arg0.toNat).seq s.flash.seq.toNat = true

/-- The bytes that ARG0 and ARG1 name. -/
def argBytes (s : State) : List Byte := devRead s s.mgt.arg0.toNat s.mgt.arg1.toNat

theorem StagedGood.length_le {s : State} (h : StagedGood s) : (argBytes s).length ≤ 2 ^ 26 := by
  obtain ⟨-, hlen, hvalid, -⟩ := h
  have := Copy.length_le_of_valid hvalid
  rw [argBytes, devRead, Mem.read_length]
  omega

theorem flashProgram_ready_accepted (s : State) (hst : s.mgt.state = .ready) (hg : StagedGood s) (hh : StagedHigher s) :
    flashProgram none s = finishCmd 1 .done 0x0700 (programFlash (!s.flash.inUse.getD true) (argBytes s) none s) := by
  obtain ⟨hin, hlen, hvalid, hzero⟩ := hg
  rw [StagedHigher] at hh
  simp [flashProgram, hst, hin, hlen, hvalid, hzero, hh, argBytes, succeed, Code.mgtOk]

theorem flashProgram_ready_refused (cut : Option Nat) (s : State) (hst : s.mgt.state = .ready)
    (h : ¬ (StagedGood s ∧ StagedHigher s)) : flashProgram cut s = finishCmd 1 .refused 0x0703 s := by
  have hno : ¬ (s.mgt.arg0.toNat + s.mgt.arg1.toNat ≤ devTop ∧
      (stagedCopy s s.mgt.arg0.toNat).length = s.mgt.arg1.toNat ∧
      (stagedCopy s s.mgt.arg0.toNat).valid s.flash.key = true ∧
      (stagedCopy s s.mgt.arg0.toNat).reservedZero = true ∧
      (decide (s.mgt.state = .recovery) = true ∨
        seqHigher (stagedCopy s s.mgt.arg0.toNat).seq s.flash.seq.toNat = true)) := by
    rintro ⟨hin, hlen, hvalid, hzero, hrec | hhigh⟩
    · simp [hst] at hrec
    · exact h ⟨⟨hin, hlen, hvalid, hzero⟩, hhigh⟩
  rw [flashProgram, if_neg hno]
  rfl

theorem flashProgram_recovery_accepted (s : State) (hst : s.mgt.state = .recovery) (hg : StagedGood s) :
    flashProgram none s = flashPhase (finishCmd 1 .done 0x0700 (programFlash false (argBytes s) none s)) := by
  obtain ⟨hin, hlen, hvalid, hzero⟩ := hg
  simp [flashProgram, hst, hin, hlen, hvalid, hzero, argBytes, succeed, Code.mgtOk]

/-- The device's bytes once the staged copy is written to it: they read as the bytes staged, and every byte outside the
device is as before. -/
theorem programFlash_staged (b : Bool) (s : State) (hg : StagedGood s) :
    Mem.read 0xFF (programFlash b (argBytes s) none s).flash.bytes (flashBase b) s.mgt.arg1.toNat = argBytes s ∧
    ∀ x, (x < flashBase b ∨ flashBase b + 2 ^ 26 ≤ x) →
      Mem.get 0xFF (programFlash b (argBytes s) none s).flash.bytes x = Mem.get 0xFF s.flash.bytes x := by
  have hlen : (argBytes s).length = s.mgt.arg1.toNat := Mem.read_length _ _ _ _
  have hle := hg.length_le
  refine ⟨?_, fun x hx => get_programFlash_other b _ s x (by omega)⟩
  rw [← hlen]
  exact read_programFlash_same b (argBytes s) s

/-- The flash device that is not in use. -/
theorem flashBase_other (b : Bool) : flashBase (!b) = if b then 0 else 2 ^ 26 := by
  cases b <;> rfl

/-- In READY an accepted copy goes whole to the device not in use, and nothing else changes but the command's end. -/
theorem flashProgram_ready_writes (s : State) (hrom : s.controllers.romDone = true) (hidle : s.mgt.cmdState ≠ .busy)
    (hready : s.mgt.state = .ready) (hg : StagedGood s) (hh : StagedHigher s) :
    Answers (.flashProgram none) s fun t =>
      t = { s with flash := { s.flash with bytes := t.flash.bytes }, mgt := t.mgt, sent := t.sent } ∧
      t.mgt.cmdState = .done ∧ t.mgt.cmdCode = 0x0700 ∧ t.mgt.cmd = 1 ∧ bitAt t.mgt.intStatus 2 = true ∧
      Mem.read 0xFF t.flash.bytes (flashBase (!s.flash.inUse.getD true)) s.mgt.arg1.toNat = argBytes s ∧
      ∀ x, (x < flashBase (!s.flash.inUse.getD true) ∨ flashBase (!s.flash.inUse.getD true) + 2 ^ 26 ≤ x) →
        Mem.get 0xFF t.flash.bytes x = Mem.get 0xFF s.flash.bytes x := by
  have hexec := exec_flashProgram none s hrom hidle (.inl hready)
  rw [flashProgram_ready_accepted s hready hg hh] at hexec
  generalize hb : (!s.flash.inUse.getD true) = b at hexec ⊢
  obtain ⟨hstate, hcode, hcmd, hcause⟩ := finishCmd_mgt 1 .done 0x0700 (programFlash b (argBytes s) none s)
  refine ⟨_, hexec, ?_, hstate, hcode, hcmd, hcause, ?_⟩
  · rw [finishCmd_eq_frame, programFlash_eq_frame]
  · rw [finishCmd_flash]
    exact programFlash_staged b s hg

/-- In READY a copy that fails a check only ends the command. -/
theorem flashProgram_ready_refuses (cut : Option Nat) (s : State) (hrom : s.controllers.romDone = true)
    (hidle : s.mgt.cmdState ≠ .busy) (hready : s.mgt.state = .ready) (h : ¬ (StagedGood s ∧ StagedHigher s)) :
    Answers (.flashProgram cut) s fun t =>
      t = { s with mgt := t.mgt, sent := t.sent } ∧ t.mgt.cmdState = .refused ∧ t.mgt.cmdCode = 0x0703 := by
  have hexec := exec_flashProgram cut s hrom hidle (.inl hready)
  rw [flashProgram_ready_refused cut s hready h] at hexec
  obtain ⟨hstate, hcode, -, -⟩ := finishCmd_mgt 1 .refused 0x0703 s
  exact ⟨_, hexec, finishCmd_eq_frame _ _ _ _, hstate, hcode⟩

/-- In RECOVERY a good copy goes whole to flash A, whatever its seq; the Flash phase that follows writes no flash byte. -/
theorem flashProgram_recovery_writes (s : State) (hrom : s.controllers.romDone = true) (hidle : s.mgt.cmdState ≠ .busy)
    (hrec : s.mgt.state = .recovery) (hg : StagedGood s) :
    Answers (.flashProgram none) s fun t =>
      t.mgt.cmdState = .done ∧ t.mgt.cmdCode = 0x0700 ∧ t.hbm.dev = s.hbm.dev ∧
      Mem.read 0xFF t.flash.bytes 0 s.mgt.arg1.toNat = argBytes s ∧
      ∀ x, 2 ^ 26 ≤ x → Mem.get 0xFF t.flash.bytes x = Mem.get 0xFF s.flash.bytes x := by
  have hexec := exec_flashProgram none s hrom hidle (.inr hrec)
  rw [flashProgram_recovery_accepted s hrec hg] at hexec
  obtain ⟨hread, hother⟩ := programFlash_staged false s hg
  obtain ⟨hstate, hcode, -, -⟩ := finishCmd_mgt 1 .done 0x0700 (programFlash false (argBytes s) none s)
  obtain ⟨hbytes, hdev, hstate', hcode'⟩ :=
    flashPhase_keeps (finishCmd 1 .done 0x0700 (programFlash false (argBytes s) none s))
  rw [finishCmd_flash] at hbytes
  rw [finishCmd_hbm] at hdev
  refine ⟨_, hexec, hstate'.trans hstate, hcode'.trans hcode, hdev, ?_, fun x hx => ?_⟩
  · rw [hbytes]
    exact hread
  · rw [hbytes]
    exact hother x (.inr ((Nat.zero_add _).le.trans hx))

/-- Settles O8: the three cases of FLASH_PROGRAM, with the checks of the staged copy named. -/
theorem flashProgramWritesTheOtherCopy : Obligations.FlashProgramWritesTheOtherCopy := by
  intro s hrom hidle hready
  refine ⟨?accepted, ?refused, ?inRecovery⟩
  case accepted =>
    rintro ⟨hin, hlen, hvalid, hzero, hhigher⟩
    rw [← flashBase_other]
    exact flashProgram_ready_writes s hrom hidle hready ⟨hin, hlen, hvalid, hzero⟩ hhigher
  case refused =>
    intro hbad
    refine flashProgram_ready_refuses none s hrom hidle hready ?_
    rintro ⟨⟨hin, hlen, hvalid, hzero⟩, hhigher⟩
    exact hbad ⟨hin, hlen, hvalid, hzero, hhigher⟩
  case inRecovery =>
    intro hin hlen hvalid hzero
    exact flashProgram_recovery_writes _ hrom hidle rfl ⟨hin, hlen, hvalid, hzero⟩

end Sys2Proof.Machine
end

section
/-! Entries of a list that is changed in one place; ports that send heartbeats and go down, and the down table (O33). -/

namespace Sys2Proof.Machine

/-! ## One entry of a list changed -/

theorem nthD_updNth_same {α : Type} (d : α) (f : α → α) (xs : List α) (i : Nat) (h : i < xs.length) :
    nthD d (updNth f xs i) i = f (nthD d xs i) := by
  induction xs generalizing i with
  | nil => simp at h
  | cons x xs ih =>
    cases i with
    | zero => rfl
    | succ i => exact ih i (by simpa using h)

theorem nthD_updNth_other {α : Type} (d : α) (f : α → α) (xs : List α) (i k : Nat) (h : k ≠ i) :
    nthD d (updNth f xs i) k = nthD d xs k := by
  induction xs generalizing i k with
  | nil => rfl
  | cons x xs ih =>
    cases i with
    | zero =>
      cases k with
      | zero => exact absurd rfl h
      | succ k => rfl
    | succ i =>
      cases k with
      | zero => rfl
      | succ k => exact ih i k (by simpa using h)

theorem getPort_setPort_same (p : Nat) (f : Port → Port) (s : State) (h : p < s.fabric.ports.length) :
    getPort (setPort p f s) p = f (getPort s p) :=
  nthD_updNth_same _ f _ p h

theorem getPort_setPort_other (p k : Nat) (f : Port → Port) (s : State) (h : k ≠ p) :
    getPort (setPort p f s) k = getPort s k :=
  nthD_updNth_other _ f _ p k h

/-- A port's standing is read from the ports alone. -/
theorem getPort_congr {s t : State} (h : t.fabric.ports = s.fabric.ports) (p : Nat) : getPort t p = getPort s p := by
  rw [getPort, getPort, h]

/-! ## The down table (R278, R282) -/

theorem mem_addDown (l k : Link) (s : State) :
    k ∈ (addDown l s).fabric.down ↔ k ∈ s.fabric.down ∨ k = l := by
  unfold addDown
  split
  case isTrue h =>
    have hl : l ∈ s.fabric.down := by simpa using h
    exact ⟨.inl, fun hk => hk.elim id fun e => e ▸ hl⟩
  case isFalse => simp

/-- Entering a link changes the down table alone. -/
theorem addDown_eq (l : Link) (s : State) :
    addDown l s = { s with fabric := { s.fabric with down := (addDown l s).fabric.down } } := by
  unfold addDown
  split <;> rfl

theorem mem_removeDown (l k : Link) (s : State) :
    k ∈ (removeDown l s).fabric.down ↔ k ∈ s.fabric.down ∧ k ≠ l := by
  simp [removeDown]

/-! ## A port goes down (R281) -/

/-- An event is counted, and leaves the other counts alone (R375). -/
@[simp] theorem postEvent_status (code : U16) (op : U32) (detail : U16) (loc : U64) (s : State) :
    (postEvent code op detail loc s).status.counts = s.status.counts ∧
    (postEvent code op detail loc s).status.eventCount = s.status.eventCount + 1 := by
  simp [postEvent, StatusRec.addEvent]

theorem dropPort_job_hbm (p : PortId) (code : U16) (s : State) :
    (dropPort p code s).job = s.job ∧ (dropPort p code s).hbm = s.hbm := by
  rw [dropPort, addDown_eq]
  simp [setPort]

theorem dropPort_ports (p : PortId) (code : U16) (s : State) :
    (dropPort p code s).fabric.ports =
      updNth (fun q => { q.flush with phase := .down, attempts := 0 }) s.fabric.ports p.val := by
  rw [dropPort, addDown_eq]
  simp [setPort]

theorem mem_dropPort_down (p : PortId) (code : U16) (s : State) (k : Link) :
    k ∈ (dropPort p code s).fabric.down ↔ k ∈ s.fabric.down ∨ k = linkOf s p := by
  simp [dropPort, mem_addDown, setPort]

theorem dropPort_sends_notice (p : PortId) (code : U16) (s : State) :
    Out.send (.linkDown (linkOf s p)) ∈ (dropPort p code s).sent := by
  simp [dropPort]

theorem dropPort_status (p : PortId) (code : U16) (s : State) :
    (dropPort p code s).status.counts = { s.status.counts with portsDown := satInc s.status.counts.portsDown 1 } ∧
    (dropPort p code s).status.eventCount = s.status.eventCount + 1 := by
  rw [dropPort, addDown_eq]
  simp [withCounts, setPort]

/-- The port that goes down holds nothing any more. -/
theorem dropPort_getPort_same (p : PortId) (code : U16) (s : State) (h : p.val < s.fabric.ports.length) :
    getPort (dropPort p code s) p.val = { (getPort s p.val).flush with phase := .down, attempts := 0 } := by
  rw [getPort, dropPort_ports, nthD_updNth_same _ _ _ _ h]
  rfl

theorem dropPort_getPort_other (p : PortId) (code : U16) (s : State) (k : Nat) (h : k ≠ p.val) :
    getPort (dropPort p code s) k = getPort s k := by
  rw [getPort, dropPort_ports, nthD_updNth_other _ _ _ _ _ h]
  rfl

/-! ## The step that loses data replays (R21, R281) -/

/-- A job whose step is not committed: it runs, or is cut and not yet dumped. -/
def Job.uncommitted (j : Job) : Prop := j.phase = .inStep ∨ j.phase = .atCut ∨ j.phase = .dumping

/-- An abort takes back nothing that was sent. -/
theorem mem_abortStep_sent (s : State) (o : Out) (h : o ∈ s.sent) : o ∈ (abortStep s).sent := by
  unfold abortStep
  split
  · exact h
  · simp [h]

theorem abortStep_job (s : State) (j : Job) (hj : s.job = some j) :
    (abortStep s).job = some { j with phase := .aborted } := by
  simp [abortStep, hj]

theorem abortIfRunning_of_uncommitted (s : State) (j : Job) (hj : s.job = some j) (h : j.uncommitted) :
    abortIfRunning s = abortStep s := by
  rw [Job.uncommitted] at h
  simp [abortIfRunning, hj, h]

theorem abortIfRunning_eq_or (s : State) : abortIfRunning s = abortStep s ∨ abortIfRunning s = s := by
  unfold abortIfRunning
  split
  · split
    · exact .inl rfl
    · exact .inr rfl
  · exact .inr rfl

/-- The abort leaves fabric, memory and status record alone, and takes back nothing that was sent. -/
theorem abortIfRunning_keeps (s : State) :
    (abortIfRunning s).fabric = s.fabric ∧ (abortIfRunning s).hbm = s.hbm ∧ (abortIfRunning s).status = s.status ∧
    ∀ o ∈ s.sent, o ∈ (abortIfRunning s).sent := by
  rcases abortIfRunning_eq_or s with h | h <;> rw [h]
  · simpa using mem_abortStep_sent s
  · exact ⟨rfl, rfl, rfl, fun _ ho => ho⟩

/-- Something of the running step is lost with a port: in the port itself, or on the way as the cause tells. -/
def losesStep (p : PortId) (more : Bool) (s : State) : Bool := more || (getPort s p.val).holdsStep

theorem losePort_eq (p : PortId) (code : U16) (more : Bool) (s : State) :
    losePort p code more s = if losesStep p more s then abortIfRunning (dropPort p code s) else dropPort p code s := rfl

/-- Whether or not the step replays, the port's loss has done the same to fabric, memory, status and messages. -/
theorem losePort_keeps (p : PortId) (code : U16) (more : Bool) (s : State) :
    (losePort p code more s).fabric = (dropPort p code s).fabric ∧
    (losePort p code more s).hbm = (dropPort p code s).hbm ∧
    (losePort p code more s).status = (dropPort p code s).status ∧
    ∀ o ∈ (dropPort p code s).sent, o ∈ (losePort p code more s).sent := by
  rw [losePort_eq]
  split
  · exact abortIfRunning_keeps _
  · exact ⟨rfl, rfl, rfl, fun _ h => h⟩

theorem losePort_job_kept (p : PortId) (code : U16) (more : Bool) (s : State) (h : losesStep p more s = false) :
    (losePort p code more s).job = s.job := by
  rw [losePort_eq, h]
  exact (dropPort_job_hbm p code s).1

theorem losePort_job_aborted (p : PortId) (code : U16) (more : Bool) (s : State) (h : losesStep p more s = true) (j : Job)
    (hj : s.job = some j) (hrun : j.uncommitted) :
    (losePort p code more s).job = some { j with phase := .aborted } := by
  rw [losePort_eq, if_pos h]
  have hj' : (dropPort p code s).job = some j := (dropPort_job_hbm p code s).1.trans hj
  rw [abortIfRunning_of_uncommitted _ j hj' hrun]
  exact abortStep_job _ j hj'

/-! ## The commands -/

theorem exec_beat (port : PortId) (s : State) (h : (getPort s port.val).phase = .up) :
    exec (.beat port) s =
      .next (sendWord port (.beat 0 ((getPort s port.val).beats + 1) s.time.value)
        (setPort port.val (fun q => { q with beats := q.beats + 1 }) s)) := by
  change execBeat port s = _
  rw [execBeat, if_pos h]
  rfl

theorem exec_portDownTimeout (port : PortId) (more : Bool) (s : State) (h : (getPort s port.val).phase = .up) :
    exec (.portDownTimeout port more) s = .next (losePort port Code.evPortDown more s) := by
  change execPortDownTimeout port more s = _
  rw [execPortDownTimeout, if_pos h]

/-- Settles O33: a heartbeat changes its port's count alone, a port declared down does what `dropPort` does, with the abort
where the step loses data, and the notices move their link alone. -/
theorem portsBeatAndGoDown : Obligations.PortsBeatAndGoDown := by
  intro s port link hport
  refine ⟨fun hup => ?beat, fun hup more => ?down, ?notice, ?withdrawn⟩
  case beat =>
    refine ⟨_, exec_beat port s hup, rfl, ?_, fun p hp => ?_⟩
    · exact getPort_setPort_same port.val _ s hport
    · exact getPort_setPort_other port.val p _ s hp
  case down =>
    obtain ⟨hfabric, hhbm, hstatus, hsent⟩ := losePort_keeps port Code.evPortDown more s
    have hself := (getPort_congr (congrArg Fabric.ports hfabric) port.val).trans
      (dropPort_getPort_same port Code.evPortDown s hport)
    have hdown (l : Link) := mem_dropPort_down port Code.evPortDown s l
    rw [← hfabric] at hdown
    obtain ⟨hcounts, hevents⟩ := dropPort_status port Code.evPortDown s
    refine ⟨_, exec_portDownTimeout port more s hup, ?_, ?_, ?_, fun p hp => ?_, ?_, fun l => (hdown l).mp,
      fun l hl => (hdown l).mpr (.inl hl), hsent _ (dropPort_sends_notice port _ s),
      hhbm.trans (dropPort_job_hbm port _ s).2, ?_, ?_, fun hmore hq => ?_, fun hlost j hj hrun => ?_⟩
    · rw [hself]
    · rw [hself]; rfl
    · rw [hself]; rfl
    · exact (getPort_congr (congrArg Fabric.ports hfabric) p).trans (dropPort_getPort_other port _ s p hp)
    · exact (hdown _).mpr (.inr rfl)
    · rw [hstatus, hcounts]
    · rw [hstatus, hevents]
    · exact losePort_job_kept port _ more s (by simp [losesStep, hmore, hq])
    · exact losePort_job_aborted port _ more s (by simpa [losesStep] using hlost) j hj hrun
  case notice => exact ⟨addDown link s, rfl, addDown_eq link s, fun l => mem_addDown link l s⟩
  case withdrawn => exact ⟨removeDown link s, rfl, rfl, fun l => mem_removeDown link l s⟩

end Sys2Proof.Machine
end

section
/-! Stores copied back to the same places, and bits of device memory that a step's start clears (O47). -/

namespace Sys2Proof.Machine

/-! ## Ranges copied to the same places of another store -/

theorem Mem.le_of_mem_wfFrom {fill : Byte} {m : Mem} {lo : Nat} (h : Mem.wfFrom fill lo m = true) {c : Host.Cell}
    (hc : c ∈ m) : lo ≤ c.1 := by
  induction m generalizing lo with
  | nil => simp at hc
  | cons e m ih =>
    obtain ⟨k, v⟩ := e
    simp only [Mem.wfFrom, Bool.and_eq_true, decide_eq_true_eq] at h
    obtain ⟨⟨hk, -⟩, hrest⟩ := h
    rcases List.mem_cons.mp hc with rfl | hc
    · exact hk
    · exact Nat.le_of_succ_le (Nat.le_trans (Nat.succ_le_succ hk) (ih hrest hc))

theorem Mem.mem_of_mem_below {m : Mem} {a : Nat} {c : Host.Cell} (h : c ∈ Mem.below m a) : c ∈ m := by
  induction m with
  | nil => exact h
  | cons e m ih =>
    obtain ⟨k, v⟩ := e
    simp only [Mem.below] at h
    split at h
    · rcases List.mem_cons.mp h with rfl | h
      · exact List.mem_cons_self
      · exact List.mem_cons_of_mem _ (ih h)
    · simp at h

/-- Copied to its own place, a part of a canonical store keeps its addresses. -/
theorem Mem.copy_same_place (fill : Byte) (store m : Mem) (a n : Nat) (h : Mem.wf fill store = true) :
    Mem.copy store a n a m =
      Mem.below m a ++ (Mem.below (Mem.above store a) (a + n) ++ Mem.above m (a + n)) := by
  have hmap : (Mem.below (Mem.above store a) (a + n)).map (fun c => (c.1 - a + a, c.2)) =
      Mem.below (Mem.above store a) (a + n) := by
    refine (List.map_congr_left fun c hc => ?_).trans (List.map_id _)
    have ha : a ≤ c.1 := Mem.le_of_mem_wfFrom (Mem.wfFrom_above fill store 0 a h) (Mem.mem_of_mem_below hc)
    rw [Nat.sub_add_cancel ha]
    rfl
  rw [Mem.copy, hmap, List.append_assoc]

/-- A store into which a range of another was copied reads there as the other, and elsewhere as before. -/
theorem Mem.get_copy_same_place (fill : Byte) (store m : Mem) (a n b : Nat) (h : Mem.wf fill store = true) :
    Mem.get fill (Mem.copy store a n a m) b = if a ≤ b ∧ b < a + n then Mem.get fill store b else Mem.get fill m b := by
  rw [Mem.copy_same_place fill store m a n h]
  by_cases hlo : a ≤ b
  · rw [Mem.get_below_append _ _ _ _ _ hlo]
    by_cases hhi : b < a + n
    · rw [if_pos ⟨hlo, hhi⟩, Mem.get_below _ _ _ _ _ hhi (Mem.get_above_lt _ _ _ _ hhi), Mem.get_above _ _ _ _ hlo]
    · have hhi' : a + n ≤ b := Nat.le_of_not_lt hhi
      rw [if_neg (fun hb => hhi hb.2), Mem.get_below_append _ _ _ _ _ hhi', Mem.get_above _ _ _ _ hhi']
  · have hb : b < a := Nat.lt_of_not_le hlo
    have hb' : b < a + n := Nat.lt_of_lt_of_le hb (Nat.le_add_right a n)
    rw [if_neg (fun h => hlo h.1)]
    refine Mem.get_below _ _ _ _ _ hb ?_
    rw [Mem.get_below _ _ _ _ _ hb' (Mem.get_above_lt _ _ _ _ hb'), Mem.get_above_lt _ _ _ _ hb]

/-- Copied ranges read as in the store they come from, every other byte as before; where ranges overlap, each copy puts the
same bytes. -/
theorem get_copyRanges (src : Mem) (rs : List Range) (m : Mem) (b : Nat) (h : Mem.wf 0 src = true) :
    Mem.get 0 (copyRanges src rs m) b = if inRanges rs b then Mem.get 0 src b else Mem.get 0 m b := by
  induction rs generalizing m with
  | nil => rfl
  | cons r rs ih =>
    have step : copyRanges src (r :: rs) m = copyRanges src rs (Mem.copy src r.base r.len r.base m) := rfl
    rw [step, ih, Mem.get_copy_same_place _ _ _ _ _ _ h]
    by_cases hr : r.base ≤ b ∧ b < r.base + r.len
    · simp [inRanges, inRange, hr]
    · have hr' : inRange r b = false := by simpa [inRange] using hr
      simp [inRanges, hr, hr']

theorem read_copyRanges_inside (src : Mem) (rs : List Range) (m : Mem) (h : Mem.wf 0 src = true) (r : Range) (hr : r ∈ rs)
    (x n : Nat) (hlo : r.base ≤ x) (hhi : x + n ≤ r.base + r.len) :
    Mem.read 0 (copyRanges src rs m) x n = Mem.read 0 src x n := by
  refine Mem.read_congr _ _ _ _ _ fun b hb hb' => ?_
  have hin : inRanges rs b = true := List.any_eq_true.mpr ⟨r, hr, by simp [inRange]; omega⟩
  rw [get_copyRanges src rs m b h, if_pos hin]

theorem read_copyRanges_outside (src : Mem) (rs : List Range) (m : Mem) (h : Mem.wf 0 src = true) (x : Nat)
    (hx : ∀ r ∈ rs, x < r.base ∨ r.base + r.len ≤ x) :
    Mem.read 0 (copyRanges src rs m) x 1 = Mem.read 0 m x 1 := by
  refine Mem.read_congr _ _ _ _ _ fun b hb hb' => ?_
  obtain rfl : b = x := by omega
  have hout : inRanges rs b = false := by
    refine List.any_eq_false.mpr fun r hr => ?_
    have := hx r hr
    simp [inRange]; omega
  rw [get_copyRanges src rs m b h, hout]
  rfl

/-! ## Bits of device memory that are cleared (R254) -/

theorem mem_upFrom (lo n x : Nat) : x ∈ upFrom lo n ↔ lo ≤ x ∧ x < lo + n := by
  induction n generalizing lo with
  | zero => simp [upFrom]
  | succ n ih => simp only [upFrom, List.mem_cons, ih]; omega

/-- A presence bit is a bit of its byte in device memory. -/
theorem presentBit_eq (s : State) (bitmap tile : Nat) :
    presentBit s bitmap tile = bitAt (Mem.get 0 s.hbm.dev (bitmap + tile / 8)) (tile % 8) := by
  simp [presentBit, devNat, devRead, Mem.read, ofLe, bitAt, BitVec.getLsbD, Nat.testBit_eq_decide_div_mod_eq,
    beq_eq_decide]

/-- Only bytes of device memory have been written, and no bit in them set. -/
structure ClearsDev (s t : State) : Prop where
  frame : t = { s with hbm := { s.hbm with dev := t.hbm.dev, poison := t.hbm.poison } }
  cleared : ∀ a n, bitAt (Mem.get 0 s.hbm.dev a) n = false → bitAt (Mem.get 0 t.hbm.dev a) n = false

theorem ClearsDev.refl (s : State) : ClearsDev s s := ⟨rfl, fun _ _ h => h⟩

theorem ClearsDev.trans {s t u : State} (h : ClearsDev s t) (h' : ClearsDev t u) : ClearsDev s u where
  frame := by rw [h'.frame, h.frame]
  cleared a n hs := h'.cleared a n (h.cleared a n hs)

theorem ClearsDev.foldl {α : Type} {g : State → α → State} (h : ∀ u x, ClearsDev u (g u x)) (xs : List α) (s : State) :
    ClearsDev s (xs.foldl g s) := by
  induction xs generalizing s with
  | nil => exact ClearsDev.refl s
  | cons x xs ih => exact (h s x).trans (ih (g s x))

theorem ClearsDev.presentBit {s t : State} (h : ClearsDev s t) {bitmap tile : Nat}
    (hs : presentBit s bitmap tile = false) : presentBit t bitmap tile = false := by
  rw [presentBit_eq] at hs ⊢
  exact h.cleared _ _ hs

/-- A bit that one of several clearings clears is clear behind them all. -/
theorem presentBit_foldl {α : Type} {g : State → α → State} (h : ∀ u x, ClearsDev u (g u x)) {xs : List α} {x : α}
    (hx : x ∈ xs) {bitmap tile : Nat} (hclear : ∀ u, presentBit (g u x) bitmap tile = false) (s : State) :
    presentBit (xs.foldl g s) bitmap tile = false := by
  obtain ⟨before, behind, rfl⟩ := List.append_of_mem hx
  rw [List.foldl_append, List.foldl_cons]
  exact (ClearsDev.foldl h behind _).presentBit (hclear _)

/-- The byte that holds a bit that is cleared loses that bit, every other byte is as before. -/
theorem get_putPresent_false (bitmap k a : Nat) (s : State) :
    Mem.get 0 (putPresent bitmap false k s).hbm.dev a =
      if a = bitmap + k / 8 then setBit (Mem.get 0 s.hbm.dev a) (k % 8) false else Mem.get 0 s.hbm.dev a := by
  have hbyte : BitVec.ofNat 8 (devNat s (bitmap + k / 8) 1) = Mem.get 0 s.hbm.dev (bitmap + k / 8) := by
    simp [devNat, devRead, Mem.read, ofLe]
  simp only [putPresent, hbyte, devWrite]
  by_cases ha : a = bitmap + k / 8
  · subst ha
    rw [if_pos rfl]
    exact Mem.get_write_same 0 s.hbm.dev _ [_] 0 (by simp)
  · rw [if_neg ha]
    exact Mem.get_write_other 0 s.hbm.dev _ [_] a (by simp; omega)

theorem clearsDev_putPresent (bitmap k : Nat) (s : State) : ClearsDev s (putPresent bitmap false k s) where
  frame := rfl
  cleared a n h := by
    rw [get_putPresent_false]
    split
    · rw [bitAt] at h
      rw [bitAt, setBit, getLsbD_setField, h]
      split <;> simp
    · exact h

theorem presentBit_putPresent_false (bitmap k : Nat) (s : State) :
    presentBit (putPresent bitmap false k s) bitmap k = false := by
  rw [presentBit_eq, get_putPresent_false, if_pos rfl, bitAt_setBit_same _ _ _ (Nat.mod_lt _ (by decide))]

theorem get_zeros (a n b : Nat) (s : State) :
    Mem.get 0 (devWrite a (List.replicate n 0) s).hbm.dev b =
      if a ≤ b ∧ b < a + n then 0 else Mem.get 0 s.hbm.dev b := by
  by_cases h : a ≤ b ∧ b < a + n
  · obtain ⟨i, rfl⟩ := Nat.exists_eq_add_of_le h.1
    rw [if_pos h, devWrite, Mem.get_write_same _ _ _ _ i (by simp; omega)]
    simp
  · rw [if_neg h, devWrite, Mem.get_write_other _ _ _ _ b (by simp; omega)]

theorem clearsDev_zeros (a n : Nat) (s : State) : ClearsDev s (devWrite a (List.replicate n 0) s) where
  frame := rfl
  cleared b k h := by
    rw [get_zeros]
    split
    · simp [bitAt]
    · exact h

theorem clearsDev_clearBits (bitmap tiles : Nat) (s : State) : ClearsDev s (clearBits bitmap tiles s) :=
  (clearsDev_zeros bitmap (tiles / 8) s).trans (ClearsDev.foldl (fun u k => clearsDev_putPresent bitmap k u) _ _)

/-- Every bit of a bitmap that is cleared is clear: those of whole bytes with the bytes, the last ones by themselves. -/
theorem presentBit_clearBits (bitmap tiles i : Nat) (h : i < tiles) (s : State) :
    presentBit (clearBits bitmap tiles s) bitmap i = false := by
  by_cases hi : i / 8 < tiles / 8
  · refine (ClearsDev.foldl (fun u k => clearsDev_putPresent bitmap k u) _ _).presentBit ?_
    rw [presentBit_eq, get_zeros, if_pos (by omega)]
    simp [bitAt]
  · have hmem : i ∈ upFrom (8 * (tiles / 8)) (tiles % 8) := by rw [mem_upFrom]; omega
    exact presentBit_foldl (fun u k => clearsDev_putPresent bitmap k u) hmem
      (fun u => presentBit_putPresent_false bitmap i u) _

theorem clearsDev_clearBuffer (s : State) (b : GradBuf) : ClearsDev s (clearBits b.bitmap b.tiles s) :=
  clearsDev_clearBits b.bitmap b.tiles s

theorem clearsDev_clearReplica (s : State) (b : ReplicaBuf) :
    ClearsDev s (clearBits b.destBitmap b.tiles (clearBits b.bitmap b.tiles s)) :=
  (clearsDev_clearBits _ _ s).trans (clearsDev_clearBits _ _ _)

theorem clearsDev_clearPresence (s : State) : ClearsDev s (clearPresence s) := by
  unfold clearPresence
  split
  · exact ClearsDev.refl s
  · exact (ClearsDev.foldl clearsDev_clearBuffer _ s).trans
      (ClearsDev.foldl clearsDev_clearReplica _ _)

theorem presentBit_clearPresence (s : State) (j : Job) (hj : s.job = some j) (g : GradBuf) (hg : g ∈ j.image.buffers)
    (i : Nat) (hi : i < g.tiles) : presentBit (clearPresence s) g.bitmap i = false := by
  simp only [clearPresence, hj]
  refine (ClearsDev.foldl clearsDev_clearReplica _ _).presentBit ?_
  exact presentBit_foldl clearsDev_clearBuffer hg
    (fun u => presentBit_clearBits g.bitmap g.tiles i hi u) s

end Sys2Proof.Machine
end

section
/-! How a job stops and halts, and the start of a step (O47). -/

namespace Sys2Proof.Machine

/-! ## A stop (R374) -/

theorem refreshRuns_congr {s t : State} (h : t.recovery = s.recovery) : refreshRuns t = refreshRuns s := by
  rw [refreshRuns, refreshRuns, h]

theorem endJob_ends (code : U16) (s : State) :
    (endJob code s).job = none ∧ (endJob code s).status.status = code ∧
    (endJob code s).mgt.state = if s.time.running then .ready else .boot := by
  simp [endJob]

theorem concludeJob_ends (code : U16) (s : State) (j : Job) (hj : s.job = some j) : Ends code s (concludeJob code s) := by
  refine ⟨j, hj, fun hr => ?_, fun hr => ?_⟩
  · simp [concludeJob, hj, hr]
  · have hend : concludeJob code s = endJob (endStatus j code) s := by simp [concludeJob, hj, hr]
    rw [hend]
    exact endJob_ends _ s

/-- Whether and how a job ends is read from the job, the recovery state and the clock it had. -/
theorem Ends.of_same {code : U16} {s u t : State} (h : Ends code u t) (hj : u.job = s.job)
    (hr : u.recovery = s.recovery) (ht : u.time = s.time) : Ends code s t := by
  rw [Ends, hj, refreshRuns_congr hr, ht] at h
  exact h

theorem Ends.leaveRink {code : U16} {s t : State} (h : Ends code s t) : Ends code s (leaveRink t) := by
  simpa [Ends] using h

/-- A stop that is no halt ends the job with its code. -/
theorem stopJob_ends (code : U16) (op : U32) (loc : U64) (s : State) (j : Job) (hj : s.job = some j)
    (hc : isHalt code = false) : Ends code s (stopJob code op loc s) := by
  simp only [stopJob, hj, hc]
  exact (Ends.of_same (concludeJob_ends code _ j (by simp [hj])) (by simp) (by simp) (by simp)).leaveRink

/-! ## A halt (R328) -/

/-- The job stands halted with a status. -/
def HaltsWith (code : U16) (t : State) : Prop :=
  t.status.status = code ∧ ∃ k, t.job = some k ∧ k.phase = .halted ∧ k.stop = code

theorem leaveRink_haltsWith {code : U16} {t : State} (h : HaltsWith code t) : HaltsWith code (leaveRink t) := by
  simpa [HaltsWith] using h

theorem haltJob_haltsWith (code : U16) (op : U32) (loc : U64) (s : State) (j : Job) (hj : s.job = some j)
    (h : j.phase ≠ .halted) : HaltsWith code (haltJob code op loc s) := by
  simp only [haltJob, takeHalt, emit_frame, hj, if_neg h]
  exact leaveRink_haltsWith ⟨by simp, _, rfl, rfl, rfl⟩

/-! ## The active set at a step's start (R296, R322) -/

/-- Rinks that leave or rejoin change the collective engine alone. -/
theorem boundarySet_eq (s : State) : boundarySet s = { s with coll := (boundarySet s).coll } := by
  have drop : ∀ (rs : List Nat) (u : State),
      rs.foldl (fun u r => dropRink r u) u = { u with coll := (rs.foldl (fun u r => dropRink r u) u).coll } := by
    intro rs
    induction rs with
    | nil => intro u; rfl
    | cons r rs ih => intro u; rw [List.foldl_cons, ih]; rfl
  unfold boundarySet
  split
  · rfl
  · simp only
    rw [drop]

theorem boundarySet_entered (s : State) : (boundarySet s).coll.entered = s.coll.entered := by
  unfold boundarySet
  split
  · rfl
  · exact foldl_keeps (fun u => u.coll.entered) (fun u r => dropRink r u) (fun _ _ => rfl) s.coll.leaves s

@[simp] theorem boundarySet_frame (s : State) :
    (boundarySet s).job = s.job ∧ (boundarySet s).status = s.status ∧ (boundarySet s).hbm = s.hbm ∧
    (boundarySet s).cores = s.cores ∧ (boundarySet s).kv = s.kv ∧ (boundarySet s).recovery = s.recovery ∧
    (boundarySet s).time = s.time := by
  rw [boundarySet_eq]
  exact ⟨rfl, rfl, rfl, rfl, rfl, rfl, rfl⟩

/-! ## A step that waits on its input (R332, R370) -/

theorem waitInput_shows (s : State) :
    (waitInput s).job = s.job ∧ (waitInput s).hbm = s.hbm ∧ (waitInput s).cores = s.cores ∧
    (waitInput s).status.inputWait = true ∧
    (waitInput s).status.counts.inputWaits =
      if s.status.inputWait then s.status.counts.inputWaits else satInc s.status.counts.inputWaits 1 := by
  by_cases h : s.status.inputWait = true
  · simp [waitInput, h]
  · simp [waitInput, h, withCounts]

/-! ## A step that takes its records (R370) -/

/-- Device memory alone has been written. -/
def WritesDev (s t : State) : Prop :=
  t = { s with hbm := { s.hbm with dev := t.hbm.dev, poison := t.hbm.poison } }

theorem writesDev_takeTables (j : Job) (rs : List Range) (s : State) : WritesDev s (rs.foldl (takeTable j) s) := by
  induction rs generalizing s with
  | nil => rfl
  | cons r rs ih =>
    have h : WritesDev (takeTable j s r) ((r :: rs).foldl (takeTable j) s) := ih (takeTable j s r)
    rw [WritesDev] at h ⊢
    rw [h]
    rfl

/-- The job with the records that the step takes at its first attempt. -/
def Job.withRecords (j : Job) (s : State) : Job :=
  { j with
    admitted := some s.status.step.toNat
    taken := j.image.admissionTables.map fun r => (tableDue s j r).map (recordPlace r) }

/-- Taking records writes the tables' counts in device memory and the job. -/
theorem takeRecords_eq (j : Job) (s : State) :
    takeRecords j s =
      { s with
        job := some (j.withRecords s)
        hbm := { s.hbm with dev := (takeRecords j s).hbm.dev, poison := (takeRecords j s).hbm.poison } } := by
  have h := writesDev_takeTables j j.image.admissionTables s
  rw [WritesDev] at h
  simp only [takeRecords]
  rw [h]
  rfl

/-! ## A step that begins (R21, R193, R254, R132 to R135) -/

/-- The state in which the step's units are fresh and its generators seeded, with the presence bitmaps and the cores'
stores still to be cleared. -/
def stepSeeded (s : State) : State :=
  let t := keepStart (endCommands (withStatus (fun r => { r with inputWait := false }) s))
  seedLanes { t with msu := Msu.reset, coll := freshColl t.coll }

theorem beginStep_eq (s : State) : beginStep s = setPhase .inStep (freshStores (clearPresence (stepSeeded s))) := rfl

theorem stepSeeded_job (s : State) (j : Job) (hj : s.job = some j) : (stepSeeded s).job = some j := by
  simp [stepSeeded, seedLanes, keepStart, endCommands, hj]

theorem stepSeeded_frame (s : State) (j : Job) (hj : s.job = some j) :
    (stepSeeded s).hbm = s.hbm ∧ (stepSeeded s).cores.ctl = [] ∧ (stepSeeded s).ended = [] ∧
    (stepSeeded s).msu = Msu.reset ∧ (stepSeeded s).status.inputWait = false ∧
    (stepSeeded s).coll.entered = s.coll.entered.filter (· == noOp) := by
  simp [stepSeeded, seedLanes, keepStart, endCommands, freshColl, hj]

theorem stepSeeded_lanes (s : State) (j : Job) (hj : s.job = some j) :
    (stepSeeded s).cores.lanes.runSeed = Desc.runSeed j.desc ∧ (stepSeeded s).cores.lanes.step = s.status.step ∧
    (stepSeeded s).cores.lanes.ctrs = [] := by
  simp [stepSeeded, seedLanes, keepStart, endCommands, hj]

theorem stepSeeded_start (s : State) (j : Job) (hj : s.job = some j) :
    (stepSeeded s).kv.start =
      some ⟨s.kv.index, s.kv.refs, s.kv.freeQ, copyRanges s.hbm.dev (heldRanges j.image) []⟩ := by
  simp [stepSeeded, seedLanes, keepStart, endCommands, hj]

/-- What a step that begins with job `j` in state `s` makes of it. -/
structure StepBegun (j : Job) (s t : State) : Prop where
  job : t.job = some { j with phase := .inStep }
  inputWait : t.status.inputWait = false
  controllers : t.cores.ctl = []
  ended : t.ended = []
  units : t.msu = Msu.reset
  stamps : t.hbm.stamps = s.hbm.stamps
  entered : t.coll.entered = s.coll.entered.filter (· == noOp)
  runSeed : t.cores.lanes.runSeed = Desc.runSeed j.desc
  laneStep : t.cores.lanes.step = s.status.step
  counters : t.cores.lanes.ctrs = []
  absent : ∀ g ∈ j.image.buffers, ∀ i, i < g.tiles → presentBit t g.bitmap i = false
  start : ∃ k, t.kv.start = some k ∧ k.index = s.kv.index ∧ k.refs = s.kv.refs ∧ k.freeQ = s.kv.freeQ
  scratch : t.cores.scratch = []
  drain : t.cores.drain = []
  rings : t.cores.rings = []
  haloSent : t.cores.haloSent = []
  haloReady : t.cores.haloReady = []
  counted : t.hbm.counted = []

theorem beginStep_begun (s : State) (j : Job) (hj : s.job = some j) : StepBegun j s (beginStep s) := by
  have hjob := stepSeeded_job s j hj
  obtain ⟨hhbm, hctl, hended, hmsu, hwait, hentered⟩ := stepSeeded_frame s j hj
  obtain ⟨hseed, hstep, hctrs⟩ := stepSeeded_lanes s j hj
  have hstart := stepSeeded_start s j hj
  have habsent := presentBit_clearPresence _ j hjob
  have hclear := (clearsDev_clearPresence (stepSeeded s)).frame
  rw [beginStep_eq]
  generalize clearPresence (stepSeeded s) = t at habsent hclear ⊢
  constructor
  case job => rw [hclear]; simp [setPhase, freshStores, hjob]
  case absent => exact habsent
  case start => exact ⟨_, (congrArg (fun u => u.kv.start) hclear).trans hstart, rfl, rfl, rfl⟩
  all_goals rw [hclear]; simp [setPhase, freshStores, hhbm, hctl, hended, hmsu, hwait, hentered, hseed, hstep, hctrs]

theorem takeManifest_of_not_replayMode (s : State) (j : Job) (hj : s.job = some j) (h : Desc.replayMode j.desc = false) :
    takeManifest s = s := by
  simp only [takeManifest, hj, h]
  split <;> simp

/-- A step whose records are taken already begins, and takes them as they were. -/
theorem startStep_again (j : Job) (s : State) (hj : s.job = some j) (h : Desc.replayMode j.desc = false)
    (hadm : j.admitted = some s.status.step.toNat) : startStep j s = beginStep s := by
  rw [startStep, if_pos (by simp [hadm])]
  exact takeManifest_of_not_replayMode _ _ (beginStep_begun s j hj).job h

/-- A step at its first attempt, with none of its records late, takes them and begins. -/
theorem startStep_first (j : Job) (s : State) (h : Desc.replayMode j.desc = false)
    (hadm : j.admitted ≠ some s.status.step.toNat) (hlate : lateRecord s j = none) :
    startStep j s = beginStep (takeRecords j s) := by
  have hjob : (takeRecords j s).job = some (j.withRecords s) := by rw [takeRecords_eq]
  rw [startStep, if_neg (by simpa using hadm)]
  simp only [hlate]
  exact takeManifest_of_not_replayMode _ _ (beginStep_begun _ _ hjob).job h

theorem startStep_late (j : Job) (s : State) (k : Nat) (hadm : j.admitted ≠ some s.status.step.toNat)
    (hlate : lateRecord s j = some k) : startStep j s = stopJob 0x0607 noOp (BitVec.ofNat 64 k) s := by
  rw [startStep, if_neg (by simpa using hadm)]
  simp only [hlate]
  rfl

/-! ## STEP_START -/

theorem exec_stepStart_idle (s : State) (j : Job) (hj : s.job = some j)
    (h : j.phase ≠ .boundary ∨ s.recovery.paused = true ∨ s.recovery.left = true) : exec .stepStart s = .next s := by
  change execStepStart s = _
  simp only [execStepStart, hj, if_pos h]

section
variable {s : State} {j : Job} (hj : s.job = some j) (hphase : j.phase = .boundary) (hp : s.recovery.paused = false)
  (hl : s.recovery.left = false)
include hj hphase hp hl

/-- At its boundary a step is judged on the state with its active set: a row that is missing comes first, then the
input. -/
theorem exec_stepStart_noRow {op : U32} (hrow : missingRow (boundarySet s) j = some op) :
    exec .stepStart s = .next (stopJob 0x0305 op 0 (boundarySet s)) := by
  change execStepStart s = _
  simp [execStepStart, hj, hphase, hp, hl, hrow, Code.updNoRow]

theorem exec_stepStart_waits (hrow : missingRow (boundarySet s) j = none) (hin : inputReady (boundarySet s) j = false) :
    exec .stepStart s = .next (waitInput (boundarySet s)) := by
  change execStepStart s = _
  simp [execStepStart, hj, hphase, hp, hl, hrow, hin]

theorem exec_stepStart_starts (hrow : missingRow (boundarySet s) j = none) (hin : inputReady (boundarySet s) j = true) :
    exec .stepStart s = .next (startStep j (boundarySet s)) := by
  change execStepStart s = _
  simp [execStepStart, hj, hphase, hp, hl, hrow, hin]

end

end Sys2Proof.Machine
end

section
/-! The commit barrier: what the commit does in the units, and what the step boundary behind it leaves alone (O47). -/

namespace Sys2Proof.Machine

/-! ## The parts of a commit (R304, R332) -/

/-- The sets of a step are shown in the status record and written to host memory. -/
@[simp] theorem publishOwn_frame (s : State) :
    (publishOwn s).job = s.job ∧ (publishOwn s).hbm = s.hbm ∧ (publishOwn s).recovery = s.recovery ∧
    (publishOwn s).banks = s.banks ∧ (publishOwn s).power = s.power ∧ (publishOwn s).site = s.site := by
  unfold publishOwn
  split
  · simp
  · split
    · simp
    · unfold publishSets recordSets
      split
      · simp
      · split <;> simp

theorem releaseChan_frame (k : Nat) (s : State) (ch : Nat) :
    (releaseChan k s ch).job = s.job ∧ (releaseChan k s ch).hbm = s.hbm ∧ (releaseChan k s ch).cores = s.cores ∧
    (releaseChan k s ch).recovery = s.recovery ∧ (releaseChan k s ch).banks = s.banks ∧
    (releaseChan k s ch).power = s.power ∧ (releaseChan k s ch).site = s.site := by
  simp only [releaseChan]
  split <;> simp [setChan]

/-- The release of a batch moves its channels on, in the Gatehouse and in host memory. -/
@[simp] theorem releaseBatch_frame (j : Job) (step : Nat) (s : State) :
    (releaseBatch j step s).job = s.job ∧ (releaseBatch j step s).hbm = s.hbm ∧
    (releaseBatch j step s).cores = s.cores ∧ (releaseBatch j step s).recovery = s.recovery ∧
    (releaseBatch j step s).banks = s.banks ∧ (releaseBatch j step s).power = s.power ∧
    (releaseBatch j step s).site = s.site := by
  have keeps {β : Type} (p : State → β) (h : ∀ k u ch, p (releaseChan k u ch) = p u) :
      p (releaseBatch j step s) = p s :=
    foldl_keeps p (releaseChan (step - Desc.firstStep j.desc)) (h _) (activeChans s) s
  refine ⟨keeps (fun u => u.job) ?_, keeps (fun u => u.hbm) ?_, keeps (fun u => u.cores) ?_,
    keeps (fun u => u.recovery) ?_, keeps (fun u => u.banks) ?_, keeps (fun u => u.power) ?_,
    keeps (fun u => u.site) ?_⟩
  all_goals intro k u ch; simp [releaseChan_frame]

@[simp] theorem endCommands_frame (s : State) :
    (endCommands s).job = s.job ∧ (endCommands s).hbm = s.hbm ∧ (endCommands s).recovery = s.recovery ∧
    (endCommands s).power = s.power ∧ (endCommands s).site = s.site ∧ (endCommands s).cores.ctl = [] ∧
    (endCommands s).banks.active = s.banks.active ∧ (endCommands s).banks.pending = s.banks.pending :=
  ⟨rfl, rfl, rfl, rfl, rfl, rfl, rfl, rfl⟩

/-- A pending image becomes active, and then none is pending. -/
theorem swapBanks_active (b : Banks) :
    (swapBanks b).active = (b.active != b.pending) ∧ (swapBanks b).pending = false := by
  rcases b with ⟨b0, b1, active, pending, waiting⟩
  cases active <;> cases pending <;> exact ⟨rfl, rfl⟩

/-- The job behind the commit of a step: its next boundary, or, behind the last step, the last refresh. -/
def Job.committed (j : Job) (step : U64) : Job :=
  if step.toNat = Desc.lastStep j.desc then { j with replays := 0, phase := .refreshing, stop := 0x0002 }
  else { j with replays := 0, phase := .boundary }

/-- What the commit of a step writes. -/
theorem commitUnits_writes (j : Job) (s : State) :
    (commitUnits j s).hbm = { s.hbm with commitWord := s.status.step } ∧
    (commitUnits j s).job = some (j.committed s.status.step) ∧
    (commitUnits j s).kv.start = none ∧ (commitUnits j s).cores.ctl = [] ∧
    (commitUnits j s).power = s.power := by
  unfold commitUnits
  simp only
  split <;> simp [Job.committed, Code.jobDone]

/-- The refresh that a commit leaves due, and the banks that it swaps. -/
theorem commitUnits_leaves (j : Job) (s : State) :
    (commitUnits j s).recovery.refreshing = true ∧ (commitUnits j s).recovery.refreshStep = s.status.step ∧
    (commitUnits j s).recovery.replicaOk = !siteSeveral s.site ∧
    (commitUnits j s).banks.active = (s.banks.active != s.banks.pending) ∧
    (commitUnits j s).banks.pending = false := by
  unfold commitUnits
  simp only
  split <;> simp [swapBanks_active]

/-! ## The step boundary (R239, R241, R426, R322, R325) -/

/-- A remapped row changes the list of remapped rows, the status record and host memory. -/
theorem remapRow_frame (r : RowAddr) (s : State) :
    (remapRow r s).hbm.commitWord = s.hbm.commitWord ∧ (remapRow r s).hbm.dev = s.hbm.dev ∧
    (remapRow r s).hbm.stamps = s.hbm.stamps ∧ (remapRow r s).job = s.job ∧ (remapRow r s).kv = s.kv ∧
    (remapRow r s).cores = s.cores ∧ (remapRow r s).banks = s.banks ∧ (remapRow r s).recovery = s.recovery ∧
    (remapRow r s).power = s.power := by
  unfold remapRow
  split
  · simp
  · split <;> simp

@[simp] theorem remapRows_frame (s : State) :
    (remapRows s).hbm.commitWord = s.hbm.commitWord ∧ (remapRows s).hbm.dev = s.hbm.dev ∧
    (remapRows s).hbm.stamps = s.hbm.stamps ∧ (remapRows s).job = s.job ∧ (remapRows s).kv = s.kv ∧
    (remapRows s).cores = s.cores ∧ (remapRows s).banks = s.banks ∧ (remapRows s).recovery = s.recovery ∧
    (remapRows s).power = s.power := by
  have keeps {β : Type} (p : State → β) (h : ∀ u r, p (remapRow r u) = p u) :
      p (s.hbm.remapDue.foldl (fun u r => remapRow r u) s) = p s :=
    foldl_keeps p (fun u r => remapRow r u) h s.hbm.remapDue s
  unfold remapRows
  refine ⟨keeps (fun u => u.hbm.commitWord) ?_, keeps (fun u => u.hbm.dev) ?_, keeps (fun u => u.hbm.stamps) ?_,
    keeps (fun u => u.job) ?_, keeps (fun u => u.kv) ?_, keeps (fun u => u.cores) ?_, keeps (fun u => u.banks) ?_,
    keeps (fun u => u.recovery) ?_, keeps (fun u => u.power) ?_⟩
  all_goals intro u r; simp [remapRow_frame]

/-- A rotation changes the core map and the record of cores under test. -/
@[simp] theorem rotateAt_frame (j : Job) (step : Nat) (s : State) :
    (rotateAt j step s).hbm.commitWord = s.hbm.commitWord ∧ (rotateAt j step s).hbm.dev = s.hbm.dev ∧
    (rotateAt j step s).hbm.stamps = s.hbm.stamps ∧ (rotateAt j step s).job = s.job ∧ (rotateAt j step s).kv = s.kv ∧
    (rotateAt j step s).cores = s.cores ∧ (rotateAt j step s).banks = s.banks ∧
    (rotateAt j step s).recovery = s.recovery ∧ (rotateAt j step s).power = s.power := by
  have hrot : rotate s =
      { s with hbm := { s.hbm with coreMap := (rotate s).hbm.coreMap }, selfTest := (rotate s).selfTest } := by
    unfold rotate
    split
    · rfl
    · split
      · rfl
      · split <;> rfl
  unfold rotateAt
  simp only
  split
  · rw [hrot]
    exact ⟨rfl, rfl, rfl, rfl, rfl, rfl, rfl, rfl, rfl⟩
  · exact ⟨rfl, rfl, rfl, rfl, rfl, rfl, rfl, rfl, rfl⟩

@[simp] theorem feedJoiners_frame (next : U64) (s : State) :
    (feedJoiners next s).hbm = s.hbm ∧ (feedJoiners next s).job = s.job ∧ (feedJoiners next s).kv = s.kv ∧
    (feedJoiners next s).cores = s.cores ∧ (feedJoiners next s).banks = s.banks ∧
    (feedJoiners next s).recovery = s.recovery ∧ (feedJoiners next s).power = s.power := by
  unfold feedJoiners
  split <;> simp

@[simp] theorem paceRinkEval_frame (waitBp : Nat) (s : State) :
    (paceRinkEval waitBp s).hbm = s.hbm ∧ (paceRinkEval waitBp s).job = s.job ∧ (paceRinkEval waitBp s).kv = s.kv ∧
    (paceRinkEval waitBp s).cores = s.cores ∧ (paceRinkEval waitBp s).banks = s.banks ∧
    (paceRinkEval waitBp s).recovery = s.recovery :=
  ⟨rfl, rfl, rfl, rfl, rfl, rfl⟩

/-- The boundary leaves what the commit wrote, and shows the step in the status record. -/
theorem atBoundary_keeps (j : Job) (step : U64) (waitBp : Nat) (s : State) :
    (atBoundary j step waitBp s).hbm.commitWord = s.hbm.commitWord ∧
    (atBoundary j step waitBp s).hbm.dev = s.hbm.dev ∧ (atBoundary j step waitBp s).hbm.stamps = s.hbm.stamps ∧
    (atBoundary j step waitBp s).job = s.job ∧ (atBoundary j step waitBp s).kv = s.kv ∧
    (atBoundary j step waitBp s).cores = s.cores ∧ (atBoundary j step waitBp s).banks = s.banks := by
  simp [atBoundary, passRole]

theorem atBoundary_keeps_refresh (j : Job) (step : U64) (waitBp : Nat) (s : State) :
    (atBoundary j step waitBp s).recovery.refreshing = s.recovery.refreshing ∧
    (atBoundary j step waitBp s).recovery.refreshStep = s.recovery.refreshStep ∧
    (atBoundary j step waitBp s).recovery.replicaOk = s.recovery.replicaOk := by
  simp [atBoundary, passRole]

theorem atBoundary_status (j : Job) (step : U64) (waitBp : Nat) (s : State) :
    (atBoundary j step waitBp s).status.committed = step ∧
    (atBoundary j step waitBp s).status.step = if step.toNat = Desc.lastStep j.desc then step else step + 1 := by
  simp [atBoundary]

/-! ## The rink's pace rule (R417) -/

theorem paceRinkEval_power_congr (waitBp : Nat) {s t : State} (h : t.power = s.power) :
    (paceRinkEval waitBp t).power = (paceRinkEval waitBp s).power := by
  simp only [paceRinkEval, flagPace, h]

theorem atBoundary_power (j : Job) (step : U64) (waitBp : Nat) (s : State) :
    (atBoundary j step waitBp s).power = (paceRinkEval waitBp s).power := by
  simp only [atBoundary, passRole, withStatus_frame, feedJoiners_frame]
  exact paceRinkEval_power_congr waitBp (by simp)

theorem paceRinkEval_paceHigh (waitBp : Nat) (s : State) (h : waitBp ≤ 100) :
    (paceRinkEval waitBp s).power.paceHigh = 0 := by
  simp [paceRinkEval, flagPace, Nat.not_lt.mpr h]

theorem paceRinkEval_falls (waitBp : Nat) (s : State) (h : 100 < waitBp) :
    (paceRinkEval waitBp s).power.rinkPace =
      if 3 ≤ s.power.paceHigh then max 550 (s.power.rinkPace - 10) else s.power.rinkPace := by
  have hlow : ¬ waitBp < 25 := by omega
  simp [paceRinkEval, flagPace, h, hlow, lowerCeil]

theorem paceRinkEval_stays (waitBp : Nat) (s : State) (h : 25 ≤ waitBp) (h' : waitBp ≤ 100) :
    (paceRinkEval waitBp s).power.rinkPace = s.power.rinkPace := by
  simp [paceRinkEval, flagPace, Nat.not_lt.mpr h, Nat.not_lt.mpr h']

theorem paceRinkEval_rises (waitBp : Nat) (s : State) (h : waitBp < 25) :
    (paceRinkEval waitBp s).power.rinkPace =
      if 3 ≤ s.power.paceLow then min 850 (s.power.rinkPace + 10) else s.power.rinkPace := by
  have hhigh : ¬ 100 < waitBp := by omega
  simp [paceRinkEval, flagPace, h, hhigh, raiseCeil]

/-! ## COMMIT_BARRIER -/

theorem exec_commitBarrier_commits (s : State) (j : Job) (waitBp : Nat) (hj : s.job = some j)
    (hready : commitReady s j = true) (hp : s.recovery.paused = false) :
    exec (.commitBarrier waitBp) s = .next (atBoundary j s.status.step waitBp (commitUnits j s)) := by
  change execCommitBarrier waitBp s = _
  simp [execCommitBarrier, hj, hready, hp]

theorem exec_commitBarrier_idle (s : State) (j : Job) (waitBp : Nat) (hj : s.job = some j)
    (h : commitReady s j = false ∨ s.recovery.paused = true) : exec (.commitBarrier waitBp) s = .next s := by
  change execCommitBarrier waitBp s = _
  simp only [execCommitBarrier, hj]
  refine if_neg ?_
  rintro ⟨hready, hp⟩
  rcases h with h | h
  · simp [h] at hready
  · exact hp h

end Sys2Proof.Machine
end

section
/-! Cores that change places, and the beginning of a replay (O47). -/

namespace Sys2Proof.Machine

/-! ## The core map (R425) -/

theorem entryOf_congr {s t : State} (h : t.hbm.coreMap = s.hbm.coreMap) (p : Nat) : entryOf t p = entryOf s p := by
  rw [entryOf, entryOf, h]

theorem spareOf_congr {s t : State} (h : t.hbm.coreMap = s.hbm.coreMap) (d : Nat) : spareOf t d = spareOf s d := by
  simp only [spareOf, entryOf_congr h]

theorem entryOf_setEntry_same (p : Nat) (f : CoreEntry → CoreEntry) (s : State) (h : p < s.hbm.coreMap.length) :
    entryOf (setEntry p f s) p = f (entryOf s p) :=
  nthD_updNth_same _ f _ p h

theorem entryOf_setEntry_other (p k : Nat) (f : CoreEntry → CoreEntry) (s : State) (h : k ≠ p) :
    entryOf (setEntry p f s) k = entryOf s k :=
  nthD_updNth_other _ f _ p k h

theorem updNth_length {α : Type} (f : α → α) (xs : List α) (i : Nat) : (updNth f xs i).length = xs.length := by
  induction xs generalizing i with
  | nil => rfl
  | cons x xs ih =>
    cases i with
    | zero => rfl
    | succ i => simp [updNth, ih]

theorem nthD_of_length_le {α : Type} (d : α) (xs : List α) (i : Nat) (h : xs.length ≤ i) : nthD d xs i = d := by
  induction xs generalizing i with
  | nil => rfl
  | cons x xs ih =>
    cases i with
    | zero => simp at h
    | succ i => exact ih i (by simpa using h)

/-- A core that is not shown as failed has its place in the map. -/
theorem lt_length_of_state {s : State} {p : Nat} (h : (entryOf s p).state ≠ .failed) : p < s.hbm.coreMap.length := by
  by_contra hp
  exact h (by rw [entryOf, nthD_of_length_le _ _ _ (Nat.le_of_not_lt hp)])

theorem state_of_spareOf {s : State} {d q : Nat} (h : spareOf s d = some q) : (entryOf s q).state = .spare := by
  simpa using List.find?_some h

/-! ## A core is remapped out (R97, R428) -/

/-- The core map once core `p`'s logical core has gone to core `q`. -/
def swappedOut (p q : Nat) (s : State) : State :=
  setEntry q (fun e => { e with state := .active, logical := (entryOf s p).logical })
    (setEntry p (fun e => { e with
      state := if (entryOf s p).remaps = 0 then .parked else .failed, logical := 0xFF, remaps := e.remaps + 1 }) s)

/-- A remap to the domain's spare: it is reported and counted, and the core is parked at its first remap. -/
def remapTo (p q : Nat) (s : State) : State :=
  postEvent Code.evCoreRemap noOp 0 (BitVec.ofNat 64 (256 * q + (entryOf s p).logical.toNat))
    (withCounts (fun c => { c with coreRemaps := satInc c.coreRemaps 1 })
      { swappedOut p q s with selfTest := { s.selfTest with
        parked := if (entryOf s p).remaps = 0 then s.selfTest.parked ++ [(p, false)] else s.selfTest.parked } })

theorem remapCore_of_spare (p q : Nat) (s : State) (h : spareOf s (domainOf p) = some q) :
    remapCore p s = some (remapTo p q s) := by
  simp only [remapCore, h]
  by_cases hr : (entryOf s p).remaps = 0 <;> simp [remapTo, swappedOut, hr, setEntry]

/-- Without a spare, and without a rotation's test to give one up, there is no remap. -/
theorem remapCore_of_no_spare (p : Nat) (s : State) (h : spareOf s (domainOf p) = none)
    (hparked : s.selfTest.parked = []) : remapCore p s = none := by
  have hrot : rotatingIn s (domainOf p) = none := by simp [rotatingIn, hparked]
  simp only [remapCore, h, hrot]

@[simp] theorem remapTo_frame (p q : Nat) (s : State) :
    (remapTo p q s).job = s.job ∧ (remapTo p q s).recovery = s.recovery ∧ (remapTo p q s).kv = s.kv ∧
    (remapTo p q s).stalled = s.stalled ∧ (remapTo p q s).hbm.dev = s.hbm.dev := by
  simp [remapTo, swappedOut, setEntry]

theorem remapTo_counts (p q : Nat) (s : State) :
    (remapTo p q s).status.counts = { s.status.counts with coreRemaps := satInc s.status.counts.coreRemaps 1 } := by
  simp [remapTo, swappedOut, setEntry, withCounts]

/-- The core that takes over is active with the logical core; the other is parked for its test, or failed at its second
remap. -/
theorem remapTo_entries (p q : Nat) (s : State) (hp : (entryOf s p).state = .active) (hq : (entryOf s q).state = .spare) :
    entryOf (remapTo p q s) q = { entryOf s q with state := .active, logical := (entryOf s p).logical } ∧
    (entryOf (remapTo p q s) p).state = if (entryOf s p).remaps = 0 then .parked else .failed := by
  have hpq : q ≠ p := by rintro rfl; simp [hp] at hq
  have hlp : p < s.hbm.coreMap.length := lt_length_of_state (by simp [hp])
  have hlq : q < s.hbm.coreMap.length := lt_length_of_state (by simp [hq])
  have hmap : (remapTo p q s).hbm.coreMap = (swappedOut p q s).hbm.coreMap := by simp [remapTo]
  rw [entryOf_congr hmap, entryOf_congr hmap, swappedOut,
    entryOf_setEntry_same q _ _ (by simpa [setEntry, updNth_length] using hlq), entryOf_setEntry_other p q _ _ hpq,
    entryOf_setEntry_other q p _ _ hpq.symm, entryOf_setEntry_same p _ _ hlp]
  exact ⟨rfl, rfl⟩

theorem remapTo_parked (p q : Nat) (s : State) :
    (remapTo p q s).selfTest.parked =
      if (entryOf s p).remaps = 0 then s.selfTest.parked ++ [(p, false)] else s.selfTest.parked := by
  simp [remapTo, withCounts]

/-! ## A replay begins (R21, R308) -/

/-- A replay is counted and reported. -/
def countReplay (s : State) : State :=
  postEvent Code.evReplay noOp 0 0 (withCounts (fun c => { c with replays := satInc c.replays 1 }) s)

/-- A replay with its count and its event, the cache as the step found it, and the job on its way to settle its pages; the
cores that are due are still to be remapped. -/
def replayBegun (j : Job) (s : State) : State :=
  { backToStart (countReplay s) with
    stalled := []
    job := some { j with phase := .settling, replays := j.replays + 1 }
    recovery := { (countReplay s).recovery with abortPending := false, settled := false } }

theorem beginReplay_eq (j : Job) (s : State) (h : j.replays < 8) :
    beginReplay j s = remapAll s.selfTest.due (replayBegun j s) := by
  have hdue : (countReplay s).selfTest.due = s.selfTest.due := by simp [countReplay]
  rw [beginReplay, if_neg (Nat.not_le.mpr h), ← hdue]
  rfl

theorem beginReplay_limit (j : Job) (s : State) (h : 8 ≤ j.replays) :
    beginReplay j s = haltJob 0x0500 noOp 0 s := by
  rw [beginReplay, if_pos h]
  rfl

/-- What goes back to the step's start lies in device memory and in the cache's unit. -/
theorem backToStart_frame (s : State) :
    backToStart s = { s with hbm := { s.hbm with dev := (backToStart s).hbm.dev }, kv := (backToStart s).kv } := by
  unfold backToStart
  split <;> rfl

theorem backToStart_of_none (s : State) (h : s.kv.start = none) : backToStart s = s := by
  unfold backToStart
  split
  · simp_all
  · rfl

theorem backToStart_of_some (s : State) (j : Job) (k : KvStart) (hj : s.job = some j) (hk : s.kv.start = some k) :
    (backToStart s).hbm.dev = copyRanges k.held (heldRanges j.image) s.hbm.dev ∧
    (backToStart s).kv.index = k.index ∧ (backToStart s).kv.refs = k.refs ∧ (backToStart s).kv.freeQ = k.freeQ ∧
    (backToStart s).kv.edits = [] := by
  simp [backToStart, hj, hk]

theorem backToStart_congr {s t : State} (hj : t.job = s.job) (hh : t.hbm = s.hbm) (hk : t.kv = s.kv) :
    (backToStart t).hbm = (backToStart s).hbm ∧ (backToStart t).kv = (backToStart s).kv := by
  unfold backToStart
  rw [hj, hk, hh]
  split
  · exact ⟨rfl, rfl⟩
  · exact ⟨hh, hk⟩

theorem countReplay_status (s : State) :
    (countReplay s).status.counts = { s.status.counts with replays := satInc s.status.counts.replays 1 } ∧
    (countReplay s).status.eventCount = s.status.eventCount + 1 := by
  simp [countReplay, withCounts]

/-- What a replay that begins makes of each unit that it concerns. -/
theorem replayBegun_shows (j : Job) (s : State) :
    (replayBegun j s).job = some { j with phase := .settling, replays := j.replays + 1 } ∧
    (replayBegun j s).stalled = [] ∧ (replayBegun j s).recovery.abortPending = false ∧
    (replayBegun j s).selfTest = s.selfTest ∧ (replayBegun j s).status = (countReplay s).status ∧
    (replayBegun j s).hbm = (backToStart s).hbm ∧ (replayBegun j s).kv = (backToStart s).kv := by
  have hframe : (backToStart (countReplay s)).status = (countReplay s).status ∧
      (backToStart (countReplay s)).selfTest = (countReplay s).selfTest := by
    rw [backToStart_frame]
    exact ⟨rfl, rfl⟩
  have hself : (countReplay s).selfTest = s.selfTest := by simp [countReplay]
  obtain ⟨hhbm, hkv⟩ := backToStart_congr (s := s) (t := countReplay s) (by simp [countReplay]) (by simp [countReplay])
    (by simp [countReplay])
  exact ⟨rfl, rfl, rfl, hframe.2.trans hself, hframe.1, hhbm, hkv⟩

theorem replayBegun_coreMap (j : Job) (s : State) : (replayBegun j s).hbm.coreMap = s.hbm.coreMap := by
  obtain ⟨-, -, -, -, -, hhbm, -⟩ := replayBegun_shows j s
  rw [hhbm, backToStart_frame]

/-! ## The step that a replay drops (R21, R317) -/

/-- The phases of a job whose step a replay runs again: the step is under way, about to begin, or aborted. -/
def replayedPhases : List JobPhase := [.aborted, .settling, .boundary, .inStep, .atCut, .dumping]

/-- Dropping a step's work leaves memory, record and core map alone, and what the step found on its start. -/
structure StepDropped (s u : State) : Prop where
  job : u.job = s.job
  hbm : u.hbm = s.hbm
  status : u.status = s.status
  selfTest : u.selfTest = s.selfTest
  start : u.kv.start = s.kv.start
  index : u.kv.index = s.kv.index

theorem dropStep_replayed (j : Job) (s : State) (h : j.phase ∈ replayedPhases) :
    ∃ u, dropStep j s = some u ∧ StepDropped s u := by
  have kept : StepDropped s s := ⟨rfl, rfl, rfl, rfl, rfl, rfl⟩
  have discarded : StepDropped s (discardStep s) := ⟨rfl, rfl, rfl, rfl, rfl, rfl⟩
  simp only [replayedPhases, List.mem_cons, List.not_mem_nil, or_false] at h
  rcases h with h | h | h | h | h | h <;> simp only [dropStep, h]
  · exact ⟨s, rfl, kept⟩
  · exact ⟨s, rfl, kept⟩
  · exact ⟨s, rfl, kept⟩
  · exact ⟨_, rfl, discarded⟩
  · exact ⟨_, rfl, discarded⟩
  · exact ⟨_, rfl, discarded⟩

theorem dropStep_not_replayed (j : Job) (s : State) (h : j.phase ∈ [.barrier, .held, .refreshing, .halted]) :
    dropStep j s = none := by
  simp only [List.mem_cons, List.not_mem_nil, or_false] at h
  rcases h with h | h | h | h <;> simp only [dropStep, h]

/-! ## A replay goes on to settle pages (R308) -/

theorem wf_held_of_canonical {s : State} {k : KvStart} (h : s.canonical = true) (hk : s.kv.start = some k) :
    Mem.wf 0 k.held = true := by
  simp only [State.canonical, Bool.and_eq_true, hk, Option.all_some] at h
  exact h.2

/-- The cache's unit and the written HELD ranges are as the step found them. -/
def MeetsStart (j : Job) (k : KvStart) (s t : State) : Prop :=
  t.kv.index = k.index ∧ t.kv.refs = k.refs ∧ t.kv.freeQ = k.freeQ ∧ t.kv.edits = [] ∧
  (s.canonical = true →
    (∀ r ∈ heldRanges j.image, ∀ x n, r.base ≤ x → x + n ≤ r.base + r.len →
      devRead t x n = Mem.read 0 k.held x n) ∧
    ∀ x, (∀ r ∈ heldRanges j.image, x < r.base ∨ r.base + r.len ≤ x) → devRead t x 1 = devRead s x 1)

/-- The step of job `j` is to run again: the replay is counted, what waited is dropped, and the cache is as the step found
it. -/
def SettlesAgain (j : Job) (s t : State) : Prop :=
  t.job = some { j with phase := .settling, replays := j.replays + 1 } ∧ t.recovery.abortPending = false ∧
  t.status.counts.replays = satInc s.status.counts.replays 1 ∧ t.selfTest.due = [] ∧ t.stalled = [] ∧
  (s.kv.start = none → t.hbm.dev = s.hbm.dev ∧ t.kv.index = s.kv.index) ∧
  ∀ k, s.kv.start = some k → MeetsStart j k s t

theorem backToStart_meetsStart {j : Job} {k : KvStart} {s u t : State} (hj : s.job = some j) (hu : StepDropped s u)
    (hk : s.kv.start = some k) (hdev : t.hbm.dev = (backToStart u).hbm.dev) (hkv : t.kv = (backToStart u).kv) :
    MeetsStart j k s t := by
  obtain ⟨hback, hindex, hrefs, hfree, hedits⟩ :=
    backToStart_of_some u j k (hu.job.trans hj) (hu.start.trans hk)
  rw [hu.hbm] at hback
  refine ⟨by rw [hkv, hindex], by rw [hkv, hrefs], by rw [hkv, hfree], by rw [hkv, hedits], fun hcan => ?_⟩
  have hwf := wf_held_of_canonical hcan hk
  refine ⟨fun r hr x n hlo hhi => ?_, fun x hx => ?_⟩
  · rw [devRead, hdev, hback]
    exact read_copyRanges_inside _ _ _ hwf r hr x n hlo hhi
  · rw [devRead, hdev, hback]
    exact read_copyRanges_outside _ _ _ hwf x hx

/-- What comes behind a replay's beginning may change the core map, events and counts of its own, and empties the list of
cores that are due. -/
theorem SettlesAgain.of_begun {j : Job} {s u t : State} (hj : s.job = some j) (hu : StepDropped s u)
    (hjob : t.job = (replayBegun j u).job) (hrecovery : t.recovery = (replayBegun j u).recovery)
    (hreplays : t.status.counts.replays = (replayBegun j u).status.counts.replays) (hdue : t.selfTest.due = [])
    (hstalled : t.stalled = (replayBegun j u).stalled) (hdev : t.hbm.dev = (replayBegun j u).hbm.dev)
    (hkv : t.kv = (replayBegun j u).kv) : SettlesAgain j s t := by
  obtain ⟨hj', hstalled', habort, -, hstatus, hhbm', hkv'⟩ := replayBegun_shows j u
  rw [hhbm'] at hdev
  rw [hkv'] at hkv
  refine ⟨hjob.trans hj', by rw [hrecovery, habort], ?_, hdue, hstalled.trans hstalled', fun hnone => ?_,
    fun k hk => backToStart_meetsStart hj hu hk hdev hkv⟩
  · rw [hreplays, hstatus, (countReplay_status u).1, hu.status]
  · rw [hdev, hkv, backToStart_of_none u (hu.start.trans hnone), hu.hbm]
    exact ⟨rfl, hu.index⟩

/-! ## STEP_REPLAY -/

theorem exec_stepReplay_idle (s : State) (j : Job) (hj : s.job = some j)
    (h : j.phase ∈ [.barrier, .held, .refreshing, .halted] ∨ s.recovery.paused = true) :
    exec .stepReplay s = .next s := by
  change execStepReplay s = _
  by_cases hp : s.recovery.paused = true
  · simp [execStepReplay, hj, hp]
  · have hphase := h.resolve_right hp
    simp [execStepReplay, hj, hp, dropStep_not_replayed j s hphase]

theorem exec_stepReplay (s u : State) (j : Job) (hj : s.job = some j) (hp : s.recovery.paused = false)
    (hu : dropStep j s = some u) : exec .stepReplay s = .next (beginReplay j u) := by
  change execStepReplay s = _
  simp [execStepReplay, hj, hp, hu]

section
variable {j : Job} {s u : State} (hj : s.job = some j) (hu : StepDropped s u)
include hj hu

theorem beginReplay_ninth (hphase : j.phase ≠ .halted) (h : 8 ≤ j.replays) : HaltsWith 0x0500 (beginReplay j u) := by
  rw [beginReplay_limit j u h]
  exact haltJob_haltsWith _ _ _ _ j (hu.job.trans hj) hphase

theorem beginReplay_plain (h : j.replays < 8) (hdue : s.selfTest.due = []) :
    SettlesAgain j s (beginReplay j u) ∧
    (beginReplay j u).hbm = { s.hbm with dev := (beginReplay j u).hbm.dev } ∧
    (beginReplay j u).status.eventCount = s.status.eventCount + 1 := by
  have heq : beginReplay j u =
      { replayBegun j u with selfTest := { (replayBegun j u).selfTest with due := [] } } := by
    rw [beginReplay_eq j u h, hu.selfTest, hdue, remapAll]
  obtain ⟨-, -, -, -, hstatus, hhbm, -⟩ := replayBegun_shows j u
  rw [heq]
  refine ⟨SettlesAgain.of_begun hj hu rfl rfl rfl rfl rfl rfl rfl, ?_, ?_⟩
  · simp only [hhbm]
    rw [backToStart_frame, hu.hbm]
  · rw [← hu.status]
    exact (congrArg StatusRec.eventCount hstatus).trans (countReplay_status u).2

theorem beginReplay_remaps (h : j.replays < 8) {p q : Nat} (hdue : s.selfTest.due = [p])
    (hspare : spareOf s (domainOf p) = some q) (hp : (entryOf s p).state = .active) :
    SettlesAgain j s (beginReplay j u) ∧
    (beginReplay j u).status.counts.coreRemaps = satInc s.status.counts.coreRemaps 1 ∧
    entryOf (beginReplay j u) q = { entryOf s q with state := .active, logical := (entryOf s p).logical } ∧
    if (entryOf s p).remaps = 0 then
      (entryOf (beginReplay j u) p).state = .parked ∧ (p, false) ∈ (beginReplay j u).selfTest.parked
    else (entryOf (beginReplay j u) p).state = .failed ∧ (beginReplay j u).selfTest.parked = s.selfTest.parked := by
  obtain ⟨-, -, -, hself, hstatus, -, -⟩ := replayBegun_shows j u
  have hmap : (replayBegun j u).hbm.coreMap = s.hbm.coreMap := by rw [replayBegun_coreMap, hu.hbm]
  have hcore := remapCore_of_spare p q (replayBegun j u) (by rwa [spareOf_congr hmap])
  have heq : beginReplay j u =
      { remapTo p q (replayBegun j u) with selfTest := { (remapTo p q (replayBegun j u)).selfTest with due := [] } } := by
    rw [beginReplay_eq j u h, hu.selfTest, hdue, remapAll, hcore]
    rfl
  have hentries := remapTo_entries p q (replayBegun j u) (by rwa [entryOf_congr hmap])
    (by rw [entryOf_congr hmap]; exact state_of_spareOf hspare)
  have hparked := remapTo_parked p q (replayBegun j u)
  have hcounts := remapTo_counts p q (replayBegun j u)
  have hreplays := congrArg Counts.replays hcounts
  obtain ⟨hjob, hrecovery, hkv, hstalled, hdev⟩ := remapTo_frame p q (replayBegun j u)
  rw [entryOf_congr hmap, entryOf_congr hmap] at hentries
  rw [entryOf_congr hmap, hself, hu.selfTest] at hparked
  rw [heq]
  refine ⟨SettlesAgain.of_begun hj hu hjob hrecovery ?_ rfl hstalled hdev hkv, ?_, hentries.1, ?_⟩
  · exact hreplays
  · rw [← hu.status]
    refine (congrArg Counts.coreRemaps hcounts).trans ?_
    rw [hstatus, (countReplay_status u).1]
  · split
    case isTrue h0 =>
      rw [if_pos h0] at hparked hentries
      exact ⟨hentries.2, hparked ▸ List.mem_append_right _ (List.mem_singleton_self _)⟩
    case isFalse h0 =>
      rw [if_neg h0] at hparked hentries
      exact ⟨hentries.2, hparked⟩

end

theorem beginReplay_no_spare {j : Job} {s u : State} (hu : StepDropped s u) (h : j.replays < 8) {p : Nat}
    (hdue : s.selfTest.due = [p]) (hspare : spareOf s (domainOf p) = none) (hparked : s.selfTest.parked = []) :
    HaltsWith 0x0506 (beginReplay j u) := by
  obtain ⟨hjob, -, -, hself, -, -, -⟩ := replayBegun_shows j u
  have hmap : (replayBegun j u).hbm.coreMap = s.hbm.coreMap := by rw [replayBegun_coreMap, hu.hbm]
  have hcore := remapCore_of_no_spare p (replayBegun j u) (by rwa [spareOf_congr hmap]) (by rw [hself, hu.selfTest, hparked])
  rw [beginReplay_eq j u h, hu.selfTest, hdue, remapAll, hcore]
  exact haltJob_haltsWith _ _ _ _ _ hjob (by simp)

/-! ## PARKED_CORE_TEST_DONE (R427, R428) -/

theorem exec_parkedCoreTestDone_idle (s : State) (core : PhysCore) (pass : Bool)
    (h : ∀ e ∈ s.selfTest.parked, e.1 ≠ core.val) : exec (.parkedCoreTestDone core pass) s = .next s := by
  change execParkedCoreTestDone core pass s = _
  have hany : (s.selfTest.parked.any fun e => e.1 == core.val) = false := by simpa [List.any_eq_false] using h
  simp [execParkedCoreTestDone, hany]

/-- The state without a parked core in its list. -/
def unparked (p : Nat) (s : State) : State :=
  { s with selfTest := { s.selfTest with parked := s.selfTest.parked.filter fun e => e.1 ≠ p } }

theorem mem_unparked {p : Nat} {s : State} {e : Nat × Bool} (h : e ∈ (unparked p s).selfTest.parked) : e.1 ≠ p := by
  simpa using (List.mem_filter.mp h).2

/-- A parked core that is found failed, and reported with logical core 0xFF. -/
def failParked (p : Nat) (s : State) : State :=
  postEvent Code.evCoreRemap noOp 0 (BitVec.ofNat 64 (256 * p + 0xFF))
    (setEntry p (fun e => { e with state := .failed, logical := 0xFF }) (unparked p s))

theorem failParked_shows (p : Nat) (s : State) :
    (failParked p s).selfTest = (unparked p s).selfTest ∧ (failParked p s).job = s.job ∧
    (failParked p s).status.eventCount = s.status.eventCount + 1 ∧
    (failParked p s).hbm.coreMap =
      (setEntry p (fun e => { e with state := .failed, logical := 0xFF }) (unparked p s)).hbm.coreMap := by
  simp [failParked, setEntry, unparked]

section
variable {s : State} {core : PhysCore} {pass : Bool} (h : ∃ e ∈ s.selfTest.parked, e.1 = core.val)
include h

/-- A core that passes its test, and was not remapped twice, is its domain's spare. -/
theorem exec_parkedCoreTestDone_spare (hpass : pass = true ∧ (entryOf s core.val).remaps.toNat < 2) :
    exec (.parkedCoreTestDone core pass) s =
      .next (setEntry core.val (fun e => { e with state := .spare }) (unparked core.val s)) := by
  change execParkedCoreTestDone core pass s = _
  have hany : (s.selfTest.parked.any fun e => e.1 == core.val) = true := by simpa [List.any_eq_true] using h
  rw [execParkedCoreTestDone, if_neg (by simp [hany]), if_pos hpass]
  rfl

theorem exec_parkedCoreTestDone_failed (hpass : ¬ (pass = true ∧ (entryOf s core.val).remaps.toNat < 2)) :
    exec (.parkedCoreTestDone core pass) s = .next (failParked core.val s) := by
  change execParkedCoreTestDone core pass s = _
  have hany : (s.selfTest.parked.any fun e => e.1 == core.val) = true := by simpa [List.any_eq_true] using h
  rw [execParkedCoreTestDone, if_neg (by simp [hany]), if_neg hpass]
  rfl

end

end Sys2Proof.Machine
end

section
/-! A step's start, its commit, its replay, and the test of a parked core (O47). -/

namespace Sys2Proof.Machine

/-- Clause of O47 on a step that runs: at its first attempt it takes its records, later it has them. -/
theorem stepStart_runs {s : State} {j : Job} (hj : s.job = some j) (hphase : j.phase = .boundary)
    (hp : s.recovery.paused = false) (hl : s.recovery.left = false) (hrow : missingRow (boundarySet s) j = none)
    (hin : inputReady (boundarySet s) j = true) (hmode : Desc.replayMode j.desc = false)
    (hadm : j.admitted = some s.status.step.toNat ∨ lateRecord (boundarySet s) j = none) :
    ∃ i v, exec .stepStart s = .next (beginStep v) ∧ StepBegun i v (beginStep v) ∧
      i = { j with
        admitted := some s.status.step.toNat
        taken := if j.admitted = some s.status.step.toNat then j.taken
          else j.image.admissionTables.map fun r => (tableDue (boundarySet s) j r).map (recordPlace r) } ∧
      v.hbm.stamps = s.hbm.stamps ∧ v.coll.entered = s.coll.entered ∧ v.status = s.status ∧ v.kv = s.kv := by
  obtain ⟨hbjob, hbstatus, hbhbm, -, hbkv, -, -⟩ := boundarySet_frame s
  have hbj := hbjob.trans hj
  have hexec := exec_stepStart_starts hj hphase hp hl hrow hin
  by_cases hagain : j.admitted = some s.status.step.toNat
  · rw [startStep_again j _ hbj hmode (by rw [hbstatus, hagain])] at hexec
    refine ⟨j, boundarySet s, hexec, beginStep_begun _ _ hbj, ?_, by rw [hbhbm], boundarySet_entered s, hbstatus, hbkv⟩
    rw [if_pos hagain, ← hagain]
  · have hrecs := takeRecords_eq j (boundarySet s)
    rw [startStep_first j _ hmode (by rwa [hbstatus]) (hadm.resolve_left hagain)] at hexec
    refine ⟨j.withRecords (boundarySet s), takeRecords j (boundarySet s), hexec, beginStep_begun _ _ ?_,
      ?_, ?_, ?_, ?_, ?_⟩
    · rw [hrecs]
    · rw [if_neg hagain, Job.withRecords, hbstatus]
    · rw [hrecs, hbhbm]
    · rw [hrecs, boundarySet_entered]
    · rw [hrecs, hbstatus]
    · rw [hrecs, hbkv]

/-- Clause of O47 on the commit: the units' part, which the step boundary behind it keeps, the step in the status record,
and the rink's pace. -/
theorem commitBarrier_commits {s : State} {j : Job} (waitBp : Nat) (hj : s.job = some j)
    (hready : commitReady s j = true) (hp : s.recovery.paused = false) :
    let last : Prop := s.status.step.toNat = Desc.lastStep j.desc
    Answers (.commitBarrier waitBp) s fun t =>
      t.hbm.commitWord = s.status.step ∧ t.status.committed = s.status.step ∧
      (last → t.status.step = s.status.step ∧
        t.job = some { j with replays := 0, phase := .refreshing, stop := 0x0002 }) ∧
      (¬ last → t.status.step = s.status.step + 1 ∧ t.job = some { j with replays := 0, phase := .boundary }) ∧
      t.kv.start = none ∧ t.recovery.refreshing = true ∧ t.recovery.refreshStep = s.status.step ∧
      t.recovery.replicaOk = !siteSeveral s.site ∧ t.hbm.dev = s.hbm.dev ∧ t.hbm.stamps = s.hbm.stamps ∧
      t.cores.ctl = [] ∧ t.banks.active = (s.banks.active != s.banks.pending) ∧ t.banks.pending = false ∧
      t.power = (paceRinkEval waitBp s).power := by
  obtain ⟨hhbm, hjob, hstart, hctl, hpower⟩ := commitUnits_writes j s
  obtain ⟨hrefreshing, hrefreshStep, hreplica, hactive, hpending⟩ := commitUnits_leaves j s
  obtain ⟨hword, hdev, hstamps, hjob', hkv, hcores, hbanks⟩ := atBoundary_keeps j s.status.step waitBp (commitUnits j s)
  obtain ⟨hrefreshing', hrefreshStep', hreplica'⟩ := atBoundary_keeps_refresh j s.status.step waitBp (commitUnits j s)
  obtain ⟨hcommitted, hstep⟩ := atBoundary_status j s.status.step waitBp (commitUnits j s)
  rw [hhbm] at hword hdev hstamps
  rw [hjob, Job.committed] at hjob'
  refine ⟨_, exec_commitBarrier_commits s j waitBp hj hready hp, hword, hcommitted, fun hlast => ?_, fun hlast => ?_,
    by rw [hkv, hstart], by rw [hrefreshing', hrefreshing], by rw [hrefreshStep', hrefreshStep],
    by rw [hreplica', hreplica], hdev, hstamps, by rw [hcores, hctl], by rw [hbanks, hactive], by rw [hbanks, hpending],
    (atBoundary_power _ _ _ _).trans (paceRinkEval_power_congr waitBp hpower)⟩
  · rw [if_pos hlast] at hstep hjob'
    exact ⟨hstep, hjob'⟩
  · rw [if_neg hlast] at hstep hjob'
    exact ⟨hstep, hjob'⟩

/-- Clause of O47 on a parked core whose test ends. -/
theorem parkedCoreTestDone_ends {s : State} {core : PhysCore} (pass : Bool)
    (h : ∃ e ∈ s.selfTest.parked, e.1 = core.val) (hlen : core.val < s.hbm.coreMap.length) :
    Answers (.parkedCoreTestDone core pass) s fun t =>
      (∀ e ∈ t.selfTest.parked, e.1 ≠ core.val) ∧ t.job = s.job ∧
      (∀ k, k ≠ core.val → entryOf t k = entryOf s k) ∧
      if pass = true ∧ (entryOf s core.val).remaps.toNat < 2 then
        entryOf t core.val = { entryOf s core.val with state := .spare } ∧ t.status = s.status
      else
        entryOf t core.val = { entryOf s core.val with state := .failed, logical := 0xFF } ∧
        t.status.eventCount = s.status.eventCount + 1 := by
  by_cases hpass : pass = true ∧ (entryOf s core.val).remaps.toNat < 2
  · refine ⟨_, exec_parkedCoreTestDone_spare h hpass, fun e he => mem_unparked he, rfl,
      fun k hk => entryOf_setEntry_other _ k _ _ hk, ?_⟩
    rw [if_pos hpass]
    exact ⟨entryOf_setEntry_same _ _ (unparked core.val s) hlen, rfl⟩
  · obtain ⟨hself, hjob, hevents, hmap⟩ := failParked_shows core.val s
    refine ⟨_, exec_parkedCoreTestDone_failed h hpass, fun e he => mem_unparked (hself ▸ he), hjob, fun k hk => ?_, ?_⟩
    · exact (entryOf_congr hmap k).trans (entryOf_setEntry_other _ k _ (unparked core.val s) hk)
    · rw [if_neg hpass]
      exact ⟨(entryOf_congr hmap _).trans (entryOf_setEntry_same _ _ (unparked core.val s) hlen), hevents⟩

/-- Settles O47: each command is taken case by case, as the lemmas on its start, commit, replay and test state it. -/
theorem stepsStartCommitAndReplay : Obligations.StepsStartCommitAndReplay := by
  intro s j waitBp p q core pass hj
  obtain ⟨hbjob, hbstatus, hbhbm, hbcores, -, hbrecovery, hbtime⟩ := boundarySet_frame s
  refine ⟨exec_stepStart_idle s j hj, fun hphase hp hl => ⟨fun op hrow => ?noRow, fun hrow hin => ?waits,
      fun hrow hin hadm hlate => ?late, fun hrow hin hmode hadm => ?runs⟩,
    fun hready hp => ?commit, exec_commitBarrier_idle s j waitBp hj, exec_stepReplay_idle s j hj,
    fun hphase hp => ?replay, exec_parkedCoreTestDone_idle s core pass, parkedCoreTestDone_ends pass⟩
  case noRow =>
    refine ⟨_, exec_stepStart_noRow hj hphase hp hl hrow, ?_⟩
    exact (stopJob_ends 0x0305 op 0 _ j (hbjob.trans hj) (by decide)).of_same hbjob hbrecovery hbtime
  case waits =>
    obtain ⟨hjob, hhbm, hcores, hflag, hcount⟩ := waitInput_shows (boundarySet s)
    rw [hbstatus] at hcount
    exact ⟨_, exec_stepStart_waits hj hphase hp hl hrow hin, hjob.trans (hbjob.trans hj), hflag, hhbm.trans hbhbm,
      hcores.trans hbcores, hcount⟩
  case late =>
    obtain ⟨k, hk⟩ := hlate
    refine ⟨_, exec_stepStart_starts hj hphase hp hl hrow hin, ?_⟩
    rw [startStep_late j _ k (by rwa [hbstatus]) hk]
    exact (stopJob_ends 0x0607 noOp _ _ j (hbjob.trans hj) (by decide)).of_same hbjob hbrecovery hbtime
  case runs =>
    obtain ⟨i, v, hexec, h, rfl, hstamps, hentered, hstatus, hkv⟩ :=
      stepStart_runs hj hphase hp hl hrow hin hmode hadm
    have hstart := h.start
    rw [hkv] at hstart
    exact ⟨_, hexec, h.job, h.inputWait, h.controllers, h.ended, h.units, h.stamps.trans hstamps,
      by rw [h.entered, hentered], h.runSeed, by rw [h.laneStep, hstatus], h.counters, h.absent, hstart, h.scratch, h.drain,
      h.rings, h.haloSent, h.haloReady, h.counted⟩
  case commit =>
    obtain ⟨t, hexec, hword, hcommitted, hlast, hnext, hstart, hrefreshing, hrefreshStep, hreplica, hdev, hstamps, hctl,
      hactive, hpending, hpower⟩ := commitBarrier_commits waitBp hj hready hp
    refine ⟨t, hexec, hword, hcommitted, hlast, hnext, hstart, hrefreshing, hrefreshStep, hreplica, hdev, hstamps, hctl,
      hactive, hpending, ?_⟩
    rw [hpower]
    exact ⟨paceRinkEval_paceHigh waitBp s, paceRinkEval_falls waitBp s, paceRinkEval_stays waitBp s,
      paceRinkEval_rises waitBp s⟩
  case replay =>
    obtain ⟨u, hdrop, hu⟩ := dropStep_replayed j s hphase
    have hexec := exec_stepReplay s u j hj hp hdrop
    have hrunning : j.phase ≠ .halted := by rintro h; simp [h] at hphase
    refine ⟨fun h => ⟨_, hexec, beginReplay_ninth hj hu hrunning h⟩,
      fun h hdue => ⟨_, hexec, beginReplay_plain hj hu h hdue⟩,
      fun h hdue hspare hactive => ⟨_, hexec, beginReplay_remaps hj hu h hdue hspare hactive⟩,
      fun h hdue hspare hparked => ⟨_, hexec, beginReplay_no_spare hu h hdue hspare hparked⟩⟩

end Sys2Proof.Machine
end

section
/-! Lane generators of a re-executed operation that draws nothing (O53). -/

namespace Sys2Proof.Machine

/-! ## The account of a re-executed operation's draws (R195) -/

/-- The account is opened by a list of slots that is empty, too. -/
theorem recallSpend_ne_nil (op : U32) (core : Nat) (slots : List Nat) (l : Lanes) :
    recallSpend op core slots l ≠ [] := by
  simp [recallSpend]

/-- The accounts of re-executed operations behind a command that answers a next state. -/
def recallsAfter (i : Instr) (s : State) : Option (List (U32 × SMap Nat)) :=
  match exec i s with
  | .next t => some t.cores.lanes.recalls
  | _ => none

theorem recallsAfter_of_next {i : Instr} {s t : State} (h : exec i s = .next t) :
    recallsAfter i s = some t.cores.lanes.recalls := by
  simp [recallsAfter, h]

/-! ## An element-wise addition that is executed again -/

/-- A step that runs, of a job whose image declares nothing. -/
def bareJob : Job where
  desc := 0
  image := ⟨⟨1, 1, 1⟩, 0, [], false, [], [], [], [], [], [], [], 0, [], [], [], [], [], [], none, none⟩
  channels := []
  rings := []
  ringCounts := []
  identity := 0
  phase := .inStep
  refusal := none
  replays := 0
  admitted := none
  taken := []
  stop := 0

/-- Operation 1 waits at the head of the stream engine's queue on core 3; no operation of the step was executed again yet. -/
def reexecuting : State :=
  { State.reset with
    job := some bareJob
    cores := { Cores.reset with ctl := [(3, { CoreCtl.fresh with queues := [(engineNo .stream, [1])] })] } }

/-- The operation repeats another one, which took no draws on any lane: it carries no recall counter. -/
def repeated : OpCtx := ⟨3, 1, some [], [], false⟩

/-- One FP32 element of core 3's scratchpad. -/
def fp32At (addr : Nat) : Tensor := ⟨⟨.scratch 3, addr⟩, .fp32, 1, ⟨.scratch 3, 0⟩, 1⟩

/-- The sum of the elements at 0 and 0x40, written at 0x80, without conversions. -/
def repeatedAdd : StreamCmd :=
  ⟨repeated, .ew .add ([fp32At 0, fp32At 0x40].map fun x => ⟨x, none, false⟩) ⟨fp32At 0x80, none⟩⟩

/-- The statement's window gather and groomed store or load: they play no part in the refutation. -/
def someGather : WindowCmd := ⟨repeated, [], 1, 0, 1, 1, fp32At 0, false, false, false, ⟨0, []⟩, 0⟩
def someGroom : GroomCmd := ⟨repeated, .g8, .sequence 1 64, [], .own, 0, fp32At 0, []⟩

theorem reexecuting_not_withheld (op : U32) : withheld reexecuting op = false := by
  have hcut : Desc.hasCut bareJob.desc = false := by simp [Desc.hasCut, bitAt, bareJob]
  simp [withheld, reexecuting, hcut]

theorem repeatedAdd_runs :
    (streamRun repeatedAdd).turn reexecuting = true ∧ (streamRun repeatedAdd).refusal reexecuting = none ∧
    (streamRun repeatedAdd).can reexecuting = true ∧ (streamRun repeatedAdd).ctx.uncorrectable = false ∧
    (streamRun repeatedAdd).stop reexecuting = none := by
  decide +kernel

theorem recallsAfter_repeatedAdd :
    recallsAfter (.streamOperation repeatedAdd) reexecuting =
      some (recallSpend 1 3 [] reexecuting.cores.lanes) := by
  decide +kernel

/-- Refutes O53: an element-wise operation that is executed again (R195) opens an account of its draws in the lane
generators, although it takes none; the statement says that the lane generators stay as they were. -/
theorem not_engineResults : ¬ Obligations.EngineResults := by
  unfold Obligations.EngineResults
  intro h
  obtain ⟨hadd, -⟩ := h reexecuting bareJob repeated .add [fp32At 0, fp32At 0x40] (fp32At 0x80) someGather someGroom
    rfl rfl reexecuting_not_withheld
  obtain ⟨t, hexec, -, hlanes, -⟩ := hadd (by decide) (by decide) repeatedAdd_runs
  have hopened : recallSpend 1 3 [] reexecuting.cores.lanes = t.cores.lanes.recalls :=
    Option.some.inj (recallsAfter_repeatedAdd.symm.trans (recallsAfter_of_next hexec))
  have hnone : t.cores.lanes.recalls = [] := by rw [hlanes]; rfl
  exact recallSpend_ne_nil _ _ _ _ (hopened.trans hnone)

end Sys2Proof.Machine
end

section
/-! The commands of the Trellis and of the drain (O51): the outcomes of a command of an engine's queue, what its hand-over
leaves alone, the planes, the wave with its abort, and what the drain writes. -/

namespace Sys2Proof.Machine

/-! ## Rules that a command breaks -/

@[simp] theorem firstFault_some_cons (k : Nat) (fs : List (Option Nat)) : firstFault (some k :: fs) = some k := rfl

@[simp] theorem firstFault_cons_eq_none (f : Option Nat) (fs : List (Option Nat)) :
    firstFault (f :: fs) = none ↔ f = none ∧ firstFault fs = none := by
  cases f <;> simp [firstFault]

@[simp] theorem unless'_eq_none (k : Nat) (ok : Bool) : unless' k ok = none ↔ ok = true := by
  cases ok <;> simp [unless']

theorem EngineRun.refusal_of_fault {r : EngineRun} {s : State} {k : Nat} (h : r.fault s = some k) : r.refusal s = some k := by
  rw [EngineRun.refusal, h, firstFault_some_cons]

theorem EngineRun.fault_of_refusal_none {r : EngineRun} {s : State} (h : r.refusal s = none) : r.fault s = none := by
  rw [EngineRun.refusal, firstFault_cons_eq_none] at h
  exact h.1

/-! ## The outcomes of a command of an engine's queue (R136) -/

theorem acts_of_inStep {s : State} {j : Job} {op : U32} (hj : s.job = some j) (hphase : j.phase = .inStep)
    (hcut : withheld s op = false) : acts s op = true := by
  simp [acts, inStep, hj, hphase, hcut]

theorem EngineRun.turn_eq_false {r : EngineRun} {s : State}
    (h : atHead s r.engine r.ctx.core.val r.ctx.op = false ∨ halosHere s r.ctx = false) : r.turn s = false := by
  rcases h with h | h <;> simp [EngineRun.turn, h]

section
variable {c : Instr} {r : EngineRun} {s : State} (hc : exec c s = runEngine c r s) (ha : acts s r.ctx.op = true)
include hc ha

theorem exec_engine_waits (ht : r.turn s = false) : Waits c s := by
  simp [Waits, hc, runEngine, ha, ht]

theorem exec_engine_refused (ht : r.turn s = true) {k : Nat} (hr : r.refusal s = some k) :
    exec c s = .refused (.refusedAtBuild k) := by
  simp [hc, runEngine, ha, ht, hr]

theorem exec_engine_stalls (ht : r.turn s = true) (hr : r.refusal s = none) (hcan : r.can s = false) :
    exec c s = .next (stall c (r.taken s)) := by
  simp [hc, runEngine, ha, ht, hr, hcan]

theorem exec_engine_scratchError (ht : r.turn s = true) (hr : r.refusal s = none) (hcan : r.can s = true)
    (hu : r.ctx.uncorrectable = true) : exec c s = .next (scratchError r.ctx.core.val r.ctx.op s) := by
  simp [hc, runEngine, ha, ht, hr, hcan, hu]

theorem exec_engine_done (ht : r.turn s = true) (hr : r.refusal s = none) (hcan : r.can s = true)
    (hu : r.ctx.uncorrectable = false) (hstop : r.stop s = none) : exec c s = .next (r.done s) := by
  simp [hc, runEngine, ha, ht, hr, hcan, hu, hstop]

end

theorem EngineRun.can_of_not_ready {r : EngineRun} {s : State} (h : r.ready (r.taken s) = false) : r.can s = false := by
  simp [EngineRun.can, h]

/-! ## An error that aborts the step (R96, R133) -/

theorem chargeCore_eq (core : Nat) (s : State) :
    ∃ m due, chargeCore core s =
      { s with hbm := { s.hbm with coreMap := m }, selfTest := { s.selfTest with due := due } } := by
  simp only [chargeCore]
  split <;> exact ⟨_, _, rfl⟩

/-- The module with an error of one of its cores counted, reported and charged, and the step aborted. -/
def coreError (core : Nat) (f : Counts → Counts) (code : U16) (op : U32) (detail : U16) (s : State) : State :=
  abortStep (chargeCore core (postEvent code op detail (coreWhere s core) (withCounts f s)))

theorem checkerMismatch_eq (core : Nat) (op : U32) (tile : Nat) (s : State) :
    checkerMismatch core op tile s =
      coreError core (fun c => { c with mismatches := satInc c.mismatches 1 }) Code.evMismatch op (BitVec.ofNat 16 tile) s := rfl

theorem scratchError_eq (core : Nat) (op : U32) (s : State) :
    scratchError core op s =
      coreError core (fun c => { c with scratchUes := satInc c.scratchUes 1 }) Code.evSpUe op 0 s := rfl

/-- The error aborts the step, which loses its column results, and leaves device memory and scratchpads alone. -/
theorem coreError_shows {core : Nat} {f : Counts → Counts} {code : U16} {op : U32} {detail : U16} {s : State} {j : Job}
    (hj : s.job = some j) :
    let t := coreError core f code op detail s
    t.job = some { j with phase := .aborted } ∧ t.hbm.dev = s.hbm.dev ∧ Out.send .stepAbort ∈ t.sent ∧
    t.cores.scratch = s.cores.scratch ∧ t.cores.foot = [] ∧ t.status.eventCount = s.status.eventCount + 1 ∧
    t.status.counts = f s.status.counts := by
  obtain ⟨m, due, h⟩ := chargeCore_eq core (postEvent code op detail (coreWhere s core) (withCounts f s))
  simp only [coreError, h, abortStep, postEvent_frame, withCounts_frame, hj]
  simp [discardStep, withCounts]

/-! ## The hand-over between units (R112) -/

/-- The hand-over changes the rings of the hand-off regions and the drain file alone. -/
def HandOver (s t : State) : Prop :=
  ∃ rings drain, t = { s with cores := { s.cores with rings := rings, drain := drain } }

theorem HandOver.refl (s : State) : HandOver s s := ⟨_, _, rfl⟩

theorem HandOver.trans {s t u : State} (h : HandOver s t) (h' : HandOver t u) : HandOver s u := by
  obtain ⟨_, _, rfl⟩ := h
  obtain ⟨_, _, rfl⟩ := h'
  exact ⟨_, _, rfl⟩

theorem HandOver.foldl {α : Type} {f : State → α → State} (h : ∀ s x, HandOver s (f s x)) (xs : List α) (s : State) :
    HandOver s (xs.foldl f s) :=
  List.foldlRecOn xs f (HandOver.refl s) fun t ht x _ => ht.trans (h t x)

theorem HandOver.keeps {s t : State} (h : HandOver s t) :
    t.job = s.job ∧ t.status = s.status ∧ t.cores.foot = s.cores.foot ∧ t.cores.planes = s.cores.planes ∧
    t.cores.planeInUse = s.cores.planeInUse ∧ t.cores.scratch = s.cores.scratch ∧ t.cores.cells = s.cores.cells := by
  obtain ⟨_, _, rfl⟩ := h
  exact ⟨rfl, rfl, rfl, rfl, rfl, rfl, rfl⟩

theorem setRing_handOver (k : Nat) (f : Ring → Ring) (s : State) : HandOver s (setRing k f s) := ⟨_, _, rfl⟩

theorem fillSlot_handOver (k : Nat) (r : Region) (s : State) : HandOver s (fillSlot k r s) := by
  simp only [fillSlot]
  split
  · exact ⟨_, _, rfl⟩
  · exact .refl s

theorem fillSlots_handOver (k : Nat) (r : Region) (n : Nat) (s : State) : HandOver s (fillSlots k r n s) := by
  induction n generalizing s with
  | zero => exact .refl s
  | succ n ih => exact (fillSlot_handOver k r s).trans (ih _)

theorem takeSlot_handOver (k : Nat) (r : Region) (s : State) : HandOver s (takeSlot k r s) := by
  simp only [takeSlot]
  split
  · exact (setRing_handOver k _ s).trans (fillSlot_handOver k r _)
  · exact .refl s

theorem takeSlots_handOver (k : Nat) (r : Region) (n fuel : Nat) (s : State) : HandOver s (takeSlots k r n fuel s) := by
  induction fuel generalizing s with
  | zero => exact .refl s
  | succ fuel ih =>
    rw [takeSlots]
    split
    · exact .refl s
    · exact (takeSlot_handOver k r s).trans (ih _)

theorem takeUse_handOver (u : SpanUse) (s : State) : HandOver s (takeUse u s) := by
  unfold takeUse
  split
  · split
    · exact .refl s
    · exact takeSlots_handOver _ _ _ _ s
  · exact .refl s

theorem dropUse_handOver (u : SpanUse) (s : State) : HandOver s (dropUse u s) := by
  unfold dropUse
  split
  · exact setRing_handOver _ _ s
  · exact .refl s

theorem passOn_handOver (l : Loc) (s : State) : HandOver s (passOn l s) := by
  unfold passOn
  split
  · split
    · exact .refl s
    · exact fillSlots_handOver _ _ _ s
  · exact .refl s

theorem EngineRun.taken_handOver (r : EngineRun) (s : State) : HandOver s (r.taken s) :=
  HandOver.foldl (fun t u => takeUse_handOver u t) _ s

/-- A command that leaves its queue changes the core's queues and the references to the banks. -/
theorem endCommand_eq (e : Engine) (core : Nat) (op : U32) (s : State) :
    ∃ banks ctl, endCommand e core op s = { s with banks := banks, cores := { s.cores with ctl := ctl } } := by
  simp only [endCommand]
  split <;> exact ⟨_, _, rfl⟩

/-- Behind its effect a command changes what it hands over, its queue, the references to the banks and its parts' count. -/
theorem EngineRun.done_eq (r : EngineRun) (s : State) :
    ∃ banks ended rings drain ctl, r.done s =
      { r.effect (r.taken s) with
        banks := banks, ended := ended
        cores := { (r.effect (r.taken s)).cores with rings := rings, drain := drain, ctl := ctl } } := by
  have hdrop : HandOver (r.effect (r.taken s)) ((r.uses s).foldl (fun t u => dropUse u t) (r.effect (r.taken s))) :=
    HandOver.foldl (fun t u => dropUse_handOver u t) _ _
  obtain ⟨rings, drain, h⟩ := hdrop.trans (HandOver.foldl (fun t w => passOn_handOver w.1 t) (r.spans s) _)
  obtain ⟨banks, ctl, h'⟩ := endCommand_eq r.engine r.ctx.core.val r.ctx.op
    { r.effect (r.taken s) with cores := { (r.effect (r.taken s)).cores with rings := rings, drain := drain } }
  simp only [EngineRun.done, h, h']
  exact ⟨_, _, _, _, _, rfl⟩

/-! ## Commands that read the core's scratchpad alone -/

/-- Everything the command reads lies in a scratchpad. -/
def EngineRun.ReadsScratch (r : EngineRun) (s : State) : Prop := ∀ u ∈ r.uses s, ∃ c, u.loc.space = .scratch c

theorem EngineRun.ReadsScratch.taken_eq {r : EngineRun} {s : State} (h : r.ReadsScratch s) : r.taken s = s :=
  List.foldlRecOn (motive := (· = s)) (r.uses s) _ rfl fun t ht u hu => by
    obtain ⟨c, hspace⟩ := h u hu
    rw [takeUse, hspace, ht]

theorem EngineRun.ReadsScratch.useHere {r : EngineRun} {s t : State} (h : r.ReadsScratch s) :
    (r.uses s).all (useHere r.ctx.op t) = true := by
  rw [List.all_eq_true]
  intro u hu
  obtain ⟨c, hspace⟩ := h u hu
  rw [Machine.useHere, hspace]

/-- Where the command writes no store either, it needs its engine's readiness alone. -/
theorem EngineRun.ReadsScratch.can_eq {r : EngineRun} {s : State} (h : r.ReadsScratch s) (hw : r.writes s = []) :
    r.can s = r.ready s := by
  rw [EngineRun.can, h.useHere, h.taken_eq]
  simp [EngineRun.spans, hw]

/-- Where the command writes no store either, nothing is handed over. -/
theorem EngineRun.ReadsScratch.done_eq {r : EngineRun} {s : State} (h : r.ReadsScratch s) (hw : r.writes s = []) :
    ∃ banks ended ctl, r.done s =
      { r.effect s with banks := banks, ended := ended, cores := { (r.effect s).cores with ctl := ctl } } := by
  have hdrop : (r.uses s).foldl (fun t u => dropUse u t) (r.effect s) = r.effect s :=
    List.foldlRecOn (motive := (· = r.effect s)) (r.uses s) _ rfl fun t ht u hu => by
      obtain ⟨c, hspace⟩ := h u hu
      rw [dropUse, hspace, ht]
  obtain ⟨banks, ctl, h'⟩ := endCommand_eq r.engine r.ctx.core.val r.ctx.op (r.effect s)
  have hspans : r.spans s = [] := by rw [EngineRun.spans, hw, List.filter_nil]
  simp only [EngineRun.done, h.taken_eq, hdrop, hspans, List.foldl_nil, h']
  exact ⟨_, _, _, rfl⟩

/-! ## Loading and swapping a tile (R83, R86) -/

/-- A tile's codes, and its exponents where it has any, lie in the core's scratchpad (R85). -/
theorem tileLoadRun_readsScratch {l : TileLoadCmd} {s : State} (h : (tileLoadRun l).refusal s = none) :
    (tileLoadRun l).ReadsScratch s := by
  have hfault : tileLoadFault s l = none := EngineRun.fault_of_refusal_none h
  simp only [tileLoadFault, firstFault_cons_eq_none, unless'_eq_none, Bool.and_eq_true, Bool.or_eq_true,
    Bool.not_eq_true', inScratch, beq_iff_eq] at hfault
  obtain ⟨-, -, ⟨hloc, hexps⟩, -⟩ := hfault
  intro u hu
  simp only [EngineRun.uses, tileLoadRun, tensorUses, List.mem_filter, List.mem_cons, List.not_mem_nil, or_false,
    decide_eq_true_eq] at hu
  obtain ⟨rfl | rfl, hlen⟩ := hu
  · exact ⟨_, hloc⟩
  · rcases hexps with hplain | hexps
    · exact absurd hlen (by simp [hplain])
    · exact ⟨_, hexps⟩

theorem tileSwapRun_readsScratch (ctx : OpCtx) (s : State) : (tileSwapRun ctx).ReadsScratch s := by
  simp [EngineRun.ReadsScratch, EngineRun.uses, tileSwapRun]

/-- The swap names no place, and no rule refuses it. -/
theorem tileSwapRun_refusal (ctx : OpCtx) (s : State) : (tileSwapRun ctx).refusal s = none := rfl

/-- What the loading plane holds behind a load, apart from what the tile's values make of the wave. -/
theorem loadPlane_shows {l : TileLoadCmd} {s : State} (hwf : SMap.wf PlaneInfo.empty s.cores.planes = true) :
    let core := l.ctx.core.val
    let t := loadPlane l s
    let p := planeAt t core (loadingPlane s core)
    p.loaded = true ∧ p.k = l.k ∧ p.n = l.n ∧ p.contractInner = l.contractInner ∧ p.transposed = l.transposed ∧
    p.wide = l.wide ∧ p.fmt = l.w.fmt ∧
    ∀ q, q ≠ planeKey core (loadingPlane s core) →
      SMap.get PlaneInfo.empty t.cores.planes q = SMap.get PlaneInfo.empty s.cores.planes q := by
  simp only [loadPlane, planeAt, SMap.get_set_same _ _ _ _ hwf, true_and]
  exact fun q hq => SMap.get_set_other _ _ _ _ _ hq hwf

theorem planeKey_eq_iff {core p q : Nat} : planeKey core p = planeKey core q ↔ p = q := by
  simp [planeKey]

/-- The loaded plane comes into use as it is, and the other one awaits a load. -/
theorem swapPlanes_shows {core : Nat} {s : State} (hplanes : SMap.wf PlaneInfo.empty s.cores.planes = true)
    (huse : SMap.wf 0 s.cores.planeInUse = true) :
    let t := swapPlanes core s
    inUsePlane t core = loadingPlane s core ∧
    planeAt t core (inUsePlane t core) = planeAt s core (loadingPlane s core) ∧
    (planeAt t core (loadingPlane t core)).loaded = false := by
  have hinUse : inUsePlane (swapPlanes core s) core = loadingPlane s core := SMap.get_set_same _ _ _ _ huse
  have hother : loadingPlane s core ≠ 1 - loadingPlane s core := by unfold loadingPlane; omega
  refine ⟨hinUse, ?_, ?_⟩
  · rw [hinUse]
    exact SMap.get_set_other _ _ _ _ _ (planeKey_eq_iff.not.mpr hother) hplanes
  · rw [loadingPlane, hinUse]
    simp only [swapPlanes, planeAt, SMap.get_set_same _ _ _ _ hplanes]

/-! ## The wave (R82, R94, R96, R156) -/

/-- What the Trellis yields for a wave: +0 everywhere where its pass is idle (R156). -/
def waveYield (w : WaveCmd) (s : State) : WaveRes := if passIdle s w then skippedWave else runWave s w

/-- The yield as the drain and the checker see it, with the struck results. -/
def waveSeen (w : WaveCmd) (s : State) : WaveRes :=
  { waveYield w s with
    outs := ((upFrom 0 32).zip (waveYield w s).outs).map fun (j, v) => struck w.flip j v
    check := struck w.flip 32 (waveYield w s).check }

/-- The column results wait for the drain, and the tile saturation flag is in the operation's entry. -/
def waveQueued (w : WaveCmd) (s : State) : State :=
  let core := w.ctx.core.val
  let r := waveSeen w s
  addTally w.ctx.op (Tally.flag r.sat)
    { s with cores := { s.cores with
        foot := SMap.set [] s.cores.foot core (SMap.get [] s.cores.foot core ++ [⟨w.ctx.op, w.r.val, r.outs, r.sat⟩]) } }

theorem waveEffect_eq (w : WaveCmd) (s : State) :
    waveEffect w s = if waveMismatch (waveSeen w s) then checkerMismatch w.ctx.core.val w.ctx.op w.tile (waveQueued w s)
      else waveQueued w s := rfl

theorem waveQueued_shows (w : WaveCmd) (s : State) (hwf : SMap.wf [] s.cores.foot = true) :
    let core := w.ctx.core.val
    let t := waveQueued w s
    SMap.get [] t.cores.foot core =
      SMap.get [] s.cores.foot core ++ [⟨w.ctx.op, w.r.val, (waveSeen w s).outs, (waveSeen w s).sat⟩] ∧
    t.job = s.job ∧ t.status = s.status ∧ t.cores.scratch = s.cores.scratch ∧ t.cores.cells = s.cores.cells := by
  simp [waveQueued, addTally, SMap.get_set_same _ _ _ _ hwf]

/-- An unstruck wave of an idle pass yields +0 in every column, and its comparison is skipped. -/
theorem waveSeen_of_idle {w : WaveCmd} {s : State} (hidle : passIdle s w = true) (hflip : w.flip = []) :
    waveMismatch (waveSeen w s) = false ∧ (waveSeen w s).outs = List.replicate 32 zero32 := by
  have hyield : waveYield w s = skippedWave := if_pos hidle
  simp only [waveSeen, hyield, hflip, skippedWave]
  exact ⟨rfl, rfl⟩

/-- The hand-over leaves the tile in use alone. -/
theorem HandOver.tileInUse_eq {s t : State} (h : HandOver s t) (core : Nat) : tileInUse t core = tileInUse s core := by
  obtain ⟨_, _, rfl⟩ := h
  rfl

/-! ## What the drain writes (R100 to R105) -/

/-- The drain's writes reach HBM, the core's stores and rings, the draws held for a group region, and the lane generators. -/
def DrainWrites (s t : State) : Prop :=
  ∃ hbm scratch drain rings draws lanes, t = { s with hbm := hbm, cores := { s.cores with
    scratch := scratch, drain := drain, rings := rings, groupDraws := draws, lanes := lanes } }

theorem DrainWrites.refl (s : State) : DrainWrites s s := ⟨_, _, _, _, _, _, rfl⟩

theorem DrainWrites.trans {s t u : State} (h : DrainWrites s t) (h' : DrainWrites t u) : DrainWrites s u := by
  obtain ⟨_, _, _, _, _, _, rfl⟩ := h
  obtain ⟨_, _, _, _, _, _, rfl⟩ := h'
  exact ⟨_, _, _, _, _, _, rfl⟩

theorem DrainWrites.keeps {s t : State} (h : DrainWrites s t) :
    t.job = s.job ∧ t.status = s.status ∧ t.cores.foot = s.cores.foot ∧ t.cores.planes = s.cores.planes ∧
    t.cores.cells = s.cores.cells := by
  obtain ⟨_, _, _, _, _, _, rfl⟩ := h
  exact ⟨rfl, rfl, rfl, rfl, rfl⟩

theorem locWrite_drainWrites (l : Loc) (off : Nat) (bs : List Byte) (s : State) : DrainWrites s (locWrite l off bs s) := by
  unfold locWrite
  split
  · exact .refl s
  · split <;> exact ⟨_, _, _, _, _, _, rfl⟩

theorem counterOpen_drainWrites (op : U32) (s : State) : DrainWrites s (counterOpen op s) := by
  unfold counterOpen
  split
  · exact .refl s
  · split <;> exact ⟨_, _, _, _, _, _, rfl⟩

theorem addTally_drainWrites (op : U32) (t : Tally) (s : State) : DrainWrites s (addTally op t s) := by
  unfold addTally counterAdd
  split
  · exact .refl s
  · exact (counterOpen_drainWrites op s).trans ⟨_, _, _, _, _, _, rfl⟩

theorem writeOut_drainWrites (op : U32) (o : OutStream) (vs : List OutVal) (rs : List Nat) (s : State) :
    DrainWrites s (writeOut op o vs rs s) :=
  (locWrite_drainWrites _ _ _ s).trans ((locWrite_drainWrites _ _ _ _).trans (addTally_drainWrites _ _ _))

theorem drainOut_drainWrites (d : DrainCmd) (ys : List Staged) (s : State) : DrainWrites s (drainOut d ys s) := by
  simp only [drainOut]
  split
  · exact writeOut_drainWrites _ _ _ _ s
  · next g _ =>
    refine DrainWrites.trans (t := writeU32s ⟨g.region.space, g.region.addr + 128 * g.row⟩ (ys.map Staged.y) s)
      (locWrite_drainWrites _ _ _ s) ?_
    split
    · exact (writeOut_drainWrites _ _ _ _ _).trans ⟨_, _, _, _, _, _, rfl⟩
    · exact ⟨_, _, _, _, _, _, rfl⟩

theorem drainSave_drainWrites (d : DrainCmd) (ys : List Staged) (s : State) : DrainWrites s (drainSave d ys s) := by
  unfold drainSave
  split
  · exact .refl s
  · exact writeOut_drainWrites _ _ _ _ s

theorem takeDraws_drainWrites (ctx : OpCtx) (slots : List Nat) (s : State) : DrainWrites s (takeDraws ctx slots s).2 :=
  ⟨_, _, _, _, _, _, rfl⟩

theorem drainLast_drainWrites (d : DrainCmd) (sums : List U32) (s : State) : DrainWrites s (drainLast d sums s) :=
  (takeDraws_drainWrites _ _ s).trans ((addTally_drainWrites _ _ _).trans
    ((drainOut_drainWrites _ _ _).trans (drainSave_drainWrites _ _ _)))

/-- The column results with the running sums (R92, R101). -/
def drainSums (d : DrainCmd) (e : FootEntry) (s : State) : List (U32 × Bool) :=
  accumulate (d.accIn.map fun a => read32 s a 32) e.outs

/-- The oldest column results have left the queue, and a saturation is in the operation's entry. -/
def drainPopped (d : DrainCmd) (e : FootEntry) (s : State) : State :=
  let core := d.ctx.core.val
  addTally d.ctx.op (Tally.flag (e.sat || (drainSums d e s).any fun x => x.2))
    { s with cores := { s.cores with foot := SMap.set [] s.cores.foot core ((SMap.get [] s.cores.foot core).drop 1) } }

theorem drainEffect_eq (d : DrainCmd) (e : FootEntry) (s : State) :
    drainEffect d e s = if d.lastPass then drainLast d ((drainSums d e s).map fun x => x.1) (drainPopped d e s)
      else writeU32s d.accOut ((drainSums d e s).map fun x => x.1) (drainPopped d e s) := rfl

theorem drainEffect_keeps (d : DrainCmd) (e : FootEntry) (s : State) {es : List FootEntry}
    (hwf : SMap.wf [] s.cores.foot = true) (hfoot : SMap.get [] s.cores.foot d.ctx.core.val = e :: es) :
    let t := drainEffect d e s
    SMap.get [] t.cores.foot d.ctx.core.val = es ∧ t.job = s.job ∧ t.status = s.status ∧ t.cores.cells = s.cores.cells ∧
    t.cores.planes = s.cores.planes := by
  have hpass : DrainWrites (drainPopped d e s) (drainEffect d e s) := by
    rw [drainEffect_eq]
    split
    · exact drainLast_drainWrites _ _ _
    · exact locWrite_drainWrites _ _ _ _
  obtain ⟨hjob, hstatus, hleft, hplanes, hcells⟩ := ((addTally_drainWrites _ _ _).trans hpass).keeps
  refine ⟨?_, hjob, hstatus, hcells, hplanes⟩
  rw [hleft]
  simp [SMap.get_set_same _ _ _ _ hwf, hfoot]

theorem drainRun_effect {d : DrainCmd} {e : FootEntry} {es : List FootEntry} {s : State}
    (hfoot : SMap.get [] s.cores.foot d.ctx.core.val = e :: es) : (drainRun d).effect s = drainEffect d e s := by
  simp only [drainRun, hfoot]

/-! ## Bytes and words at a place of the core's stores -/

theorem leBytes_length (n x : Nat) : (leBytes n x).length = n := by
  induction n generalizing x with
  | zero => rfl
  | succ n ih => rw [leBytes, List.length_cons, ih]

theorem ofLe_leBytes (n x : Nat) : ofLe (leBytes n x) = x % 256 ^ n := by
  induction n generalizing x with
  | zero => simp [leBytes, ofLe, Nat.mod_one]
  | succ n ih =>
    have hmod : x % (256 * 256 ^ n) = x % 256 + 256 * (x / 256 % 256 ^ n) := Nat.mod_mul
    rw [leBytes, ofLe, ih, BitVec.toNat_ofNat, pow_succ' 256, hmod]

theorem Mem.read_append (fill : Byte) (m : Mem) (a i n : Nat) :
    Mem.read fill m a (i + n) = Mem.read fill m a i ++ Mem.read fill m (a + i) n := by
  induction i generalizing a with
  | zero => simp [Mem.read]
  | succ i ih => rw [Nat.succ_add, Mem.read, Mem.read, List.cons_append, ih, Nat.add_right_comm a 1 i, Nat.add_assoc a i 1]

section
variable {core : Core} {l : Loc} (hl : storePlace core l = true)
include hl

theorem space_of_storePlace : l.space = .scratch core ∨ l.space = .drain core := by
  cases h : l.space <;> simp_all [storePlace]

/-- The bytes at a place of the core's stores are the scratchpad's or the drain file's. -/
theorem locRead_congr {s t : State} (hscratch : t.cores.scratch = s.cores.scratch) (hdrain : t.cores.drain = s.cores.drain)
    (off n : Nat) : locRead t l off n = locRead s l off n := by
  rcases space_of_storePlace hl with h | h <;> simp only [locRead, h, hscratch, hdrain]

theorem locRead_append (s : State) (off i n : Nat) :
    locRead s l off (i + n) = locRead s l off i ++ locRead s l (off + i) n := by
  rcases space_of_storePlace hl with h | h <;>
    simp only [locRead, h, Mem.read_append, scratchKey, drainKey, Nat.add_assoc]

theorem locRead_length (s : State) (off n : Nat) : (locRead s l off n).length = n := by
  rcases space_of_storePlace hl with h | h <;> simp only [locRead, h, Mem.read_length]

theorem locRead_locWrite_same (s : State) (off : Nat) (bs : List Byte) :
    locRead (locWrite l off bs s) l off bs.length = bs := by
  by_cases hbs : bs.isEmpty = true
  · rw [List.isEmpty_iff.mp hbs]
    exact List.eq_nil_of_length_eq_zero (locRead_length hl _ _ _)
  · rcases space_of_storePlace hl with h | h <;>
      simp only [locWrite, hbs, locRead, h, Mem.read_write_same, Bool.false_eq_true, if_false]

/-- Words are read as they stand one behind another. -/
theorem words_of_locRead {s : State} (vs : List U32) (k : Nat)
    (h : locRead s l (4 * k) (4 * vs.length) = (vs.map fun v => leBytes 4 v.toNat).flatten) :
    (upFrom k vs.length).map (fun i => BitVec.ofNat 32 (locNat s l (4 * i) 4)) = vs := by
  induction vs generalizing k with
  | nil => rfl
  | cons v vs ih =>
    have hlen : (locRead s l (4 * k) 4).length = (leBytes 4 v.toNat).length := by
      rw [locRead_length hl, leBytes_length]
    rw [List.length_cons, Nat.mul_add_one, Nat.add_comm (4 * vs.length), locRead_append hl, List.map_cons,
      List.flatten_cons] at h
    obtain ⟨hhead, htail⟩ := List.append_inj h hlen
    have hv : BitVec.ofNat 32 (locNat s l (4 * k) 4) = v := by
      have hmod : v.toNat % 256 ^ 4 = v.toNat := Nat.mod_eq_of_lt v.isLt
      rw [locNat, hhead, ofLe_leBytes, hmod, BitVec.ofNat_toNat, BitVec.setWidth_eq]
    rw [List.length_cons, upFrom, List.map_cons, hv, ih (k + 1) (by rw [Nat.mul_add_one]; exact htail)]

theorem read32_writeU32s (s : State) (vs : List U32) : read32 (writeU32s l vs s) l vs.length = vs := by
  have hlen : 4 * vs.length = ((vs.map fun v => leBytes 4 v.toNat).flatten).length := by
    simp [List.length_flatten, Function.comp_def, leBytes_length, Nat.mul_comm]
  refine words_of_locRead hl vs 0 ?_
  rw [hlen]
  exact locRead_locWrite_same hl s 0 _

end

theorem storePlace_of_ownPlace {core : Core} {l : Loc} (h : ownPlace core l = true) (hring : ∀ c r, l.space ≠ .ring c r) :
    storePlace core l = true := by
  cases hspace : l.space <;> simp_all [ownPlace, storePlace]

/-! ## What the drain has written is there when the command has ended -/

theorem endCommand_keepsStores (e : Engine) (core : Nat) (op : U32) (s : State) :
    (endCommand e core op s).cores.scratch = s.cores.scratch ∧ (endCommand e core op s).cores.drain = s.cores.drain := by
  obtain ⟨_, _, h⟩ := endCommand_eq e core op s
  rw [h]
  exact ⟨rfl, rfl⟩

theorem dropUse_keepsStores (u : SpanUse) (s : State) :
    (dropUse u s).cores.scratch = s.cores.scratch ∧ (dropUse u s).cores.drain = s.cores.drain := by
  unfold dropUse
  split <;> exact ⟨rfl, rfl⟩

theorem passOn_of_storePlace {core : Core} {l : Loc} (hl : storePlace core l = true) (s : State) : passOn l s = s := by
  rcases space_of_storePlace hl with h | h <;> simp only [passOn, h]

/-- Where everything that the command writes lies in the core's stores, they stay as its effect left them. -/
theorem EngineRun.locRead_done {r : EngineRun} {s : State} {core : Core} {l : Loc} (hl : storePlace core l = true)
    (hspans : ∀ w ∈ r.spans s, storePlace core w.1 = true) (off n : Nat) :
    locRead (r.done s) l off n = locRead (r.effect (r.taken s)) l off n := by
  have hpass (t : State) : (r.spans s).foldl (fun t w => passOn w.1 t) t = t :=
    List.foldlRecOn (motive := (· = t)) (r.spans s) _ rfl fun u hu w hw => by
      rw [hu, passOn_of_storePlace (hspans w hw)]
  refine locRead_congr hl ?_ ?_ off n
  · simp only [EngineRun.done, endPart_frame, endCommand_keepsStores, hpass]
    exact foldl_keeps (fun t => t.cores.scratch) _ (fun t u => (dropUse_keepsStores u t).1) _ _
  · simp only [EngineRun.done, endPart_frame, endCommand_keepsStores, hpass]
    exact foldl_keeps (fun t => t.cores.drain) _ (fun t u => (dropUse_keepsStores u t).2) _ _

/-- Counts of an operation lie in HBM: a place of the core's stores reads on as before. -/
theorem locRead_addTally {core : Core} {l : Loc} (hl : storePlace core l = true) (op : U32) (t : Tally) (s : State)
    (off n : Nat) : locRead (addTally op t s) l off n = locRead s l off n :=
  locRead_congr hl (by simp [addTally]) (by simp [addTally]) off n

/-- An output that is not FP8 has no tile exponents, and reads back as its bytes. -/
theorem locRead_writeOut {core : Core} {o : OutStream} (hl : storePlace core o.t.loc = true) (hfmt : isFp8 o.t.fmt = false)
    (op : U32) (vs : List OutVal) (rs : List Nat) (s : State) :
    locRead (writeOut op o vs rs s) o.t.loc 0 (outBytes o.t o.conv vs rs).1.length = (outBytes o.t o.conv vs rs).1 := by
  have hexps : (outBytes o.t o.conv vs rs).2.1 = [] := by simp [outBytes, hfmt]
  have hno (t : State) : locWrite o.t.exps 0 [] t = t := rfl
  simp only [writeOut, locRead_addTally hl, hexps, hno]
  exact locRead_locWrite_same hl s 0 _

section
variable {d : DrainCmd} (hbias : d.bias = none) (hderiv : d.derivX = none)
include hbias hderiv

/-- In forward mode without a bias and without draws, a column's sum passes the function alone (R102, R103). -/
theorem staged_plain (t : State) (ys : List U32) (lo n : Nat) (h : ys.length ≤ n) :
    ((upFrom lo n).zip (ys.zip (splitElems 0 n []).1)).map (fun (j, y, r) => stageOne d t j y r) =
      ys.map fun y => ⟨func32 d.func y, y, [], Tally.flag false⟩ := by
  induction ys generalizing lo n with
  | nil => simp
  | cons y ys ih =>
    cases n with
    | zero => simp at h
    | succ n =>
      have hrest := ih (lo + 1) n (by simpa using h)
      simp only [upFrom, splitElems, List.drop_nil, List.take_nil, List.zip_cons_cons, List.map_cons, hrest]
      simp [stageOne, hbias, hderiv]

/-- The last pass of a command with neither second nor save stream, whose output takes no draws, writes its output stream
(R104, R105). -/
theorem drainLast_plain (hsave : d.save = none) (hgroup : d.group = none) (hdraws : convDraws d.out.conv = 0)
    (sums : List U32) (s : State) :
    let ys := (sums.take d.out.t.n).map (func32 d.func)
    ∃ u, drainLast d sums s = writeOut d.ctx.op d.out (ys.map OutVal.of) (ys.map fun _ => 0) u := by
  have hslots : ((upFrom 0 d.out.t.n).map fun j => List.replicate 0 (64 + j)).flatten = [] := by simp
  have hdraw : (popDraw d.out.conv []).1 = 0 := by
    unfold popDraw
    split <;> simp_all
  have hstaged (t : State) := staged_plain hbias hderiv t (sums.take d.out.t.n) 0 d.out.t.n (List.length_take_le _ _)
  have hnone : convDraws none = 0 := rfl
  simp only [drainLast, drainWidth, hgroup, hderiv, hsave, convOf, hdraws, hnone, Nat.add_zero, hslots, takeDraws, drawsFrom,
    hstaged, drainSave, drainOut, List.map_map, Function.comp_def, hdraw]
  exact ⟨_, rfl⟩

end

/-! ## Where the drain may write, and what it reads back as -/

theorem accOut_storePlace {d : DrainCmd} {s : State} (h : drainFault s d = none) (hlast : d.lastPass = false)
    (hring : ∀ c r, d.accOut.space ≠ .ring c r) : storePlace d.ctx.core d.accOut = true := by
  simp only [drainFault, hlast, Bool.false_eq_true, if_false, ownSpan, spanWhere, firstFault_cons_eq_none,
    unless'_eq_none] at h
  obtain ⟨-, ⟨hown, -⟩, -⟩ := h
  exact storePlace_of_ownPlace hown hring

theorem drainOutput_storePlace {d : DrainCmd} {s : State} (h : drainFault s d = none) (hlast : d.lastPass = true)
    (hfmt : isFp8 d.out.t.fmt = false) (hring : ∀ c r, d.out.t.loc.space ≠ .ring c r) :
    storePlace d.ctx.core d.out.t.loc = true := by
  simp only [drainFault, hlast, if_true, drainOutFault, outStreamFault, outStreamFaultIn, tensorFaultIn, hfmt,
    Bool.false_eq_true, if_false, spanWhere, firstFault_cons_eq_none, unless'_eq_none] at h
  obtain ⟨-, -, ⟨-, ⟨⟨⟨hown, -⟩, -⟩, -⟩, -⟩, -⟩ := h
  exact storePlace_of_ownPlace hown hring

/-- Before the last pass the drain writes its running sums alone. -/
theorem drainRun_spans_sums {d : DrainCmd} {s : State} (hlast : d.lastPass = false)
    (hl : storePlace d.ctx.core d.accOut = true) : ∀ w ∈ (drainRun d).spans s, storePlace d.ctx.core w.1 = true := by
  simp [EngineRun.spans, drainRun, drainWrites, hlast, hl]

/-- In the last pass, with neither save stream nor group, the drain writes its output alone. -/
theorem drainRun_spans_output {d : DrainCmd} {s : State} (hlast : d.lastPass = true) (hsave : d.save = none)
    (hgroup : d.group = none) (hfmt : isFp8 d.out.t.fmt = false) (hl : storePlace d.ctx.core d.out.t.loc = true) :
    ∀ w ∈ (drainRun d).spans s, storePlace d.ctx.core w.1 = true := by
  simp +contextual [EngineRun.spans, drainRun, drainWrites, tensorSpans, hlast, hsave, hgroup, hfmt, hl]

section
variable {d : DrainCmd} {s : State} {e : FootEntry} {es : List FootEntry}
  (hfoot : SMap.get [] s.cores.foot d.ctx.core.val = e :: es)
include hfoot

theorem drainRun_effect_taken : (drainRun d).effect ((drainRun d).taken s) = drainEffect d e ((drainRun d).taken s) := by
  obtain ⟨-, -, hkept, -⟩ := ((drainRun d).taken_handOver s).keeps
  exact drainRun_effect (by rw [hkept, hfoot])

/-- Before the last pass the running sums stand at their place (R92, R101). -/
theorem drainDone_sums (hr : (drainRun d).refusal s = none) (hlast : d.lastPass = false)
    (hring : ∀ c r, d.accOut.space ≠ .ring c r) :
    let acc := drainSums d e ((drainRun d).taken s)
    acc.length = 32 → read32 ((drainRun d).done s) d.accOut 32 = acc.map fun v => v.1 := by
  intro acc hlen
  have hl := accOut_storePlace (EngineRun.fault_of_refusal_none hr) hlast hring
  have heffect := drainRun_effect_taken hfoot
  rw [drainEffect_eq, hlast, if_neg Bool.false_ne_true] at heffect
  have hread := read32_writeU32s hl (drainPopped d e ((drainRun d).taken s)) (acc.map fun v => v.1)
  rw [List.length_map, hlen] at hread
  simpa only [read32, locNat, EngineRun.locRead_done hl (drainRun_spans_sums hlast hl), heffect] using hread

/-- In the last pass the output stream stands at its place (R104, R105). -/
theorem drainDone_output (hr : (drainRun d).refusal s = none) (hlast : d.lastPass = true) (hbias : d.bias = none)
    (hderiv : d.derivX = none) (hsave : d.save = none) (hgroup : d.group = none) (hfmt : isFp8 d.out.t.fmt = false)
    (hdraws : convDraws d.out.conv = 0) (hring : ∀ c r, d.out.t.loc.space ≠ .ring c r) :
    let ys := ((drainSums d e ((drainRun d).taken s)).take d.out.t.n).map fun v => func32 d.func v.1
    let bs := (outBytes d.out.t d.out.conv (ys.map OutVal.of) (ys.map fun _ => 0)).1
    locRead ((drainRun d).done s) d.out.t.loc 0 bs.length = bs := by
  intro ys bs
  have hl := drainOutput_storePlace (EngineRun.fault_of_refusal_none hr) hlast hfmt hring
  have heffect := drainRun_effect_taken hfoot
  obtain ⟨u, hu⟩ := drainLast_plain hbias hderiv hsave hgroup hdraws
    ((drainSums d e ((drainRun d).taken s)).map fun v => v.1) (drainPopped d e ((drainRun d).taken s))
  have hys : (((drainSums d e ((drainRun d).taken s)).map fun v => v.1).take d.out.t.n).map (func32 d.func) = ys := by
    rw [← List.map_take, List.map_map]
    rfl
  rw [hys] at hu
  rw [drainEffect_eq, hlast, if_pos rfl, hu] at heffect
  rw [EngineRun.locRead_done hl (drainRun_spans_output hlast hsave hgroup hfmt hl), heffect]
  exact locRead_writeOut hl hfmt _ _ _ _

end

/-! ## The clauses -/

/-- The step is aborted with one error reported. -/
def StepAborted (j : Job) (s t : State) : Prop :=
  t.job = some { j with phase := .aborted } ∧ t.hbm.dev = s.hbm.dev ∧ Out.send .stepAbort ∈ t.sent ∧
  t.cores.scratch = s.cores.scratch ∧ t.cores.foot = [] ∧ t.status.eventCount = s.status.eventCount + 1

/-- Clause of O51 on every command: its turn, the rules, what it needs, and an uncorrectable word (R133, R136). -/
theorem engineCommand_outcomes {c : Instr} {r : EngineRun} {s : State} {j : Job} (hc : exec c s = runEngine c r s)
    (ha : acts s r.ctx.op = true) (hj : s.job = some j) :
    (atHead s r.engine r.ctx.core.val r.ctx.op = false ∨ halosHere s r.ctx = false → Waits c s) ∧
    (r.turn s = true → ∀ k, r.refusal s = some k → exec c s = .refused (.refusedAtBuild k)) ∧
    (r.turn s = true → r.refusal s = none → r.can s = false → exec c s = .next (stall c (r.taken s))) ∧
    (r.turn s = true → r.refusal s = none → r.can s = true → r.ctx.uncorrectable = true → Answers c s fun t =>
      StepAborted j s t ∧ t.status.counts.scratchUes = satInc s.status.counts.scratchUes 1) := by
  refine ⟨fun h => exec_engine_waits hc ha (EngineRun.turn_eq_false h), fun ht k hr => exec_engine_refused hc ha ht hr,
    exec_engine_stalls hc ha, fun ht hr hcan hu => ⟨_, exec_engine_scratchError hc ha ht hr hcan hu, ?_⟩⟩
  rw [scratchError_eq]
  obtain ⟨hjob, hdev, hsent, hscratch, hfoot, hevents, hcounts⟩ := coreError_shows hj
  exact ⟨⟨hjob, hdev, hsent, hscratch, hfoot, hevents⟩, by rw [hcounts]⟩

section
variable {s : State}

/-- Clause of O51 on a tile load whose plane is free (R83, R86). -/
theorem tileLoad_loads {l : TileLoadCmd} (ha : acts s l.ctx.op = true)
    (hwf : SMap.wf PlaneInfo.empty s.cores.planes = true) (ht : (tileLoadRun l).turn s = true)
    (hr : (tileLoadRun l).refusal s = none)
    (hfree : (planeAt s l.ctx.core.val (loadingPlane s l.ctx.core.val)).loaded = false)
    (hu : l.ctx.uncorrectable = false) :
    Answers (.tileLoad l) s fun t =>
      let p := planeAt t l.ctx.core.val (loadingPlane s l.ctx.core.val)
      t = { s with banks := t.banks, ended := t.ended, cores := { s.cores with
              cells := t.cores.cells, cellExps := t.cores.cellExps, checker := t.cores.checker
              planes := t.cores.planes, ctl := t.cores.ctl } } ∧
      p.loaded = true ∧ p.k = l.k ∧ p.n = l.n ∧ p.contractInner = l.contractInner ∧ p.transposed = l.transposed ∧
      p.wide = l.wide ∧ p.fmt = l.w.fmt ∧
      ∀ q, q ≠ planeKey l.ctx.core.val (loadingPlane s l.ctx.core.val) →
        SMap.get PlaneInfo.empty t.cores.planes q = SMap.get PlaneInfo.empty s.cores.planes q := by
  have hreads := tileLoadRun_readsScratch hr
  have hcan : (tileLoadRun l).can s = true := by
    rw [hreads.can_eq rfl]
    simp [tileLoadRun, hfree]
  obtain ⟨_, _, _, hdone⟩ := hreads.done_eq rfl
  refine ⟨_, exec_engine_done rfl ha ht hr hcan hu rfl, ?_⟩
  rw [hdone]
  exact ⟨rfl, loadPlane_shows hwf⟩

theorem tileLoad_waits {l : TileLoadCmd} (ha : acts s l.ctx.op = true) (ht : (tileLoadRun l).turn s = true)
    (hr : (tileLoadRun l).refusal s = none)
    (hheld : (planeAt s l.ctx.core.val (loadingPlane s l.ctx.core.val)).loaded = true) : Waits (.tileLoad l) s := by
  have hreads := tileLoadRun_readsScratch hr
  have hcan : (tileLoadRun l).can s = false := by
    rw [hreads.can_eq rfl]
    simp [tileLoadRun, hheld]
  have hstall := exec_engine_stalls (c := .tileLoad l) rfl ha ht hr hcan
  rwa [hreads.taken_eq] at hstall

/-- Clause of O51 on a swap whose load is complete (R86). -/
theorem tileSwap_swaps {ctx : OpCtx} (ha : acts s ctx.op = true)
    (hplanes : SMap.wf PlaneInfo.empty s.cores.planes = true) (huse : SMap.wf 0 s.cores.planeInUse = true)
    (ht : (tileSwapRun ctx).turn s = true)
    (hloaded : (planeAt s ctx.core.val (loadingPlane s ctx.core.val)).loaded = true) (hu : ctx.uncorrectable = false) :
    Answers (.tileSwap ctx) s fun t =>
      t = { s with banks := t.banks, ended := t.ended, cores := { s.cores with
              planeInUse := t.cores.planeInUse, planes := t.cores.planes, ctl := t.cores.ctl } } ∧
      inUsePlane t ctx.core.val = loadingPlane s ctx.core.val ∧
      planeAt t ctx.core.val (inUsePlane t ctx.core.val) = planeAt s ctx.core.val (loadingPlane s ctx.core.val) ∧
      (planeAt t ctx.core.val (loadingPlane t ctx.core.val)).loaded = false := by
  have hreads := tileSwapRun_readsScratch ctx s
  have hcan : (tileSwapRun ctx).can s = true := (hreads.can_eq rfl).trans hloaded
  obtain ⟨_, _, _, hdone⟩ := hreads.done_eq rfl
  refine ⟨_, exec_engine_done rfl ha ht (tileSwapRun_refusal ctx s) hcan hu rfl, ?_⟩
  rw [hdone]
  exact ⟨rfl, swapPlanes_shows hplanes huse⟩

theorem tileSwap_waits {ctx : OpCtx} (ha : acts s ctx.op = true) (ht : (tileSwapRun ctx).turn s = true)
    (hfree : (planeAt s ctx.core.val (loadingPlane s ctx.core.val)).loaded = false) : Waits (.tileSwap ctx) s := by
  have hreads := tileSwapRun_readsScratch ctx s
  have hcan : (tileSwapRun ctx).can s = false := (hreads.can_eq rfl).trans hfree
  have hstall := exec_engine_stalls (c := .tileSwap ctx) rfl ha ht (tileSwapRun_refusal ctx s) hcan
  rwa [hreads.taken_eq] at hstall

section
variable {w : WaveCmd} (ha : acts s w.ctx.op = true) (ht : (waveRun w).turn s = true)
include ha ht

theorem wave_refused (hn : (planeAt s w.ctx.core.val (inUsePlane s w.ctx.core.val)).n ≠ 0) {k : Nat}
    (hk : waveFault s w = some k) : exec (.trellisWave w) s = .refused (.refusedAtBuild k) := by
  refine exec_engine_refused rfl ha ht (EngineRun.refusal_of_fault ?_)
  simpa [waveRun, tileInUse, hn] using hk

theorem wave_stalls (hr : (waveRun w).refusal s = none)
    (hn : (planeAt s w.ctx.core.val (inUsePlane s w.ctx.core.val)).n = 0) :
    exec (.trellisWave w) s = .next (stall (.trellisWave w) ((waveRun w).taken s)) := by
  refine exec_engine_stalls rfl ha ht hr (EngineRun.can_of_not_ready ?_)
  exact (((waveRun w).taken_handOver s).tileInUse_eq _).trans (by simp [tileInUse, hn])

/-- Clause of O51 on a wave that the checker passes (R82, R94). -/
theorem wave_queues (hwf : SMap.wf [] s.cores.foot = true) (hr : (waveRun w).refusal s = none)
    (hcan : (waveRun w).can s = true) (hu : w.ctx.uncorrectable = false)
    (hmatch : waveMismatch (waveSeen w ((waveRun w).taken s)) = false) :
    let r := waveSeen w ((waveRun w).taken s)
    Answers (.trellisWave w) s fun t =>
      SMap.get [] t.cores.foot w.ctx.core.val =
        SMap.get [] s.cores.foot w.ctx.core.val ++ [⟨w.ctx.op, w.r.val, r.outs, r.sat⟩] ∧
      t.job = s.job ∧ t.status = s.status ∧ t.cores.scratch = s.cores.scratch ∧ t.cores.cells = s.cores.cells := by
  obtain ⟨hjob, hstatus, hfoot, -, -, hscratch, hcells⟩ := ((waveRun w).taken_handOver s).keeps
  obtain ⟨_, _, _, _, _, hdone⟩ := (waveRun w).done_eq s
  have heffect : (waveRun w).effect ((waveRun w).taken s) = waveQueued w ((waveRun w).taken s) :=
    (waveEffect_eq w _).trans (if_neg (by simp [hmatch]))
  have hqueued := waveQueued_shows w ((waveRun w).taken s) (by rwa [hfoot])
  rw [hjob, hstatus, hfoot, hscratch, hcells] at hqueued
  refine ⟨_, exec_engine_done rfl ha ht hr hcan hu rfl, ?_⟩
  rw [hdone, heffect]
  exact hqueued

/-- Clause of O51 on a wave in which the checker finds a mismatch (R96). -/
theorem wave_aborts {j : Job} (hj : s.job = some j) (hwf : SMap.wf [] s.cores.foot = true)
    (hr : (waveRun w).refusal s = none) (hcan : (waveRun w).can s = true) (hu : w.ctx.uncorrectable = false)
    (hmiss : waveMismatch (waveSeen w ((waveRun w).taken s)) = true) :
    Answers (.trellisWave w) s fun t =>
      t.job = some { j with phase := .aborted } ∧ Out.send .stepAbort ∈ t.sent ∧ t.cores.foot = [] ∧
      t.status.counts.mismatches = satInc s.status.counts.mismatches 1 ∧
      t.status.eventCount = s.status.eventCount + 1 := by
  obtain ⟨hjob, hstatus, hfoot, -, -, -, -⟩ := ((waveRun w).taken_handOver s).keeps
  obtain ⟨-, hjob', hstatus', -, -⟩ := waveQueued_shows w ((waveRun w).taken s) (by rwa [hfoot])
  obtain ⟨_, _, _, _, _, hdone⟩ := (waveRun w).done_eq s
  have heffect : (waveRun w).effect ((waveRun w).taken s) =
      checkerMismatch w.ctx.core.val w.ctx.op w.tile (waveQueued w ((waveRun w).taken s)) :=
    (waveEffect_eq w _).trans (if_pos hmiss)
  rw [checkerMismatch_eq] at heffect
  obtain ⟨haborted, -, hsent, -, hempty, hevents, hcounts⟩ := coreError_shows ((hjob'.trans hjob).trans hj)
  rw [hstatus', hstatus] at hevents hcounts
  refine ⟨_, exec_engine_done rfl ha ht hr hcan hu rfl, ?_⟩
  rw [hdone, heffect]
  exact ⟨haborted, hsent, hempty, by rw [hcounts], hevents⟩

end

section
variable {d : DrainCmd} (ha : acts s d.ctx.op = true) (ht : (drainRun d).turn s = true)
  (hr : (drainRun d).refusal s = none)
include ha ht hr

theorem drain_stalls (hfoot : SMap.get [] s.cores.foot d.ctx.core.val = []) :
    exec (.drainResult d) s = .next (stall (.drainResult d) ((drainRun d).taken s)) := by
  obtain ⟨-, -, hkept, -⟩ := ((drainRun d).taken_handOver s).keeps
  have hempty : SMap.get [] ((drainRun d).taken s).cores.foot d.ctx.core.val = [] := by rw [hkept, hfoot]
  exact exec_engine_stalls rfl ha ht hr (EngineRun.can_of_not_ready (bne_eq_false_iff_eq.mpr hempty))

/-- Clause of O51 on the oldest column results: what the drain leaves alone and what it writes (R100 to R105). -/
theorem drain_drains (hwf : SMap.wf [] s.cores.foot = true) (hcan : (drainRun d).can s = true) {e : FootEntry}
    {es : List FootEntry} (hfoot : SMap.get [] s.cores.foot d.ctx.core.val = e :: es) (hu : d.ctx.uncorrectable = false) :
    Answers (.drainResult d) s fun t =>
      let acc := drainSums d e ((drainRun d).taken s)
      SMap.get [] t.cores.foot d.ctx.core.val = es ∧ t.job = s.job ∧ t.status = s.status ∧
      t.cores.cells = s.cores.cells ∧ t.cores.planes = s.cores.planes ∧
      (d.lastPass = false → (∀ c r, d.accOut.space ≠ .ring c r) → acc.length = 32 →
        read32 t d.accOut 32 = acc.map fun v => v.1) ∧
      (d.lastPass = true → d.bias = none → d.derivX = none → d.save = none → d.group = none →
        isFp8 d.out.t.fmt = false → convDraws d.out.conv = 0 → (∀ c r, d.out.t.loc.space ≠ .ring c r) →
        let ys := (acc.take d.out.t.n).map fun v => func32 d.func v.1
        let bs := (outBytes d.out.t d.out.conv (ys.map OutVal.of) (ys.map fun _ => 0)).1
        locRead t d.out.t.loc 0 bs.length = bs) := by
  obtain ⟨hjob, hstatus, hkept, hplanes, -, -, hcells⟩ := ((drainRun d).taken_handOver s).keeps
  have hkeeps := drainEffect_keeps d e ((drainRun d).taken s) (by rwa [hkept]) (by rw [hkept, hfoot])
  rw [hjob, hstatus, hcells, hplanes, ← drainRun_effect_taken hfoot] at hkeeps
  obtain ⟨hleft, hjob', hstatus', hcells', hplanes'⟩ := hkeeps
  obtain ⟨_, _, _, _, _, hdone⟩ := (drainRun d).done_eq s
  refine ⟨_, exec_engine_done rfl ha ht hr hcan hu rfl, ?_, ?_, ?_, ?_, ?_, drainDone_sums hfoot hr,
    drainDone_output hfoot hr⟩
  all_goals rw [hdone]; assumption

end

end

/-- Settles O51: the outcomes that every engine command has, then the load, the swap, the wave and the drain, each by its
clause. -/
theorem trellisFeedsTheDrain : Obligations.TrellisFeedsTheDrain := by
  unfold Obligations.TrellisFeedsTheDrain
  intro s j l ctx w d e es hj hphase hcut aborted bad lc cc wc dc ws ds hplanes huse hfoot
  have ha (op : U32) : acts s op = true := acts_of_inStep hj hphase (hcut op)
  refine ⟨?_, fun ht => ⟨?_, ?_, ?_⟩, fun ht => ⟨?_, ?_⟩, fun ht => ⟨?_, ?_, ?_⟩, fun ht => ⟨?_, ?_, ?_⟩⟩
  case refine_1 =>
    intro x hx
    have hc : exec x.1 s = runEngine x.1 x.2 s := by
      simp only [List.mem_cons, List.not_mem_nil, or_false] at hx
      rcases hx with rfl | rfl | rfl | rfl <;> rfl
    exact engineCommand_outcomes hc (ha _) hj
  case refine_2 => exact fun k hk => exec_engine_refused rfl (ha _) ht (EngineRun.refusal_of_fault hk)
  case refine_3 => exact tileLoad_waits (ha _) ht
  case refine_4 => exact tileLoad_loads (ha _) hplanes ht
  case refine_5 => exact tileSwap_waits (ha _) ht
  case refine_6 => exact fun hloaded _ hu => tileSwap_swaps (ha _) hplanes huse ht hloaded hu
  case refine_7 => exact fun hn k hk => wave_refused (ha _) ht hn hk
  case refine_8 => exact wave_stalls (ha _) ht
  case refine_9 =>
    exact fun hr hcan hu => ⟨wave_queues (ha _) ht hfoot hr hcan hu, waveSeen_of_idle,
      wave_aborts (ha _) ht hj hfoot hr hcan hu⟩
  case refine_10 => exact fun k hk => exec_engine_refused rfl (ha _) ht (EngineRun.refusal_of_fault hk)
  case refine_11 => exact drain_stalls (ha _) ht
  case refine_12 =>
    intro hr hcan hqueue hu
    obtain ⟨t, hexec, hleft, hjob, hstatus, hcells, hkept, hsums, hout⟩ := drain_drains (ha _) ht hr hfoot hcan hqueue hu
    exact ⟨t, hexec, hleft, hjob, hstatus, hcells, hkept, hsums,
      fun hlast hb hx hs hg hf hd hring _ => hout hlast hb hx hs hg hf hd hring⟩

end Sys2Proof.Machine
end

section
/-! The account of draws of a re-executed operation, which the frame of O52 leaves out. -/

namespace Sys2Proof.Machine

/-- Operation 1 repeats one that found the counter of core 3's lane 0 at 0. -/
def redrawing : OpCtx := ⟨3, 1, some [(0, 0)], [], false⟩

/-- One random word (R198), drawn again and written at 0x80 of core 3's scratchpad. -/
def redraw : StreamCmd := ⟨redrawing, .uniformBits 1 ⟨.scratch 3, 0x80⟩⟩

/-- The statement's other commands that have no example yet: they play no part in the refutation. -/
def someLodge : LodgeCmd :=
  ⟨redrawing, 0, false, false, [], 1, 0, 1, fp32At 0, true, 1, fp32At 0, none, .relu, none, ⟨fp32At 0, none⟩⟩
def someForm : AttnForm := .packed ⟨.scratch 3, 0⟩ ⟨.scratch 3, 0⟩
def someAttn : AttnCmd :=
  ⟨redrawing, someForm, 32, 1, 1, 0, .bidirectional, 0, .bf16, fp32At 0, fp32At 0, fp32At 0, ⟨fp32At 0, none⟩, none⟩
def someAttnBack : AttnBackCmd :=
  ⟨redrawing, someForm, 32, 1, 1, 0, .bidirectional, 0, .bf16, .bf16, fp32At 0, fp32At 0, fp32At 0, fp32At 0, fp32At 0,
    ⟨.scratch 3, 0⟩, ⟨fp32At 0, none⟩, ⟨fp32At 0, none⟩, ⟨fp32At 0, none⟩⟩

theorem redraw_runs :
    ((streamRun redraw).turn reexecuting = true ∧ (streamRun redraw).refusal reexecuting = none ∧
      (streamRun redraw).can reexecuting = true) ∧
    (streamRun redraw).ctx.uncorrectable = false ∧ (streamRun redraw).stop reexecuting = none := by
  decide +kernel

/-- The slot drawn again is counted on the operation's own account (R195). -/
theorem recallsAfter_redraw :
    recallsAfter (.streamOperation redraw) reexecuting = some [(1, [(laneKeyOf 3 0, 1)])] := by
  decide +kernel

/-- Refutes O52: a stream operation that is executed again counts its draws on an account of its own in the lane generators
(R195), and the statement lets a stream operation change their running counters alone. -/
theorem not_engineOperationsComplete : ¬ Obligations.EngineOperationsComplete := by
  unfold Obligations.EngineOperationsComplete
  intro h
  obtain ⟨-, -, -, -, -, -, -, -, -, -, -, -, -, hstream, -⟩ := h reexecuting bareJob redraw someGather someLodge someGroom
    someAttn someAttnBack rfl rfl reexecuting_not_withheld
  obtain ⟨t, hexec, hframe, -⟩ := hstream redraw_runs
  have hcounted : t.cores.lanes.recalls = [(1, [(laneKeyOf 3 0, 1)])] :=
    Option.some.inj ((recallsAfter_of_next hexec).symm.trans recallsAfter_redraw)
  have hnone : t.cores.lanes.recalls = [] := by rw [hframe]; rfl
  exact List.cons_ne_nil _ _ (hcounted.symm.trans hnone)

end Sys2Proof.Machine
end

section
/-! Check-value units (O56). -/

namespace Sys2Proof.Machine

/-! ## The units (R349) -/

section
variable {s : State} (hwf : SMap.wf CvState.reset s.cores.cv = true)
include hwf

theorem cvOf_setCv_same (u : CvUnit) (v : CvState) : cvOf (setCv u v s) u = v :=
  SMap.get_set_same _ _ _ _ hwf

theorem cvOf_setCv_other {u x : CvUnit} (v : CvState) (h : cvKey x ≠ cvKey u) : cvOf (setCv u v s) x = cvOf s x :=
  SMap.get_set_other _ _ _ _ _ h hwf

end

/-- A core's unit is the user's own where the operation that names it has selected it; a system controller's has no other
user. -/
theorem cvOwned_iff (s : State) (u : CvUnit) : cvOwned s u = true ↔ cvOp u = none ∨ (cvOf s u).owner = cvOp u := by
  cases h : cvOp u <;> simp [cvOwned, h]

/-! ## The commands (R351 to R354) -/

/-- Of the state only one check-value unit has changed. -/
def OnlyCv (u : CvUnit) (s t : State) : Prop :=
  t = { s with cores := { s.cores with cv := t.cores.cv } } ∧ ∀ x, cvKey x ≠ cvKey u → cvOf t x = cvOf s x

/-- A command that sets one unit answers a state in which that unit holds what was set and every other one what it held. -/
theorem answers_setCv {i : Instr} {s : State} {u : CvUnit} {v : CvState} (hwf : SMap.wf CvState.reset s.cores.cv = true)
    (h : exec i s = .next (setCv u v s)) : Answers i s fun t => OnlyCv u s t ∧ cvOf t u = v :=
  ⟨_, h, ⟨rfl, fun _ hx => cvOf_setCv_other hwf v hx⟩, cvOf_setCv_same hwf u v⟩

section
variable {s : State} (u : CvUnit) (p : Poly) (d : CvData)

theorem exec_cv_idle (hruns : cvRuns u s = false) :
    exec (.cvSelect u p) s = .next s ∧ exec (.cvFeed u d) s = .next s ∧ exec (.cvRead u) s = .next s := by
  have hno : ¬ cvRuns u s = true := by simp [hruns]
  exact ⟨if_pos hno, if_pos hno, if_pos hno⟩

variable (hruns : cvRuns u s = true)
include hruns

theorem exec_cv_waits (hwaits : cvWaits s u = true) :
    Waits (.cvSelect u p) s ∧ Waits (.cvFeed u d) s ∧ Waits (.cvRead u) s := by
  have hyes : ¬ ¬ cvRuns u s = true := not_not_intro hruns
  exact ⟨(if_neg hyes).trans (if_pos hwaits), (if_neg hyes).trans (if_pos hwaits), (if_neg hyes).trans (if_pos hwaits)⟩

variable (hwaits : cvWaits s u = false)
include hwaits

theorem exec_cvSelect_runs :
    exec (.cvSelect u p) s = .next (setCv u { cvSelect p (cvOf s u) with owner := cvOp u } s) := by
  change execCvSelect u p s = _
  simp [execCvSelect, hruns, hwaits]

/-- An operation that feeds or reads a unit that it has not selected is refused when the program is built (R353). -/
theorem exec_cv_refused (howned : cvOwned s u = false) :
    exec (.cvFeed u d) s = .refused (.refusedAtBuild 353) ∧ exec (.cvRead u) s = .refused (.refusedAtBuild 353) := by
  change execCvFeed u d s = _ ∧ execCvRead u s = _
  simp [execCvFeed, execCvRead, hruns, hwaits, howned]

theorem exec_cvFeed_runs (howned : cvOwned s u = true) :
    exec (.cvFeed u d) s = .next (setCv u (cvFeed d (cvOf s u)) s) := by
  change execCvFeed u d s = _
  simp [execCvFeed, hruns, hwaits, howned]

theorem exec_cvRead_runs (howned : cvOwned s u = true) : exec (.cvRead u) s = .next (setCv u (cvRead (cvOf s u)) s) := by
  change execCvRead u s = _
  simp [execCvRead, hruns, hwaits, howned]

end

/-- Settles O56: a unit that does not run does nothing, one whose core has an open branch waits; otherwise a select opens the
unit, and its owner feeds it and reads it. -/
theorem checkUnitsHoldOneComputation : Obligations.CheckUnitsHoldOneComputation := by
  unfold Obligations.CheckUnitsHoldOneComputation
  intro s u p d hwf runs waits user v bytes only
  have hruns : runs = cvRuns u s := by cases u <;> rfl
  have hwaits : waits = cvWaits s u := by cases u <;> rfl
  have huser : user = cvOp u := by cases u <;> rfl
  have hbytes : bytes = cvBytes d := by cases d <;> rfl
  rw [hruns, hwaits, huser, hbytes]
  refine ⟨exec_cv_idle u p d, exec_cv_waits u p d, fun hr hw => ⟨?select, ?refused, fun howned => ?owned⟩⟩
  case select => exact answers_setCv hwf (exec_cvSelect_runs u p hr hw)
  case refused =>
    intro hcore hother
    refine exec_cv_refused u d hr hw (Bool.eq_false_iff.mpr fun h => ?_)
    exact ((cvOwned_iff s u).mp h).elim hcore hother
  case owned =>
    have hmine := (cvOwned_iff s u).mpr howned
    have feed := answers_setCv hwf (exec_cvFeed_runs u d hr hw hmine)
    have read := answers_setCv hwf (exec_cvRead_runs u hr hw hmine)
    refine ⟨fun ho => ?_, fun ho => ?_, fun ho => ?_, fun ho => ?_⟩
    · rwa [cvFeed, if_pos ho] at feed
    · rwa [cvRead, if_pos ho] at read
    · rwa [cvFeed, if_neg (by simpa using ho)] at feed
    · rwa [cvRead, if_neg (by simpa using ho)] at read

end Sys2Proof.Machine
end

section
/-! How the host's JOB_ABORT ends a job (O12). -/

namespace Sys2Proof.Machine

/-! ## The abort (R374, R380, R381) -/

theorem bitAt_setBit_other {w : Nat} (x : BitVec w) (n k : Nat) (b : Bool) (h : k ≠ n) :
    bitAt (setBit x n b) k = bitAt x k := by
  have hout : ¬ (n ≤ k ∧ k ≤ n) := by omega
  rw [bitAt, setBit, getLsbD_setField, if_neg hout, bitAt]
  rcases Nat.lt_or_ge k w with hk | hk
  · simp [hk]
  · simp [BitVec.getLsbD_of_ge x k hk]

/-- The other causes stay as they were. -/
theorem finishCmd_causes (cmd : Byte) (st : CmdState) (code : U16) (s : State) (n : Nat) (h : n ≠ 2) :
    bitAt (finishCmd cmd st code s).mgt.intStatus n = bitAt s.mgt.intStatus n := by
  rw [finishCmd_eq]
  exact bitAt_setBit_other _ 2 n true h

theorem finishCmd_keeps_mgt (cmd : Byte) (st : CmdState) (code : U16) (s : State) :
    (finishCmd cmd st code s).mgt.state = s.mgt.state ∧ (finishCmd cmd st code s).mgt.ringCtrl = s.mgt.ringCtrl := by
  rw [finishCmd_eq]
  exact ⟨rfl, rfl⟩

/-- A command that the module's state accepts during a job runs. -/
theorem entry_duringJob {inBoot inJob : Entry} {inRecovery : Bool} {s : State} (hrom : s.controllers.romDone = true)
    (hidle : s.mgt.cmdState ≠ .busy) (hjob : s.mgt.state.duringJob = true) : entry inBoot inRecovery inJob s = inJob := by
  cases h : s.mgt.state <;> simp_all [entry, cmdIgnored, MgtState.duringJob]

/-- JOB_ABORT with the running job's number. -/
theorem exec_jobAbort {s : State} {j : Job} (hrom : s.controllers.romDone = true) (hidle : s.mgt.cmdState ≠ .busy)
    (hjob : s.mgt.state.duringJob = true) (hj : s.job = some j) (hid : s.mgt.arg0 = Desc.jobId j.desc) :
    exec .jobAbort s =
      .next (finishCmd 5 .done 0x0700 (concludeJob (abortStatus j) (emit (.send .abortJob) s))) := by
  change execJobAbort s = _
  rw [execJobAbort, entry_duringJob hrom hidle hjob, runEntry]
  simp only [jobAbort, hj, if_pos hid]
  rfl

/-! ## The end (R369, R374) -/

/-- A write to host memory changes host memory alone, in the form of an equation. -/
theorem hostWrite_eq (a : Nat) (bs : List Byte) (s : State) :
    hostWrite a bs s = { s with hostMem := (hostWrite a bs s).hostMem } := by
  unfold hostWrite
  split <;> rfl

theorem withStatus_eq (f : StatusRec → StatusRec) (s : State) :
    withStatus f s = { s with status := (withStatus f s).status, hostMem := (withStatus f s).hostMem } := by
  rw [withStatus, postStatus, hostWrite_eq]

theorem raiseCause_eq (n : Nat) (s : State) :
    raiseCause n s = { s with mgt := (raiseCause n s).mgt, sent := (raiseCause n s).sent } := by
  rw [raiseCause, setInterrupts_eq]

theorem advanceRing_eq (s : State) :
    advanceRing s = { s with
      ring := { s.ring with consumer := s.ring.consumer + 1 }
      hostMem := (advanceRing s).hostMem } := by
  rw [advanceRing, hostWrite_eq]

/-- What the end of a job changes: the step is discarded, the record written and cause [1] set, the ring's consumer moves on,
and nothing of the job stays in banks, bias and recovery. -/
theorem endJob_eq (code : U16) (s : State) :
    endJob code s = { discardStep s with
      mgt := (endJob code s).mgt
      ring := { s.ring with consumer := s.ring.consumer + 1 }
      status := (endJob code s).status
      hostMem := (endJob code s).hostMem
      recovery := (endJob code s).recovery
      job := none
      sent := (endJob code s).sent
      link := { s.link with deviceBias := [] }
      banks := dropRefs (fun _ => true) s.banks } := by
  rw [endJob, withStatus_eq, raiseCause_eq, advanceRing_eq]
  rfl

theorem dropRefs_all (b : Banks) :
    dropRefs (fun _ => true) b = { b with bank0 := { b.bank0 with refs := [] }, bank1 := { b.bank1 with refs := [] } } := by
  simp [dropRefs]

/-- Nothing of the job stays in bias and banks, and its descriptor is consumed (R146, R365, R369). -/
theorem endJob_releases (code : U16) (s : State) :
    (endJob code s).link = { s.link with deviceBias := [] } ∧
    (endJob code s).banks =
      { s.banks with bank0 := { s.banks.bank0 with refs := [] }, bank1 := { s.banks.bank1 with refs := [] } } ∧
    (endJob code s).ring = { s.ring with consumer := s.ring.consumer + 1 } := by
  rw [endJob_eq, dropRefs_all]
  exact ⟨rfl, rfl, rfl⟩

theorem endJob_raises (code : U16) (s : State) : bitAt (endJob code s).mgt.intStatus 1 = true := by
  simp [endJob, raiseCause, setInterrupts_eq, bitAt_setBit_same]

theorem endJob_sent (code : U16) (s : State) {o : Out} (h : o ∈ s.sent) : o ∈ (endJob code s).sent := by
  simp [endJob, raiseCause, setInterrupts_eq, discardStep, h]

/-- The consumer word of the job ring's control block (R365). -/
theorem advanceRing_consumer {s : State} {a c : U64} (ha : s.mgt.ringCtrl = a) (hcons : s.ring.consumer = c)
    (ht : s.link.trained = true) (hx : s.link.cxl = true) :
    Mem.read 0 (advanceRing s).hostMem (a.toNat + 64) 8 = leBytes 8 (c + 1).toNat := by
  have hread := Mem.read_write_same 0 s.hostMem (a.toNat + 64) (leBytes 8 (c + 1).toNat)
  rw [leBytes_length] at hread
  rw [advanceRing, hostWrite_hostMem, ha, hcons, if_pos (by simp [ht, hx])]
  exact hread

theorem endJob_consumer (code : U16) (s : State) (ht : s.link.trained = true) (hx : s.link.cxl = true) :
    Mem.read 0 (endJob code s).hostMem (s.mgt.ringCtrl.toNat + 64) 8 = leBytes 8 (s.ring.consumer + 1).toNat :=
  advanceRing_consumer (by simp [raiseCause, setInterrupts_eq]) (by simp) (by simpa using ht) (by simpa using hx)

/-! ## An abort or a stop (R374) -/

theorem concludeJob_refreshes {s : State} {j : Job} (code : U16) (hj : s.job = some j) (hr : refreshRuns s = true) :
    concludeJob code s = { discardStep s with job := some { j with phase := .refreshing, stop := endStatus j code } } := by
  simp [concludeJob, hj, hr]

theorem concludeJob_ends_now {s : State} {j : Job} (code : U16) (hj : s.job = some j) (hr : refreshRuns s = false) :
    concludeJob code s = endJob (endStatus j code) s := by
  simp [concludeJob, hj, hr]

/-- What an abort or a stop changes. -/
theorem concludeJob_eq {s : State} {j : Job} (code : U16) (hj : s.job = some j) :
    concludeJob code s = { discardStep s with
      mgt := (concludeJob code s).mgt
      ring := (concludeJob code s).ring
      status := (concludeJob code s).status
      hostMem := (concludeJob code s).hostMem
      recovery := (concludeJob code s).recovery
      job := (concludeJob code s).job
      sent := (concludeJob code s).sent
      link := (concludeJob code s).link
      banks := (concludeJob code s).banks } := by
  cases hr : refreshRuns s with
  | true => rw [concludeJob_refreshes code hj hr]
  | false => rw [concludeJob_ends_now code hj hr, endJob_eq]

theorem concludeJob_sent {s : State} {j : Job} (code : U16) (hj : s.job = some j) {o : Out} (h : o ∈ s.sent) :
    o ∈ (concludeJob code s).sent := by
  cases hr : refreshRuns s with
  | true => rw [concludeJob_refreshes code hj hr]; exact h
  | false => rw [concludeJob_ends_now code hj hr]; exact endJob_sent _ s h

/-- Settles O12: an abort that is accepted tells the rink and concludes the job, at once or with the refresh in progress. -/
theorem jobAbortEndsTheJob : Obligations.JobAbortEndsTheJob := by
  unfold Obligations.JobAbortEndsTheJob
  intro s j hrom hidle hduring hj hid
  let u := emit (.send .abortJob) s
  have hju : u.job = some j := hj
  obtain ⟨hstate, hcode, hcmd, hcause⟩ := finishCmd_mgt 5 .done 0x0700 (concludeJob (abortStatus j) u)
  refine ⟨_, exec_jobAbort hrom hidle hduring hj hid, ?frame, hstate, hcode, hcmd, hcause, ?told, ?ends, fun hr => ?refreshing,
    fun hr => ?atOnce⟩
  case frame =>
    rw [finishCmd_eq_frame, concludeJob_eq _ hju]
    rfl
  case told =>
    rw [finishCmd_eq]
    exact List.mem_append_left _ (concludeJob_sent _ hju (by simp [u]))
  case ends =>
    have h : Ends (abortStatus j) s (concludeJob (abortStatus j) u) := concludeJob_ends _ u j hju
    change Ends (abortStatus j) s _
    simpa [Ends, finishCmd_keeps_mgt] using h
  case refreshing =>
    rw [concludeJob_refreshes _ hju hr]
    simp [u]
  case atOnce =>
    rw [concludeJob_ends_now _ hju hr]
    obtain ⟨hlink, hbanks, hring⟩ := endJob_releases (endStatus j (abortStatus j)) u
    refine ⟨?_, ?_, ?_, ?_, fun ht hx => ?_⟩
    · rw [finishCmd_causes _ _ _ _ 1 (by decide)]
      exact endJob_raises _ u
    all_goals simp only [finishCmd_frame]
    · exact hlink
    · exact hbanks
    · exact hring
    · exact endJob_consumer _ u ht hx

end Sys2Proof.Machine
end

section
/-! BANK_LOAD and the rink's identity barrier (O13). -/

namespace Sys2Proof.Machine

/-! ## Entry into the barrier (R144, R145) -/

/-- The local checks in their order: the active bank, references, the size of a part. -/
theorem bankFault_cases (s : State) (one : Bool) (parts : List Nat) :
    (one = s.banks.active → bankFault s one parts = some 0x0203) ∧
    (one ≠ s.banks.active → (bankOf s.banks one).refs ≠ [] → bankFault s one parts = some 0x0204) ∧
    (one ≠ s.banks.active → (bankOf s.banks one).refs = [] → (∃ n ∈ parts, 65536 < n) →
      bankFault s one parts = some 0x0202) ∧
    (one ≠ s.banks.active → (bankOf s.banks one).refs = [] → (∀ n ∈ parts, n ≤ 65536) → bankFault s one parts = none) := by
  refine ⟨fun ha => ?_, fun ha hr => ?_, fun ha hr hn => ?_, fun ha hr hn => ?_⟩
  · rw [bankFault, if_pos ha]; rfl
  · rw [bankFault, if_neg ha, if_pos hr]; rfl
  · have hbig : (parts.any fun n => decide (65536 < n)) = true := by simpa using hn
    rw [bankFault, if_neg ha, if_neg (not_not_intro hr), if_pos hbig]; rfl
  · have hfit : ¬ (parts.any fun n => decide (65536 < n)) = true := by simpa using hn
    rw [bankFault, if_neg ha, if_neg (not_not_intro hr), if_neg hfit]

theorem entry_ready {inBoot inJob : Entry} {inRecovery : Bool} {s : State} (hrom : s.controllers.romDone = true)
    (hidle : s.mgt.cmdState ≠ .busy) (hready : s.mgt.state = .ready) : entry inBoot inRecovery inJob s = .go := by
  simp [entry, cmdIgnored, hrom, hidle, hready]

/-- BANK_LOAD of an image and a bank that exist. -/
theorem exec_bankLoad {s : State} (parts : List Nat) (hrom : s.controllers.romDone = true) (hidle : s.mgt.cmdState ≠ .busy)
    (hstate : s.mgt.state = .ready ∨ s.mgt.state.duringJob = true) (hin : s.mgt.arg0.toNat + s.mgt.arg1.toNat ≤ devTop)
    (hlen : s.mgt.arg1 ≠ 0) (hbank : s.mgt.arg2.toNat ≤ 1) :
    let one := s.mgt.arg2 == 1
    let id := sha256 (devRead s s.mgt.arg0.toNat s.mgt.arg1.toNat)
    let bad := bankFault s one parts
    exec (.bankLoad parts) s = .next (emit (.send (.bankLoad bad.isSome one id))
      (busyCmd 6 { s with banks := { s.banks with
        waiting := some (one, id, s.mgt.arg0.toNat, s.mgt.arg1.toNat, bad) } })) := by
  have hgo : entry (.refuse Code.mgtBusy) false .go s = .go :=
    hstate.elim (entry_ready hrom hidle) (entry_duringJob hrom hidle)
  have hgood : ¬ (devTop < s.mgt.arg0.toNat + s.mgt.arg1.toNat ∨ s.mgt.arg1.toNat = 0 ∨ 1 < s.mgt.arg2.toNat) := by
    have hne : s.mgt.arg1.toNat ≠ 0 := fun h => hlen (BitVec.eq_of_toNat_eq h)
    omega
  change execBankLoad parts s = _
  rw [execBankLoad, hgo, runEntry, bankLoad, if_neg hgood]

/-! ## The outcome (R145) -/

/-- The command ends, and of the module only the banks are others. -/
def BankLoadEnds (s : State) (st : CmdState) (code : U16) (b : Banks) (t : State) : Prop :=
  t = { s with banks := b, mgt := t.mgt, sent := t.sent } ∧
    t.mgt.cmdState = st ∧ t.mgt.cmdCode = code ∧ t.mgt.cmd = 6 ∧ bitAt t.mgt.intStatus 2 = true

theorem finishCmd_bankLoadEnds (st : CmdState) (code : U16) (b : Banks) (s : State) :
    BankLoadEnds s st code b (finishCmd 6 st code { s with banks := b }) := by
  obtain ⟨hstate, hcode, hcmd, hcause⟩ := finishCmd_mgt 6 st code { s with banks := b }
  exact ⟨by rw [finishCmd_eq_frame], hstate, hcode, hcmd, hcause⟩

section
variable {s : State} {one : Bool} {id : Digest} {a n : Nat} {bad : Option U16}
  (hw : s.banks.waiting = some (one, id, a, n, bad))
include hw

/-- A load that failed its own checks is refused with what it failed, whatever the outcome. -/
theorem barrierOutcome_refused {c : U16} (hbad : bad = some c) (pass : Bool) :
    BankLoadEnds s .refused c { s.banks with waiting := none } (barrierOutcome pass s) := by
  simp only [barrierOutcome, hw, hbad]
  exact finishCmd_bankLoadEnds ..

theorem barrierOutcome_fail :
    BankLoadEnds s .refused (bad.getD 0x0102) { s.banks with waiting := none } (barrierOutcome false s) := by
  cases hbad : bad with
  | some c => exact barrierOutcome_refused hw hbad false
  | none =>
    simp only [barrierOutcome, hw, hbad]
    exact finishCmd_bankLoadEnds ..

theorem barrierOutcome_pass (hbad : bad = none) :
    BankLoadEnds s .done 0x0700 { fillBank one id a n { s.banks with waiting := none } with pending := true }
      (barrierOutcome true s) := by
  simp only [barrierOutcome, hw, hbad]
  exact finishCmd_bankLoadEnds ..

/-- The module's own refusal alone makes an outcome a fail for it. -/
theorem barrierOutcome_own (pass : Bool) : barrierOutcome (bad.isNone && pass) s = barrierOutcome pass s := by
  cases hbad : bad with
  | some c => simp only [barrierOutcome, hw, hbad]
  | none => rfl

/-- What a module's outcome leaves, with `i` the release that brings it. -/
theorem answers_release {i : Instr} {pass : Bool} {o : List Out}
    (h : exec i s = .next (barrierOutcome pass { s with sent := o })) :
    let kept : Banks := { s.banks with waiting := none }
    (pass = false → Answers i s (BankLoadEnds s .refused (bad.getD 0x0102) kept)) ∧
    (∀ c, bad = some c → Answers i s (BankLoadEnds s .refused c kept)) ∧
    (pass = true → bad = none → Answers i s fun t =>
      BankLoadEnds s .done 0x0700 t.banks t ∧ bankOf t.banks one = ⟨some id, a, n, []⟩ ∧
        bankOf t.banks (!one) = bankOf s.banks (!one) ∧ t.banks.pending = true ∧ t.banks.active = s.banks.active ∧
        t.banks.waiting = none) := by
  let u : State := { s with sent := o }
  have hwu : u.banks.waiting = some (one, id, a, n, bad) := hw
  refine ⟨?fail, fun c hbad => ?refused, ?pass⟩
  case fail =>
    rintro rfl
    exact ⟨_, h, barrierOutcome_fail hwu⟩
  case refused => exact ⟨_, h, barrierOutcome_refused hwu hbad pass⟩
  case pass =>
    rintro rfl hbad
    have hends := barrierOutcome_pass hwu hbad
    have hbanks : (barrierOutcome true u).banks =
        { fillBank one id a n { u.banks with waiting := none } with pending := true } := by rw [hends.1]
    refine ⟨_, h, ?_, ?_⟩
    · rw [hbanks]
      exact hends
    · rw [hbanks]
      cases one <;> exact ⟨rfl, rfl, rfl, rfl, rfl⟩

end

/-- The marshal's outcome: no refusal among the entries, and all of one bank and one identity. -/
theorem bankPass_eq (one : Bool) (id : Digest) (a n : Nat) (bad : Option U16) (others : List BankEntry) :
    bankPass (ownEntry (one, id, a, n, bad)) others = (bad.isNone && others.all fun e => e == .ready one id) := by
  cases bad <;> rfl

/-- The outcome takes back nothing that was sent. -/
theorem mem_barrierOutcome_sent (pass : Bool) (s : State) {o : Out} (h : o ∈ s.sent) : o ∈ (barrierOutcome pass s).sent := by
  unfold barrierOutcome
  split
  · exact h
  · split
    · rw [refuse, finishCmd_eq]; exact List.mem_append_left _ h
    · split
      · rw [succeed, finishCmd_eq]; exact List.mem_append_left _ h
      · rw [refuse, finishCmd_eq]; exact List.mem_append_left _ h

/-! ## The releases -/

theorem exec_identityBarrierTimeout (s : State) :
    ∃ o, exec .identityBarrierTimeout s = .next (barrierOutcome false { s with sent := o }) := by
  change ∃ o, execIdentityBarrierTimeout s = _
  unfold execIdentityBarrierTimeout
  split
  · exact ⟨_, rfl⟩
  · exact ⟨s.sent, rfl⟩

/-- Settles O13: the entry with the image's identity or its refusal, and what the outcome leaves that a timeout, a release
or the marshal's own decision brings. -/
theorem bankLoadIsARinkOperation : Obligations.BankLoadIsARinkOperation := by
  unfold Obligations.BankLoadIsARinkOperation
  intro s parts
  refine ⟨fun hrom hidle hstate hin hlen hbank => ?entry, fun one id a n bad hw => ⟨?timeout, fun hm pass => ?member,
    fun hm others hall => ?marshal⟩⟩
  case entry => exact ⟨_, exec_bankLoad parts hrom hidle hstate hin hlen hbank, _, rfl, bankFault_cases s _ parts⟩
  case timeout =>
    obtain ⟨o, hexec⟩ := exec_identityBarrierTimeout s
    exact (answers_release hw hexec).1 rfl
  case member =>
    have hexec : exec (.identityBarrierRelease (.outcome pass)) s = .next (barrierOutcome pass s) := by
      change execIdentityBarrierRelease _ s = _
      simp [execIdentityBarrierRelease, hw, hm]
    exact answers_release hw (o := s.sent) hexec
  case marshal =>
    intro pass
    have hexec : exec (.identityBarrierRelease (.entries others)) s = .next (releaseBanks (bad.isNone && pass) s) := by
      change execIdentityBarrierRelease _ s = _
      simp only [execIdentityBarrierRelease, hw, hm, hall, and_self, if_true, bankPass_eq]
      rfl
    have hown := barrierOutcome_own (s := emit (.send (.identityRelease (bad.isNone && pass))) s) hw pass
    refine ⟨answers_release hw (hexec.trans (congrArg _ hown)), _, hexec, ?_⟩
    exact mem_barrierOutcome_sent _ _ (by simp)

end Sys2Proof.Machine
end

section
/-! What the replica reduction leaves of the recovery state as it goes on (O45). -/

namespace Sys2Proof.Machine

theorem ite_recovery {c : Prop} [Decidable c] {s t u : State} (ht : t.recovery = s.recovery) (hu : u.recovery = s.recovery) :
    (if c then t else u).recovery = s.recovery := by
  split <;> assumption

/-! ## Runs (R250 to R255) -/

theorem putPresent_recovery (bitmap : Nat) (b : Bool) (tile : Nat) (s : State) :
    (putPresent bitmap b tile s).recovery = s.recovery := rfl

theorem clearBits_recovery (bitmap tiles : Nat) (s : State) : (clearBits bitmap tiles s).recovery = s.recovery :=
  foldl_keeps (fun u => u.recovery) _ (fun u k => putPresent_recovery bitmap false k u) _ _

theorem openTile_recovery (d : ReduceDecl) (bitmap base tile : Nat) (s : State) :
    (openTile d bitmap base tile s).recovery = s.recovery := by
  refine foldl_keeps (fun u => u.recovery) _ (fun u w => ?_) _ _
  split <;> rfl

theorem openTiles_recovery (r : MsuRun) (s : State) : (openTiles r s).2.recovery = s.recovery := by
  unfold openTiles
  split
  · rfl
  · exact foldl_keeps (fun u => u.recovery) _ (fun u k => openTile_recovery _ _ _ k u) _ _

theorem writeWordValue_recovery (r : MsuRun) (w : Nat) (s : State) : (writeWordValue r w s).recovery = s.recovery := by
  simp [writeWordValue, addTally]

theorem advanceRun_recovery (r : MsuRun) (s : State) : (advanceRun r s).2.recovery = s.recovery :=
  (foldl_keeps (fun u => u.recovery) _ (fun u w => writeWordValue_recovery _ w u) _ _).trans (openTiles_recovery r s)

theorem spillItem_recovery (r : MsuRun) (s : State) (x : StagedItem) : (spillItem r s x).recovery = s.recovery := by
  unfold spillItem
  split <;> rfl

theorem restage_recovery (r : MsuRun) (s : State) : (restage r s).recovery = s.recovery :=
  foldl_keeps (fun u => u.recovery) _ (fun u x => spillItem_recovery r u x) _ _

theorem advanceInto_recovery (r : MsuRun) (s : State) : (advanceInto r s).recovery = s.recovery := by
  have hkept : (restage (advanceRun r s).1 (putRun (advanceRun r s).1 (advanceRun r s).2)).recovery = s.recovery :=
    (restage_recovery _ _).trans (advanceRun_recovery r s)
  unfold advanceInto
  dsimp only
  split <;> exact hkept

/-! ## Gathers along the ring (R301) -/

theorem locWrite_recovery (l : Loc) (off : Nat) (bs : List Byte) (s : State) :
    (locWrite l off bs s).recovery = s.recovery := by
  unfold locWrite
  split
  · rfl
  · split <;> rfl

theorem forwardPiece_recovery (ring : Bool) (op : U32) (p : Piece) (s : State) :
    (forwardPiece ring op p s).recovery = s.recovery := by
  unfold forwardPiece
  split <;> rfl

theorem notePiece_recovery (ring : Bool) (op : U32) (i : Nat) (s : State) :
    (notePiece ring op i s).recovery = s.recovery := by
  unfold notePiece
  dsimp only
  split <;> rfl

theorem sendOwn_recovery (g : GatherCmd) (s : State) : (sendOwn g s).recovery = s.recovery := by
  unfold sendOwn
  dsimp only
  split
  · rfl
  · split
    · rfl
    · rw [notePiece_recovery, forwardPiece_recovery, locWrite_recovery]

/-! ## The replica reduction goes on (R297 to R303) -/

theorem noteArrival_recovery (j : Job) (s : State) (r : Nat) : (noteArrival j s r).recovery = s.recovery := by
  unfold noteArrival
  split
  · rfl
  · split <;> rfl

theorem settleBuffer_recovery (s : State) (d : OpDecl) : (settleBuffer s d).recovery = s.recovery := by
  unfold settleBuffer
  dsimp only
  split
  · rfl
  · split
    · rfl
    · refine ite_recovery ((sendOwn_recovery _ _).trans ?_) ?_
      all_goals exact ite_recovery (advanceInto_recovery _ s) rfl

theorem openCarry_recovery (s : State) (page : Nat) : (openCarry s page).recovery = s.recovery := by
  unfold openCarry
  split <;> rfl

theorem writeCarry_recovery (included : Bool) (s : State) (b : ReplicaBuf) :
    (writeCarry included s b).recovery = s.recovery := by
  unfold writeCarry
  simp only [devPut_frame]
  split
  · exact clearBits_recovery _ _ s
  · exact foldl_keeps (fun u => u.recovery) (copyCarryTile b (writeArea s b)) (fun _ _ => rfl) _ _

/-- A page closed in step 0 is noted; what is not acknowledged stays (assumption log 20). -/
theorem closeStamp_unacked (page : Nat) (s : State) : (closeStamp page s).recovery.unacked = s.recovery.unacked := by
  unfold closeStamp
  dsimp only
  split <;> rfl

theorem carryStep_unacked (included : Bool) (j : Job) (s : State) :
    (carryStep included j s).recovery.unacked = s.recovery.unacked := by
  have hopened : ((allCarryPages s included j).foldl openCarry s).recovery = s.recovery :=
    foldl_keeps (fun u => u.recovery) _ openCarry_recovery _ _
  unfold carryStep
  dsimp only
  split
  · refine (foldl_keeps (fun u => u.recovery.unacked) _ (fun v p => closeStamp_unacked p v) _ _).trans ?_
    dsimp only
    rw [foldl_keeps (fun u => u.recovery) _ (writeCarry_recovery included), hopened]
  · rw [hopened]

theorem settleCarry_unacked (s : State) : (settleCarry s).recovery.unacked = s.recovery.unacked := by
  unfold settleCarry
  split
  · rfl
  · split
    · rfl
    · split
      · rfl
      · split
        · exact carryStep_unacked _ _ s
        · rfl

/-- The pages that wait for their acknowledgement wait on. -/
theorem settleReplica_unacked (s : State) : (settleReplica s).recovery.unacked = s.recovery.unacked := by
  unfold settleReplica
  split
  · rfl
  · next j _ =>
    split
    · rw [settleCarry_unacked, foldl_keeps (fun u => u.recovery) _ settleBuffer_recovery,
        foldl_keeps (fun u => u.recovery) _ (noteArrival_recovery j)]
    · rfl

end Sys2Proof.Machine
end

section
/-! Tandem copies: the refresh, a page of the partner, and an acknowledgement (O45). -/

namespace Sys2Proof.Machine

/-! ## The pages that are sent (R312) -/

theorem mem_insertNat (xs : List Nat) (n q : Nat) : q ∈ insertNat xs n ↔ q ∈ xs ∨ q = n := by
  induction xs with
  | nil => simp [insertNat]
  | cons x xs ih =>
    unfold insertNat
    split_ifs with hlt heq
    · simp only [List.mem_cons]; tauto
    · subst heq; simp only [List.mem_cons]; tauto
    · simp only [List.mem_cons, ih]; tauto

theorem mem_foldl_insertNat {α : Type} (f : α → Nat) (es : List α) (xs : List Nat) (q : Nat) :
    q ∈ es.foldl (fun a e => insertNat a (f e)) xs ↔ q ∈ xs ∨ q ∈ es.map f := by
  induction es generalizing xs with
  | nil => simp
  | cons e es ih => simp only [List.foldl_cons, ih, mem_insertNat, List.map_cons, List.mem_cons]; tauto

theorem mem_sendPages_unacked (pages : List (Nat × Nat)) (s : State) (q : Nat) :
    q ∈ (sendPages pages s).recovery.unacked ↔ q ∈ s.recovery.unacked ∨ q ∈ pages.map Prod.snd :=
  mem_foldl_insertNat Prod.snd pages _ q

/-! ## The ends of what waits for acknowledgements (R313, R315, R317, R374) -/

/-- While a page waits for its acknowledgement nothing that waits for the last one ends. -/
theorem ends_wait {s : State} (h : s.recovery.unacked ≠ []) :
    endRestore s = s ∧ endSettling s = s ∧ refreshDone s = s := by
  refine ⟨?_, ?_, ?_⟩
  · rw [endRestore, if_neg (by simp [h])]
  · unfold endSettling
    split
    · rfl
    · rw [if_neg (by simp [h])]
  · rw [refreshDone, if_pos (.inl h)]

/-- The end of a pause leaves the job, HBM and what the refresh has still to do. -/
theorem endRestore_keeps (s : State) :
    (endRestore s).job = s.job ∧ (endRestore s).hbm = s.hbm ∧ (endRestore s).time = s.time ∧
    (endRestore s).recovery.unacked = s.recovery.unacked ∧ (endRestore s).recovery.refreshing = s.recovery.refreshing := by
  unfold endRestore
  split
  · simp [resume]
  · simp

theorem endSettling_hbm (s : State) : (endSettling s).hbm = s.hbm := by
  unfold endSettling
  split
  · rfl
  · split <;> rfl

theorem endSettling_refreshing {s : State} {j : Job} (hj : s.job = some j) (hp : j.phase = .refreshing) :
    endSettling s = s := by
  simp [endSettling, hj, hp]

theorem refreshDone_hbm (s : State) : (refreshDone s).hbm = s.hbm := by
  unfold refreshDone
  split
  · rfl
  · dsimp only
    split
    · rfl
    · split
      · simp
      · rfl

/-- A job that waits for the refresh. -/
def WaitsRefresh (s : State) (j : Job) : Prop := s.job = some j ∧ j.phase = .refreshing

/-- A refresh that is over ends the job that waited for it, with what that was to end with. -/
theorem refreshDone_ends {s : State} {j : Job} (hw : WaitsRefresh s j) (hu : s.recovery.unacked = [])
    (hr : s.recovery.refreshing = false) :
    (refreshDone s).job = none ∧ (refreshDone s).status.status = j.stop ∧
    (refreshDone s).mgt.state = (if s.time.running then .ready else .boot) ∧ (refreshDone s).hbm = s.hbm := by
  obtain ⟨hj, hp⟩ := hw
  have hend : refreshDone s = endJob j.stop { s with banks := dropRefs (· == noOp) s.banks } := by
    simp [refreshDone, hu, hr, hj, hp]
  obtain ⟨hnone, hstatus, hstate⟩ := endJob_ends j.stop { s with banks := dropRefs (· == noOp) s.banks }
  rw [hend]
  exact ⟨hnone, hstatus, hstate, by simp⟩

/-- Where no job waits, a refresh that is over gives its reference to a bank back. -/
theorem refreshDone_no_wait {s : State} (hw : ¬ ∃ j, WaitsRefresh s j) (hu : s.recovery.unacked = [])
    (hr : s.recovery.refreshing = false) : refreshDone s = { s with banks := dropRefs (· == noOp) s.banks } := by
  cases hj : s.job with
  | none => simp [refreshDone, hu, hr, hj]
  | some j =>
    have hp : j.phase ≠ .refreshing := fun hp => hw ⟨j, hj, hp⟩
    simp [refreshDone, hu, hr, hj, hp]

/-! ## TANDEM_REFRESH -/

theorem exec_tandemRefresh_idle {s : State} (h : s.recovery.refreshing = false ∨ s.recovery.replicaOk = false) :
    exec .tandemRefresh s = .next s := by
  change execTandemRefresh s = _
  rw [execTandemRefresh, if_pos (by simpa using h)]

/-- The pages of the committed step go out, and the refresh has none left to send. -/
def refreshSent (s : State) : State :=
  let t := sendPages ((jobPages s).filter fun e => refreshDue s e.2) s
  { t with recovery := { t.recovery with refreshing := false } }

theorem exec_tandemRefresh {s : State} (hr : s.recovery.refreshing = true) (hok : s.recovery.replicaOk = true) :
    exec .tandemRefresh s = .next (refreshDone (refreshSent s)) := by
  change execTandemRefresh s = _
  rw [execTandemRefresh, if_neg (by simp [hr, hok])]
  rfl

theorem refreshSent_none {s : State} (h : ((jobPages s).filter fun e => refreshDue s e.2) = []) :
    refreshSent s = { s with recovery := { s.recovery with refreshing := false } } := by
  simp [refreshSent, sendPages, h, emitAll]

/-! ## A page of the partner (R312) -/

/-- Of the state only a page of the tandem, with its stamp, and what has been sent have changed. -/
structure TandemPageOnly (page : Nat) (s t : State) : Prop where
  frame : t = { s with hbm := { s.hbm with tandem := t.hbm.tandem, tandemPoison := t.hbm.tandemPoison,
                                           tandemStamps := t.hbm.tandemStamps }, sent := t.sent }
  bytes : ∀ b m, b + m ≤ 65536 * page ∨ 65536 * page + 65536 ≤ b →
    Mem.read 0 t.hbm.tandem b m = Mem.read 0 s.hbm.tandem b m
  stamps : ∀ q, q ≠ page → SMap.get 0 t.hbm.tandemStamps q = SMap.get 0 s.hbm.tandemStamps q

theorem TandemPageOnly.trans {page : Nat} {s t u : State} (h : TandemPageOnly page s t) (h' : TandemPageOnly page t u) :
    TandemPageOnly page s u where
  frame := by rw [h'.frame, h.frame]
  bytes b m hb := (h'.bytes b m hb).trans (h.bytes b m hb)
  stamps q hq := (h'.stamps q hq).trans (h.stamps q hq)

theorem putTandemStamp_only (page : Nat) (x : U64) {s : State} (hwf : SMap.wf 0 s.hbm.tandemStamps = true) :
    TandemPageOnly page s (putTandemStamp page x s) where
  frame := rfl
  bytes _ _ _ := rfl
  stamps _ hq := SMap.get_set_other _ _ _ _ _ hq hwf

theorem putTandemBytes_only (page : Nat) {bs : List Byte} (s : State) (hlen : bs.length ≤ 65536) :
    TandemPageOnly page s (putTandemBytes page bs s) where
  frame := rfl
  bytes b m hb := Mem.read_write_other _ _ _ _ _ _ (by omega)
  stamps _ _ := rfl

theorem emit_only (page : Nat) (o : Out) (s : State) : TandemPageOnly page s (emit o s) :=
  ⟨rfl, fun _ _ _ => rfl, fun _ _ => rfl⟩

/-- The page with its open stamp and the first bytes of what comes in. -/
def pageBegun (step : U64) (p : PageIn) (n : Nat) (s : State) : State :=
  putTandemBytes p.index ((p.bytes.take 65536).take n) (putTandemStamp p.index (openStamp step) s)

section
variable {s : State} {p : PageIn} (step : U64) (hwf : SMap.wf 0 s.hbm.tandemStamps = true) (hlen : p.bytes.length = 65536)
  {n : Nat} (hn : n ≤ 65536)

theorem taken_bytes (p : PageIn) (hn : n ≤ 65536) : (p.bytes.take 65536).take n = p.bytes.take n := by
  rw [List.take_take, Nat.min_eq_left hn]

include hlen hn

theorem pageBegun_read : Mem.read 0 (pageBegun step p n s).hbm.tandem (65536 * p.index) n = p.bytes.take n := by
  have hread := Mem.read_write_same 0 s.hbm.tandem (65536 * p.index) (p.bytes.take n)
  rw [List.length_take, hlen, Nat.min_eq_left hn] at hread
  rw [← taken_bytes p hn] at hread ⊢
  exact hread

theorem pageBegun_rest :
    Mem.read 0 (pageBegun step p n s).hbm.tandem (65536 * p.index + n) (65536 - n) =
      Mem.read 0 s.hbm.tandem (65536 * p.index + n) (65536 - n) := by
  refine Mem.read_write_other _ _ _ _ _ _ (.inr ?_)
  rw [taken_bytes p hn, List.length_take, hlen, Nat.min_eq_left hn]

include hwf

theorem pageBegun_only : TandemPageOnly p.index s (pageBegun step p n s) := by
  refine (putTandemStamp_only p.index _ hwf).trans (putTandemBytes_only p.index _ ?_)
  rw [taken_bytes p hn, List.length_take, hlen]
  exact Nat.min_le_right n 65536

end

/-- A reset that strikes during the write leaves the open stamp and no acknowledgement. -/
theorem exec_tandemPageReceive_cut {s : State} (step : U64) (p : PageIn) (n : Nat) (h : s.hbm.serving = true) :
    exec (.tandemPageReceive step p (some n)) s = .next (pageBegun step p n s) := by
  change execTandemPageReceive step p (some n) s = _
  rw [execTandemPageReceive, if_neg (not_not_intro h)]
  rfl

/-- A page that is written whole has its closed stamp, and is acknowledged. -/
theorem exec_tandemPageReceive_whole {s : State} (step : U64) (p : PageIn) (h : s.hbm.serving = true) :
    exec (.tandemPageReceive step p none) s =
      .next (emit (.tandemAck p.index) (putTandemStamp p.index step (pageBegun step p 65536 s))) := by
  change execTandemPageReceive step p none s = _
  rw [execTandemPageReceive, if_neg (not_not_intro h), keepPage, pageBegun, taken_bytes p (Nat.le_refl _)]

theorem exec_tandemPageReceive_idle {s : State} (step : U64) (p : PageIn) (cut : Option Nat) (h : s.hbm.serving = false) :
    exec (.tandemPageReceive step p cut) s = .next s := by
  change execTandemPageReceive step p cut s = _
  unfold execTandemPageReceive
  rw [if_pos (by simp [h])]

/-! ## TANDEM_PAGE_ACK (R313) -/

theorem exec_tandemPageAck_unknown {s : State} {n : Nat} (h : devicePage s n = none) :
    exec (.tandemPageAck ⟨n, false⟩) s = .next s := by
  change execTandemPageAck _ s = _
  simp [execTandemPageAck, h]

/-- An acknowledged page that waited takes itself off the awaited ones; any other changes nothing. -/
theorem exec_tandemPageAck {s : State} {n d : Nat} (h : devicePage s n = some d) :
    exec (.tandemPageAck ⟨n, false⟩) s = .next (if d ∈ s.recovery.unacked then pageAcked d s else s) := by
  change execTandemPageAck _ s = _
  by_cases hd : d ∈ s.recovery.unacked <;> simp [execTandemPageAck, h, hd]

/-- The state in which a page no longer waits for its acknowledgement. -/
def unawaited (d : Nat) (s : State) : State :=
  { s with recovery := { s.recovery with unacked := s.recovery.unacked.filter (· ≠ d) } }

theorem ackPage_no_sweeps {s : State} (d : Nat) (h : s.msu.sweeps = []) : ackPage d s = unawaited d s := by
  simp [ackPage, unawaited, h]

/-- Outside a running step of a machine of several rinks no replica reduction goes on. -/
theorem settleReplica_idle {s : State} (h : inStep s = false ∨ siteSeveral s.site = false) : settleReplica s = s := by
  unfold settleReplica
  split
  · rfl
  · rw [if_neg]
    rintro ⟨hin, hseveral⟩
    rcases h with h | h <;> simp_all

theorem inStep_of_waitsRefresh {s : State} {j : Job} (h : WaitsRefresh s j) : inStep s = false := by
  obtain ⟨hj, hp⟩ := h
  simp [inStep, hj, hp]

/-- While others wait, an acknowledgement lets sweeps and carry areas go on and no more. -/
theorem pageAcked_waits {s : State} {d : Nat} (h : (ackPage d s).recovery.unacked ≠ []) :
    pageAcked d s = settleReplica (ackPage d s) := by
  rw [← settleReplica_unacked] at h
  obtain ⟨hrestore, hsettling, hdone⟩ := ends_wait h
  rw [pageAcked, hrestore, hsettling, hdone]

/-! ## A sweep that waits to open the page (R263, R313) -/

theorem openStamp_ne_zero (step : U64) : openStamp step ≠ 0 := by
  intro h
  have hbit := congrArg (fun x : U64 => x.getLsbD 63) h
  simp [openStamp] at hbit

theorem get_putStamp {x : U64} (hx : x ≠ 0) (page q : Nat) (s : State) :
    SMap.get 0 (putStamp page x s).hbm.stamps q = if q = page then x else SMap.get 0 s.hbm.stamps q := by
  simp only [putStamp, SMap.set, if_neg hx]
  split_ifs with hq
  · rw [hq]; exact SMap.get_put_same ..
  · exact SMap.get_put_other _ _ _ _ _ hq

/-- Stamps put one after another, all the same. -/
theorem get_foldl_putStamp {α : Type} {x : U64} (hx : x ≠ 0) (page : α → Nat) (es : List α) (q : Nat) (s : State) :
    SMap.get 0 (es.foldl (fun t e => putStamp (page e) x t) s).hbm.stamps q =
      if q ∈ es.map page then x else SMap.get 0 s.hbm.stamps q := by
  induction es generalizing s with
  | nil => simp
  | cons e es ih =>
    rw [List.foldl_cons, ih, get_putStamp hx]
    by_cases hes : q ∈ es.map page <;> by_cases he : q = page e <;> simp [hes, he]

theorem openInto_hbm_dev (w : Sweep) (s : State) : (openInto w s).hbm.dev = s.hbm.dev :=
  foldl_keeps (fun u => u.hbm.dev) (fun u (q : SweepPage) => putStamp q.page (openStamp s.status.step) u) (fun _ _ => rfl) _ s

/-- Opening puts the open stamp on every page of the sweep that is not open and that no refresh holds. -/
theorem openInto_opens {w : Sweep} {s : State} {q : SweepPage} (hq : q ∈ w.pages) (hclosed : q.opened = false)
    (hfree : refreshHolds s q.page = false) :
    SMap.get 0 (openInto w s).hbm.stamps q.page = openStamp s.status.step := by
  refine (get_foldl_putStamp (openStamp_ne_zero _) SweepPage.page _ _ s).trans (if_pos ?_)
  exact List.mem_map_of_mem (List.mem_filter.mpr ⟨hq, by simp [hclosed, hfree]⟩)

theorem refreshHolds_unawaited {s : State} (d : Nat) (h : s.recovery.refreshing = false) :
    refreshHolds (unawaited d s) d = false := by
  simp [refreshHolds, unawaited, h]

/-- The ends that an acknowledgement brings leave HBM alone. -/
theorem acked_ends_hbm (s : State) : (refreshDone (endSettling (endRestore s))).hbm = s.hbm := by
  obtain ⟨-, hhbm, -⟩ := endRestore_keeps s
  rw [refreshDone_hbm, endSettling_hbm, hhbm]

/-- Settles O45: what the refresh sends waits, a page of the partner is kept under its stamps, and with the last page that
was awaited all that waits for it ends. -/
theorem tandemKeepsCommittedPages : Obligations.TandemKeepsCommittedPages := by
  unfold Obligations.TandemKeepsCommittedPages
  intro s step p n due finished waits
  refine ⟨fun hr hok => ⟨fun hdue => ?sends, fun hdue hu => ⟨fun ⟨j, hw⟩ => ?jobEnds, fun hno => ?noJob⟩⟩,
    exec_tandemRefresh_idle,
    fun hlen hwf => ⟨fun hserving => ⟨?whole, fun hn => ?cut⟩, fun h cut => exec_tandemPageReceive_idle step p cut h⟩,
    fun d hd => ⟨fun hno => ?notAwaited, fun hmem hsweeps hrest => ?waitOn, fun hmem hsweeps hrest hr ⟨j, hw⟩ => ?last,
      fun w q hmem hw hq hqd hclosed hr hsettled => ?opens⟩, exec_tandemPageAck_unknown⟩
  case sends =>
    have hmem (q : Nat) : q ∈ (refreshSent s).recovery.unacked ↔ q ∈ s.recovery.unacked ∨ q ∈ due.map Prod.snd :=
      mem_sendPages_unacked due s q
    have hne : (refreshSent s).recovery.unacked ≠ [] := by
      obtain ⟨e, he⟩ := List.exists_mem_of_ne_nil due hdue
      exact List.ne_nil_of_mem ((hmem e.2).mpr (.inr (List.mem_map_of_mem he)))
    obtain ⟨-, -, hwait⟩ := ends_wait hne
    have hexec := exec_tandemRefresh hr hok
    rw [hwait] at hexec
    exact ⟨_, hexec, rfl, hmem⟩
  case jobEnds =>
    have hexec := exec_tandemRefresh hr hok
    rw [refreshSent_none hdue] at hexec
    exact ⟨_, hexec, j, hw.1, refreshDone_ends hw hu rfl⟩
  case noJob =>
    have hexec := exec_tandemRefresh hr hok
    have hsent := refreshSent_none hdue
    rw [refreshDone_no_wait (by rw [hsent]; exact hno) (by rw [hsent]; exact hu) rfl, hsent] at hexec
    exact ⟨_, hexec, rfl⟩
  case whole =>
    have hbegun := pageBegun_only step hwf hlen (Nat.le_refl 65536)
    have hwf' : SMap.wf 0 (pageBegun step p 65536 s).hbm.tandemStamps = true := SMap.wf_set _ _ _ _ hwf
    have honly := (hbegun.trans (putTandemStamp_only p.index step hwf')).trans (emit_only p.index (.tandemAck p.index) _)
    refine ⟨_, exec_tandemPageReceive_whole step p hserving, ⟨honly.frame, honly.bytes, honly.stamps⟩, ?_,
      SMap.get_set_same _ _ _ _ hwf', rfl⟩
    exact (pageBegun_read step hlen (Nat.le_refl _)).trans (List.take_of_length_le hlen.le)
  case cut =>
    have honly := pageBegun_only step hwf hlen hn
    exact ⟨_, exec_tandemPageReceive_cut step p n hserving, ⟨honly.frame, honly.bytes, honly.stamps⟩,
      pageBegun_read step hlen hn, pageBegun_rest step hlen hn, SMap.get_set_same _ _ _ _ hwf, rfl⟩
  case notAwaited =>
    rw [exec_tandemPageAck hd, if_neg hno]
  case waitOn =>
    have hexec := exec_tandemPageAck hd
    rw [if_pos hmem, pageAcked_waits (by rw [ackPage_no_sweeps d hsweeps]; exact hrest), ackPage_no_sweeps d hsweeps] at hexec
    exact ⟨hexec, fun h => hexec.trans (congrArg _ (settleReplica_idle h))⟩
  case last =>
    have hexec := exec_tandemPageAck hd
    have hidle : settleReplica (unawaited d s) = unawaited d s := settleReplica_idle (.inl (inStep_of_waitsRefresh hw))
    obtain ⟨hjob, hhbm, htime, hunacked, hrefreshing⟩ := endRestore_keeps (unawaited d s)
    have hw' : WaitsRefresh (endRestore (unawaited d s)) j := ⟨hjob.trans hw.1, hw.2⟩
    have hends := refreshDone_ends hw' (hunacked.trans hrest) (hrefreshing.trans hr)
    rw [if_pos hmem, pageAcked, ackPage_no_sweeps d hsweeps, hidle, endSettling_refreshing hw'.1 hw'.2] at hexec
    rw [htime, hhbm] at hends
    exact ⟨_, hexec, j, hw.1, hends⟩
  case opens =>
    subst hqd
    have hexec := exec_tandemPageAck hd
    have hack : ackPage q.page s = openInto w (unawaited q.page s) := by simp [ackPage, unawaited, hw]
    have hopen := openInto_opens hq hclosed (refreshHolds_unawaited q.page hr)
    rw [if_pos hmem, pageAcked, hsettled, hack] at hexec
    refine ⟨_, hexec, ?_, ?_⟩
    · rw [acked_ends_hbm]
      exact hopen
    · rw [acked_ends_hbm, openInto_hbm_dev]
      rfl

end Sys2Proof.Machine
end

section
/-! Places that collectives deliver to, and the slots of the pieces of a gather (O36). -/

namespace Sys2Proof.Machine

/-! ## Delivery places (R127, R233) -/

/-- A place in local HBM or in a core's scratchpad. -/
def DeliveryPlace (l : Loc) : Prop := (∃ c, l.space = .scratch c) ∨ l.space = .hbm

theorem le_spaceSize_of_spanFault {s : State} {l : Loc} {n : Nat} (h : spanFault s l n = none) :
    l.addr + n ≤ spaceSize l.space := by
  unfold spanFault at h
  split at h
  · cases h
  · omega

/-- What the checks of a collective's place say of it. -/
theorem deliveryFault_none {s : State} {write : Bool} {l : Loc} {n : Nat} (h : deliveryFault s write l n = none) :
    DeliveryPlace l ∧ l.addr + n ≤ spaceSize l.space := by
  simp only [deliveryFault, firstFault_cons_eq_none, unless'_eq_none] at h
  obtain ⟨hplace, hspan, -⟩ := h
  refine ⟨?_, le_spaceSize_of_spanFault hspan⟩
  cases hl : l.space with
  | scratch c => exact .inl ⟨c, hl⟩
  | hbm => exact .inr hl
  | drain c => simp [hl] at hplace
  | ring c r => simp [hl] at hplace

/-- Two spans have no byte in common. -/
def Apart (l d : Loc) (n m : Nat) : Prop := l.space ≠ d.space ∨ l.addr + n ≤ d.addr ∨ d.addr + m ≤ l.addr

/-- A place a number of bytes further on. -/
def locAt (l : Loc) (off : Nat) : Loc := ⟨l.space, l.addr + off⟩

theorem locRead_locAt (s : State) (l : Loc) (off n : Nat) : locRead s (locAt l off) 0 n = locRead s l off n := by
  cases l with
  | mk space addr => cases space <;> simp [locRead, locAt]

section
variable {d : Loc} (hd : DeliveryPlace d)
include hd

theorem locRead_length_of_deliveryPlace (s : State) (off n : Nat) : (locRead s d off n).length = n := by
  rcases hd with ⟨c, h⟩ | h <;> simp only [locRead, h, devRead, Mem.read_length]

theorem locRead_append_of_deliveryPlace (s : State) (off i n : Nat) :
    locRead s d off (i + n) = locRead s d off i ++ locRead s d (off + i) n := by
  rcases hd with ⟨c, h⟩ | h <;>
    simp only [locRead, h, devRead, Mem.read_append, scratchKey, Nat.add_assoc]

/-- What is delivered reads back. -/
theorem locRead_delivered_same (off : Nat) (bs : List Byte) (s : State) :
    locRead (locWrite d off bs s) d off bs.length = bs := by
  by_cases hbs : bs.isEmpty = true
  · rw [List.isEmpty_iff.mp hbs]
    exact List.eq_nil_of_length_eq_zero (locRead_length_of_deliveryPlace hd _ _ _)
  · rcases hd with ⟨c, h⟩ | h <;>
      simp only [locWrite, hbs, locRead, h, Mem.read_write_same, devRead_devWrite_same, Bool.false_eq_true, if_false]

/-- A delivery leaves every place alone that has no byte in common with it. -/
theorem locRead_delivered_apart {l : Loc} {off n : Nat} {bs : List Byte} (s : State)
    (hdin : d.addr + off + bs.length ≤ spaceSize d.space) (hlin : l.addr + n ≤ spaceSize l.space)
    (h : Apart l (locAt d off) n bs.length) : locRead (locWrite d off bs s) l 0 n = locRead s l 0 n := by
  by_cases hbs : bs.isEmpty = true
  · simp [locWrite, hbs]
  · rcases hd with ⟨c, hc⟩ | hc
    · cases hl : l.space
      case scratch e =>
        simp only [locWrite, hbs, locRead, hc, hl, Bool.false_eq_true, if_false]
        refine Mem.read_write_other _ _ _ _ _ _ ?_
        simp only [Apart, locAt, hc, hl, spaceSize, scratchKey] at *
        have hcore : c.val = e.val ∨ c.val + 1 ≤ e.val ∨ e.val + 1 ≤ c.val := by omega
        rcases hcore with heq | hlt | hlt
        · obtain rfl : c = e := Fin.ext heq
          simp at h
          omega
        · omega
        · omega
      all_goals simp only [locWrite, hbs, locRead, hc, hl, devRead, ringAt, Bool.false_eq_true, if_false]
    · cases hl : l.space
      case hbm =>
        simp only [locWrite, hbs, locRead, hc, hl, Bool.false_eq_true, if_false]
        refine devRead_devWrite_other _ _ _ _ _ ?_
        simp only [Apart, locAt, hc, hl, ne_eq, not_true_eq_false, false_or] at h
        omega
      all_goals simp only [locWrite, hbs, locRead, hc, hl, devWrite, ringAt, Bool.false_eq_true, if_false]

/-- Bytes read one list behind another are read as one. -/
theorem locRead_flatten (s : State) (bss : List (List Byte)) (off : Nat)
    (h : ∀ i (hi : i < bss.length), locRead s d (off + ((bss.map List.length).take i).sum) bss[i].length = bss[i]) :
    locRead s d off bss.flatten.length = bss.flatten := by
  induction bss generalizing off with
  | nil => exact List.eq_nil_of_length_eq_zero (locRead_length_of_deliveryPlace hd _ _ _)
  | cons bs bss ih =>
    have hhead : locRead s d off bs.length = bs := h 0 (Nat.succ_pos _)
    have htail := ih (off + bs.length) fun i hi => by
      rw [Nat.add_assoc]
      exact h (i + 1) (Nat.succ_lt_succ hi)
    rw [List.flatten_cons, List.length_append, locRead_append_of_deliveryPlace hd, hhead, htail]

end

/-- A delivery changes bytes of HBM and of scratchpads alone, and marks no word as poisoned. -/
theorem locWrite_delivers {d : Loc} (hd : DeliveryPlace d) (off : Nat) (bs : List Byte) (s : State) :
    locWrite d off bs s = { s with
      hbm := { s.hbm with dev := (locWrite d off bs s).hbm.dev, poison := (locWrite d off bs s).hbm.poison }
      cores := { s.cores with scratch := (locWrite d off bs s).cores.scratch } } ∧
    (locWrite d off bs s).hbm.poison ⊆ s.hbm.poison := by
  by_cases hbs : bs.isEmpty = true
  · simp [locWrite, hbs]
  · rcases hd with ⟨c, h⟩ | h
    · simp [locWrite, hbs, h]
    · simp only [locWrite, hbs, h, devWrite, Bool.false_eq_true, if_false, true_and]
      exact List.filter_subset_self _

/-! ## Slots (R289, R292) -/

theorem nthD_eq_getD {α : Type} (d : α) (xs : List α) (i : Nat) : nthD d xs i = xs.getD i d := by
  induction xs generalizing i with
  | nil => rfl
  | cons x xs ih => cases i with
    | zero => rfl
    | succ i => simpa [nthD] using ih i

/-- A slot ends where the next one begins. -/
theorem pieceOffset_succ (lens : List Nat) (i : Nat) : pieceOffset lens (i + 1) = pieceOffset lens i + nthD 0 lens i := by
  rw [pieceOffset, pieceOffset, List.take_add_one, List.sum_append, nthD_eq_getD]
  by_cases h : i < lens.length <;> simp [h]

theorem pieceOffset_mono (lens : List Nat) {i j : Nat} (h : i ≤ j) : pieceOffset lens i ≤ pieceOffset lens j := by
  induction j, h using Nat.le_induction with
  | base => exact Nat.le_refl _
  | succ j _ ih => rw [pieceOffset_succ]; omega

/-- A slot lies before every later one. -/
theorem slot_le_pieceOffset (lens : List Nat) {i j : Nat} (h : i < j) :
    pieceOffset lens i + nthD 0 lens i ≤ pieceOffset lens j := by
  rw [← pieceOffset_succ]
  exact pieceOffset_mono lens h

/-- Every slot lies in the destination. -/
theorem slot_le_sum (lens : List Nat) (i : Nat) : pieceOffset lens i + nthD 0 lens i ≤ lens.sum := by
  have hall : pieceOffset lens (i + 1 + lens.length) = lens.sum := by
    rw [pieceOffset, List.take_of_length_le (by omega)]
  rw [← hall]
  exact slot_le_pieceOffset lens (by omega)

end Sys2Proof.Machine
end

section
/-! Pieces of a gather as they are taken and sent (O36). -/

namespace Sys2Proof.Machine

/-! ## A piece is delivered and goes on (R290) -/

/-- Of the state a collective's pieces change bytes of HBM and of scratchpads, what gathers have in, the parts that have
ended and what has been sent. -/
def GatherFrame (s t : State) : Prop :=
  t = { s with hbm := { s.hbm with dev := t.hbm.dev, poison := t.hbm.poison },
               cores := { s.cores with scratch := t.cores.scratch }, coll := { s.coll with gathers := t.coll.gathers },
               ended := t.ended, sent := t.sent }

theorem GatherFrame.refl (s : State) : GatherFrame s s := rfl

theorem GatherFrame.trans {s t u : State} (h : GatherFrame s t) (h' : GatherFrame t u) : GatherFrame s u := by
  rw [GatherFrame] at h h' ⊢
  rw [h', h]

/-- What a piece's way and an operation's waiting depend on stays. -/
theorem GatherFrame.keeps {s t : State} (h : GatherFrame s t) :
    t.site = s.site ∧ t.coll.active = s.coll.active ∧ t.job = s.job ∧ t.status = s.status ∧ t.msu = s.msu := by
  rw [GatherFrame] at h
  rw [h]
  exact ⟨rfl, rfl, rfl, rfl, rfl⟩

/-- What leaves by the ports of the rings when a piece goes on. -/
def goingOn (s : State) (ring : Bool) (op : U32) (p : Piece) : List Out :=
  match onward s (gatherDims s ring) (pieceSource s ring p.index) with
  | [] => []
  | ports => [.piece ports op p]

theorem goingOn_congr {s t : State} (h : t.site = s.site) (ring : Bool) (op : U32) (p : Piece) :
    goingOn t ring op p = goingOn s ring op p := by
  have hway : onward t (gatherDims t ring) (pieceSource t ring p.index) =
      onward s (gatherDims s ring) (pieceSource s ring p.index) := by
    simp only [onward, gatherDims, pieceSource, State.coord, State.coordOf, neighbour, h]
  rw [goingOn, goingOn, hway]

theorem forwardPiece_eq (ring : Bool) (op : U32) (p : Piece) (s : State) :
    forwardPiece ring op p s = emitAll (goingOn s ring op p) s := by
  unfold forwardPiece goingOn
  cases onward s (gatherDims s ring) (pieceSource s ring p.index) with
  | nil => simp [emitAll]
  | cons q qs => rfl

/-- A piece is written at its place in the destination and goes on. -/
def deliver (ring : Bool) (op : U32) (d : Loc) (off : Nat) (p : Piece) (s : State) : State :=
  forwardPiece ring op p (locWrite d off p.bytes s)

theorem deliver_shows {d : Loc} (hd : DeliveryPlace d) (ring : Bool) (op : U32) (off : Nat) (p : Piece) (s : State) :
    GatherFrame s (deliver ring op d off p s) ∧
    (deliver ring op d off p s).coll = s.coll ∧ (deliver ring op d off p s).ended = s.ended ∧
    (deliver ring op d off p s).sent = s.sent ++ goingOn s ring op p ∧
    (deliver ring op d off p s).hbm.poison ⊆ s.hbm.poison := by
  obtain ⟨hwrite, hpoison⟩ := locWrite_delivers hd off p.bytes s
  have hsite : (locWrite d off p.bytes s).site = s.site := by rw [hwrite]
  rw [deliver, forwardPiece_eq, goingOn_congr hsite]
  refine ⟨?_, ?_, ?_, ?_, hpoison⟩
  · rw [GatherFrame, hwrite]; rfl
  · rw [hwrite]; rfl
  · rw [hwrite]; rfl
  · rw [hwrite]; rfl

theorem locRead_deliver (d : Loc) (ring : Bool) (op : U32) (off : Nat) (p : Piece) (s : State) (l : Loc) (o n : Nat) :
    locRead (deliver ring op d off p s) l o n = locRead (locWrite d off p.bytes s) l o n := by
  rw [deliver, forwardPiece_eq]
  rfl

/-! ## What is in of a gather (R289, R292) -/

/-- Noting a piece changes what the gather has in, and with the last piece the parts that have ended. -/
theorem notePiece_shows (ring : Bool) (op : U32) (i : Nat) (s : State) :
    GatherFrame s (notePiece ring op i s) ∧ (notePiece ring op i s).hbm = s.hbm ∧
    (notePiece ring op i s).cores = s.cores ∧ (notePiece ring op i s).sent = s.sent ∧
    (gatherOf (notePiece ring op i s) op).got = (gatherOf s op).got ++ [i] := by
  unfold notePiece
  dsimp only
  split
  all_goals exact ⟨rfl, rfl, rfl, rfl, by simp [gatherOf, endPart]⟩

theorem locRead_notePiece (ring : Bool) (op : U32) (i : Nat) (s : State) (l : Loc) (o n : Nat) :
    locRead (notePiece ring op i s) l o n = locRead s l o n := by
  obtain ⟨-, hhbm, hcores, -⟩ := notePiece_shows ring op i s
  simp only [locRead, hhbm, hcores, devRead, ringAt]

theorem notePiece_ended (ring : Bool) (op : U32) (i : Nat) (s : State) :
    ((∃ m ∈ gatherMembers s ring, m ∉ (gatherOf s op).got ∧ m ≠ i) → (notePiece ring op i s).ended = s.ended) ∧
    ((∀ m ∈ gatherMembers s ring, m ∈ (gatherOf s op).got ∨ m = i) →
      SMap.get 0 (notePiece ring op i s).ended op.toNat = SMap.get 0 s.ended op.toNat + 1) := by
  refine ⟨fun ⟨m, hm, hout, hne⟩ => ?_, fun hall => ?_⟩
  · unfold notePiece
    dsimp only
    rw [if_neg]
    intro h
    have := List.all_eq_true.mp h m hm
    simp [hout, hne] at this
  · unfold notePiece
    dsimp only
    rw [if_pos]
    · simp only [endPart, SMap.set, Nat.succ_ne_zero, if_false]
      exact SMap.get_put_same ..
    · exact List.all_eq_true.mpr fun m hm => by simpa using hall m hm

/-! ## Members and their ranks (R290) -/

theorem gatherMembers_congr {s t : State} (hs : t.site = s.site) (ha : t.coll.active = s.coll.active) (ring : Bool) :
    gatherMembers t ring = gatherMembers s ring := by
  simp only [gatherMembers, State.rinkSize, hs, ha]

theorem upFrom_eq_range' (lo n : Nat) : upFrom lo n = List.range' lo n := by
  induction n generalizing lo with
  | zero => rfl
  | succ n ih => rw [upFrom, ih, List.range'_succ]

/-- A module of the rink has its rink-local index as its rank. -/
theorem gatherRank_rink {s : State} {i : Nat} (h : i < s.rinkSize) : gatherRank s false i = some i := by
  rw [gatherRank, gatherMembers, if_neg (by simp), upFrom_eq_range', List.findIdx?_eq_some_iff_getElem]
  refine ⟨by simpa using h, by simp, fun j hj => ?_⟩
  simp only [List.getElem_range', beq_iff_eq]
  omega

/-- Another member's piece that is new and has the declared length is delivered and noted. -/
theorem takePiece_eq {g : GatherCmd} {s : State} {p : Piece} {k : Nat} (hk : gatherRank s g.ring p.index = some k)
    (hself : p.index ≠ gatherSelf s g.ring) (hno : hasPiece s g.op p.index = false)
    (hlen : p.bytes.length = nthD 0 g.lens k) (hp : p.presence = none) :
    takePiece g s p = notePiece g.ring g.op p.index (deliver g.ring g.op g.dest (pieceOffset g.lens k) p s) := by
  simp [takePiece, hk, hself, hno, hlen, putPiecePresence, hp, deliver]

/-! ## Pieces in their slots (R289) -/

theorem slots_apart (lens : List Nat) (d : Loc) {i j : Nat} (h : i ≠ j) :
    Apart (locAt d (pieceOffset lens i)) (locAt d (pieceOffset lens j)) (nthD 0 lens i) (nthD 0 lens j) := by
  refine .inr ?_
  simp only [locAt]
  rcases Nat.lt_or_gt_of_ne h with hlt | hlt
  · have := slot_le_pieceOffset lens hlt
    omega
  · have := slot_le_pieceOffset lens hlt
    omega

/-- A piece has the length that the gather declares for its member. -/
def FitsSlot (g : GatherCmd) (x : Piece) : Prop := nthD 0 g.lens x.index = x.bytes.length

/-- A piece is noted behind its delivery to its slot. -/
def putPiece (g : GatherCmd) (x : Piece) (t : State) : State :=
  notePiece g.ring g.op x.index (deliver g.ring g.op g.dest (pieceOffset g.lens x.index) x t)

/-- Of a gather that had nothing in, some pieces have been put in their slots, one after another. -/
structure PiecesIn (g : GatherCmd) (s : State) (xs : List Piece) (t : State) : Prop where
  frame : GatherFrame s t
  sent : t.sent = s.sent ++ (xs.map (goingOn s g.ring g.op)).flatten
  got : (gatherOf t g.op).got = xs.map Piece.index
  poison : t.hbm.poison ⊆ s.hbm.poison
  written : ∀ x ∈ xs, locRead t g.dest (pieceOffset g.lens x.index) x.bytes.length = x.bytes
  kept : ∀ l n, l.addr + n ≤ spaceSize l.space →
    (∀ x ∈ xs, Apart l (locAt g.dest (pieceOffset g.lens x.index)) n x.bytes.length) → locRead t l 0 n = locRead s l 0 n

theorem PiecesIn.nil {g : GatherCmd} {s : State} (h : (s.coll.gathers.find? fun x => x.op == g.op) = none) :
    PiecesIn g s [] s where
  frame := GatherFrame.refl s
  sent := by simp
  got := by simp [gatherOf, h]
  poison := List.Subset.refl _
  written := by simp
  kept _ _ _ _ := rfl

/-- The operation's part ends with the last member's piece. -/
theorem PiecesIn.put_ended {g : GatherCmd} (hd : DeliveryPlace g.dest) {s t : State} {xs : List Piece} {x : Piece}
    (h : PiecesIn g s xs t) :
    ((∃ m ∈ gatherMembers s g.ring, m ∉ xs.map Piece.index ∧ m ≠ x.index) → (putPiece g x t).ended = t.ended) ∧
    ((∀ m ∈ gatherMembers s g.ring, m ∈ xs.map Piece.index ∨ m = x.index) →
      SMap.get 0 (putPiece g x t).ended g.op.toNat = SMap.get 0 t.ended g.op.toNat + 1) := by
  obtain ⟨hframe, hcoll, hended, -, -⟩ := deliver_shows hd g.ring g.op (pieceOffset g.lens x.index) x t
  obtain ⟨hsite, hactive, -⟩ := (h.frame.trans hframe).keeps
  have hnote := notePiece_ended g.ring g.op x.index (deliver g.ring g.op g.dest (pieceOffset g.lens x.index) x t)
  rw [gatherMembers_congr hsite hactive, hended, gatherOf, hcoll, ← gatherOf, h.got] at hnote
  exact hnote

theorem PiecesIn.hasPiece_eq {g : GatherCmd} {s t : State} {xs : List Piece} (h : PiecesIn g s xs t) (i : Nat) :
    hasPiece t g.op i = (xs.map Piece.index).contains i := by
  rw [hasPiece, h.got]

section
variable {g : GatherCmd} {s t : State} {xs : List Piece} (h : PiecesIn g s xs t) (hring : g.ring = false)
include h hring

theorem PiecesIn.rank_eq {i : Nat} (hlt : i < s.rinkSize) : gatherRank t g.ring i = some i := by
  obtain ⟨hsite, hactive, -⟩ := h.frame.keeps
  rw [gatherRank, gatherMembers_congr hsite hactive, ← gatherRank, hring]
  exact gatherRank_rink hlt

theorem PiecesIn.self_eq : gatherSelf t g.ring = s.L := by
  simp [gatherSelf, hring, State.L, State.coord, h.frame.keeps.1]

/-- A piece of another member that is new and fits is put in its slot. -/
theorem PiecesIn.takePiece_eq_putPiece {x : Piece} (hfits : FitsSlot g x) (hlt : x.index < s.rinkSize)
    (hother : x.index ≠ s.L) (hp : x.presence = none) (hnew : ∀ y ∈ xs, y.index ≠ x.index) :
    takePiece g t x = putPiece g x t := by
  refine takePiece_eq (h.rank_eq hring hlt) ?_ ?_ hfits.symm hp
  · rwa [h.self_eq hring]
  · rw [h.hasPiece_eq]
    simpa using hnew

end

section
variable {g : GatherCmd} (hd : DeliveryPlace g.dest) (hin : g.dest.addr + g.lens.sum ≤ spaceSize g.dest.space)
include hd hin

/-- One more piece in its slot leaves those before it as they are. -/
theorem PiecesIn.put {s t : State} {xs : List Piece} {x : Piece} (h : PiecesIn g s xs t)
    (hfits : ∀ y ∈ x :: xs, FitsSlot g y) (hnew : ∀ y ∈ xs, y.index ≠ x.index) :
    PiecesIn g s (xs ++ [x]) (putPiece g x t) := by
  have hx : FitsSlot g x := hfits x List.mem_cons_self
  have hend : g.dest.addr + pieceOffset g.lens x.index + x.bytes.length ≤ spaceSize g.dest.space := by
    have := slot_le_sum g.lens x.index
    rw [hx] at this
    omega
  obtain ⟨hframe, hcoll, -, hsent, hpoison⟩ := deliver_shows hd g.ring g.op (pieceOffset g.lens x.index) x t
  obtain ⟨hnframe, hnhbm, -, hnsent, hngot⟩ :=
    notePiece_shows g.ring g.op x.index (deliver g.ring g.op g.dest (pieceOffset g.lens x.index) x t)
  have hread (l : Loc) (o n : Nat) : locRead (putPiece g x t) l o n =
      locRead (locWrite g.dest (pieceOffset g.lens x.index) x.bytes t) l o n := by
    rw [putPiece, locRead_notePiece, locRead_deliver]
  have hgather : gatherOf (deliver g.ring g.op g.dest (pieceOffset g.lens x.index) x t) g.op = gatherOf t g.op := by
    rw [gatherOf, gatherOf, hcoll]
  constructor
  case frame => exact h.frame.trans (hframe.trans hnframe)
  case sent =>
    rw [putPiece, hnsent, hsent, h.sent, goingOn_congr h.frame.keeps.1]
    simp
  case got =>
    rw [putPiece, hngot, hgather, h.got]
    simp
  case poison =>
    rw [putPiece, hnhbm]
    exact List.Subset.trans hpoison h.poison
  case written =>
    intro y hy
    rcases List.mem_append.mp hy with hy | hy
    · have hyfits := hfits y (List.mem_cons_of_mem _ hy)
      have hapart := slots_apart g.lens g.dest (hnew y hy)
      have hyend := slot_le_sum g.lens y.index
      rw [hx, hyfits] at hapart
      rw [hyfits] at hyend
      rw [hread, ← locRead_locAt, locRead_delivered_apart hd t hend (by simp only [locAt]; omega) hapart, locRead_locAt]
      exact h.written y hy
    · obtain rfl := List.mem_singleton.mp hy
      rw [hread]
      exact locRead_delivered_same hd _ _ t
  case kept =>
    intro l n hl hapart
    rw [hread, locRead_delivered_apart hd t hend hl (hapart x (by simp))]
    exact h.kept l n hl fun y hy => hapart y (List.mem_append_left _ hy)

/-- Pieces of other members, in any order, are all put in their slots; the operation's part goes on. -/
theorem PiecesIn.takeAll {s t : State} {done todo : List Piece} (h : PiecesIn g s done t) (hring : g.ring = false)
    (hself : s.L < s.rinkSize)
    (hok : ∀ y ∈ done ++ todo, FitsSlot g y ∧ y.index < s.rinkSize ∧ y.index ≠ s.L ∧ y.presence = none)
    (hnodup : ((done ++ todo).map Piece.index).Nodup) :
    PiecesIn g s (done ++ todo) (todo.foldl (takePiece g) t) ∧ (todo.foldl (takePiece g) t).ended = t.ended := by
  induction todo generalizing done t with
  | nil => simpa using h
  | cons x xs ih =>
    obtain ⟨hfits, hlt, hother, hp⟩ := hok x (by simp)
    have hnew : ∀ y ∈ done, y.index ≠ x.index := by
      intro y hy
      rw [List.map_append, List.nodup_append] at hnodup
      obtain ⟨-, -, hdistinct⟩ := hnodup
      exact hdistinct _ (List.mem_map_of_mem hy) _ (by simp)
    have hfitsAll : ∀ y ∈ x :: done, FitsSlot g y := fun y hy => (hok y (by simp at hy ⊢; tauto)).1
    have hrest := ih (h.put hd hin hfitsAll hnew) (by simpa using hok) (by simpa using hnodup)
    have hmissing : ∃ m ∈ gatherMembers s g.ring, m ∉ done.map Piece.index ∧ m ≠ x.index := by
      refine ⟨s.L, by simpa [gatherMembers, hring, mem_upFrom] using hself, fun hm => ?_, hother.symm⟩
      obtain ⟨y, hy, hyL⟩ := List.mem_map.mp hm
      obtain ⟨-, -, hyother, -⟩ := hok y (List.mem_append_left _ hy)
      exact hyother hyL
    rw [List.foldl_cons, h.takePiece_eq_putPiece hring hfits hlt hother hp hnew]
    exact ⟨by simpa using hrest.1, hrest.2.trans ((h.put_ended hd).1 hmissing)⟩

end

end Sys2Proof.Machine
end

section
/-! ALL_GATHER and BROADCAST (O36). -/

namespace Sys2Proof.Machine

/-! ## The pieces of a rink, in the order of concatenation (R289) -/

section
variable {ps : List Piece} {n : Nat} (hindex : ps.map Piece.index = upFrom 0 n)
include hindex

theorem pieces_length : ps.length = n := by
  simpa [upFrom_eq_range'] using congrArg List.length hindex

theorem index_getElem {i : Nat} (hi : i < ps.length) : ps[i].index = i := by
  have hn := pieces_length hindex
  have hat : (ps.map Piece.index)[i]? = some i := by
    rw [hindex, upFrom_eq_range', List.getElem?_range' (by omega)]
    simp
  simpa [hi] using hat

theorem piece_at {x : Piece} (hx : x ∈ ps) : ps[x.index]? = some x ∧ x.index < n := by
  obtain ⟨i, hi, rfl⟩ := List.getElem_of_mem hx
  rw [index_getElem hindex hi, ← pieces_length hindex]
  exact ⟨List.getElem?_eq_getElem hi, hi⟩

theorem eq_of_index_eq {x y : Piece} (hx : x ∈ ps) (hy : y ∈ ps) (h : x.index = y.index) : x = y := by
  have hat := (piece_at hindex hx).1
  rw [h, (piece_at hindex hy).1] at hat
  exact (Option.some.inj hat).symm

theorem index_nodup : (ps.map Piece.index).Nodup := by
  rw [hindex, upFrom_eq_range']
  exact List.nodup_range'

theorem exists_piece {i : Nat} (h : i < n) : ∃ x ∈ ps, x.index = i :=
  List.mem_map.mp (by rw [hindex, mem_upFrom]; omega)

theorem fitsSlot_of_mem {g : GatherCmd} (hlens : g.lens = ps.map fun x => x.bytes.length) {x : Piece} (hx : x ∈ ps) :
    FitsSlot g x := by
  rw [FitsSlot, hlens, nthD_eq_getD, List.getD, List.getElem?_map, (piece_at hindex hx).1]
  rfl

/-- Pieces that all lie in their slots read as their concatenation. -/
theorem locRead_concatenation {g : GatherCmd} (hlens : g.lens = ps.map fun x => x.bytes.length) (hd : DeliveryPlace g.dest)
    (t : State) (h : ∀ x ∈ ps, locRead t g.dest (pieceOffset g.lens x.index) x.bytes.length = x.bytes) :
    locRead t g.dest 0 (ps.map Piece.bytes).flatten.length = (ps.map Piece.bytes).flatten := by
  refine locRead_flatten hd t _ 0 fun i hi => ?_
  have hi' : i < ps.length := by simpa using hi
  have hread := h _ (List.getElem_mem hi')
  rw [index_getElem hindex hi', hlens] at hread
  simpa [pieceOffset, Function.comp_def] using hread

end

/-! ## Waiting, and acting (R31, R239, R252) -/

theorem poisoned_subset {s t : State} (h : t.hbm.poison ⊆ s.hbm.poison) {a n : Nat} (hs : poisoned s a n = false) :
    poisoned t a n = false := by
  rw [poisoned, List.any_eq_false] at hs ⊢
  exact fun e he => hs e (h he)

theorem awaitsReduction_congr {s t : State} (hj : t.job = s.job) (hst : t.status = s.status) (hm : t.msu = s.msu)
    (he : t.ended = s.ended) (op : U32) (a n : Nat) : awaitsReduction t op a n = awaitsReduction s op a n := by
  simp only [awaitsReduction, stepOps, opEnded, hj, hst, hm, he]

/-- What a gather has taken in does not make its own piece wait. -/
theorem PiecesIn.sourceWaits_eq_false {g : GatherCmd} {s t : State} {xs : List Piece} (h : PiecesIn g s xs t)
    (he : t.ended = s.ended) {op : U32} {l : Loc} {n : Nat} (hs : sourceWaits s op l n = false) :
    sourceWaits t op l n = false := by
  obtain ⟨-, -, hjob, hstatus, hmsu⟩ := h.frame.keeps
  simp only [sourceWaits, Bool.and_eq_false_iff, Bool.or_eq_false_iff] at hs ⊢
  refine hs.imp_right fun ⟨hpoison, hawaits⟩ => ⟨poisoned_subset h.poison hpoison, ?_⟩
  rw [awaitsReduction_congr hjob hstatus hmsu he]
  exact hawaits

theorem inStep_of_acts {s : State} {op : U32} (h : acts s op = true) : ∃ j, s.job = some j ∧ j.phase = .inStep := by
  simp only [acts, Bool.and_eq_true] at h
  have hstep := h.1
  unfold inStep at hstep
  split at hstep
  · cases hstep
  · next j hj => exact ⟨j, hj, by simpa using hstep⟩

theorem arrive_of_acts {s : State} {op : U32} (h : acts s op = true) (c : Instr) (effect : State) :
    arrive c op effect s = effect := by
  obtain ⟨j, hj, hphase⟩ := inStep_of_acts h
  simp [arrive, hj, hphase, h]

/-! ## ALL_GATHER -/

/-- What a command names is the operation and the pieces that it brings. -/
theorem gatherOfCmd_names {s : State} {g c : GatherCmd} (h : gatherOfCmd s g = some c) :
    c.op = g.op ∧ c.others = g.others ∧ (g.issue = false → c.issue = false) := by
  unfold gatherOfCmd at h
  split at h
  · obtain ⟨b, -, rfl⟩ := Option.map_eq_some_iff.mp h
    exact ⟨rfl, rfl, fun _ => rfl⟩
  · obtain rfl := Option.some.inj h
    exact ⟨rfl, rfl, id⟩

theorem exec_allGather_acts {s : State} {g c : GatherCmd} (ha : acts s g.op = true) (hc : gatherOfCmd s g = some c)
    (hf : gatherFault s c = none) : exec (.allGather g) s = .next (gatherEffect c s) := by
  change execAllGather g s = _
  simp only [execAllGather, hc, hf, arrive_of_acts ha]

theorem exec_allGather_refused {s : State} {g c : GatherCmd} {r : Nat} (hc : gatherOfCmd s g = some c)
    (hf : gatherFault s c = some r) : exec (.allGather g) s = .refused (.refusedAtBuild r) := by
  change execAllGather g s = _
  simp only [execAllGather, hc, hf]

theorem gatherOfCmd_rink (s : State) {g : GatherCmd} (h : g.ring = false) : gatherOfCmd s g = some g := by
  rw [gatherOfCmd, if_neg (by simp [h])]

/-- What the checks of a gather say of its destination and of this module's piece. -/
theorem gatherFault_none {s : State} {g : GatherCmd} (h : gatherFault s g = none) :
    (DeliveryPlace g.dest ∧ g.dest.addr + g.lens.sum ≤ spaceSize g.dest.space) ∧
    DeliveryPlace g.mine ∧
      g.mine.addr + nthD 0 g.lens ((gatherRank s g.ring (gatherSelf s g.ring)).getD 0) ≤ spaceSize g.mine.space := by
  simp only [gatherFault, firstFault_cons_eq_none] at h
  obtain ⟨-, hdest, hmine, -⟩ := h
  exact ⟨deliveryFault_none hdest, deliveryFault_none hmine⟩

/-- The piece that this module sends. -/
def ownPiece (s : State) (g : GatherCmd) : Piece := ⟨s.L, locRead s g.mine 0 (nthD 0 g.lens s.L), none⟩

/-- Bytes are written, and every place that has none of them is as before. -/
def WrittenAt (s t : State) (d : Loc) (off : Nat) (bs : List Byte) : Prop :=
  locRead t d off bs.length = bs ∧
  ∀ (l : Loc) n, spanFault s l n = none → Apart l (locAt d off) n bs.length → locRead t l 0 n = locRead s l 0 n

/-- What reads as a delivery has written its bytes there. -/
theorem writtenAt_of_reads {s t : State} {d : Loc} {off : Nat} {bs : List Byte} (hd : DeliveryPlace d)
    (hin : d.addr + off + bs.length ≤ spaceSize d.space)
    (h : ∀ l o n, locRead t l o n = locRead (locWrite d off bs s) l o n) : WrittenAt s t d off bs := by
  refine ⟨(h ..).trans (locRead_delivered_same hd off bs s), fun l n hl hapart => ?_⟩
  exact (h ..).trans (locRead_delivered_apart hd s hin (le_spaceSize_of_spanFault hl) hapart)

/-- The state that a collective leaves, with what it has sent. -/
theorem GatherFrame.sends {s t : State} (h : GatherFrame s t) {outs : List Out} (hs : t.sent = outs) :
    t = { s with hbm := { s.hbm with dev := t.hbm.dev, poison := t.hbm.poison },
                 cores := { s.cores with scratch := t.cores.scratch }, coll := { s.coll with gathers := t.coll.gathers },
                 ended := t.ended, sent := outs } := by
  subst hs
  exact h

section
variable {s : State} {g : GatherCmd} {ps : List Piece} (hindex : ps.map Piece.index = upFrom 0 s.rinkSize)
  (hothers : List.Perm g.others (ps.filter fun x => x.index != s.L))
include hindex hothers

/-- The other members' pieces are those of other modules, each once. -/
theorem others_fit (hlens : g.lens = ps.map fun x => x.bytes.length) (hpres : ∀ x ∈ ps, x.presence = none) :
    (∀ x ∈ g.others, FitsSlot g x ∧ x.index < s.rinkSize ∧ x.index ≠ s.L ∧ x.presence = none) ∧
    (g.others.map Piece.index).Nodup := by
  refine ⟨fun x hx => ?_, ?_⟩
  · obtain ⟨hmem, hne⟩ := List.mem_filter.mp (hothers.mem_iff.mp hx)
    exact ⟨fitsSlot_of_mem hindex hlens hmem, (piece_at hindex hmem).2, by simpa using hne, hpres x hmem⟩
  · rw [(hothers.map Piece.index).nodup_iff]
    exact (index_nodup hindex).sublist (List.filter_sublist.map _)

/-- The other members' pieces and this module's own are all of them. -/
theorem mem_others_append_own (hown : ownPiece s g ∈ ps) (x : Piece) : x ∈ g.others ++ [ownPiece s g] ↔ x ∈ ps := by
  rw [List.mem_append, List.mem_singleton, hothers.mem_iff, List.mem_filter]
  refine ⟨fun h => h.elim (fun h => h.1) (fun h => h ▸ hown), fun hx => ?_⟩
  by_cases h : x.index = s.L
  · exact .inr (eq_of_index_eq hindex hx hown h)
  · exact .inl ⟨hx, by simpa using h⟩

end

/-- This module's piece does not lie where the other members' pieces are written: it lies elsewhere, or in its own slot. -/
def OwnApart (s : State) (g : GatherCmd) : Prop :=
  g.mine.space ≠ g.dest.space ∨ g.mine.addr + (ownPiece s g).bytes.length ≤ g.dest.addr ∨
    g.dest.addr + g.lens.sum ≤ g.mine.addr ∨ g.mine.addr = g.dest.addr + (g.lens.take s.L).sum

theorem OwnApart.apart_slot {s : State} {g : GatherCmd} {x : Piece} (h : OwnApart s g) (hown : FitsSlot g (ownPiece s g))
    (hx : FitsSlot g x) (hne : x.index ≠ s.L) :
    Apart g.mine (locAt g.dest (pieceOffset g.lens x.index)) (nthD 0 g.lens s.L) x.bytes.length := by
  have hlen : nthD 0 g.lens s.L = (ownPiece s g).bytes.length := hown
  have hend := slot_le_sum g.lens x.index
  rw [hx] at hend
  rcases h with hspace | hbelow | habove | hslot
  · exact .inl hspace
  · exact .inr (.inl (by simp only [locAt]; omega))
  · exact .inr (.inr (by simp only [locAt]; omega))
  · have hapart := slots_apart g.lens g.dest hne.symm
    rw [hx] at hapart
    have haddr : g.mine.addr = (locAt g.dest (pieceOffset g.lens s.L)).addr := hslot
    rcases hapart with hno | hcase
    · exact absurd rfl hno
    · rw [← haddr] at hcase
      exact .inr hcase

/-- With the other members' pieces in, this module's own goes out as it was, and to its slot. -/
theorem PiecesIn.sendOwn_eq_putPiece {s t : State} {g : GatherCmd} {xs : List Piece} (h : PiecesIn g s xs t)
    (hring : g.ring = false) (hgrad : g.grad = none) (hself : s.L < s.rinkSize) (hnew : ∀ y ∈ xs, y.index ≠ s.L)
    (hread : locRead t g.mine 0 (nthD 0 g.lens s.L) = locRead s g.mine 0 (nthD 0 g.lens s.L)) :
    sendOwn g t = putPiece g (ownPiece s g) t := by
  have hno : hasPiece t g.op s.L = false := by
    rw [h.hasPiece_eq]
    simpa using hnew
  simp [sendOwn, h.self_eq hring, h.rank_eq hring hself, hno, hread, hgrad, putPiece, deliver, ownPiece]

/-- Issued here with no piece of another member, a gather whose own piece is still to be completed waits for it. -/
theorem gatherEffect_waits {s : State} {g : GatherCmd} (hring : g.ring = false) (hissue : g.issue = true)
    (hnone : g.others = [])
    (hwaits : sourceWaits s g.op g.mine (nthD 0 g.lens ((gatherRank s false s.L).getD 0)) = true) :
    gatherEffect g s = stall (.allGather g) s := by
  have hfold : g.others.foldl (takePiece g) s = s := by rw [hnone]; rfl
  have hg : { g with others := [] } = g := by rw [← hnone]
  simp only [gatherEffect, hfold, hg]
  rw [if_neg (not_not_intro hissue), if_pos (by simpa [gatherSelf, hring] using hwaits)]

/-- An all-gather that is issued here with every other member's piece puts all the pieces in their slots, this module's own
last, and its part ends. -/
theorem allGather_gathers {s : State} {g : GatherCmd} {ps : List Piece} (hacts : acts s g.op = true) (hring : g.ring = false)
    (hfault : gatherFault s g = none) (hgrad : g.grad = none) (hissue : g.issue = true) (hself : s.L < s.rinkSize)
    (hnone : (s.coll.gathers.find? fun x => x.op == g.op) = none)
    (hwaits : sourceWaits s g.op g.mine (nthD 0 g.lens s.L) = false)
    (hindex : ps.map Piece.index = upFrom 0 s.rinkSize) (hlens : g.lens = ps.map fun x => x.bytes.length)
    (hown : ownPiece s g ∈ ps) (hpres : ∀ x ∈ ps, x.presence = none)
    (hothers : List.Perm g.others (ps.filter fun x => x.index != s.L)) (hapart : OwnApart s g) :
    Answers (.allGather g) s fun t => PiecesIn g s (g.others ++ [ownPiece s g]) t ∧
      SMap.get 0 t.ended g.op.toNat = SMap.get 0 s.ended g.op.toNat + 1 := by
  obtain ⟨⟨hd, hin⟩, -, hmine⟩ := gatherFault_none hfault
  obtain ⟨hok, hnodup⟩ := others_fit hindex hothers hlens hpres
  obtain ⟨htaken, hended⟩ := (PiecesIn.nil hnone).takeAll hd hin (todo := g.others) hring hself hok hnodup
  rw [List.nil_append] at htaken
  have hrank : (gatherRank s g.ring (gatherSelf s g.ring)).getD 0 = s.L := by
    rw [(PiecesIn.nil hnone).self_eq hring, (PiecesIn.nil hnone).rank_eq hring hself]
    rfl
  have hfits : ∀ x ∈ ownPiece s g :: g.others, FitsSlot g x := by
    rintro x (_ | ⟨_, hx⟩)
    · exact fitsSlot_of_mem hindex hlens hown
    · exact (hok x hx).1
  have hnew : ∀ x ∈ g.others, x.index ≠ s.L := by
    intro x hx
    obtain ⟨-, -, hother, -⟩ := hok x hx
    exact hother
  have hread := htaken.kept g.mine (nthD 0 g.lens s.L) (by rwa [hrank] at hmine) fun x hx =>
    hapart.apart_slot (hfits _ List.mem_cons_self) (hok x hx).1 (hnew x hx)
  have heffect : gatherEffect g s = putPiece g (ownPiece s g) (g.others.foldl (takePiece g) s) := by
    have hgo := htaken.sourceWaits_eq_false hended hwaits
    simp [gatherEffect, hissue, hrank, hgo, htaken.sendOwn_eq_putPiece hring hgrad hself hnew hread]
  have hall : ∀ m ∈ gatherMembers s g.ring, m ∈ g.others.map Piece.index ∨ m = s.L := by
    intro m hm
    obtain ⟨x, hx, rfl⟩ := exists_piece hindex (by simpa [gatherMembers, hring, mem_upFrom] using hm)
    have := List.mem_map_of_mem (f := Piece.index) ((mem_others_append_own hindex hothers hown x).mpr hx)
    simpa [ownPiece] using this
  refine ⟨_, (exec_allGather_acts hacts (gatherOfCmd_rink s hring) hfault).trans (congrArg _ heffect),
    htaken.put hd hin hfits hnew, ?_⟩
  rw [(htaken.put_ended hd).2 hall, hended]

section
variable {s t : State} {g : GatherCmd} {xs ps : List Piece} (h : PiecesIn g s xs t) (hxs : ∀ x, x ∈ xs ↔ x ∈ ps)
  (hindex : ps.map Piece.index = upFrom 0 s.rinkSize)
include h hxs hindex

/-- With every piece in its slot the destination holds their concatenation, and nothing else has changed. -/
theorem PiecesIn.writtenAt_concatenation (hlens : g.lens = ps.map fun x => x.bytes.length) (hd : DeliveryPlace g.dest) :
    WrittenAt s t g.dest 0 (ps.map Piece.bytes).flatten := by
  refine ⟨locRead_concatenation hindex hlens hd t fun x hx => h.written x ((hxs x).mpr hx), fun l n hl hapart => ?_⟩
  have hsum : (ps.map Piece.bytes).flatten.length = g.lens.sum := by
    simp [hlens, List.length_flatten, Function.comp_def]
  rw [hsum] at hapart
  refine h.kept l n (le_spaceSize_of_spanFault hl) fun x hx => hapart.imp_right fun h => ?_
  have hslot := slot_le_sum g.lens x.index
  rw [fitsSlot_of_mem hindex hlens ((hxs x).mp hx)] at hslot
  simp only [locAt] at h ⊢
  omega

theorem PiecesIn.hasPiece_all {i : Nat} (hi : i < s.rinkSize) : hasPiece t g.op i = true := by
  obtain ⟨x, hx, rfl⟩ := exists_piece hindex hi
  rw [h.hasPiece_eq, List.contains_iff_mem]
  exact List.mem_map_of_mem ((hxs x).mpr hx)

end

/-- A piece that arrives by itself is written behind the pieces before it, noted, and goes on. -/
theorem gatherEffect_arrives {s : State} {c : GatherCmd} {p : Piece} {k : Nat} (hpieces : c.others = [p])
    (hissue : c.issue = false) (hfault : gatherFault s c = none) (hrank : gatherRank s c.ring p.index = some k)
    (hother : p.index ≠ gatherSelf s c.ring) (hno : hasPiece s c.op p.index = false)
    (hlen : p.bytes.length = nthD 0 c.lens k) (hpres : p.presence = none) :
    GatherFrame s (gatherEffect c s) ∧ (gatherEffect c s).sent = s.sent ++ goingOn s c.ring c.op p ∧
    WrittenAt s (gatherEffect c s) c.dest (pieceOffset c.lens k) p.bytes ∧
    hasPiece (gatherEffect c s) c.op p.index = true := by
  obtain ⟨⟨hd, hdest⟩, -⟩ := gatherFault_none hfault
  have heffect : gatherEffect c s =
      notePiece c.ring c.op p.index (deliver c.ring c.op c.dest (pieceOffset c.lens k) p s) := by
    simp [gatherEffect, hpieces, hissue, takePiece_eq hrank hother hno hlen hpres]
  obtain ⟨hframe, -, -, hsent, -⟩ := deliver_shows hd c.ring c.op (pieceOffset c.lens k) p s
  obtain ⟨hnframe, -, -, hnsent, hngot⟩ :=
    notePiece_shows c.ring c.op p.index (deliver c.ring c.op c.dest (pieceOffset c.lens k) p s)
  have hslot := slot_le_sum c.lens k
  rw [← hlen] at hslot
  rw [heffect]
  refine ⟨hframe.trans hnframe, hnsent.trans hsent, writtenAt_of_reads hd (by omega) fun l o n => ?_, ?_⟩
  · rw [locRead_notePiece, locRead_deliver]
  · rw [hasPiece, hngot]
    simp

/-! ## BROADCAST -/

/-- A broadcast's piece is the whole operation. -/
theorem noteBroadcast_shows (op : U32) (root : Nat) (s : State) :
    GatherFrame s (noteBroadcast op root s) ∧ (noteBroadcast op root s).sent = s.sent ∧
    (∀ l o n, locRead (noteBroadcast op root s) l o n = locRead s l o n) ∧
    hasPiece (noteBroadcast op root s) op root = true :=
  ⟨rfl, rfl, fun _ _ _ => rfl, by simp [hasPiece, gatherOf, noteBroadcast, endPart]⟩

/-- The root sends its bytes. -/
theorem exec_broadcast_root {s : State} {op : U32} {addr : Loc} {len : Nat} {bytes : List Byte} (ha : acts s op = true)
    (hlt : s.L < s.rinkSize) (hno : hasPiece s op s.L = false) (hf : deliveryFault s false addr len = none)
    (hw : sourceWaits s op addr len = false) :
    exec (.broadcast op s.L addr len bytes) s =
      .next (noteBroadcast op s.L (forwardPiece false op ⟨s.L, locRead s addr 0 len, none⟩ s)) := by
  change execBroadcast op s.L addr len bytes s = _
  simp [execBroadcast, hlt, hf, ha, hno, hw, unless', firstFault]

/-- Every other module writes them and sends them on. -/
theorem exec_broadcast_member {s : State} {op : U32} {root : Nat} {addr : Loc} {bytes : List Byte} (ha : acts s op = true)
    (hlt : root < s.rinkSize) (hno : hasPiece s op root = false) (hother : root ≠ s.L)
    (hf : deliveryFault s true addr bytes.length = none) :
    exec (.broadcast op root addr bytes.length bytes) s =
      .next (noteBroadcast op root (deliver false op addr 0 ⟨root, bytes, none⟩ s)) := by
  change execBroadcast op root addr bytes.length bytes s = _
  simp [execBroadcast, hlt, hf, hno, hother, unless', firstFault, arrive_of_acts ha, deliver]

/-! ## The statement -/

/-- Settles O36: the pieces of a gather fill their slots in whatever order they come, a broadcast's fill the destination. -/
theorem gathersConcatenate : Obligations.GathersConcatenate := by
  unfold Obligations.GathersConcatenate
  intro s g c ps p k root op addr bytes goesOn whole written mine
  refine ⟨?gather, ?arrives, ?waits, fun r hring hfault => exec_allGather_refused (gatherOfCmd_rink s hring) hfault,
    fun ha hlt hno => ⟨?root, ?member⟩⟩
  case gather =>
    intro ha hring hfault hgrad hissue hself hnone hwaits hindex hlens hown hpres hothers hapart
    obtain ⟨⟨hd, -⟩, -⟩ := gatherFault_none hfault
    obtain ⟨t, hexec, hin, hended⟩ :=
      allGather_gathers ha hring hfault hgrad hissue hself hnone hwaits hindex hlens hown hpres hothers hapart
    have hall := mem_others_append_own hindex hothers hown
    refine ⟨t, hexec, hin.frame.sends (hin.sent.trans ?_), hin.writtenAt_concatenation hall hindex hlens hd,
      fun i hi => hin.hasPiece_all hall hindex hi, hended⟩
    rw [hring, List.map_append, List.flatten_append, List.map_singleton, List.flatten_singleton]
    rfl
  case arrives =>
    intro ha hc hfault hrank hother hno hlen hpres
    obtain ⟨-, hpieces, hissue⟩ := gatherOfCmd_names hc
    obtain ⟨hframe, hsent, hwritten, hhas⟩ :=
      gatherEffect_arrives hpieces (hissue rfl) hfault hrank hother hno hlen hpres
    exact ⟨_, exec_allGather_acts (g := { g with issue := false, others := [p] }) ha hc hfault, hframe.sends hsent,
      hwritten, hhas⟩
  case waits =>
    intro ha hring hfault hissue hnone hwaits
    exact (exec_allGather_acts ha (gatherOfCmd_rink s hring) hfault).trans
      (congrArg _ (gatherEffect_waits hring hissue hnone hwaits))
  case root =>
    rintro rfl hfault hwaits
    have hexec := exec_broadcast_root (bytes := []) ha hlt hno hfault hwaits
    obtain ⟨-, -, -, hhas⟩ := noteBroadcast_shows op s.L
      (forwardPiece false op ⟨s.L, locRead s addr 0 bytes.length, none⟩ s)
    refine ⟨_, hexec, ?_, hhas⟩
    rw [forwardPiece_eq]
    rfl
  case member =>
    intro hother hfault
    obtain ⟨hd, hdest⟩ := deliveryFault_none hfault
    obtain ⟨hframe, -, -, hsent, -⟩ := deliver_shows hd false op 0 ⟨root, bytes, none⟩ s
    obtain ⟨hnframe, hnsent, hnread, hhas⟩ :=
      noteBroadcast_shows op root (deliver false op addr 0 ⟨root, bytes, none⟩ s)
    refine ⟨_, exec_broadcast_member ha hlt hno hother hfault, (hframe.trans hnframe).sends (hnsent.trans hsent),
      writtenAt_of_reads hd hdest fun l o n => ?_, hhas⟩
    rw [hnread, locRead_deliver]

end Sys2Proof.Machine
end

section
/-! Packets take their route, leave against credit, and are delivered (O32). -/

namespace Sys2Proof.Machine

/-! ## One entry of a list changed twice -/

theorem updNth_updNth_same {α : Type} (f g : α → α) (xs : List α) (i : Nat) :
    updNth f (updNth g xs i) i = updNth (fun x => f (g x)) xs i := by
  induction xs generalizing i with
  | nil => rfl
  | cons x xs ih =>
    cases i with
    | zero => rfl
    | succ i => exact congrArg (x :: ·) (ih i)

/-- A change of one entry depends on what stands there alone. -/
theorem updNth_eq_const {α : Type} (d : α) (f : α → α) (xs : List α) (i : Nat) :
    updNth f xs i = updNth (fun _ => f (nthD d xs i)) xs i := by
  induction xs generalizing i with
  | nil => rfl
  | cons x xs ih =>
    cases i with
    | zero => rfl
    | succ i => exact congrArg (x :: ·) (ih i)

theorem updNth_nthD_same {α : Type} (d : α) (xs : List α) (i : Nat) : updNth (fun _ => nthD d xs i) xs i = xs := by
  induction xs generalizing i with
  | nil => rfl
  | cons x xs ih =>
    cases i with
    | zero => rfl
    | succ i => exact congrArg (x :: ·) (ih i)

/-! ## Credits (R276) -/

/-- On channel 0 the reserved blocks go first, and then shared ones. -/
theorem takeCredit_false_iff {n : Nat} {c d : Nat × Nat × Nat} :
    takeCredit false n c = some d ↔ n ≤ c.1 + c.2.2 ∧ (c.1 - n, c.2.1, c.2.2 - (n - c.1)) = d := by
  have hown : c.1 - min c.1 n = c.1 - n := by omega
  have hshared : n - min c.1 n = n - c.1 := by omega
  simp [takeCredit, hown, hshared, Nat.add_comm]

theorem takeCredit_true_iff {n : Nat} {c d : Nat × Nat × Nat} :
    takeCredit true n c = some d ↔ n ≤ c.2.1 + c.2.2 ∧ (c.1, c.2.1 - n, c.2.2 - (n - c.2.1)) = d := by
  have hown : c.2.1 - min c.2.1 n = c.2.1 - n := by omega
  have hshared : n - min c.2.1 n = n - c.2.1 := by omega
  simp [takeCredit, hown, hshared, Nat.add_comm]

theorem takeCredit_sum {vc1 : Bool} {n : Nat} {c d : Nat × Nat × Nat} (h : takeCredit vc1 n c = some d) :
    d.1 + d.2.1 + d.2.2 + n = c.1 + c.2.1 + c.2.2 := by
  cases vc1 with
  | false =>
    obtain ⟨hle, rfl⟩ := takeCredit_false_iff.mp h
    dsimp only
    omega
  | true =>
    obtain ⟨hle, rfl⟩ := takeCredit_true_iff.mp h
    dsimp only
    omega

theorem takeCredit_zero (vc1 : Bool) (c : Nat × Nat × Nat) : takeCredit vc1 0 c = some c := by
  cases vc1 <;> simp [takeCredit]

/-- Blocks that have credit together have it one by one. -/
theorem takeCredit_succ {vc1 : Bool} {n : Nat} {c d : Nat × Nat × Nat} (h : takeCredit vc1 (n + 1) c = some d) :
    ∃ e, takeCredit vc1 1 c = some e ∧ takeCredit vc1 n e = some d := by
  cases vc1 with
  | false =>
    obtain ⟨hle, rfl⟩ := takeCredit_false_iff.mp h
    refine ⟨_, takeCredit_false_iff.mpr ⟨by omega, rfl⟩, takeCredit_false_iff.mpr ?_⟩
    simp only [Prod.mk.injEq, true_and]
    omega
  | true =>
    obtain ⟨hle, rfl⟩ := takeCredit_true_iff.mp h
    refine ⟨_, takeCredit_true_iff.mpr ⟨by omega, rfl⟩, takeCredit_true_iff.mpr ?_⟩
    simp only [Prod.mk.injEq, true_and]
    omega

/-- A packet that has credit has it within its class's entry. -/
theorem lt_length_of_takeCredit {vc1 : Bool} {n i : Nat} {cs : List (Nat × Nat × Nat)} {d : Nat × Nat × Nat}
    (h : takeCredit vc1 (n + 1) (nthD (0, 0, 0) cs i) = some d) : i < cs.length := by
  by_contra hi
  rw [nthD_of_length_le _ _ _ (Nat.le_of_not_lt hi)] at h
  simp [takeCredit] at h

/-! ## A port at which one queue alone may hold packets (R276) -/

/-- The queues of a port with `l` in the `k`-th and nothing in the others. -/
def onlyQueue (k : Nat) (l : List Queued) : List (List Queued) := updNth (fun _ => l) (List.replicate 8 []) k

theorem queueNo_lt (cls : TrafficClass) (vc1 : Bool) : queueNo cls vc1 < 8 := by
  cases cls <;> cases vc1 <;> decide

/-- A class and a channel have one queue, and no others have the same. -/
theorem eq_queueNo_iff {c : Nat} {w : Bool} {cls : TrafficClass} {vc1 : Bool} :
    2 * c + w.toNat = queueNo cls vc1 ↔ c = classIndex cls ∧ w = vc1 := by
  cases w <;> cases vc1 <;> simp [queueNo] <;> omega

@[simp] theorem queueNo_class (cls : TrafficClass) (vc1 : Bool) : queueNo cls vc1 / 2 = classIndex cls := by
  cases vc1 <;> simp [queueNo]; omega

@[simp] theorem queueNo_vc (cls : TrafficClass) (vc1 : Bool) : (queueNo cls vc1 % 2 == 1) = vc1 := by
  cases vc1 <;> simp [queueNo]

theorem nthD_replicate_same {α : Type} (d : α) (n i : Nat) : nthD d (List.replicate n d) i = d := by
  simp [nthD_eq_getD]

theorem updNth_replicate_same {α : Type} (d : α) (n i : Nat) :
    updNth (fun _ => d) (List.replicate n d) i = List.replicate n d := by
  simpa only [nthD_replicate_same] using updNth_nthD_same d (List.replicate n d) i

theorem nthD_onlyQueue {k : Nat} (hk : k < 8) (l : List Queued) (i : Nat) :
    nthD [] (onlyQueue k l) i = if i = k then l else [] := by
  split
  case isTrue h => rw [h, onlyQueue, nthD_updNth_same _ _ _ _ (by simpa using hk)]
  case isFalse h => rw [onlyQueue, nthD_updNth_other _ _ _ _ _ h, nthD_replicate_same]

theorem updNth_onlyQueue (f : List Queued → List Queued) {k : Nat} (hk : k < 8) (l : List Queued) :
    updNth f (onlyQueue k l) k = onlyQueue k (f l) := by
  rw [updNth_eq_const [], nthD_onlyQueue hk, if_pos rfl, onlyQueue, updNth_updNth_same]
  rfl

@[simp] theorem onlyQueue_nil (k : Nat) : onlyQueue k [] = List.replicate 8 [] := updNth_replicate_same [] 8 k

section
variable {q : Port} {cls : TrafficClass} {vc1 : Bool} {l : List Queued}

/-- A class is ready when the one queue that may hold something is its own, holds something, and has credit. -/
theorem readyQueue_onlyQueue (hq : q.queues = onlyQueue (queueNo cls vc1) l) (c : Nat) :
    readyQueue q c =
      if c = classIndex cls ∧ l ≠ [] ∧ (takeCredit vc1 1 (nthD (0, 0, 0) q.credits c)).isSome = true then
        some (queueNo cls vc1)
      else none := by
  have hslot (w : Bool) : nthD [] q.queues (2 * c + w.toNat) = if c = classIndex cls ∧ w = vc1 then l else [] := by
    simp only [hq, nthD_onlyQueue (queueNo_lt cls vc1), eq_queueNo_iff]
  unfold readyQueue
  simp only [hslot]
  by_cases hc : c = classIndex cls
  · subst hc
    cases vc1 <;> simp [queueNo]
  · simp [hc]

/-- Where one class alone may be ready, it goes next. -/
theorem nextQueue_of_others_none (h : ∀ c, c ≠ classIndex cls → readyQueue q c = none) :
    nextQueue q = readyQueue q (classIndex cls) := by
  unfold nextQueue
  cases cls <;> simp only [classIndex] at h ⊢
  case recovery => rw [h 1 (by decide), h 2 (by decide), h 3 (by decide)]; cases readyQueue q 0 <;> rfl
  case control => rw [h 0 (by decide), h 2 (by decide), h 3 (by decide)]; cases readyQueue q 1 <;> rfl
  case collective => rw [h 0 (by decide), h 1 (by decide), h 3 (by decide)]; cases readyQueue q 2 <;> rfl
  case offload => rw [h 0 (by decide), h 1 (by decide), h 2 (by decide)]; cases readyQueue q 3 <;> rfl

/-- The one queue that holds something is the next to send, if it has credit. -/
theorem nextQueue_onlyQueue (hq : q.queues = onlyQueue (queueNo cls vc1) l) :
    nextQueue q =
      if l ≠ [] ∧ (takeCredit vc1 1 (nthD (0, 0, 0) q.credits (classIndex cls))).isSome = true then
        some (queueNo cls vc1)
      else none := by
  have hothers (c : Nat) (hc : c ≠ classIndex cls) : readyQueue q c = none := by
    rw [readyQueue_onlyQueue hq, if_neg (by simp [hc])]
  rw [nextQueue_of_others_none hothers, readyQueue_onlyQueue hq]
  simp

end

theorem nextQueue_of_empty {q : Port} (hq : q.queues = List.replicate 8 []) : nextQueue q = none := by
  have h : q.queues = onlyQueue (queueNo .recovery false) [] := by rw [hq, onlyQueue_nil]
  rw [nextQueue_onlyQueue h, if_neg (by simp)]

theorem fillFrame_of_none {q : Port} (h : nextQueue q = none) (fuel : Nat) : fillFrame fuel q = (q, []) := by
  cases fuel with
  | zero => rfl
  | succ fuel => simp only [fillFrame, h]

/-- What remains of a packet behind its `g` blocks that have left. -/
def stillQueued (p : Packet) (origin : Option (PortId × Bool)) (g : Nat) : List Queued :=
  if g < blocksOf p.bytes then [⟨p, g, origin⟩] else []

/-- One block of the only waiting packet leaves. -/
theorem takeBlock_onlyQueue {q : Port} {p : Packet} {g : Nat} {origin : Option (PortId × Bool)} {credit : Nat × Nat × Nat}
    (hq : q.queues = onlyQueue (queueNo p.cls p.vc1) (stillQueued p origin g)) (hg : g < blocksOf p.bytes)
    (hc : takeCredit p.vc1 1 (nthD (0, 0, 0) q.credits (classIndex p.cls)) = some credit) :
    ∃ share, takeBlock (queueNo p.cls p.vc1) q =
      ({ q with
          queues := onlyQueue (queueNo p.cls p.vc1) (stillQueued p origin (g + 1))
          credits := updNth (fun _ => credit) q.credits (classIndex p.cls)
          share := share },
        some (⟨p, g⟩, origin)) := by
  have hk := queueNo_lt p.cls p.vc1
  have hhead : nthD [] q.queues (queueNo p.cls p.vc1) = [⟨p, g, origin⟩] := by
    rw [hq, nthD_onlyQueue hk, if_pos rfl, stillQueued, if_pos hg]
  refine ⟨(takeBlock (queueNo p.cls p.vc1) q).1.share, ?_⟩
  unfold takeBlock
  simp only [hhead, queueNo_class, queueNo_vc]
  rw [updNth_eq_const (0, 0, 0) _ q.credits, hc, hq, updNth_onlyQueue _ hk]
  rfl

/-- The only waiting packet fills a port frame with all blocks of it that have credit. -/
theorem fillFrame_onlyQueue {p : Packet} {origin : Option (PortId × Bool)} {credit : Nat × Nat × Nat} {n : Nat} :
    ∀ {fuel g : Nat} {q : Port}, q.queues = onlyQueue (queueNo p.cls p.vc1) (stillQueued p origin g) →
      g + n = blocksOf p.bytes → n ≤ fuel →
      takeCredit p.vc1 n (nthD (0, 0, 0) q.credits (classIndex p.cls)) = some credit →
      ∃ share, fillFrame fuel q =
        ({ q with
            queues := List.replicate 8 []
            credits := updNth (fun _ => credit) q.credits (classIndex p.cls)
            share := share },
          (upFrom g n).map fun i => (⟨p, i⟩, origin)) := by
  induction n with
  | zero =>
    intro fuel g q hq hg _ hc
    have hempty : q.queues = List.replicate 8 [] := by
      rw [hq, stillQueued, if_neg (by omega), onlyQueue_nil]
    obtain rfl : _ = credit := Option.some.inj ((takeCredit_zero ..).symm.trans hc)
    refine ⟨q.share, ?_⟩
    rw [fillFrame_of_none (nextQueue_of_empty hempty), updNth_nthD_same, ← hempty]
    rfl
  | succ n ih =>
    intro fuel g q hq hg hfuel hc
    obtain ⟨fuel, rfl⟩ : ∃ m, fuel = m + 1 := ⟨fuel - 1, by omega⟩
    obtain ⟨first, hfirst, hrest⟩ := takeCredit_succ hc
    have hhere : g < blocksOf p.bytes := by omega
    have hnext : nextQueue q = some (queueNo p.cls p.vc1) := by
      rw [nextQueue_onlyQueue hq, if_pos ⟨by simp [stillQueued, hhere], by simp [hfirst]⟩]
    obtain ⟨share, htake⟩ := takeBlock_onlyQueue hq hhere hfirst
    have hleft : nthD (0, 0, 0) (updNth (fun _ => first) q.credits (classIndex p.cls)) (classIndex p.cls) = first :=
      nthD_updNth_same _ _ _ _ (lt_length_of_takeCredit hc)
    obtain ⟨share', hfill⟩ := ih (fuel := fuel) (g := g + 1)
      (q := { q with
        queues := onlyQueue (queueNo p.cls p.vc1) (stillQueued p origin (g + 1))
        credits := updNth (fun _ => first) q.credits (classIndex p.cls)
        share := share }) rfl (by omega) (by omega) (by rw [hleft]; exact hrest)
    refine ⟨share', ?_⟩
    simp only [fillFrame, hnext, htake, hfill, updNth_updNth_same, upFrom, List.map_cons]

/-! ## What a port sends (R271, R276) -/

/-- The credit that goes back to a block's sender as it leaves (R276). -/
def creditBack (b : Block × Option (PortId × Bool)) : Option Out :=
  b.2.map fun origin => .linkWord origin.1 (.credit [⟨b.1.packet.cls, origin.2, 1⟩])

theorem returnCredits_eq (bs : List (Block × Option (PortId × Bool))) (s : State) :
    returnCredits bs s = emitAll (bs.filterMap creditBack) s := by
  unfold returnCredits
  induction bs generalizing s with
  | nil => simp [emitAll]
  | cons b bs ih =>
    obtain ⟨b, _ | origin⟩ := b
    · exact ih s
    · exact (ih _).trans (by simp [creditBack, emitAll, sendWord, emit])

/-- The credits that a packet of `n` blocks gives back as it leaves, to the port it came over, if any. -/
def packetCredits (p : Packet) (origin : Option (PortId × Bool)) (n : Nat) : List Out :=
  match origin with
  | none => []
  | some (port, vc1) => List.replicate n (.linkWord port (.credit [⟨p.cls, vc1, 1⟩]))

theorem filterMap_creditBack (p : Packet) (origin : Option (PortId × Bool)) (g n : Nat) :
    ((upFrom g n).map fun i => ((⟨p, i⟩ : Block), origin)).filterMap creditBack = packetCredits p origin n := by
  induction n generalizing g with
  | zero => cases origin <;> rfl
  | succ n ih =>
    cases origin with
    | none => exact ih (g + 1)
    | some origin => exact congrArg (_ :: ·) (ih (g + 1))

theorem sendFrame_of_none {port : PortId} {s : State} (h : nextQueue (getPort s port.val) = none) :
    sendFrame port s = s := by
  unfold sendFrame
  simp only [fillFrame_of_none h, ite_self]

theorem pump_of_none {port : PortId} {s : State} (h : nextQueue (getPort s port.val) = none) (n : Nat) :
    pump port n s = s := by
  induction n with
  | zero => rfl
  | succ n ih => rw [pump, sendFrame_of_none h, ih]

/-- A port with a fibre in use holds the longest packet in one port frame (R268). -/
theorem le_frameBlocks {n fibres : Nat} (hn : n ≤ 64) (hf : 1 ≤ fibres) : n ≤ frameBlocks (8 * fibres) := by
  unfold frameBlocks
  omega

theorem sendFrame_of_some {port : PortId} {s : State} {q r : Port} {bs : List (Block × Option (PortId × Bool))}
    (hq : getPort s port.val = q) (hup : q.phase = .up) (hwin : q.window.length < 41)
    (hfill : fillFrame (frameBlocks (8 * inUse q.txFibres)) q = (r, bs)) (hbs : bs ≠ []) :
    sendFrame port s =
      returnCredits bs (emit (.frames port [⟨q.txNext, bs.map Prod.fst⟩])
        (setPort port.val (fun _ => { r with
          window := r.window ++ [⟨q.txNext, bs.map Prod.fst⟩]
          txNext := r.txNext + 1 }) s)) := by
  obtain ⟨b, bs, rfl⟩ := List.exists_cons_of_ne_nil hbs
  unfold sendFrame
  simp only [hq, if_pos (And.intro hup hwin), hfill]

/-! ## A packet joins a port at which nothing waits -/

theorem setPort_eq_const (p : Nat) (f : Port → Port) (s : State) :
    setPort p f s = setPort p (fun _ => f (getPort s p)) s := by
  rw [setPort, updNth_eq_const Port.reset]
  rfl

theorem setPort_setPort (p : Nat) (f g : Port → Port) (s : State) :
    setPort p f (setPort p g s) = setPort p (fun q => f (g q)) s := by
  simp only [setPort, updNth_updNth_same]

/-- A port at which one packet waits. -/
def withWaiting (p : Packet) (origin : Option (PortId × Bool)) (q : Port) : Port :=
  { q with queues := onlyQueue (queueNo p.cls p.vc1) [⟨p, 0, origin⟩] }

/-- The one port frame that carries a packet's blocks in order. -/
def packetFrame (fseq : U16) (p : Packet) : Frame := ⟨fseq, (upFrom 0 (blocksOf p.bytes)).map fun i => ⟨p, i⟩⟩

/-- A port behind a packet that has left it. -/
def packetGone (p : Packet) (credit : Nat × Nat × Nat) (share : Nat) (q : Port) : Port :=
  { q with
    credits := updNth (fun _ => credit) q.credits (classIndex p.cls)
    window := q.window ++ [packetFrame q.txNext p]
    txNext := q.txNext + 1
    share := share }

/-- The credit that a port has for a class. -/
def classCredit (s : State) (port : PortId) (cls : TrafficClass) : Nat × Nat × Nat :=
  nthD (0, 0, 0) (getPort s port.val).credits (classIndex cls)

/-- A port can send a packet at once, and has `credit` for its class then (R276). -/
structure HasRoom (s : State) (port : PortId) (p : Packet) (credit : Nat × Nat × Nat) : Prop where
  port_lt : port.val < s.fabric.ports.length
  up : (getPort s port.val).phase = .up
  window_lt : (getPort s port.val).window.length < 41
  empty : (getPort s port.val).queues = List.replicate 8 []
  lit : 1 ≤ inUse (getPort s port.val).txFibres
  takes : takeCredit p.vc1 (blocksOf p.bytes) (classCredit s port p.cls) = some credit

theorem enqueuePacket_of_empty {port : PortId} {s : State} (h : (getPort s port.val).queues = List.replicate 8 [])
    (p : Packet) (origin : Option (PortId × Bool)) :
    enqueuePacket port p origin s =
      sendAll port (setPort port.val (fun _ => withWaiting p origin (getPort s port.val)) s) := by
  rw [enqueuePacket, setPort_eq_const, h, updNth_eq_const [], nthD_replicate_same]
  rfl

/-- Without any credit the packet waits in its class's queue. -/
theorem enqueuePacket_waits {port : PortId} {s : State} {p : Packet} (hport : port.val < s.fabric.ports.length)
    (hempty : (getPort s port.val).queues = List.replicate 8 [])
    (hnone : takeCredit p.vc1 1 (classCredit s port p.cls) = none) (origin : Option (PortId × Bool)) :
    enqueuePacket port p origin s = setPort port.val (fun _ => withWaiting p origin (getPort s port.val)) s := by
  rw [enqueuePacket_of_empty hempty]
  refine pump_of_none ?_ 41
  rw [getPort_setPort_same _ _ _ hport, nextQueue_onlyQueue (q := withWaiting p origin (getPort s port.val)) rfl, if_neg]
  rintro ⟨-, hsome⟩
  rw [show nthD _ (withWaiting p origin (getPort s port.val)).credits _ = classCredit s port p.cls from rfl, hnone] at hsome
  exact absurd hsome (by decide)

/-- Where there is room, the port frame that goes out carries the packet. -/
theorem sendFrame_withWaiting {port : PortId} {s : State} {p : Packet} {credit : Nat × Nat × Nat}
    (h : HasRoom s port p credit) (hone : 1 ≤ blocksOf p.bytes) (hmax : blocksOf p.bytes ≤ 64)
    (origin : Option (PortId × Bool)) :
    ∃ share, sendFrame port (setPort port.val (fun _ => withWaiting p origin (getPort s port.val)) s) =
      emitAll (packetCredits p origin (blocksOf p.bytes))
        (emit (.frames port [packetFrame (getPort s port.val).txNext p])
          (setPort port.val (fun _ => packetGone p credit share (getPort s port.val)) s)) := by
  set q := getPort s port.val
  have hqueues : (withWaiting p origin q).queues = onlyQueue (queueNo p.cls p.vc1) (stillQueued p origin 0) := by
    rw [stillQueued, if_pos (Nat.lt_of_succ_le hone)]
    rfl
  have hfits : blocksOf p.bytes ≤ frameBlocks (8 * inUse (withWaiting p origin q).txFibres) := le_frameBlocks hmax h.lit
  obtain ⟨share, hfill⟩ := fillFrame_onlyQueue hqueues (Nat.zero_add _) hfits h.takes
  have hblocks : (upFrom 0 (blocksOf p.bytes)).map (fun i => ((⟨p, i⟩ : Block), origin)) ≠ [] := by
    rw [upFrom_eq_range']
    simpa using Nat.ne_of_gt hone
  have hport : getPort (setPort port.val (fun _ => withWaiting p origin q) s) port.val = withWaiting p origin q :=
    getPort_setPort_same _ _ _ h.port_lt
  refine ⟨share, ?_⟩
  rw [sendFrame_of_some hport h.up h.window_lt hfill hblocks, returnCredits_eq, filterMap_creditBack, setPort_setPort,
    List.map_map, ← h.empty]
  rfl

/-- Where there is room, the packet leaves at once in one port frame of its own. -/
theorem enqueuePacket_leaves {port : PortId} {s : State} {p : Packet} {credit : Nat × Nat × Nat}
    (h : HasRoom s port p credit) (hone : 1 ≤ blocksOf p.bytes) (hmax : blocksOf p.bytes ≤ 64)
    (origin : Option (PortId × Bool)) :
    ∃ share, enqueuePacket port p origin s =
      emitAll (packetCredits p origin (blocksOf p.bytes))
        (emit (.frames port [packetFrame (getPort s port.val).txNext p])
          (setPort port.val (fun _ => packetGone p credit share (getPort s port.val)) s)) := by
  obtain ⟨share, hsend⟩ := sendFrame_withWaiting h hone hmax origin
  refine ⟨share, ?_⟩
  rw [enqueuePacket_of_empty h.empty, sendAll, pump, hsend]
  refine pump_of_none (nextQueue_of_empty ?_) 40
  exact (congrArg Port.queues (getPort_setPort_same port.val _ s h.port_lt)).trans h.empty

/-- What a packet's leaving does: its blocks go out in order in one port frame under one fseq, against one credit each, and
`back` goes out behind it. -/
def PacketLeaves (s : State) (port : PortId) (p : Packet) (credit : Nat × Nat × Nat) (back : List Out) (t : State) : Prop :=
  t = { s with fabric := { s.fabric with ports := t.fabric.ports },
               sent := s.sent ++ .frames port [packetFrame (getPort s port.val).txNext p] :: back } ∧
  (∀ k, k ≠ port.val → getPort t k = getPort s k) ∧
  getPort t port.val = packetGone p credit (getPort t port.val).share (getPort s port.val) ∧
  credit.1 + credit.2.1 + credit.2.2 + blocksOf p.bytes =
    (classCredit s port p.cls).1 + (classCredit s port p.cls).2.1 + (classCredit s port p.cls).2.2

theorem enqueuePacket_packetLeaves {port : PortId} {s : State} {p : Packet} {credit : Nat × Nat × Nat}
    (h : HasRoom s port p credit) (hone : 1 ≤ blocksOf p.bytes) (hmax : blocksOf p.bytes ≤ 64)
    (origin : Option (PortId × Bool)) :
    PacketLeaves s port p credit (packetCredits p origin (blocksOf p.bytes)) (enqueuePacket port p origin s) := by
  obtain ⟨share, hsend⟩ := enqueuePacket_leaves h hone hmax origin
  have hport := getPort_setPort_same port.val (fun _ => packetGone p credit share (getPort s port.val)) s h.port_lt
  rw [hsend]
  refine ⟨?frame, fun k hk => ?others, ?port, takeCredit_sum h.takes⟩
  case frame => simp [emitAll, emit, setPort]
  case others => exact getPort_setPort_other port.val k _ s hk
  case port =>
    exact hport.trans (congrArg (packetGone p credit · _) (congrArg Port.share hport).symm)

/-! ## The route (R277, R278) -/

/-- The direction with fewer hops around a ring of length `n`, + when both are equal (R277). -/
def shorterWay (n a b : Nat) : Dir := if (b + n - a) % n ≤ (a + n - b) % n then .plus else .minus

/-- Where no link is down, the source takes the shorter way. -/
theorem chooseDir_of_no_link_down {s : State} (h : ∀ l, linkIsDown s l = false) (d : Fin 3) (c : Coord) (t : Nat) :
    chooseDir s d c t = some (shorterWay (extent s.site d) (Coord.get c d) t) := by
  have hclear (plus : Bool) (n : Nat) : (segment (extent s.site d) d plus n c).any (linkIsDown s) = false :=
    List.any_eq_false.mpr fun l _ => by simp [h l]
  unfold chooseDir shorterWay
  simp only [hclear, Bool.not_false, if_true]
  split
  case isTrue hthere => rw [if_pos (by omega)]
  case isFalse => split <;> rfl

theorem route_of_no_link_down {s : State} (h : ∀ l, linkIsDown s l = false) (dest : Coord) :
    route s dest = some
      (shorterWay (siteExtX s.site) s.coord.x dest.x, shorterWay (siteExtY s.site) s.coord.y dest.y,
        shorterWay (siteExtZ s.site) s.coord.z dest.z) := by
  unfold route
  simp only [chooseDir_of_no_link_down h]
  rfl

/-! ## The commands -/

/-- A halt that this module finds ends with the job halted, its status written and the module in HALTED. -/
theorem stopJob_halts {code : U16} (hcode : isHalt code = true) (op : U32) (loc : U64) {s : State} {j : Job}
    (hj : s.job = some j) (hphase : j.phase ≠ .halted) :
    (stopJob code op loc s).job = some { j with phase := .halted, stop := code } ∧
    (stopJob code op loc s).status.status = code ∧ (stopJob code op loc s).mgt.state = .halted := by
  simp only [stopJob, hj, hcode, if_true, haltJob, if_neg hphase, takeHalt, emit_frame]
  simp

theorem exec_packetInject_refused {s : State} {cls : TrafficClass} {dest : Coord} {body : PacketBody}
    (h : packetOk s dest body.bytes = false) : exec (.packetInject cls dest body) s = .refused (.refusedAtBuild 268) := by
  change execPacketInject cls dest body s = _
  rw [execPacketInject, if_pos (by simp [h])]

theorem exec_packetInject {s : State} {cls : TrafficClass} {dest : Coord} {body : PacketBody}
    (h : packetOk s dest body.bytes = true) :
    exec (.packetInject cls dest body) s =
      .next ((launch cls dest body s).getD (stopJob Code.fabUnreachable noOp (moduleWhere dest) s)) := by
  change execPacketInject cls dest body s = _
  rw [execPacketInject, if_neg (by simp [h])]

theorem launch_of_no_route {s : State} {dest : Coord} (h : route s dest = none) (cls : TrafficClass) (body : PacketBody) :
    launch cls dest body s = none := by
  simp only [launch, h]

/-- A packet as its source injects it. -/
def injected (s : State) (cls : TrafficClass) (dest : Coord) (body : PacketBody) (x y z : Dir) : Packet :=
  ⟨cls, s.coord, dest, x, y, z, false, body.use, body.bytes⟩

theorem exec_packetInject_enqueues {s : State} {cls : TrafficClass} {dest : Coord} {body : PacketBody} {x y z : Dir}
    {port : PortId} (h : packetOk s dest body.bytes = true) (hroute : route s dest = some (x, y, z))
    (hport : nextPort s.coord (injected s cls dest body x y z) = some port) :
    exec (.packetInject cls dest body) s =
      .next (enqueuePacket port (injected s cls dest body x y z) none s) := by
  rw [injected] at hport
  rw [exec_packetInject h]
  simp only [launch, hroute, hport, Option.getD_some]
  rfl

theorem blocks_of_packetOk {s : State} {dest : Coord} {bytes : List Byte} (h : packetOk s dest bytes = true) :
    1 ≤ blocksOf bytes ∧ blocksOf bytes ≤ 64 := by
  simp only [packetOk, Bool.and_eq_true, decide_eq_true_eq] at h
  obtain ⟨⟨⟨⟨hone, hmax⟩, -⟩, -⟩, -⟩ := h
  exact ⟨hone, hmax⟩

theorem exec_packetDeliver {s : State} {p : Packet} (h : p.dest = s.coord) (port : PortId) :
    exec (.packetDeliver port p) s = .next (returnCredit port p (deliverEffect p (emit (.deliver p) s))) := by
  change execPacketDeliver port p s = _
  rw [execPacketDeliver, if_pos h]

theorem deliverEffect_plain {p : Packet} (h : p.use = .plain ∨ p.cls ≠ .offload) (s : State) : deliverEffect p s = s := by
  unfold deliverEffect
  split
  next base hcls huse => simp [hcls, huse] at h
  next base len hcls huse => simp [hcls, huse] at h
  next => rfl

theorem deliverEffect_park {p : Packet} {base : Nat} (hcls : p.cls = .offload) (huse : p.use = .park base)
    (hfits : base + p.bytes.length ≤ devTop) (s : State) : deliverEffect p s = devWrite base p.bytes s := by
  simp only [deliverEffect, hcls, huse, if_pos hfits]

/-- A packet on its way as it leaves over a port: on channel 1 behind the dateline of its dimension, on 0 where it turns
(R277). -/
def forwarded (s : State) (inPort out : PortId) (p : Packet) : Packet :=
  { p with vc1 := decide (portDim out = portDim inPort) && (p.vc1 || crossedDateline s inPort) }

theorem exec_packetForward_lost {s : State} {p : Packet} {inPort out : PortId} (hout : nextPort s.coord p = some out)
    (hdown : (getPort s out.val).phase ≠ .up) :
    exec (.packetForward inPort p) s = .next (returnCredit inPort p s) := by
  change execPacketForward inPort p s = _
  simp only [execPacketForward, hout, if_pos hdown]

theorem exec_packetForward_enqueues {s : State} {p : Packet} {inPort out : PortId} (hout : nextPort s.coord p = some out)
    (hup : (getPort s out.val).phase = .up) :
    exec (.packetForward inPort p) s =
      .next (enqueuePacket out (forwarded s inPort out p) (some (inPort, p.vc1)) s) := by
  change execPacketForward inPort p s = _
  simp only [execPacketForward, hout, if_neg (not_not_intro hup)]
  rfl

/-! ## The statement -/

/-- Settles O32: the route is `chooseDir`'s in each dimension; a packet that joins an empty port leaves it in one port frame or
waits there, which an injected and a forwarded packet share; a delivery writes what is parked. -/
theorem packetsTakeTheirRoute : Obligations.PacketsTakeTheirRoute := by
  unfold Obligations.PacketsTakeTheirRoute
  intro s cls dest body inPort p hops dir X Y Z c credits room leaves
  have hroom {port : PortId} {pk : Packet} {credit : Nat × Nat × Nat} : room port pk credit → HasRoom s port pk credit :=
    fun ⟨hlt, hup, hwin, hempty, hlit, htakes⟩ => ⟨hlt, hup, hwin, hempty, hlit, htakes⟩
  have hleaves {port : PortId} {pk : Packet} {credit : Nat × Nat × Nat} {back : List Out} {t : State} :
      PacketLeaves s port pk credit back t → leaves port pk credit back t :=
    fun ⟨hframe, hothers, hport, hsum⟩ => ⟨hframe, hothers, hport, hsum⟩
  refine ⟨exec_packetInject_refused, fun hok => ⟨fun hclear => route_of_no_link_down hclear dest, ?unreachable, ?injects⟩,
    ?delivers, ?parks, ?lost, ?forwards⟩
  case unreachable =>
    intro hnone j hj hphase
    refine ⟨_, exec_packetInject hok, ?_⟩
    rw [launch_of_no_route hnone]
    exact stopJob_halts (by decide) _ _ hj hphase
  case injects =>
    intro x y z port hroute pk hport
    obtain ⟨hone, hmax⟩ := blocks_of_packetOk hok
    have hexec := exec_packetInject_enqueues hok hroute hport
    refine ⟨fun credit hr => ⟨_, hexec, hleaves (enqueuePacket_packetLeaves (hroom hr) hone hmax none)⟩,
      fun hlt hempty hnone => ?_⟩
    rw [enqueuePacket_waits hlt hempty hnone none] at hexec
    exact ⟨_, hexec, rfl, fun k hk => getPort_setPort_other _ _ _ _ hk, getPort_setPort_same _ _ _ hlt⟩
  case delivers =>
    intro hdest hplain
    rw [exec_packetDeliver hdest, deliverEffect_plain hplain]
    simp [returnCredit, sendWord, emit]
  case parks =>
    intro base hdest hcls huse hfits
    refine ⟨_, exec_packetDeliver hdest inPort, ?_⟩
    rw [deliverEffect_park hcls huse hfits]
    refine ⟨?_, devRead_devWrite_same base p.bytes s, fun b n hapart => devRead_devWrite_other base p.bytes s b n hapart⟩
    simp [returnCredit, sendWord, emit, devWrite]
  case lost => exact fun out hout hdown => exec_packetForward_lost hout hdown
  case forwards =>
    intro out credit hout hone hmax pk hr
    have hexec := exec_packetForward_enqueues (inPort := inPort) hout (hroom hr).up
    exact ⟨_, hexec, hleaves (enqueuePacket_packetLeaves (hroom hr) hone hmax (some (inPort, p.vc1)))⟩

end Sys2Proof.Machine
end

section
/-! Ranges of device memory that read the same in two states, words behind a write, and slot records (O57). -/

namespace Sys2Proof.Machine

/-! ## Ranges of device memory -/

/-- The `len` bytes of device memory from `a` read the same in both states. -/
def SameBytes (a len : Nat) (s t : State) : Prop := ∀ b n, a ≤ b → b + n ≤ a + len → devRead t b n = devRead s b n

theorem SameBytes.of_dev {s t : State} (h : t.hbm.dev = s.hbm.dev) (a len : Nat) : SameBytes a len s t :=
  fun b n _ _ => by simp only [devRead, h]

theorem SameBytes.trans {a len : Nat} {s t u : State} (h : SameBytes a len s t) (h' : SameBytes a len t u) :
    SameBytes a len s u :=
  fun b n hlo hhi => (h' b n hlo hhi).trans (h b n hlo hhi)

theorem SameBytes.mono {a len : Nat} {s t : State} (h : SameBytes a len s t) {b n : Nat} (hlo : a ≤ b)
    (hhi : b + n ≤ a + len) : SameBytes b n s t :=
  fun x m hx hm => h x m (by omega) (by omega)

theorem SameBytes.devNat_eq {a len : Nat} {s t : State} (h : SameBytes a len s t) {b n : Nat} (hlo : a ≤ b)
    (hhi : b + n ≤ a + len) : devNat t b n = devNat s b n :=
  congrArg ofLe (h b n hlo hhi)

theorem sameBytes_devWrite {a len w : Nat} {bs : List Byte} (h : a + len ≤ w ∨ w + bs.length ≤ a) (s : State) :
    SameBytes a len s (devWrite w bs s) :=
  fun b n hlo hhi => devRead_devWrite_other w bs s b n (by omega)

theorem sameBytes_devPut {a len w n : Nat} (h : a + len ≤ w ∨ w + n ≤ a) (v : Nat) (s : State) :
    SameBytes a len s (devPut w n v s) :=
  sameBytes_devWrite (by rwa [leBytes_length]) s

/-- The key/value state lies outside device memory. -/
theorem sameBytes_withKv (a len : Nat) (f : Kv → Kv) (s : State) : SameBytes a len s (withKv f s) := .of_dev rfl a len

theorem sameBytes_endPart (a len : Nat) (op : U32) (s : State) : SameBytes a len s (endPart op s) := .of_dev rfl a len

theorem devNat_endPart (op : U32) (s : State) (a n : Nat) : devNat (endPart op s) a n = devNat s a n := rfl

/-- A number stands where a write of it and of bytes around it has put it. -/
theorem devNat_devWrite_field {a b n v : Nat} {bs : List Byte} (before after : List Byte)
    (hbs : bs = before ++ (leBytes n v ++ after)) (hb : b = a + before.length) (s : State) :
    devNat (devWrite a bs s) b n = v % 256 ^ n := by
  have hread := devRead_devWrite_same a bs s
  rw [hbs, List.length_append, List.length_append, leBytes_length, devRead, Mem.read_append, Mem.read_append] at hread
  obtain ⟨-, hread⟩ := List.append_inj hread (by simp)
  obtain ⟨hread, -⟩ := List.append_inj hread (by simp [leBytes_length])
  rw [devNat, hb, hbs, devRead, hread, ofLe_leBytes]

theorem devNat_devPut_same (a n v : Nat) (s : State) : devNat (devPut a n v s) a n = v % 256 ^ n :=
  devNat_devWrite_field [] [] (by simp) rfl s

/-- Each of a row of words stands at its own place. -/
theorem devNat_devWrite_words (a : Nat) (vs : List Nat) {i : Nat} (hi : i < vs.length) (s : State) :
    devNat (devWrite a (vs.map fun v => leBytes 4 v).flatten s) (a + 4 * i) 4 = vs[i] % 2 ^ 32 := by
  refine devNat_devWrite_field ((vs.take i).map fun v => leBytes 4 v).flatten
    ((vs.drop (i + 1)).map fun v => leBytes 4 v).flatten ?_ ?_ s
  · rw [← List.flatten_cons, ← List.map_cons (f := fun v => leBytes 4 v), List.getElem_cons_drop, ← List.flatten_append,
      ← List.map_append, List.take_append_drop]
  · simp [List.length_flatten, Function.comp_def, leBytes_length, Nat.min_eq_left hi.le, Nat.mul_comm]

/-! ## What a slot record holds (R216) -/

section
variable {s t : State} {c : CacheDecl} {slot : Nat}

theorem SameBytes.slotGen (h : SameBytes (slotAddr c slot) 4 s t) : slotGen t c slot = slotGen s c slot :=
  h.devNat_eq (Nat.le_refl _) (Nat.le_refl _)

theorem rowPages_congr {base : Nat} (h : SameBytes base 4096 s t) {n k : Nat} (hn : k + n ≤ 1024) :
    rowPages t base n k = rowPages s base n k := by
  induction n generalizing k with
  | zero => rfl
  | succ n ih =>
    have hentry : devNat t (base + 4 * k) 4 = devNat s (base + 4 * k) 4 := h.devNat_eq (by omega) (by omega)
    simp only [rowPages, hentry, ih (k := k + 1) (by omega)]

/-- A slot whose gen and whose live row are as before has the pages of before. -/
theorem livePages_congr (hgen : SameBytes (slotAddr c slot) 4 s t)
    (hrow : SameBytes (rowAddr c slot (liveRow s c slot)) 4096 s t) : livePages t c slot = livePages s c slot := by
  have hlive : liveRow t c slot = liveRow s c slot := by rw [liveRow, liveRow, hgen.slotGen]
  rw [livePages, livePages, hlive, rowPages_congr hrow (Nat.le_refl _)]

theorem liveRow_le (s : State) (c : CacheDecl) (slot : Nat) : liveRow s c slot ≤ 1 := by
  rw [liveRow]
  omega

/-- Both states have the same record of the slot. -/
def SameSlot (c : CacheDecl) (slot : Nat) (s t : State) : Prop := SameBytes (slotAddr c slot) 8256 s t

variable (h : SameSlot c slot s t)
include h

theorem SameSlot.slotGen : slotGen t c slot = slotGen s c slot := SameBytes.slotGen (h.mono (by omega) (by omega))

theorem SameSlot.slotLen : slotLen t c slot = slotLen s c slot := h.devNat_eq (by omega) (by omega)

theorem SameSlot.slotMax : slotMax t c slot = slotMax s c slot := h.devNat_eq (by omega) (by omega)

theorem SameSlot.slotReserved : slotReserved t c slot = slotReserved s c slot := h.devNat_eq (by omega) (by omega)

theorem SameSlot.slotStatus : slotStatus t c slot = slotStatus s c slot := by
  have hword : devNat t (slotAddr c slot + 16) 2 = devNat s (slotAddr c slot + 16) 2 := h.devNat_eq (by omega) (by omega)
  rw [Machine.slotStatus, Machine.slotStatus, hword]

theorem SameSlot.row {row : Nat} (hrow : row ≤ 1) : SameBytes (rowAddr c slot row) 4096 s t :=
  h.mono (by unfold rowAddr; omega) (by unfold rowAddr; omega)

theorem SameSlot.livePages : livePages t c slot = livePages s c slot :=
  livePages_congr (h.mono (by omega) (by omega)) (h.row (liveRow_le s c slot))

end

theorem sameSlot_withKv (c : CacheDecl) (slot : Nat) (f : Kv → Kv) (s : State) : SameSlot c slot s (withKv f s) :=
  sameBytes_withKv _ _ f s

theorem lt_slots_of_slotStatus {s : State} {c : CacheDecl} {slot : Nat} (h : slotStatus s c slot ≠ 0) : slot < c.slots := by
  by_contra hlt
  exact h (if_neg hlt)

/-- A number of `n` bytes. -/
theorem devNat_lt (s : State) (a n : Nat) : devNat s a n < 256 ^ n := by
  have hlt (bs : List Byte) : ofLe bs < 256 ^ bs.length := by
    induction bs with
    | nil => simp [ofLe]
    | cons b bs ih =>
      have hb : b.toNat < 256 := b.isLt
      rw [ofLe, List.length_cons, pow_succ']
      omega
  simpa [devNat, devRead] using hlt (devRead s a n)

/-! ## The header and the shadow row are written -/

section
variable (c : CacheDecl) (slot len maxLen reserved status shared : Nat) (tail : U64) (pages : List Nat) (s : State)

theorem sameBytes_writeHeader {a n : Nat} (h : a + n ≤ slotAddr c slot + 4 ∨ slotAddr c slot + 64 ≤ a) :
    SameBytes a n s (writeHeader c slot len maxLen reserved status shared tail s) :=
  sameBytes_devWrite (by simpa [leBytes_length] using h) s

theorem slotLen_writeHeader :
    slotLen (writeHeader c slot len maxLen reserved status shared tail s) c slot = len % 2 ^ 32 :=
  devNat_devWrite_field [] (leBytes 4 maxLen ++ leBytes 4 reserved ++ leBytes 2 status ++ leBytes 2 shared ++
    leBytes 8 tail.toNat ++ List.replicate 36 0) (by simp) rfl s

theorem slotMax_writeHeader :
    slotMax (writeHeader c slot len maxLen reserved status shared tail s) c slot = maxLen % 2 ^ 32 :=
  devNat_devWrite_field (leBytes 4 len) (leBytes 4 reserved ++ leBytes 2 status ++ leBytes 2 shared ++
    leBytes 8 tail.toNat ++ List.replicate 36 0) (by simp) rfl s

theorem slotReserved_writeHeader :
    slotReserved (writeHeader c slot len maxLen reserved status shared tail s) c slot = reserved % 2 ^ 32 :=
  devNat_devWrite_field (leBytes 4 len ++ leBytes 4 maxLen) (leBytes 2 status ++ leBytes 2 shared ++
    leBytes 8 tail.toNat ++ List.replicate 36 0) (by simp) rfl s

theorem slotStatus_writeHeader (hslot : slot < c.slots) :
    slotStatus (writeHeader c slot len maxLen reserved status shared tail s) c slot = status % 2 ^ 16 :=
  (if_pos hslot).trans <| devNat_devWrite_field (leBytes 4 len ++ leBytes 4 maxLen ++ leBytes 4 reserved)
    (leBytes 2 shared ++ leBytes 8 tail.toNat ++ List.replicate 36 0) (by simp) rfl s

/-- The shadow row as words. -/
def shadowRow (pages : List Nat) : List Nat := pages ++ List.replicate (1024 - pages.length) noPage

theorem shadowRow_bytes_length {pages : List Nat} (h : pages.length ≤ 1024) :
    ((shadowRow pages).map fun p => leBytes 4 p).flatten.length = 4096 := by
  simp [shadowRow, List.length_flatten, Function.comp_def, leBytes_length]
  omega

/-- Writing the shadow row leaves the header alone. -/
theorem sameBytes_writeShadow_header {a n : Nat} (h : a + n ≤ slotAddr c slot + 64) :
    SameBytes a n s (writeShadow c slot pages s) :=
  sameBytes_devWrite (.inl (by unfold rowAddr; omega)) s

/-- Writing the shadow row leaves the live row alone. -/
theorem sameBytes_writeShadow_live {pages : List Nat} (h : pages.length ≤ 1024) :
    SameBytes (rowAddr c slot (liveRow s c slot)) 4096 s (writeShadow c slot pages s) := by
  have hlen := shadowRow_bytes_length h
  have hle := liveRow_le s c slot
  refine sameBytes_devWrite ?_ s
  rw [← shadowRow, hlen]
  unfold rowAddr
  omega

theorem devNat_writeShadow {pages : List Nat} (h : pages.length ≤ 1024) {i : Nat} (hi : i < 1024) :
    devNat (writeShadow c slot pages s) (rowAddr c slot (1 - liveRow s c slot) + 4 * i) 4 =
      (pages[i]?.getD noPage) % 2 ^ 32 := by
  have hlen : i < (shadowRow pages).length := by simp [shadowRow]; omega
  have hentry : (shadowRow pages)[i] = pages[i]?.getD noPage := by
    simp only [shadowRow, List.getElem_append]
    split
    case isTrue hin => simp [hin]
    case isFalse hout => simp [Nat.le_of_not_lt hout]
  rw [← hentry]
  exact devNat_devWrite_words _ _ hlen s

/-- An edit of a slot writes the shadow row and then the header. -/
def editSlot : State :=
  writeHeader c slot len maxLen reserved status shared tail (writeShadow c slot pages s)

theorem slotGen_editSlot : slotGen (editSlot c slot len maxLen reserved status shared tail pages s) c slot = slotGen s c slot :=
  SameBytes.slotGen <| (sameBytes_writeShadow_header c slot pages s (by omega)).trans
    (sameBytes_writeHeader c slot len maxLen reserved status shared tail _ (by omega))

theorem livePages_editSlot {pages : List Nat} (h : pages.length ≤ 1024) :
    livePages (editSlot c slot len maxLen reserved status shared tail pages s) c slot = livePages s c slot :=
  livePages_congr
    ((sameBytes_writeShadow_header c slot pages s (by omega)).trans
      (sameBytes_writeHeader c slot len maxLen reserved status shared tail _ (by omega)))
    ((sameBytes_writeShadow_live c slot s h).trans
      (sameBytes_writeHeader c slot len maxLen reserved status shared tail _ (by unfold rowAddr; omega)))

theorem devNat_editSlot {pages : List Nat} (h : pages.length ≤ 1024) {i : Nat} (hi : i < 1024) :
    devNat (editSlot c slot len maxLen reserved status shared tail pages s)
      (rowAddr c slot (1 - liveRow s c slot) + 4 * i) 4 = (pages[i]?.getD noPage) % 2 ^ 32 := by
  have hrow : slotAddr c slot + 64 ≤ rowAddr c slot (1 - liveRow s c slot) + 4 * i := by unfold rowAddr; omega
  rw [← devNat_writeShadow c slot s h hi]
  exact (sameBytes_writeHeader c slot len maxLen reserved status shared tail _ (.inr hrow)).devNat_eq (Nat.le_refl _)
    (Nat.le_refl _)

end

end Sys2Proof.Machine
end

section
/-! The cache operations' turn and table, reference counts, admission, append and release (O57). -/

namespace Sys2Proof.Machine

/-! ## The turn and the table of a cache operation (R218, R219) -/

/-- A command is the cache operation `op` that handles each of its records by `one`. -/
def IsCacheOp {α : Type} (op : U32) (again : List α → Instr) (one : CacheDecl → α → State → Option State) : Prop :=
  ∀ table s, exec (again table) s = cacheOp op again one table s

theorem isCacheOp_admission (op : U32) : IsCacheOp op (fun l => .admission op (.built l)) (admitOne op) := fun _ _ => rfl

theorem isCacheOp_append (op : U32) : IsCacheOp op (fun l => .append ⟨op, l⟩) (appendOne op) := fun _ _ => rfl

theorem isCacheOp_release (op : U32) : IsCacheOp op (fun l => .release op l) (releaseOne op) := fun _ _ => rfl

theorem exec_admission_host {s : State} {j : Job} (hj : s.job = some j) (op : U32) (k : Nat) :
    exec (.admission op (.host k)) s = exec (.admission op (.built (nthD [] j.taken k))) s := by
  change execAdmission op (.host k) s = execAdmission op (.built _) s
  simp only [execAdmission, admitRecords, hj]

section
variable {α : Type} {op : U32} {again : List α → Instr} {one : CacheDecl → α → State → Option State}
  (hop : IsCacheOp op again one) {s u : State} {c : CacheDecl} (ha : acts s op = true) (hc : cacheOf s = some c)
include hop ha hc

theorem exec_cacheOp_refused {e : Nat} (hf : cacheFault s c = some e) (table : List α) :
    exec (again table) s = .refused (.refusedAtBuild e) := by
  simp only [hop table s, cacheOp, ha, hc, hf]

variable (hf : cacheFault s c = none)
include hf

theorem cacheOp_waits_for_turn (ht : cacheTurn s op = false) (table : List α) : Waits (again table) s := by
  simp [Waits, hop table s, cacheOp, ha, hc, hf, ht]

variable (ht : cacheTurn s op = true)
include ht

theorem exec_cacheOp_turn (table : List α) : exec (again table) s = .next (runTable op again (one c) table s) := by
  simp only [hop table s, cacheOp, ha, hc, hf, ht, if_true]

/-- The first record of a table that can be handled is, and the operation goes on with the others. -/
theorem exec_cacheOp_handles {r : α} (h : one c r s = some u) (rs : List α) :
    exec (again (r :: rs)) s = .next (runTable op again (one c) rs u) := by
  rw [exec_cacheOp_turn hop ha hc hf ht, runTable, h]

theorem cacheOp_waits_for_record {r : α} (h : one c r s = none) (rs : List α) : Waits (again (r :: rs)) s := by
  rw [Waits, exec_cacheOp_turn hop ha hc hf ht, runTable, h]

/-- An operation of one record ends with it. -/
theorem cacheOp_answers {r : α} (h : one c r s = some u) {P : State → Prop} (hP : P (endPart op u)) :
    Answers (again [r]) s P :=
  ⟨_, exec_cacheOp_handles hop ha hc hf ht h [], hP⟩

end

/-- Of the state only device memory, the key/value state and the count of ended commands may have changed. -/
def StoresOnly (s t : State) : Prop :=
  t = { s with hbm := { s.hbm with dev := t.hbm.dev, poison := t.hbm.poison }, kv := t.kv, ended := t.ended }

theorem StoresOnly.refl (s : State) : StoresOnly s s := rfl

theorem storesOnly_devWrite (a : Nat) (bs : List Byte) (s : State) : StoresOnly s (devWrite a bs s) := rfl

theorem storesOnly_withKv (f : Kv → Kv) (s : State) : StoresOnly s (withKv f s) := rfl

theorem storesOnly_endPart (op : U32) (s : State) : StoresOnly s (endPart op s) := rfl

theorem StoresOnly.trans {s t u : State} (h : StoresOnly s t) (h' : StoresOnly t u) : StoresOnly s u := by
  rw [StoresOnly] at h h' ⊢
  rw [h', h]

theorem storesOnly_editSlot (c : CacheDecl) (slot len maxLen reserved status shared : Nat) (tail : U64) (pages : List Nat)
    (s : State) : StoresOnly s (editSlot c slot len maxLen reserved status shared tail pages s) :=
  (storesOnly_devWrite _ _ _).trans (storesOnly_devWrite _ _ _)

/-! ## Reference counts (R218, R225) -/

/-- Each page of a list takes one more reference, and nothing else of the key/value state changes. -/
theorem foldl_addRef (pages : List Nat) (k : Kv) (hwf : SMap.wf 0 k.refs = true) :
    let t := pages.foldl (fun k p => addRef p k) k
    t = { k with refs := t.refs } ∧ ∀ p, SMap.get 0 t.refs p = SMap.get 0 k.refs p + pages.count p := by
  induction pages generalizing k with
  | nil => exact ⟨rfl, fun _ => rfl⟩
  | cons q pages ih =>
    obtain ⟨hframe, hrefs⟩ := ih (addRef q k) (SMap.wf_set 0 k.refs q (SMap.get 0 k.refs q + 1) hwf)
    refine ⟨hframe, fun p => (hrefs p).trans ?_⟩
    by_cases hp : p = q
    · subst hp
      rw [addRef, SMap.get_set_same 0 k.refs p _ hwf, List.count_cons_self]
      omega
    · rw [addRef, SMap.get_set_other 0 k.refs q p _ hp hwf, List.count_cons_of_ne (Ne.symm hp)]

/-- The key/value state once each page of a list has lost one reference. -/
structure RefsDropped (pages : List Nat) (k t : Kv) : Prop where
  frame : t = { k with refs := t.refs, index := t.index, freeQ := t.freeQ }
  refs : ∀ p, SMap.get 0 t.refs p = if p ∈ pages then SMap.get 0 k.refs p - 1 else SMap.get 0 k.refs p
  freeQ : t.freeQ = k.freeQ ++ pages.filter fun p => decide (SMap.get 0 k.refs p ≤ 1)
  index : ∀ e, e ∈ t.index ↔ e ∈ k.index ∧ ¬ (e.2 ∈ pages ∧ SMap.get 0 k.refs e.2 ≤ 1)

theorem dropRefPage_refs (p : Nat) (k : Kv) :
    (dropRefPage p k).refs = SMap.set 0 k.refs p (SMap.get 0 k.refs p - 1) := by
  unfold dropRefPage
  dsimp only
  split <;> rfl

theorem refsDropped_one (p : Nat) (k : Kv) (hwf : SMap.wf 0 k.refs = true) : RefsDropped [p] k (dropRefPage p k) where
  frame := by
    unfold dropRefPage
    dsimp only
    split <;> rfl
  refs q := by
    rw [dropRefPage_refs]
    by_cases hq : q = p
    · rw [hq, SMap.get_set_same 0 k.refs p _ hwf, if_pos (List.mem_singleton_self p)]
    · rw [SMap.get_set_other 0 k.refs p q _ hq hwf, if_neg (by simpa using hq)]
  freeQ := by
    by_cases hlast : SMap.get 0 k.refs p ≤ 1
    · simp [dropRefPage, Nat.sub_eq_zero_of_le hlast, hlast]
    · simp [dropRefPage, Nat.sub_ne_zero_of_lt (Nat.lt_of_not_le hlast), hlast]
  index e := by
    by_cases hlast : SMap.get 0 k.refs p ≤ 1
    · simp only [dropRefPage, Nat.sub_eq_zero_of_le hlast, if_true, List.mem_filter, decide_eq_true_eq,
        List.mem_singleton]
      refine and_congr_right fun _ => not_congr ⟨fun he => ⟨he, he ▸ hlast⟩, And.left⟩
    · simp only [dropRefPage, Nat.sub_ne_zero_of_lt (Nat.lt_of_not_le hlast), if_false, List.mem_singleton]
      refine ⟨fun he => ⟨he, ?_⟩, And.left⟩
      rintro ⟨rfl, hle⟩
      exact hlast hle

/-- Pages that are dropped one list after another, where none is in both, are dropped. -/
theorem RefsDropped.append {ps qs : List Nat} {k t u : Kv} (h : RefsDropped ps k t) (h' : RefsDropped qs t u)
    (hdisjoint : ∀ p ∈ qs, p ∉ ps) : RefsDropped (ps ++ qs) k u := by
  have hsame : ∀ p ∈ qs, SMap.get 0 t.refs p = SMap.get 0 k.refs p := fun p hp => by
    rw [h.refs, if_neg (hdisjoint p hp)]
  constructor
  case frame =>
    rw [h'.frame, h.frame]
  case refs =>
    intro p
    rw [h'.refs p]
    by_cases hq : p ∈ qs
    · rw [if_pos hq, if_pos (List.mem_append_right ps hq), hsame p hq]
    · rw [if_neg hq, h.refs p]
      simp only [List.mem_append, hq, or_false]
  case freeQ =>
    rw [h'.freeQ, h.freeQ, List.filter_append, List.append_assoc]
    congr 2
    exact List.filter_congr fun p hp => by rw [hsame p hp]
  case index =>
    intro e
    rw [h'.index e, h.index e, List.mem_append, and_assoc]
    refine and_congr_right fun _ => ?_
    by_cases hq : e.2 ∈ qs
    · simp only [hsame e.2 hq, hq, hdisjoint e.2 hq, false_and, not_false_eq_true, true_and, or_true]
    · simp only [hq, false_and, not_false_eq_true, and_true, or_false]

theorem refsDropped_foldl (pages : List Nat) (hnodup : pages.Nodup) (k : Kv) (hwf : SMap.wf 0 k.refs = true) :
    RefsDropped pages k (pages.foldl (fun k p => dropRefPage p k) k) := by
  induction pages generalizing k with
  | nil => exact ⟨rfl, fun _ => rfl, by simp, by simp⟩
  | cons p pages ih =>
    obtain ⟨hp, hnodup⟩ := List.nodup_cons.mp hnodup
    have hwf' : SMap.wf 0 (dropRefPage p k).refs = true := by
      rw [dropRefPage_refs]
      exact SMap.wf_set 0 k.refs p _ hwf
    refine (refsDropped_one p k hwf).append (ih hnodup _ hwf') fun q hq => ?_
    rw [List.mem_singleton]
    rintro rfl
    exact hp hq

/-! ## Admission (R219 to R221) -/

theorem length_sharedBlocks_le (s : State) (c : CacheDecl) (tok n : Nat) (parent : U64) :
    (sharedBlocks s c tok n parent).length ≤ n := by
  induction n generalizing tok parent with
  | zero => exact Nat.le_refl 0
  | succ n ih =>
    simp only [sharedBlocks]
    split
    · exact Nat.zero_le _
    · exact Nat.succ_le_succ (ih _ _)

/-- An admission passes the checks of R220 only for a FREE slot that is declared and a prompt within the limits. -/
theorem bounds_of_admitStatus {s : State} {c : CacheDecl} {r : Admit} (h : admitStatus s c r = 0) :
    r.slot < c.slots ∧ slotStatus s c r.slot = 0 ∧ r.prompt ≤ r.maxLen ∧ r.maxLen ≤ 262144 := by
  unfold admitStatus at h
  split at h
  · exact absurd h (by decide)
  next hslot =>
    split at h
    · exact absurd h (by decide)
    next hlen => exact ⟨by omega, by omega, by omega, by omega⟩

/-- The live row has room for the shared pages of an admission that passes. -/
theorem length_admitShared_lt {s : State} {c : CacheDecl} {r : Admit} (h : admitStatus s c r = 0) :
    (admitShared s c r).length < 1024 := by
  obtain ⟨-, -, hprompt, hmax⟩ := bounds_of_admitStatus h
  have hle := length_sharedBlocks_le s c r.tok ((r.prompt - 1) / 256) c.ns
  rw [admitShared]
  omega

section
variable {op : U32} {c : CacheDecl} {a : Nat} {s : State}

theorem admitOne_fails (h : admitStatus s c (readAdmit s a) ≠ 0) :
    admitOne op c a s = some (kvStatus (admitStatus s c (readAdmit s a))
      (devPut (a + 6) 2 (admitStatus s c (readAdmit s a)).toNat s)) := by
  simp only [admitOne, h, false_and, if_false]

theorem admitOne_waits (h : admitStatus s c (readAdmit s a) = 0) (he : editPending s (readAdmit s a).slot = true) :
    admitOne op c a s = none := by
  simp [admitOne, h, he]

/-- The state behind an admission record that passes. -/
def admitted (op : U32) (c : CacheDecl) (a : Nat) (s : State) : State :=
  kvStatus 0 (devPut (a + 6) 2 0 (admitEffect op a c (readAdmit s a) s))

theorem admitOne_passes (h : admitStatus s c (readAdmit s a) = 0) (he : editPending s (readAdmit s a).slot = false) :
    admitOne op c a s = some (admitted op c a s) := by
  simp [admitOne, h, he, admitted]

/-- What an admission does to the key/value state. -/
theorem admitted_kv (hwf : SMap.wf 0 s.kv.refs = true) :
    let sh := admitShared s c (readAdmit s a)
    (admitted op c a s).kv.edits = s.kv.edits ++ [((readAdmit s a).slot, op)] ∧
    (admitted op c a s).kv.freeQ = s.kv.freeQ ∧ (admitted op c a s).kv.result = 0 ∧
    ∀ p, SMap.get 0 (admitted op c a s).kv.refs p = SMap.get 0 s.kv.refs p + (sh.map Prod.fst).count p := by
  intro sh
  obtain ⟨hframe, hrefs⟩ := foldl_addRef (sh.map Prod.fst) s.kv hwf
  have hedits := congrArg Kv.edits hframe
  have hfree := congrArg Kv.freeQ hframe
  refine ⟨?_, hfree, rfl, hrefs⟩
  exact congrArg (· ++ [((readAdmit s a).slot, op)]) hedits

/-- The slot record that an admission writes, before its answer is written into the admission record. -/
def admittedSlot (op : U32) (c : CacheDecl) (r : Admit) (s : State) : State :=
  let sh := admitShared s c r
  let pages := sh.map Prod.fst
  editSlot c r.slot (256 * sh.length) r.maxLen (admitNeed r sh) 1 sh.length ((sh.getLast?.map fun e => e.2).getD c.ns) pages
    (withKv (fun k => noteEdit r.slot op (slotStatus s c r.slot) (pages.foldl (fun k p => addRef p k) k)) s)

theorem admitted_eq : admitted op c a s = kvStatus 0 (devPut (a + 6) 2 0
    (devPut (a + 8) 4 (256 * (admitShared s c (readAdmit s a)).length) (admittedSlot op c (readAdmit s a) s))) := rfl

theorem storesOnly_admitted : StoresOnly s (admitted op c a s) := by
  rw [admitted_eq]
  exact (storesOnly_withKv _ _).trans <| (storesOnly_editSlot ..).trans <| (storesOnly_devWrite _ _ _).trans <|
    (storesOnly_devWrite _ _ _).trans (storesOnly_withKv _ _)

/-- The answer of an admission lies apart from the slot record. -/
theorem sameSlot_admitted (h : a + 32 ≤ slotAddr c (readAdmit s a).slot ∨ slotAddr c (readAdmit s a).slot + 8256 ≤ a) :
    SameSlot c (readAdmit s a).slot (admittedSlot op c (readAdmit s a) s) (admitted op c a s) := by
  rw [admitted_eq]
  exact (sameBytes_devPut (by omega) _ _).trans ((sameBytes_devPut (by omega) _ _).trans (sameBytes_withKv _ _ _ _))

theorem admitted_answer (h : admitStatus s c (readAdmit s a) = 0) :
    devNat (admitted op c a s) (a + 8) 4 = 256 * (admitShared s c (readAdmit s a)).length ∧
    devNat (admitted op c a s) (a + 6) 2 = 0 := by
  have hlen := length_admitShared_lt h
  rw [admitted_eq, kvStatus, (sameBytes_withKv (a + 8) 4 _ _).devNat_eq (Nat.le_refl _) (Nat.le_refl _),
    (sameBytes_withKv (a + 6) 2 _ _).devNat_eq (Nat.le_refl _) (Nat.le_refl _), devNat_devPut_same,
    (sameBytes_devPut (.inr (by omega)) 0 _).devNat_eq (Nat.le_refl _) (Nat.le_refl _), devNat_devPut_same]
  exact ⟨Nat.mod_eq_of_lt (by omega), Nat.zero_mod _⟩

end

section
variable (op : U32) {c : CacheDecl} {r : Admit} {s : State} (h : admitStatus s c r = 0)
include h

/-- The header that an admission fills. -/
theorem admittedSlot_header :
    slotStatus (admittedSlot op c r s) c r.slot = 1 ∧
    slotLen (admittedSlot op c r s) c r.slot = 256 * (admitShared s c r).length ∧
    slotMax (admittedSlot op c r s) c r.slot = r.maxLen ∧
    slotReserved (admittedSlot op c r s) c r.slot = admitNeed r (admitShared s c r) ∧
    slotGen (admittedSlot op c r s) c r.slot = slotGen s c r.slot := by
  obtain ⟨hslot, -, -, hmax⟩ := bounds_of_admitStatus h
  have hlen := length_admitShared_lt h
  have hneed : admitNeed r (admitShared s c r) < 2 ^ 32 := by unfold admitNeed ceilDiv; omega
  refine ⟨slotStatus_writeHeader _ _ _ _ _ _ _ _ _ hslot, ?_, ?_, ?_, slotGen_editSlot ..⟩
  · exact (slotLen_writeHeader ..).trans (Nat.mod_eq_of_lt (by omega))
  · exact (slotMax_writeHeader ..).trans (Nat.mod_eq_of_lt (by omega))
  · exact (slotReserved_writeHeader ..).trans (Nat.mod_eq_of_lt hneed)

theorem admittedSlot_rows :
    livePages (admittedSlot op c r s) c r.slot = livePages s c r.slot ∧
    ∀ i, i < 1024 → devNat (admittedSlot op c r s) (rowAddr c r.slot (1 - liveRow s c r.slot) + 4 * i) 4 =
      match (admitShared s c r)[i]? with
      | some e => e.1 % 2 ^ 32
      | none => 0xFFFFFFFF := by
  have hlen : ((admitShared s c r).map Prod.fst).length ≤ 1024 := by
    rw [List.length_map]
    exact (length_admitShared_lt h).le
  refine ⟨(livePages_editSlot _ _ _ _ _ _ _ _ _ hlen).trans (sameSlot_withKv c r.slot _ s).livePages, fun i hi => ?_⟩
  refine (devNat_editSlot _ _ _ _ _ _ _ _ _ hlen hi).trans ?_
  rw [List.getElem?_map]
  cases (admitShared s c r)[i]? <;> rfl

end

/-! ## Append (R222, R223) -/

section
variable {op : U32} {c : CacheDecl} {a : AppendRecord} {s : State}

theorem appendOne_free (h : slotStatus s c a.slot = 0) : appendOne op c a s = some (kvStatus 5 s) := if_pos h

theorem appendOne_limit (h : slotStatus s c a.slot = 2) : appendOne op c a s = some (kvStatus 4 s) := by
  simp [appendOne, h]

variable (hfree : slotStatus s c a.slot ≠ 0) (hlimit : slotStatus s c a.slot ≠ 2)
include hfree hlimit

theorem appendOne_waits (h : editPending s a.slot = true ∨
    (s.kv.freeQ.take (appendPages (slotLen s c a.slot) (appendCount s c a))).any (pagePending s.kv) = true) :
    appendOne op c a s = none := by
  by_cases hedit : editPending s a.slot = true
  · simp only [appendOne, hfree, hlimit, hedit, if_false, if_true]
  · simp only [appendOne, hfree, hlimit, hedit, h.resolve_left hedit, if_false, if_true, Bool.false_eq_true]

theorem appendOne_appends (hedit : editPending s a.slot = false)
    (hpage : (s.kv.freeQ.take (appendPages (slotLen s c a.slot) (appendCount s c a))).any (pagePending s.kv) = false) :
    appendOne op c a s = some (appendEffect op c a s) := by
  simp only [appendOne, hfree, hlimit, hedit, hpage, if_false, Bool.false_eq_true]

end

/-- Between two states of an append, `n` pages have left the head of the free queue; slots have no new edit. -/
structure TakesPages (n : Nat) (r : AppendRun) (s : State) (r' : AppendRun) (t : State) : Prop where
  taken : r'.taken = r.taken + n
  stores : StoresOnly s t
  edits : t.kv.edits = s.kv.edits
  freeQ : t.kv.freeQ = s.kv.freeQ.drop n

theorem TakesPages.trans {m n : Nat} {r r' r'' : AppendRun} {s t u : State} (h : TakesPages m r s r' t)
    (h' : TakesPages n r' t r'' u) : TakesPages (m + n) r s r'' u where
  taken := by rw [h'.taken, h.taken, Nat.add_assoc]
  stores := h.stores.trans h'.stores
  edits := h'.edits.trans h.edits
  freeQ := by rw [h'.freeQ, h.freeQ, List.drop_drop]

/-- One position's K and V with their tile exponents, layer by layer. -/
abbrev PositionKv := List (List Byte × List Byte × List Byte × List Byte)

theorem writePosition_keeps (c : CacheDecl) (page off layer : Nat) (kv : PositionKv) (s : State) :
    StoresOnly s (writePosition c page off layer kv s) ∧ (writePosition c page off layer kv s).kv = s.kv := by
  induction kv generalizing layer s with
  | nil => exact ⟨StoresOnly.refl s, rfl⟩
  | cons x rest ih =>
    obtain ⟨k, v, ke, ve⟩ := x
    obtain ⟨hstores, hkv⟩ := ih (layer + 1) _
    refine ⟨StoresOnly.trans ?_ hstores, hkv⟩
    exact (storesOnly_devWrite _ _ _).trans <| (storesOnly_devWrite _ _ _).trans <|
      (storesOnly_devWrite _ _ _).trans (storesOnly_devWrite _ _ _)

theorem publishPage_keeps (c : CacheDecl) (page : Nat) (h : U64) (s : State) :
    StoresOnly s (publishPage c page h s) ∧ (publishPage c page h s).kv.edits = s.kv.edits ∧
    (publishPage c page h s).kv.freeQ = s.kv.freeQ := by
  unfold publishPage
  split
  · exact ⟨storesOnly_withKv _ _, rfl, rfl⟩
  · exact ⟨StoresOnly.refl s, rfl, rfl⟩

/-- A state of an append goes on to one in which no further page has been taken. -/
theorem TakesPages.keeps {n : Nat} {r r' r'' : AppendRun} {s t u : State} (h : TakesPages n r s r' t)
    (htaken : r''.taken = r'.taken) (hstores : StoresOnly t u) (hedits : u.kv.edits = t.kv.edits)
    (hfree : u.kv.freeQ = t.kv.freeQ) : TakesPages n r s r'' u where
  taken := htaken.trans h.taken
  stores := h.stores.trans hstores
  edits := hedits.trans h.edits
  freeQ := hfree.trans h.freeQ

/-- Whether a position begins a page, as the number of pages that it takes. -/
def pagesBegun (pos : Nat) : Nat := if pos % 256 = 0 then 1 else 0

/-- The append once a position has its page: a new one where it begins one. -/
def beginRun (pos : Nat) (r : AppendRun) (s : State) : AppendRun :=
  if pos % 256 == 0 then { r with pages := r.pages ++ [s.kv.freeQ.headD 0], taken := r.taken + 1 } else r

/-- The state once a position has its page. -/
def beginState (pos : Nat) (s : State) : State :=
  if pos % 256 == 0 then withKv (fun k => addRef (s.kv.freeQ.headD 0) { k with freeQ := k.freeQ.drop 1 }) s else s

/-- The page that a position is written into. -/
def positionPage (pos : Nat) (r : AppendRun) (s : State) : Nat := (beginRun pos r s).pages.getLastD 0

/-- The state once a position is written. -/
def positionState (c : CacheDecl) (pos : Nat) (tok : U32) (kv : PositionKv) (r : AppendRun) (s : State) : State :=
  devPut (tokAddr c (positionPage pos r s) + 4 * (pos % 256)) 4 tok.toNat
    (writePosition c (positionPage pos r s) (pos % 256) 0 kv (beginState pos s))

section
variable (c : CacheDecl) (pos : Nat) (tok : U32) (kv : PositionKv) (r : AppendRun) (s : State)

theorem appendPositions_cons_eq (rest : List (U32 × PositionKv)) :
    appendPositions c pos ((tok, kv) :: rest) r s =
      let page := positionPage pos r s
      let t := positionState c pos tok kv r s
      let h := blockHash (beginRun pos r s).tail (readToks t (tokAddr c page) 256)
      if pos % 256 = 255 then
        appendPositions c (pos + 1) rest { beginRun pos r s with tail := h } (publishPage c page h t)
      else appendPositions c (pos + 1) rest (beginRun pos r s) t := rfl

/-- A position that begins a page takes it from the head of the free queue. -/
theorem takesPages_begin : TakesPages (pagesBegun pos) r s (beginRun pos r s) (beginState pos s) := by
  by_cases h : pos % 256 = 0
  · simp only [pagesBegun, beginRun, beginState, h, beq_self_eq_true, if_true]
    exact ⟨rfl, storesOnly_withKv _ _, rfl, rfl⟩
  · simp only [pagesBegun, beginRun, beginState, h, beq_eq_false_iff_ne.mpr h, Bool.false_eq_true, if_false]
    exact ⟨rfl, StoresOnly.refl s, rfl, rfl⟩

theorem takesPages_position :
    TakesPages (pagesBegun pos) r s (beginRun pos r s) (positionState c pos tok kv r s) := by
  obtain ⟨hstores, hkv⟩ := writePosition_keeps c (positionPage pos r s) (pos % 256) 0 kv (beginState pos s)
  exact (takesPages_begin pos r s).keeps rfl (hstores.trans (storesOnly_devWrite _ _ _)) (congrArg Kv.edits hkv)
    (congrArg Kv.freeQ hkv)

/-- One position takes the head of the free queue where it begins a page, and the append goes on with the others. -/
theorem appendPositions_cons (rest : List (U32 × PositionKv)) :
    ∃ r' t, TakesPages (pagesBegun pos) r s r' t ∧
      appendPositions c pos ((tok, kv) :: rest) r s = appendPositions c (pos + 1) rest r' t := by
  have hposition := takesPages_position c pos tok kv r s
  rw [appendPositions_cons_eq]
  by_cases hlast : pos % 256 = 255
  · obtain ⟨hstores, hedits, hfree⟩ := publishPage_keeps c (positionPage pos r s)
      (blockHash (beginRun pos r s).tail
        (readToks (positionState c pos tok kv r s) (tokAddr c (positionPage pos r s)) 256))
      (positionState c pos tok kv r s)
    refine ⟨_, _, ?_, if_pos hlast⟩
    exact hposition.keeps rfl hstores hedits hfree
  · exact ⟨_, _, hposition, if_neg hlast⟩

end

theorem appendPages_succ (pos n : Nat) : appendPages pos (n + 1) = pagesBegun pos + appendPages (pos + 1) n := by
  unfold appendPages pagesBegun ceilDiv
  split <;> omega

theorem appendPositions_takesPages (c : CacheDecl) (pos : Nat) (xs : List (U32 × PositionKv)) (r : AppendRun) (s : State) :
    TakesPages (appendPages pos xs.length) r s (appendPositions c pos xs r s).1 (appendPositions c pos xs r s).2 := by
  induction xs generalizing pos r s with
  | nil =>
    rw [List.length_nil, appendPages, Nat.add_zero, Nat.sub_self]
    exact ⟨rfl, StoresOnly.refl s, rfl, rfl⟩
  | cons x rest ih =>
    obtain ⟨r', t, hone, heq⟩ := appendPositions_cons c pos x.1 x.2 r s rest
    rw [heq, List.length_cons, appendPages_succ]
    exact hone.trans (ih (pos + 1) r' t)

section
variable (op : U32) (c : CacheDecl) (a : AppendRecord) (s : State)

/-- An append with its positions written, before the slot record takes them in. -/
def appendRun : AppendRun × State :=
  appendPositions c (slotLen s c a.slot) ((a.tokens.take (appendCount s c a)).zip (byPosition a.kv (appendCount s c a)))
    ⟨livePages s c a.slot, slotTail s c a.slot, 0⟩ s

/-- An append takes the pages that its positions begin. -/
theorem appendRun_takesPages :
    TakesPages (appendPages (slotLen s c a.slot) (appendCount s c a)) ⟨livePages s c a.slot, slotTail s c a.slot, 0⟩ s
      (appendRun c a s).1 (appendRun c a s).2 := by
  have hlen : ((a.tokens.take (appendCount s c a)).zip (byPosition a.kv (appendCount s c a))).length = appendCount s c a := by
    simp [byPosition, upFrom_eq_range', appendCount]
  have h := appendPositions_takesPages c (slotLen s c a.slot)
    ((a.tokens.take (appendCount s c a)).zip (byPosition a.kv (appendCount s c a)))
    ⟨livePages s c a.slot, slotTail s c a.slot, 0⟩ s
  rwa [hlen] at h

/-- The status that an append leaves in the slot record: LENGTH_LIMIT or ACTIVE. -/
def appendStatus : Nat := if slotMax s c a.slot ≤ slotLen s c a.slot + appendCount s c a then 2 else 1

/-- The slot record that an append writes. -/
def appendedSlot : State :=
  let (r, t) := appendRun c a s
  editSlot c a.slot (slotLen s c a.slot + appendCount s c a) (slotMax s c a.slot) (slotReserved s c a.slot - r.taken)
    (appendStatus c a s) (devNat s (slotAddr c a.slot + 18) 2) r.tail r.pages t

theorem appendEffect_eq : appendEffect op c a s =
    kvStatus (if slotMax s c a.slot ≤ slotLen s c a.slot + appendCount s c a then 4 else 0)
      (withKv (noteEdit a.slot op (slotStatus s c a.slot)) (appendedSlot c a s)) := by
  by_cases h : slotMax s c a.slot ≤ slotLen s c a.slot + appendCount s c a
  · simp only [appendEffect, appendedSlot, appendStatus, appendRun, editSlot, h, decide_true, if_true]
  · simp only [appendEffect, appendedSlot, appendStatus, appendRun, editSlot, h, decide_false, if_false, Bool.false_eq_true]

/-- What an append does to the key/value state. -/
theorem appendEffect_kv :
    (appendEffect op c a s).kv.edits = s.kv.edits ++ [(a.slot, op)] ∧
    (appendEffect op c a s).kv.freeQ = s.kv.freeQ.drop (appendPages (slotLen s c a.slot) (appendCount s c a)) ∧
    (appendEffect op c a s).kv.result =
      if slotMax s c a.slot ≤ slotLen s c a.slot + appendCount s c a then 4 else 0 := by
  have htakes := appendRun_takesPages c a s
  rw [appendEffect_eq]
  exact ⟨congrArg (· ++ [(a.slot, op)]) htakes.edits, htakes.freeQ, rfl⟩

theorem storesOnly_appendEffect : StoresOnly s (appendEffect op c a s) := by
  rw [appendEffect_eq]
  exact (appendRun_takesPages c a s).stores.trans <| (storesOnly_editSlot ..).trans <|
    (storesOnly_withKv _ _).trans (storesOnly_withKv _ _)

theorem sameSlot_appendEffect : SameSlot c a.slot (appendedSlot c a s) (appendEffect op c a s) := by
  rw [appendEffect_eq]
  exact SameBytes.trans (sameSlot_withKv _ _ _ _) (sameSlot_withKv _ _ _ _)

/-- The header that an append leaves. -/
theorem appendedSlot_header (hfree : slotStatus s c a.slot ≠ 0) :
    slotLen (appendedSlot c a s) c a.slot = slotLen s c a.slot + appendCount s c a ∧
    slotMax (appendedSlot c a s) c a.slot = slotMax s c a.slot ∧
    slotReserved (appendedSlot c a s) c a.slot =
      slotReserved s c a.slot - appendPages (slotLen s c a.slot) (appendCount s c a) ∧
    slotStatus (appendedSlot c a s) c a.slot = appendStatus c a s := by
  have hlen : slotLen s c a.slot < 2 ^ 32 := devNat_lt s _ 4
  have hmax : slotMax s c a.slot < 2 ^ 32 := devNat_lt s _ 4
  have hreserved : slotReserved s c a.slot < 2 ^ 32 := devNat_lt s _ 4
  have hcount : slotLen s c a.slot + appendCount s c a < 2 ^ 32 := by unfold appendCount; omega
  have htaken : (appendRun c a s).1.taken = appendPages (slotLen s c a.slot) (appendCount s c a) :=
    (appendRun_takesPages c a s).taken.trans (Nat.zero_add _)
  have hstatus : appendStatus c a s < 2 ^ 16 := by unfold appendStatus; split <;> omega
  rw [← htaken]
  refine ⟨?_, ?_, ?_, ?_⟩
  · exact (slotLen_writeHeader ..).trans (Nat.mod_eq_of_lt hcount)
  · exact (slotMax_writeHeader ..).trans (Nat.mod_eq_of_lt hmax)
  · exact (slotReserved_writeHeader ..).trans (Nat.mod_eq_of_lt (by omega))
  · exact (slotStatus_writeHeader _ _ _ _ _ _ _ _ _ (lt_slots_of_slotStatus hfree)).trans (Nat.mod_eq_of_lt hstatus)

end

/-! ## Release (R224) -/

section
variable {op : U32} {c : CacheDecl} {slot : Nat} {s : State}

theorem releaseOne_free (h : slotStatus s c slot = 0) : releaseOne op c slot s = some (kvStatus 5 s) := if_pos h

theorem releaseOne_waits (h : slotStatus s c slot ≠ 0) (he : editPending s slot = true) :
    releaseOne op c slot s = none := by
  simp only [releaseOne, h, he, if_false, if_true]

theorem releaseOne_releases (h : slotStatus s c slot ≠ 0) (he : editPending s slot = false) :
    releaseOne op c slot s = some (releaseEffect c op slot s) := by
  simp only [releaseOne, h, he, if_false, Bool.false_eq_true]

end

section
variable (op : U32) (c : CacheDecl) (slot : Nat) (s : State)

/-- The slot record that a release writes. -/
def releasedSlot : State :=
  editSlot c slot 0 0 0 0 0 0 [] (withKv (fun k => noteEdit slot op (slotStatus s c slot)
    ((livePages s c slot).foldl (fun k p => dropRefPage p k) k)) s)

theorem releaseEffect_eq : releaseEffect c op slot s = kvStatus 0 (releasedSlot op c slot s) := rfl

theorem storesOnly_releaseEffect : StoresOnly s (releaseEffect c op slot s) := by
  rw [releaseEffect_eq]
  exact (storesOnly_withKv _ _).trans <| (storesOnly_editSlot ..).trans (storesOnly_withKv _ _)

theorem sameSlot_releaseEffect : SameSlot c slot (releasedSlot op c slot s) (releaseEffect c op slot s) :=
  sameSlot_withKv _ _ _ _

theorem releaseEffect_kv_eq : (releaseEffect c op slot s).kv =
    { noteEdit slot op (slotStatus s c slot) ((livePages s c slot).foldl (fun k p => dropRefPage p k) s.kv) with
      result := 0 } := rfl

/-- What a release does to the key/value state. -/
theorem releaseEffect_kv (hwf : SMap.wf 0 s.kv.refs = true) (hnodup : (livePages s c slot).Nodup) :
    let t := (releaseEffect c op slot s).kv
    t.edits = s.kv.edits ++ [(slot, op)] ∧ t.result = 0 ∧
    (∀ p ∈ livePages s c slot, SMap.get 0 t.refs p = SMap.get 0 s.kv.refs p - 1) ∧
    t.freeQ = s.kv.freeQ ++ (livePages s c slot).filter (fun p => decide (SMap.get 0 s.kv.refs p ≤ 1)) ∧
    ∀ e, e ∈ t.index ↔ e ∈ s.kv.index ∧ ¬ (e.2 ∈ livePages s c slot ∧ SMap.get 0 s.kv.refs e.2 ≤ 1) := by
  have hdrop := refsDropped_foldl (livePages s c slot) hnodup s.kv hwf
  rw [releaseEffect_kv_eq]
  generalize (livePages s c slot).foldl (fun k p => dropRefPage p k) s.kv = k at hdrop ⊢
  have hedits := congrArg Kv.edits hdrop.frame
  exact ⟨congrArg (· ++ [(slot, op)]) hedits, rfl, fun p hp => (hdrop.refs p).trans (if_pos hp), hdrop.freeQ, hdrop.index⟩

/-- A release empties the header and leaves the live row. -/
theorem releasedSlot_record (hslot : slot < c.slots) :
    slotStatus (releasedSlot op c slot s) c slot = 0 ∧ slotLen (releasedSlot op c slot s) c slot = 0 ∧
    livePages (releasedSlot op c slot s) c slot = livePages s c slot :=
  ⟨slotStatus_writeHeader _ _ _ _ _ _ _ _ _ hslot, slotLen_writeHeader ..,
    (livePages_editSlot _ _ _ _ _ _ _ _ _ (Nat.zero_le _)).trans (sameSlot_withKv c slot _ s).livePages⟩

end

end Sys2Proof.Machine
end

section
/-! Snapshots and publication, and the statement on cache slots (O57). -/

namespace Sys2Proof.Machine

/-! ## Snapshots (R226) -/

section
variable {s : State} {core : Core} {op : U32} {slot : Nat}

theorem walkerSnapshot_waits {c : CacheDecl} (hc : cacheOf s = some c) (ha : acts s op = true) (upTo : Nat)
    (h : (∃ e ∈ s.kv.edits, e.1 = slot ∧ e.2.toNat < op.toNat) ∨ kindEnded s .cache op = false) :
    Waits (.walkerSnapshot core op slot upTo) s := by
  have hbelow : editBelow s slot op = true := by
    simp only [editBelow, Bool.or_eq_true, Bool.not_eq_true', List.any_eq_true, Bool.and_eq_true, beq_iff_eq,
      decide_eq_true_eq]
    exact h.symm
  change execWalkerSnapshot core op slot upTo s = _
  simp only [execWalkerSnapshot, ha, hc, hbelow, if_true]

theorem exec_walkerSnapshot {c : CacheDecl} (hc : cacheOf s = some c) (ha : acts s op = true) (upTo : Nat)
    (hedits : ∀ e ∈ s.kv.edits, e.1 = slot → op.toNat ≤ e.2.toNat) (hended : kindEnded s .cache op = true) :
    exec (.walkerSnapshot core op slot upTo) s = .next { s with kv := { s.kv with snaps := s.kv.snaps ++
      [⟨core, op, slot, BitVec.ofNat 32 (slotGen s c slot), (livePages s c slot).take (ceilDiv upTo 256)⟩] } } := by
  have hbelow : editBelow s slot op = false := by
    simp only [editBelow, hended, Bool.not_true, Bool.false_or, List.any_eq_false, Bool.and_eq_true, beq_iff_eq,
      decide_eq_true_eq, not_and, Nat.not_lt]
    exact hedits
  change execWalkerSnapshot core op slot upTo s = _
  simp only [execWalkerSnapshot, ha, hc, hbelow, Bool.false_eq_true, if_false]
  rfl

/-- A release takes away the first snapshot of its operation and slot. -/
theorem exec_snapshotRelease {before after : List Snapshot} {n : Snapshot} (hsnaps : s.kv.snaps = before ++ n :: after)
    (hn : isSnap core op slot n = true) (hbefore : ∀ x ∈ before, isSnap core op slot x = false) :
    exec (.snapshotRelease core op slot) s = .next { s with kv := { s.kv with snaps := before ++ after } } := by
  change execSnapshotRelease core op slot s = _
  have herase : (before ++ n :: after).eraseP (isSnap core op slot) = before ++ after := by
    rw [List.eraseP_append_right _ fun x hx => by simp [hbefore x hx], List.eraseP_cons_of_pos hn]
  simp only [execSnapshotRelease, withKv, hsnaps, herase]

theorem exec_snapshotRelease_none (h : ∀ x ∈ s.kv.snaps, isSnap core op slot x = false) :
    exec (.snapshotRelease core op slot) s = .next s := by
  change execSnapshotRelease core op slot s = _
  have herase : s.kv.snaps.eraseP (isSnap core op slot) = s.kv.snaps :=
    List.eraseP_of_forall_not fun x hx => by simp [h x hx]
  simp only [execSnapshotRelease, withKv, herase]

end

/-! ## CACHE_PUBLISH (R227) -/

theorem canPublish_iff (s : State) (slot : Nat) (o : U32) :
    canPublish s slot o = true ↔
      ¬ (kindEnded s .walker o = false ∨ ∃ n ∈ s.kv.snaps, n.slot = slot ∧ n.op.toNat < o.toNat) := by
  simp [canPublish]

section
variable {s : State} {slot : Nat}

theorem exec_cachePublish_none (h : editPending s slot = false) : exec (.cachePublish slot) s = .next s := by
  have hfind : (s.kv.edits.find? fun e => e.1 == slot) = none := by
    rw [List.find?_eq_none]
    exact List.any_eq_false.mp h
  change execCachePublish slot s = _
  simp only [execCachePublish, hfind]
  cases cacheOf s <;> rfl

variable {c : CacheDecl} {o : U32} (hc : cacheOf s = some c)
  (hedit : (s.kv.edits.find? fun e => e.1 == slot) = some (slot, o))
include hc hedit

theorem cachePublish_waits (h : canPublish s slot o = false) : Waits (.cachePublish slot) s := by
  change execCachePublish slot s = _
  simp only [execCachePublish, hc, hedit, h, Bool.false_eq_true, if_false]

/-- One write adds one to gen, and the slot's edit is no longer pending. -/
theorem cachePublish_publishes (h : canPublish s slot o = true) : Answers (.cachePublish slot) s fun t =>
    StoresOnly s t ∧ t.kv = { s.kv with edits := t.kv.edits } ∧ t.kv.edits.length + 1 = s.kv.edits.length ∧
    slotGen t c slot = (slotGen s c slot + 1) % 2 ^ 32 ∧
    ∀ b n, b + n ≤ slotAddr c slot ∨ slotAddr c slot + 4 ≤ b → devRead t b n = devRead s b n := by
  have hmem := List.mem_of_find?_eq_some hedit
  have herase : (s.kv.edits.eraseP fun e => e.1 == slot).length = s.kv.edits.length - 1 :=
    List.length_eraseP_of_mem hmem (beq_self_eq_true slot)
  have hpos := List.length_pos_of_mem hmem
  refine ⟨_, ?_, (storesOnly_withKv (fun k => { k with edits := k.edits.eraseP fun e => e.1 == slot }) s).trans
    (storesOnly_devWrite (slotAddr c slot) (leBytes 4 ((slotGen s c slot + 1) % 2 ^ 32)) _), rfl, ?_, ?_, fun b n hb => ?_⟩
  · change execCachePublish slot s = _
    simp only [execCachePublish, hc, hedit, h, if_true]
    rfl
  · change (s.kv.edits.eraseP fun e => e.1 == slot).length + 1 = s.kv.edits.length
    omega
  · exact (devNat_devPut_same ..).trans (Nat.mod_mod ..)
  · exact ((sameBytes_withKv b n _ s).trans (sameBytes_devPut hb _ _)) b n (Nat.le_refl _) (Nat.le_refl _)

end

/-! ## The statement -/

/-- Settles O57: a cache operation handles its records one after another, each by the checks, the edit of the slot record and
the move of references and pages that its own lemmas state; snapshots and publication follow their conditions. -/
theorem cacheSlotsAreEditedAndPublished : Obligations.CacheSlotsAreEditedAndPublished := by
  unfold Obligations.CacheSlotsAreEditedAndPublished
  intro s u j c op record slot upTo k a core rs as hj hc hwf r sh st edits storesOnly answered enter append free
  have hadmit := isCacheOp_admission op
  have happend := isCacheOp_append op
  have hrelease := isCacheOp_release op
  refine ⟨fun _ => exec_admission_host hj op k, fun ha e hf => ⟨exec_cacheOp_refused hadmit ha hc hf rs,
      exec_cacheOp_refused happend ha hc hf as, exec_cacheOp_refused hrelease ha hc hf rs⟩,
    fun ha hf ht => ⟨cacheOp_waits_for_turn hadmit ha hc hf ht rs, cacheOp_waits_for_turn happend ha hc hf ht as,
      cacheOp_waits_for_turn hrelease ha hc hf ht rs⟩, fun ha hf ht => ?turn,
    fun ha h => walkerSnapshot_waits hc ha upTo h, fun ha hedits hended => exec_walkerSnapshot hc ha upTo hedits hended,
    fun _ _ _ => exec_snapshotRelease, exec_snapshotRelease_none, fun o ho => ⟨fun hheld => ?publish, fun hheld => ?held⟩,
    exec_cachePublish_none⟩
  case publish => exact cachePublish_publishes hc ho ((canPublish_iff s slot o).mpr hheld)
  case held =>
    refine cachePublish_waits hc ho ?_
    rw [← Bool.not_eq_true, canPublish_iff]
    exact not_not_intro hheld
  case turn =>
    have hanswer {α : Type} {again : List α → Instr} {one : CacheDecl → α → State → Option State} {x : α} {t : State}
        (hop : IsCacheOp op again one) (h : one c x s = some t) {P : State → Prop} (hP : P (endPart op t)) :
        Answers (again [x]) s P := cacheOp_answers hop ha hc hf ht h hP
    refine ⟨fun h => exec_cacheOp_handles hadmit ha hc hf ht h rs, fun h => cacheOp_waits_for_record hadmit ha hc hf ht h rs,
      fun h => exec_cacheOp_handles happend ha hc hf ht h as, fun h => cacheOp_waits_for_record happend ha hc hf ht h as,
      fun h => exec_cacheOp_handles hrelease ha hc hf ht h rs, fun h => cacheOp_waits_for_record hrelease ha hc hf ht h rs,
      fun hst => ?fails, fun hst hedit => admitOne_waits hst hedit, fun hst hedit hapart => ?passes,
      ⟨fun h => ?free, fun h => ?limit, fun hfree hlimit h => appendOne_waits hfree hlimit h,
        fun hfree hlimit hedit hpage _ => ?appends⟩, fun h => ?nothing, fun h hedit => releaseOne_waits h hedit,
      fun h hedit hnodup => ?releases⟩
    case fails =>
      refine hanswer hadmit (admitOne_fails hst)
        ⟨(storesOnly_devWrite _ _ _).trans ((storesOnly_withKv _ _).trans (storesOnly_endPart ..)), rfl, ?_, fun b n hb => ?_⟩
      · exact (devNat_devPut_same ..).trans (Nat.mod_eq_of_lt st.isLt)
      · exact sameBytes_devPut hb _ s b n (Nat.le_refl _) (Nat.le_refl _)
    case passes =>
      obtain ⟨hedits, hfree, hresult, hrefs⟩ := admitted_kv (op := op) (c := c) (a := record) hwf
      obtain ⟨hstatus, hlen, hmax, hreserved, hgen⟩ := admittedSlot_header op hst
      obtain ⟨hpages, hshadow⟩ := admittedSlot_rows op hst
      obtain ⟨hcount, hzero⟩ := admitted_answer (op := op) hst
      have hsame : SameSlot c r.slot (admittedSlot op c r s) (endPart op (admitted op c record s)) :=
        (sameSlot_admitted hapart).trans (sameBytes_endPart _ _ op _)
      have hrow := hsame.row (Nat.sub_le 1 (liveRow s c r.slot))
      exact hanswer hadmit (admitOne_passes hst hedit) ⟨storesOnly_admitted.trans (storesOnly_endPart ..), hedits, hfree,
        hresult, hrefs, hsame.slotStatus.trans hstatus, hsame.slotLen.trans hlen, hsame.slotMax.trans hmax,
        hsame.slotReserved.trans hreserved, hsame.slotGen.trans hgen, hsame.livePages.trans hpages,
        fun i hi => (hrow.devNat_eq (by omega) (by omega)).trans (hshadow i hi),
        (devNat_endPart ..).trans hcount, (devNat_endPart ..).trans hzero⟩
    case free => exact hanswer happend (appendOne_free h) rfl
    case limit => exact hanswer happend (appendOne_limit h) rfl
    case appends =>
      obtain ⟨hedits, hqueue, hresult⟩ := appendEffect_kv op c a s
      obtain ⟨hlen, hmax, hreserved, hstatus⟩ := appendedSlot_header c a s hfree
      have hsame : SameSlot c a.slot (appendedSlot c a s) (endPart op (appendEffect op c a s)) :=
        (sameSlot_appendEffect op c a s).trans (sameBytes_endPart _ _ op _)
      exact hanswer happend (appendOne_appends hfree hlimit hedit hpage)
        ⟨(storesOnly_appendEffect op c a s).trans (storesOnly_endPart ..), hedits, hqueue, hsame.slotLen.trans hlen,
          hsame.slotMax.trans hmax, hsame.slotReserved.trans hreserved, hresult, hsame.slotStatus.trans hstatus⟩
    case nothing => exact hanswer hrelease (releaseOne_free h) rfl
    case releases =>
      obtain ⟨hedits, hresult, hrefs, hqueue, hindex⟩ := releaseEffect_kv op c slot s hwf hnodup
      obtain ⟨hstatus, hlen, hpages⟩ := releasedSlot_record op c slot s (lt_slots_of_slotStatus h)
      have hsame : SameSlot c slot (releasedSlot op c slot s) (endPart op (releaseEffect c op slot s)) :=
        (sameSlot_releaseEffect op c slot s).trans (sameBytes_endPart _ _ op _)
      exact hanswer hrelease (releaseOne_releases h hedit)
        ⟨(storesOnly_releaseEffect op c slot s).trans (storesOnly_endPart ..), hedits, hsame.slotStatus.trans hstatus,
          hsame.slotLen.trans hlen, hresult, hsame.livePages.trans hpages, hrefs, hqueue, hindex⟩

end Sys2Proof.Machine
end

section
/-! Canonical stores: the rules the invariant is proved with (O59). -/

namespace Sys2Proof.Machine

/-! ## The canonical form of a state -/

/-- Every byte store of a state is in its canonical form, store by store. A lemma `Canon.f` says that the model's
function `f` keeps the form, so a function that composes others has a chain of their lemmas as its proof, with
`Canon.same` where no byte store changes. -/
structure Canon (s : State) : Prop where
  hostMem : Mem.wf 0 s.hostMem = true
  flash : Mem.wf 0xFF s.flash.bytes = true
  dev : Mem.wf 0 s.hbm.dev = true
  tandem : Mem.wf 0 s.hbm.tandem = true
  saveArea : Mem.wf 0 s.hbm.saveArea = true
  scratch : Mem.wf 0 s.cores.scratch = true
  drain : Mem.wf 0 s.cores.drain = true
  cells : Mem.wf 0 s.cores.cells = true
  cellExps : Mem.wf 0 s.cores.cellExps = true
  ctl : (s.cores.ctl.all fun e => Mem.wf 0 e.2.dataMem) = true
  start : (s.kv.start.all fun k => Mem.wf 0 k.held) = true

theorem canonical_iff (s : State) : s.canonical = true ↔ Canon s := by
  simp only [State.canonical, Bool.and_eq_true]
  exact ⟨fun ⟨⟨⟨⟨⟨⟨⟨⟨⟨⟨a, b⟩, c⟩, d⟩, e⟩, f⟩, g⟩, h⟩, i⟩, j⟩, k⟩ =>
      ⟨a, b, c, d, e, f, g, h, i, j, k⟩,
    fun ⟨a, b, c, d, e, f, g, h, i, j, k⟩ => ⟨⟨⟨⟨⟨⟨⟨⟨⟨⟨a, b⟩, c⟩, d⟩, e⟩, f⟩, g⟩, h⟩, i⟩, j⟩, k⟩⟩

/-- The byte stores of a state. -/
def State.stores (s : State) :
    Mem × Mem × Mem × Mem × Mem × Mem × Mem × Mem × Mem × SMap CoreCtl × Option KvStart :=
  (s.hostMem, s.flash.bytes, s.hbm.dev, s.hbm.tandem, s.hbm.saveArea, s.cores.scratch, s.cores.drain, s.cores.cells,
    s.cores.cellExps, s.cores.ctl, s.kv.start)

/-- A state with the byte stores of a canonical one is canonical. -/
theorem Canon.same {s t : State} (h : Canon s) (e : t.stores = s.stores) : Canon t := by
  rw [← canonical_iff] at h ⊢
  simp only [State.stores, Prod.mk.injEq] at e
  simp only [State.canonical, e] at *
  exact h

theorem Canon.ite {c : Prop} [Decidable c] {s t : State} (h : Canon s) (h' : Canon t) : Canon (if c then s else t) := by
  split <;> assumption

theorem Canon.foldl {α : Type} {f : State → α → State} {xs : List α} {s : State} (h : Canon s)
    (hf : ∀ {t : State} {x : α}, Canon t → Canon (f t x)) : Canon (xs.foldl f s) :=
  List.foldlRecOn xs f h fun _ ht _ _ => hf ht

/-- The state of a pair that is named by its parts. -/
theorem Canon.of_pair {α : Type} {p : α × State} {a : α} {t : State} (h : Canon p.2) (e : p = (a, t)) : Canon t := by
  subst e
  exact h

/-- An outcome with no next state but canonical ones. -/
inductive CanonOut : Host.Outcome State Fault Refusal → Prop
  | next {s : State} (h : Canon s) : CanonOut (.next s)
  | fault {r : Fault} : CanonOut (.fault r)
  | refused {r : Refusal} : CanonOut (.refused r)

theorem CanonOut.ite {c : Prop} [Decidable c] {o p : Host.Outcome State Fault Refusal} (h : CanonOut o)
    (h' : CanonOut p) : CanonOut (if c then o else p) := by
  split <;> assumption

theorem CanonOut.of_next {o : Host.Outcome State Fault Refusal} {t : State} (h : CanonOut o) (e : o = .next t) :
    Canon t := by
  subst e
  cases h with | next h => exact h

/-- An answer with no state but canonical ones. -/
inductive CanonOpt : Option State → Prop
  | none : CanonOpt none
  | some {s : State} (h : Canon s) : CanonOpt (some s)

theorem CanonOpt.ite {c : Prop} [Decidable c] {o p : Option State} (h : CanonOpt o) (h' : CanonOpt p) :
    CanonOpt (if c then o else p) := by
  split <;> assumption

theorem CanonOpt.get {o : Option State} (h : CanonOpt o) {t : State} (e : o = .some t) : Canon t := by
  subst e
  cases h with | some h => exact h

theorem CanonOpt.getD {o : Option State} (h : CanonOpt o) {s : State} (hs : Canon s) : Canon (o.getD s) := by
  cases h with
  | none => exact hs
  | some h => exact h

/-! ## Byte stores and sparse maps written entry by entry -/

theorem wf_foldl {α : Type} {fill : Byte} {f : Mem → α → Mem} {m : Mem} (h : Mem.wf fill m = true)
    (hf : ∀ {m : Mem} {x : α}, Mem.wf fill m = true → Mem.wf fill (f m x) = true) (xs : List α) :
    Mem.wf fill (xs.foldl f m) = true :=
  List.foldlRecOn (motive := fun m => Mem.wf fill m = true) xs f h fun _ hm _ _ => hf hm

theorem wf_copyRanges {src m : Mem} (hs : Mem.wf 0 src = true) (h : Mem.wf 0 m = true) (rs : List Range) :
    Mem.wf 0 (copyRanges src rs m) = true := by
  induction rs generalizing m with
  | nil => exact h
  | cons r rs ih => exact ih (Mem.wf_copy _ _ _ _ _ _ hs h)

theorem SMap.all_erase {α : Type} {p : Nat × α → Bool} {m : SMap α} (h : m.all p = true) (a : Nat) :
    (SMap.erase m a).all p = true := by
  induction m with
  | nil => rfl
  | cons e m ih =>
    obtain ⟨k, v⟩ := e
    simp only [List.all_cons, Bool.and_eq_true] at h
    simp only [SMap.erase]
    split
    · simp [h.1, ih h.2]
    · split <;> simp [h.1, h.2]

theorem SMap.all_put {α : Type} {p : Nat × α → Bool} {m : SMap α} (h : m.all p = true) {a : Nat} {x : α}
    (hx : p (a, x) = true) : (SMap.put m a x).all p = true := by
  induction m with
  | nil => simp [SMap.put, hx]
  | cons e m ih =>
    obtain ⟨k, v⟩ := e
    simp only [List.all_cons, Bool.and_eq_true] at h
    simp only [SMap.put]
    split
    · simp [h.1, ih h.2]
    · split <;> simp [h.1, h.2, hx]

/-- Setting an entry of a sparse map keeps what holds of every entry. -/
theorem SMap.all_set {α : Type} [DecidableEq α] {d : α} {p : Nat × α → Bool} {m : SMap α} (h : m.all p = true)
    {a : Nat} {x : α} (hx : p (a, x) = true) : (SMap.set d m a x).all p = true := by
  unfold SMap.set
  split
  · exact SMap.all_erase h a
  · exact SMap.all_put h hx

/-- What holds of every entry and of the default holds of what a key reads as. -/
theorem SMap.of_all {α : Type} {d : α} {q : α → Prop} {m : SMap α} (h : ∀ e ∈ m, q e.2) (hd : q d) (a : Nat) :
    q (SMap.get d m a) := by
  induction m with
  | nil => exact hd
  | cons e m ih =>
    obtain ⟨k, v⟩ := e
    simp only [List.forall_mem_cons] at h
    simp only [SMap.get]
    split
    · exact h.1
    · split
      · exact hd
      · exact ih h.2

end Sys2Proof.Machine
end

section
/-! Operations, fabric, flags, cache and hand-off regions keep the canonical form (O59). -/

namespace Sys2Proof.Machine

variable {s : State}

/-! ## Outputs, interrupts, host writes and the end of a job -/

theorem Canon.stall {c} (h : Canon s) : Canon (stall c s) := h.same (by rfl)

theorem CanonOut.retryAll {run : Instr → State → Host.Outcome State Fault Refusal} {cs : List Instr} (h : Canon s)
    (hrun : ∀ {c : Instr} {s : State}, Canon s → CanonOut (run c s)) : CanonOut (retryAll run cs s) := by
  induction cs generalizing s with
  | nil => exact .next h
  | cons c cs ih =>
    have hc := hrun (c := c) h
    unfold Machine.retryAll
    generalize run c s = o at hc
    cases hc with
    | next ht => exact ih ht
    | fault => exact .fault
    | refused => exact .refused

theorem Canon.emit {o} (h : Canon s) : Canon (emit o s) := h.same (by rfl)
theorem Canon.emitAll {os} (h : Canon s) : Canon (emitAll os s) := h.same (by rfl)
theorem Canon.tick (h : Canon s) : Canon (tick s) := .ite ((h.same (by rfl)).ite (h.same (by rfl))) h
theorem Canon.sendVector {v} (h : Canon s) : Canon (sendVector v s) := (h.same (by rfl)).ite h.emit

theorem Canon.setInterrupts {status enable} (h : Canon s) : Canon (setInterrupts status enable s) :=
  (h.same (by rfl)).foldl fun ht => ht.sendVector

theorem Canon.raiseCause {n} (h : Canon s) : Canon (raiseCause n s) := h.setInterrupts
theorem Canon.takeFree (h : Canon s) : Canon (takeFree s).2 := h.same (by rfl)

theorem Canon.hostWrite {a bs} (h : Canon s) : Canon (hostWrite a bs s) :=
  .ite { h with hostMem := Mem.wf_write _ _ _ _ h.hostMem } h

theorem Canon.postStatus (h : Canon s) : Canon (postStatus s) := (h.same (by rfl)).hostWrite
theorem Canon.withStatus {f} (h : Canon s) : Canon (withStatus f s) := (h.same (by rfl)).postStatus
theorem Canon.withCounts {f} (h : Canon s) : Canon (withCounts f s) := h.same (by rfl)
theorem Canon.postEvent {code op detail loc} (h : Canon s) : Canon (postEvent code op detail loc s) := h.withStatus
theorem Canon.devWrite {a bs} (h : Canon s) : Canon (devWrite a bs s) := { h with dev := Mem.wf_write _ _ _ _ h.dev }
theorem Canon.devPut {a n v} (h : Canon s) : Canon (devPut a n v s) := h.devWrite

theorem Canon.counterOpen {op} (h : Canon s) : Canon (counterOpen op s) := by
  unfold Machine.counterOpen
  split
  · exact h
  · exact h.ite (h.same (by rfl)).devPut

theorem Canon.counterAdd {op sat flushed tile} (h : Canon s) : Canon (counterAdd op sat flushed tile s) := by
  unfold Machine.counterAdd
  split
  · exact h
  · exact h.counterOpen.devPut

theorem Canon.endPart {op} (h : Canon s) : Canon (endPart op s) := h.same (by rfl)

theorem Canon.keepStart (h : Canon s) : Canon (keepStart s) := by
  unfold Machine.keepStart
  split
  · exact h
  · exact { h with start := wf_copyRanges h.dev (Mem.wf_nil 0) _ }

theorem Canon.backToStart (h : Canon s) : Canon (backToStart s) := by
  unfold Machine.backToStart
  split
  · next k _ hk =>
    have hheld : Mem.wf 0 k.held = true := by simpa [hk] using h.start
    exact { h with dev := wf_copyRanges hheld h.dev _, start := rfl }
  · exact h

theorem Canon.discardStep (h : Canon s) : Canon (discardStep s) :=
  { h with ctl := List.all_map.trans h.ctl }

theorem Canon.abortStep (h : Canon s) : Canon (abortStep s) := by
  unfold Machine.abortStep
  split
  · exact h
  · exact (h.discardStep.same (by rfl)).emit

theorem Canon.advanceRing (h : Canon s) : Canon (advanceRing s) := (h.same (by rfl)).hostWrite

theorem Canon.endJob {code} (h : Canon s) : Canon (endJob code s) :=
  (h.discardStep.withStatus.raiseCause.same (by rfl)).advanceRing

theorem Canon.concludeJob {code} (h : Canon s) : Canon (concludeJob code s) := by
  unfold Machine.concludeJob
  split
  · exact h
  · exact (h.discardStep.same (by rfl)).ite h.endJob

theorem Canon.leaveRink (h : Canon s) : Canon (leaveRink s) := h.emit.ite h

theorem Canon.takeHalt {code op loc} (h : Canon s) : Canon (takeHalt code op loc s) := by
  unfold Machine.takeHalt
  split
  · exact h
  · exact h.ite (h.withStatus.raiseCause.same (by rfl)).leaveRink

theorem Canon.haltJob {code op loc} (h : Canon s) : Canon (haltJob code op loc s) := by
  unfold Machine.haltJob
  split
  · exact h
  · exact h.ite h.emit.takeHalt

theorem Canon.stopJob {code op loc} (h : Canon s) : Canon (stopJob code op loc s) := by
  unfold Machine.stopJob
  split
  · exact h
  · exact h.haltJob.ite h.postEvent.emit.concludeJob.leaveRink

theorem Canon.finishCmd {cmd state code} (h : Canon s) : Canon (finishCmd cmd state code s) := (h.same (by rfl)).raiseCause
theorem Canon.busyCmd {cmd} (h : Canon s) : Canon (busyCmd cmd s) := h.same (by rfl)

/-! ## Ports, frames and bring-up -/

theorem Canon.setPort {p f} (h : Canon s) : Canon (setPort p f s) := h.same (by rfl)
theorem Canon.sendWord {p w} (h : Canon s) : Canon (sendWord p w s) := h.emit
theorem Canon.addDown {l} (h : Canon s) : Canon (addDown l s) := h.ite (h.same (by rfl))
theorem Canon.removeDown {l} (h : Canon s) : Canon (removeDown l s) := h.same (by rfl)

theorem Canon.dropPort {p code} (h : Canon s) : Canon (dropPort p code s) :=
  h.setPort.withCounts.postEvent.addDown.emit

theorem Canon.abortIfRunning (h : Canon s) : Canon (abortIfRunning s) := by
  unfold Machine.abortIfRunning
  split
  · exact h.abortStep.ite h
  · exact h

theorem Canon.losePort {p code more} (h : Canon s) : Canon (losePort p code more s) :=
  h.dropPort.abortIfRunning.ite h.dropPort

theorem Canon.restartPort {p} (h : Canon s) : Canon (restartPort p s) := h.setPort

theorem Canon.retireFibre {p fibre wave} (h : Canon s) : Canon (retireFibre p fibre wave s) :=
  h.setPort.withCounts.postEvent.sendWord.losePort.ite h.setPort.withCounts.postEvent.sendWord

theorem Canon.failWave {w} (h : Canon s) : Canon (failWave w s) := by
  unfold Machine.failWave
  extract_lets
  split
  · exact h.retireFibre
  · exact h.setPort.withCounts.postEvent
  · exact h.setPort

theorem Canon.resendFrom {port fseq} (h : Canon s) : Canon (resendFrom port fseq s) := h.ite h.emit
theorem Canon.execNack {port fseq} (h : Canon s) : CanonOut (execNack port fseq s) := .next h.resendFrom

theorem Canon.returnCredits {bs} (h : Canon s) : Canon (returnCredits bs s) :=
  h.foldl fun ht => by
    split
    · exact ht
    · exact ht.sendWord

theorem Canon.sendFrame {port} (h : Canon s) : Canon (sendFrame port s) := by
  unfold Machine.sendFrame
  extract_lets
  split
  · split
    · exact h
    · exact h.setPort.emit.returnCredits
  · exact h

theorem Canon.pump {port n} (h : Canon s) : Canon (pump port n s) := by
  induction n generalizing s with
  | zero => exact h
  | succ n ih => exact ih h.sendFrame

theorem Canon.sendAll {port} (h : Canon s) : Canon (sendAll port s) := h.pump
theorem Canon.enqueuePacket {port p origin} (h : Canon s) : Canon (enqueuePacket port p origin s) := h.setPort.sendAll
theorem Canon.execBeat {port} (h : Canon s) : CanonOut (execBeat port s) := .ite (.next h.setPort.sendWord) (.next h)

theorem Canon.execPortDownTimeout {port uncommitted} (h : Canon s) :
    CanonOut (execPortDownTimeout port uncommitted s) :=
  .ite (.next h.losePort) (.next h)

theorem Canon.execDownNotice {link} (h : Canon s) : CanonOut (execDownNotice link s) := .next h.addDown

theorem Canon.execDownNoticeWithdrawn {link} (h : Canon s) : CanonOut (execDownNoticeWithdrawn link s) :=
  .next h.removeDown

theorem Canon.askSwap {port fibre place calibration} (h : Canon s) : Canon (askSwap port fibre place calibration s) :=
  h.setPort.sendWord

theorem Canon.failLane {port lane} (h : Canon s) : Canon (failLane port lane s) := by
  unfold Machine.failLane
  extract_lets
  split
  · exact h
  · extract_lets
    split
    · exact h.askSwap
    · exact h.askSwap.ite (h.ite h.retireFibre)
    · exact h.retireFibre

theorem Canon.execSwapCondition {port lane _cause} (h : Canon s) : CanonOut (execSwapCondition port lane _cause s) :=
  .next h.failLane

theorem Canon.retireTransmit {port fibre at'} (h : Canon s) : Canon (retireTransmit port fibre at' s) :=
  .ite (h.setPort.ite h.setPort.emit).losePort (h.setPort.ite h.setPort.emit)

theorem Canon.mirrorLane {port fibre lane calibration} (h : Canon s) :
    Canon (mirrorLane port fibre lane calibration s) :=
  h.ite h.setPort.sendWord

theorem Canon.noteSwitch {port fibre place switchAt} (h : Canon s) : Canon (noteSwitch port fibre place switchAt s) :=
  h.setPort

theorem Canon.takeSwap {port fibre lane kind} (h : Canon s) : Canon (takeSwap port fibre lane kind s) := by
  unfold Machine.takeSwap
  split
  · exact h.mirrorLane
  · exact h.mirrorLane
  · exact h.ite h.retireTransmit
  · exact h.noteSwitch

theorem Canon.execSwap {port fibre lane kind} (h : Canon s) : CanonOut (execSwap port fibre lane kind s) :=
  .next h.takeSwap

theorem Canon.switchTransmit {port fibre} (h : Canon s) : Canon (switchTransmit port fibre s) := by
  unfold Machine.switchTransmit
  extract_lets
  split
  · exact h
  · exact h.setPort

theorem Canon.switchReceive {port fibre} (h : Canon s) : Canon (switchReceive port fibre s) := by
  unfold Machine.switchReceive
  extract_lets
  split
  · exact h
  · exact h.setPort.ite h.setPort.withCounts.postEvent

theorem Canon.execSwapSwitch {port sw} (h : Canon s) : CanonOut (execSwapSwitch port sw s) :=
  .next (h.switchTransmit.ite h.switchReceive)

theorem Canon.execCalibration {port fibre place} (h : Canon s) : CanonOut (execCalibration port fibre place s) :=
  .ite (.next h.askSwap) (.next h)

theorem Canon.missBound {port} (h : Canon s) : Canon (missBound port s) := h.dropPort.ite h.setPort

theorem Canon.reportRetired {port fibres} (h : Canon s) : Canon (reportRetired port fibres s) :=
  h.foldl fun ht => ht.withCounts.postEvent

theorem Canon.sendWords {p ws} (h : Canon s) : Canon (sendWords p ws s) := h.emitAll
theorem Canon.sendHello {port} (h : Canon s) : Canon (sendHello port s) := h.sendWords

theorem Canon.sendSignature {port nonce} (h : Canon s) : Canon (sendSignature port nonce s) := by
  unfold Machine.sendSignature
  extract_lets
  split
  · exact h.setPort.sendWords
  · exact h.setPort.takeFree.sendWords

theorem Canon.execPortBringup {port r} (h : Canon s) : CanonOut (execPortBringup port r s) := by
  unfold Machine.execPortBringup
  extract_lets q fs s1
  have h1 : Canon s1 := h.setPort.reportRetired
  refine .ite (.next h) (.ite (.next h1.dropPort) (.ite (.next h1.missBound) (.ite (.next h1.setPort.missBound)
    (.ite (.next h1.dropPort) ?_))))
  split
  next k s2 hk => exact .next (h1.takeFree.of_pair hk).setPort.sendHello

theorem Canon.execBringupPhaseTimeout {port phase} (h : Canon s) : CanonOut (execBringupPhaseTimeout port phase s) :=
  .next (h.setPort.missBound.ite (h.missBound.ite h))

theorem Canon.portUp {port} (h : Canon s) : Canon (portUp port s) := h.setPort.removeDown.emit
theorem Canon.endCredits {port} (h : Canon s) : Canon (endCredits port s) := h.portUp.ite h
theorem Canon.beginCredits {port} (h : Canon s) : Canon (beginCredits port s) := h.setPort.sendWords.endCredits

theorem Canon.identStep {port} (h : Canon s) : Canon (identStep port s) := by
  unfold Machine.identStep
  split
  · exact h
  · extract_lets
    split
    · exact h.ite h.sendSignature
    · exact .ite (h.ite h.sendSignature).beginCredits (((h.ite h.sendSignature).dropPort).setPort)

theorem Canon.takeIdent {port i part} (h : Canon s) : Canon (takeIdent port i part s) := h.ite h.setPort.identStep
theorem Canon.execIdent {port i} (h : Canon s) : CanonOut (execIdent port i s) := .next h.takeIdent

theorem Canon.takeGrants {port grants} (h : Canon s) : Canon (takeGrants port grants s) := by
  unfold Machine.takeGrants
  split
  · exact h.setPort.sendAll
  · exact h.setPort.endCredits
  · exact h.setPort.endCredits
  all_goals exact h

theorem Canon.execCredit {port grants} (h : Canon s) : CanonOut (execCredit port grants s) := .next h.takeGrants

/-! ## Self test, row remapping and the save area -/

theorem Canon.setEntry {p f} (h : Canon s) : Canon (setEntry p f s) := h.same (by rfl)
theorem Canon.remapRow {r} (h : Canon s) : Canon (remapRow r s) := h.ite ((h.same (by rfl)).withCounts.postEvent.ite h.postEvent)

theorem Canon.saveBlock {stack start len} (h : Canon s) : Canon (saveBlock stack start len s) :=
  { h with saveArea := wf_foldl (Mem.wf_clear _ _ _ _ h.saveArea) (fun hm => Mem.wf_write _ _ _ _ hm) _ }

theorem Canon.restoreBlock {stack start len} (h : Canon s) : Canon (restoreBlock stack start len s) :=
  { h with dev := wf_foldl (Mem.wf_filter _ _ _ h.dev) (fun hm => Mem.wf_write _ _ _ _ hm) _ }

theorem Canon.recoverSave {stack} (h : Canon s) : Canon (recoverSave stack s) := by
  unfold Machine.recoverSave
  extract_lets
  split
  · exact h
  · exact h.same (by rfl)
  · exact h.restoreBlock.same (by rfl)
  · exact h.restoreBlock.same (by rfl)

theorem Canon.recoverSaves (h : Canon s) : Canon (recoverSaves s) := h.foldl fun ht => ht.recoverSave

theorem Canon.sweepCores {failed} (h : Canon s) : Canon (sweepCores failed s) :=
  (h.same (by rfl)).foldl fun ht => ht.postEvent

theorem Canon.reportLanes {ls} (h : Canon s) : Canon (reportLanes ls s) := h.foldl fun ht => ht.postEvent
theorem Canon.fuseRepair {f} (h : Canon s) : Canon (fuseRepair f s) := (h.same (by rfl)).foldl fun ht => ht.setEntry
theorem Canon.failWaves {ws} (h : Canon s) : Canon (failWaves ws s) := h.foldl fun ht => ht.failWave

theorem Canon.sweepBeforeHbm {f} (h : Canon s) : Canon (sweepBeforeHbm f s) :=
  (h.sweepCores.ite h.sweepCores.failWaves).reportLanes

theorem Canon.sweepParts {f} (h : Canon s) : Canon (sweepParts f s) :=
  have hrows := h.sweepBeforeHbm.foldl fun ht => ht.remapRow
  .ite (hrows.failWaves.fuseRepair.foldl fun ht => ht.restartPort) hrows

theorem Canon.sweepCut {f c} (h : Canon s) : Canon (sweepCut f c s) := by
  have hsave {start len} := (h.sweepBeforeHbm (f := f)).saveBlock (stack := c.stack.val) (start := start) (len := len)
  unfold Machine.sweepCut
  extract_lets s2 s3
  have h3 : Canon s3 := by
    unfold s3
    split
    · exact h.sweepBeforeHbm
    · exact h.sweepBeforeHbm
    · exact hsave
    · exact hsave
  exact h3.same (by rfl)

theorem Canon.gathered {sweep : State → State} (h : Canon s) (hsweep : ∀ {t : State}, Canon t → Canon (sweep t)) :
    Canon (gathered sweep s) :=
  { hsweep (h.same (by rfl)) with hostMem := h.hostMem }

theorem Canon.execHeldSweepStart {f} (h : Canon s) : CanonOut (execHeldSweepStart f s) := by
  unfold Machine.execHeldSweepStart
  split
  · split
    · exact .next (h.gathered (fun ht => ht.sweepCut))
    · exact .next ((h.same (by rfl)).gathered (fun ht => ht.sweepParts))
  · exact .next h

/-! ## Counters and core faults -/

theorem Canon.addTally {op t} (h : Canon s) : Canon (addTally op t s) := h.counterAdd

theorem Canon.dataMem {core} (h : Canon s) : Mem.wf 0 (ctlOf s core).dataMem = true :=
  SMap.of_all (q := fun c => Mem.wf 0 c.dataMem = true) (fun e he => List.all_eq_true.mp h.ctl e he) rfl core

theorem Canon.setCtl {core} {f : CoreCtl → CoreCtl} (h : Canon s)
    (hf : ∀ {c : CoreCtl}, Mem.wf 0 c.dataMem = true → Mem.wf 0 (f c).dataMem = true) :
    Canon (setCtl core f s) :=
  { h with ctl := SMap.all_set h.ctl (hf h.dataMem) }

theorem Canon.endCommand {e core op} (h : Canon s) : Canon (endCommand e core op s) := by
  unfold Machine.endCommand
  extract_lets k t
  have ht : Canon t := h.setCtl (by exact id)
  exact (ht.same (by rfl)).ite h

theorem Canon.chargeCore {core} (h : Canon s) : Canon (chargeCore core s) := (h.setEntry.same (by rfl)).ite h.setEntry

theorem Canon.checkerMismatch {core op tile} (h : Canon s) : Canon (checkerMismatch core op tile s) :=
  h.withCounts.postEvent.chargeCore.abortStep

theorem Canon.scratchError {core op} (h : Canon s) : Canon (scratchError core op s) :=
  h.withCounts.postEvent.chargeCore.abortStep

/-! ## Random draws -/

theorem Canon.seedLanes (h : Canon s) : Canon (seedLanes s) := by
  unfold Machine.seedLanes
  simp only
  split
  · exact h.takeFree
  · exact h.takeFree.same (by rfl)

/-! ## Operands written -/

theorem Canon.setRing {k f} (h : Canon s) : Canon (setRing k f s) := h.same (by rfl)

theorem Canon.locWrite {l off bs} (h : Canon s) : Canon (locWrite l off bs s) := by
  unfold Machine.locWrite
  split
  · exact h
  · split
    · exact { h with scratch := Mem.wf_write _ _ _ _ h.scratch }
    · exact { h with drain := Mem.wf_write _ _ _ _ h.drain }
    · exact h.devWrite
    · exact h.setRing

theorem Canon.writeOut {op out vs rs} (h : Canon s) : Canon (writeOut op out vs rs s) := h.locWrite.locWrite.addTally
theorem Canon.writeMask {l bits} (h : Canon s) : Canon (writeMask l bits s) := h.locWrite
theorem Canon.writeU32s {l vs} (h : Canon s) : Canon (writeU32s l vs s) := h.locWrite

/-! ## The key and value cache -/

theorem Canon.writeShadow {c slot pages} (h : Canon s) : Canon (writeShadow c slot pages s) := h.devWrite

theorem Canon.writeHeader {c slot len maxLen reserved status shared tail} (h : Canon s) :
    Canon (writeHeader c slot len maxLen reserved status shared tail s) :=
  h.devWrite

theorem Canon.initSlots {c} (h : Canon s) : Canon (initSlots c s) := h.foldl fun ht => ht.devWrite

theorem Canon.withKv {f : Kv → Kv} (h : Canon s) (hf : (f s.kv).start = s.kv.start) : Canon (withKv f s) :=
  { h with start := (congrArg _ hf).trans h.start }

theorem Canon.kvStatus {code} (h : Canon s) : Canon (kvStatus code s) := h.withKv (by rfl)

theorem Canon.runTable {α : Type} {op} {again : List α → Instr} {one : α → State → Option State} {rs : List α}
    (h : Canon s) (hone : ∀ {r : α} {s : State}, Canon s → CanonOpt (one r s)) :
    Canon (runTable op again one rs s) := by
  induction rs generalizing s with
  | nil => exact h.endPart
  | cons r rs ih =>
    unfold Machine.runTable
    split
    · exact h.stall
    · next ht => exact ih ((hone h).get ht)

theorem Canon.cacheOp {α : Type} {op} {again : List α → Instr} {one : CacheDecl → α → State → Option State}
    {table : List α} (h : Canon s)
    (hone : ∀ {c : CacheDecl} {r : α} {s : State}, Canon s → CanonOpt (one c r s)) :
    CanonOut (cacheOp op again one table s) := by
  unfold Machine.cacheOp
  split
  · split
    · exact .refused
    · exact .ite (.next (h.runTable hone)) (.next h.stall)
  · exact .next h

theorem start_foldl {α : Type} {f : Kv → α → Kv} (hf : ∀ k x, (f k x).start = k.start) (xs : List α) (k : Kv) :
    (xs.foldl f k).start = k.start :=
  List.foldlRecOn (motive := fun k' => k'.start = k.start) xs f rfl fun _ hk x _ => (hf _ x).trans hk

theorem Canon.admitEffect {op a c r} (h : Canon s) : Canon (admitEffect op a c r s) :=
  (h.withKv (start_foldl (f := fun k p => addRef p k) (fun _ _ => rfl) _ _)).writeShadow.writeHeader.devPut

theorem Canon.admitOne {op c a} (h : Canon s) : CanonOpt (admitOne op c a s) :=
  .ite .none (.some (h.admitEffect.ite h).devPut.kvStatus)

theorem Canon.execAdmission {op table} (h : Canon s) : CanonOut (execAdmission op table s) :=
  h.cacheOp fun ht => ht.admitOne

theorem Canon.writePosition {c page off layer kv} (h : Canon s) : Canon (writePosition c page off layer kv s) := by
  induction kv generalizing s layer with
  | nil => exact h
  | cons x kv ih => exact ih h.devWrite.devWrite.devWrite.devWrite

theorem Canon.publishPage {c page h'} (h : Canon s) : Canon (publishPage c page h' s) := (h.withKv (by rfl)).ite h

theorem Canon.appendPositions {c pos xs r} (h : Canon s) : Canon (appendPositions c pos xs r s).2 := by
  induction xs generalizing s pos r with
  | nil => exact h
  | cons x xs ih =>
    unfold Machine.appendPositions
    extract_lets fresh head s1 r1 page s2
    have h1 : Canon s1 := (h.withKv (by rfl)).ite h
    have h2 : Canon s2 := h1.writePosition.devPut
    split
    · exact ih h2.publishPage
    · exact ih h2

theorem Canon.appendEffect {op c a} (h : Canon s) : Canon (appendEffect op c a s) :=
  (h.appendPositions.writeShadow.writeHeader.withKv rfl).kvStatus

theorem Canon.appendOne {op c a} (h : Canon s) : CanonOpt (appendOne op c a s) :=
  .ite (.some h.kvStatus) (.ite (.some h.kvStatus) (.ite .none (.ite .none (.some h.appendEffect))))

theorem Canon.execAppend {a} (h : Canon s) : CanonOut (execAppend a s) := h.cacheOp fun ht => ht.appendOne

theorem start_dropRefPage (p : Nat) (k : Kv) : (dropRefPage p k).start = k.start := by
  unfold dropRefPage
  extract_lets n t
  split <;> rfl

theorem Canon.releaseEffect {c op slot} (h : Canon s) : Canon (releaseEffect c op slot s) :=
  (h.withKv (start_foldl (fun k p => start_dropRefPage p k) _ _)).writeShadow.writeHeader.kvStatus

theorem Canon.releaseOne {op c slot} (h : Canon s) : CanonOpt (releaseOne op c slot s) :=
  .ite (.some h.kvStatus) (.ite .none (.some h.releaseEffect))

theorem Canon.execRelease {op slots} (h : Canon s) :
    CanonOut (execRelease op slots s) := h.cacheOp fun ht => ht.releaseOne

theorem Canon.execWalkerSnapshot {core op slot upTo} (h : Canon s) :
    CanonOut (execWalkerSnapshot core op slot upTo s) := by
  unfold Machine.execWalkerSnapshot
  split
  · exact .ite (.next h.stall) (.next (h.withKv (by rfl)))
  · exact .next h

theorem Canon.execSnapshotRelease {core op slot} (h : Canon s) : CanonOut (execSnapshotRelease core op slot s) :=
  .next (h.withKv (by rfl))

theorem Canon.execCachePublish {slot} (h : Canon s) : CanonOut (execCachePublish slot s) := by
  unfold Machine.execCachePublish
  split
  · exact .ite (.next (h.withKv (by rfl)).devPut) (.next h.stall)
  · exact .next h

/-! ## Halo rows -/

theorem Canon.writeToken {core word use op} (h : Canon s) : Canon (writeToken core word use op s) := by
  unfold Machine.writeToken
  split
  · exact h
  · exact { h with scratch := Mem.wf_write _ _ _ _ h.scratch }

theorem Canon.haloOp {c op sender fault ready} {effect : State} (h : Canon s) (heffect : Canon effect) :
    CanonOut (haloOp c op sender fault ready effect s) := by
  unfold Machine.haloOp
  split
  · exact .next h
  · split
    · exact .refused
    · exact .ite (.next heffect) (.next h.stall)

theorem Canon.sendRow {h' use src} (h : Canon s) : Canon (sendRow h' use src s) := h.locWrite.same (by rfl)

theorem Canon.execHaloSend {op b use src} (h : Canon s) : CanonOut (execHaloSend op b use src s) :=
  h.haloOp (h.scratchError.ite h.sendRow)

theorem Canon.postReady {op h' use} (h : Canon s) : Canon (postReady op h' use s) := h.writeToken.same (by rfl)
theorem Canon.execHaloReady {op b use} (h : Canon s) : CanonOut (execHaloReady op b use s) := h.haloOp h.postReady
theorem Canon.execHaloAck {op b use} (h : Canon s) : CanonOut (execHaloAck op b use s) := h.haloOp h.writeToken

/-! ## Hand-off regions and engine runs -/

theorem Canon.fillSlot {k r} (h : Canon s) : Canon (fillSlot k r s) := by
  unfold Machine.fillSlot
  extract_lets g _ t
  have ht : Canon t := { h with drain := Mem.wf_write _ _ _ _ h.drain }
  exact .ite ht.setRing h

theorem Canon.fillSlots {k r n} (h : Canon s) : Canon (fillSlots k r n s) := by
  induction n generalizing s with
  | zero => exact h
  | succ n ih => exact ih h.fillSlot

theorem Canon.takeSlot {k r} (h : Canon s) : Canon (takeSlot k r s) := h.setRing.fillSlot.ite h

theorem Canon.takeSlots {k r n fuel} (h : Canon s) : Canon (takeSlots k r n fuel s) := by
  induction fuel generalizing s with
  | zero => exact h
  | succ fuel ih => exact h.ite (ih h.takeSlot)

theorem Canon.takeUse {u} (h : Canon s) : Canon (takeUse u s) := by
  unfold Machine.takeUse
  split
  · split
    · exact h
    · exact h.takeSlots
  · exact h

theorem Canon.dropUse {u} (h : Canon s) : Canon (dropUse u s) := by
  unfold Machine.dropUse
  split
  · exact h.setRing
  · exact h

theorem Canon.passOn {l} (h : Canon s) : Canon (passOn l s) := by
  unfold Machine.passOn
  split
  · split
    · exact h
    · exact h.fillSlots
  · exact h

theorem Canon.taken {r : EngineRun} (h : Canon s) : Canon (r.taken s) := h.foldl fun ht => ht.takeUse

theorem Canon.done {r : EngineRun} (h : Canon s) (heffect : ∀ {t : State}, Canon t → Canon (r.effect t)) :
    Canon (r.done s) :=
  (((heffect h.taken).foldl fun ht => ht.dropUse).foldl fun ht => ht.passOn).endCommand.endPart

theorem Canon.runEngine {c} {r : EngineRun} (h : Canon s) (heffect : ∀ {t : State}, Canon t → Canon (r.effect t)) :
    CanonOut (runEngine c r s) := by
  unfold Machine.runEngine
  refine .ite (.next h) (.ite (.next h.stall) ?_)
  split
  · exact .refused
  · refine .ite (.next h.taken.stall) (.ite (.next h.scratchError) ?_)
    split
    · exact .next h.stopJob
    · exact .next (h.done heffect)

end Sys2Proof.Machine
end

section
/-! Trellis, host accesses, management and boot keep the canonical form (O59). -/

namespace Sys2Proof.Machine

variable {s : State}

/-! ## Trellis planes and waves -/

theorem Canon.loadPlane {t} (h : Canon s) : Canon (loadPlane t s) :=
  { h with
    cells := wf_foldl (Mem.wf_clear _ _ _ _ h.cells)
      (fun hm => wf_foldl hm (fun hm => wf_foldl hm (fun hm => Mem.wf_write _ _ _ _ hm) _) _) _
    cellExps := wf_foldl (Mem.wf_clear _ _ _ _ h.cellExps)
      (fun hm => wf_foldl hm (fun hm => Mem.wf_write _ _ _ _ hm) _) _ }

theorem Canon.execTileLoad {t} (h : Canon s) : CanonOut (execTileLoad t s) := h.runEngine (fun ht => ht.loadPlane)
theorem Canon.swapPlanes {core} (h : Canon s) : Canon (swapPlanes core s) := h.same (by rfl)

theorem Canon.execTileSwap {ctx} (h : Canon s) : CanonOut (execTileSwap ctx s) :=
  h.runEngine (fun ht => ht.swapPlanes)

theorem Canon.waveEffect {c} (h : Canon s) : Canon (waveEffect c s) :=
  (h.same (by rfl)).addTally.checkerMismatch.ite (h.same (by rfl)).addTally

theorem Canon.execTrellisWave {c} (h : Canon s) : CanonOut (execTrellisWave c s) :=
  h.runEngine (fun ht => ht.waveEffect)

/-! ## Attention -/

theorem Canon.writeRowAt {out first vals rs} (h : Canon s) : Canon (writeRowAt out first vals rs s).2 :=
  h.locWrite.locWrite

theorem Canon.rowOutDraws {ctx conv rows n} (h : Canon s) : Canon (rowOutDraws ctx conv rows n s).2 := h.same (by rfl)

theorem Canon.writeRows {op out n draws xs} (h : Canon s) : Canon (writeRows op out n draws xs s) := by
  induction xs generalizing s with
  | nil => exact h
  | cons x xs ih => exact ih h.writeRowAt.addTally

theorem Canon.attnEffect {c} (h : Canon s) : Canon (attnEffect c s) := by
  unfold Machine.attnEffect
  extract_lets g qs res
  split
  next ds t hd =>
  have ht := h.rowOutDraws.of_pair hd
  extract_lets u v
  have hv : Canon v := ht.addTally.writeRows
  split
  · exact hv
  · exact hv.foldl fun hw => hw.locWrite

theorem Canon.attnBackEffect {c} (h : Canon s) : Canon (attnBackEffect c s) :=
  (h.same (by rfl)).addTally.writeRows.writeRows.writeRows

theorem Canon.execFusedAttention {c} (h : Canon s) : CanonOut (execFusedAttention c s) :=
  h.runEngine (fun ht => ht.attnEffect)

theorem Canon.execAttentionBackward {c} (h : Canon s) : CanonOut (execAttentionBackward c s) :=
  h.runEngine (fun ht => ht.attnBackEffect)

/-! ## Flash copies -/

theorem Canon.latchKey (h : Canon s) : Canon (latchKey s) := h.same (by rfl)
theorem Canon.useCopy {b} (h : Canon s) : Canon (useCopy b s) := h.same (by rfl)
theorem Canon.enterRecovery {start} (h : Canon s) : Canon (enterRecovery start s) := h.same (by rfl)

theorem Canon.flashPhase (h : Canon s) : Canon (flashPhase s) := by
  unfold Machine.flashPhase
  split
  · exact h.useCopy
  · exact h.enterRecovery

/-! ## Host accesses and telemetry -/

theorem Canon.writeOutside {rs a bs} (h : Canon s) : Canon (writeOutside rs a bs s) := by
  induction bs generalizing s a with
  | nil => exact h
  | cons b bs ih => exact ih (h.ite h.devWrite)

theorem Canon.clearOutside {rs a n} (h : Canon s) : Canon (clearOutside rs a n s) := h.same (by rfl)

theorem Canon.execCxlMemWrite {addr data} (h : Canon s) : CanonOut (execCxlMemWrite addr data s) := by
  unfold Machine.execCxlMemWrite
  split
  · exact .next h
  · split
    · exact .fault
    · split
      · exact .next h.devWrite
      · exact .ite (.next h.writeOutside.clearOutside.withCounts.postEvent) (.next h.devWrite)

theorem Canon.execCxlMemRead {addr len} (h : Canon s) : CanonOut (execCxlMemRead addr len s) :=
  .ite (.next h) (.ite .fault (.next (h.same (by rfl))))

theorem Canon.execCxlLinkTrained {cxl width rate} (h : Canon s) : CanonOut (execCxlLinkTrained cxl width rate s) :=
  .ite (.next h) (.next ((h.same (by rfl)).ite (h.same (by rfl))))

theorem Canon.execStatusRecordTelemetry {t} (h : Canon s) : CanonOut (execStatusRecordTelemetry t s) :=
  .next h.withStatus

theorem Canon.execTelemetryRefresh {junction stack powerW volt10mV} (h : Canon s) :
    CanonOut (execTelemetryRefresh junction stack powerW volt10mV s) :=
  .next (h.same (by rfl))

/-! ## Management commands -/

theorem Canon.runEntry {cmd e} {bad : U16 → State → State} {go : State → State} (h : Canon s)
    (hbad : ∀ {c : U16} {s : State}, Canon s → Canon (bad c s)) (hgo : ∀ {s : State}, Canon s → Canon (go s)) :
    Canon (runEntry cmd e bad go s) := by
  unfold Machine.runEntry
  split
  · exact h
  · exact (hbad h).finishCmd
  · exact (h.same (by rfl)).finishCmd
  · exact hgo h

theorem Canon.noChange {x} (h : Canon s) : Canon (noChange x s) := h
theorem Canon.refuse {cmd code} (h : Canon s) : Canon (refuse cmd code s) := h.finishCmd
theorem Canon.succeed {cmd} (h : Canon s) : Canon (succeed cmd s) := h.finishCmd

theorem Canon.execMgtCmdRejected {val} (h : Canon s) : CanonOut (execMgtCmdRejected val s) :=
  .ite (.next h) (.ite (.next h) (.next h.refuse))

theorem Canon.programFlash {b bytes cut} (h : Canon s) : Canon (programFlash b bytes cut s) :=
  { h with flash := Mem.wf_write _ _ _ _ (Mem.wf_write _ _ _ _ (Mem.wf_clear _ _ _ _ h.flash)) }

theorem Canon.flashProgram {cut} (h : Canon s) : Canon (flashProgram cut s) := by
  unfold Machine.flashProgram
  extract_lets a n c recovery target t
  have ht : Canon t := h.programFlash
  refine .ite ?_ h.refuse
  split
  · exact ht.busyCmd
  · exact ht.succeed.flashPhase.ite ht.succeed

theorem Canon.execFlashProgram {cut} (h : Canon s) : CanonOut (execFlashProgram cut s) :=
  .next (h.runEntry (fun ht => ht.noChange) (fun ht => ht.flashProgram))

theorem Canon.attest (h : Canon s) : Canon (attest s) := by
  unfold Machine.attest
  extract_lets
  split
  · split
    · exact h.devWrite.succeed
    · exact (h.same (by rfl)).devWrite.succeed
  · exact h.refuse

theorem Canon.execAttest (h : Canon s) : CanonOut (execAttest s) :=
  .next (h.runEntry (fun ht => ht.noChange) (fun ht => ht.attest))

theorem Canon.healthSweep {f} (h : Canon s) : Canon (healthSweep f s) := by
  unfold Machine.healthSweep
  split
  · exact h.refuse
  · split
    · exact h.finishCmd
    · split
      · exact h.busyCmd.sweepCut
      · exact h.sweepParts.succeed

theorem Canon.execHealthSweep {f} (h : Canon s) : CanonOut (execHealthSweep f s) :=
  .next (h.runEntry (fun ht => ht.noChange) (fun ht => ht.healthSweep))

theorem Canon.amendRefused {x} (h : Canon s) : Canon (amendRefused x s) := h.withStatus

theorem Canon.amended {site digest alive amendment} (h : Canon s) :
    Canon { s with
      site := site
      siteAlive := alive
      hbm := { s.hbm with amendment := amendment }
      flash := { s.flash with measSite := digest } } := h.same (by rfl)

theorem Canon.applyAmendment {r} (h : Canon s) : Canon (applyAmendment r s) :=
  h.amended.foldl fun ht => ht.restartPort

theorem Canon.siteAmend (h : Canon s) : Canon (siteAmend s) := by
  unfold Machine.siteAmend
  extract_lets
  split
  · exact h.amendRefused.refuse
  · exact h.applyAmendment.succeed

theorem Canon.execSiteAmend (h : Canon s) : CanonOut (execSiteAmend s) :=
  .next (h.runEntry (fun ht => ht.amendRefused) (fun ht => ht.siteAmend))

theorem Canon.jobAbort (h : Canon s) : Canon (jobAbort s) := by
  unfold Machine.jobAbort
  split
  · exact h.refuse
  · exact h.emit.concludeJob.succeed.ite h.refuse

theorem Canon.execJobAbort (h : Canon s) : CanonOut (execJobAbort s) :=
  .next (h.runEntry (fun ht => ht.noChange) (fun ht => ht.jobAbort))

theorem Canon.bankLoad {partBytes} (h : Canon s) : Canon (bankLoad partBytes s) := h.refuse.ite (h.same (by rfl)).busyCmd.emit

theorem Canon.execBankLoad {partBytes} (h : Canon s) : CanonOut (execBankLoad partBytes s) :=
  .next (h.runEntry (fun ht => ht.noChange) (fun ht => ht.bankLoad))

theorem Canon.barrierOutcome {pass} (h : Canon s) : Canon (barrierOutcome pass s) := by
  unfold Machine.barrierOutcome
  split
  · exact h
  · extract_lets
    split
    · exact (h.same (by rfl)).refuse
    · exact (h.same (by rfl)).succeed.ite (h.same (by rfl)).refuse

theorem Canon.releaseBanks {pass} (h : Canon s) : Canon (releaseBanks pass s) := h.emit.barrierOutcome

theorem Canon.execIdentityBarrierRelease {b} (h : Canon s) : CanonOut (execIdentityBarrierRelease b s) := by
  unfold Machine.execIdentityBarrierRelease
  split
  · exact .ite (.next h.releaseBanks) (.next h)
  · exact .ite (.next h) (.next h.barrierOutcome)
  · exact .next h

theorem Canon.execIdentityBarrierTimeout (h : Canon s) : CanonOut (execIdentityBarrierTimeout s) :=
  .ite (.next h.releaseBanks) (.next h.barrierOutcome)

theorem Canon.withFuses {g} (h : Canon s) : Canon (withFuses g s) := h.same (by rfl)
theorem Canon.zeroHbm (h : Canon s) : Canon (zeroHbm s) := { h with dev := rfl, tandem := rfl, saveArea := rfl }
theorem Canon.eraseFlash (h : Canon s) : Canon (eraseFlash s) := { h with flash := rfl }

theorem Canon.revokeActive (h : Canon s) : Canon (revokeActive s) := by
  unfold Machine.revokeActive
  split
  · exact h
  · exact h.withFuses

theorem Canon.provision {i key n} (h : Canon s) : Canon (provision i key n s) := by
  unfold Machine.provision
  split
  next k s0 hd =>
  have h0 := h.takeFree.of_pair hd
  extract_lets s1 s2 s3 s4
  have h1 : Canon s1 := h0.withFuses.ite h0
  have h2 : Canon s2 := h1.withFuses.ite h1
  have h3 : Canon s3 := h2.withFuses.ite h2
  have h4 : Canon s4 := h3.withFuses
  exact (h4.same (by rfl)).ite h3

theorem Canon.giveBack {n} (h : Canon s) : Canon (giveBack n s) := by
  unfold Machine.giveBack
  extract_lets _ s1 s2 s3 s4
  have h1 : Canon s1 := (h.same (by rfl)).ite h
  have h2 : Canon s2 := h1.revokeActive.ite h1
  have h3 : Canon s3 := h2.zeroHbm.ite h2
  have h4 : Canon s4 := h3.eraseFlash.ite h3
  exact h4.withFuses.ite h4

theorem Canon.transition {dst t n} (h : Canon s) : Canon (transition dst t n s) := by
  unfold Machine.transition
  split
  · exact h.provision
  · exact h.giveBack
  · exact h.withFuses.ite h

theorem Canon.lifecycle {cut} (h : Canon s) : Canon (lifecycle cut s) := by
  unfold Machine.lifecycle
  extract_lets
  split
  · exact h.refuse
  · split
    · exact h.refuse
    · split
      · exact h.busyCmd.transition
      · exact h.transition.succeed

theorem Canon.execLifecycle {cut} (h : Canon s) : CanonOut (execLifecycle cut s) :=
  .next (h.runEntry (fun ht => ht.noChange) (fun ht => ht.lifecycle))

/-! ## Power and thermal evaluations -/

theorem Canon.powerAlert (h : Canon s) : Canon (powerAlert s) := h.raiseCause
theorem Canon.thermalAlert (h : Canon s) : Canon (thermalAlert s) := h.raiseCause
theorem Canon.flagPace (h : Canon s) : Canon (flagPace s) := h.same (by rfl)
theorem Canon.settleShare (h : Canon s) : Canon (settleShare s) := (h.same (by rfl)).powerAlert.ite (h.same (by rfl))
theorem Canon.execOvercurrent (h : Canon s) : CanonOut (execOvercurrent s) := .next (h.same (by rfl)).flagPace.settleShare

theorem Canon.execCapRuleEval {avgW below1ms over76} (h : Canon s) :
    CanonOut (execCapRuleEval avgW below1ms over76 s) :=
  .next (h.same (by rfl)).flagPace.settleShare

theorem Canon.execWaveWithholdPeriod (h : Canon s) : CanonOut (execWaveWithholdPeriod s) := .next (h.ite h.powerAlert)

theorem Canon.execPaceDomainEval {d shareBp} (h : Canon s) : CanonOut (execPaceDomainEval d shareBp s) :=
  .next (h.same (by rfl)).flagPace

theorem Canon.paceRinkEval {waitBp} (h : Canon s) : Canon (paceRinkEval waitBp s) := (h.same (by rfl)).flagPace

theorem Canon.execThermalCeilingEval {junction stackTemps} (h : Canon s) :
    CanonOut (execThermalCeilingEval junction stackTemps s) :=
  .next ((h.same (by rfl)).flagPace.settleShare.thermalAlert.ite (h.same (by rfl)).flagPace.settleShare)

theorem Canon.execDomainVoltageStep {d} (h : Canon s) : CanonOut (execDomainVoltageStep d s) :=
  .ite (.next (h.same (by rfl))) (.next h)

theorem Canon.execInputOutOfRange {volt10mV} (h : Canon s) : CanonOut (execInputOutOfRange volt10mV s) :=
  .next ((h.same (by rfl)).ite (h.same (by rfl)).powerAlert)

theorem Canon.execRegulatorCheck {errors} (h : Canon s) : CanonOut (execRegulatorCheck errors s) :=
  .next (h.powerAlert.ite h)

theorem Canon.execTempSensorCheck {errors} (h : Canon s) : CanonOut (execTempSensorCheck errors s) :=
  .next ((h.same (by rfl)).thermalAlert.ite h)

theorem Canon.execInputMonitorCheck {first second} (h : Canon s) : CanonOut (execInputMonitorCheck first second s) :=
  .next (h.powerAlert.ite h)

theorem Canon.execLaserMonitorCheck {low} (h : Canon s) : CanonOut (execLaserMonitorCheck low s) := .next h.emitAll

/-! ## Register writes -/

theorem Canon.writeWord {off v} (h : Canon s) : Canon (writeWord off v s) := by
  unfold Machine.writeWord
  extract_lets
  split
  · exact h.same (by rfl)
  · exact h.same (by rfl)
  · exact h.same (by rfl)
  · exact h.same (by rfl)
  · exact h.same (by rfl)
  · exact h.same (by rfl)
  · exact h.same (by rfl)
  · exact h.same (by rfl)
  · exact (h.same (by rfl)).ite h
  · exact h.same (by rfl)
  · exact h.same (by rfl)
  · exact h.setInterrupts
  · exact h.setInterrupts
  · exact .ite ((h.same (by rfl)).sendVector.ite (h.same (by rfl))) h

theorem Canon.writeLong {off v} (h : Canon s) : Canon (writeLong off v s) := by
  unfold Machine.writeLong
  split
  · exact h.same (by rfl)
  · exact h.same (by rfl)
  · exact h.setInterrupts
  · exact h.writeWord.writeWord

theorem Canon.execMgtRegisterWrite {off wide val} (h : Canon s) : CanonOut (execMgtRegisterWrite off wide val s) :=
  .ite (.next h) (.ite (.ite (.next h.writeLong) (.next h)) (.ite (.next h.writeWord) (.next h)))

theorem Canon.execMgtRingJobCtrlWrite {part val producer} (h : Canon s) :
    CanonOut (execMgtRingJobCtrlWrite part val producer s) :=
  .ite (.next (h.same (by rfl))) (.next h)

theorem Canon.execMgtIntStatusClear {mask} (h : Canon s) : CanonOut (execMgtIntStatusClear mask s) :=
  .ite (.next h.setInterrupts) (.next h)

theorem Canon.execMgtIntEnableWrite {val} (h : Canon s) : CanonOut (execMgtIntEnableWrite val s) :=
  .ite (.next h.setInterrupts) (.next h)

/-! ## The sideband -/

theorem Canon.sbRead {w} (h : Canon s) : Canon (sbRead w s) := (h.same (by rfl)).ite (h.same (by rfl))
theorem Canon.execSbIdent (h : Canon s) : CanonOut (execSbIdent s) := .next h.sbRead
theorem Canon.execSbState (h : Canon s) : CanonOut (execSbState s) := .next h.sbRead
theorem Canon.execSbTemp (h : Canon s) : CanonOut (execSbTemp s) := .next h.sbRead
theorem Canon.execSbStackTemp (h : Canon s) : CanonOut (execSbStackTemp s) := .next h.sbRead
theorem Canon.execSbPower (h : Canon s) : CanonOut (execSbPower s) := .next h.sbRead
theorem Canon.execSbVolt (h : Canon s) : CanonOut (execSbVolt s) := .next h.sbRead
theorem Canon.execSbCause (h : Canon s) : CanonOut (execSbCause s) := .next h.sbRead
theorem Canon.sbAck {ack} (h : Canon s) : Canon (sbAck ack s) := h.same (by rfl)

theorem Canon.execSbResetWarm (h : Canon s) : CanonOut (execSbResetWarm s) :=
  .ite (.next (h.same (by rfl)).sbAck) (.next h.sbAck)

theorem Canon.execSbResetRink (h : Canon s) : CanonOut (execSbResetRink s) :=
  .ite (.next h.sbAck) (.ite (.next h.sbAck) (.next (h.same (by rfl)).sbAck.emit))

theorem Canon.execSbWriteRejected {_cmd _val _pecOk} (h : Canon s) :
    CanonOut (execSbWriteRejected _cmd _val _pecOk s) :=
  .next h.sbAck

theorem Canon.execSmbusBusTimeout (h : Canon s) : CanonOut (execSmbusBusTimeout s) := .next (h.same (by rfl))

/-! ## Resets and boot phases -/

theorem canon_reset : Canon State.reset := (canonical_iff _).mp rfl
theorem Canon.powerOn (h : Canon s) : Canon (powerOn s) := { canon_reset with hostMem := h.hostMem, flash := h.flash }
theorem Canon.lockOut (h : Canon s) : Canon (lockOut s) := h.powerOn.same (by rfl)
theorem Canon.execPowerOnReset (h : Canon s) : CanonOut (execPowerOnReset s) := .next h.powerOn
theorem Canon.execInputLockout (h : Canon s) : CanonOut (execInputLockout s) := .next h.lockOut
theorem Canon.execInputOvervoltageStop (h : Canon s) : CanonOut (execInputOvervoltageStop s) := .next h.lockOut
theorem Canon.lostNotice (h : Canon s) : Canon (lostNotice s) := h.emit.ite h
theorem Canon.execThermalTrip (h : Canon s) : CanonOut (execThermalTrip s) := .next (h.lostNotice.powerOn.same (by rfl))

theorem Canon.execThermalTripCooled (h : Canon s) : CanonOut (execThermalTripCooled s) :=
  .ite (.next h.powerOn) (.next h)

theorem Canon.execPowerGood (h : Canon s) : CanonOut (execPowerGood s) := .ite (.next (h.same (by rfl))) (.next h)

theorem Canon.finishTransition (h : Canon s) : Canon (finishTransition s) := by
  unfold Machine.finishTransition
  split
  · split
    · exact h.withFuses
    · exact h.withFuses
    · exact h
  · split
    · exact h.zeroHbm.eraseFlash.withFuses
    · exact h.zeroHbm.eraseFlash.withFuses
    · exact h

theorem Canon.resetUnits (h : Canon s) : Canon (resetUnits s) :=
  { canon_reset with
    hostMem := h.hostMem, flash := h.flash, dev := h.dev, tandem := h.tandem, saveArea := h.saveArea }

theorem Canon.warmReset (h : Canon s) : Canon (warmReset s) := by
  unfold Machine.warmReset
  extract_lets t
  have ht : Canon t := h.lostNotice.resetUnits.recoverSaves.finishTransition.latchKey
  clear_value t
  exact ht.same (by rfl)

theorem Canon.restartPowerOn (h : Canon s) : Canon (restartPowerOn s) := h.powerOn.same (by rfl)
theorem Canon.resetWarmly (h : Canon s) : Canon (resetWarmly s) := h.restartPowerOn.ite h.warmReset
theorem Canon.execWarmReset (h : Canon s) : CanonOut (execWarmReset s) := .ite (.next h.resetWarmly) (.next h)

theorem Canon.execPerstAssert (h : Canon s) : CanonOut (execPerstAssert s) :=
  .ite (.next (h.same (by rfl)).resetWarmly) (.next (h.same (by rfl)))

theorem Canon.execPerstRelease (h : Canon s) : CanonOut (execPerstRelease s) := .next (h.same (by rfl))

theorem Canon.rinkReset (h : Canon s) : Canon (rinkReset s) := by
  unfold Machine.rinkReset
  extract_lets t
  have ht : Canon t := h.resetUnits.recoverSaves
  clear_value t
  exact ht.same (by rfl)

theorem Canon.execRinkResetFlood (h : Canon s) : CanonOut (execRinkResetFlood s) := .ite (.next h) (.next h.rinkReset)

theorem Canon.execStepAbortUnanswered (h : Canon s) : CanonOut (execStepAbortUnanswered s) :=
  .ite (.next h.emit) (.next h)

theorem Canon.execReferenceClockLoss (h : Canon s) : CanonOut (execReferenceClockLoss s) := .next (h.same (by rfl))

theorem Canon.execBootRom (h : Canon s) : CanonOut (execBootRom s) :=
  .ite (.next (h.finishTransition.latchKey.same (by rfl))) (.next h)

theorem Canon.execFlashSelect (h : Canon s) : CanonOut (execFlashSelect s) := .ite (.next h.flashPhase) (.next h)
theorem Canon.execRailsUp (h : Canon s) : CanonOut (execRailsUp s) := .ite (.next (h.same (by rfl))) (.next h)

theorem Canon.warmCoreFail {p} (h : Canon s) : Canon (warmCoreFail p s) := by
  unfold Machine.warmCoreFail
  extract_lets
  split
  · exact h
  · split
    · split
      · exact (h.same (by rfl)).setEntry
      · exact (h.same (by rfl)).setEntry.setEntry
    · exact (h.same (by rfl)).setEntry

theorem Canon.execBootSelfTest {failed} (h : Canon s) : CanonOut (execBootSelfTest failed s) := by
  unfold Machine.execBootSelfTest
  extract_lets _ t
  have ht : Canon t := .ite (h.foldl fun hu => hu.warmCoreFail) (h.same (by rfl))
  exact .ite (.next (ht.same (by rfl))) (.next h)

theorem Canon.execHbmInit {rows lanes} (h : Canon s) : CanonOut (execHbmInit rows lanes s) := by
  unfold Machine.execHbmInit
  extract_lets _ u t
  have hu : Canon u := { h with dev := rfl, tandem := rfl, saveArea := rfl }
  have ht : Canon t := h.ite (hu.foldl fun hv => hv.remapRow)
  exact .ite (.next (ht.same (by rfl)).reportLanes) (.next h)

theorem Canon.execRuntimeLoad (h : Canon s) : CanonOut (execRuntimeLoad s) :=
  .ite (.next { h with ctl := rfl, start := rfl }) (.next h)

theorem Canon.formRink {f} (h : Canon s) : Canon (formRink f s) := by
  unfold Machine.formRink
  extract_lets
  split
  · exact h.same (by rfl)
  · split
    · exact (h.same (by rfl)).ite h
    · split
      · exact h
      · exact h.same (by rfl)

theorem Canon.execRinkFormation {f} (h : Canon s) : CanonOut (execRinkFormation f s) :=
  .ite (.next h.formRink.emit) (.next h)

theorem Canon.execRinkFormationRetry {_cause f} (h : Canon s) : CanonOut (execRinkFormationRetry _cause f s) :=
  .ite (.next h.formRink.emit) (.next h)

end Sys2Proof.Machine
end

section
/-! Packets, memory-side units, collectives, controllers and tandem pages keep the canonical form (O59). -/

namespace Sys2Proof.Machine

variable {s : State}

/-! ## Check values -/

theorem Canon.setCv {u v} (h : Canon s) : Canon (setCv u v s) := h.same (by rfl)

theorem Canon.execCvSelect {u p} (h : Canon s) : CanonOut (execCvSelect u p s) :=
  .ite (.next h) (.ite (.next h.stall) (.next h.setCv))

theorem Canon.execCvFeed {u d} (h : Canon s) : CanonOut (execCvFeed u d s) :=
  .ite (.next h) (.ite (.next h.stall) (.ite .refused (.next h.setCv)))

theorem Canon.execCvRead {u} (h : Canon s) : CanonOut (execCvRead u s) :=
  .ite (.next h) (.ite (.next h.stall) (.ite .refused (.next h.setCv)))

/-! ## Packets -/

theorem Canon.returnCredit {port p} (h : Canon s) : Canon (returnCredit port p s) := h.sendWord

theorem Canon.launch {cls dest body} (h : Canon s) : CanonOpt (launch cls dest body s) := by
  unfold Machine.launch
  split
  · exact .none
  · extract_lets p
    split
    · exact .some h.emit
    · exact .some h.enqueuePacket

theorem Canon.execPacketInject {cls dest body} (h : Canon s) : CanonOut (execPacketInject cls dest body s) :=
  .ite .refused (.next (h.launch.getD h.stopJob))

theorem Canon.execPacketForward {port p} (h : Canon s) : CanonOut (execPacketForward port p s) := by
  unfold Machine.execPacketForward
  split
  · exact .next h
  · exact .ite (.next h.returnCredit) (.next h.enqueuePacket)

theorem Canon.sendParts {cls dest use a bs} (h : Canon s) : Canon (sendParts cls dest use a bs s) := by
  induction bs generalizing s a with
  | nil => exact h
  | cons b bs ih => exact ih (h.launch.getD h)

theorem Canon.deliverEffect {p} (h : Canon s) : Canon (deliverEffect p s) := by
  unfold Machine.deliverEffect
  split
  · exact h.devWrite.ite h
  · exact h.sendParts.ite h
  · exact h

theorem Canon.execPacketDeliver {port p} (h : Canon s) : CanonOut (execPacketDeliver port p s) :=
  .ite (.next h.emit.deliverEffect.returnCredit) (.next h)

/-! ## Memory-side sums -/

theorem Canon.putPresent {bitmap b tile} (h : Canon s) : Canon (putPresent bitmap b tile s) := h.devWrite

theorem Canon.openTile {d bitmap base tile} (h : Canon s) : Canon (openTile d bitmap base tile s) :=
  h.putPresent.foldl fun ht => ht.ite ht.devWrite

theorem Canon.openTiles {r} (h : Canon s) : Canon (openTiles r s).2 := by
  unfold Machine.openTiles
  split
  · exact h
  · exact h.foldl fun ht => ht.openTile

theorem Canon.writeWordValue {r w} (h : Canon s) : Canon (writeWordValue r w s) := h.devWrite.addTally

theorem Canon.advanceRun {r} (h : Canon s) : Canon (advanceRun r s).2 :=
  h.openTiles.foldl fun ht => ht.writeWordValue

theorem Canon.spillItem {r x} (h : Canon s) : Canon (spillItem r s x) := by
  unfold Machine.spillItem
  extract_lets
  split
  · exact h
  · exact h.devWrite.same (by rfl)

theorem Canon.restage {r} (h : Canon s) : Canon (restage r s) := (h.same (by rfl)).foldl fun ht => ht.spillItem
theorem Canon.putRun {r} (h : Canon s) : Canon (putRun r s) := h.same (by rfl)

theorem Canon.advanceInto {r} (h : Canon s) : Canon (advanceInto r s) :=
  have hrun := h.advanceRun.putRun.restage
  hrun.endPart.ite hrun

theorem Canon.advanceAll (h : Canon s) : Canon (advanceAll s) := h.foldl fun ht => ht.advanceInto
theorem Canon.reduceStop {code op source} (h : Canon s) : Canon (reduceStop code op source s) := h.stopJob

theorem Canon.segmentIn {d g} (h : Canon s) : Canon (segmentIn d g s) :=
  h.ite (h.reduceStop.ite (h.reduceStop.ite h.advanceInto))

theorem Canon.closeIn {d source c} (h : Canon s) : Canon (closeIn d source c s) :=
  h.ite (h.ite (h.reduceStop.ite h.advanceInto))

theorem Canon.arrive {c op} {effect : State} (h : Canon s) (heffect : Canon effect) : Canon (arrive c op effect s) := by
  unfold Machine.arrive
  split
  · exact h
  · exact h.stall.ite (heffect.ite h)

theorem Canon.clearBits {bitmap tiles} (h : Canon s) : Canon (clearBits bitmap tiles s) :=
  h.devWrite.foldl fun ht => ht.putPresent

theorem Canon.clearPresence (h : Canon s) : Canon (clearPresence s) := by
  unfold Machine.clearPresence
  split
  · exact h
  · exact (h.foldl fun ht => ht.clearBits).foldl fun ht => ht.clearBits.clearBits

/-! ## The update rule -/

theorem Canon.sweepTile {u row n i} (h : Canon s) : Canon (sweepTile u row n i s) := by
  have h5 {a1 a2 a3 a4 a5 b1 b2 b3 b4 b5} :
      Canon (Machine.devWrite a5 b5 (Machine.devWrite a4 b4 (Machine.devWrite a3 b3
        (Machine.devWrite a2 b2 (Machine.devWrite a1 b1 s))))) :=
    h.devWrite.devWrite.devWrite.devWrite.devWrite
  exact (h5.devWrite.ite h5).putPresent.addTally

theorem Canon.putStamp {page x} (h : Canon s) : Canon (putStamp page x s) := h.same (by rfl)
theorem Canon.closeStamp {page} (h : Canon s) : Canon (closeStamp page s) := (h.putStamp.same (by rfl)).ite h.putStamp
theorem Canon.openPages {w} (h : Canon s) : Canon (openPages w s).2 := (h.foldl fun ht => ht.putStamp).emitAll
theorem Canon.putSweep {w} (h : Canon s) : Canon (putSweep w s) := h.same (by rfl)
theorem Canon.openInto {w} (h : Canon s) : Canon (openInto w s) := h.openPages.putSweep

theorem Canon.updateEffect {u row n} (h : Canon s) : Canon (updateEffect u row n s) :=
  h.clearBits.endPart.ite h.openInto

theorem Canon.execUpdateOperation {u} (h : Canon s) : CanonOut (execUpdateOperation u s) := by
  unfold Machine.execUpdateOperation
  split
  · exact .refused
  · split
    · exact .next h
    · split
      · exact .next h.stopJob
      · split
        · exact .next h.stopJob
        · split
          · exact .next h.updateEffect
          · exact .next h.stall

theorem Canon.runSweep {w} (h : Canon s) : Canon (runSweep w s) := (h.foldl fun ht => ht.sweepTile).emitAll
theorem Canon.afterSweep {w} (h : Canon s) : Canon (afterSweep w s) := h.endPart.ite h

theorem Canon.execOpenedSignal {op unit} (h : Canon s) : CanonOut (execOpenedSignal op unit s) := by
  unfold Machine.execOpenedSignal
  split
  · exact .next h
  · exact .ite (.next h) (.ite (.next h.stall) (.next (h.putSweep.runSweep.afterSweep.ite h.putSweep)))

theorem Canon.closePage {page} (h : Canon s) : Canon (closePage page s) := (h.closeStamp.same (by rfl)).ite h.closeStamp

theorem Canon.execPageDoneSignal {op page unit} (h : Canon s) : CanonOut (execPageDoneSignal op page unit s) := by
  unfold Machine.execPageDoneSignal
  split
  · exact .next h
  · split
    · exact .next h
    · exact .ite (.next h) (.next (h.putSweep.closePage.afterSweep.ite h.putSweep))

/-! ## Collectives -/

theorem Canon.putPresence {p} (h : Canon s) : Canon (putPresence p s) := h.foldl fun ht => ht.ite ht.putPresent

theorem Canon.putPiecePresence {p} (h : Canon s) : Canon (putPiecePresence p s) := by
  unfold Machine.putPiecePresence
  split
  · exact h
  · exact h.putPresence

theorem Canon.forwardPiece {ring op p} (h : Canon s) : Canon (forwardPiece ring op p s) := by
  unfold Machine.forwardPiece
  split
  · exact h
  · exact h.emit

theorem Canon.notePiece {ring op i} (h : Canon s) : Canon (notePiece ring op i s) := (h.same (by rfl)).endPart.ite (h.same (by rfl))

theorem Canon.takePiece {g p} (h : Canon s) : Canon (takePiece g s p) := by
  unfold Machine.takePiece
  split
  · exact h
  · exact h.ite h.locWrite.putPiecePresence.forwardPiece.notePiece

theorem Canon.sendOwn {g} (h : Canon s) : Canon (sendOwn g s) := by
  unfold Machine.sendOwn
  extract_lets
  split
  · exact h
  · exact h.ite h.locWrite.forwardPiece.notePiece

theorem Canon.gatherEffect {g} (h : Canon s) : Canon (gatherEffect g s) :=
  have ht := h.foldl fun ht => ht.takePiece
  .ite ht (.ite ht.stall ht.sendOwn)

theorem Canon.feedSegment {d g} (h : Canon s) : Canon (feedSegment d s g) := h.segmentIn.ite h

theorem Canon.feedContribution {d weight c} (h : Canon s) : Canon (feedContribution d weight s c) :=
  .ite (h.foldl fun ht => ht.feedSegment).closeIn (h.foldl fun ht => ht.feedSegment)

theorem Canon.sendContribution {r} (h : Canon s) : Canon (sendContribution r s) :=
  h.ite (h.same (by rfl)).emitAll.feedContribution

theorem Canon.scatterEffect {r} (h : Canon s) : Canon (scatterEffect r s) :=
  (h.foldl fun ht => ht.feedContribution).sendContribution

theorem Canon.execReduceScatter {r} (h : Canon s) : CanonOut (execReduceScatter r s) := by
  unfold Machine.execReduceScatter
  split
  · exact .refused
  · exact .ite (.next h) (.ite (.next h.stall) (.next h.scatterEffect))

theorem Canon.writeRanges {r l gs bs} (h : Canon s) : Canon (writeRanges r l gs bs s) := by
  induction gs generalizing s bs with
  | nil => exact h
  | cons g gs ih => exact ih h.devWrite

theorem Canon.takeSum {r p} (h : Canon s) : Canon (takeSum r s p) :=
  h.ite h.writeRanges.putPiecePresence.forwardPiece.notePiece

theorem Canon.sendSum {r} (h : Canon s) : Canon (sendSum r s) := h.ite h.forwardPiece.notePiece

theorem Canon.allReduceEffect {r sums} (h : Canon s) : Canon (allReduceEffect r sums s) :=
  have ht := h.scatterEffect.foldl fun ht => ht.takeSum
  .ite ht (.ite ht.sendSum (.ite ht ht.stall))

theorem Canon.execAllReduce {r sums} (h : Canon s) : CanonOut (execAllReduce r sums s) := by
  unfold Machine.execAllReduce
  split
  · exact .refused
  · exact .ite (.next h) (.ite (.next h.stall) (.next h.allReduceEffect))

theorem Canon.noteBroadcast {op root} (h : Canon s) : Canon (noteBroadcast op root s) := (h.same (by rfl)).endPart

theorem Canon.execBroadcast {op root addr len bytes} (h : Canon s) :
    CanonOut (execBroadcast op root addr len bytes s) := by
  unfold Machine.execBroadcast
  split
  · exact .refused
  · exact .ite (.next (h.arrive (h.ite h.locWrite.forwardPiece.noteBroadcast)))
      (.ite (.next h) (.ite (.next h.stall) (.next h.forwardPiece.noteBroadcast)))

theorem Canon.execBarrier {op} (h : Canon s) : CanonOut (execBarrier op s) := .ite (.next h) (.next (h.same (by rfl)).emit)
theorem Canon.noteRelease {op rel} (h : Canon s) : Canon (noteRelease op rel s) := (h.same (by rfl)).endPart

theorem Canon.startDump {op} (h : Canon s) : Canon (startDump op s) := by
  unfold Machine.startDump
  split
  · exact h
  · exact (h.same (by rfl)).ite h

theorem Canon.confirmSnapshot {op} (h : Canon s) : Canon (confirmSnapshot op s) := (h.same (by rfl)).ite h

theorem Canon.execConsistentSnapshot (h : Canon s) : CanonOut (execConsistentSnapshot s) :=
  .ite (.next h) (.next (h.same (by rfl)).emit)

/-! ## Windows -/

theorem Canon.execWindowGather {c} (h : Canon s) : CanonOut (execWindowGather c s) := h.runEngine (fun ht => (ht.same (by rfl)))

/-! ## Groomed stores and loads -/

theorem Canon.storeBlocks {c} (h : Canon s) : Canon (storeBlocks c s) := by
  unfold Machine.storeBlocks
  extract_lets
  split
  · exact h.foldl fun ht => ht.devWrite
  · exact h.emitAll

theorem Canon.execGroomedStore {c} (h : Canon s) : CanonOut (execGroomedStore c s) :=
  h.runEngine (fun ht => ht.storeBlocks)

theorem Canon.groomWrite {c blocks} (h : Canon s) : Canon (groomWrite c blocks s) := h.locWrite.locWrite

theorem Canon.loadBlocks {c} (h : Canon s) : Canon (loadBlocks c s) := by
  unfold Machine.loadBlocks
  split
  · exact h.groomWrite
  · exact h.emitAll.groomWrite

theorem Canon.execGroomedLoad {c} (h : Canon s) : CanonOut (execGroomedLoad c s) :=
  h.runEngine (fun ht => ht.loadBlocks)

/-! ## The controllers -/

theorem Canon.enqueue {e core op} (h : Canon s) : Canon (enqueue e core op s) := by
  unfold Machine.enqueue
  extract_lets k t
  have ht : Canon t := h.setCtl (by exact id)
  exact ht.same (by rfl)

theorem Canon.loadWrite {core l bs} (h : Canon s) : Canon (loadWrite core l bs s) := by
  unfold Machine.loadWrite
  split
  · exact h.groomWrite
  · exact h.locWrite

theorem Canon.loadEffect {core l} (h : Canon s) : Canon (loadEffect core l s) := h.loadWrite

theorem Canon.issueEffect {c} (h : Canon s) : Canon (issueEffect c s) := by
  unfold Machine.issueEffect
  extract_lets
  split
  · exact (h.setCtl (by exact id)).ite h.counterOpen.loadEffect.endPart
  · exact h.counterOpen.ite h.counterOpen.enqueue

theorem wf_settleWrites {c : CoreCtl} (h : Mem.wf 0 c.dataMem = true) : Mem.wf 0 (settleWrites c).dataMem = true :=
  wf_foldl h (fun hm => Mem.wf_write _ _ _ _ hm) _

theorem wf_advanceCtl {c : IssueCmd} {k : CoreCtl} (h : Mem.wf 0 k.dataMem = true) :
    Mem.wf 0 (advanceCtl c k).dataMem = true := by
  unfold advanceCtl
  split
  · exact h
  · exact wf_settleWrites h

theorem Canon.execEngineCommandIssue {c} (h : Canon s) : CanonOut (execEngineCommandIssue c s) := by
  unfold Machine.execEngineCommandIssue
  extract_lets core k t
  have ht : Canon t := h.setCtl fun _ => wf_advanceCtl h.dataMem
  refine .ite (.next h) ?_
  split
  · exact .refused
  · exact .ite (.next h.stall) (.ite (.next ht.stall) (.ite (.next ht.stopJob) (.next ht.issueEffect)))

theorem Canon.execBranchMispredict {core branch} (h : Canon s) : CanonOut (execBranchMispredict core branch s) :=
  have hsquash : Canon (Machine.setCtl core.val (squash branch) s) := h.setCtl (by exact id)
  .ite (.next (hsquash.same (by rfl))) (.next h)

theorem wf_retireCtl {l : SpecLoad} {c : CoreCtl} (h : Mem.wf 0 c.dataMem = true) :
    Mem.wf 0 (retireCtl l c).dataMem = true :=
  wf_settleWrites h

theorem Canon.execSpeculativeLoadRetire {core load} (h : Canon s) :
    CanonOut (execSpeculativeLoadRetire core load s) := by
  unfold Machine.execSpeculativeLoadRetire
  refine .ite (.next h) ?_
  split
  · exact .next h
  · extract_lets t
    have ht : Canon t := h.setCtl wf_retireCtl
    exact .ite (.next h.stall) (.ite (.next ht.stopJob)
      (.ite (.ite (.next h.stall) (.next ht.counterOpen.loadEffect.endPart)) (.next ht.counterOpen.loadWrite.endPart)))

theorem Canon.execHbmResponseDropped {core slot tag} (h : Canon s) :
    CanonOut (execHbmResponseDropped core slot tag s) :=
  .next (h.setCtl (by exact id))

theorem Canon.execTimeRead {ctx dest} (h : Canon s) : CanonOut (execTimeRead ctx dest s) := by
  unfold Machine.execTimeRead
  split
  · exact .next h
  · split
    · exact .refused
    · exact .ite (.next h.stall) (.next h.locWrite.endPart)

/-! ## Drain results -/

theorem Canon.drainOut {c ys} (h : Canon s) : Canon (drainOut c ys s) := by
  unfold Machine.drainOut
  extract_lets
  split
  · exact h.writeOut
  · exact (h.writeU32s.writeOut.same (by rfl)).ite (h.writeU32s.same (by rfl))

theorem Canon.drainSave {c ys} (h : Canon s) : Canon (drainSave c ys s) := by
  unfold Machine.drainSave
  split
  · exact h
  · exact h.writeOut

theorem Canon.drainLast {c sums} (h : Canon s) : Canon (drainLast c sums s) := (h.same (by rfl)).addTally.drainOut.drainSave

theorem Canon.drainEffect {c e} (h : Canon s) : Canon (drainEffect c e s) :=
  (h.same (by rfl)).addTally.drainLast.ite (h.same (by rfl)).addTally.writeU32s

theorem Canon.drainRun {c} (h : Canon s) : Canon ((drainRun c).effect s) := by
  unfold Machine.drainRun
  dsimp only
  split
  · exact h
  · exact h.drainEffect

theorem Canon.execDrainResult {c} (h : Canon s) : CanonOut (execDrainResult c s) :=
  h.runEngine (fun ht => ht.drainRun)

/-! ## The timebase -/

theorem Canon.slew {target} (h : Canon s) : Canon (slew target s) := h.ite ((h.same (by rfl)).ite (h.same (by rfl)))
theorem Canon.takeBeat {port sample lane} (h : Canon s) : Canon (takeBeat port sample lane s) := h.slew.ite h

theorem Canon.execBeatReceive {port sample lane} (h : Canon s) : CanonOut (execBeatReceive port sample lane s) :=
  .next h.takeBeat

theorem Canon.execTimebaseUnsync {offsetNs heldUs} (h : Canon s) : CanonOut (execTimebaseUnsync offsetNs heldUs s) :=
  .ite (.next h.withStatus.raiseCause) (.next h)

theorem Canon.execTimeRootTakeover {lost before} (h : Canon s) : CanonOut (execTimeRootTakeover lost before s) := by
  unfold Machine.execTimeRootTakeover
  split
  · exact .next h
  · exact .next (h.same (by rfl))

/-! ## Frames received -/

theorem Canon.takeSwapWord {port x} (h : Canon s) : Canon (takeSwapWord port x s) := by
  unfold Machine.takeSwapWord
  extract_lets
  split
  · exact h.takeSwap
  · exact h.takeSwap
  · exact h.takeSwap
  · exact h.takeSwap
  · split
    · exact h
    · exact h.failLane
  · exact h

theorem Canon.takeWord {port lane type x} (h : Canon s) : Canon (takeWord port lane type x s) := by
  unfold Machine.takeWord
  split
  · exact h.takeGrants
  · exact h.resendFrom
  · exact h.takeBeat
  · exact h.takeSwapWord
  · exact h.takeIdent
  · exact h

theorem Canon.acceptFrame {port ws ack} (h : Canon s) : Canon (acceptFrame port ws ack s) :=
  (h.setPort.foldl fun ht => ht.takeWord).sendAll

theorem Canon.rejectFrame {port bad} (h : Canon s) : Canon (rejectFrame port bad s) :=
  h.setPort.sendWord.foldl fun ht => ht.setPort.failLane

theorem Canon.execPortFrameReceive {port words} (h : Canon s) : CanonOut (execPortFrameReceive port words s) := by
  unfold Machine.execPortFrameReceive
  extract_lets q lanes ws rejected
  have hrejected : Canon rejected := h.rejectFrame
  refine .ite (.next h) ?_
  clear_value ws
  split
  · exact .next hrejected
  · exact .ite (.ite (.next h.acceptFrame) (.next h)) (.next hrejected)

/-! ## HBM reads, scrubs and refreshes -/

theorem Canon.execHbmRefresh {stack _bank temp} (h : Canon s) : CanonOut (execHbmRefresh stack _bank temp s) :=
  .next (h.same (by rfl))

theorem Canon.correctedWord {row word} (h : Canon s) : Canon (correctedWord row word s) := h.ite (h.same (by rfl))

theorem Canon.poisonWord {stack w} (h : Canon s) : Canon (poisonWord stack w s) := by
  unfold Machine.poisonWord
  extract_lets
  split
  · exact h.same (by rfl)
  · exact (h.same (by rfl)).ite (h.same (by rfl))

theorem Canon.execHbmScrub {stack word e} (h : Canon s) : CanonOut (execHbmScrub stack word e s) :=
  .ite (.next h) (.ite (.next h.correctedWord) (.next h.poisonWord))

theorem Canon.restorePage {page p} (h : Canon s) : Canon (restorePage page p s) := h.devWrite.same (by rfl)

theorem Canon.uncorrectable {addr op tandem} (h : Canon s) : Canon (uncorrectable addr op tandem s) := by
  unfold Machine.uncorrectable
  extract_lets r s1
  have h1 : Canon s1 := h.withCounts.postEvent
  split
  · split
    · exact h1
    · exact h1.restorePage.withCounts.postEvent.abortIfRunning.ite h1.restorePage.withCounts.postEvent.advanceAll
  · exact h1.abortIfRunning
  · exact (h1.same (by rfl)).abortIfRunning
  · exact h1.stopJob

theorem Canon.reserveRead {b op bad e} (h : Canon s) : Canon (reserveRead b op bad e s) :=
  h.postEvent.ite (h.correctedWord.ite h)

theorem Canon.execHbmReadReturn {addr op e squashed reserve tandem} (h : Canon s) :
    CanonOut (execHbmReadReturn addr op e squashed reserve tandem s) :=
  .ite (.ite (.next h) (.next h.reserveRead))
    (.ite (.ite (.next h) (.next h.uncorrectable)) (.ite (.next h.correctedWord) (.next h)))

/-! ## Tandem pages -/

theorem Canon.sendPages {pages} (h : Canon s) : Canon (sendPages pages s) := h.same (by rfl)

theorem Canon.refreshDone (h : Canon s) : Canon (refreshDone s) := by
  unfold Machine.refreshDone
  split
  · exact h
  · extract_lets
    split
    · exact h.same (by rfl)
    · exact (h.same (by rfl)).endJob.ite (h.same (by rfl))

theorem Canon.execTandemRefresh (h : Canon s) : CanonOut (execTandemRefresh s) := by
  unfold Machine.execTandemRefresh
  refine .ite (.next h) ?_
  extract_lets pages t
  have ht : Canon t := h.sendPages
  exact .next (ht.same (by rfl)).refreshDone

theorem Canon.putTandemStamp {j x} (h : Canon s) : Canon (putTandemStamp j x s) := h.same (by rfl)

theorem Canon.putTandemBytes {j bs} (h : Canon s) : Canon (putTandemBytes j bs s) :=
  { h with tandem := Mem.wf_write _ _ _ _ h.tandem }

theorem Canon.keepPage {step p} (h : Canon s) : Canon (keepPage step p s) :=
  h.putTandemStamp.putTandemBytes.putTandemStamp

theorem Canon.execTandemPageReceive {step p cut} (h : Canon s) : CanonOut (execTandemPageReceive step p cut s) := by
  unfold Machine.execTandemPageReceive
  split
  · exact .next h
  · split
    · exact .next h.putTandemStamp.putTandemBytes
    · exact .next h.keepPage.emit

theorem Canon.ackPage {page} (h : Canon s) : Canon (ackPage page s) := (h.same (by rfl)).foldl fun ht => ht.openInto
theorem Canon.resume (h : Canon s) : Canon (resume s) := (h.same (by rfl)).withStatus
theorem Canon.endRestore (h : Canon s) : Canon (endRestore s) := h.resume.ite h

theorem Canon.endSettling (h : Canon s) : Canon (endSettling s) := by
  unfold Machine.endSettling
  split
  · exact h
  · exact (h.same (by rfl)).ite h

theorem Canon.settleRestore {page p} (h : Canon s) : Canon (settleRestore page p s) :=
  h.restorePage.withCounts.postEvent

theorem Canon.settlePages {stamps restored pages} (h : Canon s) : Canon (settlePages stamps restored pages s) := by
  induction pages generalizing s with
  | nil => exact h
  | cons e pages ih =>
    unfold Machine.settlePages
    extract_lets loc t
    refine ih (?_ : Canon t)
    unfold t
    split
    · exact h.sendPages
    · split
      · exact h.settleRestore
      · exact h
    · exact h
    · exact h

theorem Canon.execPageSettle {tandemStamps restored} (h : Canon s) :
    CanonOut (execPageSettle tandemStamps restored s) := by
  unfold Machine.execPageSettle
  split
  · exact .next h
  · exact .ite (.next h) (.ite (.next h.haltJob) (.ite (.next h) (.next (h.settlePages.same (by rfl)).endSettling)))

end Sys2Proof.Machine
end

section
/-! The Gatehouse, jobs, replicas, recovery and streams keep the canonical form, and so does every step (O59). -/

namespace Sys2Proof.Machine

variable {s : State}

/-! ## The Gatehouse -/

theorem Canon.setChan {c f} (h : Canon s) : Canon (setChan c f s) := h.same (by rfl)
theorem Canon.notePending {j ch producer} (h : Canon s) : Canon (notePending j ch producer s) := h.same (by rfl)

theorem Canon.execSampleRingProducerUpdate {ch producer} (h : Canon s) :
    CanonOut (execSampleRingProducerUpdate ch producer s) := by
  unfold Machine.execSampleRingProducerUpdate
  split
  · exact .next h
  · exact .ite (.next h) (.ite (.next h.stopJob) (.ite (.next h.notePending) (.next h.setChan)))

theorem Canon.execDictionaryLoad (h : Canon s) : CanonOut (execDictionaryLoad s) := by
  unfold Machine.execDictionaryLoad
  split
  · exact .next h
  · split
    · exact .next h
    · extract_lets
      split
      · exact .next h
      · exact .next (h.same (by rfl))

theorem Canon.execSampleDescriptor {ch desc} (h : Canon s) : CanonOut (execSampleDescriptor ch desc s) := by
  unfold Machine.execSampleDescriptor
  split
  · exact .next h
  · exact .ite (.next h.setChan) (.next h)

theorem Canon.execReserveListRecord {ch rec} (h : Canon s) : CanonOut (execReserveListRecord ch rec s) :=
  .ite (.next h.setChan) (.next h)

theorem Canon.execSampleBytesArrive {ch bytes} (h : Canon s) : CanonOut (execSampleBytesArrive ch bytes s) := by
  unfold Machine.execSampleBytesArrive
  extract_lets
  split
  · exact .next h
  · split
    · exact .next h
    · exact .ite (.next h.setChan) (.next h)

theorem Canon.execReserveEntry {ch desc bytes} (h : Canon s) : CanonOut (execReserveEntry ch desc bytes s) := by
  unfold Machine.execReserveEntry
  extract_lets
  split
  · exact .next h
  · split
    · exact .next h
    · exact .ite (.next h.setChan) (.next h)

theorem Canon.countBatch {ch c} (h : Canon s) : Canon (countBatch ch c s) := h.ite (h.same (by rfl))

theorem Canon.completeBatch {j ch} (h : Canon s) : Canon (completeBatch j ch s) := by
  unfold Machine.completeBatch
  extract_lets c t
  have ht : Canon t := by
    unfold t
    split
    · exact h
    · exact h.devWrite
  exact ht.countBatch.setChan

theorem Canon.execBatchComplete {ch} (h : Canon s) : CanonOut (execBatchComplete ch s) := by
  unfold Machine.execBatchComplete
  split
  · exact .next h
  · exact .ite (.next h.completeBatch) (.next h)

theorem Canon.releaseChan {k ch} (h : Canon s) : Canon (releaseChan k s ch) := by
  unfold Machine.releaseChan
  extract_lets
  split
  · exact h
  · exact h.setChan.hostWrite

theorem Canon.releaseBatch {j step} (h : Canon s) : Canon (releaseBatch j step s) := h.foldl fun ht => ht.releaseChan

theorem Canon.writeGhPage {j k} (h : Canon s) : Canon (writeGhPage j k s) := by
  unfold Machine.writeGhPage
  split
  · exact h
  · exact h.devWrite

theorem Canon.execGatehouseStatePage (h : Canon s) : CanonOut (execGatehouseStatePage s) := by
  unfold Machine.execGatehouseStatePage
  split
  · exact .next h
  · split
    · exact .next h
    · exact .ite (.next h.putStamp.writeGhPage.closeStamp) (.next h)

theorem Canon.execBatchRebuild (h : Canon s) : CanonOut (execBatchRebuild s) := by
  unfold Machine.execBatchRebuild
  split
  · exact .next h
  · exact .ite (.next (h.same (by rfl))) (.next h)

/-! ## Core remapping and replay -/

theorem Canon.abandonTest {p} (h : Canon s) : Canon (abandonTest p s) := (h.same (by rfl)).setEntry

theorem Canon.remapCore {p} (h : Canon s) : CanonOpt (remapCore p s) := by
  unfold Machine.remapCore
  extract_lets d t l first
  have ht : Canon t := by
    unfold t
    split
    · exact h.abandonTest
    · exact h
  split
  · exact .none
  · extract_lets u
    have hu : Canon u := ht.setEntry.setEntry
    exact .some (hu.same (by rfl)).withCounts.postEvent

theorem Canon.remapAll {ps} (h : Canon s) : Canon (remapAll ps s) := by
  induction ps generalizing s with
  | nil => exact h.same (by rfl)
  | cons p ps ih =>
    unfold Machine.remapAll
    split
    · next ht => exact ih (h.remapCore.get ht)
    · exact h.haltJob

theorem Canon.rotate (h : Canon s) : Canon (rotate s) := by
  unfold Machine.rotate
  split
  · exact h
  · split
    · exact h
    · split
      · exact h
      · exact h.setEntry.setEntry.same (by rfl)

theorem Canon.execParkedCoreTestDone {core pass} (h : Canon s) : CanonOut (execParkedCoreTestDone core pass s) :=
  .ite (.next h) (.ite (.next (h.same (by rfl)).setEntry) (.next (h.same (by rfl)).setEntry.postEvent))

theorem Canon.beginReplay {j} (h : Canon s) : Canon (beginReplay j s) :=
  h.haltJob.ite (h.withCounts.postEvent.backToStart.same (by rfl)).remapAll

theorem Canon.dropStep {j} (h : Canon s) : CanonOpt (dropStep j s) := by
  unfold Machine.dropStep
  split
  · exact .some h
  · exact .some h
  · exact .some h
  · exact .some h.discardStep
  · exact .some h.discardStep
  · exact .some h.discardStep
  all_goals exact .none

theorem Canon.execStepReplay (h : Canon s) : CanonOut (execStepReplay s) := by
  unfold Machine.execStepReplay
  split
  · exact .next h
  · refine .ite (.next h) ?_
    split
    · next ht => exact .next (h.dropStep.get ht).beginReplay
    · exact .next h

/-! ## The job ring and the start of a job -/

theorem Canon.faultRing (h : Canon s) : Canon (faultRing s) := (h.same (by rfl)).withStatus

theorem Canon.endHeld (h : Canon s) : Canon (endHeld s) := by
  unfold Machine.endHeld
  split
  · exact h
  · exact h.endJob.ite h

theorem Canon.execJobRingProducerUpdate {producer} (h : Canon s) : CanonOut (execJobRingProducerUpdate producer s) :=
  .ite (.next h) (.ite (.next h.faultRing) (.next (h.same (by rfl)).endHeld))

theorem Canon.execJobFetch {f} (h : Canon s) : CanonOut (execJobFetch f s) :=
  .ite (.next h.withStatus) (.ite (.next h) (.next (h.withStatus.same (by rfl)).emit))

theorem Canon.startBank {j} (h : Canon s) : Canon (startBank j s) := h.ite (h.same (by rfl))

theorem Canon.startUnits {j} (h : Canon s) : Canon (startUnits j s) := by
  unfold Machine.startUnits
  extract_lets _ _ _ _ _ t
  have ht : Canon t := { h with start := rfl }
  split
  · exact ht
  · exact ht.initSlots

theorem Canon.placeBias {j} (h : Canon s) : Canon (placeBias j s) := h.same (by rfl)

theorem Canon.startJob {j} (h : Canon s) : Canon (startJob j s) :=
  have ht := (h.same (by rfl)).startBank.startUnits.placeBias.writeGhPage.withStatus.raiseCause
  .ite ht ht.haltJob

theorem Canon.execJobStartBarrier {others} (h : Canon s) : CanonOut (execJobStartBarrier others s) := by
  unfold Machine.execJobStartBarrier
  split
  · exact .next h
  · split
    · exact .next h
    · split
      · exact .next h.endJob
      · exact .next h.startJob

theorem Canon.execAdmissionHeaderUpdate {table hostCount readyOff} (h : Canon s) :
    CanonOut (execAdmissionHeaderUpdate table hostCount readyOff s) := by
  unfold Machine.execAdmissionHeaderUpdate
  split
  · exact .next h
  · split
    · exact .next h
    · exact .next h.devPut.devPut

theorem Canon.takeNotice {code j} (h : Canon s) : Canon (takeNotice code j s) :=
  h.concludeJob.ite (.ite (h.ite h.takeHalt) h.concludeJob)

theorem Canon.execStopNotice {code} (h : Canon s) : CanonOut (execStopNotice code s) := by
  unfold Machine.execStopNotice
  split
  · exact .next h
  · exact .next h.takeNotice

theorem Canon.resumeJob {j} (h : Canon s) : Canon (resumeJob j s) := by
  unfold Machine.resumeJob
  extract_lets
  split
  · exact h.same (by rfl)
  · exact h.same (by rfl)
  · exact h.same (by rfl)
  · exact h.same (by rfl)
  all_goals exact (h.same (by rfl)).beginReplay.ite (h.same (by rfl)).stopJob

theorem Canon.execJobResumeAfterRinkReset (h : Canon s) : CanonOut (execJobResumeAfterRinkReset s) := by
  unfold Machine.execJobResumeAfterRinkReset
  split
  · exact .next h
  · exact .ite (.next h.resumeJob) (.next h)

/-! ## Lodge operations -/

theorem Canon.lodgeLoads {c} (h : Canon s) : Canon (lodgeLoads c s) := h.same (by rfl)
theorem Canon.lodgeEffect {c} (h : Canon s) : Canon (lodgeEffect c s) := h.lodgeLoads.addTally.writeOut

theorem Canon.execLodgeOperation {c} (h : Canon s) : CanonOut (execLodgeOperation c s) :=
  h.runEngine (fun ht => ht.lodgeEffect)

/-! ## Replica reduction -/

theorem Canon.sendChunk {op b w r} (h : Canon s) : Canon (sendChunk op b w s r) := h.feedContribution.ite h.emitAll

theorem Canon.addCarryTile {op b c t} (h : Canon s) : Canon (addCarryTile op b c s t) :=
  h.devWrite.putPresent.addTally

theorem Canon.addCarry {op b} (h : Canon s) : Canon (addCarry op b s) := h.foldl fun ht => ht.addCarryTile
theorem Canon.openCarry {page} (h : Canon s) : Canon (openCarry s page) := h.ite h.putStamp
theorem Canon.copyCarryTile {b c t} (h : Canon s) : Canon (copyCarryTile b c s t) := h.devWrite

theorem Canon.writeCarry {included b} (h : Canon s) : Canon (writeCarry included s b) :=
  (h.clearBits.ite ((h.foldl fun ht => ht.copyCarryTile).devWrite)).devPut

theorem Canon.carryStep {included j} (h : Canon s) : Canon (carryStep included j s) := by
  unfold Machine.carryStep
  extract_lets pages t u
  have ht : Canon t := h.foldl fun ht => ht.openCarry
  have hu : Canon u := ht.foldl fun ht => ht.writeCarry
  exact .ite ((hu.same (by rfl)).foldl fun ht => ht.closeStamp) ht

theorem Canon.settleCarry (h : Canon s) : Canon (settleCarry s) := by
  unfold Machine.settleCarry
  split
  · exact h
  · split
    · exact h
    · split
      · exact h
      · exact h.carryStep.ite (h.same (by rfl))

theorem Canon.settleBuffer {d} (h : Canon s) : Canon (settleBuffer s d) := by
  unfold Machine.settleBuffer
  extract_lets
  split
  · exact h
  · exact h.ite (.ite (h.advanceInto.ite h).sendOwn (h.advanceInto.ite h))

theorem Canon.noteArrival {j r} (h : Canon s) : Canon (noteArrival j s r) := h.ite ((h.same (by rfl)).ite h)

theorem Canon.settleReplica (h : Canon s) : Canon (settleReplica s) := by
  unfold Machine.settleReplica
  split
  · exact h
  · exact .ite ((h.foldl fun ht => ht.noteArrival).foldl fun ht => ht.settleBuffer).settleCarry h

theorem Canon.recordSets {j i} (h : Canon s) : Canon (recordSets j i s) := h.hostWrite.hostWrite.ite h

theorem Canon.publishSets {i} (h : Canon s) : Canon (publishSets i s) := by
  unfold Machine.publishSets
  split
  · exact h
  · exact h.withStatus.recordSets

theorem Canon.useFates (h : Canon s) : Canon (useFates s) :=
  Canon.settleReplica <| h.foldl fun ht => by
    split
    · exact ht
    · exact ht.advanceInto

theorem Canon.formSet (h : Canon s) : Canon (formSet s) := h.ite (h.ite (h.same (by rfl)).publishSets)
theorem Canon.afterVote (h : Canon s) : Canon (afterVote s) := h.formSet.useFates

theorem Canon.takeManifest (h : Canon s) : Canon (takeManifest s) := by
  unfold Machine.takeManifest
  split
  · exact h
  · extract_lets
    split
    · exact h
    · exact .ite (h.stopJob.ite (h.same (by rfl)).publishSets.useFates) h

theorem Canon.execManifestHostCountUpdate {count entries} (h : Canon s) :
    CanonOut (execManifestHostCountUpdate count entries s) := by
  unfold Machine.execManifestHostCountUpdate
  split
  · exact .next h
  · exact .ite (.next (h.same (by rfl)).takeManifest) (.next h)

theorem Canon.setDeadline {j release} (h : Canon s) : Canon (setDeadline j release s) := h.same (by rfl)
theorem Canon.putWeight {r w} (h : Canon s) : Canon (putWeight r w s) := h.same (by rfl)

theorem Canon.contribute {op i b} (h : Canon s) : Canon (contribute op i b s) := by
  unfold Machine.contribute
  extract_lets w t _ u
  have ht : Canon t := (h.addCarry.ite h).putWeight
  have hu : Canon u := (ht.same (by rfl)).endPart
  exact (hu.ite (hu.foldl fun hv => hv.sendChunk)).settleReplica

theorem Canon.execReplicaReduction {op buffer} (h : Canon s) : CanonOut (execReplicaReduction op buffer s) := by
  unfold Machine.execReplicaReduction
  split
  · exact .next h
  · split
    · exact .next h
    · exact .ite (.next h) (.ite (.next h.stall) (.next h.contribute))

theorem Canon.putMine {r one} (h : Canon s) : Canon (putMine r one s) := (h.same (by rfl)).emit
theorem Canon.castVote {r} (h : Canon s) : Canon (castVote r s) := h.ite (h.putMine.ite h)
theorem Canon.putRinkVote {voter r one} (h : Canon s) : Canon (putRinkVote voter r one s) := h.same (by rfl)
theorem Canon.rinkVote {r others} (h : Canon s) : Canon (rinkVote r others s) := h.ite h.putRinkVote.emit.afterVote

theorem Canon.execVote {rink others} (h : Canon s) : CanonOut (execVote rink others s) := by
  unfold Machine.execVote
  split
  · exact .next h
  · exact .ite (.next h.castVote.rinkVote) (.next h)

theorem Canon.execCutoffDeadline (h : Canon s) : CanonOut (execCutoffDeadline s) := by
  unfold Machine.execCutoffDeadline
  split
  · exact .ite (.next (h.foldl fun ht => ht.ite ht.putMine)) (.next h)
  · exact .next h

theorem Canon.execRinkVoteReceive {voter rink one} (h : Canon s) : CanonOut (execRinkVoteReceive voter rink one s) := by
  unfold Machine.execRinkVoteReceive
  split
  · exact .next h
  · exact .ite (.next h.putRinkVote.afterVote) (.next h)

theorem Canon.dropRink {r} (h : Canon s) : Canon (dropRink r s) := h.same (by rfl)

theorem Canon.execLeaveNotice {rink} (h : Canon s) : CanonOut (execLeaveNotice rink s) :=
  .ite (.next h) (.ite (.next h.dropRink.abortStep) (.next (h.same (by rfl))))

theorem Canon.boundarySet (h : Canon s) : Canon (boundarySet s) := h.ite ((h.foldl fun ht => ht.dropRink).same (by rfl))

theorem Canon.repairPages {pages} (h : Canon s) : Canon (repairPages pages s) :=
  ((h.foldl fun ht => (ht.restorePage.same (by rfl))).withCounts).postEvent

theorem Canon.reportMisfits {rs} (h : Canon s) : Canon (reportMisfits rs s) := h.foldl fun ht => ht.postEvent
theorem Canon.checkPassed (h : Canon s) : Canon (checkPassed s) := h.same (by rfl)
theorem Canon.checkAgain {v} (h : Canon s) : Canon (checkAgain v s) := h.checkPassed.ite h

theorem Canon.compareReplicas {rs majority} (h : Canon s) : Canon (compareReplicas rs majority s) := by
  unfold Machine.compareReplicas
  extract_lets
  split
  · exact h.reportMisfits.checkPassed
  · split
    · exact h.reportMisfits.haltJob
    · exact h.reportMisfits.checkPassed.ite h.reportMisfits.repairPages.checkAgain

theorem Canon.execReplicaCheckRecord {records majority} (h : Canon s) :
    CanonOut (execReplicaCheckRecord records majority s) :=
  .ite (.next h) (.next h.compareReplicas)

theorem Canon.settleAfter {d} (h : Canon s) : Canon (settleAfter d s) := h.settleReplica.ite h

theorem Canon.execSegmentArrive {d seg} (h : Canon s) : CanonOut (execSegmentArrive d seg s) := by
  unfold Machine.execSegmentArrive
  split
  · exact .refused
  · exact .next (h.arrive h.segmentIn.settleAfter)

theorem Canon.execCloseArrive {d source c} (h : Canon s) : CanonOut (execCloseArrive d source c s) := by
  unfold Machine.execCloseArrive
  split
  · exact .refused
  · exact .next (h.arrive (h.putWeight.ite h).closeIn.settleAfter)

theorem Canon.execAllGather {g} (h : Canon s) : CanonOut (execAllGather g s) := by
  unfold Machine.execAllGather
  split
  · exact .next (h.arrive h)
  · split
    · exact .refused
    · exact .next (h.arrive h.gatherEffect)

theorem Canon.noteDeadline {op rel} (h : Canon s) : Canon (noteDeadline op rel s) := by
  unfold Machine.noteDeadline
  split
  · exact h
  · exact h.setDeadline.ite h

theorem Canon.execBarrierRelease {op machine release} (h : Canon s) :
    CanonOut (execBarrierRelease op machine release s) :=
  .ite (.next h) (.next ((((h.noteRelease.emit.ite h.noteRelease).noteDeadline).startDump).confirmSnapshot))

theorem Canon.pageAcked {page} (h : Canon s) : Canon (pageAcked page s) :=
  h.ackPage.settleReplica.endRestore.endSettling.refreshDone

theorem Canon.execTandemPageAck {a} (h : Canon s) : CanonOut (execTandemPageAck a s) := by
  unfold Machine.execTandemPageAck
  split
  · exact .next (h.same (by rfl)).endRestore
  · split
    · exact .next h
    · exact .ite (.next h.pageAcked) (.next h)

/-! ## Pauses, adoption and rejoining -/

theorem Canon.pauseJob (h : Canon s) : Canon (pauseJob s) := by
  unfold Machine.pauseJob
  extract_lets
  split
  · exact h
  · split
    · exact h.discardStep.same (by rfl)
    · exact h.discardStep.same (by rfl)
    · exact h.discardStep.same (by rfl)
    all_goals exact h

theorem Canon.reportLost {fresh} (h : Canon s) : Canon (reportLost fresh s) :=
  .ite (h.withStatus.foldl fun ht => ht.postEvent).raiseCause (h.withStatus.foldl fun ht => ht.postEvent)

theorem Canon.pauseLeave (h : Canon s) : Canon (pauseLeave s) := (h.same (by rfl)).leaveRink.ite h

theorem Canon.pauseFor {lost} (h : Canon s) : Canon (pauseFor lost s) := by
  unfold Machine.pauseFor
  extract_lets
  split
  · exact h
  · split
    · exact (h.same (by rfl)).pauseJob.reportLost.haltJob
    · exact (h.same (by rfl)).pauseJob.reportLost.pauseLeave

theorem Canon.execModuleLost {lost} (h : Canon s) : CanonOut (execModuleLost lost s) :=
  .ite (.next h) (.next h.emit.pauseFor)

theorem Canon.execPause {lost} (h : Canon s) : CanonOut (execPause lost s) := .ite (.next h) (.next h.pauseFor)

theorem Canon.execRecoveryWaitExpiry (h : Canon s) : CanonOut (execRecoveryWaitExpiry s) :=
  .ite (.next h) (.next h.haltJob)

theorem Canon.noteAdoption {c} (h : Canon s) : Canon (noteAdoption c s) := h.withCounts.postEvent

theorem Canon.joinStandby {j a} (h : Canon s) : Canon (joinStandby j a s) := by
  unfold Machine.joinStandby
  extract_lets _ t
  have ht : Canon t := (h.same (by rfl)).startBank.startUnits.placeBias.raiseCause.noteAdoption
  clear_value t
  exact (ht.same (by rfl)).withStatus

theorem Canon.joinLive {a} (h : Canon s) : Canon (joinLive a s) := (h.same (by rfl)).noteAdoption

theorem Canon.execAdoptionJoin {a} (h : Canon s) : CanonOut (execAdoptionJoin a s) := by
  unfold Machine.execAdoptionJoin
  split
  · exact .next h
  · split
    · exact .next h
    · split
      · exact .next h.postEvent
      · split
        · exact .next h
        · split
          · exact .next h.endJob
          · exact .next (h.joinStandby.ite h.joinLive)

theorem Canon.sendKept (h : Canon s) : Canon (sendKept s) := h.same (by rfl)

theorem Canon.restoreOwn {pages} (h : Canon s) : Canon (restoreOwn pages s) :=
  h.foldl fun ht => by
    split
    · exact ht.settleRestore
    · exact ht

theorem Canon.ackRestored {pages} (h : Canon s) : Canon (ackRestored pages s) := h.emitAll
theorem Canon.keepAll {pages} (h : Canon s) : Canon (keepAll pages s) := h.foldl fun ht => ht.keepPage.emit

theorem Canon.execTandemRestore {role} (h : Canon s) : CanonOut (execTandemRestore role s) := by
  unfold Machine.execTandemRestore
  split
  · exact .next h
  · split
    · exact .next (((Canon.ite (h.sendKept.ite h).sendPages (h.sendKept.ite h)).same (by rfl)).endRestore)
    · exact .ite (.next h.restoreOwn.ackRestored.keepAll.resume) (.next h)

theorem Canon.addJoin {r step} (h : Canon s) : Canon (addJoin r step s) := h.same (by rfl)

theorem Canon.execRejoinRequest {rink named} (h : Canon s) : CanonOut (execRejoinRequest rink named s) := by
  unfold Machine.execRejoinRequest
  split
  · exact .next h
  · split
    · exact .next h.addJoin
    · exact .ite (.ite (.next h.emit) (.next h)) (.ite (.next h.addJoin.emit) (.next h))

theorem Canon.clearCarry {j} (h : Canon s) : Canon (clearCarry j s) :=
  h.foldl fun ht => ht.foldl fun hu => hu.clearBits.devPut

theorem Canon.rejoinAt {j step pages} (h : Canon s) : Canon (rejoinAt j step pages s) := by
  unfold Machine.rejoinAt
  extract_lets t _ _ _ _ u
  have ht : Canon t := h.restoreOwn.clearCarry
  have hu : Canon u := (ht.same (by rfl)).sendPages
  clear_value u
  exact (hu.same (by rfl)).postEvent

theorem Canon.execRejoinStateTransfer {step pages} (h : Canon s) : CanonOut (execRejoinStateTransfer step pages s) := by
  unfold Machine.execRejoinStateTransfer
  split
  · exact .next h
  · exact .ite (.next h.rejoinAt) (.next h)

theorem Canon.execMarshalBeat {index} (h : Canon s) : CanonOut (execMarshalBeat index s) :=
  .ite (.ite (.next h.emit) (.next h)) (.ite (.next (h.same (by rfl))) (.next h))

theorem Canon.promote (h : Canon s) : Canon (promote s) := (h.same (by rfl)).emit.ite (h.same (by rfl)).emit.emit.pauseFor

theorem Canon.execMarshalPromotion {silenceUs} (h : Canon s) : CanonOut (execMarshalPromotion silenceUs s) :=
  .ite (.next h.promote) (.next h)

theorem Canon.execControllerBTakeover {silenceUs} (h : Canon s) : CanonOut (execControllerBTakeover silenceUs s) :=
  .ite (.next (h.same (by rfl))) (.next h)

/-! ## Step start, commit and dumps -/

theorem Canon.setPhase {p} (h : Canon s) : Canon (setPhase p s) := h.same (by rfl)
theorem Canon.takeTable {j r} (h : Canon s) : Canon (takeTable j s r) := h.devPut
theorem Canon.takeRecords {j} (h : Canon s) : Canon (takeRecords j s) := (h.foldl fun ht => ht.takeTable).same (by rfl)
theorem Canon.waitInput (h : Canon s) : Canon (waitInput s) := h.ite h.withCounts.withStatus
theorem Canon.endCommands (h : Canon s) : Canon (endCommands s) := { h with ctl := rfl }
theorem Canon.freshStores (h : Canon s) : Canon (freshStores s) := { h with scratch := rfl, drain := rfl }

theorem Canon.beginStep (h : Canon s) : Canon (beginStep s) :=
  (h.withStatus.endCommands.keepStart.same (by rfl)).seedLanes.clearPresence.freshStores.setPhase

theorem Canon.startStep {j} (h : Canon s) : Canon (startStep j s) := by
  unfold Machine.startStep
  split
  · exact h.beginStep.takeManifest
  · split
    · exact h.stopJob
    · exact h.takeRecords.beginStep.takeManifest

theorem Canon.execStepStart (h : Canon s) : CanonOut (execStepStart s) := by
  unfold Machine.execStepStart
  split
  · exact .next h
  · split
    · exact .next h
    · extract_lets
      split
      · exact .next h.boundarySet.stopJob
      · exact .ite (.next h.boundarySet.startStep) (.next h.boundarySet.waitInput)

theorem Canon.remapRows (h : Canon s) : Canon (remapRows s) := (h.foldl fun ht => ht.remapRow).same (by rfl)
theorem Canon.rotateAt {j step} (h : Canon s) : Canon (rotateAt j step s) := h.rotate.ite h
theorem Canon.feedJoiners {next} (h : Canon s) : Canon (feedJoiners next s) := h.ite h.emitAll
theorem Canon.passRole (h : Canon s) : Canon (passRole s) := h.same (by rfl)

theorem Canon.publishOwn (h : Canon s) : Canon (publishOwn s) := by
  unfold Machine.publishOwn
  split
  · exact h
  · split
    · exact h
    · exact h.publishSets

theorem Canon.commitUnits {j} (h : Canon s) : Canon (commitUnits j s) := by
  unfold Machine.commitUnits
  extract_lets step t _ _ _ _ u
  have ht : Canon t := h.publishOwn.endCommands.releaseBatch
  have hu : Canon u := { ht with start := rfl }
  exact hu.emit.ite hu

theorem Canon.atBoundary {j step waitBp} (h : Canon s) : Canon (atBoundary j step waitBp s) := by
  unfold Machine.atBoundary
  extract_lets t
  have ht : Canon t := h.remapRows.rotateAt.paceRinkEval.feedJoiners.passRole
  exact ht.withStatus

theorem Canon.execCommitBarrier {waitBp} (h : Canon s) : CanonOut (execCommitBarrier waitBp s) := by
  unfold Machine.execCommitBarrier
  split
  · exact .next h
  · exact .ite (.next h.commitUnits.atBoundary) (.next h)

theorem Canon.execCutPointReached (h : Canon s) : CanonOut (execCutPointReached s) := by
  unfold Machine.execCutPointReached
  split
  · exact .next h
  · exact .ite (.next (Canon.emit { h with ctl := List.all_map.trans h.ctl })) (.next h)

theorem Canon.wf_rangeSpans (h : Canon s) {dst : Nat} {rs : List Range} {p : DumpSpan}
    (hp : p ∈ rangeSpans s dst rs) : Mem.wf 0 p.store = true := by
  induction rs generalizing dst with
  | nil => cases hp
  | cons r rs ih =>
    obtain rfl | hp := List.mem_cons.mp hp
    · exact h.dev
    · exact ih hp

theorem Canon.wf_dumpSpans (h : Canon s) {d : BitVec 2048} {p : DumpSpan} (hp : p ∈ dumpSpans s d) :
    Mem.wf 0 p.store = true := by
  simp only [dumpSpans, List.mem_append, List.mem_map] at hp
  obtain (⟨c, -, rfl⟩ | ⟨c, -, rfl⟩) | hp := hp
  · exact h.scratch
  · exact h.drain
  · exact h.wf_rangeSpans hp

theorem wf_dumpSpan {base limit : Nat} {m : Mem} {p : DumpSpan} (hm : Mem.wf 0 m = true)
    (hp : Mem.wf 0 p.store = true) : Mem.wf 0 (dumpSpan base limit m p) = true := by
  unfold dumpSpan
  split
  · exact Mem.wf_copy _ _ _ _ _ _ hp hm
  · exact hm

theorem Canon.writeDump {j limit complete} (h : Canon s) : Canon (writeDump j limit complete s) := by
  unfold Machine.writeDump
  extract_lets a m
  have hm : Mem.wf 0 m = true :=
    List.foldlRecOn (motive := fun m => Mem.wf 0 m = true) _ _ h.hostMem
      fun _ hm _ hp => wf_dumpSpan hm (h.wf_dumpSpans hp)
  clear_value m
  exact Canon.hostWrite { h with hostMem := hm }

theorem Canon.holdAtCut {j} (h : Canon s) : Canon (holdAtCut j s) := (h.same (by rfl)).withStatus.raiseCause

theorem Canon.execCutDump {upTo} (h : Canon s) : CanonOut (execCutDump upTo s) := by
  unfold Machine.execCutDump
  split
  · exact .next h
  · split
    · exact .next h
    · split
      · exact .next h.writeDump
      · exact .next h.writeDump.holdAtCut.endHeld

/-! ## Stream operations -/

theorem Canon.writeElems {op out vals rests} (h : Canon s) : Canon (writeElems op out vals rests s) := h.writeOut

theorem Canon.writeRowOuts {op outs rows} (h : Canon s) : Canon (writeRowOuts op outs rows s) := by
  induction outs generalizing s rows with
  | nil => exact h
  | cons out outs ih => exact ih h.writeOut

theorem Canon.writeFlags {flags es} (h : Canon s) : Canon (writeFlags flags es s) := by
  unfold Machine.writeFlags
  split
  · exact h
  · exact h.locWrite

theorem Canon.drawRows {ctx dE dR lens} (h : Canon s) : Canon (drawRows ctx dE dR lens s).2 := h.same (by rfl)

theorem Canon.elementRow {ctx n own dOut ins} (h : Canon s) : Canon (elementRow ctx n own dOut ins s).2 :=
  (h.same (by rfl)).addTally

theorem Canon.runEw {ctx f ins out} (h : Canon s) : Canon (runEw ctx f ins out s) :=
  (h.same (by rfl)).addTally.writeMask.ite (h.same (by rfl)).addTally.writeElems

theorem Canon.runMaskLogic {f n a b out} (h : Canon s) : Canon (runMaskLogic f n a b out s) := h.writeMask

theorem Canon.runSelect {ctx mask a b out} (h : Canon s) : Canon (runSelect ctx mask a b out s) :=
  (h.same (by rfl)).addTally.writeElems

theorem Canon.runFunc {ctx f deriv x out} (h : Canon s) : Canon (runFunc ctx f deriv x out s) :=
  (h.same (by rfl)).addTally.writeElems

theorem Canon.runReduce {ctx f x lens mask out flags} (h : Canon s) :
    Canon (runReduce ctx f x lens mask out flags s) :=
  have hrows := h.drawRows.addTally
  (hrows.writeU32s.ite hrows.writeRowOuts).writeFlags

theorem Canon.runTopk {ctx k x lens mask vals pos} (h : Canon s) : Canon (runTopk ctx k x lens mask vals pos s) :=
  (h.same (by rfl)).addTally.writeRowOuts.writeU32s

theorem Canon.runScan {ctx f incl x lens mask out} (h : Canon s) : Canon (runScan ctx f incl x lens mask out s) :=
  (h.same (by rfl)).addTally.writeElems

theorem Canon.writeOptElems {op out vals rests} (h : Canon s) : Canon (writeOptElems op out vals rests s) := by
  unfold Machine.writeOptElems
  split
  · exact h
  · exact h.writeElems

theorem Canon.runSoftmax {ctx x lens mask out lse m sm} (h : Canon s) :
    Canon (runSoftmax ctx x lens mask out lse m sm s) :=
  (h.same (by rfl)).addTally.writeOptElems.writeRowOuts

theorem Canon.runNorm {ctx layer x gamma beta eps lens mask out mu r flags} (h : Canon s) :
    Canon (runNorm ctx layer x gamma beta eps lens mask out mu r flags s) :=
  (h.same (by rfl)).addTally.writeElems.writeRowOuts.writeFlags

theorem Canon.runSoftmaxBack {ctx lse x dy dl lens mask out} (h : Canon s) :
    Canon (runSoftmaxBack ctx lse x dy dl lens mask out s) :=
  (h.same (by rfl)).addTally.writeElems

theorem Canon.writeFeatures {ctx outs} (h : Canon s) : Canon (writeFeatures ctx outs s) := (h.same (by rfl)).writeRowOuts

theorem Canon.runNormBack {ctx layer x dy gamma eps lens mask dx dgamma dbeta} (h : Canon s) :
    Canon (runNormBack ctx layer x dy gamma eps lens mask dx dgamma dbeta s) :=
  (h.same (by rfl)).addTally.writeElems.writeFeatures

theorem Canon.runFeatureSum {ctx x features mask out} (h : Canon s) : Canon (runFeatureSum ctx x features mask out s) :=
  (h.same (by rfl)).addTally.writeFeatures

theorem Canon.runDropout {ctx theta scale x out maskOut} (h : Canon s) :
    Canon (runDropout ctx theta scale x out maskOut s) := by
  unfold Machine.runDropout
  split
  next es t ht =>
  extract_lets keep u
  have hu : Canon u := (h.elementRow.of_pair ht).writeElems
  split
  · exact hu
  · exact hu.writeMask

theorem Canon.runUniformBits {ctx n out} (h : Canon s) : Canon (runUniformBits ctx n out s) :=
  (h.same (by rfl)).addTally.writeU32s

theorem Canon.runUniform {ctx n out} (h : Canon s) : Canon (runUniform ctx n out s) := (h.same (by rfl)).addTally.writeElems
theorem Canon.runNormal {ctx n out} (h : Canon s) : Canon (runNormal ctx n out s) := (h.same (by rfl)).addTally.writeElems

theorem Canon.runNormalFma {ctx sigma x out} (h : Canon s) : Canon (runNormalFma ctx sigma x out s) :=
  (h.same (by rfl)).addTally.writeElems

theorem Canon.runGather {ctx addrs x out} (h : Canon s) : Canon (runGather ctx addrs x out s) :=
  (h.same (by rfl)).addTally.writeElems

theorem Canon.placeElems {t as bs es} (h : Canon s) : Canon (placeElems t as bs es s) := by
  induction as, bs, es, s using placeElems.induct t with
  | case1 a as b bs e es s v u ih =>
    unfold Machine.placeElems
    apply ih
    split
    · exact h.locWrite
    · exact h.locWrite.locWrite
  | case2 as bs es s hshort =>
    rw [Machine.placeElems]
    · exact h
    · exact hshort

theorem Canon.runScatter {ctx addrs x out} (h : Canon s) : Canon (runScatter ctx addrs x out s) :=
  (h.same (by rfl)).addTally.placeElems.addTally

theorem Canon.addElem {t a x} (h : Canon s) : Canon (addElem t a x s) := h.locWrite

theorem Canon.runScatterAdd {ctx addrs x out} (h : Canon s) : Canon (runScatterAdd ctx addrs x out s) :=
  (h.same (by rfl)).addTally.foldl fun ht => ht.addElem

theorem Canon.runPool {ctx mx inclusive x window out flags} (h : Canon s) :
    Canon (runPool ctx mx inclusive x window out flags s) :=
  (h.same (by rfl)).addTally.writeRowOuts.writeFlags

theorem Canon.runStream {ctx o} (h : Canon s) : Canon (runStream ctx o s) := by
  unfold Machine.runStream
  split
  · exact h.runEw
  · exact h.runMaskLogic
  · exact h.runSelect
  · exact h.runFunc
  · exact h.runReduce
  · exact h.runTopk
  · exact h.runScan
  · exact h.runSoftmax
  · exact h.runNorm
  · exact h.runSoftmaxBack
  · exact h.runNormBack
  · exact h.runFeatureSum
  · exact h.runDropout
  · exact h.runUniformBits
  · exact h.runUniform
  · exact h.runNormal
  · exact h.runNormalFma
  · exact h.runGather
  · exact h.runScatter
  · exact h.runScatterAdd
  · exact h.runPool

theorem Canon.execStreamOperation {c} (h : Canon s) : CanonOut (execStreamOperation c s) :=
  h.runEngine (fun ht => ht.runStream)

/-! ## Every command -/

theorem Canon.exec {i} (h : Canon s) : CanonOut (exec i s) := by
  unfold Machine.exec
  split
  · exact h.execMgtRegisterWrite
  · exact h.execMgtRingJobCtrlWrite
  · exact h.execMgtIntStatusClear
  · exact h.execMgtIntEnableWrite
  · exact h.execFlashProgram
  · exact h.execAttest
  · exact h.execHealthSweep
  · exact h.execSiteAmend
  · exact h.execJobAbort
  · exact h.execBankLoad
  · exact h.execLifecycle
  · exact h.execIdentityBarrierRelease
  · exact h.execIdentityBarrierTimeout
  · exact h.execSbIdent
  · exact h.execSbState
  · exact h.execSbTemp
  · exact h.execSbStackTemp
  · exact h.execSbPower
  · exact h.execSbVolt
  · exact h.execSbCause
  · exact h.execSbResetWarm
  · exact h.execSbResetRink
  · exact h.execSbWriteRejected
  · exact h.execJobRingProducerUpdate
  · exact h.execJobFetch
  · exact h.execJobStartBarrier
  · exact h.execSampleRingProducerUpdate
  · exact h.execManifestHostCountUpdate
  · exact h.execAdmissionHeaderUpdate
  · exact h.execCxlMemWrite
  · exact h.execCxlMemRead
  · exact h.execCxlLinkTrained
  · exact h.execStatusRecordTelemetry
  · exact h.execTelemetryRefresh
  · exact h.execPowerGood
  · exact h.execPowerOnReset
  · exact h.execInputLockout
  · exact h.execInputOvervoltageStop
  · exact h.execInputOutOfRange
  · exact h.execOvercurrent
  · exact h.execPerstAssert
  · exact h.execPerstRelease
  · exact h.execWarmReset
  · exact h.execRinkResetFlood
  · exact h.execStepAbortUnanswered
  · exact h.execJobResumeAfterRinkReset
  · exact h.execReferenceClockLoss
  · exact h.execThermalTrip
  · exact h.execThermalTripCooled
  · exact h.execBootRom
  · exact h.execFlashSelect
  · exact h.execRailsUp
  · exact h.execBootSelfTest
  · exact h.execHbmInit
  · exact h.execRuntimeLoad
  · exact h.execRinkFormation
  · exact h.execRinkFormationRetry
  · exact h.execPageSettle
  · exact h.execCapRuleEval
  · exact h.execWaveWithholdPeriod
  · exact h.execPaceDomainEval
  · exact h.execThermalCeilingEval
  · exact h.execDomainVoltageStep
  · exact h.execRegulatorCheck
  · exact h.execTempSensorCheck
  · exact h.execInputMonitorCheck
  · exact h.execLaserMonitorCheck
  · exact h.execHbmRefresh
  · exact h.execHbmScrub
  · exact h.execTimebaseUnsync
  · exact h.execTimeRootTakeover
  · exact h.execTimeRead
  · exact h.execPortFrameReceive
  · exact h.execNack
  · exact h.execCredit
  · exact h.execPacketInject
  · exact h.execPacketForward
  · exact h.execPacketDeliver
  · exact h.execBeat
  · exact h.execBeatReceive
  · exact h.execPortDownTimeout
  · exact h.execDownNotice
  · exact h.execSwapCondition
  · exact h.execSwap
  · exact h.execSwapSwitch
  · exact h.execPortBringup
  · exact h.execBringupPhaseTimeout
  · exact h.execIdent
  · exact h.execCalibration
  · exact h.execAllGather
  · exact h.execReduceScatter
  · exact h.execAllReduce
  · exact h.execBroadcast
  · exact h.execBarrier
  · exact h.execBarrierRelease
  · exact h.execConsistentSnapshot
  · exact h.execReplicaReduction
  · exact h.execCutoffDeadline
  · exact h.execVote
  · exact h.execRinkVoteReceive
  · exact h.execLeaveNotice
  · exact h.execRejoinRequest
  · exact h.execRejoinStateTransfer
  · exact h.execReplicaCheckRecord
  · exact h.execStopNotice
  · exact h.execModuleLost
  · exact h.execPause
  · exact h.execRecoveryWaitExpiry
  · exact h.execAdoptionJoin
  · exact h.execTandemRestore
  · exact h.execMarshalBeat
  · exact h.execMarshalPromotion
  · exact h.execControllerBTakeover
  · exact h.execSegmentArrive
  · exact h.execCloseArrive
  · exact h.execUpdateOperation
  · exact h.execOpenedSignal
  · exact h.execPageDoneSignal
  · exact h.execTandemRefresh
  · exact h.execTandemPageReceive
  · exact h.execTandemPageAck
  · exact h.execHbmReadReturn
  · exact h.execStepStart
  · exact h.execCommitBarrier
  · exact h.execStepReplay
  · exact h.execCutPointReached
  · exact h.execCutDump
  · exact h.execParkedCoreTestDone
  · exact h.execEngineCommandIssue
  · exact h.execTrellisWave
  · exact h.execTileLoad
  · exact h.execTileSwap
  · exact h.execDrainResult
  · exact h.execStreamOperation
  · exact h.execWindowGather
  · exact h.execLodgeOperation
  · exact h.execGroomedStore
  · exact h.execGroomedLoad
  · exact h.execHaloSend
  · exact h.execHaloReady
  · exact h.execHaloAck
  · exact h.execBranchMispredict
  · exact h.execSpeculativeLoadRetire
  · exact h.execHbmResponseDropped
  · exact h.execCvSelect
  · exact h.execCvFeed
  · exact h.execCvRead
  · exact h.execFusedAttention
  · exact h.execAttentionBackward
  · exact h.execWalkerSnapshot
  · exact h.execSnapshotRelease
  · exact h.execAdmission
  · exact h.execAppend
  · exact h.execRelease
  · exact h.execCachePublish
  · exact h.execDictionaryLoad
  · exact h.execSampleDescriptor
  · exact h.execSampleBytesArrive
  · exact h.execReserveListRecord
  · exact h.execReserveEntry
  · exact h.execBatchComplete
  · exact h.execGatehouseStatePage
  · exact h.execBatchRebuild
  · exact h.execHeldSweepStart
  · exact h.execMgtCmdRejected
  · exact h.execDownNoticeWithdrawn
  · exact h.execSmbusBusTimeout

/-! ## Every step -/

theorem Canon.step (h : Canon s) : CanonOut (step s) := by
  unfold Machine.step
  split
  · exact CanonOut.retryAll (h.tick.same (by rfl)) fun ht => ht.exec
  · exact (h.same (by rfl)).exec

/-- Settles O59: the step function is a composition of functions that each keep every byte store's canonical form. -/
theorem canonicalStoresStay : Obligations.CanonicalStoresStay := by
  unfold Obligations.CanonicalStoresStay
  intro s t h ht
  exact (canonical_iff t).mpr (((canonical_iff s).mp h).step.of_next ht)

end Sys2Proof.Machine
end

section
/-! Device memory as the host reaches it (O19). -/

namespace Sys2Proof.Machine

/-! ## Ranges that an access touches -/

theorem inRange_iff (r : Range) (a : Nat) : inRange r a = true ↔ r.base ≤ a ∧ a < r.base + r.len := by
  simp [inRange]

/-- An access and a range overlap where the range holds a byte of the access. -/
theorem overlaps_iff (r : Range) (a n : Nat) : overlaps r a n = true ↔ ∃ i, i < n ∧ inRange r (a + i) = true := by
  simp only [overlaps, decide_eq_true_eq, inRange_iff]
  constructor
  · intro h
    exact ⟨max a r.base - a, by omega, by omega, by omega⟩
  · rintro ⟨i, hi, hbase, hend⟩
    omega

theorem any_overlaps_iff (rs : List Range) (a n : Nat) :
    (rs.any fun r => overlaps r a n) = true ↔ ∃ i, i < n ∧ inRanges rs (a + i) = true := by
  simp only [List.any_eq_true, overlaps_iff, inRanges]
  exact ⟨fun ⟨r, hr, i, hi, h⟩ => ⟨i, hi, r, hr, h⟩, fun ⟨i, hi, r, hr, h⟩ => ⟨r, hr, i, hi, h⟩⟩

/-! ## The running job's bytes -/

/-- A byte that the running job owns (R368). -/
def ownedByJob (s : State) (a : Nat) : Bool :=
  match s.job with
  | none => false
  | some j => inRanges (jobOwned s j) a

theorem ownedByJob_of_none {s : State} (h : s.job = none) (a : Nat) : ownedByJob s a = false := by
  simp [ownedByJob, h]

theorem ownedByJob_of_job {s : State} {j : Job} (h : s.job = some j) (a : Nat) :
    ownedByJob s a = inRanges (jobOwned s j) a := by
  simp [ownedByJob, h]

/-! ## Bytes written one by one -/

/-- Of the state only the bytes of device memory and their poison marks may have changed. -/
def DevOnly (s t : State) : Prop := t = { s with hbm := { s.hbm with dev := t.hbm.dev, poison := t.hbm.poison } }

theorem writeOutside_devOnly (rs : List Range) (a : Nat) (bs : List Byte) (s : State) :
    DevOnly s (writeOutside rs a bs s) := by
  induction bs generalizing a s with
  | nil => rfl
  | cons b bs ih =>
    rw [writeOutside]
    split
    · exact ih (a + 1) s
    · have h := ih (a + 1) (devWrite a [b] s)
      rw [DevOnly] at h ⊢
      rw [h]
      rfl

/-- A byte that is written or discarded leaves every other byte alone. -/
theorem ite_devWrite_other (c : Prop) [Decidable c] {a b : Nat} (hb : b ≠ a) (x : Byte) (s : State) :
    Mem.get 0 (if c then s else devWrite a [x] s).hbm.dev b = Mem.get 0 s.hbm.dev b := by
  split
  · rfl
  · exact Mem.get_write_other 0 _ a [x] b (by simp only [List.length_cons, List.length_nil]; omega)

theorem writeOutside_dev_other (rs : List Range) {a b : Nat} {bs : List Byte} (h : b < a ∨ a + bs.length ≤ b)
    (s : State) : Mem.get 0 (writeOutside rs a bs s).hbm.dev b = Mem.get 0 s.hbm.dev b := by
  induction bs generalizing a s with
  | nil => rfl
  | cons x bs ih =>
    simp only [List.length_cons] at h
    rw [writeOutside, ih (by omega), ite_devWrite_other _ (by omega)]

theorem writeOutside_dev (rs : List Range) (a : Nat) {bs : List Byte} {i : Nat} (hi : i < bs.length) (s : State) :
    Mem.get 0 (writeOutside rs a bs s).hbm.dev (a + i) =
      if inRanges rs (a + i) then Mem.get 0 s.hbm.dev (a + i) else bs.getD i 0 := by
  induction bs generalizing a i s with
  | nil => cases hi
  | cons x bs ih =>
    rw [writeOutside]
    cases i with
    | zero =>
      simp only [Nat.add_zero]
      rw [writeOutside_dev_other rs (Or.inl (Nat.lt_add_one a))]
      split
      · rfl
      · exact Mem.get_write_same 0 s.hbm.dev a [x] 0 Nat.one_pos
    | succ i =>
      rw [show a + (i + 1) = a + 1 + i by omega, ih (a + 1) (Nat.lt_of_succ_lt_succ hi), List.getD_cons_succ,
        ite_devWrite_other _ (by omega)]

/-! ## The event of a discarded write -/

theorem postEvent_eq (code : U16) (op : U32) (detail : U16) (loc : U64) (s : State) :
    postEvent code op detail loc s = { s with
      status := (postEvent code op detail loc s).status
      hostMem := (postEvent code op detail loc s).hostMem } := by
  simp only [postEvent, withStatus, postStatus, Machine.hostWrite]
  split <;> rfl

/-- An event stands in the status record under its place in the ring of 32 (R375). -/
theorem postEvent_entry {code : U16} (hcode : code ≠ 0) (op : U32) (detail : U16) (loc : U64) (s : State) :
    SMap.get Event.none (postEvent code op detail loc s).status.events (s.status.eventCount.toNat % 32) =
      ⟨s.time.value, s.status.step, op, code, detail, loc⟩ := by
  have hne : (⟨s.time.value, s.status.step, op, code, detail, loc⟩ : Event) ≠ Event.none :=
    fun h => hcode (congrArg Event.code h)
  simp only [postEvent, withStatus_status, StatusRec.addEvent, SMap.set, if_neg hne]
  exact SMap.get_put_same ..

/-- What the host's write leaves where a byte of it is the job's. -/
def discardedWrite (rs : List Range) (addr : Nat) (data : List Byte) (s : State) : State :=
  postEvent Code.hostWrite noOp 0 (BitVec.ofNat 64 addr)
    (withCounts (fun c => { c with writesDiscarded := satInc c.writesDiscarded 1 })
      (clearOutside rs addr data.length (writeOutside rs addr data s)))

theorem discardedWrite_dev (rs : List Range) (addr : Nat) (data : List Byte) (s : State) :
    (discardedWrite rs addr data s).hbm.dev = (writeOutside rs addr data s).hbm.dev := by
  simp [discardedWrite, clearOutside]

theorem discardedWrite_frame (rs : List Range) (addr : Nat) (data : List Byte) (s : State) :
    discardedWrite rs addr data s = { s with
      hbm := { s.hbm with
        dev := (discardedWrite rs addr data s).hbm.dev
        poison := (discardedWrite rs addr data s).hbm.poison }
      status := (discardedWrite rs addr data s).status
      hostMem := (discardedWrite rs addr data s).hostMem } := by
  have h := writeOutside_devOnly rs addr data s
  generalize hu : writeOutside rs addr data s = u at h
  rw [discardedWrite, hu, h, postEvent_eq]
  rfl

theorem discardedWrite_status (rs : List Range) (addr : Nat) (data : List Byte) (s : State) :
    let t := discardedWrite rs addr data s
    t.status.counts = { s.status.counts with writesDiscarded := satInc s.status.counts.writesDiscarded 1 } ∧
    t.status.eventCount = s.status.eventCount + 1 ∧
    SMap.get Event.none t.status.events (s.status.eventCount.toNat % 32) =
      ⟨s.time.value, s.status.step, noOp, Code.hostWrite, 0, BitVec.ofNat 64 addr⟩ := by
  have h := writeOutside_devOnly rs addr data s
  generalize hu : writeOutside rs addr data s = u at h
  have hstatus : u.status = s.status := by rw [h]
  have htime : u.time = s.time := by rw [h]
  simp only [discardedWrite, hu]
  refine ⟨?_, ?_, ?_⟩
  · rw [(postEvent_status ..).1]
    exact congrArg (fun r => { r.counts with writesDiscarded := satInc r.counts.writesDiscarded 1 }) hstatus
  · rw [(postEvent_status ..).2]
    exact congrArg (fun r => r.eventCount + 1) hstatus
  · have hentry := postEvent_entry (code := Code.hostWrite) (by decide) noOp 0 (BitVec.ofNat 64 addr)
      (withCounts (fun c => { c with writesDiscarded := satInc c.writesDiscarded 1 })
        (clearOutside rs addr data.length u))
    simpa [withCounts, clearOutside, hstatus, htime] using hentry

/-! ## The host's write and read -/

section
variable {s : State} {addr : Nat}

theorem exec_cxlMemWrite_free {data : List Byte} (hup : memUp s = true) (htop : addr + data.length ≤ devTop)
    (hdec : addr + data.length ≤ s.link.decoder) (h : ∀ i, i < data.length → ownedByJob s (addr + i) = false) :
    exec (.cxlMemWrite addr data) s = .next (devWrite addr data s) := by
  change execCxlMemWrite addr data s = _
  rw [execCxlMemWrite, if_neg (not_not_intro hup), if_neg (by omega)]
  cases hj : s.job with
  | none => rfl
  | some j =>
    refine if_neg fun hany => ?_
    obtain ⟨i, hi, hin⟩ := (any_overlaps_iff _ _ _).mp hany
    rw [← ownedByJob_of_job hj, h i hi] at hin
    exact Bool.false_ne_true hin

theorem exec_cxlMemWrite_owned {data : List Byte} (hup : memUp s = true) (htop : addr + data.length ≤ devTop)
    (hdec : addr + data.length ≤ s.link.decoder) {j : Job} (hj : s.job = some j)
    (h : ∃ i, i < data.length ∧ ownedByJob s (addr + i) = true) :
    exec (.cxlMemWrite addr data) s = .next (discardedWrite (jobOwned s j) addr data s) := by
  simp only [ownedByJob_of_job hj] at h
  change execCxlMemWrite addr data s = _
  rw [execCxlMemWrite, if_neg (not_not_intro hup), if_neg (by omega), hj]
  exact if_pos ((any_overlaps_iff _ _ _).mpr h)

theorem exec_cxlMemWrite_outside {data : List Byte} (hup : memUp s = true)
    (h : devTop < addr + data.length ∨ s.link.decoder < addr + data.length) :
    exec (.cxlMemWrite addr data) s = .fault .outsideDevice := by
  change execCxlMemWrite addr data s = _
  rw [execCxlMemWrite, if_neg (not_not_intro hup), if_pos h]

theorem exec_cxlMemRead {len : Nat} (hup : memUp s = true) (htop : addr + len ≤ devTop)
    (hdec : addr + len ≤ s.link.decoder) :
    exec (.cxlMemRead addr len) s = .next { s with
      free := s.free + 1
      link := { s.link with readData := (upFrom addr len).map (readByte s s.free) } } := by
  change execCxlMemRead addr len s = _
  rw [execCxlMemRead, if_neg (not_not_intro hup), if_neg (by omega)]
  rfl

theorem exec_cxlMemRead_outside {len : Nat} (hup : memUp s = true)
    (h : devTop < addr + len ∨ s.link.decoder < addr + len) :
    exec (.cxlMemRead addr len) s = .fault .outsideDevice := by
  change execCxlMemRead addr len s = _
  rw [execCxlMemRead, if_neg (not_not_intro hup), if_pos h]

theorem readByte_specified {a : Nat} (h : readSpecified s a = true) (hp : SMap.get false s.hbm.poison (a / 32) = false)
    (k : Nat) : readByte s k a = Mem.get 0 s.hbm.dev a := by
  simp [readByte, h, hp]

end

/-- Settles O19: a byte of the access is written or discarded by itself, and an access that touches no byte of the job's
is one write. -/
theorem hostReachesDeviceMemory : Obligations.HostReachesDeviceMemory := by
  unfold Obligations.HostReachesDeviceMemory
  intro s addr htrained hcxl hserving
  have hup : memUp s = true := by simp [memUp, htrained, hcxl, hserving]
  refine ⟨fun data htop hdec => ?write, fun len htop hdec => ?read,
    fun _ _ => ⟨exec_cxlMemWrite_outside hup, exec_cxlMemRead_outside hup⟩⟩
  case write =>
    intro owned
    have howned : owned = ownedByJob s := rfl
    clear_value owned
    subst howned
    by_cases h : ∃ i, i < data.length ∧ ownedByJob s (addr + i) = true
    · obtain ⟨j, hj⟩ : ∃ j, s.job = some j := by
        obtain ⟨i, -, hi⟩ := h
        refine Option.ne_none_iff_exists'.mp fun hnone => ?_
        rw [ownedByJob_of_none hnone] at hi
        exact Bool.false_ne_true hi
      refine ⟨_, exec_cxlMemWrite_owned hup htop hdec hj h, discardedWrite_frame .., fun i hi => ?_, fun b hb => ?_,
        fun hfree => ?_, fun _ => discardedWrite_status ..⟩
      · rw [discardedWrite_dev, writeOutside_dev _ _ hi, ownedByJob_of_job hj]
      · rw [discardedWrite_dev, writeOutside_dev_other _ hb]
      · obtain ⟨i, hi, hin⟩ := h
        exact absurd hin (by simp [hfree i hi])
    · have hfree : ∀ i, i < data.length → ownedByJob s (addr + i) = false := by simpa using h
      refine ⟨_, exec_cxlMemWrite_free hup htop hdec hfree, rfl, fun i hi => ?_, fun b hb => ?_, fun _ => rfl,
        fun hsome => absurd hsome h⟩
      · rw [hfree i hi]
        exact Mem.get_write_same 0 s.hbm.dev addr data i hi
      · exact Mem.get_write_other 0 s.hbm.dev addr data b hb
  case read =>
    refine ⟨_, exec_cxlMemRead hup htop hdec, rfl, ?_, fun i hi hspec hpoison => ?_⟩
    · simp [upFrom_eq_range']
    · simp [upFrom_eq_range', hi, readByte_specified hspec hpoison]

end Sys2Proof.Machine
end

section
/-! The phases of the boot sequence (O25). -/

namespace Sys2Proof.Machine

/-! ## BOOT_ROM -/

/-- A module that was never provisioned has no transition for ROM to finish (R405). -/
theorem finishTransition_manufactured {s : State} (hl : s.fuses.lifecycle = .manufactured)
    (ha : activeSlot s.fuses = none) : finishTransition s = s := by
  simp only [finishTransition, ha, hl]

theorem exec_bootRom {s : State} (h : s.power.phase = .input) :
    exec .bootRom s =
      let t := latchKey (finishTransition s)
      .next { t with
        controllers := { t.controllers with romDone := true, identity := deriveIdentity t.fuses }
        sideband := { t.sideband with answering := true }
        mgt := { t.mgt with state := .boot }
        power := { t.power with phase := .rom } } := by
  change execBootRom s = _
  rw [execBootRom, if_pos h]

/-! ## FLASH_SELECT -/

theorem exec_flashSelect {s : State} (hphase : s.power.phase = .rom) (hstate : s.mgt.state ≠ .recovery)
    (hheld : s.power.warm = true → s.link.perstLow = false) (hkey : keyDigest s.fuses.romKey = s.fuses.vendorRootHash)
    (hclock : s.time.running = true) : exec .flashSelect s = .next (flashPhase s) := by
  change execFlashSelect s = _
  refine if_pos ⟨hphase, hstate, ?_, by simp [romKeyOk, hkey], hclock⟩
  rintro ⟨hwarm, hlow⟩
  simp [hheld hwarm] at hlow

theorem flashPhase_of_copy {s : State} {b : Bool} (h : chooseCopy s.flash = some b) : flashPhase s = useCopy b s := by
  unfold flashPhase
  generalize chooseCopy s.flash = o at h
  subst h
  rfl

theorem flashPhase_of_none {s : State} (h : chooseCopy s.flash = none) :
    flashPhase s = enterRecovery startVolts s := by
  unfold flashPhase
  generalize chooseCopy s.flash = o at h
  subst h
  rfl

theorem useCopy_site {s : State} (h : s.hbm.amendment = none) (b : Bool) :
    (useCopy b s).site = (flashCopy s.flash b).site := by
  simp [useCopy, h]

theorem hashedGib_enterRecovery (start : List Nat) (s : State) : hashedGib (enterRecovery start s) = 64 :=
  field_setField_same s.config 127 120 64 (by decide)

/-! ## BOOT_SELF_TEST: the core map (R423, R425) -/

theorem domainOf_lt {p : Nat} (hp : p < 144) : domainOf p < 16 := by
  simp only [domainOf]
  omega

/-- A compute domain is a block of 3 × 3 cores (R19). -/
theorem length_coresOf {d : Nat} (hd : d < 16) : (coresOf d).length = 9 :=
  (by decide +kernel : ∀ d, d < 16 → (coresOf d).length = 9) d hd

/-- The logical cores of the 16 domains stay below 0xFF, which says that a core serves none. -/
theorem logical_ne_unserved {p : Nat} (hp : p < 144) {us : List Nat} (hus : us.length ≤ 9) :
    BitVec.ofNat 8 (8 * domainOf p + rankIn us p) ≠ 0xFF := by
  have hdom := domainOf_lt hp
  have hrank : rankIn us p ≤ us.length := List.length_filter_le ..
  intro h
  have hnat : (8 * domainOf p + rankIn us p) % 256 = 255 := congrArg BitVec.toNat h
  omega

/-- What the self-test can make of a core. -/
theorem classify_cases (usable fused : Nat → Bool) {p : Nat} (hp : p < 144) :
    (fused p = true ∧ classify usable fused p = (.fused, 0xFF)) ∨
    (fused p = false ∧ usable p = false ∧ classify usable fused p = (.failed, 0xFF)) ∨
    (fused p = false ∧ usable p = true ∧
      (classify usable fused p = (.spare, 0xFF) ∨ ∃ l, l ≠ 0xFF ∧ classify usable fused p = (.active, l))) := by
  unfold classify
  split
  · next hf => exact .inl ⟨hf, rfl⟩
  · next hf =>
    rw [Bool.not_eq_true] at hf
    split
    · next hu => exact .inr (.inl ⟨hf, by simpa using hu, rfl⟩)
    · next hu =>
      extract_lets us
      have hus : us.length ≤ 9 := (List.length_filter_le ..).trans (length_coresOf (domainOf_lt hp)).le
      refine .inr (.inr ⟨hf, by simpa using hu, ?_⟩)
      split
      · exact .inl rfl
      · exact .inr ⟨_, logical_ne_unserved hp hus, rfl⟩

theorem classify_iff (usable fused : Nat → Bool) {p : Nat} (hp : p < 144) :
    ((classify usable fused p).1 = .fused ↔ fused p = true) ∧
    ((classify usable fused p).1 = .failed ↔ usable p = false ∧ fused p = false) ∧
    ((classify usable fused p).1 = .active ↔ (classify usable fused p).2 ≠ 0xFF) := by
  obtain ⟨hf, h⟩ | ⟨hf, hu, h⟩ | ⟨hf, hu, h | ⟨l, hl, h⟩⟩ := classify_cases usable fused hp
  · simp [h, hf]
  · simp [h, hf, hu]
  · simp [h, hf, hu]
  · exact ⟨by simp [h, hf], by simp [h, hu], by simpa [h] using hl⟩

theorem length_coreMapOf (usable fused : Nat → Bool) (keep : Nat → Byte × BitVec 4) :
    (coreMapOf usable fused keep).length = 144 := by
  simp [coreMapOf, upFrom_eq_range']

theorem nthD_map_upFrom {α : Type} (d : α) (f : Nat → α) {n p : Nat} (hp : p < n) :
    nthD d ((upFrom 0 n).map f) p = f p := by
  simp [nthD_eq_getD, upFrom_eq_range', hp]

theorem nthD_coreMapOf {usable fused : Nat → Bool} {keep : Nat → Byte × BitVec 4} {p : Nat} (hp : p < 144)
    (d : CoreEntry) : nthD d (coreMapOf usable fused keep) p =
      ⟨(keep p).1, (classify usable fused p).2, (keep p).2, (classify usable fused p).1⟩ :=
  nthD_map_upFrom d _ hp

/-- A core that the self-test did not find failed. -/
def passedTest (failed : List PhysCore) (p : Nat) : Bool := !failed.any fun c => c.val == p

theorem passedTest_eq_false_iff (failed : List PhysCore) (c : PhysCore) :
    passedTest failed c.val = false ↔ c ∈ failed := by
  simp [passedTest, Fin.val_inj]

/-- The state after the self-test of a power-on reset. -/
def selfTested (failed : List PhysCore) (s : State) : State :=
  { s with
    hbm := { s.hbm with coreMap := coreMapOf (passedTest failed) (isFused s) (fun _ => (0, 0)) }
    power := { s.power with phase := .selfTest } }

theorem exec_bootSelfTest {s : State} (h : s.power.phase = .rails) (hwarm : s.power.warm = false)
    (failed : List PhysCore) : exec (.bootSelfTest failed) s = .next (selfTested failed s) := by
  change execBootSelfTest failed s = _
  have hcold : ¬ (s.power.warm = true ∧ s.hbm.coreMap ≠ []) := by simp [hwarm]
  rw [execBootSelfTest, if_pos h, if_neg hcold]
  rfl

theorem entryOf_selfTested (failed : List PhysCore) (s : State) (c : PhysCore) :
    (entryOf (selfTested failed s) c.val).state = (classify (passedTest failed) (isFused s) c.val).1 ∧
    (entryOf (selfTested failed s) c.val).logical = (classify (passedTest failed) (isFused s) c.val).2 := by
  have h := nthD_coreMapOf (usable := passedTest failed) (fused := isFused s) (keep := fun _ => (0, 0)) c.isLt
    ⟨0, 0xFF, 0, .failed⟩
  exact ⟨congrArg CoreEntry.state h, congrArg CoreEntry.logical h⟩

/-! ## HBM_INIT -/

/-- What of HBM a remapped row leaves alone: everything but the list of remapped rows. -/
theorem remapRow_hbm (r : RowAddr) (s : State) :
    { (remapRow r s).hbm with remapped := [] } = { s.hbm with remapped := [] } := by
  unfold remapRow
  split
  · rfl
  · split <;> simp

theorem foldl_remapRow_hbm (rows : List RowAddr) (s : State) :
    { (rows.foldl (fun u r => remapRow r u) s).hbm with remapped := [] } = { s.hbm with remapped := [] } :=
  foldl_keeps (fun u => { u.hbm with remapped := [] }) _ (fun u r => remapRow_hbm r u) rows s

theorem reportLanes_hbm_power (lanes : List PhyLane) (s : State) :
    (reportLanes lanes s).hbm = s.hbm ∧ (reportLanes lanes s).power = s.power :=
  ⟨foldl_keeps State.hbm _ (fun u l => by simp) lanes s, foldl_keeps State.power _ (fun u l => by simp) lanes s⟩

/-- HBM as a power-on reset leaves it: every store empty and the fused remaps loaded. -/
def zeroedHbm (s : State) : State :=
  { s with hbm := { s.hbm with
      dev := []
      tandem := []
      saveArea := []
      stamps := []
      tandemStamps := []
      commitWord := 0
      poison := []
      tandemPoison := []
      repairPoison := []
      saves := []
      savePoison := []
      amendment := none
      remapped := s.fuses.deadRows } }

/-- The stacks answer, and the phase is over. -/
def hbmServing (t : State) : State :=
  { t with
    hbm := { t.hbm with serving := true, selfRefresh := false }
    power := { t.power with phase := .hbm } }

theorem exec_hbmInit {s : State} (h : s.power.phase = .selfTest) (hclock : s.time.running = true)
    (rows : List RowAddr) (lanes : List PhyLane) :
    exec (.hbmInit rows lanes) s = .next (reportLanes lanes (hbmServing
      (if s.power.warm then s else rows.foldl (fun u r => remapRow r u) (zeroedHbm s)))) := by
  change execHbmInit rows lanes s = _
  rw [execHbmInit, if_pos ⟨h, hclock⟩]
  rfl

theorem hbmInit_zeroes (rows : List RowAddr) (s : State) :
    let t := rows.foldl (fun u r => remapRow r u) (zeroedHbm s)
    t.hbm.dev = [] ∧ t.hbm.stamps = [] ∧ t.hbm.commitWord = 0 ∧ t.hbm.tandem = [] ∧ t.hbm.tandemStamps = [] ∧
      t.hbm.poison = [] := by
  have h := foldl_remapRow_hbm rows (zeroedHbm s)
  exact ⟨congrArg Hbm.dev h, congrArg Hbm.stamps h, congrArg Hbm.commitWord h, congrArg Hbm.tandem h,
    congrArg Hbm.tandemStamps h, congrArg Hbm.poison h⟩

/-! ## RUNTIME_LOAD -/

theorem exec_runtimeLoad {s : State} (h : s.power.phase = .hbm) :
    exec .runtimeLoad s = .next { s with
      cores := { s.cores with ctl := [] }
      gatehouse := Gatehouse.reset
      kv := Kv.reset
      power := { s.power with phase := .load }
      fabric := { s.fabric with ports := (upFrom 0 6).map fun p =>
        { getPort s p with phase := if siteConnected s.site p then .laser else .dark, attempts := 0 } } } := by
  change execRuntimeLoad s = _
  rw [execRuntimeLoad, if_pos h]

/-! ## The sequence -/

/-- Settles O25: each phase's command, whose guard the phase before has met, leaves the state that R390 says. -/
theorem bootPhasesInOrder : Obligations.BootPhasesInOrder := by
  unfold Obligations.BootPhasesInOrder
  intro s failed rows lanes
  refine ⟨fun hoff hlocked htripped => ?power, fun hinput => ?rom,
    fun hrom hstate hheld hkey hclock => ⟨fun b hb => ?copy, fun hnone => ?none⟩, fun hflash => if_pos hflash,
    fun hrails hwarm => ?selfTest, fun hself hclock => ?hbm, fun hhbm => ?load⟩
  case power => exact ⟨_, if_pos ⟨hoff, by simp [hlocked], by simp [htripped]⟩, rfl, rfl⟩
  case rom =>
    refine ⟨_, exec_bootRom hinput, rfl, rfl, rfl, rfl, rfl, rfl, fun hl ha => ?_⟩
    rw [finishTransition_manufactured hl ha]
    exact ⟨rfl, rfl⟩
  case copy =>
    exact ⟨_, (exec_flashSelect hrom hstate hheld hkey hclock).trans (congrArg _ (flashPhase_of_copy hb)), rfl, rfl,
      rfl, fun h => useCopy_site h b, rfl, rfl, rfl⟩
  case none =>
    exact ⟨_, (exec_flashSelect hrom hstate hheld hkey hclock).trans (congrArg _ (flashPhase_of_none hnone)), rfl, rfl,
      rfl, rfl, rfl, hashedGib_enterRecovery _ s⟩
  case selfTest =>
    refine ⟨_, exec_bootSelfTest hrails hwarm failed, rfl, length_coreMapOf _ _ _, fun c => ?_⟩
    obtain ⟨hstate, hlogical⟩ := entryOf_selfTested failed s c
    rw [hstate, hlogical, ← passedTest_eq_false_iff]
    exact classify_iff _ _ c.isLt
  case hbm =>
    obtain ⟨hbm, hpower⟩ := reportLanes_hbm_power lanes
      (hbmServing (if s.power.warm then s else rows.foldl (fun u r => remapRow r u) (zeroedHbm s)))
    refine ⟨_, exec_hbmInit hself hclock rows lanes, ?_⟩
    beta_reduce
    rw [hbm, hpower]
    refine ⟨rfl, rfl, rfl, fun hwarm => ?_, fun hwarm => ?_⟩
    · simp only [hwarm]
      exact hbmInit_zeroes rows s
    · simp only [hwarm]
      exact ⟨rfl, rfl, rfl, rfl, rfl⟩
  case load =>
    refine ⟨_, exec_runtimeLoad hhbm, rfl, rfl, rfl, rfl, rfl, fun p hp => ?_⟩
    rw [getPort, nthD_map_upFrom _ _ hp]

end Sys2Proof.Machine
end

section
/-! What each operation and each command leaves of the fuses: the shared operations, the ports, the core map, the units that
the engines share, the management side and resets (O60). -/

namespace Sys2Proof.Machine

/-! ## The fuses under the branches of a definition -/

@[simp] theorem fuses_ite {c : Prop} [Decidable c] {s t : State} :
    (if c then s else t).fuses = if c then s.fuses else t.fuses := apply_ite State.fuses c s t
theorem fuses_foldl {α : Type} {g : State → α → State} {xs : List α} {s : State} (h : ∀ s x, (g s x).fuses = s.fuses) :
    (xs.foldl g s).fuses = s.fuses := foldl_keeps State.fuses g h xs s
/-- A command leaves the fuses as they were. -/
def KeepsFuses (s : State) : Host.Outcome State Fault Refusal → Prop
  | .next t => t.fuses = s.fuses
  | _ => True
@[simp] theorem keepsFuses_next {s t : State} : KeepsFuses s (.next t) ↔ t.fuses = s.fuses := Iff.rfl
@[simp] theorem keepsFuses_fault {s : State} {r} : KeepsFuses s (.fault r) := trivial
@[simp] theorem keepsFuses_refused {s : State} {r} : KeepsFuses s (.refused r) := trivial
@[simp] theorem keepsFuses_ite {c : Prop} [Decidable c] {s : State} {o p} :
    KeepsFuses s (if c then o else p) ↔ if c then KeepsFuses s o else KeepsFuses s p := by split <;> rfl
theorem fuses_getD {o : Option State} {s u : State} (h : ∀ {t}, o = some t → t.fuses = s.fuses) (hu : u.fuses = s.fuses) :
    (o.getD u).fuses = s.fuses := by
  cases o with
  | none => exact hu
  | some t => exact h rfl

/-! ## Shared operations -/

@[simp] theorem fuses_keepStart {s} : (keepStart s).fuses = s.fuses := by unfold keepStart; split <;> simp
@[simp] theorem fuses_backToStart {s} : (backToStart s).fuses = s.fuses := by unfold backToStart; split <;> simp

/-! ## Ports (R265 to R283) -/

@[simp] theorem fuses_setPort {p f s} : (setPort p f s).fuses = s.fuses := by rfl
@[simp] theorem fuses_sendWord {p w s} : (sendWord p w s).fuses = s.fuses := by rfl
@[simp] theorem fuses_addDown {l s} : (addDown l s).fuses = s.fuses := by simp [addDown]
@[simp] theorem fuses_removeDown {l s} : (removeDown l s).fuses = s.fuses := by rfl
@[simp] theorem fuses_dropPort {p code s} : (dropPort p code s).fuses = s.fuses := by simp [dropPort]
@[simp] theorem fuses_abortIfRunning {s} : (abortIfRunning s).fuses = s.fuses :=
  by unfold abortIfRunning; split <;> simp
@[simp] theorem fuses_losePort {p code more s} : (losePort p code more s).fuses = s.fuses := by simp [losePort]
@[simp] theorem fuses_restartPort {p s} : (restartPort p s).fuses = s.fuses := by rfl
@[simp] theorem fuses_retireFibre {p fibre wave s} : (retireFibre p fibre wave s).fuses = s.fuses :=
  by simp [retireFibre]
@[simp] theorem fuses_failWave {w s} : (failWave w s).fuses = s.fuses :=
  by simp only [failWave]; (repeat' split) <;> simp
@[simp] theorem fuses_resendFrom {port fseq s} : (resendFrom port fseq s).fuses = s.fuses := by simp [resendFrom]
@[simp] theorem keepsFuses_execNack {port fseq s} : KeepsFuses s (execNack port fseq s) := by simp [execNack]
@[simp] theorem fuses_returnCredits {bs s} : (returnCredits bs s).fuses = s.fuses :=
  fuses_foldl fun t b => by split <;> simp
@[simp] theorem fuses_sendFrame {port s} : (sendFrame port s).fuses = s.fuses :=
  by simp only [sendFrame]; (repeat' split) <;> simp
@[simp] theorem fuses_pump {port n s} : (pump port n s).fuses = s.fuses := by
  induction n generalizing s with
  | zero => rfl
  | succ n ih => simp [pump, ih]
@[simp] theorem fuses_sendAll {port s} : (sendAll port s).fuses = s.fuses := fuses_pump
@[simp] theorem fuses_enqueuePacket {port p origin s} : (enqueuePacket port p origin s).fuses = s.fuses := by
  simp only [enqueuePacket, fuses_sendAll, fuses_setPort]
@[simp] theorem keepsFuses_execBeat {port s} : KeepsFuses s (execBeat port s) := by simp [execBeat]
@[simp] theorem keepsFuses_execPortDownTimeout {port uncommitted s} :
    KeepsFuses s (execPortDownTimeout port uncommitted s) :=
  by simp [execPortDownTimeout]
@[simp] theorem keepsFuses_execDownNotice {link s} : KeepsFuses s (execDownNotice link s) := by simp [execDownNotice]
@[simp] theorem keepsFuses_execDownNoticeWithdrawn {link s} : KeepsFuses s (execDownNoticeWithdrawn link s) := by rfl
@[simp] theorem fuses_askSwap {port fibre place calibration s} :
    (askSwap port fibre place calibration s).fuses = s.fuses :=
  by rfl
@[simp] theorem fuses_failLane {port lane s} : (failLane port lane s).fuses = s.fuses :=
  by simp only [failLane]; (repeat' split) <;> simp
@[simp] theorem keepsFuses_execSwapCondition {port lane cause s} : KeepsFuses s (execSwapCondition port lane cause s) :=
  by simp [execSwapCondition]
@[simp] theorem fuses_retireTransmit {port fibre at' s} : (retireTransmit port fibre at' s).fuses = s.fuses := by
  simp only [retireTransmit, fuses_ite, fuses_losePort, emit_frame, fuses_setPort, ite_self]
@[simp] theorem fuses_mirrorLane {port fibre lane calibration s} :
    (mirrorLane port fibre lane calibration s).fuses = s.fuses :=
  by simp [mirrorLane]
@[simp] theorem fuses_noteSwitch {port fibre place switchAt s} :
    (noteSwitch port fibre place switchAt s).fuses = s.fuses :=
  by rfl
@[simp] theorem fuses_takeSwap {port fibre lane kind s} : (takeSwap port fibre lane kind s).fuses = s.fuses :=
  by unfold takeSwap; split <;> simp
@[simp] theorem keepsFuses_execSwap {port fibre lane kind s} : KeepsFuses s (execSwap port fibre lane kind s) :=
  by simp [execSwap]
@[simp] theorem fuses_switchTransmit {port fibre s} : (switchTransmit port fibre s).fuses = s.fuses :=
  by simp only [switchTransmit]; (repeat' split) <;> simp
@[simp] theorem fuses_switchReceive {port fibre s} : (switchReceive port fibre s).fuses = s.fuses :=
  by simp only [switchReceive]; (repeat' split) <;> simp
@[simp] theorem keepsFuses_execSwapSwitch {port sw s} : KeepsFuses s (execSwapSwitch port sw s) :=
  by simp [execSwapSwitch]
@[simp] theorem keepsFuses_execCalibration {port fibre place s} : KeepsFuses s (execCalibration port fibre place s) :=
  by simp [execCalibration]
@[simp] theorem fuses_missBound {port s} : (missBound port s).fuses = s.fuses := by simp [missBound]
@[simp] theorem fuses_reportRetired {port fibres s} : (reportRetired port fibres s).fuses = s.fuses :=
  by simp [reportRetired, fuses_foldl]
@[simp] theorem fuses_sendWords {p ws s} : (sendWords p ws s).fuses = s.fuses := by rfl
@[simp] theorem fuses_sendHello {port s} : (sendHello port s).fuses = s.fuses := by rfl
@[simp] theorem fuses_sendSignature {port nonce s} : (sendSignature port nonce s).fuses = s.fuses :=
  by unfold sendSignature; split <;> simp
@[simp] theorem keepsFuses_execPortBringup {port r s} : KeepsFuses s (execPortBringup port r s) :=
  by simp [execPortBringup]
@[simp] theorem keepsFuses_execBringupPhaseTimeout {port phase s} :
    KeepsFuses s (execBringupPhaseTimeout port phase s) :=
  by simp [execBringupPhaseTimeout]
@[simp] theorem fuses_portUp {port s} : (portUp port s).fuses = s.fuses := by rfl
@[simp] theorem fuses_endCredits {port s} : (endCredits port s).fuses = s.fuses := by simp [endCredits]
@[simp] theorem fuses_beginCredits {port s} : (beginCredits port s).fuses = s.fuses := by simp [beginCredits]
@[simp] theorem fuses_identStep {port s} : (identStep port s).fuses = s.fuses :=
  by simp only [identStep]; (repeat' split) <;> simp
@[simp] theorem fuses_takeIdent {port i part s} : (takeIdent port i part s).fuses = s.fuses := by simp [takeIdent]
@[simp] theorem keepsFuses_execIdent {port i s} : KeepsFuses s (execIdent port i s) := by simp [execIdent]
@[simp] theorem fuses_takeGrants {port grants s} : (takeGrants port grants s).fuses = s.fuses :=
  by unfold takeGrants; split <;> simp
@[simp] theorem keepsFuses_execCredit {port grants s} : KeepsFuses s (execCredit port grants s) := by simp [execCredit]

/-! ## Core map and sweep (R423 to R437) -/

@[simp] theorem fuses_setEntry {p f s} : (setEntry p f s).fuses = s.fuses := by rfl
@[simp] theorem fuses_remapRow {r s} : (remapRow r s).fuses = s.fuses := by simp [remapRow]
@[simp] theorem fuses_saveBlock {stack start len s} : (saveBlock stack start len s).fuses = s.fuses := by rfl
@[simp] theorem fuses_restoreBlock {stack start len s} : (restoreBlock stack start len s).fuses = s.fuses := by rfl
@[simp] theorem fuses_recoverSave {stack s} : (recoverSave stack s).fuses = s.fuses :=
  by simp only [recoverSave]; (repeat' split) <;> simp
@[simp] theorem fuses_recoverSaves {s} : (recoverSaves s).fuses = s.fuses := fuses_foldl fun _ _ => fuses_recoverSave
@[simp] theorem fuses_sweepCores {failed s} : (sweepCores failed s).fuses = s.fuses := by simp [sweepCores, fuses_foldl]
@[simp] theorem fuses_reportLanes {ls s} : (reportLanes ls s).fuses = s.fuses := by simp [reportLanes, fuses_foldl]
@[simp] theorem fuses_failWaves {ws s} : (failWaves ws s).fuses = s.fuses := by simp [failWaves, fuses_foldl]
@[simp] theorem fuses_sweepBeforeHbm {f s} : (sweepBeforeHbm f s).fuses = s.fuses := by simp [sweepBeforeHbm]
@[simp] theorem fuses_sweepCut {f c s} : (sweepCut f c s).fuses = s.fuses := by unfold sweepCut; split <;> simp
theorem fuses_gathered {sweep : State → State} {s : State} : (gathered sweep s).fuses =
    (sweep { s with status := { s.status with
      eventCount := s.selfTest.foundCount, events := s.selfTest.foundEvents, counts :=
  s.selfTest.foundCounts } }).fuses :=
  rfl

/-! ## Operations of the engines -/

@[simp] theorem fuses_addTally {op t s} : (addTally op t s).fuses = s.fuses := by simp [addTally]
@[simp] theorem fuses_setCtl {core f s} : (setCtl core f s).fuses = s.fuses := by rfl
@[simp] theorem fuses_endCommand {e core op s} : (endCommand e core op s).fuses = s.fuses := by simp [endCommand]
@[simp] theorem fuses_chargeCore {core s} : (chargeCore core s).fuses = s.fuses := by simp [chargeCore]
@[simp] theorem fuses_checkerMismatch {core op tile s} : (checkerMismatch core op tile s).fuses = s.fuses :=
  by simp [checkerMismatch]
@[simp] theorem fuses_scratchError {core op s} : (scratchError core op s).fuses = s.fuses := by simp [scratchError]
@[simp] theorem fuses_seedLanes {s} : (seedLanes s).fuses = s.fuses :=
  by simp only [seedLanes]; (repeat' split) <;> simp
@[simp] theorem fuses_takeDraws {ctx slots s} : (takeDraws ctx slots s).2.fuses = s.fuses := by rfl
@[simp] theorem fuses_setRing {k f s} : (setRing k f s).fuses = s.fuses := by rfl
@[simp] theorem fuses_locWrite {l off bs s} : (locWrite l off bs s).fuses = s.fuses :=
  by unfold locWrite; (repeat' split) <;> simp
@[simp] theorem fuses_writeOut {op out vs rs s} : (writeOut op out vs rs s).fuses = s.fuses := by simp [writeOut]
@[simp] theorem fuses_writeMask {l bits s} : (writeMask l bits s).fuses = s.fuses := by simp [writeMask]
@[simp] theorem fuses_writeU32s {l vs s} : (writeU32s l vs s).fuses = s.fuses := by simp [writeU32s]

/-! ## The key/value cache (R214 to R227) -/

@[simp] theorem fuses_writeShadow {c slot pages s} : (writeShadow c slot pages s).fuses = s.fuses := by rfl
@[simp] theorem fuses_writeHeader {c slot len maxLen reserved status shared tail s} :
    (writeHeader c slot len maxLen reserved status shared tail s).fuses = s.fuses :=
  by rfl
@[simp] theorem fuses_initSlots {c s} : (initSlots c s).fuses = s.fuses := fuses_foldl fun _ _ => rfl
@[simp] theorem fuses_withKv {f s} : (withKv f s).fuses = s.fuses := by rfl
@[simp] theorem fuses_kvStatus {code s} : (kvStatus code s).fuses = s.fuses := by rfl
theorem fuses_runTable {α : Type} {op : U32} {again : List α → Instr} {one : α → State → Option State} {rs : List α}
    {s : State} (h : ∀ {r s t}, one r s = some t → t.fuses = s.fuses) : (runTable op again one rs s).fuses = s.fuses :=
  by
  induction rs generalizing s with
  | nil => simp [runTable]
  | cons r rs ih =>
    unfold runTable
    split
    · simp
    next t ht => exact ih.trans (h ht)
theorem keepsFuses_cacheOp {α : Type} {op : U32} {again : List α → Instr} {one : CacheDecl → α → State → Option State}
    {rs : List α} {s : State} (h : ∀ {c r s t}, one c r s = some t → t.fuses = s.fuses) :
    KeepsFuses s (cacheOp op again one rs s) := by
  unfold cacheOp
  split
  · split
    · trivial
    · simp [fuses_runTable h]
  · rfl
@[simp] theorem fuses_admitEffect {op a c r s} : (admitEffect op a c r s).fuses = s.fuses := by rfl
theorem fuses_admitOne {op c a s t} (h : admitOne op c a s = some t) : t.fuses = s.fuses := by
  unfold admitOne at h
  extract_lets r st u at h
  split at h <;> cases h
  simp [u]
@[simp] theorem keepsFuses_execAdmission {op table s} : KeepsFuses s (execAdmission op table s) :=
  keepsFuses_cacheOp fuses_admitOne
@[simp] theorem fuses_writePosition {c page off layer kvs s} :
    (writePosition c page off layer kvs s).fuses = s.fuses := by
  induction kvs generalizing layer s with
  | nil => rfl
  | cons kv kvs ih => simp [writePosition, ih]
@[simp] theorem fuses_publishPage {c page h s} : (publishPage c page h s).fuses = s.fuses := by simp [publishPage]
@[simp] theorem fuses_appendPositions {c pos xs r s} : (appendPositions c pos xs r s).2.fuses = s.fuses := by
  induction xs generalizing pos r s with
  | nil => rfl
  | cons x xs ih =>
    simp only [appendPositions]
    split <;> simp [ih]
@[simp] theorem fuses_appendEffect {op c a s} : (appendEffect op c a s).fuses = s.fuses := by simp [appendEffect]
theorem fuses_appendOne {op c a s t} (h : appendOne op c a s = some t) : t.fuses = s.fuses := by
  unfold appendOne at h
  extract_lets st n at h
  split at h
  · cases h; simp
  · split at h
    · cases h; simp
    · split at h
      · cases h
      · split at h <;> cases h
        simp
@[simp] theorem keepsFuses_execAppend {a s} : KeepsFuses s (execAppend a s) := keepsFuses_cacheOp fuses_appendOne
@[simp] theorem fuses_releaseEffect {c op slot s} : (releaseEffect c op slot s).fuses = s.fuses := by
  simp only [releaseEffect, fuses_kvStatus, fuses_writeHeader, fuses_writeShadow, fuses_withKv]
theorem fuses_releaseOne {op c slot s t} (h : releaseOne op c slot s = some t) : t.fuses = s.fuses := by
  unfold releaseOne at h
  split at h
  · cases h; simp
  · split at h <;> cases h
    simp
@[simp] theorem keepsFuses_execRelease {op slots s} : KeepsFuses s (execRelease op slots s) :=
  keepsFuses_cacheOp fuses_releaseOne
@[simp] theorem keepsFuses_execWalkerSnapshot {core op slot upTo s} :
    KeepsFuses s (execWalkerSnapshot core op slot upTo s) :=
  by unfold execWalkerSnapshot; split <;> simp
@[simp] theorem keepsFuses_execSnapshotRelease {core op slot s} : KeepsFuses s (execSnapshotRelease core op slot s) :=
  by rfl
@[simp] theorem keepsFuses_execCachePublish {slot s} : KeepsFuses s (execCachePublish slot s) :=
  by unfold execCachePublish; split <;> simp

/-! ## Streams and hand-overs (R112, R136, R158) -/

@[simp] theorem fuses_writeToken {core word use op s} : (writeToken core word use op s).fuses = s.fuses :=
  by unfold writeToken; split <;> simp
theorem keepsFuses_haloOp {c op sender fault ready effect s} (h : effect.fuses = s.fuses) :
    KeepsFuses s (haloOp c op sender fault ready effect s) := by
  unfold haloOp
  split
  · rfl
  · split
    · trivial
    · simp [h]
@[simp] theorem fuses_sendRow {h use src s} : (sendRow h use src s).fuses = s.fuses := by simp [sendRow]
@[simp] theorem keepsFuses_execHaloSend {op h use src s} : KeepsFuses s (execHaloSend op h use src s) :=
  keepsFuses_haloOp (by simp)
@[simp] theorem fuses_postReady {op h use s} : (postReady op h use s).fuses = s.fuses := by simp [postReady]
@[simp] theorem keepsFuses_execHaloReady {op h use s} : KeepsFuses s (execHaloReady op h use s) :=
  keepsFuses_haloOp (by simp)
@[simp] theorem keepsFuses_execHaloAck {op h use s} : KeepsFuses s (execHaloAck op h use s) :=
  keepsFuses_haloOp (by simp)
@[simp] theorem fuses_fillSlot {k r s} : (fillSlot k r s).fuses = s.fuses := by simp [fillSlot]
@[simp] theorem fuses_fillSlots {k r n s} : (fillSlots k r n s).fuses = s.fuses := by
  induction n generalizing s with
  | zero => rfl
  | succ n ih => simp [fillSlots, ih]
@[simp] theorem fuses_takeSlot {k r s} : (takeSlot k r s).fuses = s.fuses := by simp [takeSlot]
@[simp] theorem fuses_takeSlots {k r n fuel s} : (takeSlots k r n fuel s).fuses = s.fuses := by
  induction fuel generalizing s with
  | zero => rfl
  | succ fuel ih => simp [takeSlots, ih]
@[simp] theorem fuses_takeUse {u s} : (takeUse u s).fuses = s.fuses := by unfold takeUse; (repeat' split) <;> simp
@[simp] theorem fuses_dropUse {u s} : (dropUse u s).fuses = s.fuses := by unfold dropUse; split <;> simp
@[simp] theorem fuses_passOn {l s} : (passOn l s).fuses = s.fuses := by unfold passOn; (repeat' split) <;> simp
@[simp] theorem fuses_EngineRun_taken {r s} : (EngineRun.taken r s).fuses = s.fuses :=
  by simp [EngineRun.taken, fuses_foldl]
theorem fuses_done {r : EngineRun} {s : State} (h : ∀ t, (r.effect t).fuses = t.fuses) : (r.done s).fuses = s.fuses :=
  by
  simp [EngineRun.done, fuses_foldl, h]
theorem keepsFuses_runEngine {c : Instr} {r : EngineRun} {s : State} (h : ∀ t, (r.effect t).fuses = t.fuses) :
    KeepsFuses s (runEngine c r s) := by
  unfold runEngine
  split
  · rfl
  · split
    · simp
    · split
      · trivial
      · split
        · simp
        · split
          · simp
          · split <;> simp [fuses_done h]

/-! ## The Trellis and attention (R80 to R97, R201 to R211) -/

@[simp] theorem fuses_loadPlane {t s} : (loadPlane t s).fuses = s.fuses := by rfl
@[simp] theorem keepsFuses_execTileLoad {t s} : KeepsFuses s (execTileLoad t s) :=
  keepsFuses_runEngine fun _ => fuses_loadPlane
@[simp] theorem fuses_swapPlanes {core s} : (swapPlanes core s).fuses = s.fuses := by rfl
@[simp] theorem keepsFuses_execTileSwap {ctx s} : KeepsFuses s (execTileSwap ctx s) :=
  keepsFuses_runEngine fun _ => fuses_swapPlanes
@[simp] theorem fuses_waveEffect {c s} : (waveEffect c s).fuses = s.fuses := by simp [waveEffect]
@[simp] theorem keepsFuses_execTrellisWave {c s} : KeepsFuses s (execTrellisWave c s) :=
  keepsFuses_runEngine fun _ => fuses_waveEffect
@[simp] theorem fuses_writeRowAt {out first vals rs s} : (writeRowAt out first vals rs s).2.fuses = s.fuses :=
  by simp [writeRowAt]
@[simp] theorem fuses_rowOutDraws {ctx conv rows n s} : (rowOutDraws ctx conv rows n s).2.fuses = s.fuses := by rfl
@[simp] theorem fuses_writeRows {op out n draws rows s} : (writeRows op out n draws rows s).fuses = s.fuses := by
  induction rows generalizing s with
  | nil => rfl
  | cons x rows ih => simp [writeRows, ih]
@[simp] theorem fuses_attnEffect {c s} : (attnEffect c s).fuses = s.fuses :=
  by simp only [attnEffect]; (repeat' split) <;> simp [fuses_foldl]
@[simp] theorem fuses_attnBackEffect {c s} : (attnBackEffect c s).fuses = s.fuses := by simp [attnBackEffect]
@[simp] theorem keepsFuses_execFusedAttention {c s} : KeepsFuses s (execFusedAttention c s) :=
  keepsFuses_runEngine fun _ => fuses_attnEffect
@[simp] theorem keepsFuses_execAttentionBackward {c s} : KeepsFuses s (execAttentionBackward c s) :=
  keepsFuses_runEngine fun _ => fuses_attnBackEffect

/-! ## Flash, host link and management commands (R360 to R389) -/

@[simp] theorem fuses_latchKey {s} : (latchKey s).fuses = s.fuses := by rfl
@[simp] theorem fuses_useCopy {b s} : (useCopy b s).fuses = s.fuses := by rfl
@[simp] theorem fuses_enterRecovery {start s} : (enterRecovery start s).fuses = s.fuses := by rfl
@[simp] theorem fuses_flashPhase {s} : (flashPhase s).fuses = s.fuses := by unfold flashPhase; split <;> rfl
@[simp] theorem fuses_writeOutside {rs a bs s} : (writeOutside rs a bs s).fuses = s.fuses := by
  induction bs generalizing a s with
  | nil => rfl
  | cons b bs ih => simp [writeOutside, ih]
@[simp] theorem fuses_clearOutside {rs a n s} : (clearOutside rs a n s).fuses = s.fuses := by rfl
@[simp] theorem keepsFuses_execCxlMemWrite {addr data s} : KeepsFuses s (execCxlMemWrite addr data s) :=
  by unfold execCxlMemWrite; (repeat' split) <;> simp
@[simp] theorem keepsFuses_execCxlMemRead {addr len s} : KeepsFuses s (execCxlMemRead addr len s) :=
  by simp [execCxlMemRead]
@[simp] theorem keepsFuses_execCxlLinkTrained {cxl width rate s} : KeepsFuses s (execCxlLinkTrained cxl width rate s) :=
  by simp [execCxlLinkTrained]
@[simp] theorem keepsFuses_execStatusRecordTelemetry {t s} : KeepsFuses s (execStatusRecordTelemetry t s) :=
  by simp [execStatusRecordTelemetry]
@[simp] theorem keepsFuses_execTelemetryRefresh {junction stack powerW volt10mV s} :
    KeepsFuses s (execTelemetryRefresh junction stack powerW volt10mV s) :=
  by rfl
theorem fuses_runEntry {cmd e bad go s} (hbad : ∀ c t, (bad c t).fuses = t.fuses) (hgo : (go s).fuses = s.fuses) :
    (runEntry cmd e bad go s).fuses = s.fuses := by
  unfold runEntry
  split <;> simp [hbad, hgo]
@[simp] theorem fuses_refuse {cmd code s} : (refuse cmd code s).fuses = s.fuses := by simp [refuse]
@[simp] theorem fuses_succeed {cmd s} : (succeed cmd s).fuses = s.fuses := by simp [succeed]
@[simp] theorem keepsFuses_execMgtCmdRejected {val s} : KeepsFuses s (execMgtCmdRejected val s) :=
  by simp [execMgtCmdRejected]
@[simp] theorem fuses_programFlash {b bytes cut s} : (programFlash b bytes cut s).fuses = s.fuses := by rfl
@[simp] theorem fuses_flashProgram {cut s} : (flashProgram cut s).fuses = s.fuses :=
  by unfold flashProgram; split <;> simp
@[simp] theorem keepsFuses_execFlashProgram {cut s} : KeepsFuses s (execFlashProgram cut s) :=
  fuses_runEntry (fun _ _ => rfl) fuses_flashProgram
@[simp] theorem fuses_attest {s} : (attest s).fuses = s.fuses := by unfold attest; split <;> simp
@[simp] theorem keepsFuses_execAttest {s} : KeepsFuses s (execAttest s) :=
  fuses_runEntry (fun _ _ => rfl) fuses_attest
@[simp] theorem fuses_amendRefused {c s} : (amendRefused c s).fuses = s.fuses :=
  by simp only [amendRefused, withStatus_frame]
@[simp] theorem fuses_applyAmendment {r s} : (applyAmendment r s).fuses = s.fuses :=
  by simp [applyAmendment, fuses_foldl]
@[simp] theorem fuses_siteAmend {s} : (siteAmend s).fuses = s.fuses := by
  unfold siteAmend
  extract_lets
  split <;> simp only [fuses_refuse, fuses_amendRefused, fuses_succeed, fuses_applyAmendment]
@[simp] theorem keepsFuses_execSiteAmend {s} : KeepsFuses s (execSiteAmend s) :=
  fuses_runEntry (fun _ _ => fuses_amendRefused) fuses_siteAmend
@[simp] theorem fuses_jobAbort {s} : (jobAbort s).fuses = s.fuses := by unfold jobAbort; split <;> simp
@[simp] theorem keepsFuses_execJobAbort {s} : KeepsFuses s (execJobAbort s) :=
  fuses_runEntry (fun _ _ => rfl) fuses_jobAbort
@[simp] theorem fuses_bankLoad {partBytes s} : (bankLoad partBytes s).fuses = s.fuses := by simp [bankLoad]
@[simp] theorem keepsFuses_execBankLoad {partBytes s} : KeepsFuses s (execBankLoad partBytes s) :=
  fuses_runEntry (fun _ _ => rfl) fuses_bankLoad
@[simp] theorem fuses_barrierOutcome {pass s} : (barrierOutcome pass s).fuses = s.fuses :=
  by unfold barrierOutcome; (repeat' split) <;> simp
@[simp] theorem fuses_releaseBanks {pass s} : (releaseBanks pass s).fuses = s.fuses := by simp [releaseBanks]
@[simp] theorem keepsFuses_execIdentityBarrierRelease {b s} : KeepsFuses s (execIdentityBarrierRelease b s) :=
  by unfold execIdentityBarrierRelease; split <;> simp
@[simp] theorem keepsFuses_execIdentityBarrierTimeout {s} : KeepsFuses s (execIdentityBarrierTimeout s) :=
  by simp [execIdentityBarrierTimeout]
@[simp] theorem fuses_zeroHbm {s} : (zeroHbm s).fuses = s.fuses := by rfl
@[simp] theorem fuses_eraseFlash {s} : (eraseFlash s).fuses = s.fuses := by rfl

/-! ## Power, window and sideband (R411 to R421, R362, R446) -/

@[simp] theorem fuses_powerAlert {s} : (powerAlert s).fuses = s.fuses := by simp [powerAlert]
@[simp] theorem fuses_thermalAlert {s} : (thermalAlert s).fuses = s.fuses := by simp [thermalAlert]
@[simp] theorem fuses_flagPace {s} : (flagPace s).fuses = s.fuses := by rfl
@[simp] theorem fuses_settleShare {s} : (settleShare s).fuses = s.fuses := by simp [settleShare]
@[simp] theorem keepsFuses_execOvercurrent {s} : KeepsFuses s (execOvercurrent s) := by simp [execOvercurrent]
@[simp] theorem keepsFuses_execCapRuleEval {avgW below1ms over76 s} :
    KeepsFuses s (execCapRuleEval avgW below1ms over76 s) :=
  by simp [execCapRuleEval]
@[simp] theorem keepsFuses_execWaveWithholdPeriod {s} : KeepsFuses s (execWaveWithholdPeriod s) :=
  by simp [execWaveWithholdPeriod]
@[simp] theorem keepsFuses_execPaceDomainEval {d shareBp s} : KeepsFuses s (execPaceDomainEval d shareBp s) := by rfl
@[simp] theorem fuses_paceRinkEval {waitBp s} : (paceRinkEval waitBp s).fuses = s.fuses := by rfl
@[simp] theorem keepsFuses_execThermalCeilingEval {junction stackTemps s} :
    KeepsFuses s (execThermalCeilingEval junction stackTemps s) :=
  by simp [execThermalCeilingEval]
@[simp] theorem keepsFuses_execDomainVoltageStep {d s} : KeepsFuses s (execDomainVoltageStep d s) :=
  by simp [execDomainVoltageStep]
@[simp] theorem keepsFuses_execInputOutOfRange {volt10mV s} : KeepsFuses s (execInputOutOfRange volt10mV s) :=
  by simp [execInputOutOfRange]
@[simp] theorem keepsFuses_execRegulatorCheck {errors s} : KeepsFuses s (execRegulatorCheck errors s) :=
  by simp [execRegulatorCheck]
@[simp] theorem keepsFuses_execTempSensorCheck {errors s} : KeepsFuses s (execTempSensorCheck errors s) :=
  by simp [execTempSensorCheck]
@[simp] theorem keepsFuses_execInputMonitorCheck {first second s} :
    KeepsFuses s (execInputMonitorCheck first second s) :=
  by simp [execInputMonitorCheck]
@[simp] theorem keepsFuses_execLaserMonitorCheck {low s} : KeepsFuses s (execLaserMonitorCheck low s) := by rfl
@[simp] theorem fuses_writeWord {off v s} : (writeWord off v s).fuses = s.fuses := by unfold writeWord; split <;> simp
@[simp] theorem fuses_writeLong {off v s} : (writeLong off v s).fuses = s.fuses := by unfold writeLong; split <;> simp
@[simp] theorem keepsFuses_execMgtRegisterWrite {off wide val s} : KeepsFuses s (execMgtRegisterWrite off wide val s) :=
  by simp [execMgtRegisterWrite]
@[simp] theorem keepsFuses_execMgtRingJobCtrlWrite {part val producer s} :
    KeepsFuses s (execMgtRingJobCtrlWrite part val producer s) :=
  by simp [execMgtRingJobCtrlWrite]
@[simp] theorem keepsFuses_execMgtIntStatusClear {mask s} : KeepsFuses s (execMgtIntStatusClear mask s) :=
  by simp [execMgtIntStatusClear]
@[simp] theorem keepsFuses_execMgtIntEnableWrite {val s} : KeepsFuses s (execMgtIntEnableWrite val s) :=
  by simp [execMgtIntEnableWrite]
@[simp] theorem fuses_sbRead {w s} : (sbRead w s).fuses = s.fuses := by simp [sbRead]
@[simp] theorem keepsFuses_execSbIdent {s} : KeepsFuses s (execSbIdent s) := by simp [execSbIdent]
@[simp] theorem keepsFuses_execSbState {s} : KeepsFuses s (execSbState s) := by simp [execSbState]
@[simp] theorem keepsFuses_execSbTemp {s} : KeepsFuses s (execSbTemp s) := by simp [execSbTemp]
@[simp] theorem keepsFuses_execSbStackTemp {s} : KeepsFuses s (execSbStackTemp s) := by simp [execSbStackTemp]
@[simp] theorem keepsFuses_execSbPower {s} : KeepsFuses s (execSbPower s) := by simp [execSbPower]
@[simp] theorem keepsFuses_execSbVolt {s} : KeepsFuses s (execSbVolt s) := by simp [execSbVolt]
@[simp] theorem keepsFuses_execSbCause {s} : KeepsFuses s (execSbCause s) := by simp [execSbCause]
@[simp] theorem fuses_sbAck {ack s} : (sbAck ack s).fuses = s.fuses := by rfl
@[simp] theorem keepsFuses_execSbResetWarm {s} : KeepsFuses s (execSbResetWarm s) := by simp [execSbResetWarm]
@[simp] theorem keepsFuses_execSbResetRink {s} : KeepsFuses s (execSbResetRink s) := by simp [execSbResetRink]
@[simp] theorem keepsFuses_execSbWriteRejected {cmd val pecOk s} : KeepsFuses s (execSbWriteRejected cmd val pecOk s) :=
  by rfl
@[simp] theorem keepsFuses_execSmbusBusTimeout {s} : KeepsFuses s (execSmbusBusTimeout s) := by rfl

/-! ## Resets, boot and rink formation (R390 to R394, R286) -/

@[simp] theorem fuses_powerOn {s} : (powerOn s).fuses = s.fuses := by rfl
@[simp] theorem fuses_lockOut {s} : (lockOut s).fuses = s.fuses := by rfl
@[simp] theorem keepsFuses_execPowerOnReset {s} : KeepsFuses s (execPowerOnReset s) := by rfl
@[simp] theorem keepsFuses_execInputLockout {s} : KeepsFuses s (execInputLockout s) := by rfl
@[simp] theorem keepsFuses_execInputOvervoltageStop {s} : KeepsFuses s (execInputOvervoltageStop s) := by rfl
@[simp] theorem fuses_lostNotice {s} : (lostNotice s).fuses = s.fuses := by simp [lostNotice]
@[simp] theorem keepsFuses_execThermalTrip {s} : KeepsFuses s (execThermalTrip s) := by simp [execThermalTrip]
@[simp] theorem keepsFuses_execThermalTripCooled {s} : KeepsFuses s (execThermalTripCooled s) :=
  by simp [execThermalTripCooled]
@[simp] theorem keepsFuses_execPowerGood {s} : KeepsFuses s (execPowerGood s) := by simp [execPowerGood]
@[simp] theorem fuses_resetUnits {s} : (resetUnits s).fuses = s.fuses := by rfl
@[simp] theorem fuses_restartPowerOn {s} : (restartPowerOn s).fuses = s.fuses := by rfl
@[simp] theorem keepsFuses_execPerstRelease {s} : KeepsFuses s (execPerstRelease s) := by rfl
@[simp] theorem fuses_rinkReset {s} : (rinkReset s).fuses = s.fuses :=
  by simp only [rinkReset, fuses_recoverSaves, fuses_resetUnits]
@[simp] theorem keepsFuses_execRinkResetFlood {s} : KeepsFuses s (execRinkResetFlood s) := by simp [execRinkResetFlood]
@[simp] theorem keepsFuses_execStepAbortUnanswered {s} : KeepsFuses s (execStepAbortUnanswered s) :=
  by simp [execStepAbortUnanswered]
@[simp] theorem keepsFuses_execReferenceClockLoss {s} : KeepsFuses s (execReferenceClockLoss s) := by rfl
@[simp] theorem keepsFuses_execFlashSelect {s} : KeepsFuses s (execFlashSelect s) := by simp [execFlashSelect]
@[simp] theorem keepsFuses_execRailsUp {s} : KeepsFuses s (execRailsUp s) := by simp [execRailsUp]
@[simp] theorem fuses_warmCoreFail {p s} : (warmCoreFail p s).fuses = s.fuses := by unfold warmCoreFail; split <;> simp
@[simp] theorem keepsFuses_execBootSelfTest {failed s} : KeepsFuses s (execBootSelfTest failed s) :=
  by simp [execBootSelfTest, fuses_foldl]
@[simp] theorem keepsFuses_execHbmInit {failedRows badLanes s} : KeepsFuses s (execHbmInit failedRows badLanes s) :=
  by simp [execHbmInit, fuses_foldl]
@[simp] theorem keepsFuses_execRuntimeLoad {s} : KeepsFuses s (execRuntimeLoad s) := by simp [execRuntimeLoad]
@[simp] theorem fuses_formRink {f s} : (formRink f s).fuses = s.fuses := by unfold formRink; (repeat' split) <;> simp
@[simp] theorem keepsFuses_execRinkFormation {f s} : KeepsFuses s (execRinkFormation f s) := by simp [execRinkFormation]
@[simp] theorem keepsFuses_execRinkFormationRetry {cause f s} : KeepsFuses s (execRinkFormationRetry cause f s) :=
  by simp [execRinkFormationRetry]

end Sys2Proof.Machine
end

section
/-! What each operation and each command leaves of the fuses: packets, memory-side units, collectives, controllers,
drains and frames (O60). -/

namespace Sys2Proof.Machine

/-! ## Check values, packets and memory-side units (R246 to R280, R349) -/

@[simp] theorem fuses_setCv {u v s} : (setCv u v s).fuses = s.fuses := by rfl
@[simp] theorem keepsFuses_execCvSelect {u p s} : KeepsFuses s (execCvSelect u p s) := by simp [execCvSelect]
@[simp] theorem keepsFuses_execCvFeed {u d s} : KeepsFuses s (execCvFeed u d s) := by simp [execCvFeed]
@[simp] theorem keepsFuses_execCvRead {u s} : KeepsFuses s (execCvRead u s) := by simp [execCvRead]
@[simp] theorem fuses_returnCredit {port p s} : (returnCredit port p s).fuses = s.fuses := by rfl
theorem fuses_launch {cls dest body s t} (h : launch cls dest body s = some t) : t.fuses = s.fuses := by
  unfold launch at h
  split at h
  · cases h
  · extract_lets p at h
    split at h
    · exact Option.some.inj h ▸ rfl
    · exact Option.some.inj h ▸ fuses_enqueuePacket
@[simp] theorem keepsFuses_execPacketInject {cls dest body s} : KeepsFuses s (execPacketInject cls dest body s) := by
  unfold execPacketInject
  split
  · trivial
  · exact fuses_getD fuses_launch (by simp)
@[simp] theorem keepsFuses_execPacketForward {port p s} : KeepsFuses s (execPacketForward port p s) :=
  by unfold execPacketForward; split <;> simp
@[simp] theorem fuses_sendParts {cls dest use a bss s} : (sendParts cls dest use a bss s).fuses = s.fuses := by
  induction bss generalizing a s with
  | nil => rfl
  | cons bs bss ih => exact ih.trans (fuses_getD fuses_launch rfl)
@[simp] theorem fuses_deliverEffect {p s} : (deliverEffect p s).fuses = s.fuses :=
  by unfold deliverEffect; split <;> simp
@[simp] theorem keepsFuses_execPacketDeliver {port p s} : KeepsFuses s (execPacketDeliver port p s) :=
  by simp [execPacketDeliver]
@[simp] theorem fuses_putPresent {bitmap b tile s} : (putPresent bitmap b tile s).fuses = s.fuses := by rfl
@[simp] theorem fuses_openTile {d bitmap base tile s} : (openTile d bitmap base tile s).fuses = s.fuses :=
  by simp [openTile, fuses_foldl]
@[simp] theorem fuses_openTiles {r s} : (openTiles r s).2.fuses = s.fuses :=
  by simp only [openTiles]; (repeat' split) <;> simp [fuses_foldl]
@[simp] theorem fuses_writeWordValue {r w s} : (writeWordValue r w s).fuses = s.fuses := by simp [writeWordValue]
@[simp] theorem fuses_advanceRun {r s} : (advanceRun r s).2.fuses = s.fuses := by simp [advanceRun, fuses_foldl]
@[simp] theorem fuses_spillItem {r s x} : (spillItem r s x).fuses = s.fuses := by unfold spillItem; split <;> simp
@[simp] theorem fuses_restage {r s} : (restage r s).fuses = s.fuses := by simp [restage, fuses_foldl]
@[simp] theorem fuses_putRun {r s} : (putRun r s).fuses = s.fuses := by rfl
@[simp] theorem fuses_advanceInto {r s} : (advanceInto r s).fuses = s.fuses := by simp [advanceInto]
@[simp] theorem fuses_advanceAll {s} : (advanceAll s).fuses = s.fuses := by simp [advanceAll, fuses_foldl]
@[simp] theorem fuses_reduceStop {code op source s} : (reduceStop code op source s).fuses = s.fuses :=
  by simp [reduceStop]
@[simp] theorem fuses_segmentIn {d g s} : (segmentIn d g s).fuses = s.fuses := by simp [segmentIn]
@[simp] theorem fuses_closeIn {d source c s} : (closeIn d source c s).fuses = s.fuses := by simp [closeIn]
theorem fuses_arrive {c op effect s} (h : effect.fuses = s.fuses) : (arrive c op effect s).fuses = s.fuses := by
  unfold arrive
  split
  · rfl
  · simp [h]
@[simp] theorem fuses_clearBits {bitmap tiles s} : (clearBits bitmap tiles s).fuses = s.fuses :=
  by simp [clearBits, fuses_foldl]
@[simp] theorem fuses_clearPresence {s} : (clearPresence s).fuses = s.fuses :=
  by simp only [clearPresence]; (repeat' split) <;> simp [fuses_foldl]

/-! ## Updates and collectives (R257 to R263, R289 to R293) -/

@[simp] theorem fuses_sweepTile {u row n i s} : (sweepTile u row n i s).fuses = s.fuses := by simp [sweepTile]
@[simp] theorem fuses_putStamp {page x s} : (putStamp page x s).fuses = s.fuses := by rfl
@[simp] theorem fuses_closeStamp {page s} : (closeStamp page s).fuses = s.fuses := by simp [closeStamp]
@[simp] theorem fuses_openPages {w s} : (openPages w s).2.fuses = s.fuses := by simp [openPages, fuses_foldl]
@[simp] theorem fuses_putSweep {w s} : (putSweep w s).fuses = s.fuses := by rfl
@[simp] theorem fuses_openInto {w s} : (openInto w s).fuses = s.fuses := by simp [openInto]
@[simp] theorem fuses_updateEffect {u row n s} : (updateEffect u row n s).fuses = s.fuses := by simp [updateEffect]
@[simp] theorem keepsFuses_execUpdateOperation {u s} : KeepsFuses s (execUpdateOperation u s) :=
  by unfold execUpdateOperation; (repeat' split) <;> simp
@[simp] theorem fuses_runSweep {w s} : (runSweep w s).fuses = s.fuses := by simp [runSweep, fuses_foldl]
@[simp] theorem fuses_afterSweep {w s} : (afterSweep w s).fuses = s.fuses := by simp [afterSweep]
@[simp] theorem keepsFuses_execOpenedSignal {op unit s} : KeepsFuses s (execOpenedSignal op unit s) :=
  by unfold execOpenedSignal; split <;> simp
@[simp] theorem fuses_closePage {page s} : (closePage page s).fuses = s.fuses := by simp [closePage]
@[simp] theorem keepsFuses_execPageDoneSignal {op page unit s} : KeepsFuses s (execPageDoneSignal op page unit s) :=
  by unfold execPageDoneSignal; (repeat' split) <;> simp
@[simp] theorem fuses_putPresence {p s} : (putPresence p s).fuses = s.fuses := by simp [putPresence, fuses_foldl]
@[simp] theorem fuses_putPiecePresence {p s} : (putPiecePresence p s).fuses = s.fuses :=
  by unfold putPiecePresence; split <;> simp
@[simp] theorem fuses_forwardPiece {ring op p s} : (forwardPiece ring op p s).fuses = s.fuses :=
  by unfold forwardPiece; split <;> simp
@[simp] theorem fuses_notePiece {ring op i s} : (notePiece ring op i s).fuses = s.fuses := by simp [notePiece]
@[simp] theorem fuses_takePiece {g s p} : (takePiece g s p).fuses = s.fuses := by unfold takePiece; split <;> simp
@[simp] theorem fuses_sendOwn {g s} : (sendOwn g s).fuses = s.fuses := by simp only [sendOwn]; (repeat' split) <;> simp
@[simp] theorem fuses_gatherEffect {g s} : (gatherEffect g s).fuses = s.fuses := by simp [gatherEffect, fuses_foldl]
@[simp] theorem fuses_feedSegment {d s g} : (feedSegment d s g).fuses = s.fuses := by simp [feedSegment]
@[simp] theorem fuses_feedContribution {d weight s c} : (feedContribution d weight s c).fuses = s.fuses :=
  by simp [feedContribution, fuses_foldl]
@[simp] theorem fuses_sendContribution {r s} : (sendContribution r s).fuses = s.fuses := by simp [sendContribution]
@[simp] theorem fuses_scatterEffect {r s} : (scatterEffect r s).fuses = s.fuses := by simp [scatterEffect, fuses_foldl]
@[simp] theorem keepsFuses_execReduceScatter {r s} : KeepsFuses s (execReduceScatter r s) :=
  by unfold execReduceScatter; split <;> simp
@[simp] theorem fuses_writeRanges {r l gs bs s} : (writeRanges r l gs bs s).fuses = s.fuses := by
  induction gs generalizing bs s with
  | nil => rfl
  | cons g gs ih => simp [writeRanges, ih]
@[simp] theorem fuses_takeSum {r s p} : (takeSum r s p).fuses = s.fuses := by simp [takeSum]
@[simp] theorem fuses_sendSum {r s} : (sendSum r s).fuses = s.fuses := by simp [sendSum]
@[simp] theorem fuses_allReduceEffect {r sums s} : (allReduceEffect r sums s).fuses = s.fuses :=
  by simp [allReduceEffect, fuses_foldl]
@[simp] theorem keepsFuses_execAllReduce {r sums s} : KeepsFuses s (execAllReduce r sums s) :=
  by unfold execAllReduce; split <;> simp
@[simp] theorem fuses_noteBroadcast {op root s} : (noteBroadcast op root s).fuses = s.fuses := by rfl
@[simp] theorem keepsFuses_execBroadcast {op root addr len bytes s} :
    KeepsFuses s (execBroadcast op root addr len bytes s) := by
  unfold execBroadcast
  split
  · trivial
  · split
    · exact fuses_arrive (by simp)
    · simp
@[simp] theorem keepsFuses_execBarrier {op s} : KeepsFuses s (execBarrier op s) := by simp [execBarrier]
@[simp] theorem fuses_noteRelease {op rel s} : (noteRelease op rel s).fuses = s.fuses := by rfl
@[simp] theorem fuses_startDump {op s} : (startDump op s).fuses = s.fuses := by unfold startDump; split <;> simp
@[simp] theorem fuses_confirmSnapshot {op s} : (confirmSnapshot op s).fuses = s.fuses := by simp [confirmSnapshot]
@[simp] theorem keepsFuses_execConsistentSnapshot {s} : KeepsFuses s (execConsistentSnapshot s) :=
  by simp [execConsistentSnapshot]

/-! ## Windows, Groom and the core controller (R135 to R182) -/

@[simp] theorem keepsFuses_execWindowGather {c s} : KeepsFuses s (execWindowGather c s) :=
  keepsFuses_runEngine fun _ => rfl
@[simp] theorem fuses_storeBlocks {c s} : (storeBlocks c s).fuses = s.fuses :=
  by simp only [storeBlocks]; (repeat' split) <;> simp [fuses_foldl]
@[simp] theorem keepsFuses_execGroomedStore {c s} : KeepsFuses s (execGroomedStore c s) :=
  keepsFuses_runEngine fun _ => fuses_storeBlocks
@[simp] theorem fuses_groomWrite {c blocks s} : (groomWrite c blocks s).fuses = s.fuses := by simp [groomWrite]
@[simp] theorem fuses_loadBlocks {c s} : (loadBlocks c s).fuses = s.fuses := by unfold loadBlocks; split <;> simp
@[simp] theorem keepsFuses_execGroomedLoad {c s} : KeepsFuses s (execGroomedLoad c s) :=
  keepsFuses_runEngine fun _ => fuses_loadBlocks
@[simp] theorem fuses_enqueue {e core op s} : (enqueue e core op s).fuses = s.fuses := by rfl
@[simp] theorem fuses_loadWrite {core l bs s} : (loadWrite core l bs s).fuses = s.fuses :=
  by unfold loadWrite; split <;> simp
@[simp] theorem fuses_loadEffect {core l s} : (loadEffect core l s).fuses = s.fuses := by simp [loadEffect]
@[simp] theorem fuses_issueEffect {c s} : (issueEffect c s).fuses = s.fuses := by unfold issueEffect; split <;> simp
@[simp] theorem keepsFuses_execEngineCommandIssue {c s} : KeepsFuses s (execEngineCommandIssue c s) :=
  by unfold execEngineCommandIssue; (repeat' split) <;> simp
@[simp] theorem keepsFuses_execBranchMispredict {core branch s} : KeepsFuses s (execBranchMispredict core branch s) :=
  by simp [execBranchMispredict]
@[simp] theorem keepsFuses_execSpeculativeLoadRetire {core load s} :
    KeepsFuses s (execSpeculativeLoadRetire core load s) :=
  by unfold execSpeculativeLoadRetire; (repeat' split) <;> simp
@[simp] theorem keepsFuses_execHbmResponseDropped {core slot tag s} :
    KeepsFuses s (execHbmResponseDropped core slot tag s) :=
  by rfl
@[simp] theorem keepsFuses_execTimeRead {ctx dest s} : KeepsFuses s (execTimeRead ctx dest s) :=
  by unfold execTimeRead; (repeat' split) <;> simp

/-! ## Drain, timebase and frames (R39, R100, R267) -/

@[simp] theorem fuses_drainOut {c ys s} : (drainOut c ys s).fuses = s.fuses := by unfold drainOut; split <;> simp
@[simp] theorem fuses_drainSave {c ys s} : (drainSave c ys s).fuses = s.fuses := by unfold drainSave; split <;> simp
@[simp] theorem fuses_drainLast {c sums s} : (drainLast c sums s).fuses = s.fuses := by simp [drainLast]
@[simp] theorem fuses_drainEffect {c e s} : (drainEffect c e s).fuses = s.fuses := by simp [drainEffect]
@[simp] theorem keepsFuses_execDrainResult {c s} : KeepsFuses s (execDrainResult c s) :=
  keepsFuses_runEngine fun t => by dsimp only [drainRun]; split <;> simp
@[simp] theorem fuses_slew {target s} : (slew target s).fuses = s.fuses := by simp [slew]
@[simp] theorem fuses_takeBeat {port sample lane s} : (takeBeat port sample lane s).fuses = s.fuses :=
  by simp [takeBeat]
@[simp] theorem keepsFuses_execBeatReceive {port sample lane s} : KeepsFuses s (execBeatReceive port sample lane s) :=
  by simp [execBeatReceive]
@[simp] theorem keepsFuses_execTimebaseUnsync {offsetNs heldUs s} :
    KeepsFuses s (execTimebaseUnsync offsetNs heldUs s) :=
  by simp [execTimebaseUnsync]
@[simp] theorem keepsFuses_execTimeRootTakeover {lost before s} : KeepsFuses s (execTimeRootTakeover lost before s) :=
  by unfold execTimeRootTakeover; split <;> simp
@[simp] theorem fuses_takeSwapWord {port x s} : (takeSwapWord port x s).fuses = s.fuses :=
  by simp only [takeSwapWord]; (repeat' split) <;> simp
@[simp] theorem fuses_takeWord {port lane type x s} : (takeWord port lane type x s).fuses = s.fuses :=
  by unfold takeWord; split <;> simp
@[simp] theorem fuses_acceptFrame {port ws ack s} : (acceptFrame port ws ack s).fuses = s.fuses :=
  fuses_sendAll.trans (fuses_foldl fun _ _ => fuses_takeWord)
@[simp] theorem fuses_rejectFrame {port bad s} : (rejectFrame port bad s).fuses = s.fuses :=
  by simp [rejectFrame, fuses_foldl]
@[simp] theorem keepsFuses_execPortFrameReceive {port words s} : KeepsFuses s (execPortFrameReceive port words s) :=
  by simp only [execPortFrameReceive]; (repeat' split) <;> simp

end Sys2Proof.Machine
end

section
/-! What each operation and each command leaves of the fuses: HBM, the Gatehouse, jobs, rinks and steps (O60). -/

namespace Sys2Proof.Machine

/-! ## HBM and tandem copies (R238 to R242, R309 to R315) -/

@[simp] theorem keepsFuses_execHbmRefresh {stack bank temp s} : KeepsFuses s (execHbmRefresh stack bank temp s) :=
  by rfl
@[simp] theorem fuses_correctedWord {row word s} : (correctedWord row word s).fuses = s.fuses := by simp [correctedWord]
@[simp] theorem fuses_poisonWord {stack w s} : (poisonWord stack w s).fuses = s.fuses :=
  by simp only [poisonWord]; (repeat' split) <;> simp
@[simp] theorem keepsFuses_execHbmScrub {stack word e s} : KeepsFuses s (execHbmScrub stack word e s) :=
  by simp [execHbmScrub]
@[simp] theorem fuses_restorePage {page p s} : (restorePage page p s).fuses = s.fuses := by rfl
@[simp] theorem fuses_uncorrectable {addr op tandem s} : (uncorrectable addr op tandem s).fuses = s.fuses :=
  by unfold uncorrectable; (repeat' split) <;> simp
@[simp] theorem fuses_reserveRead {b op bad e s} : (reserveRead b op bad e s).fuses = s.fuses := by simp [reserveRead]
@[simp] theorem keepsFuses_execHbmReadReturn {addr op e squashed reserve tandem s} :
    KeepsFuses s (execHbmReadReturn addr op e squashed reserve tandem s) :=
  by simp [execHbmReadReturn]
@[simp] theorem fuses_sendPages {pages s} : (sendPages pages s).fuses = s.fuses := by rfl
@[simp] theorem fuses_refreshDone {s} : (refreshDone s).fuses = s.fuses :=
  by simp only [refreshDone]; (repeat' split) <;> simp
@[simp] theorem keepsFuses_execTandemRefresh {s} : KeepsFuses s (execTandemRefresh s) := by simp [execTandemRefresh]
@[simp] theorem fuses_putTandemStamp {j x s} : (putTandemStamp j x s).fuses = s.fuses := by rfl
@[simp] theorem fuses_putTandemBytes {j bs s} : (putTandemBytes j bs s).fuses = s.fuses := by rfl
@[simp] theorem fuses_keepPage {step p s} : (keepPage step p s).fuses = s.fuses := by rfl
@[simp] theorem keepsFuses_execTandemPageReceive {step p cut s} : KeepsFuses s (execTandemPageReceive step p cut s) :=
  by unfold execTandemPageReceive; (repeat' split) <;> simp
@[simp] theorem fuses_ackPage {page s} : (ackPage page s).fuses = s.fuses := by simp [ackPage, fuses_foldl]
@[simp] theorem fuses_resume {s} : (resume s).fuses = s.fuses := by simp [resume]
@[simp] theorem fuses_endRestore {s} : (endRestore s).fuses = s.fuses := by simp [endRestore]
@[simp] theorem fuses_endSettling {s} : (endSettling s).fuses = s.fuses := by unfold endSettling; split <;> simp
@[simp] theorem fuses_settleRestore {page p s} : (settleRestore page p s).fuses = s.fuses := by simp [settleRestore]
@[simp] theorem fuses_settlePages {stamps restored pages s} : (settlePages stamps restored pages s).fuses = s.fuses :=
  by
  induction pages generalizing s with
  | nil => rfl
  | cons e pages ih =>
    simp only [settlePages]
    refine ih.trans ?_
    split
    · simp
    · split <;> simp
    · rfl
    · rfl
@[simp] theorem keepsFuses_execPageSettle {tandemStamps restored s} :
    KeepsFuses s (execPageSettle tandemStamps restored s) :=
  by unfold execPageSettle; split <;> simp

/-! ## Dictionary and batches (R341 to R348) -/

@[simp] theorem fuses_setChan {c f s} : (setChan c f s).fuses = s.fuses := by rfl
@[simp] theorem fuses_notePending {j ch producer s} : (notePending j ch producer s).fuses = s.fuses := by rfl
@[simp] theorem keepsFuses_execSampleRingProducerUpdate {ch producer s} :
    KeepsFuses s (execSampleRingProducerUpdate ch producer s) :=
  by unfold execSampleRingProducerUpdate; split <;> simp
@[simp] theorem keepsFuses_execDictionaryLoad {s} : KeepsFuses s (execDictionaryLoad s) :=
  by simp only [execDictionaryLoad]; (repeat' split) <;> simp
@[simp] theorem keepsFuses_execSampleDescriptor {ch desc s} : KeepsFuses s (execSampleDescriptor ch desc s) :=
  by unfold execSampleDescriptor; split <;> simp
@[simp] theorem keepsFuses_execReserveListRecord {ch rec s} : KeepsFuses s (execReserveListRecord ch rec s) :=
  by simp [execReserveListRecord]
@[simp] theorem keepsFuses_execSampleBytesArrive {ch bytes s} : KeepsFuses s (execSampleBytesArrive ch bytes s) :=
  by simp only [execSampleBytesArrive]; (repeat' split) <;> simp
@[simp] theorem keepsFuses_execReserveEntry {ch desc bytes s} : KeepsFuses s (execReserveEntry ch desc bytes s) :=
  by simp only [execReserveEntry]; (repeat' split) <;> simp
@[simp] theorem fuses_countBatch {ch c s} : (countBatch ch c s).fuses = s.fuses := by simp [countBatch]
@[simp] theorem fuses_completeBatch {j ch s} : (completeBatch j ch s).fuses = s.fuses :=
  by unfold completeBatch; split <;> simp
@[simp] theorem keepsFuses_execBatchComplete {ch s} : KeepsFuses s (execBatchComplete ch s) :=
  by unfold execBatchComplete; split <;> simp
@[simp] theorem fuses_releaseChan {k s ch} : (releaseChan k s ch).fuses = s.fuses :=
  by simp only [releaseChan]; (repeat' split) <;> simp
@[simp] theorem fuses_releaseBatch {j step s} : (releaseBatch j step s).fuses = s.fuses :=
  by simp [releaseBatch, fuses_foldl]
@[simp] theorem fuses_writeGhPage {j k s} : (writeGhPage j k s).fuses = s.fuses := by unfold writeGhPage; split <;> simp
@[simp] theorem keepsFuses_execGatehouseStatePage {s} : KeepsFuses s (execGatehouseStatePage s) :=
  by unfold execGatehouseStatePage; (repeat' split) <;> simp
@[simp] theorem keepsFuses_execBatchRebuild {s} : KeepsFuses s (execBatchRebuild s) :=
  by unfold execBatchRebuild; split <;> simp

/-! ## Replays, jobs and lodges (R52, R308, R364) -/

@[simp] theorem fuses_abandonTest {p s} : (abandonTest p s).fuses = s.fuses := by rfl
theorem fuses_remapCore {p s t} (h : remapCore p s = some t) : t.fuses = s.fuses := by
  unfold remapCore at h
  extract_lets d u at h
  have hu : u.fuses = s.fuses := by unfold u; split <;> simp
  split at h <;> cases h
  simp [hu]
@[simp] theorem fuses_remapAll {ps s} : (remapAll ps s).fuses = s.fuses := by
  induction ps generalizing s with
  | nil => rfl
  | cons p ps ih =>
    unfold remapAll
    split
    next t ht => exact ih.trans (fuses_remapCore ht)
    · simp
@[simp] theorem fuses_rotate {s} : (rotate s).fuses = s.fuses := by unfold rotate; (repeat' split) <;> simp
@[simp] theorem keepsFuses_execParkedCoreTestDone {core pass s} : KeepsFuses s (execParkedCoreTestDone core pass s) :=
  by simp [execParkedCoreTestDone]
@[simp] theorem fuses_beginReplay {j s} : (beginReplay j s).fuses = s.fuses := by simp [beginReplay]
theorem fuses_dropStep {j s t} (h : dropStep j s = some t) : t.fuses = s.fuses := by
  unfold dropStep at h
  split at h <;> cases h <;> rfl
@[simp] theorem keepsFuses_execStepReplay {s} : KeepsFuses s (execStepReplay s) := by
  unfold execStepReplay
  split
  · rfl
  · split
    · rfl
    · split
      next t ht => exact fuses_beginReplay.trans (fuses_dropStep ht)
      · rfl
@[simp] theorem fuses_faultRing {s} : (faultRing s).fuses = s.fuses := by simp [faultRing]
@[simp] theorem fuses_endHeld {s} : (endHeld s).fuses = s.fuses := by unfold endHeld; split <;> simp
@[simp] theorem keepsFuses_execJobRingProducerUpdate {producer s} :
    KeepsFuses s (execJobRingProducerUpdate producer s) :=
  by simp [execJobRingProducerUpdate]
@[simp] theorem keepsFuses_execJobFetch {f s} : KeepsFuses s (execJobFetch f s) := by simp [execJobFetch]
@[simp] theorem fuses_startBank {j s} : (startBank j s).fuses = s.fuses := by simp [startBank]
@[simp] theorem fuses_startUnits {j s} : (startUnits j s).fuses = s.fuses := by unfold startUnits; split <;> simp
@[simp] theorem fuses_placeBias {j s} : (placeBias j s).fuses = s.fuses := by rfl
@[simp] theorem fuses_startJob {j s} : (startJob j s).fuses = s.fuses := by simp [startJob]
@[simp] theorem keepsFuses_execJobStartBarrier {others s} : KeepsFuses s (execJobStartBarrier others s) :=
  by unfold execJobStartBarrier; (repeat' split) <;> simp
@[simp] theorem keepsFuses_execAdmissionHeaderUpdate {table hostCount readyOff s} :
    KeepsFuses s (execAdmissionHeaderUpdate table hostCount readyOff s) :=
  by unfold execAdmissionHeaderUpdate; (repeat' split) <;> simp
@[simp] theorem fuses_takeNotice {code j s} : (takeNotice code j s).fuses = s.fuses := by simp [takeNotice]
@[simp] theorem keepsFuses_execStopNotice {code s} : KeepsFuses s (execStopNotice code s) :=
  by unfold execStopNotice; split <;> simp
@[simp] theorem fuses_resumeJob {j s} : (resumeJob j s).fuses = s.fuses := by unfold resumeJob; split <;> simp
@[simp] theorem keepsFuses_execJobResumeAfterRinkReset {s} : KeepsFuses s (execJobResumeAfterRinkReset s) :=
  by unfold execJobResumeAfterRinkReset; split <;> simp
@[simp] theorem fuses_lodgeLoads {c s} : (lodgeLoads c s).fuses = s.fuses := by rfl
@[simp] theorem fuses_lodgeEffect {c s} : (lodgeEffect c s).fuses = s.fuses := by simp [lodgeEffect]
@[simp] theorem keepsFuses_execLodgeOperation {c s} : KeepsFuses s (execLodgeOperation c s) :=
  keepsFuses_runEngine fun _ => fuses_lodgeEffect

/-! ## Replica reductions, losses and rejoins (R296 to R328) -/

@[simp] theorem fuses_sendChunk {op b w s r} : (sendChunk op b w s r).fuses = s.fuses := by simp [sendChunk]
@[simp] theorem fuses_addCarryTile {op b c s t} : (addCarryTile op b c s t).fuses = s.fuses := by simp [addCarryTile]
@[simp] theorem fuses_addCarry {op b s} : (addCarry op b s).fuses = s.fuses := by simp [addCarry, fuses_foldl]
@[simp] theorem fuses_openCarry {s page} : (openCarry s page).fuses = s.fuses := by simp [openCarry]
@[simp] theorem fuses_copyCarryTile {b c s t} : (copyCarryTile b c s t).fuses = s.fuses := by rfl
@[simp] theorem fuses_writeCarry {included s b} : (writeCarry included s b).fuses = s.fuses :=
  by simp [writeCarry, fuses_foldl]
@[simp] theorem fuses_carryStep {included j s} : (carryStep included j s).fuses = s.fuses :=
  by simp [carryStep, fuses_foldl]
@[simp] theorem fuses_settleCarry {s} : (settleCarry s).fuses = s.fuses :=
  by unfold settleCarry; (repeat' split) <;> simp
@[simp] theorem fuses_settleBuffer {s d} : (settleBuffer s d).fuses = s.fuses :=
  by simp only [settleBuffer]; (repeat' split) <;> simp
@[simp] theorem fuses_noteArrival {j s r} : (noteArrival j s r).fuses = s.fuses := by simp [noteArrival]
@[simp] theorem fuses_settleReplica {s} : (settleReplica s).fuses = s.fuses :=
  by simp only [settleReplica]; (repeat' split) <;> simp [fuses_foldl]
@[simp] theorem fuses_recordSets {j i s} : (recordSets j i s).fuses = s.fuses := by simp [recordSets]
@[simp] theorem fuses_publishSets {i s} : (publishSets i s).fuses = s.fuses := by unfold publishSets; split <;> simp
@[simp] theorem fuses_useFates {s} : (useFates s).fuses = s.fuses :=
  fuses_settleReplica.trans (fuses_foldl fun t r => by split <;> simp)
@[simp] theorem fuses_formSet {s} : (formSet s).fuses = s.fuses := by simp [formSet]
@[simp] theorem fuses_afterVote {s} : (afterVote s).fuses = s.fuses := by simp [afterVote]
@[simp] theorem fuses_takeManifest {s} : (takeManifest s).fuses = s.fuses :=
  by simp only [takeManifest]; (repeat' split) <;> simp
@[simp] theorem keepsFuses_execManifestHostCountUpdate {count entries s} :
    KeepsFuses s (execManifestHostCountUpdate count entries s) :=
  by unfold execManifestHostCountUpdate; split <;> simp
@[simp] theorem fuses_setDeadline {j release s} : (setDeadline j release s).fuses = s.fuses := by rfl
@[simp] theorem fuses_putWeight {r w s} : (putWeight r w s).fuses = s.fuses := by rfl
@[simp] theorem fuses_contribute {op i b s} : (contribute op i b s).fuses = s.fuses := by simp [contribute, fuses_foldl]
@[simp] theorem keepsFuses_execReplicaReduction {op buffer s} : KeepsFuses s (execReplicaReduction op buffer s) :=
  by unfold execReplicaReduction; (repeat' split) <;> simp
@[simp] theorem fuses_putMine {r one s} : (putMine r one s).fuses = s.fuses := by rfl
@[simp] theorem fuses_castVote {r s} : (castVote r s).fuses = s.fuses := by simp [castVote]
@[simp] theorem fuses_putRinkVote {voter r one s} : (putRinkVote voter r one s).fuses = s.fuses := by rfl
@[simp] theorem fuses_rinkVote {r others s} : (rinkVote r others s).fuses = s.fuses := by simp [rinkVote]
@[simp] theorem keepsFuses_execVote {rink others s} : KeepsFuses s (execVote rink others s) :=
  by unfold execVote; split <;> simp
@[simp] theorem keepsFuses_execCutoffDeadline {s} : KeepsFuses s (execCutoffDeadline s) :=
  by simp only [execCutoffDeadline]; (repeat' split) <;> simp [fuses_foldl]
@[simp] theorem keepsFuses_execRinkVoteReceive {voter rink one s} :
    KeepsFuses s (execRinkVoteReceive voter rink one s) :=
  by unfold execRinkVoteReceive; split <;> simp
@[simp] theorem fuses_dropRink {r s} : (dropRink r s).fuses = s.fuses := by rfl
@[simp] theorem keepsFuses_execLeaveNotice {rink s} : KeepsFuses s (execLeaveNotice rink s) := by simp [execLeaveNotice]
@[simp] theorem fuses_boundarySet {s} : (boundarySet s).fuses = s.fuses := by simp [boundarySet, fuses_foldl]
@[simp] theorem fuses_repairPages {pages s} : (repairPages pages s).fuses = s.fuses :=
  by simp [repairPages, fuses_foldl]
@[simp] theorem fuses_reportMisfits {rs s} : (reportMisfits rs s).fuses = s.fuses :=
  by simp [reportMisfits, fuses_foldl]
@[simp] theorem fuses_checkPassed {s} : (checkPassed s).fuses = s.fuses := by rfl
@[simp] theorem fuses_checkAgain {v s} : (checkAgain v s).fuses = s.fuses := by simp [checkAgain]
@[simp] theorem fuses_compareReplicas {rs majority s} : (compareReplicas rs majority s).fuses = s.fuses :=
  by simp only [compareReplicas]; (repeat' split) <;> simp
@[simp] theorem keepsFuses_execReplicaCheckRecord {records majority s} :
    KeepsFuses s (execReplicaCheckRecord records majority s) :=
  by simp [execReplicaCheckRecord]
@[simp] theorem fuses_settleAfter {d s} : (settleAfter d s).fuses = s.fuses := by simp [settleAfter]
@[simp] theorem keepsFuses_execSegmentArrive {d seg s} : KeepsFuses s (execSegmentArrive d seg s) := by
  unfold execSegmentArrive
  split
  · trivial
  · exact fuses_arrive (by simp)
@[simp] theorem keepsFuses_execCloseArrive {d source c s} : KeepsFuses s (execCloseArrive d source c s) := by
  unfold execCloseArrive
  split
  · trivial
  · exact fuses_arrive (by simp)
@[simp] theorem keepsFuses_execAllGather {g s} : KeepsFuses s (execAllGather g s) := by
  unfold execAllGather
  split
  · exact fuses_arrive rfl
  · split
    · trivial
    · exact fuses_arrive (by simp)
@[simp] theorem fuses_noteDeadline {op rel s} : (noteDeadline op rel s).fuses = s.fuses :=
  by unfold noteDeadline; split <;> simp
@[simp] theorem keepsFuses_execBarrierRelease {op machine release s} :
    KeepsFuses s (execBarrierRelease op machine release s) :=
  by simp [execBarrierRelease]
@[simp] theorem fuses_pageAcked {page s} : (pageAcked page s).fuses = s.fuses := by simp [pageAcked]
@[simp] theorem keepsFuses_execTandemPageAck {a s} : KeepsFuses s (execTandemPageAck a s) :=
  by unfold execTandemPageAck; (repeat' split) <;> simp
@[simp] theorem fuses_pauseJob {s} : (pauseJob s).fuses = s.fuses := by unfold pauseJob; (repeat' split) <;> simp
@[simp] theorem fuses_reportLost {fresh s} : (reportLost fresh s).fuses = s.fuses := by simp [reportLost, fuses_foldl]
@[simp] theorem fuses_pauseLeave {s} : (pauseLeave s).fuses = s.fuses := by simp [pauseLeave]
@[simp] theorem fuses_pauseFor {lost s} : (pauseFor lost s).fuses = s.fuses :=
  by simp only [pauseFor]; (repeat' split) <;> simp
@[simp] theorem keepsFuses_execModuleLost {lost s} : KeepsFuses s (execModuleLost lost s) := by simp [execModuleLost]
@[simp] theorem keepsFuses_execPause {lost s} : KeepsFuses s (execPause lost s) := by simp [execPause]
@[simp] theorem keepsFuses_execRecoveryWaitExpiry {s} : KeepsFuses s (execRecoveryWaitExpiry s) :=
  by simp [execRecoveryWaitExpiry]
@[simp] theorem fuses_noteAdoption {c s} : (noteAdoption c s).fuses = s.fuses := by simp [noteAdoption]
@[simp] theorem fuses_joinStandby {j a s} : (joinStandby j a s).fuses = s.fuses := by simp [joinStandby]
@[simp] theorem fuses_joinLive {a s} : (joinLive a s).fuses = s.fuses := by simp [joinLive]
@[simp] theorem keepsFuses_execAdoptionJoin {a s} : KeepsFuses s (execAdoptionJoin a s) :=
  by unfold execAdoptionJoin; (repeat' split) <;> simp
@[simp] theorem fuses_sendKept {s} : (sendKept s).fuses = s.fuses := by rfl
@[simp] theorem fuses_restoreOwn {pages s} : (restoreOwn pages s).fuses = s.fuses :=
  fuses_foldl fun t e => by split <;> simp
@[simp] theorem fuses_ackRestored {pages s} : (ackRestored pages s).fuses = s.fuses := by rfl
@[simp] theorem fuses_keepAll {pages s} : (keepAll pages s).fuses = s.fuses := by simp [keepAll, fuses_foldl]
@[simp] theorem keepsFuses_execTandemRestore {role s} : KeepsFuses s (execTandemRestore role s) :=
  by unfold execTandemRestore; (repeat' split) <;> simp
@[simp] theorem fuses_addJoin {r step s} : (addJoin r step s).fuses = s.fuses := by rfl
@[simp] theorem keepsFuses_execRejoinRequest {rink named s} : KeepsFuses s (execRejoinRequest rink named s) :=
  by unfold execRejoinRequest; (repeat' split) <;> simp
@[simp] theorem fuses_clearCarry {j s} : (clearCarry j s).fuses = s.fuses := by simp [clearCarry, fuses_foldl]
@[simp] theorem fuses_rejoinAt {j step pages s} : (rejoinAt j step pages s).fuses = s.fuses := by simp [rejoinAt]
@[simp] theorem keepsFuses_execRejoinStateTransfer {step pages s} :
    KeepsFuses s (execRejoinStateTransfer step pages s) :=
  by unfold execRejoinStateTransfer; split <;> simp
@[simp] theorem keepsFuses_execMarshalBeat {index s} : KeepsFuses s (execMarshalBeat index s) :=
  by simp [execMarshalBeat]
@[simp] theorem fuses_promote {s} : (promote s).fuses = s.fuses := by simp [promote]
@[simp] theorem keepsFuses_execMarshalPromotion {silenceUs s} : KeepsFuses s (execMarshalPromotion silenceUs s) :=
  by simp [execMarshalPromotion]
@[simp] theorem keepsFuses_execControllerBTakeover {silenceUs s} : KeepsFuses s (execControllerBTakeover silenceUs s) :=
  by simp [execControllerBTakeover]

/-! ## Steps (R45 to R50) -/

@[simp] theorem fuses_setPhase {p s} : (setPhase p s).fuses = s.fuses := by rfl
@[simp] theorem fuses_takeTable {j s r} : (takeTable j s r).fuses = s.fuses := by rfl
@[simp] theorem fuses_takeRecords {j s} : (takeRecords j s).fuses = s.fuses := by simp [takeRecords, fuses_foldl]
@[simp] theorem fuses_waitInput {s} : (waitInput s).fuses = s.fuses := by simp [waitInput]
@[simp] theorem fuses_endCommands {s} : (endCommands s).fuses = s.fuses := by rfl
@[simp] theorem fuses_freshStores {s} : (freshStores s).fuses = s.fuses := by rfl
@[simp] theorem fuses_beginStep {s} : (beginStep s).fuses = s.fuses := by simp [beginStep]
@[simp] theorem fuses_startStep {j s} : (startStep j s).fuses = s.fuses := by unfold startStep; (repeat' split) <;> simp
@[simp] theorem keepsFuses_execStepStart {s} : KeepsFuses s (execStepStart s) :=
  by simp only [execStepStart]; (repeat' split) <;> simp
@[simp] theorem fuses_remapRows {s} : (remapRows s).fuses = s.fuses := by simp [remapRows, fuses_foldl]
@[simp] theorem fuses_rotateAt {j step s} : (rotateAt j step s).fuses = s.fuses := by simp [rotateAt]
@[simp] theorem fuses_feedJoiners {next s} : (feedJoiners next s).fuses = s.fuses := by simp [feedJoiners]
@[simp] theorem fuses_passRole {s} : (passRole s).fuses = s.fuses := by rfl
@[simp] theorem fuses_publishOwn {s} : (publishOwn s).fuses = s.fuses := by unfold publishOwn; (repeat' split) <;> simp
@[simp] theorem fuses_commitUnits {j s} : (commitUnits j s).fuses = s.fuses := by simp [commitUnits]
@[simp] theorem fuses_atBoundary {j step waitBp s} : (atBoundary j step waitBp s).fuses = s.fuses :=
  by simp [atBoundary]
@[simp] theorem keepsFuses_execCommitBarrier {waitBp s} : KeepsFuses s (execCommitBarrier waitBp s) :=
  by unfold execCommitBarrier; split <;> simp
@[simp] theorem keepsFuses_execCutPointReached {s} : KeepsFuses s (execCutPointReached s) :=
  by unfold execCutPointReached; split <;> simp
@[simp] theorem fuses_writeDump {j limit complete s} : (writeDump j limit complete s).fuses = s.fuses :=
  by simp [writeDump]
@[simp] theorem fuses_holdAtCut {j s} : (holdAtCut j s).fuses = s.fuses := by simp [holdAtCut]
@[simp] theorem keepsFuses_execCutDump {upTo s} : KeepsFuses s (execCutDump upTo s) :=
  by unfold execCutDump; (repeat' split) <;> simp

/-! ## Streams (R114 to R126) -/

@[simp] theorem fuses_writeElems {op out vals rests s} : (writeElems op out vals rests s).fuses = s.fuses :=
  by simp [writeElems]
@[simp] theorem fuses_writeRowOuts {op outs rows s} : (writeRowOuts op outs rows s).fuses = s.fuses := by
  induction outs generalizing rows s with
  | nil => rfl
  | cons out outs ih => simp [writeRowOuts, ih]
@[simp] theorem fuses_writeFlags {flags es s} : (writeFlags flags es s).fuses = s.fuses :=
  by unfold writeFlags; split <;> simp
@[simp] theorem fuses_drawRows {ctx dE dR lens s} : (drawRows ctx dE dR lens s).2.fuses = s.fuses := by rfl
@[simp] theorem fuses_elementRow {ctx n own dOut ins s} : (elementRow ctx n own dOut ins s).2.fuses = s.fuses :=
  by simp [elementRow]
@[simp] theorem fuses_runEw {ctx f ins out s} : (runEw ctx f ins out s).fuses = s.fuses := by simp [runEw]
@[simp] theorem fuses_runMaskLogic {f n a b out s} : (runMaskLogic f n a b out s).fuses = s.fuses :=
  by simp [runMaskLogic]
@[simp] theorem fuses_runSelect {ctx mask a b out s} : (runSelect ctx mask a b out s).fuses = s.fuses :=
  by simp [runSelect]
@[simp] theorem fuses_runFunc {ctx f deriv x out s} : (runFunc ctx f deriv x out s).fuses = s.fuses := by simp [runFunc]
@[simp] theorem fuses_runReduce {ctx f x lens mask out flags s} :
    (runReduce ctx f x lens mask out flags s).fuses = s.fuses :=
  by simp [runReduce]
@[simp] theorem fuses_runTopk {ctx k x lens mask vals pos s} : (runTopk ctx k x lens mask vals pos s).fuses = s.fuses :=
  by simp [runTopk]
@[simp] theorem fuses_runScan {ctx f incl x lens mask out s} : (runScan ctx f incl x lens mask out s).fuses = s.fuses :=
  by simp [runScan]
@[simp] theorem fuses_writeOptElems {op out vals rests s} : (writeOptElems op out vals rests s).fuses = s.fuses :=
  by unfold writeOptElems; split <;> simp
@[simp] theorem fuses_runSoftmax {ctx x lens mask out lse m sm s} :
    (runSoftmax ctx x lens mask out lse m sm s).fuses = s.fuses :=
  by simp [runSoftmax]
@[simp] theorem fuses_runNorm {ctx layer x gamma beta eps lens mask out mu r flags s} :
    (runNorm ctx layer x gamma beta eps lens mask out mu r flags s).fuses = s.fuses :=
  by simp [runNorm]
@[simp] theorem fuses_runSoftmaxBack {ctx lse x dy dl lens mask out s} :
    (runSoftmaxBack ctx lse x dy dl lens mask out s).fuses = s.fuses :=
  by simp [runSoftmaxBack]
@[simp] theorem fuses_writeFeatures {ctx outs s} : (writeFeatures ctx outs s).fuses = s.fuses := by simp [writeFeatures]
@[simp] theorem fuses_runNormBack {ctx layer x dy gamma eps lens mask dx dgamma dbeta s} :
    (runNormBack ctx layer x dy gamma eps lens mask dx dgamma dbeta s).fuses = s.fuses :=
  by simp [runNormBack]
@[simp] theorem fuses_runFeatureSum {ctx x features mask out s} :
    (runFeatureSum ctx x features mask out s).fuses = s.fuses :=
  by simp [runFeatureSum]
@[simp] theorem fuses_runDropout {ctx theta scale x out maskOut s} :
    (runDropout ctx theta scale x out maskOut s).fuses = s.fuses :=
  by simp only [runDropout]; (repeat' split) <;> simp
@[simp] theorem fuses_runUniformBits {ctx n out s} : (runUniformBits ctx n out s).fuses = s.fuses :=
  by simp [runUniformBits]
@[simp] theorem fuses_runUniform {ctx n out s} : (runUniform ctx n out s).fuses = s.fuses := by simp [runUniform]
@[simp] theorem fuses_runNormal {ctx n out s} : (runNormal ctx n out s).fuses = s.fuses := by simp [runNormal]
@[simp] theorem fuses_runNormalFma {ctx sigma x out s} : (runNormalFma ctx sigma x out s).fuses = s.fuses :=
  by simp [runNormalFma]
@[simp] theorem fuses_placedRow {ctx dOut n x src s} : (placedRow ctx dOut n x src s).2.fuses = s.fuses :=
  by simp [placedRow]
@[simp] theorem fuses_runGather {ctx addrs x out s} : (runGather ctx addrs x out s).fuses = s.fuses :=
  by simp [runGather]
@[simp] theorem fuses_placeElems {t as bs es s} : (placeElems t as bs es s).fuses = s.fuses := by
  induction as, bs, es, s using placeElems.induct t with
  | case1 a as b bs e es s v u ih =>
    unfold placeElems
    refine ih.trans ?_
    split <;> simp [u]
  | case2 as bs es s hshort =>
    rw [placeElems]
    exact hshort
@[simp] theorem fuses_runScatter {ctx addrs x out s} : (runScatter ctx addrs x out s).fuses = s.fuses :=
  by simp [runScatter]
@[simp] theorem fuses_addElem {t a x s} : (addElem t a x s).fuses = s.fuses := by simp [addElem]
@[simp] theorem fuses_runScatterAdd {ctx addrs x out s} : (runScatterAdd ctx addrs x out s).fuses = s.fuses :=
  by simp [runScatterAdd, fuses_foldl]
@[simp] theorem fuses_runPool {ctx mx inclusive x window out flags s} :
    (runPool ctx mx inclusive x window out flags s).fuses = s.fuses :=
  by simp [runPool]
@[simp] theorem fuses_runStream {ctx o s} : (runStream ctx o s).fuses = s.fuses := by unfold runStream; split <;> simp
@[simp] theorem keepsFuses_execStreamOperation {c s} : KeepsFuses s (execStreamOperation c s) :=
  keepsFuses_runEngine fun _ => fuses_runStream

/-! ## Every command -/

/-- The commands that may touch the fuses. -/
def mayBlow : Instr → Bool
  | .lifecycle _ | .healthSweep _ | .heldSweepStart _ | .bootRom | .warmReset | .perstAssert => true
  | _ => false

theorem keepsFuses_exec {i s} (h : mayBlow i = false) : KeepsFuses s (exec i s) := by
  unfold exec
  split <;> simp [mayBlow] at h ⊢

end Sys2Proof.Machine
end

section
/-! Fuses that only blow (O60). -/

namespace Sys2Proof.Machine

/-! ## Fuses that only blow (R399, R437) -/

/-- An owner slot in which bits have only been blown: valid and revoked stay set, and a slot in which some bit is blown keeps
its key and seed. -/
structure SlotGrows (o p : OwnerSlot) : Prop where
  valid : o.valid = true → p.valid = true
  revoked : o.revoked = true → p.revoked = true
  touched : o.touched = true → p.touched = true ∧ p.ownerKey = o.ownerKey ∧ p.seed = o.seed

theorem SlotGrows.refl (o : OwnerSlot) : SlotGrows o o := ⟨id, id, fun h => ⟨h, rfl, rfl⟩⟩

theorem SlotGrows.trans {o p q : OwnerSlot} (h : SlotGrows o p) (h' : SlotGrows p q) : SlotGrows o q where
  valid hv := h'.valid (h.valid hv)
  revoked hr := h'.revoked (h.revoked hr)
  touched ht := by
    obtain ⟨hp, hkey, hseed⟩ := h.touched ht
    obtain ⟨hq, hkey', hseed'⟩ := h'.touched hp
    exact ⟨hq, hkey'.trans hkey, hseed'.trans hseed⟩

theorem slotGrows_of_unused {o : OwnerSlot} (h : o.unused = true) (p : OwnerSlot) : SlotGrows o p := by
  simp only [OwnerSlot.unused, Bool.and_eq_true, Bool.not_eq_true'] at h
  obtain ⟨⟨ht, hv⟩, hr⟩ := h
  exact ⟨by simp [hv], by simp [hr], by simp [ht]⟩

/-- Fuses of which `g` is a later reading than `f`. -/
structure FusesGrow (f g : Fuses) : Prop where
  vendorRootHash : g.vendorRootHash = f.vendorRootHash
  romKey : g.romKey = f.romKey
  deviceSecret : g.deviceSecret = f.deviceSecret
  deviceId : g.deviceId = f.deviceId
  slots : ∀ k, SlotGrows (slotOf f k) (slotOf g k)
  deadCores : f.deadCores <+: g.deadCores
  deadRows : f.deadRows <+: g.deadRows
  deadWaves : f.deadWaves <+: g.deadWaves

theorem FusesGrow.refl (f : Fuses) : FusesGrow f f :=
  ⟨rfl, rfl, rfl, rfl, fun _ => .refl _, List.prefix_rfl, List.prefix_rfl, List.prefix_rfl⟩

theorem FusesGrow.of_eq {f g : Fuses} (h : g = f) : FusesGrow f g := h ▸ .refl f

theorem FusesGrow.trans {f g h : Fuses} (a : FusesGrow f g) (b : FusesGrow g h) : FusesGrow f h where
  vendorRootHash := b.vendorRootHash.trans a.vendorRootHash
  romKey := b.romKey.trans a.romKey
  deviceSecret := b.deviceSecret.trans a.deviceSecret
  deviceId := b.deviceId.trans a.deviceId
  slots k := (a.slots k).trans (b.slots k)
  deadCores := a.deadCores.trans b.deadCores
  deadRows := a.deadRows.trans b.deadRows
  deadWaves := a.deadWaves.trans b.deadWaves

theorem fusesGrow_lifecycle (f : Fuses) (l : Lifecycle) : FusesGrow f { f with lifecycle := l } :=
  ⟨rfl, rfl, rfl, rfl, fun k => by
    have h : slotOf { f with lifecycle := l } k = slotOf f k := by unfold slotOf; split <;> rfl
    exact h ▸ .refl _, List.prefix_rfl, List.prefix_rfl, List.prefix_rfl⟩

/-- Blowing bits of one slot blows nothing else. -/
theorem fusesGrow_setSlot {i : Nat} {g : OwnerSlot → OwnerSlot} {f : Fuses} (h : SlotGrows (slotOf f i) (g (slotOf f i))) :
    FusesGrow f (setSlot i g f) := by
  have other (o : OwnerSlot) : SlotGrows o o := .refl o
  unfold setSlot
  split
  · exact ⟨rfl, rfl, rfl, rfl, fun k => by match k with | 0 => exact h | 1 | 2 | _ + 3 => exact other _,
      List.prefix_rfl, List.prefix_rfl, List.prefix_rfl⟩
  · exact ⟨rfl, rfl, rfl, rfl, fun k => by match k with | 1 => exact h | 0 | 2 | _ + 3 => exact other _,
      List.prefix_rfl, List.prefix_rfl, List.prefix_rfl⟩
  · exact ⟨rfl, rfl, rfl, rfl, fun k => by match k with | 2 => exact h | 0 | 1 | _ + 3 => exact other _,
      List.prefix_rfl, List.prefix_rfl, List.prefix_rfl⟩
  next h0 h1 h2 =>
    have hi : slotOf f i = f.slot3 := by unfold slotOf; split <;> simp_all
    rw [hi] at h
    exact ⟨rfl, rfl, rfl, rfl, fun k => by match k with | _ + 3 => exact h | 0 | 1 | 2 => exact other _,
      List.prefix_rfl, List.prefix_rfl, List.prefix_rfl⟩

/-! ## The edges of the life cycle (R402 to R405) -/

/-- Only slot `i` and the life-cycle state differ. -/
def SlotFilled (i : Nat) (f g : Fuses) : Prop := ∃ fill l, g = { setSlot i fill f with lifecycle := l }

theorem setSlot_id (i : Nat) (f : Fuses) : setSlot i id f = f := by unfold setSlot; split <;> rfl

theorem setSlot_setSlot (i : Nat) (g h : OwnerSlot → OwnerSlot) (f : Fuses) (l : Lifecycle) :
    setSlot i g { setSlot i h f with lifecycle := l } = { setSlot i (g ∘ h) f with lifecycle := l } := by
  match i with | 0 | 1 | 2 | _ + 3 => rfl

theorem slotFilled_refl (i : Nat) (f : Fuses) : SlotFilled i f f := ⟨id, f.lifecycle, by rw [setSlot_id]⟩

theorem SlotFilled.refill {i : Nat} {f g : Fuses} (h : SlotFilled i f g) (fill : OwnerSlot → OwnerSlot) :
    SlotFilled i f (setSlot i fill g) := by
  obtain ⟨first, l, rfl⟩ := h
  exact ⟨_, l, setSlot_setSlot i fill first f l⟩

theorem SlotFilled.ite {c : Prop} [Decidable c] {i : Nat} {f : Fuses} {s t : State} (hs : SlotFilled i f s.fuses)
    (ht : SlotFilled i f t.fuses) : SlotFilled i f (if c then s else t).fuses := by split <;> assumption

theorem SlotFilled.grows {i : Nat} {f g : Fuses} (h : SlotFilled i f g) (hi : (slotOf f i).unused = true) :
    FusesGrow f g := by
  obtain ⟨fill, l, rfl⟩ := h
  exact (fusesGrow_setSlot (slotGrows_of_unused hi _)).trans (fusesGrow_lifecycle _ l)

theorem SlotFilled.blow {i : Nat} {f : Fuses} {s : State} (h : SlotFilled i f s.fuses) (fill : OwnerSlot → OwnerSlot) :
    SlotFilled i f (withFuses (setSlot i fill) s).fuses := h.refill fill

theorem SlotFilled.state {i : Nat} {f g : Fuses} (h : SlotFilled i f g) (l : Lifecycle) :
    SlotFilled i f { g with lifecycle := l } := by
  obtain ⟨fill, _, rfl⟩ := h
  exact ⟨fill, l, rfl⟩

theorem provision_fills (i : Nat) (key : BitVec 512) (n : Nat) (s : State) :
    SlotFilled i s.fuses (provision i key n s).fuses := by
  have h0 : SlotFilled i s.fuses (takeFree s).2.fuses := slotFilled_refl i s.fuses
  have h1 := SlotFilled.ite (c := 1 ≤ n) (h0.blow fun o => { o with ownerKey := key, touched := true }) h0
  have h2 := SlotFilled.ite (c := 2 ≤ n) (h1.blow fun o => { o with seed := Config.noise256 (takeFree s).1 }) h1
  have h3 := SlotFilled.ite (c := 3 ≤ n) (h2.blow fun o => { o with valid := true }) h2
  exact .ite (h3.state .provisioned) h3

theorem revokeActive_grows (s : State) : FusesGrow s.fuses (revokeActive s).fuses := by
  unfold revokeActive
  split
  · exact .refl _
  · exact fusesGrow_setSlot (g := fun o => { o with revoked := true }) ⟨id, fun _ => rfl, fun h => ⟨h, rfl, rfl⟩⟩

theorem giveBack_grows (n : Nat) (s : State) : FusesGrow s.fuses (giveBack n s).fuses := by
  unfold giveBack
  extract_lets c s1 s2 s3 s4
  have h1 : s1.fuses = s.fuses := by unfold s1; split <;> rfl
  have h2 : FusesGrow s.fuses s2.fuses := by
    unfold s2
    rw [← h1]
    split
    · exact revokeActive_grows s1
    · exact .refl _
  have h4 : s4.fuses = s2.fuses := by simp [s4, s3]
  rw [← h4] at h2
  split
  · exact h2.trans (fusesGrow_lifecycle _ .returned)
  · exact h2

theorem unused_of_unusedSlot {f : Fuses} {i : Nat} (h : unusedSlot f = some i) : (slotOf f i).unused = true :=
  List.find?_some (p := fun i => (slotOf f i).unused) h

/-- A token into Provisioned names the lowest unused slot (R402, R403). -/
theorem unusedSlot_of_tokenEdge {s : State} {t : BitVec 2048} (h : tokenEdge s t = some .provisioned) :
    unusedSlot s.fuses = some (field t 55 48) := by
  unfold tokenEdge at h
  split at h
  next fr dst hfr hdst =>
    split at h
    · cases h
    next vendor owner hsigners =>
      extract_lets signer key slotOk at h
      cases hkey : key with
      | none => simp [hkey] at h
      | some k =>
        simp only [hkey] at h
        split at h
        next hall =>
          obtain ⟨_, _, _, _, _, hslot, _⟩ := hall
          cases h
          simp only [slotOk, edgeSlot] at hslot
          split at hslot
          next he => cases he
          · cases hslot
          next j he =>
            simp only [Option.some.injEq] at he
            rw [he, beq_iff_eq.mp hslot]
        · cases h
  · cases h

theorem transition_grows {dst : Lifecycle} {t : BitVec 2048} (n : Nat) {s u : State} (h : tokenEdge s t = some dst)
    (hu : u.fuses = s.fuses) : FusesGrow s.fuses (transition dst t n u).fuses := by
  rw [← hu]
  unfold transition
  split
  · refine (provision_fills _ _ _ _).grows (unused_of_unusedSlot ?_)
    rw [hu]
    exact unusedSlot_of_tokenEdge h
  · exact giveBack_grows n u
  · split
    · exact fusesGrow_lifecycle _ _
    · exact .refl _

theorem lifecycle_grows (cut : Option Nat) (s : State) : FusesGrow s.fuses (lifecycle cut s).fuses := by
  unfold lifecycle
  extract_lets a t
  split
  · exact .of_eq fuses_refuse
  · split
    · exact .of_eq fuses_refuse
    next dst hdst =>
      split
      next n => exact transition_grows n hdst (by simp)
      · rw [fuses_succeed]
        exact transition_grows 5 hdst rfl

/-- What a transition that a reset interrupted leaves ROM to blow is its state bit (R405). -/
theorem finishTransition_fuses (s : State) :
    (finishTransition s).fuses = { s.fuses with lifecycle := (finishTransition s).fuses.lifecycle } ∧
      (transitionOpen s.fuses = false → (finishTransition s).fuses = s.fuses) := by
  unfold finishTransition transitionOpen
  split <;> split <;> simp_all [withFuses]

/-! ## Self-test sweeps (R437) -/

theorem prefix_blowUpTo {α : Type} [DecidableEq α] (bound : List α → α → Bool) (fuses prev found : List α) :
    fuses <+: blowUpTo bound fuses prev found :=
  List.foldlRecOn (motive := fun fs => fuses <+: fs) found _ List.prefix_rfl fun fs hfs x _ => by
    split
    · exact hfs.trans (List.prefix_append fs [x])
    · exact hfs

theorem fuseRepair_grows (f : SweepFindings) (s : State) : FusesGrow s.fuses (fuseRepair f s).fuses := by
  unfold fuseRepair
  extract_lets cores rows waves fuses hbm s1
  have h : (cores.foldl (fun t c => setEntry c.val (fun e => { e with state := .fused, logical := 0xFF }) t) s1).fuses =
      s1.fuses := fuses_foldl fun _ _ => rfl
  rw [h]
  exact ⟨rfl, rfl, rfl, rfl, fun k => by
    have hk : slotOf s1.fuses k = slotOf s.fuses k := by unfold slotOf; split <;> rfl
    exact hk ▸ .refl _, prefix_blowUpTo _ _ _ _, prefix_blowUpTo _ _ _ _, prefix_blowUpTo _ _ _ _⟩

theorem sweepParts_grows (f : SweepFindings) (s : State) : FusesGrow s.fuses (sweepParts f s).fuses := by
  unfold sweepParts
  extract_lets t
  have ht : t.fuses = s.fuses := (fuses_foldl fun _ _ => fuses_remapRow).trans fuses_sweepBeforeHbm
  have hw : (failWaves f.deadWaves t).fuses = s.fuses := fuses_failWaves.trans ht
  split
  · rw [fuses_foldl fun _ _ => fuses_restartPort, ← hw]
    exact fuseRepair_grows f _
  · exact .of_eq ht

theorem gathered_grows {sweep : State → State} (h : ∀ t, FusesGrow t.fuses (sweep t).fuses) (s : State) :
    FusesGrow s.fuses (gathered sweep s).fuses :=
  h { s with status := { s.status with
    eventCount := s.selfTest.foundCount, events := s.selfTest.foundEvents, counts := s.selfTest.foundCounts } }

theorem healthSweep_grows (f : SweepFindings) (s : State) : FusesGrow s.fuses (healthSweep f s).fuses := by
  unfold healthSweep
  split
  · exact .of_eq fuses_refuse
  · split
    · exact .of_eq (by simp)
    · split
      · exact .of_eq (by simp)
      · rw [fuses_succeed]
        exact sweepParts_grows f s

theorem runEntry_grows {cmd : Byte} {e : Entry} {go : State → State} {s : State} (h : FusesGrow s.fuses (go s).fuses) :
    FusesGrow s.fuses (runEntry cmd e noChange go s).fuses := by
  unfold runEntry
  split
  · exact .refl _
  · exact .of_eq (by simp [noChange])
  · exact .of_eq (by simp)
  · exact h

/-! ## One command, and one step -/

/-- A command by which `g` may differ from `f` (R399, R402, R405, R437). -/
def Blows (f g : Fuses) (i : Instr) : Prop :=
  (∃ c, i = .lifecycle c) ∨ (∃ f, i = .healthSweep f) ∨ (∃ f, i = .heldSweepStart f) ∨
    (i ∈ [.bootRom, .warmReset, .perstAssert] ∧ transitionOpen f = true ∧ g = { f with lifecycle := g.lifecycle })

/-- What a command leaves of the fuses. -/
structure FuseStep (i : Instr) (f g : Fuses) : Prop where
  grows : FusesGrow f g
  blows : g = f ∨ Blows f g i

theorem FuseStep.of_eq {i : Instr} {f g : Fuses} (h : g = f) : FuseStep i f g := ⟨.of_eq h, .inl h⟩

/-- ROM's work behind a reset, at the place of `s`. -/
theorem fuseStep_finishTransition {i : Instr} (hi : i ∈ [.bootRom, .warmReset, .perstAssert]) {s : State} {f : Fuses}
    (hs : s.fuses = f) : FuseStep i f (finishTransition s).fuses := by
  obtain ⟨hbit, hkeep⟩ := finishTransition_fuses s
  rw [hs] at hbit hkeep
  refine ⟨hbit ▸ fusesGrow_lifecycle f _, ?_⟩
  cases ho : transitionOpen f with
  | false => exact .inl (hkeep ho)
  | true => exact .inr (.inr (.inr (.inr ⟨hi, ho, hbit⟩)))

/-- A warm reset leaves the fuses as ROM's work behind it does. -/
theorem fuses_warmReset (s : State) :
    (warmReset s).fuses = (finishTransition (recoverSaves (resetUnits (lostNotice s)))).fuses := by
  unfold warmReset
  generalize finishTransition _ = u
  rfl

theorem fuseStep_resetWarmly {i : Instr} (hi : i ∈ [.bootRom, .warmReset, .perstAssert]) {s : State} {f : Fuses}
    (hs : s.fuses = f) : FuseStep i f (resetWarmly s).fuses := by
  unfold resetWarmly
  split
  · exact .of_eq (fuses_restartPowerOn.trans hs)
  · have h : (recoverSaves (resetUnits (lostNotice s))).fuses = f := by simp [hs]
    rw [fuses_warmReset]
    exact fuseStep_finishTransition hi h

theorem heldSweepStart_fuseStep {f : SweepFindings} {s t : State} (h : execHeldSweepStart f s = .next t) :
    FuseStep (.heldSweepStart f) s.fuses t.fuses := by
  refine ⟨?_, .inr (.inr (.inr (.inl ⟨f, rfl⟩)))⟩
  unfold execHeldSweepStart at h
  split at h
  · split at h <;> cases h
    · exact gathered_grows (fun u => .of_eq fuses_sweepCut) s
    · exact gathered_grows (sweepParts_grows f) { s with selfTest := { s.selfTest with sweepHeld := false } }
  · cases h; exact .refl _

theorem bootRom_fuseStep {s t : State} (h : execBootRom s = .next t) : FuseStep .bootRom s.fuses t.fuses := by
  unfold execBootRom at h
  split at h <;> cases h
  · have hrom : FuseStep .bootRom s.fuses (finishTransition s).fuses := fuseStep_finishTransition (by simp) rfl
    exact hrom
  · exact .of_eq rfl

theorem warmReset_fuseStep {s t : State} (h : execWarmReset s = .next t) : FuseStep .warmReset s.fuses t.fuses := by
  unfold execWarmReset at h
  split at h <;> cases h
  · exact fuseStep_resetWarmly (by simp) rfl
  · exact .of_eq rfl

theorem perstAssert_fuseStep {s t : State} (h : execPerstAssert s = .next t) : FuseStep .perstAssert s.fuses t.fuses := by
  unfold execPerstAssert at h
  split at h <;> cases h
  · exact fuseStep_resetWarmly (by simp) rfl
  · exact .of_eq rfl

/-- The commands that may blow a fuse, one by one. -/
theorem fuseStep_of_mayBlow {i : Instr} {s t : State} (hi : mayBlow i = true) (h : exec i s = .next t) :
    FuseStep i s.fuses t.fuses := by
  unfold mayBlow at hi
  split at hi
  next c =>
    have ht : execLifecycle c s = .next t := h
    cases ht
    exact ⟨runEntry_grows (lifecycle_grows c s), .inr (.inl ⟨c, rfl⟩)⟩
  next f =>
    have ht : execHealthSweep f s = .next t := h
    cases ht
    exact ⟨runEntry_grows (healthSweep_grows f s), .inr (.inr (.inl ⟨f, rfl⟩))⟩
  · exact heldSweepStart_fuseStep h
  · exact bootRom_fuseStep h
  · exact warmReset_fuseStep h
  · exact perstAssert_fuseStep h
  · cases hi

theorem exec_fuseStep {i : Instr} {s t : State} (h : exec i s = .next t) : FuseStep i s.fuses t.fuses := by
  by_cases hm : mayBlow i = true
  · exact fuseStep_of_mayBlow hm h
  · have hkeep : KeepsFuses s (exec i s) := keepsFuses_exec (Bool.not_eq_true _ ▸ hm)
    rw [h] at hkeep
    exact .of_eq hkeep

/-- What a first command leaves for a later one to have changed. -/
theorem Blows.after {f g h : Fuses} {c i : Instr} (hc : g = f ∨ Blows f g c) (hi : h = g ∨ Blows g h i) :
    h = f ∨ Blows f h c ∨ Blows f h i := by
  obtain rfl | hc := hc
  · exact hi.imp_right .inr
  obtain rfl | hi := hi
  · exact .inr (.inl hc)
  obtain hc | hc | hc | ⟨hc, hopen, hg⟩ := hc
  · exact .inr (.inl (.inl hc))
  · exact .inr (.inl (.inr (.inl hc)))
  · exact .inr (.inl (.inr (.inr (.inl hc))))
  obtain hi | hi | hi | ⟨-, -, hh⟩ := hi
  · exact .inr (.inr (.inl hi))
  · exact .inr (.inr (.inr (.inl hi)))
  · exact .inr (.inr (.inr (.inr (.inl hi))))
  · rw [hg] at hh
    exact .inr (.inl (.inr (.inr (.inr ⟨hc, hopen, hh⟩))))

theorem retryAll_fuses {cs : List Instr} {s t : State} (h : retryAll exec cs s = .next t) :
    FusesGrow s.fuses t.fuses ∧ (t.fuses = s.fuses ∨ ∃ i ∈ cs, Blows s.fuses t.fuses i) := by
  induction cs generalizing s with
  | nil => cases h; exact ⟨.refl _, .inl rfl⟩
  | cons c cs ih =>
    unfold retryAll at h
    generalize hc : exec c s = o at h
    cases o with
    | next u =>
      obtain ⟨hgrow, hblow⟩ := exec_fuseStep hc
      obtain ⟨hgrow', hblow'⟩ := ih h
      refine ⟨hgrow.trans hgrow', ?_⟩
      obtain heq | ⟨i, hi, hblow'⟩ := hblow'
      · rw [heq]
        exact hblow.imp_right fun hb => ⟨c, by simp, hb⟩
      · obtain heq | hb | hb := Blows.after hblow (.inr hblow')
        · exact .inl heq
        · exact .inr ⟨c, by simp, hb⟩
        · exact .inr ⟨i, by simp [hi], hb⟩
    | fault r => cases h
    | refused r => cases h

/-- Settles O60: of all commands six reach the fuses, and each of them blows bits that are not blown. -/
theorem fusesOnlyBlow : Obligations.FusesOnlyBlow := by
  unfold Obligations.FusesOnlyBlow
  intro s t h
  have key : FusesGrow s.fuses t.fuses ∧ (t.fuses = s.fuses ∨
      ∃ i, (s.pending.head? = some i ∨ (s.pending = [] ∧ i ∈ s.stalled)) ∧ Blows s.fuses t.fuses i) := by
    unfold step at h
    split at h
    next hp =>
      obtain ⟨hgrow, hblow⟩ := retryAll_fuses h
      simp only [tick_frame] at hgrow hblow
      exact ⟨hgrow, hblow.imp_right fun ⟨i, hi, hb⟩ => ⟨i, .inr ⟨hp, hi⟩, hb⟩⟩
    next c rest hp =>
      obtain ⟨hgrow, hblow⟩ := exec_fuseStep h
      exact ⟨hgrow, hblow.imp_right fun hb => ⟨c, .inl (by simp [hp]), hb⟩⟩
  obtain ⟨g, hblow⟩ := key
  exact ⟨fun hne => hblow.resolve_left hne, g.vendorRootHash, g.romKey, g.deviceSecret, g.deviceId,
    fun k _ => ⟨(g.slots k).valid, (g.slots k).revoked, fun ht => ((g.slots k).touched ht).2⟩,
    g.deadCores, g.deadRows, g.deadWaves⟩

end Sys2Proof.Machine
end

section
/-! Interrupt registers, ring registers, the sideband and the state after a power-on reset (O3, O4, O5, O6, O21). -/

namespace Sys2Proof.Machine

/-! ## The pending-bit array (R379) -/

/-- Bits that are set one after another are set, and no other bit changes. -/
theorem bitAt_foldl_setBit {w : Nat} {vs : List Nat} (hvs : ∀ v ∈ vs, v < w) (x : BitVec w) (n : Nat) :
    bitAt (vs.foldl (fun p v => setBit p v true) x) n = (bitAt x n || decide (n ∈ vs)) := by
  induction vs generalizing x with
  | nil => simp
  | cons v vs ih =>
    have hv := hvs v (by simp)
    rw [List.foldl_cons, ih fun u hu => hvs u (by simp [hu])]
    by_cases hn : n = v
    · subst hn; simp [bitAt_setBit_same x n true hv]
    · simp [bitAt_setBit_other x v n true hn, hn]

/-- What a write of the cause and enable registers leaves. -/
theorem setInterrupts_moves (status enable : U32) (s : State) :
    setInterrupts status enable s =
      { s with
        mgt := { s.mgt with
          intStatus := status
          intEnable := enable
          msixPba := (setInterrupts status enable s).mgt.msixPba }
        sent := s.sent ++ vectorMessages s.mgt status enable } ∧
    ∀ n, n < 4 → bitAt (setInterrupts status enable s).mgt.msixPba n =
      (bitAt s.mgt.msixPba n || (vectorFresh s.mgt status enable n && vectorMasked s.mgt n)) := by
  rw [setInterrupts_eq]
  refine ⟨rfl, fun n hn => ?_⟩
  refine (bitAt_foldl_setBit (fun v hv => ?_) _ n).trans ?_
  · have hv' : v ∈ upFrom 0 4 := List.mem_of_mem_filter hv
    rw [mem_upFrom] at hv'
    omega
  · have hmem : n ∈ upFrom 0 4 := (mem_upFrom 0 4 n).mpr ⟨Nat.zero_le n, hn⟩
    simp [List.mem_filter, hmem]

theorem exec_mgtIntStatusClear {v : U32} {s : State} (h : s.controllers.romDone = true) :
    exec (.mgtIntStatusClear v) s = .next (setInterrupts (s.mgt.intStatus &&& ~~~v) s.mgt.intEnable s) := by
  change execMgtIntStatusClear v s = _
  simp [execMgtIntStatusClear, windowUp, h]

theorem exec_mgtIntEnableWrite {v : U32} {s : State} (h : s.controllers.romDone = true) :
    exec (.mgtIntEnableWrite v) s = .next (setInterrupts s.mgt.intStatus (v &&& 0x1FF) s) := by
  change execMgtIntEnableWrite v s = _
  simp [execMgtIntEnableWrite, windowUp, h, intBits]

/-- Settles O4: all four writes set the two registers, and what that sends is counted vector by vector. -/
theorem interruptVectorsFollowTheirCauses : Obligations.InterruptVectorsFollowTheirCauses := by
  unfold Obligations.InterruptVectorsFollowTheirCauses
  intro v s
  have hword : BitVec.ofNat 32 (v.setWidth 64).toNat = v :=
    BitVec.eq_of_toNat_eq (by simp only [BitVec.toNat_ofNat, BitVec.toNat_setWidth]; omega)
  have hclear := setInterrupts_moves (s.mgt.intStatus &&& ~~~v) s.mgt.intEnable s
  have henable := setInterrupts_moves s.mgt.intStatus (v &&& 0x1FF) s
  refine ⟨fun h => ⟨⟨_, exec_mgtIntStatusClear h, hclear⟩, ⟨_, exec_mgtIntEnableWrite h, henable⟩, ⟨_, ?_, hclear⟩,
    ⟨_, ?_, henable⟩⟩, fun h => ⟨?_, ?_⟩⟩
  · rw [exec_mgtRegisterWrite_narrow _ _ s h, hword]
    rfl
  · rw [exec_mgtRegisterWrite_narrow _ _ s h, hword]
    rfl
  · change execMgtIntStatusClear v s = _
    simp [execMgtIntStatusClear, windowUp, h]
  · change execMgtIntEnableWrite v s = _
    simp [execMgtIntEnableWrite, windowUp, h]

/-! ## The ring registers (R363) -/

/-- What a guarded register holds after a write, as a state. -/
theorem ringBase_guarded (s : State) (ok : Bool) (new : U64) :
    { s with mgt := { s.mgt with ringBase := guarded s ok s.mgt.ringBase new } } =
      if s.mgt.state = .ready ∧ ok = true then { s with mgt := { s.mgt with ringBase := new } } else s := by
  unfold guarded
  split <;> rfl

theorem statusAddr_guarded (s : State) (ok : Bool) (new : U64) :
    { s with mgt := { s.mgt with statusAddr := guarded s ok s.mgt.statusAddr new } } =
      if s.mgt.state = .ready ∧ ok = true then { s with mgt := { s.mgt with statusAddr := new } } else s := by
  unfold guarded
  split <;> rfl

/-- A half of a register takes the low half of the value that is written. -/
theorem setField_half {old val : U64} {hi lo : Nat} (h : hi + 1 - lo ≤ 32) :
    setField old hi lo (BitVec.ofNat 32 val.toNat).toNat = setField old hi lo val.toNat := by
  refine BitVec.eq_of_getLsbD_eq fun i _ => ?_
  rw [getLsbD_setField, getLsbD_setField]
  split
  next hin =>
    have hlt : i - lo < 32 := by omega
    simp only [BitVec.toNat_ofNat, Nat.testBit_mod_two_pow, hlt, decide_true, Bool.true_and]
  · rfl

theorem ringBase_write (part : RegPart) (val : U64) {s : State} (h : s.controllers.romDone = true) :
    exec (.mgtRegisterWrite (0x40 + if part = .high then 4 else 0) (decide (part = .whole)) val) s =
      .next (if s.mgt.state = .ready ∧ (withPart s.mgt.ringBase part val).toNat % 256 = 0 then
        { s with mgt := { s.mgt with ringBase := withPart s.mgt.ringBase part val } } else s) := by
  have key (new : U64) := ringBase_guarded s (new.toNat % 256 == 0) new
  simp only [beq_iff_eq] at key
  cases part with
  | whole => exact (exec_mgtRegisterWrite_wide 0x40 val s h).trans (congrArg _ (key val))
  | low =>
    refine (exec_mgtRegisterWrite_narrow 0x40 val s h).trans ((congrArg _ (key _)).trans ?_)
    rw [setField_half (by omega)]; rfl
  | high =>
    refine (exec_mgtRegisterWrite_narrow 0x44 val s h).trans ((congrArg _ (key _)).trans ?_)
    rw [setField_half (by omega)]; rfl

theorem statusAddr_write (part : RegPart) (val : U64) {s : State} (h : s.controllers.romDone = true) :
    exec (.mgtRegisterWrite (0x58 + if part = .high then 4 else 0) (decide (part = .whole)) val) s =
      .next (if s.mgt.state = .ready ∧ (withPart s.mgt.statusAddr part val).toNat % 4096 = 0 then
        { s with mgt := { s.mgt with statusAddr := withPart s.mgt.statusAddr part val } } else s) := by
  have key (new : U64) := statusAddr_guarded s (new.toNat % 4096 == 0) new
  simp only [beq_iff_eq] at key
  cases part with
  | whole => exact (exec_mgtRegisterWrite_wide 0x58 val s h).trans (congrArg _ (key val))
  | low =>
    refine (exec_mgtRegisterWrite_narrow 0x58 val s h).trans ((congrArg _ (key _)).trans ?_)
    rw [setField_half (by omega)]; rfl
  | high =>
    refine (exec_mgtRegisterWrite_narrow 0x5C val s h).trans ((congrArg _ (key _)).trans ?_)
    rw [setField_half (by omega)]; rfl

/-- The size register takes the low four bits. -/
theorem ringSize_write (val : U64) {s : State} (h : s.controllers.romDone = true) :
    exec (.mgtRegisterWrite 0x50 false val) s =
      .next (if s.mgt.state = .ready ∧ 4 ≤ val.toNat % 16 ∧ val.toNat % 16 ≤ 12 then
        { s with mgt := { s.mgt with ringSize := BitVec.ofNat 32 (val.toNat % 16) } } else s) := by
  have hmod : (BitVec.ofNat 32 val.toNat).toNat % 16 = val.toNat % 16 := by
    simp only [BitVec.toNat_ofNat]; omega
  refine (exec_mgtRegisterWrite_narrow 0x50 val s h).trans ?_
  simp only [writeWord, hmod, Nat.reduceMod, if_true]

/-- Settles O3, register by register; the halves of a register are its two words of the window. -/
theorem ringRegistersOnlyInReady : Obligations.RingRegistersOnlyInReady := by
  unfold Obligations.RingRegistersOnlyInReady
  intro part val producer s h
  refine ⟨ringBase_write part val h, statusAddr_write part val h, ringSize_write val h, ?_⟩
  change execMgtRingJobCtrlWrite part val producer s = _
  unfold execMgtRingJobCtrlWrite
  split <;> simp_all

/-! ## The sideband (R447 to R449) -/

/-- A word read returns the low half of what it reads. -/
theorem sbRead_eq (w : Nat) (s : State) :
    sbRead w s = { s with sideband :=
      if s.sideband.answering then { s.sideband with lastWord := BitVec.ofNat 16 w, lastAck := true }
      else { s.sideband with lastAck := false } } := by
  unfold sbRead
  split <;> rfl

theorem ofNat_field_low (x : U32) : BitVec.ofNat 16 (field x 15 0) = x.setWidth 16 :=
  BitVec.eq_of_toNat_eq (by simp [field])

theorem ofNat_field_high (x : U32) : BitVec.ofNat 16 (field x 31 16) = (x >>> 16).setWidth 16 :=
  BitVec.eq_of_toNat_eq (by simp [field])

/-- Settles O5: each word read is the read of one register's half. -/
theorem sidebandReadsMirrorRegisters : Obligations.SidebandReadsMirrorRegisters := by
  unfold Obligations.SidebandReadsMirrorRegisters
  intro s word
  have read {i : Instr} {n : Nat} {w : U16} (hi : exec i s = .next (sbRead n s)) (hw : BitVec.ofNat 16 n = w) :
      word i w := by
    change exec i s = _
    rw [hi, sbRead_eq, hw]
  have hident : BitVec.ofNat 16 (windowWord s 0 / 65536) = 0x7680 := by simp [windowWord]
  exact ⟨read rfl hident, read rfl rfl, read rfl (ofNat_field_low _), read rfl (ofNat_field_high _),
    read rfl (ofNat_field_low _), read rfl (ofNat_field_high _), read rfl (ofNat_field_low _)⟩

/-- Settles O6: the two reset bytes are told apart by the module's state alone. -/
theorem sidebandResetRequests : Obligations.SidebandResetRequests := by
  unfold Obligations.SidebandResetRequests
  intro s cmd val pec
  refine ⟨fun hup => ⟨?_, fun ⟨hboot, hrec⟩ => ?_, fun hstate => ?_⟩, rfl, rfl⟩
  · change execSbResetWarm s = _
    rw [execSbResetWarm, if_pos hup]
    rfl
  · change execSbResetRink s = _
    simp [execSbResetRink, rinkResetIgnored, hup, hboot, hrec, emit, sbAck]
  · change execSbResetRink s = _
    have hign : rinkResetIgnored s = true := by simpa [rinkResetIgnored] using hstate
    simp [execSbResetRink, hup, hign, sbAck]

/-! ## The reset state (R362, R375, R394) -/

theorem field_zero (w hi lo : Nat) : field (0 : BitVec w) hi lo = 0 := by simp [field]

/-- No site record is in force. -/
theorem mgtCoord_reset : mgtCoord State.reset = 0 := by
  have hsite : State.reset.site = 0 := rfl
  simp only [mgtCoord, siteX, siteY, siteZ, hsite, field_zero]

/-- Settles O21: the reset state is a value, and every clause reads it. -/
theorem resetValues : Obligations.ResetValues := by
  unfold Obligations.ResetValues
  intro s
  refine ⟨rfl, rfl, mgtCoord_reset, rfl, ?_, rfl, rfl, rfl, rfl, rfl, rfl, rfl, rfl, rfl, rfl, rfl, rfl, ?_⟩
  · decide
  · decide

end Sys2Proof.Machine
end

section
/-! The analogue checks, and the entry of management commands (O7, O28). -/

namespace Sys2Proof.Machine

/-! ## The analogue checks (R434) -/

theorem raiseCause_sets {n : Nat} (hn : n < 32) (s : State) : bitAt (raiseCause n s).mgt.intStatus n = true := by
  rw [raiseCause, setInterrupts_eq]
  exact bitAt_setBit_same _ n true hn

theorem exec_regulatorCheck (errors : List Int) (s : State) :
    exec (.regulatorCheck errors) s =
      .next (if errors.any fun e => decide (300 < e.natAbs) then raiseCause 7 s else s) := rfl

theorem exec_inputMonitorCheck (first second : Nat) (s : State) :
    exec (.inputMonitorCheck first second) s =
      .next (if second < 100 * ((first : Int) - second).natAbs then raiseCause 7 s else s) := rfl

/-- A sensor more than 5 °C off is replaced by its reference diode. -/
def swapSensors (errors : List Int) (s : State) : State :=
  { s with power := { s.power with
      sensorSwapped := (upFrom 0 24).map fun k =>
        decide (80 < (nthD 0 errors k).natAbs) || nthD false s.power.sensorSwapped k } }

/-- Some sensor is more than 5 °C off. -/
def sensorOff (errors : List Int) : Bool := (upFrom 0 24).any fun k => decide (80 < (nthD 0 errors k).natAbs)

theorem sensorOff_iff (errors : List Int) : sensorOff errors = true ↔ ∃ k, k < 24 ∧ 80 < (nthD 0 errors k).natAbs := by
  simp [sensorOff, mem_upFrom]

theorem exec_tempSensorCheck (errors : List Int) (s : State) :
    exec (.tempSensorCheck errors) s =
      .next (if sensorOff errors then raiseCause 6 (swapSensors errors s) else s) := rfl

/-- What the laser check sends: a word for each low laser on a port that is up. -/
def lowLasers (low : List Wave) (s : State) : List Out :=
  low.filterMap fun w =>
    if (getPort s w.port.val).phase = .up then
      ((nthD Fibre.fresh (getPort s w.port.val).txFibres w.fibre.val).lanes.findIdx? (· == w.wave.val)).map fun i =>
        .linkWord w.port (.laserLow w.fibre.val i)
    else none

theorem exec_laserMonitorCheck (low : List Wave) (s : State) :
    exec (.laserMonitorCheck low) s = .next { s with sent := s.sent ++ lowLasers low s } := rfl

/-- An alert changes the interrupt registers and what is sent. -/
theorem alert_only (n : Nat) (c : Prop) [Decidable c] (s : State) :
    let t := if c then raiseCause n s else s
    t = { s with power := t.power, mgt := t.mgt, sent := t.sent } := by
  extract_lets t
  unfold t
  split
  · rw [raiseCause_eq]
  · rfl

theorem tempSensorCheck_swaps (errors : List Int) (s : State) :
    Answers (.tempSensorCheck errors) s fun t =>
      t = { s with power := { s.power with sensorSwapped := t.power.sensorSwapped }, mgt := t.mgt, sent := t.sent } ∧
      (∀ k, k < 24 → nthD false t.power.sensorSwapped k =
        (decide (80 < (nthD 0 errors k).natAbs) || nthD false s.power.sensorSwapped k)) ∧
      ((∃ k, k < 24 ∧ 80 < (nthD 0 errors k).natAbs) → bitAt t.mgt.intStatus 6 = true) ∧
      ((∀ k, k < 24 → (nthD 0 errors k).natAbs ≤ 80) → t.mgt = s.mgt ∧ t.sent = s.sent) := by
  refine ⟨_, exec_tempSensorCheck errors s, ?_⟩
  have hswap (k : Nat) (hk : k < 24) : nthD false (swapSensors errors s).power.sensorSwapped k =
      (decide (80 < (nthD 0 errors k).natAbs) || nthD false s.power.sensorSwapped k) := nthD_map_upFrom false _ hk
  beta_reduce
  split
  next hbad =>
    have hpower : (raiseCause 6 (swapSensors errors s)).power = (swapSensors errors s).power := by simp
    refine ⟨?_, by rw [hpower]; exact hswap, fun _ => raiseCause_sets (by omega) _, fun hgood => ?_⟩
    · rw [raiseCause_eq]
      rfl
    · obtain ⟨k, hk, hoff⟩ := (sensorOff_iff errors).mp hbad
      exact absurd (hgood k hk) (by omega)
  next hgood =>
    rw [sensorOff_iff] at hgood
    refine ⟨rfl, fun k hk => ?_, fun hbad => absurd hbad hgood, fun _ => ⟨rfl, rfl⟩⟩
    have hk' : ¬ 80 < (nthD 0 errors k).natAbs := fun hoff => hgood ⟨k, hk, hoff⟩
    simp [hk']

/-- Settles O28: every check is an alert, or none, beside the sensors that are replaced and the words that are sent. -/
theorem analogueChecksReport : Obligations.AnalogueChecksReport := by
  unfold Obligations.AnalogueChecksReport
  intro s errors first second port fibre wave i low only
  refine ⟨⟨⟨_, exec_regulatorCheck errors s, ?_⟩, ?_, ⟨_, exec_inputMonitorCheck first second s, ?_⟩,
    ⟨_, exec_laserMonitorCheck low s, rfl⟩⟩, fun hgood => ?_, fun hbad => ⟨_, exec_regulatorCheck errors s, ?_⟩,
    tempSensorCheck_swaps errors s, fun hgood => ?_, fun hbad => ⟨_, exec_inputMonitorCheck first second s, ?_⟩,
    fun hup hlane => ?_, ?_⟩
  · exact alert_only _ _ s
  · obtain ⟨t, ht, hswap, -⟩ := tempSensorCheck_swaps errors s
    refine ⟨t, ht, ?_⟩
    change t = _
    rw [hswap]
  · exact alert_only _ _ s
  · rw [exec_regulatorCheck, if_neg]
    simpa using hgood
  · rw [if_pos (by simpa using hbad)]
    exact ⟨raiseCause_eq 7 s, raiseCause_sets (by omega) s⟩
  · rw [exec_inputMonitorCheck, if_neg (by omega)]
  · rw [if_pos hbad]
    exact ⟨raiseCause_eq 7 s, raiseCause_sets (by omega) s⟩
  · rw [exec_laserMonitorCheck]
    simp [lowLasers, hup, hlane]
  · rw [exec_laserMonitorCheck]
    simp [lowLasers]

/-! ## The entry of a command (R380, R381) -/

/-- A write of MGT_CMD that the module ignores. -/
theorem entry_ignored {inBoot inJob : Entry} {inRecovery : Bool} {s : State}
    (h : s.mgt.cmdState = .busy ∨ s.mgt.state = .linkPcie) : entry inBoot inRecovery inJob s = .ignored := by
  have hign : cmdIgnored s = true := by
    obtain h | h := h <;> simp [cmdIgnored, h]
  rw [entry, if_pos hign]

/-- What the end of a command changes, a held sweep with it. -/
theorem finishCmd_ends (cmd : Byte) (st : CmdState) (code : U16) (held : Bool) (s : State) :
    let t := finishCmd cmd st code { s with selfTest := { s.selfTest with sweepHeld := s.selfTest.sweepHeld || held } }
    t = { s with
      mgt := { s.mgt with cmd := cmd, cmdState := st, cmdCode := code,
                          intStatus := setBit s.mgt.intStatus 2 true, msixPba := t.mgt.msixPba }
      sent := s.sent ++ causeMessages s.mgt 2
      selfTest := { s.selfTest with sweepHeld := s.selfTest.sweepHeld || held } } := finishCmd_eq _ _ _ _

/-- A refusal changes no state but the command's registers. -/
theorem refuse_ends (cmd : Byte) (code : U16) (s : State) :
    refuse cmd code s = { s with
      mgt := { s.mgt with cmd := cmd, cmdState := .refused, cmdCode := code,
                          intStatus := setBit s.mgt.intStatus 2 true, msixPba := (refuse cmd code s).mgt.msixPba }
      sent := s.sent ++ causeMessages s.mgt 2
      selfTest := { s.selfTest with sweepHeld := s.selfTest.sweepHeld || false } } := by
  rw [Bool.or_false]
  exact finishCmd_eq cmd .refused code s

theorem exec_healthSweep_held {f : SweepFindings} {s : State} (hrom : s.controllers.romDone = true)
    (hidle : s.mgt.cmdState ≠ .busy) (hjob : s.mgt.state.duringJob = true) (hblank : s.fuses.lifecycle ≠ .blank) :
    exec (.healthSweep f) s =
      .next (finishCmd 3 .done 0x0704 { s with selfTest := { s.selfTest with sweepHeld := s.selfTest.sweepHeld || true } }) := by
  change execHealthSweep f s = _
  simp only [execHealthSweep, entry_duringJob hrom hidle hjob, hblank, decide_false, Bool.false_eq_true, if_false, runEntry,
    Bool.or_true]
  rfl

theorem exec_mgtCmdRejected {val : U32} {s : State} (hrom : s.controllers.romDone = true)
    (hidle : s.mgt.cmdState ≠ .busy) (hlink : s.mgt.state ≠ .linkPcie) (hval : val = 0 ∨ 7 < val.toNat) :
    exec (.mgtCmdRejected val) s = .next (refuse (val.setWidth 8) Code.mgtBadArg s) := by
  have hign : cmdIgnored s = false := by simp [cmdIgnored, hrom, hidle, hlink]
  have hknown : ¬ (1 ≤ val.toNat ∧ val.toNat ≤ 7) := by
    obtain rfl | h := hval
    · decide
    · omega
  change execMgtCmdRejected val s = _
  simp only [execMgtCmdRejected, hign, Bool.false_eq_true, if_false, if_neg hknown]
  rfl

/-- An entry that is ignored runs nothing. -/
theorem exec_ignored {cmd : Byte} {bad : U16 → State → State} {go : State → State} {e : Entry} {s : State}
    (h : e = .ignored) : Host.Outcome.next (runEntry cmd e bad go s) = (.next s : Host.Outcome State Fault Refusal) := by
  rw [h]
  rfl

/-- Settles O7: during a job an entry is the one of R380's job column, and an ignored one runs nothing. -/
theorem managementCommandsAcceptedByState : Obligations.ManagementCommandsAcceptedByState := by
  unfold Obligations.ManagementCommandsAcceptedByState
  intro s f cut val hrom ends
  refine ⟨fun hidle hjob => ⟨⟨_, ?_, refuse_ends 1 0x0702 s⟩, ⟨_, ?_, refuse_ends 7 0x0702 s⟩,
    fun hblank => ⟨_, exec_healthSweep_held hrom hidle hjob hblank, finishCmd_ends 3 .done 0x0704 true s⟩,
    fun hother => ⟨_, ?_, refuse_ends 5 0x0705 s⟩⟩,
    fun hidle hlink hval => ⟨_, exec_mgtCmdRejected hrom hidle hlink hval, refuse_ends _ _ s⟩, fun hign i hi => ?_⟩
  · change execFlashProgram cut s = _
    rw [execFlashProgram, entry_duringJob hrom hidle hjob]
    rfl
  · change execLifecycle cut s = _
    rw [execLifecycle, entry_duringJob hrom hidle hjob]
    rfl
  · change execJobAbort s = _
    rw [execJobAbort, entry_duringJob hrom hidle hjob]
    refine congrArg Host.Outcome.next ?_
    change jobAbort s = _
    unfold jobAbort
    split
    · rfl
    next j hj => rw [if_neg (hother j hj)]; rfl
  · have hcmd : cmdIgnored s = true := by
      obtain h | h := hign <;> simp [cmdIgnored, h]
    simp only [List.mem_cons, List.not_mem_nil, or_false] at hi
    obtain rfl | rfl | rfl | rfl | rfl | rfl | rfl | rfl := hi
    · exact exec_ignored (entry_ignored hign)
    · exact exec_ignored (entry_ignored hign)
    · exact exec_ignored (entry_ignored hign)
    · exact exec_ignored (entry_ignored hign)
    · exact exec_ignored (entry_ignored hign)
    · exact exec_ignored (entry_ignored hign)
    · exact exec_ignored (entry_ignored hign)
    · change execMgtCmdRejected val s = _
      rw [execMgtCmdRejected, if_pos hcmd]

end Sys2Proof.Machine
end

section
/-! The check values of the four polynomials (O55). -/

namespace Sys2Proof.Machine

/-! ## A unit that an operation holds -/

/-- An operation's unit holds what it was set to, in any store. -/
theorem cvOf_setCv_owned {u : CvUnit} {v : CvState} {op : U32} (hv : v.owner = some op) (s : State) :
    cvOf (setCv u v s) u = v := by
  have hne : v ≠ CvState.reset := fun h => by simp [h, CvState.reset] at hv
  change SMap.get _ (SMap.set _ _ _ _) _ = v
  rw [SMap.set, if_neg hne, SMap.get_put_same]

/-- The operation `op` runs on a core with no open branch, and its unit holds `v`. -/
structure CvHolds (core : Core) (op : U32) (v : CvState) (s : State) : Prop where
  runs : acts s op = true
  resolved : branchOpen s core.val = false
  value : cvOf s (.core core op) = v

theorem CvHolds.set {core : Core} {op : U32} {v w : CvState} {s : State} (h : CvHolds core op v s)
    (hw : w.owner = some op) : CvHolds core op w (setCv (.core core op) w s) :=
  ⟨h.runs, h.resolved, cvOf_setCv_owned hw s⟩

/-- The state behind a command, where it answers one. -/
def nextOf (i : Instr) (s : State) : Option State :=
  match exec i s with
  | .next t => some t
  | _ => none

theorem nextOf_eq {i : Instr} {s t : State} (h : exec i s = .next t) : nextOf i s = some t := by rw [nextOf, h]

section
variable {core : Core} {op : U32} {v : CvState} {s : State} (h : CvHolds core op v s)
include h

theorem CvHolds.select (p : Poly) : ∃ t, nextOf (.cvSelect (.core core op) p) s = some t ∧
    CvHolds core op { cvSelect p v with owner := some op } t := by
  refine ⟨_, nextOf_eq (exec_cvSelect_runs _ p h.runs h.resolved), ?_⟩
  rw [h.value]
  exact h.set rfl

variable (howned : v.owner = some op)
include howned

theorem CvHolds.owned : cvOwned s (.core core op) = true :=
  (cvOwned_iff s _).mpr (.inr ((congrArg CvState.owner h.value).trans howned))

theorem CvHolds.feed (d : CvData) : ∃ t, nextOf (.cvFeed (.core core op) d) s = some t ∧ CvHolds core op (cvFeed d v) t := by
  refine ⟨_, nextOf_eq (exec_cvFeed_runs _ d h.runs h.resolved (h.owned howned)), ?_⟩
  rw [h.value]
  refine h.set ?_
  unfold cvFeed
  split <;> exact howned

theorem CvHolds.read : ∃ t, nextOf (.cvRead (.core core op)) s = some t ∧ CvHolds core op (cvRead v) t := by
  refine ⟨_, nextOf_eq (exec_cvRead_runs _ h.runs h.resolved (h.owned howned)), ?_⟩
  rw [h.value]
  refine h.set ?_
  unfold cvRead
  split <;> exact howned

end

/-- The register of a unit that is fed bytes. -/
def fedReg (p : Poly) (r : U64) (bs : List Byte) : U64 :=
  bs.foldl (fun r b => BitVec.ofNat 64 (crcByte (polyRow p) r.toNat b)) r

/-- A run of feeds of an open unit. -/
theorem CvHolds.feeds {core : Core} {op : U32} (bs : List Byte) {v : CvState} {s : State} (h : CvHolds core op v s)
    (howned : v.owner = some op) (hopen : v.opened = true) :
    ∃ t, (bs.map fun b => Instr.cvFeed (.core core op) (.byte b)).foldl (fun o i => o.bind (nextOf i)) (some s) = some t ∧
      CvHolds core op { v with reg := fedReg v.poly v.reg bs } t := by
  induction bs generalizing v s with
  | nil => exact ⟨s, rfl, h⟩
  | cons b bs ih =>
    obtain ⟨t, ht, hfed⟩ := h.feed howned (.byte b)
    rw [cvFeed, if_pos hopen] at hfed
    obtain ⟨t', ht', hfed'⟩ := ih hfed howned hopen
    refine ⟨t', ?_, hfed'⟩
    rw [List.map_cons, List.foldl_cons, Option.bind_some, ht, ht']

/-! ## The table (R350) -/

/-- The check column. -/
def checkColumn : Poly → U64
  | .crc32c => 0xE3069283
  | .crc32 => 0xCBF43926
  | .crc16 => 0x29B1
  | .crc64 => 0x6C40DF5F0B497347

/-- The nine bytes "123456789". -/
def checkDigits : List Byte := [0x31, 0x32, 0x33, 0x34, 0x35, 0x36, 0x37, 0x38, 0x39]

theorem checkColumn_eq (p : Poly) :
    BitVec.ofNat 64 (crcOut (polyRow p) (fedReg p (BitVec.ofNat 64 (polyRow p).init) checkDigits).toNat) =
      checkColumn p := by
  cases p <;> decide +kernel

/-- Settles O55: select, nine feeds and a read of the operation's own unit, then the table by evaluation. -/
theorem checkValuesFollowTheTable : Obligations.CheckValuesFollowTheTable := by
  unfold Obligations.CheckValuesFollowTheTable
  intro s core op p hact hbranch u digits run
  refine ⟨rfl, rfl, rfl, rfl, ?_⟩
  have h : CvHolds core op (cvOf s u) s := ⟨hact, hbranch, rfl⟩
  obtain ⟨t, ht, hsel⟩ := h.select p
  obtain ⟨t', ht', hfed⟩ := hsel.feeds checkDigits rfl rfl
  obtain ⟨t'', ht'', hread⟩ := hfed.read rfl
  refine ⟨t'', ?_, ?_⟩
  · change (([Instr.cvSelect (.core core op) p] ++ (checkDigits.map fun b => Instr.cvFeed (.core core op) (.byte b)) ++
      [Instr.cvRead (.core core op)]).foldl (fun o i => o.bind (nextOf i)) (some s)) = some t''
    simp only [List.foldl_append, List.foldl_cons, List.foldl_nil, Option.bind_some, ht, ht', ht'']
  · change (cvOf t'' u).value = checkColumn p
    have hvalue := hread.value
    rw [cvRead, if_pos (by rfl)] at hvalue
    exact (congrArg CvState.value hvalue).trans (checkColumn_eq p)

end Sys2Proof.Machine
end

section
/-! The job ring, the commit word, and what resets keep and lose (O15, O22, O23, O24, O48). -/

namespace Sys2Proof.Machine

/-! ## The job ring (R364, R365, R374) -/

/-- The rules of R365 for a producer. -/
theorem jobProducerBad_iff (s : State) (producer : U64) :
    jobProducerBad s producer = false ↔ s.ring.producer.toNat ≤ producer.toNat ∧
      producer.toNat ≤ s.ring.consumer.toNat + 2 ^ s.mgt.ringSize.toNat := by
  simp [jobProducerBad]

theorem exec_jobRingProducerUpdate_faulted {s : State} (producer : U64) (hfault : s.ring.faulted = true) :
    exec (.jobRingProducerUpdate producer) s = .next s := by
  change execJobRingProducerUpdate producer s = _
  simp [execJobRingProducerUpdate, hfault]

section
variable {s : State} (producer : U64) (harmed : s.ring.armed = true) (hlink : s.link.cxl = true)
include harmed hlink

theorem exec_jobRingProducerUpdate_bad (hfault : s.ring.faulted = false) (hbad : jobProducerBad s producer = true) :
    exec (.jobRingProducerUpdate producer) s = .next (faultRing s) := by
  change execJobRingProducerUpdate producer s = _
  simp [execJobRingProducerUpdate, harmed, hlink, hfault, hbad]

theorem exec_jobRingProducerUpdate_good (hfault : s.ring.faulted = false) (hgood : jobProducerBad s producer = false) :
    exec (.jobRingProducerUpdate producer) s = .next (endHeld { s with ring := { s.ring with producer := producer } }) := by
  change execJobRingProducerUpdate producer s = _
  simp [execJobRingProducerUpdate, harmed, hlink, hfault, hgood]

end

/-- A job is held at a cut with the next descriptor published. -/
def HeldIsOver (s : State) : Prop :=
  ∃ j, s.job = some j ∧ j.phase = .held ∧ s.ring.consumer.toNat + 1 < s.ring.producer.toNat

theorem endHeld_of_over {s : State} (h : HeldIsOver s) : endHeld s = endJob Code.cutReached s := by
  obtain ⟨j, hj, hheld, hnext⟩ := h
  simp only [endHeld, hj]
  exact if_pos ⟨hheld, hnext⟩

theorem endHeld_of_not_over {s : State} (h : ¬ HeldIsOver s) : endHeld s = s := by
  unfold endHeld
  split
  · rfl
  next j hj => exact if_neg fun hover => h ⟨j, hj, hover⟩

/-- A ring fault changes the ring's flag and the status record. -/
theorem faultRing_only (s : State) :
    let t := faultRing s
    t = { s with ring := { s.ring with faulted := true }, status := t.status, hostMem := t.hostMem } ∧
    t.status = { s.status with status := 0x0009, updateSeq := s.status.updateSeq + 2, time := s.time.value } := by
  refine ⟨?_, withStatus_status _ _⟩
  rw [faultRing, withStatus_eq]

/-- Settles O15: rules 2 and 3 of R365 decide whether the ring is faulted; a producer that is taken ends a held job. -/
theorem jobRingFollowsItsProducer : Obligations.JobRingFollowsItsProducer := by
  unfold Obligations.JobRingFollowsItsProducer
  intro producer s harmed hlink good ended
  have hgood : good ↔ jobProducerBad s producer = false := (jobProducerBad_iff s producer).symm
  have hover : ended ↔ HeldIsOver { s with ring := { s.ring with producer := producer } } := Iff.rfl
  rw [hgood, hover]
  refine ⟨exec_jobRingProducerUpdate_faulted producer, fun hf hg ho => ?_, fun hf hg ho => ?_, fun hf hb => ?_⟩
  · rw [exec_jobRingProducerUpdate_good producer harmed hlink hf hg, endHeld_of_not_over ho]
  · refine ⟨_, exec_jobRingProducerUpdate_good producer harmed hlink hf hg, ?_⟩
    rw [endHeld_of_over ho]
    obtain ⟨hjob, hstatus, hstate⟩ := endJob_ends Code.cutReached { s with ring := { s.ring with producer := producer } }
    obtain ⟨-, -, hring⟩ := endJob_releases Code.cutReached { s with ring := { s.ring with producer := producer } }
    exact ⟨hjob, hstate, hstatus, by simp, hring, endJob_raises _ _⟩
  · exact ⟨_, exec_jobRingProducerUpdate_bad producer harmed hlink hf (Bool.not_eq_false _ ▸ hb), faultRing_only s⟩

/-! ## Power-on (R394, R411, R418) -/

/-- What every loss of power leaves. -/
theorem powerOn_loses (s : State) :
    let t := powerOn s
    t.fuses = s.fuses ∧ t.flash.bytes = s.flash.bytes ∧ t.hbm = Hbm.reset ∧ t.cores = Cores.reset ∧
    t.msu = Msu.reset ∧ t.kv = Kv.reset ∧ t.gatehouse = Gatehouse.reset ∧ t.job = none ∧ t.mgt = Mgt.reset ∧
    t.sideband.answering = false ∧ t.banks = Banks.reset ∧ t.coll = Coll.reset ∧ t.recovery = Recovery.reset ∧
    t.time.set = false ∧ t.link.trained = false ∧ t.pending = s.pending ∧ t.hostMem = s.hostMem :=
  ⟨rfl, rfl, rfl, rfl, rfl, rfl, rfl, rfl, rfl, rfl, rfl, rfl, rfl, rfl, rfl, rfl, rfl⟩

/-- The notice of a module that is lost to its rink. -/
theorem lostNotice_eq (s : State) :
    lostNotice s = { s with sent := s.sent ++ if s.job.isSome then [.send .lostNotice] else [] } := by
  unfold lostNotice
  split
  · rfl
  · rw [List.append_nil]

/-- Settles O22: all five events run the power-on reset. -/
theorem powerDownKeepsFusesAndFlash : Obligations.PowerDownKeepsFusesAndFlash := by
  unfold Obligations.PowerDownKeepsFusesAndFlash
  intro s lost
  have hlost : lost (powerOn s) := powerOn_loses s
  refine ⟨⟨_, rfl, hlost, rfl, rfl⟩, ⟨_, rfl, hlost, rfl, rfl, rfl⟩, ⟨_, rfl, hlost, rfl, rfl, rfl⟩,
    ⟨_, rfl, ?_⟩, fun htrip => ⟨powerOn s, ?_, hlost, rfl, rfl⟩⟩
  · rw [lostNotice_eq]
    exact ⟨hlost, rfl, rfl, rfl⟩
  · change execThermalTripCooled s = _
    rw [execThermalTripCooled, if_pos htrip]

/-! ## Save records after a reset that keeps HBM (R433) -/

/-- The work on save records touches the copies and the restored blocks alone, and none is there without a record. -/
structure SavesDone (s t : State) : Prop where
  frame : t = { s with hbm := t.hbm }
  kept : t.hbm = { s.hbm with
    dev := t.hbm.dev, poison := t.hbm.poison, saves := t.hbm.saves, savePoison := t.hbm.savePoison }
  idle : s.hbm.saves = [] → t = s

theorem SavesDone.refl (s : State) : SavesDone s s := ⟨rfl, rfl, fun _ => rfl⟩

theorem SavesDone.trans {s t u : State} (h : SavesDone s t) (h' : SavesDone t u) : SavesDone s u where
  frame := by rw [h'.frame, h.frame]
  kept := by rw [h'.kept, h.kept]
  idle hs := by
    have ht := h.idle hs
    exact (h'.idle (by rw [ht]; exact hs)).trans ht

theorem savesDone_recoverSave (stack : Nat) (s : State) : SavesDone s (recoverSave stack s) := by
  by_cases hidle : (SMap.get SaveRecord.idle s.hbm.saves stack).state = .idle
  · have hsame : recoverSave stack s = s := by simp [recoverSave, hidle]
    rw [hsame]
    exact .refl s
  · have hopen : s.hbm.saves = [] → recoverSave stack s = s := fun hs => absurd (by rw [hs]; rfl) hidle
    refine ⟨?_, ?_, hopen⟩ <;> (unfold recoverSave; extract_lets; split <;> rfl)

theorem savesDone_recoverSaves (s : State) : SavesDone s (recoverSaves s) :=
  List.foldlRecOn (motive := SavesDone s) (upFrom 0 12) _ (.refl s) fun _ ht i _ => ht.trans (savesDone_recoverSave i _)

/-- What a reset that keeps HBM leaves of it, whatever its save records were. -/
def HbmKept (g h : Hbm) : Prop :=
  h.stamps = g.stamps ∧ h.commitWord = g.commitWord ∧ h.tandem = g.tandem ∧
  h.tandemStamps = g.tandemStamps ∧ h.remapped = g.remapped ∧ h.coreMap = g.coreMap ∧
  (g.saves = [] → h.dev = g.dev ∧ h.poison = g.poison)

/-- What the units' reset and the work on save records keep of HBM. -/
theorem recoverSaves_hbm {s u : State} (hu : u.hbm = s.hbm) : HbmKept s.hbm (recoverSaves u).hbm := by
  obtain ⟨-, hkept, hidle⟩ := savesDone_recoverSaves u
  rw [hu] at hkept hidle
  refine ⟨?_, ?_, ?_, ?_, ?_, ?_, fun hs => ?_⟩
  · rw [hkept]
  · rw [hkept]
  · rw [hkept]
  · rw [hkept]
  · rw [hkept]
  · rw [hkept]
  · rw [hidle hs, hu]
    exact ⟨rfl, rfl⟩

/-! ## The warm reset (R393, R394) -/

theorem activeSlot_lifecycle (f : Fuses) (l : Lifecycle) : activeSlot { f with lifecycle := l } = activeSlot f := by
  have hslot (k : Nat) : slotOf { f with lifecycle := l } k = slotOf f k := by unfold slotOf; split <;> rfl
  simp only [activeSlot, hslot]

/-- Fuses that show no open transition are left alone. -/
theorem finishTransition_of_closed {s : State} (h : transitionOpen s.fuses = false) : finishTransition s = s := by
  unfold transitionOpen at h
  unfold finishTransition
  split
  next hslot => rw [hslot] at h; split <;> simp_all
  next hslot => rw [hslot] at h; split <;> simp_all

/-- ROM leaves no transition open. -/
theorem transitionOpen_finishTransition (s : State) : transitionOpen (finishTransition s).fuses = false := by
  unfold finishTransition
  split
  next hslot => split <;> simp_all [transitionOpen, withFuses, activeSlot_lifecycle]
  next hslot => split <;> simp_all [transitionOpen, withFuses, activeSlot_lifecycle, eraseFlash, zeroHbm]

/-- What the units' reset of a warm reset leaves to ROM. -/
def unitsLost (s : State) : State := recoverSaves (resetUnits (lostNotice s))

theorem unitsLost_eq (s : State) :
    unitsLost s = { resetUnits (lostNotice s) with hbm := (unitsLost s).hbm } :=
  (savesDone_recoverSaves _).frame

/-- The rest of a warm reset: the window, the link, the job and the units' clocks. -/
def warmTail (t : State) : State :=
  { t with
    mgt := Mgt.reset
    link := { t.link with trained := false, cxl := false, width := .x16, rate := .gt32, deviceBias := [] }
    ring := ⟨0, 0, false, false⟩
    sideband := { t.sideband with answering := !t.link.perstLow, request := none }
    status := { StatusRec.reset with updateSeq := t.status.updateSeq }
    controllers := { t.controllers with firmware := false, identity := deriveIdentity t.fuses }
    power := { t.power with
      phase := .rom
      warm := true
      share := 0
      overcurrent := false
      thermalHold := false
      capHold := false
      rinkPace := 850
      paceHigh := 0
      paceLow := 0 }
    time := { Timebase.reset with running := t.time.running }
    hbm := { t.hbm with selfRefresh := true, serving := false }
    banks := Banks.reset
    fabric := ⟨t.fabric.ports.map (fun p => { p.flush with phase := .dark, attempts := 0 }), []⟩
    coll := Coll.reset
    recovery := Recovery.reset
    selfTest := { t.selfTest with sweepHeld := false }
    job := none }

theorem warmReset_eq (s : State) : warmReset s = warmTail (latchKey (finishTransition (unitsLost s))) := by
  unfold warmReset unitsLost
  generalize latchKey _ = t
  rfl

/-- What R394's warm column keeps and loses; `s` is the state before, with the host link as the reset finds it. -/
def WarmlyReset (s t : State) : Prop :=
  t.hbm.stamps = s.hbm.stamps ∧ t.hbm.commitWord = s.hbm.commitWord ∧ t.hbm.tandem = s.hbm.tandem ∧
  t.hbm.tandemStamps = s.hbm.tandemStamps ∧ t.hbm.remapped = s.hbm.remapped ∧ t.hbm.coreMap = s.hbm.coreMap ∧
  (s.hbm.saves = [] → t.hbm.dev = s.hbm.dev ∧ t.hbm.poison = s.hbm.poison) ∧
  t.hbm.serving = false ∧ t.hbm.selfRefresh = true ∧
  t.fuses = s.fuses ∧ t.flash = { s.flash with key := flashKey s.fuses } ∧ t.cores = Cores.reset ∧
  t.msu = Msu.reset ∧ t.kv = Kv.reset ∧ t.stalled = [] ∧ t.link.deviceBias = [] ∧ t.banks = Banks.reset ∧
  t.mgt = Mgt.reset ∧ t.job = none ∧ t.gatehouse.dict = [] ∧
  t.gatehouse.loaded = false ∧ t.ring.armed = false ∧ t.status.updateSeq = s.status.updateSeq ∧
  t.pending = s.pending ∧ t.hostMem = s.hostMem ∧
  t.sent = s.sent ++ if s.job.isSome then [.send .lostNotice] else []

theorem warmTail_warmlyReset {s u : State} (hu : u = { resetUnits (lostNotice s) with hbm := u.hbm })
    (hhbm : HbmKept s.hbm u.hbm) :
    WarmlyReset s (warmTail (latchKey u)) := by
  obtain ⟨hstamps, hword, htandem, htstamps, hremapped, hmap, hdev⟩ := hhbm
  refine ⟨hstamps, hword, htandem, htstamps, hremapped, hmap, hdev, rfl, rfl, ?_⟩
  rw [lostNotice_eq] at hu
  rw [hu]
  exact ⟨rfl, rfl, rfl, rfl, rfl, rfl, rfl, rfl, rfl, rfl, rfl, rfl, rfl, rfl, rfl, rfl, rfl⟩

theorem unitsLost_hbm (s : State) : HbmKept s.hbm (unitsLost s).hbm := by
  unfold unitsLost
  exact recoverSaves_hbm (by rw [lostNotice_eq]; rfl)

theorem unitsLost_fuses (s : State) : (unitsLost s).fuses = s.fuses := by
  rw [unitsLost_eq, lostNotice_eq]
  rfl

theorem warmReset_of_closed {s : State} (hclosed : transitionOpen s.fuses = false) :
    warmReset s = warmTail (latchKey (unitsLost s)) := by
  rw [warmReset_eq, finishTransition_of_closed (by rw [unitsLost_fuses]; exact hclosed)]

theorem warmReset_warmlyReset {s : State} (hclosed : transitionOpen s.fuses = false) : WarmlyReset s (warmReset s) := by
  rw [warmReset_of_closed hclosed]
  exact warmTail_warmlyReset (unitsLost_eq s) (unitsLost_hbm s)

theorem warmReset_closes (s : State) : transitionOpen (warmReset s).fuses = false := by
  have h := transitionOpen_finishTransition (unitsLost s)
  rw [warmReset_eq]
  generalize finishTransition _ = t at h
  exact h

theorem warmReset_ends (s : State) : (warmReset s).job = none ∧ (warmReset s).link.trained = false := by
  rw [warmReset_eq]
  generalize latchKey _ = t
  exact ⟨rfl, rfl⟩

/-- PERST# goes low: the link is held. -/
def perstHeld (s : State) : State :=
  { s with link := { s.link with perstLow := true, trained := false, cxl := false } }

theorem exec_warmReset {s : State} (hrom : s.controllers.romDone = true) : exec .warmReset s = .next (resetWarmly s) := by
  change execWarmReset s = _
  rw [execWarmReset, if_pos hrom]

theorem exec_perstAssert {s : State} (hrom : s.controllers.romDone = true) (hrel : s.link.perstReleased = true) :
    exec .perstAssert s = .next (resetWarmly (perstHeld s)) := by
  change execPerstAssert s = _
  rw [execPerstAssert, if_pos ⟨hrel, hrom⟩]
  rfl

theorem resetWarmly_warm {s : State} (h : powerOnRuns s = false) : resetWarmly s = warmReset s := by
  rw [resetWarmly, if_neg (by simp [h])]

theorem resetWarmly_again {s : State} (hwarm : s.power.warm = false) (hphase : s.power.phase ≠ .ready) :
    resetWarmly s = restartPowerOn s := by
  rw [resetWarmly, if_pos (by simp [powerOnRuns, hwarm, hphase])]

theorem perstHeld_low {s : State} (hclosed : transitionOpen s.fuses = false) :
    (warmReset (perstHeld s)).link.perstLow = true := by
  have hlink : (unitsLost (perstHeld s)).link = (perstHeld s).link := by rw [unitsLost_eq, lostNotice_eq]; rfl
  rw [warmReset_of_closed (s := perstHeld s) hclosed]
  generalize unitsLost _ = u at hlink
  exact congrArg HostLink.perstLow hlink

/-- Settles O23: the warm reset with ROM behind it, the restart of a power-on reset that runs, and the two edges of PERST#. -/
theorem warmResetKeepsHbm : Obligations.WarmResetKeepsHbm := by
  unfold Obligations.WarmResetKeepsHbm
  intro s warm again
  have hagain : again (restartPowerOn s) := ⟨rfl, rfl, rfl, rfl, rfl, rfl, rfl, rfl, rfl, rfl, rfl, rfl⟩
  refine ⟨fun hrom hruns hclosed => ?_, fun hrom hruns hopen => ?_, fun hrom hrel hruns hclosed => ?_,
    fun hrom hwarm hphase => ⟨?_, fun hrel => ?_⟩, fun hrel => ?_, ⟨_, rfl, rfl, fun hgood => ?_⟩⟩
  · refine ⟨_, exec_warmReset hrom, ?_⟩
    rw [resetWarmly_warm hruns]
    exact warmReset_warmlyReset hclosed
  · refine ⟨_, exec_warmReset hrom, ?_⟩
    rw [resetWarmly_warm hruns]
    exact ⟨warmReset_closes s, (warmReset_ends s).1⟩
  · refine ⟨_, exec_perstAssert hrom hrel, ?_⟩
    rw [resetWarmly_warm (s := perstHeld s) hruns]
    exact ⟨warmReset_warmlyReset (s := perstHeld s) hclosed, perstHeld_low hclosed, (warmReset_ends _).2⟩
  · refine ⟨_, exec_warmReset hrom, ?_⟩
    rw [resetWarmly_again hwarm hphase]
    exact hagain
  · refine ⟨_, exec_perstAssert hrom hrel, ?_⟩
    rw [resetWarmly_again (s := perstHeld s) hwarm hphase]
    exact ⟨hagain, rfl⟩
  · change execPerstAssert s = _
    rw [execPerstAssert, if_neg (by simp [hrel])]
  · change (s.link.perstReleased || s.sideband.pwrgd) = true
    rw [hgood, Bool.or_true]

/-! ## The rink reset (R393 to R395) -/

/-- The local part of a rink reset behind the units' reset and the save records. -/
def rinkTail (t : State) : State :=
  { t with
    mgt := loseBusy t.mgt
    sideband := { t.sideband with request := none }
    hbm := { t.hbm with selfRefresh := false, serving := true }
    banks := { t.banks with
      bank0 := { t.banks.bank0 with refs := [] }
      bank1 := { t.banks.bank1 with refs := [] }
      waiting := none }
    fabric := { t.fabric with ports := t.fabric.ports.map fun p => { p.flush with credits := Port.fullCredits } }
    recovery := { t.recovery with
      resume := t.job.isSome
      abortPending := false
      refreshing := false
      unacked := [] } }

theorem rinkReset_eq (s : State) : rinkReset s = rinkTail (recoverSaves (resetUnits s)) := by
  unfold rinkReset
  generalize recoverSaves _ = t
  rfl

theorem loseBusy_of_idle {m : Mgt} (h : m.cmdState ≠ .busy) : loseBusy m = m := if_neg h

theorem mgtCmdStatus_loseBusy {m : Mgt} (h : m.cmdState = .busy) : mgtCmdStatus (loseBusy m) = 0 := by
  simp [loseBusy, h, mgtCmdStatus, CmdState.code]

theorem nthD_map {α β : Type} (d : α) (e : β) (f : α → β) {xs : List α} {i : Nat} (h : i < xs.length) :
    nthD e (xs.map f) i = f (nthD d xs i) := by
  induction xs generalizing i with
  | nil => simp at h
  | cons x xs ih =>
    cases i with
    | zero => rfl
    | succ i => exact ih (by simpa using h)

/-- What R394's rink column keeps and loses. -/
def RinkWasReset (s t : State) : Prop :=
  t.hbm.stamps = s.hbm.stamps ∧ t.hbm.commitWord = s.hbm.commitWord ∧ t.hbm.tandem = s.hbm.tandem ∧
  (s.hbm.saves = [] → t.hbm.dev = s.hbm.dev ∧ t.hbm.poison = s.hbm.poison) ∧ t.hbm.serving = true ∧
  (s.mgt.cmdState ≠ .busy → t.mgt = s.mgt) ∧ (s.mgt.cmdState = .busy → mgtCmdStatus t.mgt = 0) ∧
  t.link = s.link ∧ t.flash = s.flash ∧ t.fuses = s.fuses ∧ t.site = s.site ∧ t.config = s.config ∧
  t.time = s.time ∧ t.status = s.status ∧ t.job = s.job ∧ t.ring = s.ring ∧ t.cores = Cores.reset ∧
  t.msu = Msu.reset ∧ t.kv = Kv.reset ∧ t.fabric.down = s.fabric.down ∧ t.fabric.ports.length = s.fabric.ports.length ∧
  (∀ p, p < s.fabric.ports.length → (getPort t p).phase = (getPort s p).phase ∧
    (getPort t p).fibres = (getPort s p).fibres ∧ (getPort t p).credits = Port.fullCredits ∧
    (getPort t p).window = []) ∧
  t.recovery.resume = s.job.isSome

theorem getPort_rinkTail {t : State} {p : Nat} (hp : p < t.fabric.ports.length) :
    getPort (rinkTail t) p = { (getPort t p).flush with credits := Port.fullCredits } :=
  nthD_map Port.reset Port.reset _ hp

theorem rinkTail_wasReset {s u : State} (hu : u = { resetUnits s with hbm := u.hbm }) (hhbm : HbmKept s.hbm u.hbm) :
    RinkWasReset s (rinkTail u) := by
  obtain ⟨hstamps, hword, htandem, -, -, -, hdev⟩ := hhbm
  refine ⟨hstamps, hword, htandem, hdev, rfl, ?_⟩
  rw [hu]
  refine ⟨fun h => loseBusy_of_idle h, fun h => mgtCmdStatus_loseBusy h, rfl, rfl, rfl, rfl, rfl, rfl, rfl, rfl, rfl, rfl,
    rfl, rfl, rfl, List.length_map _, fun p hp => ?_, rfl⟩
  rw [getPort_rinkTail (t := { resetUnits s with hbm := u.hbm }) hp]
  exact ⟨rfl, rfl, rfl, rfl⟩

theorem rinkReset_wasReset (s : State) : RinkWasReset s (rinkReset s) := by
  rw [rinkReset_eq]
  exact rinkTail_wasReset (savesDone_recoverSaves _).frame (recoverSaves_hbm rfl)

theorem exec_rinkResetFlood {s : State} (hrom : s.controllers.romDone = true) (hboot : s.mgt.state ≠ .boot)
    (hrec : s.mgt.state ≠ .recovery) : exec .rinkResetFlood s = .next (rinkReset s) := by
  change execRinkResetFlood s = _
  rw [execRinkResetFlood, if_neg]
  simp [rinkResetIgnored, hboot, hrec, hrom]

/-! ## The resumption (R395) -/

/-- What cores that are remapped at the beginning of a replay leave alone; a halt keeps the job. -/
structure ReplayKeeps (s t : State) : Prop where
  job : ∀ j, s.job = some j → ∃ k, t.job = some k ∧ k.desc = j.desc ∧ k.image = j.image ∧ k.replays = j.replays
  recovery : t.recovery = s.recovery
  word : t.hbm.commitWord = s.hbm.commitWord
  stamps : t.hbm.stamps = s.hbm.stamps

theorem ReplayKeeps.of_same {s t : State} (hjob : t.job = s.job) (hrec : t.recovery = s.recovery)
    (hword : t.hbm.commitWord = s.hbm.commitWord) (hstamps : t.hbm.stamps = s.hbm.stamps) : ReplayKeeps s t :=
  ⟨fun j hj => ⟨j, hjob.trans hj, rfl, rfl, rfl⟩, hrec, hword, hstamps⟩

theorem ReplayKeeps.trans {s t u : State} (h : ReplayKeeps s t) (h' : ReplayKeeps t u) : ReplayKeeps s u where
  job j hj := by
    obtain ⟨k, hk, hdesc, himage, hreplays⟩ := h.job j hj
    obtain ⟨l, hl, hdesc', himage', hreplays'⟩ := h'.job k hk
    exact ⟨l, hl, hdesc'.trans hdesc, himage'.trans himage, hreplays'.trans hreplays⟩
  recovery := h'.recovery.trans h.recovery
  word := h'.word.trans h.word
  stamps := h'.stamps.trans h.stamps

theorem replayKeeps_haltJob (code : U16) (op : U32) (loc : U64) (s : State) : ReplayKeeps s (haltJob code op loc s) := by
  refine ⟨fun j hj => ?_, by simp, by simp, by simp⟩
  by_cases hphase : j.phase = .halted
  · exact ⟨j, by simp [haltJob, hj, hphase], rfl, rfl, rfl⟩
  · exact ⟨{ j with phase := .halted, stop := code }, by simp [haltJob, takeHalt, hj, hphase], rfl, rfl, rfl⟩

theorem replayKeeps_remapCore {p : Nat} {s t : State} (h : remapCore p s = some t) : ReplayKeeps s t := by
  unfold remapCore at h
  extract_lets d u at h
  have hu : u.job = s.job ∧ u.recovery = s.recovery ∧ u.hbm.commitWord = s.hbm.commitWord ∧
      u.hbm.stamps = s.hbm.stamps := by
    unfold u
    split <;> exact ⟨rfl, rfl, rfl, rfl⟩
  obtain ⟨hjob, hrec, hword, hstamps⟩ := hu
  split at h
  · cases h
  · obtain rfl := Option.some.inj h
    refine .of_same ?_ ?_ ?_ ?_ <;> simp [setEntry, hjob, hrec, hword, hstamps]

theorem replayKeeps_remapAll (ps : List Nat) (s : State) : ReplayKeeps s (remapAll ps s) := by
  induction ps generalizing s with
  | nil => exact .of_same rfl rfl rfl rfl
  | cons p ps ih =>
    unfold remapAll
    split
    next t ht => exact (replayKeeps_remapCore ht).trans (ih t)
    · exact replayKeeps_haltJob _ _ _ s

theorem exec_jobResumeAfterRinkReset {s : State} {j : Job} (hj : s.job = some j) (hresume : s.recovery.resume = true) :
    exec .jobResumeAfterRinkReset s = .next (resumeJob j s) := by
  change execJobResumeAfterRinkReset s = _
  simp [execJobResumeAfterRinkReset, hj, hresume]

theorem haltJob_raises (code : U16) (op : U32) (loc : U64) {s : State} {j : Job} (hj : s.job = some j)
    (hphase : j.phase ≠ .halted) : bitAt (haltJob code op loc s).mgt.intStatus 3 = true := by
  simp [haltJob, takeHalt, hj, hphase, raiseCause, setInterrupts_eq, bitAt_setBit_same]

theorem stopJob_raises {code : U16} (hcode : isHalt code = true) (op : U32) (loc : U64) {s : State} {j : Job}
    (hj : s.job = some j) (hphase : j.phase ≠ .halted) : bitAt (stopJob code op loc s).mgt.intStatus 3 = true := by
  have hstop : stopJob code op loc s = haltJob code op loc s := by simp only [stopJob, hj, hcode, if_true]
  rw [hstop]
  exact haltJob_raises code op loc hj hphase

/-- A step that a rink reset strikes is replayed where no HELD range is written. -/
theorem resumeJob_replays {s : State} {j : Job} (hphase : j.phase = .inStep) (hheld : j.image.heldWritten = [])
    (hreplays : j.replays = 0) :
    let t := resumeJob j s
    t.recovery.resume = false ∧ t.hbm.commitWord = s.hbm.commitWord ∧ t.hbm.stamps = s.hbm.stamps ∧
      ∃ k, t.job = some k ∧ k.desc = j.desc ∧ k.image = j.image ∧ k.replays = 1 := by
  intro t
  have ht : t = beginReplay j { s with recovery := { s.recovery with resume := false } } := by
    simp only [t, resumeJob, hphase, if_pos hheld]
  rw [ht, beginReplay_eq j _ (by omega)]
  generalize hu : replayBegun j { s with recovery := { s.recovery with resume := false } } = u
  have hkeep := replayKeeps_remapAll s.selfTest.due u
  obtain ⟨hjob, -, -, -, -, hhbm, -⟩ := replayBegun_shows j { s with recovery := { s.recovery with resume := false } }
  rw [hu] at hjob hhbm
  obtain ⟨k, hk, hdesc, himage, hcount⟩ := hkeep.job _ hjob
  have hrec : u.recovery.resume = false := by rw [← hu]; simp [replayBegun, countReplay]
  rw [backToStart_frame] at hhbm
  refine ⟨by rw [hkeep.recovery, hrec], by rw [hkeep.word, hhbm], by rw [hkeep.stamps, hhbm], k, hk, hdesc, himage, ?_⟩
  rw [hcount, hreplays]

/-- Settles O24: the local reset, the flood that an unanswered abort starts, and the resumption of a step. -/
theorem rinkResetKeepsTheJob : Obligations.RinkResetKeepsTheJob := by
  unfold Obligations.RinkResetKeepsTheJob
  intro s hrom
  refine ⟨fun hboot hrec => ⟨_, exec_rinkResetFlood hrom hboot hrec, rinkReset_wasReset s⟩, fun habort => ?_,
    fun j hj hresume hphase => ⟨fun hheld => ⟨_, exec_jobResumeAfterRinkReset hj hresume, ?_⟩,
      fun hheld hreplays => ⟨_, exec_jobResumeAfterRinkReset hj hresume, resumeJob_replays hphase hheld hreplays⟩⟩⟩
  · change execStepAbortUnanswered s = _
    rw [execStepAbortUnanswered, if_pos habort]
    rfl
  · have hphase' : j.phase ≠ .halted := by simp [hphase]
    have hhalt : isHalt Code.failHeldLost = true := by decide
    have hstop : resumeJob j s = stopJob Code.failHeldLost noOp 0 { s with recovery := { s.recovery with resume := false } } := by
      simp only [resumeJob, hphase, if_neg hheld]
    rw [hstop]
    obtain ⟨hjob, hstatus, hstate⟩ := stopJob_halts hhalt noOp 0
      (s := { s with recovery := { s.recovery with resume := false } }) hj hphase'
    exact ⟨hstate, ⟨_, hjob, rfl, rfl⟩, hstatus, stopJob_raises hhalt noOp 0
      (s := { s with recovery := { s.recovery with resume := false } }) hj hphase'⟩

/-! ## The commit word (R311) -/

theorem commitWord_initSlots (c : CacheDecl) (s : State) : (initSlots c s).hbm.commitWord = s.hbm.commitWord := by
  refine foldl_keeps (fun s => s.hbm.commitWord) (fun t i => devWrite (slotAddr c i) _ t) ?_ _ s
  exact fun _ _ => rfl

theorem commitWord_writeGhPage (j : Job) (k : Nat) (s : State) :
    (writeGhPage j k s).hbm.commitWord = s.hbm.commitWord := by
  unfold writeGhPage
  split
  · rfl
  · rfl

theorem commitWord_startUnits (j : Job) (s : State) :
    (startUnits j s).hbm.commitWord = BitVec.ofNat 64 (Desc.firstStep j.desc) - 1 := by
  unfold startUnits
  dsimp only
  split
  · rfl
  · exact commitWord_initSlots _ _

theorem commitWord_startJob (j : Job) (s : State) :
    (startJob j s).hbm.commitWord = BitVec.ofNat 64 (Desc.firstStep j.desc) - 1 := by
  unfold startJob
  extract_lets t
  have ht : t.hbm.commitWord = BitVec.ofNat 64 (Desc.firstStep j.desc) - 1 := by
    simp only [t, raiseCause_frame, withStatus_frame, commitWord_writeGhPage]
    exact commitWord_startUnits j _
  split
  · exact ht
  · rw [← ht]
    simp

theorem exec_jobStartBarrier_starts {s : State} {j : Job} {others : List StartEntry} (hj : s.job = some j)
    (hphase : j.phase = .barrier) (hall : others.length + 1 = machineSize s) (hcode : barrierCode j others = none) :
    exec (.jobStartBarrier others) s = .next (startJob j s) := by
  change execJobStartBarrier others s = _
  simp [execJobStartBarrier, hj, hphase, hall, hcode]

/-- A reset as WARM_RESET and PERST# ask for it, where none stronger runs. -/
theorem commitWord_resetWarmly {s : State} (hclosed : transitionOpen s.fuses = false) (hruns : powerOnRuns s = false) :
    (resetWarmly s).hbm.commitWord = s.hbm.commitWord := by
  obtain ⟨-, hword, -⟩ := warmReset_warmlyReset hclosed
  rw [resetWarmly_warm hruns, hword]

theorem reset_keeps_commitWord {s : State} (hclosed : transitionOpen s.fuses = false) (hruns : powerOnRuns s = false)
    {i : Instr} (hi : i ∈ [Instr.warmReset, .perstAssert, .perstRelease, .rinkResetFlood]) :
    Answers i s fun t => t.hbm.commitWord = s.hbm.commitWord := by
  simp only [List.mem_cons, List.not_mem_nil, or_false] at hi
  obtain rfl | rfl | rfl | rfl := hi
  · refine ⟨_, apply_ite Host.Outcome.next _ _ _ |>.symm, ?_⟩
    split
    · exact commitWord_resetWarmly hclosed hruns
    · rfl
  · refine ⟨_, apply_ite Host.Outcome.next _ _ _ |>.symm, ?_⟩
    split
    · exact commitWord_resetWarmly (s := perstHeld s) hclosed hruns
    · rfl
  · exact ⟨_, rfl, rfl⟩
  · refine ⟨_, apply_ite Host.Outcome.next _ _ _ |>.symm, ?_⟩
    split
    · rfl
    · obtain ⟨-, hword, -⟩ := rinkReset_wasReset s
      exact hword

/-- Settles O48: a commit writes the word, the resets keep it, and a job's start writes the step before the first. -/
theorem commitWordFollowsCommits : Obligations.CommitWordFollowsCommits := by
  unfold Obligations.CommitWordFollowsCommits
  intro s j waitBp others
  refine ⟨fun hj hready hpaused => ⟨_, exec_commitBarrier_commits s j waitBp hj hready hpaused, ?_⟩,
    fun hclosed hruns i hi => reset_keeps_commitWord hclosed hruns hi,
    fun hj hphase hall hcode => ⟨_, exec_jobStartBarrier_starts hj hphase hall hcode, commitWord_startJob j s⟩⟩
  obtain ⟨hhbm, -⟩ := commitUnits_writes j s
  rw [(atBoundary_keeps _ _ _ _).1, hhbm]

end Sys2Proof.Machine
end

section
/-! SITE_AMEND, ATTEST and LIFECYCLE (O9, O11, O14). -/

namespace Sys2Proof.Machine

/-! ## SITE_AMEND (R389) -/

/-- A command that READY and a running job accept alike. -/
theorem entry_go {inBoot : Entry} {inRecovery : Bool} {s : State} (hrom : s.controllers.romDone = true)
    (hidle : s.mgt.cmdState ≠ .busy) (hstate : s.mgt.state = .ready ∨ s.mgt.state.duringJob = true) :
    entry inBoot inRecovery .go s = .go := by
  obtain h | h := hstate
  · exact entry_ready hrom hidle h
  · exact entry_duringJob hrom hidle h

/-- Ports that start again one after another change the ports' list alone, and each leaves the others. -/
theorem foldl_restartPort (ps : List Nat) (s : State) :
    let t := ps.foldl (fun u p => restartPort p u) s
    t = { s with fabric := { s.fabric with ports := t.fabric.ports } } ∧ ∀ p, p ∉ ps → getPort t p = getPort s p := by
  refine List.foldlRecOn (motive := fun t => t = { s with fabric := { s.fabric with ports := t.fabric.ports } } ∧
    ∀ p, p ∉ ps → getPort t p = getPort s p) ps _ ⟨rfl, fun _ _ => rfl⟩ fun t ⟨ht, hports⟩ q hq => ⟨?_, fun p hp => ?_⟩
  · rw [restartPort, setPort, ht]
  · have hne : p ≠ q := fun h => hp (h ▸ hq)
    rw [restartPort, getPort_setPort_other _ _ _ _ hne, hports p hp]

theorem not_mem_changedPorts {old new : BitVec 4096} {p : Nat} (hconn : siteConnected old p = siteConnected new p)
    (hnext : siteNeighbour old p = siteNeighbour new p) : p ∉ changedPorts old new := by
  simp [changedPorts, hconn, hnext]

/-- An amendment in force and kept, with its measurement `m`; the digest stays a variable, since nothing looks into it. -/
def amended (r : BitVec 4096) (m : Digest) (s : State) : State :=
  { s with
    site := r
    siteAlive := BitVec.ofNat 8 (field r 71 64)
    hbm := { s.hbm with amendment := some (r, s.flash.inUse.getD false, s.flash.seq) }
    flash := { s.flash with measSite := m } }

/-- The ports that an amendment concerns start again. -/
def takeAmendment (r : BitVec 4096) (m : Digest) (s : State) : State :=
  (changedPorts s.site r).foldl (fun u p => restartPort p u) (amended r m s)

theorem applyAmendment_eq (r : BitVec 4096) (s : State) :
    applyAmendment r s = takeAmendment r (sha256 (leBytes 512 r.toNat)) s := by
  simp only [applyAmendment, takeAmendment, amended, siteBytes]

theorem takeAmendment_frame (r : BitVec 4096) (m : Digest) (s : State) :
    takeAmendment r m s = { s with
      site := r
      siteAlive := BitVec.ofNat 8 (field r 71 64)
      hbm := { s.hbm with amendment := some (r, s.flash.inUse.getD false, s.flash.seq) }
      flash := { s.flash with measSite := m }
      fabric := { s.fabric with ports := (takeAmendment r m s).fabric.ports } } :=
  (foldl_restartPort (changedPorts s.site r) (amended r m s)).1

theorem takeAmendment_port {r : BitVec 4096} {m : Digest} {s : State} {p : Nat}
    (hconn : siteConnected s.site p = siteConnected r p) (hnext : siteNeighbour s.site p = siteNeighbour r p) :
    getPort (takeAmendment r m s) p = getPort s p :=
  (foldl_restartPort (changedPorts s.site r) (amended r m s)).2 p (not_mem_changedPorts hconn hnext)

/-- An amendment takes effect whole; a port whose entries are unchanged stays as it is. -/
theorem amendment_succeeds (r : BitVec 4096) (m : Digest) (s : State) :
    let t := succeed 4 (takeAmendment r m s)
    t = { s with
      site := r
      siteAlive := BitVec.ofNat 8 (field r 71 64)
      hbm := { s.hbm with amendment := some (r, s.flash.inUse.getD false, s.flash.seq) }
      flash := { s.flash with measSite := m }
      fabric := { s.fabric with ports := t.fabric.ports }
      mgt := t.mgt
      sent := t.sent } ∧
    t.mgt.cmdState = .done ∧ t.mgt.cmdCode = 0x0700 ∧ t.mgt.cmd = 4 ∧
    ∀ p, siteConnected s.site p = siteConnected r p → siteNeighbour s.site p = siteNeighbour r p →
      getPort t p = getPort s p := by
  intro t
  obtain ⟨hdone, hcode, hcmd, -⟩ := finishCmd_mgt 4 .done Code.mgtOk (takeAmendment r m s)
  have hfabric : t.fabric = (takeAmendment r m s).fabric := by simp [t, succeed]
  refine ⟨?_, hdone, hcode, hcmd, fun p hconn hnext => ?_⟩
  · rw [hfabric]
    exact (finishCmd_eq_frame _ _ _ _).trans
      (congrArg (fun u : State => { u with mgt := t.mgt, sent := t.sent }) (takeAmendment_frame r m s))
  · exact (congrArg (fun g : Fabric => nthD Port.reset g.ports p) hfabric).trans (takeAmendment_port hconn hnext)

section
variable {s : State} (hrom : s.controllers.romDone = true) (hidle : s.mgt.cmdState ≠ .busy)
  (hstate : s.mgt.state = .ready ∨ s.mgt.state.duringJob = true)
include hrom hidle hstate

theorem exec_siteAmend : exec .siteAmend s = .next (siteAmend s) := by
  change execSiteAmend s = _
  rw [execSiteAmend, entry_go hrom hidle hstate]
  rfl

theorem siteAmend_takes (hok : amendFault s (BitVec.ofNat 4096 (devNat s s.mgt.arg0.toNat 512)) = none) :
    exec .siteAmend s =
      .next (succeed 4 (takeAmendment (BitVec.ofNat 4096 (devNat s s.mgt.arg0.toNat 512))
        (sha256 (leBytes 512 (BitVec.ofNat 4096 (devNat s s.mgt.arg0.toNat 512)).toNat)) s)) := by
  rw [exec_siteAmend hrom hidle hstate, ← applyAmendment_eq]
  simp only [siteAmend, hok]

theorem siteAmend_refuses {c : U16}
    (hbad : amendFault s (BitVec.ofNat 4096 (devNat s s.mgt.arg0.toNat 512)) = some c) :
    exec .siteAmend s = .next (refuse 4 c (amendRefused c s)) := by
  rw [exec_siteAmend hrom hidle hstate]
  simp only [siteAmend, hbad]

end

/-- Settles O11: an amendment is applied whole, or refused and counted. -/
theorem siteAmendTakesEffectWhole : Obligations.SiteAmendTakesEffectWhole := by
  unfold Obligations.SiteAmendTakesEffectWhole
  intro s hrom hidle hstate r
  refine ⟨fun hok => ⟨_, siteAmend_takes hrom hidle hstate hok, amendment_succeeds r (sha256 (leBytes 512 r.toNat)) s⟩,
    fun c hbad => ⟨_, siteAmend_refuses hrom hidle hstate hbad, ?_⟩, fun harg => ?_⟩
  · obtain ⟨hdone, hcode, -⟩ := finishCmd_mgt 4 .refused c (amendRefused c s)
    refine ⟨?_, hdone, hcode, ?_⟩
    · refine (finishCmd_eq_frame _ _ _ _).trans ?_
      have hstatus : (refuse 4 c (amendRefused c s)).status = (amendRefused c s).status := by simp [refuse]
      have hmem : (refuse 4 c (amendRefused c s)).hostMem = (amendRefused c s).hostMem := by simp [refuse]
      rw [hstatus, hmem, amendRefused, withStatus_eq]
      rfl
    · simp [refuse, amendRefused]
  · rw [amendFault, if_pos (.inl harg)]
    rfl

/-! ## ATTEST (R408) -/

/-- Bytes stand where a write of them and of bytes around them has put them. -/
theorem devRead_devWrite_part {a b n : Nat} {bs : List Byte} (before mid after : List Byte)
    (hbs : bs = before ++ (mid ++ after)) (hb : b = a + before.length) (hn : n = mid.length) (s : State) :
    devRead (devWrite a bs s) b n = mid := by
  have hread := devRead_devWrite_same a bs s
  rw [hbs, List.length_append, List.length_append, devRead, Mem.read_append, Mem.read_append] at hread
  obtain ⟨-, hread⟩ := List.append_inj hread (by simp)
  obtain ⟨hread, -⟩ := List.append_inj hread (by simp)
  rw [hb, hn, hbs, devRead, hread]

theorem beBytes_length (n x : Nat) : (beBytes n x).length = n := by rw [beBytes, List.length_reverse, leBytes_length]

theorem devRead_length (s : State) (a n : Nat) : (devRead s a n).length = n := Mem.read_length 0 _ a n

/-- The bytes of a report before the nonce. -/
def reportHead (s : State) : List Byte :=
  leBytes 4 0x54545341 ++ leBytes 2 1 ++ [BitVec.ofNat 8 s.fuses.lifecycle.code] ++
    [BitVec.ofNat 8 ((activeSlot s.fuses).getD 0xFF)] ++ leBytes 8 s.fuses.deviceId.toNat ++
    leBytes 4 s.flash.seq.toNat ++ [flashCode s.flash.inUse] ++ List.replicate 11 0

/-- The bytes of a report behind the nonce: measurements, keys and root hash. -/
def reportRest (s : State) : List Byte :=
  beBytes 32 s.flash.measFirmware.toNat ++ beBytes 32 s.flash.measRuntime.toNat ++
    beBytes 32 s.flash.measConfig.toNat ++ beBytes 32 s.flash.measSite.toNat ++ beBytes 64 (ownKey s).toNat ++
    (match activeSlot s.fuses with
      | none => List.replicate 32 0
      | some i => beBytes 32 (keyDigest (slotOf s.fuses i).ownerKey).toNat) ++
    beBytes 32 s.fuses.vendorRootHash.toNat ++ List.replicate 64 0

theorem reportBody_eq (s : State) (nonce : List Byte) :
    reportBody s nonce = reportHead s ++ (nonce ++ reportRest s) := by
  simp only [reportBody, reportHead, reportRest, List.append_assoc] <;> rfl

theorem reportHead_length (s : State) : (reportHead s).length = 32 := by simp [reportHead, leBytes_length]

theorem reportRest_length (s : State) : (reportRest s).length = 320 := by
  unfold reportRest
  split <;> simp [beBytes_length]

theorem reportBody_length {s : State} {nonce : List Byte} (h : nonce.length = 32) : (reportBody s nonce).length = 384 := by
  simp [reportBody_eq, reportHead_length, reportRest_length, h]

/-- The signature of a report, of zeros where there is no identity key, and what has been drawn for it. -/
def reportTail (s : State) : List Byte :=
  match s.controllers.identity with
  | none => List.replicate 128 0
  | some (d, _) =>
    beBytes 64 (Config.ecdsaSign s.free d (sha256 (reportBody s (devRead s s.mgt.arg0.toNat 32)))).toNat ++
      List.replicate 64 0

theorem reportTail_length (s : State) : (reportTail s).length = 128 := by
  unfold reportTail
  split
  · simp
  · simp [beBytes_length]

/-- The draw for a signature. -/
def signing (s : State) : State := if s.controllers.identity = none then s else (takeFree s).2

/-- The bytes of a whole report. -/
def report (s : State) : List Byte := reportBody s (devRead s s.mgt.arg0.toNat 32) ++ reportTail s

theorem attest_good {s : State} (h : s.mgt.arg0.toNat % 64 = 0 ∧ hostFree s s.mgt.arg0.toNat 768 = true) :
    attest s = succeed 2 (devWrite (s.mgt.arg0.toNat + 256) (report s) (signing s)) := by
  unfold attest
  rw [if_pos h]
  cases hid : s.controllers.identity with
  | none => simp only [report, reportTail, signing, hid]; rfl
  | some k => simp only [report, reportTail, signing, hid, List.append_assoc]; rfl

theorem attest_bad {s : State} (h : ¬ (s.mgt.arg0.toNat % 64 = 0 ∧ hostFree s s.mgt.arg0.toNat 768 = true)) :
    attest s = refuse 2 Code.mgtBadArg s := if_neg h

theorem signing_eq (s : State) : signing s = { s with free := (signing s).free } := by
  unfold signing
  split <;> rfl

theorem devRead_signing (s : State) (a n : Nat) : devRead (signing s) a n = devRead s a n := by
  rw [signing_eq]
  rfl

theorem report_length (s : State) : (report s).length = 512 := by
  rw [report, List.length_append, reportBody_length (devRead_length ..), reportTail_length]

theorem exec_attest {s : State} (hrom : s.controllers.romDone = true) (hidle : s.mgt.cmdState ≠ .busy)
    (hstate : s.mgt.state = .ready ∨ s.mgt.state = .recovery ∨ s.mgt.state.duringJob = true) :
    exec .attest s = .next (attest s) := by
  have hentry : entry .go true .go s = .go := by
    obtain h | h | h := hstate
    · exact entry_ready hrom hidle h
    · simp [entry, cmdIgnored, hrom, hidle, h]
    · exact entry_duringJob hrom hidle h
  change execAttest s = _
  rw [execAttest, hentry]
  rfl

/-- What stands behind the nonce once the report is written. -/
theorem report_written (a : Nat) (s t : State) :
    let nonce := devRead s s.mgt.arg0.toNat 32
    let u := devWrite (a + 256) (report s) t
    devRead u (a + 256) 384 = reportBody s nonce ∧ devRead u (a + 288) 32 = nonce ∧
    devRead u (a + 256) 6 = [0x41, 0x53, 0x54, 0x54, 1, 0] ∧
    devRead u (a + 640) 128 = reportTail s := by
  intro nonce u
  have hnonce : nonce.length = 32 := devRead_length ..
  have hbody := reportBody_length (s := s) hnonce
  have hhead : reportHead s = [0x41, 0x53, 0x54, 0x54, 1, 0] ++ (reportHead s).drop 6 := rfl
  refine ⟨devRead_devWrite_part [] (reportBody s nonce) (reportTail s) rfl rfl hbody.symm t,
    devRead_devWrite_part (reportHead s) nonce (reportRest s ++ reportTail s) ?_ ?_ hnonce.symm t,
    devRead_devWrite_part [] [0x41, 0x53, 0x54, 0x54, 1, 0] ((reportHead s).drop 6 ++
      (nonce ++ reportRest s ++ reportTail s)) ?_ rfl rfl t,
    devRead_devWrite_part (reportBody s nonce) (reportTail s) [] ?_ ?_ (reportTail_length s).symm t⟩
  · rw [report, reportBody_eq, List.append_assoc, List.append_assoc]
  · rw [reportHead_length]
  · rw [report, reportBody_eq, hhead]
    simp only [List.append_assoc, List.nil_append]
    rfl
  · rw [report, List.append_nil]
  · rw [hbody]

/-- Settles O9: the report is written as one run of 512 bytes. -/
theorem attestFormsItsReport : Obligations.AttestFormsItsReport := by
  unfold Obligations.AttestFormsItsReport
  intro s hrom hidle hstate
  dsimp only
  refine ⟨fun hgood => ⟨_, exec_attest hrom hidle hstate, ?_⟩, fun hbad => ⟨_, exec_attest hrom hidle hstate, ?_⟩⟩
  · rw [attest_good hgood]
    have hread (b n : Nat) : devRead (succeed 2 (devWrite (s.mgt.arg0.toNat + 256) (report s) (signing s))) b n =
        devRead (devWrite (s.mgt.arg0.toNat + 256) (report s) (signing s)) b n := by simp [devRead, succeed]
    obtain ⟨hdone, hcode, hcmd, -⟩ := finishCmd_mgt 2 .done Code.mgtOk
      (devWrite (s.mgt.arg0.toNat + 256) (report s) (signing s))
    obtain ⟨hbody, hnonce, hmagic, htail⟩ := report_written s.mgt.arg0.toNat s (signing s)
    simp only [hread]
    refine ⟨?_, hdone, hcode, hcmd, hbody, hnonce, hmagic, fun hid => ?_, fun b n hout => ?_⟩
    · refine (finishCmd_eq_frame _ _ _ _).trans ?_
      have hhbm : (succeed 2 (devWrite (s.mgt.arg0.toNat + 256) (report s) (signing s))).hbm =
          (devWrite (s.mgt.arg0.toNat + 256) (report s) (signing s)).hbm := by simp [succeed]
      have hfree : (succeed 2 (devWrite (s.mgt.arg0.toNat + 256) (report s) (signing s))).free =
          (signing s).free := by simp [succeed]
      rw [hhbm, hfree, signing_eq]
      rfl
    · rw [htail, reportTail, hid]
    · rw [devRead_devWrite_other _ _ _ _ _ (by rw [report_length]; omega), devRead_signing]
  · rw [attest_bad hbad]
    obtain ⟨hdone, hcode, -⟩ := finishCmd_mgt 2 .refused Code.mgtBadArg s
    exact ⟨finishCmd_eq_frame _ _ _ _, hdone, hcode⟩

/-! ## LIFECYCLE (R402 to R404) -/

/-- The edges of R402. -/
def lifecycleEdges : List (Lifecycle × Lifecycle) :=
  [(.blank, .manufactured), (.manufactured, .provisioned), (.provisioned, .deployed), (.provisioned, .returned),
    (.deployed, .returned), (.returned, .provisioned)]

theorem mem_edges_of_signers {fr dst : Lifecycle} {p : Bool × Bool} (h : edgeSigners fr dst = some p) :
    (fr, dst) ∈ lifecycleEdges := by
  revert h
  cases fr <;> cases dst <;> simp [edgeSigners, lifecycleEdges]

/-- A token that passes takes the module along an edge of the table from the state it is in. -/
theorem edge_of_tokenEdge {s : State} {t : BitVec 2048} {l : Lifecycle} (h : tokenEdge s t = some l) :
    (s.fuses.lifecycle, l) ∈ lifecycleEdges := by
  unfold tokenEdge at h
  split at h
  next fr dst hfr hdst =>
    split at h
    · cases h
    next vendor owner hsigners =>
      extract_lets signer key slotOk at h
      cases hkey : key with
      | none => simp [hkey] at h
      | some k =>
        simp only [hkey] at h
        split at h
        next hall =>
          obtain ⟨_, _, _, _, hfrom, _⟩ := hall
          cases h
          exact hfrom ▸ mem_edges_of_signers hsigners
        · cases h
  · cases h

section
variable {s : State} (hrom : s.controllers.romDone = true) (hidle : s.mgt.cmdState ≠ .busy)
  (hready : s.mgt.state = .ready) (harg : s.mgt.arg0.toNat + 256 ≤ devTop)
include hrom hidle hready harg

theorem exec_lifecycle : exec (.lifecycle none) s = .next
    (match tokenEdge s (BitVec.ofNat 2048 (devNat s s.mgt.arg0.toNat 256)) with
      | none => refuse 7 Code.mgtBadArg s
      | some dst => succeed 7 (transition dst (BitVec.ofNat 2048 (devNat s s.mgt.arg0.toNat 256)) 5 s)) := by
  change execLifecycle none s = _
  rw [execLifecycle, entry_ready hrom hidle hready]
  refine congrArg Host.Outcome.next ?_
  change lifecycle none s = _
  unfold lifecycle
  refine (if_neg (by omega)).trans ?_
  cases tokenEdge s (BitVec.ofNat 2048 (devNat s s.mgt.arg0.toNat 256)) <;> rfl

end

/-- What an edge may change. -/
def EdgeFrame (s t : State) : Prop :=
  t = { s with fuses := t.fuses, hbm := t.hbm, flash := t.flash, controllers := t.controllers, free := t.free }

/-- The state bit alone is blown. -/
theorem transition_bit {l : Lifecycle} (h : l = .manufactured ∨ l = .deployed) (token : BitVec 2048) (s : State) :
    transition l token 5 s = { s with fuses := { s.fuses with lifecycle := l } } := by
  obtain rfl | rfl := h <;> rfl

/-- The slot as an edge into Provisioned leaves it: key, seed, and valid. -/
def filledSlot (key : BitVec 512) (k : Nat) (o : OwnerSlot) : OwnerSlot :=
  { o with ownerKey := key, touched := true, seed := Config.noise256 k, valid := true }

theorem slotOf_setSlot_same (i : Nat) (g : OwnerSlot → OwnerSlot) (f : Fuses) :
    slotOf (setSlot i g f) i = g (slotOf f i) := by
  match i with | 0 | 1 | 2 | _ + 3 => rfl

theorem slotOf_setSlot_other {i k : Nat} (hi : i < 4) (hk : k < 4) (h : k ≠ i) (g : OwnerSlot → OwnerSlot) (f : Fuses) :
    slotOf (setSlot i g f) k = slotOf f k := by
  match i, k with
  | 0, 1 | 0, 2 | 0, 3 | 1, 0 | 1, 2 | 1, 3 | 2, 0 | 2, 1 | 2, 3 | 3, 0 | 3, 1 | 3, 2 => rfl
  | 0, 0 | 1, 1 | 2, 2 | 3, 3 => exact absurd rfl h

theorem slotOf_lifecycle (f : Fuses) (l : Lifecycle) (k : Nat) : slotOf { f with lifecycle := l } k = slotOf f k := by
  match k with | 0 | 1 | 2 | _ + 3 => rfl

/-- The fuses behind an edge into Provisioned. -/
def provisioned (i : Nat) (key : BitVec 512) (k : Nat) (f : Fuses) : Fuses :=
  { setSlot i (filledSlot key k) f with lifecycle := .provisioned }

theorem provision_eq (i : Nat) (key : BitVec 512) (s : State) :
    provision i key 5 s = { s with
      free := s.free + 1
      fuses := provisioned i key s.free s.fuses
      controllers := { s.controllers with identity := deriveIdentity (provisioned i key s.free s.fuses) } } := by
  have hslots : setSlot i (fun o => { o with valid := true }) (setSlot i (fun o => { o with seed := Config.noise256 s.free })
      (setSlot i (fun o => { o with ownerKey := key, touched := true }) s.fuses)) = setSlot i (filledSlot key s.free) s.fuses := by
    match i with | 0 | 1 | 2 | _ + 3 => rfl
  simp only [provision, takeFree, withFuses, Nat.reduceLeDiff, if_true, hslots, provisioned]

theorem lt_of_unusedSlot {f : Fuses} {i : Nat} (h : unusedSlot f = some i) : i < 4 := by
  have hmem := List.mem_of_find?_eq_some h
  rw [mem_upFrom] at hmem
  omega

/-- An edge into Returned, in its order. -/
theorem giveBack_eq (s : State) :
    giveBack 5 s = withFuses (fun f => { f with lifecycle := .returned })
      (eraseFlash (zeroHbm (revokeActive { s with controllers := { s.controllers with identity := none } }))) := by
  simp only [giveBack, Nat.reduceLeDiff, if_true]

theorem revokeActive_eq (s : State) : revokeActive s = { s with fuses := (revokeActive s).fuses } := by
  unfold revokeActive
  split <;> rfl

theorem revokeActive_revokes {s : State} {i : Nat} (h : activeSlot s.fuses = some i) :
    (slotOf (revokeActive s).fuses i).revoked = true := by
  simp only [revokeActive, h, withFuses, slotOf_setSlot_same]

/-- What an edge into Returned leaves. -/
theorem giveBack_clears (s : State) :
    let t := giveBack 5 s
    EdgeFrame s t ∧ t.fuses.lifecycle = .returned ∧
    t.controllers.identity = none ∧ t.hbm.dev = [] ∧ t.hbm.tandem = [] ∧ t.hbm.saveArea = [] ∧
    t.hbm.stamps = [] ∧ t.hbm.tandemStamps = [] ∧ t.hbm.commitWord = 0 ∧ t.hbm.amendment = none ∧
    t.flash.bytes = [] ∧ ∀ i, activeSlot s.fuses = some i → (slotOf t.fuses i).revoked = true := by
  rw [giveBack_eq]
  refine ⟨?_, rfl, ?_, rfl, rfl, rfl, rfl, rfl, rfl, rfl, rfl, fun i hi => ?_⟩
  · rw [revokeActive_eq]
    rfl
  · rw [revokeActive_eq]
    rfl
  · exact (congrArg OwnerSlot.revoked (slotOf_lifecycle _ .returned i)).trans
      (revokeActive_revokes (s := { s with controllers := { s.controllers with identity := none } }) hi)

/-- The end of the command shows what the edge has left. -/
theorem succeed_shows (s : State) :
    let t := succeed 7 s
    t.fuses = s.fuses ∧ t.hbm = s.hbm ∧ t.flash = s.flash ∧ t.controllers = s.controllers ∧ t.free = s.free := by
  simp [succeed]

theorem EdgeFrame.succeeds {s u : State} (h : EdgeFrame s u) :
    let t := succeed 7 u
    t = { s with fuses := t.fuses, hbm := t.hbm, flash := t.flash, controllers := t.controllers, mgt := t.mgt,
                 sent := t.sent, free := t.free } := by
  intro t
  obtain ⟨hfuses, hhbm, hflash, hctl, hfree⟩ := succeed_shows u
  change t.fuses = _ at hfuses
  change t.hbm = _ at hhbm
  change t.flash = _ at hflash
  change t.controllers = _ at hctl
  change t.free = _ at hfree
  rw [hfuses, hhbm, hflash, hctl, hfree]
  exact (finishCmd_eq_frame 7 .done Code.mgtOk u).trans
    (congrArg (fun v : State => { v with mgt := t.mgt, sent := t.sent }) h)

/-- What a transition does for each target of an edge. -/
theorem transition_does {s : State} {token : BitVec 2048} {l : Lifecycle} (h : tokenEdge s token = some l) :
    let t := transition l token 5 s
    EdgeFrame s t ∧ t.fuses.lifecycle = l ∧
    (l = .manufactured ∨ l = .deployed →
      t.fuses = { s.fuses with lifecycle := l } ∧ t.hbm = s.hbm ∧ t.flash = s.flash ∧ t.controllers = s.controllers) ∧
    (l = .provisioned →
      unusedSlot s.fuses = some (field token 55 48) ∧ (slotOf t.fuses (field token 55 48)).ownerKey = tokenKey token ∧
        (slotOf t.fuses (field token 55 48)).valid = true ∧
        (∀ k, k < 4 → k ≠ field token 55 48 → slotOf t.fuses k = slotOf s.fuses k) ∧
        t.controllers.identity = deriveIdentity t.fuses ∧ t.hbm = s.hbm ∧ t.flash = s.flash) ∧
    (l = .returned →
      t.controllers.identity = none ∧ t.hbm.dev = [] ∧ t.hbm.tandem = [] ∧ t.hbm.saveArea = [] ∧
        t.hbm.stamps = [] ∧ t.hbm.tandemStamps = [] ∧ t.hbm.commitWord = 0 ∧ t.hbm.amendment = none ∧
        t.flash.bytes = [] ∧ ∀ i, activeSlot s.fuses = some i → (slotOf t.fuses i).revoked = true) := by
  have hedge := edge_of_tokenEdge h
  intro t
  cases l with
  | blank => simp [lifecycleEdges] at hedge
  | manufactured =>
    have ht : t = _ := transition_bit (.inl rfl) token s
    rw [ht]
    exact ⟨rfl, rfl, fun _ => ⟨rfl, rfl, rfl, rfl⟩, nofun, nofun⟩
  | deployed =>
    have ht : t = _ := transition_bit (.inr rfl) token s
    rw [ht]
    exact ⟨rfl, rfl, fun _ => ⟨rfl, rfl, rfl, rfl⟩, nofun, nofun⟩
  | provisioned =>
    have hslot := unusedSlot_of_tokenEdge h
    have ht : t = _ := provision_eq (field token 55 48) (tokenKey token) s
    rw [ht]
    refine ⟨rfl, rfl, fun h => by simp at h, fun _ => ⟨hslot, ?_, ?_, fun k hk hne => ?_, rfl, rfl, rfl⟩, nofun⟩
    · simp only [provisioned, slotOf_lifecycle, slotOf_setSlot_same, filledSlot]
    · simp only [provisioned, slotOf_lifecycle, slotOf_setSlot_same, filledSlot]
    · simp only [provisioned, slotOf_lifecycle]
      exact slotOf_setSlot_other (lt_of_unusedSlot hslot) hk hne _ _
  | returned =>
    obtain ⟨hframe, hbit, hclears⟩ := giveBack_clears s
    exact ⟨hframe, hbit, fun h => by simp at h, nofun, fun _ => hclears⟩

/-- Settles O14: a token's checks name an edge of the table, and each of the three kinds of edge is read off its transition. -/
theorem lifecycleFollowsItsEdges : Obligations.LifecycleFollowsItsEdges := by
  unfold Obligations.LifecycleFollowsItsEdges
  intro s hrom hidle hready harg
  dsimp only
  have hexec := exec_lifecycle hrom hidle hready harg
  generalize BitVec.ofNat 2048 (devNat s s.mgt.arg0.toNat 256) = token at hexec
  refine ⟨fun l hl => ?_, fun hno => ?_⟩
  · rw [hl] at hexec
    obtain ⟨hframe, hbit, hplain, hfill, hreturn⟩ := transition_does hl
    obtain ⟨hdone, hcode, hcmd, -⟩ := finishCmd_mgt 7 .done Code.mgtOk (transition l token 5 s)
    refine ⟨_, hexec, edge_of_tokenEdge hl, hframe.succeeds, ?_⟩
    obtain ⟨hfuses, hhbm, hflash, hctl, -⟩ := succeed_shows (transition l token 5 s)
    simp only [hfuses, hhbm, hflash, hctl]
    exact ⟨hbit, hdone, hcode, hcmd, hplain, hfill, hreturn⟩
  · rw [hno] at hexec
    obtain ⟨hdone, hcode, -⟩ := finishCmd_mgt 7 .refused Code.mgtBadArg s
    exact ⟨_, hexec, finishCmd_eq_frame _ _ _ _, hdone, hcode⟩

end Sys2Proof.Machine
end

section
/-! HEALTH_SWEEP and the held sweep (O10). -/

namespace Sys2Proof.Machine

/-! ## What the parts of a sweep change besides the core map (R431, R434, R436) -/

/-- A part of a sweep that reports, fails wavelengths, remaps rows or starts ports. -/
structure SweepStep (s t : State) : Prop where
  frame : t = { s with hbm := t.hbm, fabric := t.fabric, status := t.status, hostMem := t.hostMem, sent := t.sent }
  map : t.hbm.coreMap = s.hbm.coreMap
  dev : t.hbm.dev = s.hbm.dev

theorem SweepStep.refl (s : State) : SweepStep s s := ⟨rfl, rfl, rfl⟩

theorem SweepStep.trans {s t u : State} (h : SweepStep s t) (h' : SweepStep t u) : SweepStep s u :=
  ⟨by rw [h'.frame, h.frame], h'.map.trans h.map, h'.dev.trans h.dev⟩

theorem SweepStep.job {s t : State} (h : SweepStep s t) (hj : s.job = none) : t.job = none := by
  rw [h.frame]
  exact hj

theorem SweepStep.fuses {s t : State} (h : SweepStep s t) : t.fuses = s.fuses := by rw [h.frame]

theorem SweepStep.foldl {α : Type} {g : State → α → State} (h : ∀ t x, t.job = none → SweepStep t (g t x)) (xs : List α)
    {s : State} (hj : s.job = none) : SweepStep s (xs.foldl g s) :=
  List.foldlRecOn (motive := SweepStep s) xs _ (.refl s) fun t ht x _ => ht.trans (h t x (ht.job hj))

theorem sweepStep_postEvent (code : U16) (op : U32) (detail : U16) (loc : U64) (s : State) :
    SweepStep s (postEvent code op detail loc s) :=
  ⟨by rw [postEvent_eq], by simp, by simp⟩

theorem sweepStep_withCounts (f : Counts → Counts) (s : State) : SweepStep s (withCounts f s) := ⟨rfl, rfl, rfl⟩

theorem sweepStep_setPort (p : Nat) (f : Port → Port) (s : State) : SweepStep s (setPort p f s) := ⟨rfl, rfl, rfl⟩

theorem sweepStep_emit (o : Out) (s : State) : SweepStep s (emit o s) := ⟨rfl, rfl, rfl⟩

theorem sweepStep_addDown (l : Link) (s : State) : SweepStep s (addDown l s) := by
  unfold addDown
  split
  · exact .refl s
  · exact ⟨rfl, rfl, rfl⟩

theorem sweepStep_dropPort (p : PortId) (code : U16) (s : State) : SweepStep s (dropPort p code s) :=
  ((((sweepStep_setPort _ _ _).trans (sweepStep_withCounts _ _)).trans (sweepStep_postEvent _ _ _ _ _)).trans
    (sweepStep_addDown _ _)).trans (sweepStep_emit _ _)

/-- Without a job a port that goes down aborts no step. -/
theorem sweepStep_losePort (p : PortId) (code : U16) (more : Bool) {s : State} (hj : s.job = none) :
    SweepStep s (losePort p code more s) := by
  have hdrop := sweepStep_dropPort p code s
  have hidle : abortIfRunning (dropPort p code s) = dropPort p code s := by
    rw [abortIfRunning, hdrop.job hj]
  rw [losePort_eq, hidle, ite_self]
  exact hdrop

theorem sweepStep_retireFibre (p : PortId) (fibre wave : Nat) {s : State} (hj : s.job = none) :
    SweepStep s (retireFibre p fibre wave s) := by
  unfold retireFibre
  extract_lets s1 s2
  have h2 : SweepStep s s2 :=
    (((sweepStep_setPort _ _ _).trans (sweepStep_withCounts _ _)).trans (sweepStep_postEvent _ _ _ _ _)).trans
      (sweepStep_emit _ _)
  split
  · exact h2.trans (sweepStep_losePort _ _ _ (h2.job hj))
  · exact h2

theorem sweepStep_failWave (w : Wave) {s : State} (hj : s.job = none) : SweepStep s (failWave w s) := by
  unfold failWave
  extract_lets f
  split
  · exact sweepStep_retireFibre _ _ _ hj
  · exact ((sweepStep_setPort _ _ _).trans (sweepStep_withCounts _ _)).trans (sweepStep_postEvent _ _ _ _ _)
  · exact sweepStep_setPort _ _ _

theorem sweepStep_failWaves (ws : List Wave) {s : State} (hj : s.job = none) : SweepStep s (failWaves ws s) :=
  .foldl (fun _ w ht => sweepStep_failWave w ht) ws hj

theorem sweepStep_remapped (rows : List RowAddr) (s : State) :
    SweepStep s { s with hbm := { s.hbm with remapped := rows } } := ⟨rfl, rfl, rfl⟩

theorem sweepStep_remapRow (r : RowAddr) (s : State) : SweepStep s (remapRow r s) := by
  unfold remapRow
  split
  · exact .refl s
  · split
    · exact (sweepStep_remapped _ s).trans ((sweepStep_withCounts _ _).trans (sweepStep_postEvent _ _ _ _ _))
    · exact sweepStep_postEvent _ _ _ _ _

theorem sweepStep_reportLanes (ls : List PhyLane) {s : State} (hj : s.job = none) : SweepStep s (reportLanes ls s) :=
  .foldl (fun _ _ _ => sweepStep_postEvent _ _ _ _ _) ls hj

/-! ## The core map (R423, R431) -/

/-- The core map as a sweep classes it, with the counts it keeps. -/
def sweptMap (failed : List PhysCore) (s : State) : List CoreEntry :=
  coreMapOf (passedTest failed) (isFused s) (fun p => ((entryOf s p).mismatches, (entryOf s p).remaps))

/-- The cores are classed again, before the ones that were found failed are reported. -/
def classed (failed : List PhysCore) (s : State) : State :=
  { s with
    hbm := { s.hbm with coreMap := sweptMap failed s }
    selfTest := { s.selfTest with parked := [], due := [] } }

theorem sweepCores_eq (failed : List PhysCore) (s : State) :
    sweepCores failed s =
      failed.foldl (fun t c => postEvent Code.evCoreRemap noOp 0 (BitVec.ofNat 64 (256 * c.val + 0xFF)) t)
        (classed failed s) := by
  unfold sweepCores classed sweptMap passedTest
  rfl

theorem sweepCores_step (failed : List PhysCore) {s : State} (hj : s.job = none) :
    SweepStep (classed failed s) (sweepCores failed s) := by
  rw [sweepCores_eq]
  exact .foldl (fun _ _ _ => sweepStep_postEvent _ _ _ _ _) failed hj

theorem sweptMap_failed {failed : List PhysCore} {c : PhysCore} (hc : c ∈ failed) (s : State) (d : CoreEntry) :
    (nthD d (sweptMap failed s) c.val).state = .failed ∨ (nthD d (sweptMap failed s) c.val).state = .fused := by
  rw [sweptMap, nthD_coreMapOf c.isLt]
  have hbad := (passedTest_eq_false_iff failed c).mpr hc
  obtain ⟨-, h⟩ | ⟨-, -, h⟩ | ⟨-, hok, -⟩ := classify_cases (passedTest failed) (isFused s) c.isLt
  · exact .inr (congrArg Prod.fst h)
  · exact .inl (congrArg Prod.fst h)
  · simp [hbad] at hok

theorem sweptMap_passed {failed : List PhysCore} {c : PhysCore} (hc : c ∉ failed) {s : State}
    (hfused : isFused s c.val = false) (d : CoreEntry) :
    (nthD d (sweptMap failed s) c.val).state = .active ∨ (nthD d (sweptMap failed s) c.val).state = .spare := by
  rw [sweptMap, nthD_coreMapOf c.isLt]
  obtain ⟨hf, -⟩ | ⟨-, hbad, -⟩ | ⟨-, -, h | ⟨l, -, h⟩⟩ := classify_cases (passedTest failed) (isFused s) c.isLt
  · simp [hfused] at hf
  · exact absurd ((passedTest_eq_false_iff failed c).mp hbad) hc
  · exact .inr (congrArg Prod.fst h)
  · exact .inl (congrArg Prod.fst h)

/-- Cores are entered as fused, one after another. -/
def fuseCores (cores : List PhysCore) (s : State) : State :=
  cores.foldl (fun t c => setEntry c.val (fun e => { e with state := .fused, logical := 0xFF }) t) s

theorem fuseCores_does (cores : List PhysCore) {s : State} (hlen : s.hbm.coreMap.length = 144) :
    let t := fuseCores cores s
    t = { s with hbm := { s.hbm with coreMap := t.hbm.coreMap } } ∧ t.hbm.coreMap.length = 144 ∧
    ∀ c : PhysCore, (entryOf t c.val).state = if c ∈ cores then .fused else (entryOf s c.val).state := by
  induction cores generalizing s with
  | nil => exact ⟨rfl, hlen, fun c => by simp [fuseCores]⟩
  | cons d cores ih =>
    have hlen' : (setEntry d.val (fun e => { e with state := .fused, logical := 0xFF }) s).hbm.coreMap.length = 144 := by
      simp [setEntry, updNth_length, hlen]
    obtain ⟨hframe, hlength, hstate⟩ := ih hlen'
    refine ⟨hframe, hlength, fun c => (hstate c).trans ?_⟩
    by_cases hc : c ∈ cores
    · simp [hc]
    by_cases hd : c = d
    · subst hd
      rw [if_neg hc, if_pos (by simp), entryOf_setEntry_same _ _ _ (by rw [hlen]; exact c.isLt)]
    · rw [if_neg hc, if_neg (by simp [hc, hd]), entryOf_setEntry_other _ _ _ _ fun h => hd (Fin.ext h)]

/-! ## Fuse repair (R437) -/

theorem isFused_eq_false_iff (s : State) (c : PhysCore) : isFused s c.val = false ↔ c ∉ s.fuses.deadCores := by
  simp only [isFused, List.any_eq_false, beq_iff_eq, Fin.val_inj]
  exact ⟨fun h hc => h c hc rfl, fun h x hx he => h (he ▸ hx)⟩

/-- Fuse repair as its fuses, then the map's entries. -/
theorem fuseRepair_does (f : SweepFindings) {s : State} (hlen : s.hbm.coreMap.length = 144) :
    let t := fuseRepair f s
    t = { s with fuses := t.fuses, hbm := t.hbm } ∧ t.hbm.dev = s.hbm.dev ∧ t.hbm.coreMap.length = 144 ∧
    ∀ c : PhysCore, (entryOf t c.val).state = if isFused t c.val then .fused else (entryOf s c.val).state := by
  unfold fuseRepair
  extract_lets cores rows waves t hbm s1 u
  obtain ⟨hframe, hlength, hstate⟩ := fuseCores_does cores (s := s1) hlen
  have hu : u = fuseCores cores s1 := rfl
  have hfuses : u.fuses.deadCores = cores := by rw [hu, hframe]
  refine ⟨?_, ?_, hlength, fun c => (hstate c).trans ?_⟩
  · rw [hu, hframe]
  · rw [hu, hframe]
  · by_cases hc : c ∈ cores
    · have hf : isFused u c.val = true := by simp [isFused, hfuses, Fin.val_inj, hc]
      rw [if_pos hc, if_pos hf]
    · have hf : isFused u c.val = false := (isFused_eq_false_iff u c).mpr (hfuses ▸ hc)
      rw [if_neg hc, hf]
      rfl

/-! ## A whole sweep -/

/-- What a sweep that no reset cuts short leaves. -/
structure Swept (f : SweepFindings) (s t : State) : Prop where
  frame : t = { s with hbm := t.hbm, fabric := t.fabric, fuses := t.fuses, status := t.status, hostMem := t.hostMem,
                       selfTest := t.selfTest, sent := t.sent }
  dev : t.hbm.dev = s.hbm.dev
  deployed : fullSelfTest s = false → t.fuses = s.fuses
  length : t.hbm.coreMap.length = 144
  failed : ∀ c ∈ f.failedCores, (entryOf t c.val).state = .failed ∨ (entryOf t c.val).state = .fused
  passed : ∀ c : PhysCore, c ∉ f.failedCores → isFused t c.val = false →
    (entryOf t c.val).state = .active ∨ (entryOf t c.val).state = .spare
  held : t.selfTest.sweepHeld = s.selfTest.sweepHeld

theorem fullSelfTest_congr {s t : State} (h : t.fuses = s.fuses) : fullSelfTest t = fullSelfTest s := by
  rw [fullSelfTest, fullSelfTest, h]

/-- The parts before fuse repair: the map is the classification, and no fuse has changed. -/
theorem swept_beforeRepair (f : SweepFindings) {s : State} (hj : s.job = none) :
    let t := f.failedRows.foldl (fun t r => remapRow r t) (sweepBeforeHbm f s)
    t.job = none ∧ t.fuses = s.fuses ∧ t.hbm.coreMap = sweptMap f.failedCores s ∧ t.hbm.dev = s.hbm.dev ∧
    t.selfTest = { s.selfTest with parked := [], due := [] } ∧
    t = { s with hbm := t.hbm, fabric := t.fabric, status := t.status, hostMem := t.hostMem, selfTest := t.selfTest,
                 sent := t.sent } := by
  intro t
  have hcores := sweepCores_step f.failedCores hj
  generalize hu : sweepCores f.failedCores s = u at hcores
  have huj : u.job = none := hcores.job hj
  have hwaves : SweepStep u (if fullSelfTest u then u else failWaves (sweptWaves u f.deadWaves) u) := by
    split
    · exact .refl u
    · exact sweepStep_failWaves _ huj
  have hlanes : SweepStep u (sweepBeforeHbm f s) := by
    unfold sweepBeforeHbm
    rw [hu]
    exact hwaves.trans (sweepStep_reportLanes f.badLanes (hwaves.job huj))
  have hrows : SweepStep (sweepBeforeHbm f s) t :=
    .foldl (fun _ r _ => sweepStep_remapRow r _) f.failedRows (hlanes.job huj)
  have h : SweepStep (classed f.failedCores s) t := hcores.trans (hlanes.trans hrows)
  refine ⟨h.job hj, h.fuses, h.map, h.dev, ?_, ?_⟩
  · rw [h.frame]
    rfl
  · rw [h.frame]
    rfl

theorem sweepParts_swept (f : SweepFindings) {s : State} (hj : s.job = none) : Swept f s (sweepParts f s) := by
  have hgrow := (sweepParts_grows f s).deadCores
  unfold sweepParts at hgrow ⊢
  extract_lets t at hgrow ⊢
  obtain ⟨htj, hfuses, hmap, hdev, htest, hframe⟩ := swept_beforeRepair f hj
  change t.job = none at htj
  change t.fuses = _ at hfuses
  change t.hbm.coreMap = _ at hmap
  change t.hbm.dev = _ at hdev
  change t.selfTest = _ at htest
  change t = { s with
    hbm := t.hbm, fabric := t.fabric, status := t.status, hostMem := t.hostMem
    selfTest := t.selfTest, sent := t.sent } at hframe
  clear_value t
  have hlen : t.hbm.coreMap.length = 144 := by rw [hmap, sweptMap, length_coreMapOf]
  have hentry (c : PhysCore) : entryOf t c.val = nthD ⟨0, 0xFF, 0, .failed⟩ (sweptMap f.failedCores s) c.val := by
    rw [entryOf, hmap]
  by_cases hfull : fullSelfTest t = true
  · rw [if_pos hfull] at hgrow ⊢
    have hwaves := sweepStep_failWaves f.deadWaves htj
    generalize failWaves f.deadWaves t = u at hwaves hgrow ⊢
    obtain ⟨hrepair, hrdev, hrlen, hrstate⟩ := fuseRepair_does f (s := u) (hwaves.map ▸ hlen)
    generalize fuseRepair f u = v at hrepair hrdev hrlen hrstate hgrow ⊢
    have hvj : v.job = none := by rw [hrepair]; exact hwaves.job htj
    have hports : SweepStep v ((upFrom 0 6).foldl (fun t p => restartPort p t) v) :=
      .foldl (fun _ p _ => sweepStep_setPort p _ _) (upFrom 0 6) hvj
    generalize (upFrom 0 6).foldl (fun t p => restartPort p t) v = w at hports hgrow ⊢
    have hstate (c : PhysCore) : (entryOf w c.val).state = if isFused w c.val then .fused else (entryOf t c.val).state := by
      have hw : entryOf w c.val = entryOf v c.val := entryOf_congr hports.map c.val
      have hf : isFused w c.val = isFused v c.val := by rw [isFused, isFused, hports.fuses]
      have hu : entryOf u c.val = entryOf t c.val := entryOf_congr hwaves.map c.val
      rw [hw, hf, hrstate c, hu]
    refine ⟨?_, ?_, fun hno => ?_, hports.map ▸ hrlen, fun c hc => ?_, fun c hc hfused => ?_, ?_⟩
    · rw [hports.frame, hrepair, hwaves.frame, hframe]
    · rw [hports.dev, hrdev, hwaves.dev, hdev]
    · rw [fullSelfTest_congr hfuses, hno] at hfull
      cases hfull
    · rw [hstate c]
      split
      · exact .inr rfl
      · exact hentry c ▸ sweptMap_failed hc s _
    · rw [hstate c, hfused, if_neg (by simp), hentry c]
      refine sweptMap_passed hc ((isFused_eq_false_iff s c).mpr fun hdead => ?_) _
      exact (isFused_eq_false_iff w c).mp hfused (hgrow.subset hdead)
    · rw [hports.frame, hrepair, hwaves.frame, htest]
  · rw [if_neg hfull]
    refine ⟨?_, hdev, fun _ => hfuses, hlen, fun c hc => hentry c ▸ sweptMap_failed hc s _, fun c hc hfused => ?_, ?_⟩
    · rw [hframe]
    · rw [hentry c]
      refine sweptMap_passed hc ((isFused_eq_false_iff s c).mpr fun hdead => ?_) _
      exact (isFused_eq_false_iff t c).mp hfused (hfuses ▸ hdead)
    · rw [htest]

/-- What the end of the command and the gathering of a held sweep leave as the sweep left it. -/
theorem Swept.of_same {f : SweepFindings} {s t u : State} (h : Swept f s t) (hhbm : u.hbm = t.hbm)
    (hfuses : u.fuses = t.fuses) :
    u.hbm.dev = s.hbm.dev ∧ (fullSelfTest s = false → u.fuses = s.fuses) ∧ u.hbm.coreMap.length = 144 ∧
    (∀ c ∈ f.failedCores, (entryOf u c.val).state = .failed ∨ (entryOf u c.val).state = .fused) ∧
    (∀ c : PhysCore, c ∉ f.failedCores → isFused u c.val = false →
      (entryOf u c.val).state = .active ∨ (entryOf u c.val).state = .spare) := by
  have hentry (p : Nat) : entryOf u p = entryOf t p := entryOf_congr (by rw [hhbm]) p
  have hfused (p : Nat) : isFused u p = isFused t p := by rw [isFused, isFused, hfuses]
  simp only [hentry, hfused, hhbm, hfuses]
  exact ⟨h.dev, h.deployed, h.length, h.failed, h.passed⟩

theorem exec_healthSweep {f : SweepFindings} {s : State} (hcut : f.cut = none) (hready : s.mgt.state = .ready)
    (hrom : s.controllers.romDone = true) (hidle : s.mgt.cmdState ≠ .busy) (hblank : s.fuses.lifecycle ≠ .blank)
    (hheld : s.selfTest.sweepHeld = false) : exec (.healthSweep f) s = .next (succeed 3 (sweepParts f s)) := by
  change execHealthSweep f s = _
  simp only [execHealthSweep, entry_ready hrom hidle hready]
  refine congrArg Host.Outcome.next ?_
  change healthSweep f s = _
  simp [healthSweep, hblank, hheld, hcut]

/-- The state in which a held sweep gathers its findings. -/
def gathering (s : State) : State :=
  { s with
    status := { s.status with
      eventCount := s.selfTest.foundCount
      events := s.selfTest.foundEvents
      counts := s.selfTest.foundCounts }
    selfTest := { s.selfTest with sweepHeld := false } }

theorem exec_heldSweepStart {f : SweepFindings} {s : State} (hcut : f.cut = none) (hready : s.mgt.state = .ready)
    (hj : s.job = none) (hheld : s.selfTest.sweepHeld = true) : exec (.heldSweepStart f) s = .next
      (let t := sweepParts f (gathering s)
       { t with
         status := s.status
         hostMem := s.hostMem
         selfTest := { t.selfTest with
           foundCount := t.status.eventCount
           foundEvents := t.status.events
           foundCounts := t.status.counts } }) := by
  change execHeldSweepStart f s = _
  simp only [execHeldSweepStart, if_pos (And.intro hheld (And.intro hready hj)), hcut]
  rfl

/-- Settles O10: one sweep, ended as a command or gathered behind what earlier held sweeps found. -/
theorem healthSweepClassesCores : Obligations.HealthSweepClassesCores := by
  unfold Obligations.HealthSweepClassesCores
  intro f s hcut hready hj swept
  refine ⟨fun hrom hidle hblank hheld => ⟨_, exec_healthSweep hcut hready hrom hidle hblank hheld, ?_⟩,
    fun hheld => ⟨_, exec_heldSweepStart hcut hready hj hheld, ?_⟩⟩
  · have h := sweepParts_swept f hj
    generalize sweepParts f s = u at h
    obtain ⟨hdone, hcode, hcmd, -⟩ := finishCmd_mgt 3 .done Code.mgtOk u
    refine ⟨⟨?_, h.of_same (by simp [succeed]) (by simp [succeed])⟩, hdone, hcode, hcmd⟩
    rw [succeed, finishCmd_eq_frame, h.frame]
  · have h := sweepParts_swept f (s := gathering s) hj
    generalize sweepParts f (gathering s) = u at h
    have hsame := h.of_same (u := { u with
      status := s.status
      hostMem := s.hostMem
      selfTest := { u.selfTest with
        foundCount := u.status.eventCount
        foundEvents := u.status.events
        foundCounts := u.status.counts } }) rfl rfl
    refine ⟨⟨?_, hsame⟩, h.held, ?_, rfl, rfl⟩
    · rw [h.frame]
      rfl
    · rw [h.frame]
      rfl

end Sys2Proof.Machine
end

section
/-! The fetch of a job, and the lines that the module watches for the host (O16, O18). -/

namespace Sys2Proof.Machine

/-! ## JOB_FETCH (R371, R372) -/

/-- The fetch writes the job-start record and enters the barrier. -/
theorem exec_jobFetch {f : JobFetchIn} {s : State} (hfault : s.ring.faulted = false) (hfetch : mayFetch s = true) :
    exec (.jobFetch f) s = .next { s with
      job := some (fetchedJob s f)
      mgt := { s.mgt with state := .running }
      status := (withStatus (startRecord f.desc s.selfTest) s).status
      hostMem := (withStatus (startRecord f.desc s.selfTest) s).hostMem
      selfTest := { s.selfTest with foundCount := 0, foundEvents := [], foundCounts := Counts.zero }
      sent := s.sent ++
        [.send (.jobStart (fetchedJob s f).refusal.isSome (fetchedJob s f).identity (fieldsDigest f.desc))] } := by
  change execJobFetch f s = _
  have hring : ¬ (s.ring.faulted = true ∧ s.job = none ∧ s.status.status ≠ Code.jobRing) := by simp [hfault]
  rw [execJobFetch, if_neg hring, if_neg (by simp [hfetch])]
  simp only [withStatus_frame, emit]

theorem startRecord_status (d : BitVec 2048) (s : State) :
    let t := withStatus (startRecord d s.selfTest) s
    t.status = { StatusRec.reset with
      updateSeq := s.status.updateSeq + 2
      jobId := Desc.jobId d
      step := BitVec.ofNat 64 (Desc.firstStep d)
      committed := BitVec.ofNat 64 (Desc.firstStep d) - 1
      time := s.time.value
      status := 0x0001
      eventCount := s.selfTest.foundCount
      events := t.status.events
      counts := s.selfTest.foundCounts } := by
  intro t
  have ht : t.status = { startRecord d s.selfTest s.status with
      updateSeq := (startRecord d s.selfTest s.status).updateSeq + 2, time := s.time.value } := withStatus_status _ _
  rw [ht]
  rfl

/-- The first conditions of the table, in their order. -/
theorem startRefusal_eq (s : State) (f : JobFetchIn) : startRefusal s f =
    if Desc.reservedZero f.desc = false then some 0x0005
    else if s.fuses.lifecycle.jobsRun = false then some 0x0006
    else if Desc.lastStep f.desc < Desc.firstStep f.desc then some 0x0006
    else if 2 ^ 63 ≤ Desc.firstStep f.desc ∨ 2 ^ 63 ≤ Desc.lastStep f.desc then some 0x0307
    else firstCode ((descChecks s f.desc).drop 4 ++ imageChecks s f) := by
  simp only [startRefusal, descChecks, List.cons_append]
  simp only [refuseIf, Bool.not_eq_true', decide_eq_true_eq, Bool.or_eq_true]
  split
  · rfl
  split
  · rfl
  split
  · rfl
  split
  · rfl
  · rfl

theorem jobsRun_iff (l : Lifecycle) : l.jobsRun = false ↔ l = .blank ∨ l = .provisioned := by
  cases l <;> simp [Lifecycle.jobsRun]

theorem startRefusal_rows (s : State) (f : JobFetchIn) :
    (Desc.reservedZero f.desc = false → startRefusal s f = some 0x0005) ∧
    (Desc.reservedZero f.desc = true →
      (s.fuses.lifecycle = .blank ∨ s.fuses.lifecycle = .provisioned → startRefusal s f = some 0x0006) ∧
      (s.fuses.lifecycle ≠ .blank → s.fuses.lifecycle ≠ .provisioned →
        (Desc.lastStep f.desc < Desc.firstStep f.desc → startRefusal s f = some 0x0006) ∧
        (Desc.firstStep f.desc ≤ Desc.lastStep f.desc → 2 ^ 63 ≤ Desc.lastStep f.desc →
          startRefusal s f = some 0x0307))) := by
  rw [startRefusal_eq]
  refine ⟨fun h => if_pos h, fun h => ?_⟩
  rw [if_neg (by simp [h])]
  refine ⟨fun hl => if_pos ((jobsRun_iff _).mpr hl), fun hb hp => ?_⟩
  rw [if_neg (by rw [jobsRun_iff]; simp [hb, hp])]
  refine ⟨fun hlt => if_pos hlt, fun hle hbig => ?_⟩
  rw [if_neg (by omega), if_pos (.inr hbig)]

/-- A faulted ring without a job shows JOB_RING, written again where the record has lost it. -/
theorem exec_jobFetch_faulted {f : JobFetchIn} {s : State} (hfault : s.ring.faulted = true) (hj : s.job = none) :
    Answers (.jobFetch f) s fun t => t = { s with status := t.status, hostMem := t.hostMem } ∧ t.status.status = 0x0009 := by
  by_cases hst : s.status.status = Code.jobRing
  · refine ⟨s, ?_, rfl, hst⟩
    change execJobFetch f s = _
    rw [execJobFetch, if_neg (by simp [hst]), if_pos (by simp [mayFetch, hfault])]
  · refine ⟨withStatus (fun r => { r with status := Code.jobRing }) s, ?_, withStatus_eq _ _, ?_⟩
    · change execJobFetch f s = _
      rw [execJobFetch, if_pos ⟨hfault, hj, hst⟩]
    · rw [withStatus_status]
      rfl

/-- Settles O16: the fetch, its record, and the first rows of R372's table. -/
theorem jobFetchChecksItsDescriptor : Obligations.JobFetchChecksItsDescriptor := by
  unfold Obligations.JobFetchChecksItsDescriptor
  intro f s
  refine ⟨fun hready hj harmed hfault hheld hnext => ?_, exec_jobFetch_faulted⟩
  have hfetch : mayFetch s = true := by simp [mayFetch, hready, hj, harmed, hfault, hheld, hnext]
  refine ⟨_, exec_jobFetch hfault hfetch, fetchedJob s f, rfl, rfl, rfl, rfl, rfl, rfl, ?_, startRecord_status f.desc s, rfl,
    startRefusal_rows s f⟩
  simp only [fetchedJob]

/-! ## Sample-ring producers (R364 to R366) -/

theorem producerBad_iff (c : GhChan) (producer : U64) :
    producerBad c producer = false ↔
      c.producer.toNat ≤ producer.toNat ∧ producer.toNat ≤ c.consumer.toNat + 2 ^ c.ringLog := by
  simp [producerBad]

section
variable {s : State} {j : Job} (hj : s.job = some j) (ch : Chan) (producer : U64)
include hj

theorem exec_sampleRingProducerUpdate (hbarrier : j.phase ≠ .barrier) (hhalted : j.phase ≠ .halted)
    (hon : chanOn (getChan s ch.val) = true) : exec (.sampleRingProducerUpdate ch producer) s =
      .next (if producerBad (getChan s ch.val) producer then stopJob Code.ghRing noOp 0 s
        else setChan ch.val (fun c => { c with producer := producer }) s) := by
  change execSampleRingProducerUpdate ch producer s = _
  simp only [execSampleRingProducerUpdate, hj, hbarrier, decide_false, Bool.false_eq_true, if_false, hon, hhalted,
    not_true_eq_false, or_false]
  split <;> rfl

theorem exec_sampleRingProducerUpdate_waits (hbarrier : j.phase = .barrier) (hon : chanOn (pendingChan j ch.val) = true)
    (hgood : producerBad (pendingChan j ch.val) producer = false) :
    exec (.sampleRingProducerUpdate ch producer) s = .next (notePending j ch.val producer s) := by
  change execSampleRingProducerUpdate ch producer s = _
  simp [execSampleRingProducerUpdate, hj, hbarrier, hon, hgood]

/-- A stop that is no halt is told to the rink. -/
theorem stopJob_notifies {code : U16} (hc : isHalt code = false) (op : U32) (loc : U64) :
    Out.send (.stopNotice code) ∈ (stopJob code op loc s).sent := by
  have hnotice : Out.send (.stopNotice code) ∈ (emit (.send (.stopNotice code)) (postEvent code op 0 loc s)).sent := by simp
  have hsent := concludeJob_sent (s := emit (.send (.stopNotice code)) (postEvent code op 0 loc s)) (j := j) code
    (by simp [hj]) hnotice
  simp only [stopJob, hj, hc]
  rw [if_neg (by simp)]
  unfold leaveRink
  split
  · exact List.mem_append_left _ hsent
  · exact hsent

end

theorem nthD_updNth {α : Type} (d : α) (g : α → α) {xs : List α} {i k : Nat} (hk : k < xs.length) :
    nthD d (updNth g xs k) i = if i = k then g (nthD d xs i) else nthD d xs i := by
  split
  next h => rw [h, nthD_updNth_same _ _ _ _ hk]
  next h => exact nthD_updNth_other _ _ _ _ _ h

/-- The counts that a producer read in the start barrier leaves. -/
theorem notePending_counts (j : Job) (ch : Chan) (producer : U64) (s : State) : ∃ counts,
    notePending j ch.val producer s = { s with job := some { j with ringCounts := counts } } ∧
    ∀ i, i < 16 → nthD (0, 0) counts i =
      if i = ch.val then (producer, (nthD (0, 0) j.ringCounts i).2) else nthD (0, 0) j.ringCounts i := by
  refine ⟨_, rfl, fun i hi => ?_⟩
  have hch : ch.val < ((upFrom 0 16).map (nthD (0, 0) j.ringCounts)).length := by
    simp [upFrom_eq_range']
  rw [nthD_updNth _ _ hch, nthD_map_upFrom _ _ hi]

/-! ## The manifest's host count (R305, R377) -/

/-- The state in which the host's count and the entries that it newly covers are noted. -/
def manifestNoted (count : U64) (entries : List (BitVec 128)) (s : State) : State :=
  { s with coll := { s.coll with
      hostCount := count, hostEntries := putEntries s.coll.hostCount.toNat entries s.coll.hostEntries } }

theorem exec_manifestHostCountUpdate {s : State} {j : Job} (hj : s.job = some j) (hreplay : Desc.replayMode j.desc = true)
    (count : U64) (entries : List (BitVec 128)) :
    exec (.manifestHostCountUpdate count entries) s = .next (takeManifest (manifestNoted count entries s)) := by
  change execManifestHostCountUpdate count entries s = _
  simp only [execManifestHostCountUpdate, hj, hreplay, if_true, manifestNoted]

/-- Entries put above the lowest key leave it in front. -/
theorem foldl_put_above {α : Type} (k : Nat) (x : α) {es : List (Nat × α)} (h : ∀ e ∈ es, k < e.1) (m : SMap α) :
    es.foldl (fun m e => SMap.put m e.1 e.2) ((k, x) :: m) = (k, x) :: es.foldl (fun m e => SMap.put m e.1 e.2) m := by
  induction es generalizing m with
  | nil => rfl
  | cons e es ih =>
    have hlt : k < e.1 := h e (by simp)
    rw [List.foldl_cons, SMap.put, if_pos hlt, ih fun e' he' => h e' (by simp [he'])]
    rfl

/-- The first of the entries that a count newly covers stands under the count before. -/
theorem find_putEntries (k : Nat) (entry : BitVec 128) (rest : List (BitVec 128)) :
    (putEntries k (entry :: rest) []).find? (fun e => e.1 == k) = some (k, entry) := by
  have habove : ∀ e ∈ (upFrom (k + 1) rest.length).zip rest, k < e.1 := fun e he => by
    have hmem := (List.of_mem_zip he).1
    rw [mem_upFrom] at hmem
    omega
  have hput : putEntries k (entry :: rest) [] = (k, entry) ::
      ((upFrom (k + 1) rest.length).zip rest).foldl (fun m e => SMap.put m e.1 e.2) [] :=
    foldl_put_above k entry habove []
  rw [hput, List.find?_cons_of_pos (by simp)]

section
variable {s : State} {j : Job} (hj : s.job = some j)
include hj

/-- A count that does not cover the running step is noted and nothing else. -/
theorem takeManifest_uncovered (hk : s.coll.hostCount.toNat ≤ s.status.step.toNat - Desc.firstStep j.desc) :
    takeManifest s = s := by
  simp only [takeManifest, hj]
  split
  · rfl
  · exact if_neg fun h => absurd h.2.2.2 (by omega)

variable {entry : BitVec 128} (hreplay : Desc.replayMode j.desc = true) (hphase : j.phase = .inStep)
  (hnone : s.coll.included = none) (hk : s.status.step.toNat - Desc.firstStep j.desc < s.coll.hostCount.toNat)
  (hfind : (s.coll.hostEntries.find? fun e => e.1 == s.status.step.toNat - Desc.firstStep j.desc) =
    some (s.status.step.toNat - Desc.firstStep j.desc, entry))
include hreplay hphase hnone hk hfind

theorem takeManifest_bad (hbad : manifestBad s entry = true) : takeManifest s = stopJob Code.colManifestSet noOp 0 s := by
  have hstep : inStep s = true := by simp [inStep, hj, hphase]
  simp only [takeManifest, hj, hfind]
  rw [if_pos ⟨hreplay, hnone, hstep, hk⟩, if_pos hbad]

theorem takeManifest_good (hgood : manifestBad s entry = false) :
    takeManifest s = useFates (publishSets (BitVec.ofNat 32 (field entry 127 96))
      { s with coll := { s.coll with included := some (BitVec.ofNat 32 (field entry 127 96)) } }) := by
  have hstep : inStep s = true := by simp [inStep, hj, hphase]
  simp only [takeManifest, hj, hfind]
  rw [if_pos ⟨hreplay, hnone, hstep, hk⟩, if_neg (by simp [hgood])]

end

/-! ## A step without replica reductions -/

/-- What the replica reduction changes where there is nothing to reduce: arrivals and the carry areas' flag. -/
structure ReplicaIdle (s t : State) : Prop where
  frame : t = { s with coll := t.coll }
  included : t.coll.included = s.coll.included

theorem ReplicaIdle.refl (s : State) : ReplicaIdle s s := ⟨rfl, rfl⟩

theorem ReplicaIdle.trans {s t u : State} (h : ReplicaIdle s t) (h' : ReplicaIdle t u) : ReplicaIdle s u :=
  ⟨by rw [h'.frame, h.frame], h'.included.trans h.included⟩

theorem ReplicaIdle.job {s t : State} (h : ReplicaIdle s t) : t.job = s.job := by rw [h.frame]

theorem replicaIdle_noteArrival (j : Job) (s : State) (r : Nat) : ReplicaIdle s (noteArrival j s r) := by
  unfold noteArrival
  split
  · exact .refl s
  · split
    · exact ⟨rfl, rfl⟩
    · exact .refl s

theorem carryStep_idle {j : Job} (hnone : j.image.replica = []) (included : Bool) (s : State) :
    carryStep included j s = { s with coll := { s.coll with carried := true } } := by
  simp [carryStep, allCarryPages, hnone]

section
variable {s : State} {j : Job} (hj : s.job = some j) (hnone : j.image.replica = [])
include hj hnone

theorem bufferOf_none (op : U32) : bufferOf s op = none := by
  unfold bufferOf
  rw [List.findSome?_eq_none_iff]
  intro d _
  split
  next i k hk hj' =>
    obtain rfl : j = k := Option.some.inj (hj.symm.trans hj')
    simp [hnone]
  · rfl

theorem settleBuffer_idle (d : OpDecl) : settleBuffer s d = s := by
  simp only [settleBuffer, bufferOf_none hj hnone]

theorem replicaIdle_settleCarry : ReplicaIdle s (settleCarry s) := by
  simp only [settleCarry, hj]
  split
  · exact .refl s
  · split
    · exact .refl s
    · rw [carryStep_idle hnone]
      split
      · exact ⟨rfl, rfl⟩
      · exact ⟨by rw [hj], rfl⟩

theorem replicaIdle_settleReplica : ReplicaIdle s (settleReplica s) := by
  simp only [settleReplica, hj]
  split
  · have harrivals : ReplicaIdle s ((members s).foldl (noteArrival j) s) :=
      List.foldlRecOn (motive := ReplicaIdle s) _ _ (.refl s) fun t ht r _ => ht.trans (replicaIdle_noteArrival j t r)
    have hbuffers : ReplicaIdle s ((stepOps s).foldl settleBuffer ((members s).foldl (noteArrival j) s)) :=
      List.foldlRecOn (motive := ReplicaIdle s) _ _ harrivals fun t ht d _ => by
        rw [settleBuffer_idle (ht.job.trans hj) hnone]
        exact ht
    exact hbuffers.trans (replicaIdle_settleCarry (hbuffers.job.trans hj) hnone)
  · exact .refl s

theorem replicaIdle_useFates (hruns : s.msu.runs = []) : ReplicaIdle s (useFates s) := by
  rw [useFates, hruns]
  exact replicaIdle_settleReplica hj hnone

end

/-- A record of the sets lies in host memory. -/
theorem recordSets_eq (j : Job) (i : U32) (s : State) : recordSets j i s = { s with hostMem := (recordSets j i s).hostMem } := by
  unfold recordSets
  split
  · rw [hostWrite_eq, hostWrite_eq]
  · rfl

/-- What publishing A_s and I_s changes. -/
theorem publishSets_shows {s : State} {j : Job} (hj : s.job = some j) (i : U32) :
    let t := publishSets i s
    t = { s with status := t.status, hostMem := t.hostMem } ∧ t.status.inclStep = s.status.step ∧
    t.status.active = activeSet s ∧ t.status.included = i := by
  intro t
  have ht : t = recordSets j i (withStatus (fun r => { r with inclStep := r.step, active := activeSet s, included := i }) s) := by
    simp only [t, publishSets, hj]
  have hstatus : t.status = { s.status with
      inclStep := s.status.step, active := activeSet s, included := i, updateSeq := s.status.updateSeq + 2,
      time := s.time.value } := by
    rw [ht, recordSets_eq]
    exact withStatus_status _ _
  refine ⟨?_, by rw [hstatus], by rw [hstatus], by rw [hstatus]⟩
  rw [ht, recordSets_eq, withStatus_eq]

theorem takeManifest_includes {s : State} {j : Job} (hj : s.job = some j) (hruns : s.msu.runs = [])
    (hnone : j.image.replica = []) (i : U32) :
    let t := useFates (publishSets i { s with coll := { s.coll with included := some i } })
    t.coll.included = some i ∧ t.status.inclStep = s.status.step ∧ t.status.included = i ∧ t.job = s.job ∧
    t.hbm = s.hbm := by
  obtain ⟨hframe, hstep, -, hset⟩ :=
    publishSets_shows (s := { s with coll := { s.coll with included := some i } }) hj i
  generalize publishSets i { s with coll := { s.coll with included := some i } } = u at hframe hstep hset
  have huj : u.job = some j := by rw [hframe]; exact hj
  have h := replicaIdle_useFates huj hnone (by rw [hframe]; exact hruns)
  refine ⟨?_, ?_, ?_, h.job.trans (huj.trans hj.symm), ?_⟩
  · rw [h.included, hframe]
  · rw [h.frame]
    exact hstep
  · rw [h.frame]
    exact hset
  · rw [h.frame, hframe]

/-! ## Admission headers (R370) -/

theorem exec_admissionHeaderUpdate {s : State} {j : Job} (hj : s.job = some j) {table : Nat} {r : Range}
    (hr : j.image.admissionTables[table]? = some r) (count : U32) (off : U64) :
    exec (.admissionHeaderUpdate table count off) s =
      .next (devPut (r.base + 16) 8 off.toNat (devPut r.base 4 count.toNat s)) := by
  change execAdmissionHeaderUpdate table count off s = _
  simp only [execAdmissionHeaderUpdate, hj, hr]

/-- The two fields of a header, and every byte beside them. -/
theorem admissionHeader_written (base : Nat) (count : U32) (off : U64) (s : State) :
    let t := devPut (base + 16) 8 off.toNat (devPut base 4 count.toNat s)
    t = { s with hbm := { s.hbm with dev := t.hbm.dev, poison := t.hbm.poison } } ∧
    devNat t base 4 = count.toNat ∧ devNat t (base + 16) 8 = off.toNat ∧
    ∀ b, (b < base ∨ base + 4 ≤ b) → (b < base + 16 ∨ base + 24 ≤ b) →
      Mem.get 0 t.hbm.dev b = Mem.get 0 s.hbm.dev b := by
  refine ⟨rfl, ?_, ?_, fun b hcount hoff => ?_⟩
  · have hkeep : devRead (devPut (base + 16) 8 off.toNat (devPut base 4 count.toNat s)) base 4 =
        devRead (devPut base 4 count.toNat s) base 4 := devRead_devWrite_other _ _ _ _ _ (.inl (by omega))
    have hlt := count.isLt
    rw [devNat, hkeep, ← devNat, devNat_devPut_same]
    omega
  · have hlt := off.isLt
    rw [devNat_devPut_same]
    omega
  · refine (Mem.get_write_other _ _ _ _ _ ?_).trans (Mem.get_write_other _ _ _ _ _ ?_)
    · rw [leBytes_length]
      omega
    · rw [leBytes_length]
      omega

/-- Settles O18: ring producers in a job and in its barrier, the manifest's count, and admission headers. -/
theorem watchedLinesAreTaken : Obligations.WatchedLinesAreTaken := by
  unfold Obligations.WatchedLinesAreTaken
  intro s j hj
  refine ⟨fun ch producer hbarrier hhalted hon => ?ring, fun ch producer hbarrier hon hgood => ?barrier,
    fun count entries hreplay hphase hincl => ?manifest, fun table r count off hr => ?header⟩
  case ring =>
    have hexec := exec_sampleRingProducerUpdate hj ch producer hbarrier hhalted hon
    simp only [← producerBad_iff]
    refine ⟨fun hgood => ?_, fun hbad => ?_⟩
    · rw [hexec, if_neg (by simp [hgood])]
    · rw [if_pos (by simpa using hbad)] at hexec
      exact ⟨_, hexec, stopJob_ends _ _ _ s j hj (by decide), by simp, stopJob_notifies hj (by decide) _ _⟩
  case barrier =>
    exact ⟨_, exec_sampleRingProducerUpdate_waits hj ch producer hbarrier hon hgood, notePending_counts j ch producer s⟩
  case manifest =>
    have hexec := exec_manifestHostCountUpdate hj hreplay count entries
    have hj' : (manifestNoted count entries s).job = some j := hj
    refine ⟨fun hk => ?_, fun entry rest hempty hcount hentries => ?_, fun entry hk hfind hstep => ⟨_, hexec, ?_⟩,
      fun entry hk hfind hgood hruns hnone => ⟨_, hexec, ?_⟩⟩
    · rw [hexec, takeManifest_uncovered hj' hk]
      rfl
    · rw [hempty, hcount, hentries]
      exact find_putEntries _ entry rest
    · have hbad : manifestBad (manifestNoted count entries s) entry = true := by
        have hne : (field entry 63 0 != (manifestNoted count entries s).status.step.toNat) = true := bne_iff_ne.mpr hstep
        simp [manifestBad, hne]
      rw [takeManifest_bad hj' hreplay hphase hincl hk hfind hbad]
      exact (stopJob_ends Code.colManifestSet noOp 0 _ j hj' (by decide)).of_same rfl rfl rfl
    · rw [takeManifest_good hj' hreplay hphase hincl hk hfind hgood]
      exact takeManifest_includes hj' hruns hnone _
  case header => exact ⟨_, exec_admissionHeaderUpdate hj hr count off, admissionHeader_written r.base count off s⟩

end Sys2Proof.Machine
end

section
/-! Port frames and credits (O31). -/

namespace Sys2Proof.Machine

/-! ## Ports with nothing to send -/

theorem nthD_nil_of_all_empty {α : Type} {ls : List (List α)} (h : ∀ l ∈ ls, l = []) (k : Nat) : nthD [] ls k = [] := by
  induction ls generalizing k with
  | nil => rfl
  | cons l ls ih =>
    cases k with
    | zero => exact h l (by simp)
    | succ k => exact ih (fun x hx => h x (by simp [hx])) k

/-- Without a packet that waits there is no queue to send from. -/
theorem nextQueue_of_all_empty {q : Port} (h : ∀ l ∈ q.queues, l = []) : nextQueue q = none := by
  have hready (c : Nat) : readyQueue q c = none := by
    simp [readyQueue, nthD_nil_of_all_empty h]
  simp only [nextQueue, hready]

theorem sendAll_of_all_empty {port : PortId} {s : State} (h : ∀ l ∈ (getPort s port.val).queues, l = []) :
    sendAll port s = s := pump_of_none (nextQueue_of_all_empty h) 41

/-! ## A port alone changes -/

/-- What has changed is one port, and what has been sent. -/
def OnlyPort (p : Nat) (s t : State) : Prop :=
  t = { s with fabric := { s.fabric with ports := t.fabric.ports }, sent := t.sent } ∧
    ∀ k, k ≠ p → getPort t k = getPort s k

theorem onlyPort_setPort (p : Nat) (f : Port → Port) (s : State) : OnlyPort p s (setPort p f s) :=
  ⟨rfl, fun _ hk => getPort_setPort_other p _ f s hk⟩

theorem OnlyPort.emit {p : Nat} {s t : State} (h : OnlyPort p s t) (o : Out) : OnlyPort p s (emit o t) := by
  refine ⟨?_, fun k hk => h.2 k hk⟩
  rw [Machine.emit, h.1]

/-! ## A port frame is accepted (R268, R271) -/

/-- Link words of the idle type and of the types that are ignored do nothing. -/
theorem takeWord_ignored {type : Nat} (h : type = 0 ∨ 6 ≤ type) (port : PortId) (lane x : Nat) (s : State) :
    takeWord port lane type x s = s := by
  obtain rfl | hge := h
  · rfl
  · obtain ⟨k, rfl⟩ := Nat.exists_eq_add_of_le' hge
    rfl

theorem foldl_takeWord_ignored {ws : List (Nat × BitVec 5140)} (h : ∀ e ∈ ws, cwType e.2 = 0 ∨ 6 ≤ cwType e.2)
    (port : PortId) (s : State) : ws.foldl (fun u e => takeWord port e.1 (cwType e.2) (cwLink e.2) u) s = s := by
  induction ws with
  | nil => rfl
  | cons e ws ih =>
    rw [List.foldl_cons, takeWord_ignored (h e (by simp))]
    exact ih fun e' he' => h e' (by simp [he'])

/-- The port once it has taken a port frame. -/
def framed (ws : List (BitVec 5140)) (ack : Nat) (q : Port) : Port :=
  { q with
    rxNext := q.rxNext + 1
    rxDiscard := false
    rxData := cutBlocks ws
    window := ackWindow (BitVec.ofNat 16 ack) q.window }

/-- A port frame that carries no link word to act on, at a port where nothing waits. -/
theorem acceptFrame_eq {port : PortId} {s : State} {ws : List (BitVec 5140)} (ack : Nat)
    (hlt : port.val < s.fabric.ports.length) (hidle : ∀ w ∈ ws, cwType w = 0 ∨ 6 ≤ cwType w)
    (hempty : ∀ l ∈ (getPort s port.val).queues, l = []) :
    acceptFrame port ws ack s = setPort port.val (framed ws ack) s := by
  unfold acceptFrame
  extract_lets t
  have hwords : ((upFrom 0 ws.length).zip ws).foldl (fun u e => takeWord port e.1 (cwType e.2) (cwLink e.2) u) t = t :=
    foldl_takeWord_ignored (fun e he => hidle e.2 (List.of_mem_zip he).2) port t
  rw [hwords, sendAll_of_all_empty]
  · rfl
  · have hport : getPort t port.val = framed ws ack (getPort s port.val) := getPort_setPort_same _ _ _ hlt
    rw [hport]
    exact hempty

/-! ## A port frame is rejected (R271, R272) -/

/-- Everything that has been sent stays sent. -/
def SentGrows (s t : State) : Prop := ∃ more, t.sent = s.sent ++ more

theorem SentGrows.refl (s : State) : SentGrows s s := ⟨[], by simp⟩

theorem SentGrows.of_eq {s t : State} (h : t.sent = s.sent) : SentGrows s t := ⟨[], by simp [h]⟩

theorem SentGrows.trans {s t u : State} (h : SentGrows s t) (h' : SentGrows t u) : SentGrows s u := by
  obtain ⟨a, ha⟩ := h
  obtain ⟨b, hb⟩ := h'
  exact ⟨a ++ b, by rw [hb, ha, List.append_assoc]⟩

theorem SentGrows.emit {s t : State} (h : SentGrows s t) (o : Out) : SentGrows s (emit o t) := h.trans ⟨[o], rfl⟩

theorem sentGrows_abortIfRunning (s : State) : SentGrows s (abortIfRunning s) := by
  obtain h | h := abortIfRunning_eq_or s
  · rw [h, abortStep]
    split
    · exact .refl s
    · exact ⟨[_], rfl⟩
  · rw [h]
    exact .refl s

theorem sentGrows_dropPort (p : PortId) (code : U16) (s : State) : SentGrows s (dropPort p code s) := by
  refine SentGrows.emit (.of_eq ?_) _
  rw [addDown_eq]
  simp [setPort, withCounts]

theorem sentGrows_losePort (p : PortId) (code : U16) (more : Bool) (s : State) : SentGrows s (losePort p code more s) := by
  rw [losePort_eq]
  split
  · exact (sentGrows_dropPort p code s).trans (sentGrows_abortIfRunning _)
  · exact sentGrows_dropPort p code s

theorem sentGrows_retireFibre (p : PortId) (fibre wave : Nat) (s : State) : SentGrows s (retireFibre p fibre wave s) := by
  unfold retireFibre
  extract_lets s1 s2
  have h2 : SentGrows s s2 := SentGrows.emit (.of_eq (by simp [s1, setPort, withCounts])) _
  split
  · exact h2.trans (sentGrows_losePort _ _ _ _)
  · exact h2

theorem sentGrows_askSwap (p : PortId) (fibre place : Nat) (cal : Bool) (s : State) :
    SentGrows s (askSwap p fibre place cal s) := ⟨[_], rfl⟩

theorem sentGrows_failLane (p : PortId) (lane : Nat) (s : State) : SentGrows s (failLane p lane s) := by
  unfold failLane
  dsimp only
  split
  · exact .refl s
  · split
    · exact sentGrows_askSwap _ _ _ _ _
    · split
      · exact sentGrows_askSwap _ _ _ _ _
      · split
        · exact .refl s
        · exact sentGrows_retireFibre _ _ _ _
    · exact sentGrows_retireFibre _ _ _ _

/-- The lanes of rejected port frames of the last second. -/
def rejectsOf (s : State) (q : Port) (bad : List Nat) : List (Nat × U64) :=
  (q.rejects.filter fun e => decide (s.time.value.toNat < e.2.toNat + 1000000000)) ++ bad.map fun l => (l, s.time.value)

/-- The NACK goes out, and the lanes are noted. -/
def nacked (port : PortId) (bad : List Nat) (s : State) : State :=
  emit (.linkWord port (.nack (getPort s port.val).rxNext))
    (setPort port.val (fun q => { q with rxDiscard := true, rejects := rejectsOf s (getPort s port.val) bad }) s)

/-- A lane that has caused ten rejected port frames fails, and its count starts again. -/
def failNoted (port : PortId) (u : State) (l : Nat) : State :=
  failLane port l (setPort port.val (fun q => { q with rejects := q.rejects.filter fun e => e.1 != l }) u)

theorem rejectFrame_eq (port : PortId) (bad : List Nat) (s : State) :
    rejectFrame port bad s =
      (bad.filter (tenRejects (rejectsOf s (getPort s port.val) bad))).foldl (failNoted port) (nacked port bad s) := rfl

theorem rejectFrame_rejects {port : PortId} {s : State} (hlt : port.val < s.fabric.ports.length) (bad : List Nat) :
    let q := getPort s port.val
    let t := rejectFrame port bad s
    (∃ more, t.sent = s.sent ++ .linkWord port (.nack q.rxNext) :: more) ∧
    ((∀ l ∈ bad, tenRejects (rejectsOf s q bad) l = false) → OnlyPort port.val s t ∧
      getPort t port.val = { q with rxDiscard := true, rejects := rejectsOf s q bad } ∧
      t.sent = s.sent ++ [.linkWord port (.nack q.rxNext)]) := by
  rw [rejectFrame_eq]
  refine ⟨?_, fun hfew => ?_⟩
  · have hgrow : SentGrows (nacked port bad s)
        ((bad.filter (tenRejects (rejectsOf s (getPort s port.val) bad))).foldl (failNoted port) (nacked port bad s)) :=
      List.foldlRecOn (motive := SentGrows _) _ _ (.refl _) fun u hu l _ => hu.trans (sentGrows_failLane port l _)
    obtain ⟨more, hmore⟩ := hgrow
    exact ⟨more, hmore.trans (List.append_assoc s.sent [_] more)⟩
  · have hnone : bad.filter (tenRejects (rejectsOf s (getPort s port.val) bad)) = [] :=
      List.filter_eq_nil_iff.mpr fun l hl => by simp [hfew l hl]
    rw [hnone]
    exact ⟨(onlyPort_setPort port.val _ s).emit _, getPort_setPort_same _ _ _ hlt, rfl⟩

/-! ## PORT_FRAME_RECEIVE -/

/-- The lanes that caused a port frame's rejection. -/
def badLanes (q : Port) (words : List Codeword) : List Nat := ((frameLanes q words).filter fun e => !laneGood e).map Prod.fst

section
variable {s : State} {port : PortId} {words : List Codeword} (hup : (getPort s port.val).phase = .up)
include hup

theorem exec_portFrameReceive_none (hwords : words ≠ [])
    (hnone : (frameLanes (getPort s port.val) words).filterMap Prod.snd = []) :
    exec (.portFrameReceive port words) s = .next (rejectFrame port (badLanes (getPort s port.val) words) s) := by
  change execPortFrameReceive port words s = _
  simp only [execPortFrameReceive, hup, hwords, hnone, reduceCtorEq, or_self, if_false]
  rfl

variable {first : BitVec 5140} {rest : List (BitVec 5140)}
  (hws : (frameLanes (getPort s port.val) words).filterMap Prod.snd = first :: rest)
include hws

omit hup in
theorem words_ne_nil : words ≠ [] := by
  rintro rfl
  have hnone : ∀ e ∈ frameLanes (getPort s port.val) [], e.2 = none := fun e he => by
    obtain ⟨at', -, h⟩ := List.mem_map.mp (List.of_mem_zip he).2
    exact h.symm
  have hempty : (frameLanes (getPort s port.val) []).filterMap Prod.snd = [] :=
    List.filterMap_eq_nil_iff.mpr hnone
  rw [hempty] at hws
  cases hws

theorem exec_portFrameReceive_some :
    exec (.portFrameReceive port words) s = .next
      (if (frameLanes (getPort s port.val) words).all laneGood = true ∧ ∀ w ∈ rest, cwFseq w = cwFseq first then
        if cwFseq first = (getPort s port.val).rxNext.toNat then acceptFrame port (first :: rest) (cwAck first) s else s
      else rejectFrame port (badLanes (getPort s port.val) words) s) := by
  have hwords := words_ne_nil hws
  have hsame : ((first :: rest).all fun x => cwFseq x == cwFseq first) = true ↔ ∀ w ∈ rest, cwFseq w = cwFseq first := by
    simp
  change execPortFrameReceive port words s = _
  simp only [execPortFrameReceive, hup, hwords, hws, hsame, reduceCtorEq, or_self, if_false]
  split
  · split <;> rfl
  · rfl

end

/-! ## NACK and CREDIT (R271, R276) -/

theorem execNack_resends {s : State} {port : PortId} {fseq : U16} {before after : List Frame} {f : Frame}
    (hwin : (getPort s port.val).window = before ++ f :: after) (hf : f.fseq = fseq) (hb : ∀ e ∈ before, e.fseq ≠ fseq) :
    exec (.nack port fseq) s = .next { s with sent := s.sent ++ [.frames port (f :: after)] } := by
  have hdrop : (before ++ f :: after).dropWhile (fun e => e.fseq != fseq) = f :: after := by
    rw [List.dropWhile_append_of_pos fun e he => by simpa using hb e he, List.dropWhile_cons_of_neg (by simp [hf])]
  change Host.Outcome.next (resendFrom port fseq s) = _
  simp only [resendFrom, hwin, hdrop, List.isEmpty_cons, Bool.false_eq_true, if_false]
  rfl

theorem execNack_unknown {s : State} {port : PortId} {fseq : U16} (h : ∀ f ∈ (getPort s port.val).window, f.fseq ≠ fseq) :
    exec (.nack port fseq) s = .next s := by
  have hdrop : (getPort s port.val).window.dropWhile (fun e => e.fseq != fseq) = [] :=
    List.dropWhile_eq_nil_iff.mpr fun e he => by simpa using h e he
  change Host.Outcome.next (resendFrom port fseq s) = _
  simp [resendFrom, hdrop]

/-- Only the fabric and what has been sent have changed. -/
def FabricOnly (s t : State) : Prop := t = { s with fabric := t.fabric, sent := t.sent }

theorem FabricOnly.trans {s t u : State} (h : FabricOnly s t) (h' : FabricOnly t u) : FabricOnly s u := by
  unfold FabricOnly at *
  rw [h', h]

theorem fabricOnly_setPort (p : Nat) (f : Port → Port) (s : State) : FabricOnly s (setPort p f s) := rfl

theorem fabricOnly_emit (o : Out) (s : State) : FabricOnly s (emit o s) := rfl

theorem fabricOnly_returnCredits (bs : List (Block × Option (PortId × Bool))) (s : State) :
    FabricOnly s (returnCredits bs s) :=
  List.foldlRecOn (motive := FabricOnly s) bs _ rfl fun t ht b _ => by
    split
    · exact ht
    · exact ht.trans (fabricOnly_emit _ t)

theorem fabricOnly_sendFrame (port : PortId) (s : State) : FabricOnly s (sendFrame port s) := by
  unfold sendFrame
  dsimp only
  split
  · split
    · rfl
    · exact ((fabricOnly_setPort _ _ s).trans (fabricOnly_emit _ _)).trans (fabricOnly_returnCredits _ _)
  · rfl

theorem fabricOnly_pump (port : PortId) (n : Nat) (s : State) : FabricOnly s (pump port n s) := by
  induction n generalizing s with
  | zero => rfl
  | succ n ih => exact (fabricOnly_sendFrame port s).trans (ih _)

theorem fabricOnly_endCredits (port : PortId) (s : State) : FabricOnly s (endCredits port s) := by
  unfold endCredits
  split <;> rfl

theorem fabricOnly_takeGrants (port : PortId) (gs : List Grant) (s : State) : FabricOnly s (takeGrants port gs s) := by
  unfold takeGrants
  split
  · exact (fabricOnly_setPort _ _ s).trans (fabricOnly_pump port 41 _)
  · exact (fabricOnly_setPort _ _ s).trans (fabricOnly_endCredits port _)
  · exact (fabricOnly_setPort _ _ s).trans (fabricOnly_endCredits port _)
  all_goals rfl

/-- Returned blocks go to their virtual channel first, and to the shared ones behind its 64. -/
theorem giveCredit_gives (vc1 : Bool) (n : Nat) {c : Nat × Nat × Nat} (h0 : c.1 ≤ 64) (h1 : c.2.1 ≤ 64) :
    let c' := giveCredit vc1 n c
    c'.1 + c'.2.1 + c'.2.2 = c.1 + c.2.1 + c.2.2 + n ∧ c'.1 ≤ 64 ∧ c'.2.1 ≤ 64 ∧
      (if vc1 then c'.1 = c.1 else c'.2.1 = c.2.1) := by
  obtain ⟨own0, own1, shared⟩ := c
  dsimp only at h0 h1 ⊢
  cases vc1 <;> simp only [giveCredit, Bool.false_eq_true, if_false, if_true, and_true] <;> omega

theorem updNth_getElem {α : Type} (f : α → α) {xs : List α} {i : Nat} {x : α} (h : xs[i]? = some x) :
    (updNth f xs i)[i]? = some (f x) := by
  induction xs generalizing i with
  | nil => cases h
  | cons y ys ih =>
    cases i with
    | zero => exact congrArg (Option.map f) h
    | succ i => exact ih h

/-- A grant to a port where nothing waits is kept. -/
theorem takeGrants_keeps {s : State} {port : PortId} {g : Grant} (hlt : port.val < s.fabric.ports.length)
    (hup : (getPort s port.val).phase = .up) (hempty : ∀ l ∈ (getPort s port.val).queues, l = []) :
    takeGrants port [g] s = setPort port.val (fun q => { q with
      credits := updNth (giveCredit g.vc1 g.blocks) q.credits (classIndex g.cls) }) s := by
  unfold takeGrants
  rw [hup]
  refine sendAll_of_all_empty ?_
  rw [getPort_setPort_same _ _ _ hlt]
  exact hempty

/-- Settles O31: a port frame is accepted, discarded or rejected; NACK and CREDIT act on one port. -/
theorem portFramesArriveInOrder : Obligations.PortFramesArriveInOrder := by
  unfold Obligations.PortFramesArriveInOrder
  intro s port words fseq g hlt q only lanes bad noted rejected
  have hrej (h : exec (.portFrameReceive port words) s = .next (rejectFrame port bad s)) : rejected :=
    ⟨_, h, rejectFrame_rejects hlt bad⟩
  refine ⟨fun hup hwords hnone => hrej (exec_portFrameReceive_none hup hwords hnone), fun hup first rest hws => ?receive,
    fun before f after hwin hf hb => execNack_resends hwin hf hb, execNack_unknown,
    fun gs => ⟨_, rfl, fabricOnly_takeGrants port gs s⟩, fun hup hempty i c hi hc h0 h1 => ?credit⟩
  case receive =>
    intro sound
    have hexec := exec_portFrameReceive_some hup hws
    refine ⟨fun hsound hnext hidle hempty => ?_, fun hsound hother => ?_, fun hbad => hrej ?_⟩
    · rw [if_pos hsound, if_pos hnext, acceptFrame_eq _ hlt hidle hempty] at hexec
      exact ⟨_, hexec, onlyPort_setPort port.val _ s, getPort_setPort_same _ _ _ hlt, rfl⟩
    · rw [hexec, if_pos hsound, if_neg hother]
    · rw [hexec, if_neg hbad]
      rfl
  case credit =>
    have hexec : exec (.credit port [g]) s = .next (takeGrants port [g] s) := rfl
    rw [takeGrants_keeps hlt hup hempty] at hexec
    have hport := getPort_setPort_same port.val (fun q => { q with
      credits := updNth (giveCredit g.vc1 g.blocks) q.credits (classIndex g.cls) }) s hlt
    refine ⟨_, hexec, onlyPort_setPort port.val _ s, rfl, giveCredit g.vc1 g.blocks c, ?_,
      giveCredit_gives g.vc1 g.blocks h0 h1⟩
    rw [hport, hi]
    exact updNth_getElem _ (hi ▸ hc)

end Sys2Proof.Machine
end

section
/-! A lane that fails moves to its fibre's spare; a fibre whose spare is used is retired (O34). -/

namespace Sys2Proof.Machine

/-! ## Lists -/

theorem find?_of_first {α : Type} {p q : α → Bool} {xs : List α} {x : α} (h : xs.find? p = some x) (hx : q x = true) :
    xs.find? (fun y => p y && q y) = some x := by
  induction xs with
  | nil => cases h
  | cons y ys ih =>
    rw [List.find?_cons] at h ⊢
    split at h
    next hy =>
      obtain rfl := Option.some.inj h
      simp [hy, hx]
    next hy => simpa [hy] using ih h

theorem updNth_getElem_other {α : Type} (f : α → α) (xs : List α) {i k : Nat} (h : k ≠ i) :
    (updNth f xs i)[k]? = xs[k]? := by
  induction xs generalizing i k with
  | nil => rfl
  | cons x xs ih =>
    cases i with
    | zero =>
      cases k with
      | zero => exact absurd rfl h
      | succ k => rfl
    | succ i =>
      cases k with
      | zero => rfl
      | succ k => exact ih (by omega)

theorem chunksFuel_flatten {α : Type} {n : Nat} (hn : 0 < n) {fuel : Nat} {xs : List α} (h : xs.length ≤ fuel) :
    (chunksFuel n fuel xs).flatten = xs := by
  induction fuel generalizing xs with
  | zero =>
    rw [List.length_eq_zero_iff.mp (Nat.le_zero.mp h)]
    rfl
  | succ fuel ih =>
    cases xs with
    | nil => rfl
    | cons x xs =>
      have hlen : ((x :: xs).drop n).length ≤ fuel := by
        rw [List.length_drop, List.length_cons]
        rw [List.length_cons] at h
        omega
      change (x :: xs).take n ++ (chunksFuel n fuel ((x :: xs).drop n)).flatten = x :: xs
      rw [ih hlen, List.take_append_drop]

theorem upFrom_length (lo n : Nat) : (upFrom lo n).length = n := by
  rw [upFrom_eq_range', List.length_range']

/-- Blocks cut into port frames are the same blocks in the same order. -/
theorem cutFrames_blocks (n : Nat) (at' : U16) (bs : List Block) :
    ((cutFrames n at' bs).map Frame.blocks).flatten = bs := by
  have hparts : (cutFrames n at' bs).map Frame.blocks = chunks (max 1 n) bs := by
    unfold cutFrames
    dsimp only
    rw [List.map_map]
    exact List.map_snd_zip (Nat.le_of_eq (upFrom_length _ _).symm)
  rw [hparts]
  exact chunksFuel_flatten (by omega) (Nat.le_refl _)

/-! ## The ports after an event, a count and a port that goes down -/

@[simp] theorem getPort_postEvent (code : U16) (op : U32) (detail : U16) (loc : U64) (s : State) (k : Nat) :
    getPort (postEvent code op detail loc s) k = getPort s k := by rw [postEvent_eq]; rfl

@[simp] theorem getPort_withCounts (f : Counts → Counts) (s : State) (k : Nat) :
    getPort (withCounts f s) k = getPort s k := rfl

@[simp] theorem getPort_sendWord (p : PortId) (w : LinkWord) (s : State) (k : Nat) :
    getPort (sendWord p w s) k = getPort s k := rfl

/-- A port that goes down keeps its fibres and holds nothing any more. -/
theorem losePort_getPort {p : PortId} (code : U16) (more : Bool) {s : State} (hlt : p.val < s.fabric.ports.length) :
    getPort (losePort p code more s) p.val = { (getPort s p.val).flush with phase := .down, attempts := 0 } := by
  rw [← dropPort_getPort_same p code s hlt, getPort, (losePort_keeps p code more s).1, getPort]

theorem tooFew_dropped (q : Port) : tooFew { q.flush with phase := .down, attempts := 0 } = tooFew q := rfl

section
variable {s : State} {port : PortId} (hlt : port.val < s.fabric.ports.length)
include hlt

/-! ## The receiver asks for a swap, or retires the fibre (R272 to R274) -/

/-- The receiver's port with a swap of one lane asked for. -/
theorem askSwap_asks (fibre place : Nat) (cal : Bool) :
    let q := getPort s port.val
    let t := askSwap port fibre place cal s
    swapOn (getPort t port.val) fibre = some ⟨fibre, place, cal, none⟩ ∧ (getPort t port.val).fibres = q.fibres ∧
    (getPort t port.val).calibrating =
      (if cal then some fibre else if q.calibrating = some fibre then none else q.calibrating) := by
  intro q t
  have hport : getPort t port.val = { q with
      swaps := q.swaps.filter (fun r => r.fibre ≠ fibre) ++ [⟨fibre, place, cal, none⟩]
      calibrating := if cal then some fibre else if q.calibrating = some fibre then none else q.calibrating } :=
    getPort_setPort_same _ _ _ hlt
  refine ⟨?_, by rw [hport], by rw [hport]⟩
  have hnone : (q.swaps.filter (fun r => r.fibre ≠ fibre)).find? (fun r => r.fibre == fibre) = none :=
    List.find?_eq_none.mpr fun r hr => by simpa using (List.mem_filter.mp hr).2
  rw [hport, swapOn, List.find?_append, hnone]
  simp

/-- A retired fibre leaves the port, the others stay, and it is reported and counted. -/
theorem retireFibre_retires {fibre : Nat} (wave : Nat) (hf : fibre < (getPort s port.val).fibres.length) :
    let q := getPort s port.val
    let t := retireFibre port fibre wave s
    (nthD Fibre.fresh (getPort t port.val).fibres fibre).retired = true ∧
    (∀ i, i ≠ fibre → nthD Fibre.fresh (getPort t port.val).fibres i = nthD Fibre.fresh q.fibres i) ∧
    t.status.counts.fibresRetired = satInc s.status.counts.fibresRetired 1 ∧
    Out.linkWord port (.retire fibre q.rxNext) ∈ t.sent ∧
    (tooFew (getPort t port.val) = true → (getPort t port.val).phase = .down) := by
  intro q t
  let drop (f : Fibre) : Fibre := { f with retired := true, lanes := [], spare := none }
  let g (q : Port) : Port := { q with
    fibres := updNth drop q.fibres fibre
    swaps := q.swaps.filter (fun r => r.fibre ≠ fibre)
    calibrating := if q.calibrating = some fibre then none else q.calibrating }
  let s2 := sendWord port (.retire fibre q.rxNext)
    (postEvent Code.evFibreRetired noOp (fabricDetail port.val fibre wave) 0
      (withCounts (fun c => { c with fibresRetired := satInc c.fibresRetired 1 }) (setPort port.val g s)))
  have ht : t = if tooFew (getPort s2 port.val) then losePort port Code.evPortDown false s2 else s2 := rfl
  have hp2 : getPort s2 port.val = g q := by
    rw [getPort_sendWord, getPort_postEvent, getPort_withCounts, getPort_setPort_same _ _ _ hlt]
  have hlt2 : port.val < s2.fabric.ports.length := by
    simpa [s2, sendWord, emit, withCounts, setPort, updNth_length] using hlt
  have hcount : s2.status.counts.fibresRetired = satInc s.status.counts.fibresRetired 1 := by
    simp [s2, sendWord, emit, withCounts, setPort]
  have hsent : Out.linkWord port (.retire fibre q.rxNext) ∈ s2.sent := by simp [s2, sendWord, emit]
  have hfibres (u : State) (hu : (getPort u port.val).fibres = (g q).fibres) :
      (nthD Fibre.fresh (getPort u port.val).fibres fibre).retired = true ∧
      ∀ i, i ≠ fibre → nthD Fibre.fresh (getPort u port.val).fibres i = nthD Fibre.fresh q.fibres i := by
    rw [hu]
    exact ⟨congrArg Fibre.retired (nthD_updNth_same _ _ _ _ hf), fun i hi => nthD_updNth_other _ _ _ _ _ hi⟩
  rw [ht]
  split
  case isTrue _ =>
    have hp := losePort_getPort Code.evPortDown false hlt2
    obtain ⟨_, _, hstatus, hout⟩ := losePort_keeps port Code.evPortDown false s2
    obtain ⟨hret, hkeep⟩ := hfibres (losePort port Code.evPortDown false s2) (by rw [hp, hp2]; rfl)
    refine ⟨hret, hkeep, ?_, ?_, fun _ => by rw [hp]⟩
    · rw [hstatus, (dropPort_status port Code.evPortDown s2).1]
      exact hcount
    · obtain ⟨more, hmore⟩ := sentGrows_dropPort port Code.evPortDown s2
      exact hout _ (hmore ▸ List.mem_append_left _ hsent)
  case isFalse h =>
    obtain ⟨hret, hkeep⟩ := hfibres s2 (by rw [hp2])
    exact ⟨hret, hkeep, hcount, hsent, fun h' => absurd h' h⟩

/-! ## The transmitter mirrors the lane, or drops the fibre -/

theorem mirrorLane_mirrors {fibre place : Nat} (cal : Bool)
    (hspare : (nthD Fibre.fresh (getPort s port.val).txFibres fibre).spare ≠ none)
    (hused : (nthD Fibre.fresh (getPort s port.val).txFibres fibre).retired = false)
    (hplace : place < (nthD Fibre.fresh (getPort s port.val).txFibres fibre).lanes.length)
    (hother : mirrorsOther (getPort s port.val) fibre place = false) :
    let q := getPort s port.val
    let t := mirrorLane port fibre place cal s
    t = { s with fabric := { s.fabric with ports := t.fabric.ports },
                 sent := s.sent ++ [.linkWord port (.swapAt fibre place (q.txNext + 64))] } ∧
    ⟨fibre, place, q.txNext + 64, cal⟩ ∈ (getPort t port.val).mirrors := by
  intro q t
  have hnot : ¬ ((nthD Fibre.fresh q.txFibres fibre).spare = none ∨ (nthD Fibre.fresh q.txFibres fibre).retired = true ∨
      (nthD Fibre.fresh q.txFibres fibre).lanes.length ≤ place ∨ mirrorsOther q fibre place = true) := by
    rintro (h | h | h | h)
    · exact hspare h
    · exact absurd (hused.symm.trans h) nofun
    · exact absurd h (Nat.not_le.mpr hplace)
    · exact absurd (hother.symm.trans h) nofun
  have ht : t = _ := if_neg hnot
  rw [ht]
  refine ⟨rfl, ?_⟩
  rw [getPort_sendWord, getPort_setPort_same _ _ _ hlt]
  simp [q]

/-- The transmit fibre's lanes are dropped; the blocks of the window stay, in their order. -/
theorem retireTransmit_drops {fibre : Nat} (at' : U16) (hf : fibre < (getPort s port.val).txFibres.length) :
    let q := getPort s port.val
    let t := retireTransmit port fibre at' s
    let fs := (getPort t port.val).txFibres
    (nthD Fibre.fresh fs fibre).retired = true ∧ (nthD Fibre.fresh fs fibre).lanes = [] ∧
    (∀ i, i ≠ fibre → nthD Fibre.fresh fs i = nthD Fibre.fresh q.txFibres i) ∧
    (tooFew (getPort t port.val) = false →
      ((getPort t port.val).window.map Frame.blocks).flatten = (q.window.map Frame.blocks).flatten) := by
  intro q t
  let fs := updNth (fun f => { f with retired := true, lanes := [], spare := none }) q.txFibres fibre
  let keep := q.window.takeWhile fun f => f.fseq != at'
  let again := cutFrames (frameBlocks (8 * inUse fs)) at' ((q.window.dropWhile fun f => f.fseq != at').map Frame.blocks).flatten
  let g (q : Port) : Port := { q with
    txFibres := fs
    mirrors := q.mirrors.filter (fun r => r.fibre ≠ fibre)
    window := if again.isEmpty then q.window else keep ++ again
    txNext := if again.isEmpty then q.txNext else at' + BitVec.ofNat 16 again.length }
  let s1 := setPort port.val g s
  let s2 := if again.isEmpty then s1 else emit (.frames port again) s1
  have ht : t = if tooFew (getPort s2 port.val) then losePort port Code.evPortDown false s2 else s2 := rfl
  have hf2 : s2.fabric = s1.fabric := by dsimp only [s2]; split <;> rfl
  have hp2 : getPort s2 port.val = g q := by
    rw [getPort, hf2]
    exact getPort_setPort_same _ _ _ hlt
  have hlt2 : port.val < s2.fabric.ports.length := by
    rw [hf2]
    exact (updNth_length _ _ _).symm ▸ hlt
  have hwindow : ((g q).window.map Frame.blocks).flatten = (q.window.map Frame.blocks).flatten := by
    change ((if again.isEmpty then q.window else keep ++ again).map Frame.blocks).flatten = _
    split
    · rfl
    · rw [List.map_append, List.flatten_append, cutFrames_blocks, ← List.flatten_append, ← List.map_append,
        List.takeWhile_append_dropWhile]
  have hfibres (u : State) (hu : (getPort u port.val).txFibres = fs) :
      (nthD Fibre.fresh (getPort u port.val).txFibres fibre).retired = true ∧
      (nthD Fibre.fresh (getPort u port.val).txFibres fibre).lanes = [] ∧
      ∀ i, i ≠ fibre → nthD Fibre.fresh (getPort u port.val).txFibres i = nthD Fibre.fresh q.txFibres i := by
    have hsame := nthD_updNth_same Fibre.fresh (fun f => { f with retired := true, lanes := [], spare := none }) _ _ hf
    rw [hu]
    exact ⟨congrArg Fibre.retired hsame, congrArg Fibre.lanes hsame, fun i hi => nthD_updNth_other _ _ _ _ _ hi⟩
  rw [ht]
  split
  case isTrue hfew =>
    have hp := losePort_getPort Code.evPortDown false hlt2
    obtain ⟨hret, hlanes, hkeep⟩ := hfibres (losePort port Code.evPortDown false s2) (by rw [hp, hp2]; rfl)
    have hstill : tooFew (getPort (losePort port Code.evPortDown false s2) port.val) = true := by
      rw [hp, tooFew_dropped]
      exact hfew
    exact ⟨hret, hlanes, hkeep, fun h => absurd (hstill.symm.trans h) nofun⟩
  case isFalse _ =>
    obtain ⟨hret, hlanes, hkeep⟩ := hfibres s2 (by rw [hp2])
    exact ⟨hret, hlanes, hkeep, fun _ => by rw [hp2]; exact hwindow⟩

theorem noteSwitch_notes {fibre place : Nat} (at' : U16) {r : SwapRun} (hr : swapOn (getPort s port.val) fibre = some r)
    (hplace : r.place = place) :
    swapOn (getPort (noteSwitch port fibre place at' s) port.val) fibre = some { r with switchAt := some at' } := by
  have hfibre : r.fibre = fibre := by simpa using List.find?_some hr
  rw [noteSwitch, getPort_setPort_same _ _ _ hlt, swapOn, List.find?_map]
  have hsame : ((fun r : SwapRun => r.fibre == fibre) ∘ fun r =>
      if r.fibre = fibre ∧ r.place = place then { r with switchAt := some at' } else r) = fun r => r.fibre == fibre := by
    funext x
    dsimp only [Function.comp]
    split <;> rfl
  rw [hsame]
  unfold swapOn at hr
  rw [hr]
  simp [hfibre, hplace]

end

/-! ## A lane moves at the switch fseq (R272, R435) -/

theorem Fibre.switch_moves {f : Fibre} {sp place : Nat} (hsp : f.spare = some sp) (hplace : place < f.lanes.length)
    (cal : Bool) :
    (f.switch place cal).lanes[place]? = some sp ∧ (∀ i, i ≠ place → (f.switch place cal).lanes[i]? = f.lanes[i]?) ∧
    (f.switch place cal).spare = if cal then f.lanes[place]? else none := by
  have hf : f.switch place cal = { f with
      lanes := updNth (fun _ => sp) f.lanes place
      spare := if cal then f.lanes[place]? else none } := by
    unfold Fibre.switch
    rw [hsp]
  rw [hf]
  exact ⟨updNth_getElem _ (List.getElem?_eq_getElem hplace), fun i hi => updNth_getElem_other _ _ hi, rfl⟩

/-- A swap that has reached its switch fseq. -/
def SwapRun.due (now : U16) (r : SwapRun) : Bool :=
  match r.switchAt with
  | some a => reached now a
  | none => false

theorem switchReceive_eq (port : PortId) (fibre : Nat) (s : State) :
    switchReceive port fibre s =
      match (getPort s port.val).swaps.find? fun r => r.fibre == fibre && r.due (getPort s port.val).rxNext with
      | none => s
      | some r =>
        let t := setPort port.val (fun q => { q with
          fibres := updNth (fun f => f.switch r.place r.calibration) q.fibres fibre
          swaps := q.swaps.filter (fun r => r.fibre ≠ fibre)
          calibrating := if r.calibration then none else q.calibrating }) s
        if r.calibration then t
        else
          postEvent Code.evSwap noOp (fabricDetail port.val fibre
              (nthD 0 (nthD Fibre.fresh (getPort s port.val).fibres fibre).lanes r.place)) 0
            (withCounts (fun c => { c with swaps := satInc c.swaps 1 }) t) := rfl

section
variable {s : State} {port : PortId}

theorem switchReceive_early {fibre : Nat}
    (h : ∀ r ∈ (getPort s port.val).swaps, r.fibre = fibre → ∀ a, r.switchAt = some a →
      reached (getPort s port.val).rxNext a = false) :
    switchReceive port fibre s = s := by
  have hnone : (getPort s port.val).swaps.find? (fun r => r.fibre == fibre && r.due (getPort s port.val).rxNext) = none := by
    refine List.find?_eq_none.mpr fun r hr => ?_
    have hlate : r.fibre = fibre → r.due (getPort s port.val).rxNext = false := fun hf => by
      unfold SwapRun.due
      cases ha : r.switchAt with
      | none => rfl
      | some a => exact h r hr hf a ha
    by_cases hf : r.fibre = fibre <;> simp [hf, hlate]
  rw [switchReceive_eq, hnone]

theorem switchTransmit_early {fibre : Nat}
    (h : ∀ m ∈ (getPort s port.val).mirrors, m.fibre = fibre → reached (getPort s port.val).txNext m.switchAt = false) :
    switchTransmit port fibre s = s := by
  have hnone : (getPort s port.val).mirrors.find?
      (fun r => r.fibre == fibre && reached (getPort s port.val).txNext r.switchAt) = none := by
    refine List.find?_eq_none.mpr fun m hm => ?_
    by_cases hf : m.fibre = fibre
    · simp [h m hm hf]
    · simp [hf]
  unfold switchTransmit
  dsimp only
  rw [hnone]

variable (hlt : port.val < s.fabric.ports.length)
include hlt

theorem switchReceive_moves {fibre : Nat} {sp : Nat} {r : SwapRun} {at' : U16}
    (hr : swapOn (getPort s port.val) fibre = some r)
    (hsp : (nthD Fibre.fresh (getPort s port.val).fibres fibre).spare = some sp)
    (hplace : r.place < (nthD Fibre.fresh (getPort s port.val).fibres fibre).lanes.length)
    (hf : fibre < (getPort s port.val).fibres.length) (hat : r.switchAt = some at')
    (hdue : reached (getPort s port.val).rxNext at' = true) :
    let f := nthD Fibre.fresh (getPort s port.val).fibres fibre
    let t := switchReceive port fibre s
    let g := nthD Fibre.fresh (getPort t port.val).fibres fibre
    g.lanes[r.place]? = some sp ∧ (∀ i, i ≠ r.place → g.lanes[i]? = f.lanes[i]?) ∧
    (getPort t port.val).txFibres = (getPort s port.val).txFibres ∧
    (r.calibration = false → g.spare = none ∧ t.status.counts.swaps = satInc s.status.counts.swaps 1 ∧
      t.status.eventCount = s.status.eventCount + 1) ∧
    (r.calibration = true → g.spare = f.lanes[r.place]? ∧ t.status = s.status ∧ t.sent = s.sent) := by
  intro f t
  have hdue' : r.due (getPort s port.val).rxNext = true := by
    unfold SwapRun.due
    rw [hat]
    exact hdue
  let moved (q : Port) : Port := { q with
    fibres := updNth (fun f => f.switch r.place r.calibration) q.fibres fibre
    swaps := q.swaps.filter (fun r => r.fibre ≠ fibre)
    calibrating := if r.calibration then none else q.calibrating }
  let t0 := setPort port.val moved s
  have ht : t = if r.calibration then t0 else
      postEvent Code.evSwap noOp (fabricDetail port.val fibre (nthD 0 f.lanes r.place)) 0
        (withCounts (fun c => { c with swaps := satInc c.swaps 1 }) t0) := by
    change switchReceive port fibre s = _
    rw [switchReceive_eq, find?_of_first hr hdue']
  have hport : getPort t port.val = moved (getPort s port.val) := by
    rw [ht]
    split
    · exact getPort_setPort_same _ _ _ hlt
    · rw [getPort_postEvent, getPort_withCounts]
      exact getPort_setPort_same _ _ _ hlt
  obtain ⟨hat_place, helse, hspare⟩ := Fibre.switch_moves hsp hplace r.calibration
  have hg : nthD Fibre.fresh (getPort t port.val).fibres fibre = f.switch r.place r.calibration := by
    rw [hport]
    exact nthD_updNth_same _ _ _ _ hf
  intro g
  have hg' : g = f.switch r.place r.calibration := hg
  rw [hg', hport]
  refine ⟨hat_place, helse, rfl, fun hcal => ⟨?_, ?_⟩, fun hcal => ⟨?_, ?_⟩⟩
  · rw [hspare, hcal]
    rfl
  · rw [ht, hcal]
    simp [t0, setPort, withCounts]
  · rw [hspare, hcal]
    rfl
  · rw [ht, hcal]
    exact ⟨rfl, rfl⟩

theorem switchTransmit_moves {fibre : Nat} {sp : Nat} {m : MirrorRun}
    (hm : ((getPort s port.val).mirrors.find? fun m => m.fibre == fibre) = some m)
    (hsp : (nthD Fibre.fresh (getPort s port.val).txFibres fibre).spare = some sp)
    (hplace : m.place < (nthD Fibre.fresh (getPort s port.val).txFibres fibre).lanes.length)
    (hf : fibre < (getPort s port.val).txFibres.length)
    (hdue : reached (getPort s port.val).txNext m.switchAt = true) :
    let h := nthD Fibre.fresh (getPort s port.val).txFibres fibre
    let t := switchTransmit port fibre s
    let g := nthD Fibre.fresh (getPort t port.val).txFibres fibre
    t = { s with fabric := { s.fabric with ports := t.fabric.ports } } ∧
    g.lanes[m.place]? = some sp ∧ (∀ i, i ≠ m.place → g.lanes[i]? = h.lanes[i]?) ∧
    g.spare = (if m.calibration then h.lanes[m.place]? else none) ∧
    (getPort t port.val).fibres = (getPort s port.val).fibres := by
  intro h t
  let moved (q : Port) : Port := { q with
    txFibres := updNth (fun f => f.switch m.place m.calibration) q.txFibres fibre
    mirrors := q.mirrors.filter (fun r => r.fibre ≠ fibre) }
  have ht : t = setPort port.val moved s := by
    change switchTransmit port fibre s = _
    unfold switchTransmit
    dsimp only
    rw [find?_of_first hm hdue]
  have hport : getPort t port.val = moved (getPort s port.val) := by
    rw [ht]
    exact getPort_setPort_same _ _ _ hlt
  have hg : nthD Fibre.fresh (getPort t port.val).txFibres fibre = h.switch m.place m.calibration := by
    rw [hport]
    exact nthD_updNth_same _ _ _ _ hf
  intro g
  have hg' : g = h.switch m.place m.calibration := hg
  rw [hg', hport]
  obtain ⟨hat_place, helse, hspare⟩ := Fibre.switch_moves hsp hplace m.calibration
  exact ⟨by rw [ht]; rfl, hat_place, helse, hspare, rfl⟩

end

/-! ## The commands -/

/-- The fibre of a lane is one of the port's. -/
theorem laneHome_lt {fs : List Fibre} {lane fibre place : Nat} (h : laneHome fs lane = some (fibre, place)) :
    fibre < fs.length := by
  unfold laneHome at h
  obtain ⟨f, hf, heq⟩ := Option.map_eq_some_iff.mp h
  obtain ⟨rfl, -⟩ := Prod.mk.inj heq
  have := (mem_upFrom 0 fs.length f).mp (List.mem_filter.mp (List.mem_of_getElem? hf)).1
  omega

theorem failLane_spare {s : State} {port : PortId} {lane fibre place : Nat}
    (hhome : laneHome (getPort s port.val).fibres lane = some (fibre, place))
    (hspare : (nthD Fibre.fresh (getPort s port.val).fibres fibre).spare ≠ none)
    (hswap : swapOn (getPort s port.val) fibre = none) :
    failLane port lane s = askSwap port fibre place false s := by
  obtain ⟨sp, hsp⟩ := Option.ne_none_iff_exists'.mp hspare
  simp only [failLane, hhome, hsp, hswap]

theorem failLane_noSpare {s : State} {port : PortId} {lane fibre place : Nat}
    (hhome : laneHome (getPort s port.val).fibres lane = some (fibre, place))
    (hspare : (nthD Fibre.fresh (getPort s port.val).fibres fibre).spare = none) :
    failLane port lane s = retireFibre port fibre
      (nthD 0 (nthD Fibre.fresh (getPort s port.val).fibres fibre).lanes place) s := by
  simp only [failLane, hhome, hspare]

/-- Settles O34: a lane is swapped, mirrored and switched once; a second failure retires its fibre. -/
theorem spareWavelengthsServeOnce : Obligations.SpareWavelengthsServeOnce := by
  unfold Obligations.SpareWavelengthsServeOnce
  intro s port cause fibre place cal at' hlt q f h kind
  have hmirror : exec (.swap port fibre place.val kind) s = .next (mirrorLane port fibre.val place.val cal s) := by
    cases cal <;> rfl
  refine ⟨fun lane hhome => ⟨fun hspare hswap => ?_, fun hspare => ?_⟩, fun hspare hused hplace hother => ?_,
    fun hspare => ?_, fun hused hf => ?_, fun r hr hplace => ?_, fun sp r hr hsp hplace hf hat hdue => ?_, fun hearly => ?_,
    fun sp m hm hsp hplace hf hdue => ?_, fun hearly => ?_, fun hup hspare hused hcal hswap => ?_, fun hnot => ?_⟩
  · obtain ⟨hask, hfibres, -⟩ := askSwap_asks hlt fibre.val place.val false
    exact ⟨_, congrArg Host.Outcome.next (failLane_spare hhome hspare hswap), rfl, hask, hfibres⟩
  · exact ⟨_, congrArg Host.Outcome.next (failLane_noSpare hhome hspare), retireFibre_retires hlt _ (laneHome_lt hhome)⟩
  · exact ⟨_, hmirror, mirrorLane_mirrors hlt cal hspare hused hplace hother⟩
  · rw [hmirror]
    exact congrArg Host.Outcome.next (if_pos (.inl hspare))
  · refine ⟨_, congrArg Host.Outcome.next (if_neg ?_), retireTransmit_drops hlt at' hf⟩
    rw [hused]
    decide
  · exact ⟨_, rfl, rfl, noteSwitch_notes hlt at' hr hplace⟩
  · exact ⟨_, rfl, switchReceive_moves hlt hr hsp hplace hf hat hdue⟩
  · exact congrArg Host.Outcome.next (switchReceive_early hearly)
  · exact ⟨_, rfl, switchTransmit_moves hlt hm hsp hplace hf hdue⟩
  · exact congrArg Host.Outcome.next (switchTransmit_early hearly)
  · obtain ⟨hask, -, hcalibrating⟩ := askSwap_asks hlt fibre.val place.val true
    exact ⟨_, if_pos ⟨hup, hspare, by simpa using hused, hcal, hswap⟩, rfl, hcalibrating, hask⟩
  · refine if_neg fun ⟨_, hspare, _, hcal, _⟩ => ?_
    obtain h | h := hnot
    · exact hspare h
    · exact h hcal

end Sys2Proof.Machine
end

section
/-! A segment of a source that is on no list stays staged when the sum is complete, and may be spilled (O37). -/

namespace Sys2Proof.Machine

/-! ## A sum with one source, beside a segment of another source -/

/-- One 32 B word at 0 with the single source 0; the spill area lies behind it. -/
def oneSourceSum : ReduceDecl := ⟨1, [⟨0, 32⟩], .sum, .fp32, .fp32, none, [[0]], false, false, ⟨64, 64⟩, 0⟩

/-- Eight elements of value `x` for the word, as source `j`'s first segment. -/
def segmentOf (j : Nat) (x : U32) : Segment := ⟨j, 0, 0, List.replicate 8 x⟩

/-- The run that holds a segment of source 7, which is on no list, and nothing of source 0. -/
def straySum : MsuRun := ⟨oneSourceSum, [], [segmentOf 7 1], [], [], 0, false⟩

/-- A running step in which another operation fills the staging buffer of stack 0. -/
def fullStaging : State :=
  { State.reset with
    job := some { bareJob with image := { bareJob.image with stepRanges := [⟨0, 8192⟩], counterBase := 4096 } }
    msu := { State.reset.msu with runs := [straySum], staging := [⟨2, 0, .running 256, stagingBytes, false⟩] } }

/-- What source 0 contributes, and that no other source does. -/
def zerosOfSource0 (j : Nat) : Option (List U32) := if j = 0 then some (List.replicate 8 0) else none

/-- Device bytes behind a command that answers a next state. -/
def bytesAfter (i : Instr) (s : State) (b n : Nat) : Option (List Byte) :=
  match exec i s with
  | .next t => some (devRead t b n)
  | _ => none

theorem bytesAfter_of_next {i : Instr} {s t : State} (h : exec i s = .next t) (b n : Nat) :
    bytesAfter i s b n = some (devRead t b n) := by
  simp [bytesAfter, h]

/-- The stray segment is placed anew, finds the buffer full and goes to the spill area. -/
theorem straySegment_spilled :
    bytesAfter (.segmentArrive oneSourceSum (segmentOf 0 0)) fullStaging 64 32 =
      some (List.replicate 8 (leBytes 4 1)).flatten := by
  decide +kernel

theorem spillArea_before : devRead fullStaging 64 32 = List.replicate 32 0 := by decide +kernel

theorem fullStaging_counterAddr : counterAddr fullStaging 1 = some 4112 := by decide

theorem fullStaging_acts : acts fullStaging 1 = true := by decide +kernel

theorem oneSourceSum_builds : reduceFault fullStaging oneSourceSum = none := by decide +kernel

/-- Refutes O37: a segment whose source is on no list stays among those that wait when the sum is complete; where the
unit's staging buffer is full it is spilled then (R251), which writes bytes outside the word and the counter entry. -/
theorem not_sumsRunInContributorOrder : ¬ Obligations.SumsRunInContributorOrder := by
  unfold Obligations.SumsRunInContributorOrder
  intro h
  obtain ⟨harrive, -⟩ := h fullStaging oneSourceSum straySum 0 0 [0] zerosOfSource0 fullStaging_acts oneSourceSum_builds
    rfl rfl rfl rfl rfl rfl rfl rfl rfl rfl rfl rfl (by decide +kernel)
    (fun j v hv => by
      unfold zerosOfSource0 at hv
      split at hv
      · rw [← Option.some.inj hv, List.length_replicate]
      · cases hv)
    (fun a ha => by
      have hat : some 4112 = some a := fullStaging_counterAddr.symm.trans ha
      obtain rfl := Option.some.inj hat
      omega)
  obtain ⟨t, hexec, -, hother, -⟩ := harrive 0 (List.replicate 8 0) (List.mem_singleton.mpr rfl) rfl rfl rfl
    (fun j hj => by
      obtain rfl := List.mem_singleton.mp hj
      exact rfl)
  have hkept : devRead t 64 32 = devRead fullStaging 64 32 := hother 64 32 (by omega) fun a ha => by
    have hat : some 4112 = some a := fullStaging_counterAddr.symm.trans ha
    obtain rfl := Option.some.inj hat
    omega
  have hspilled := Option.some.inj ((bytesAfter_of_next hexec 64 32).symm.trans straySegment_spilled)
  exact absurd (hspilled.symm.trans (hkept.trans spillArea_before)) (by decide)

end Sys2Proof.Machine
end

section
/-! A reduce-scatter is its contributions arriving one by one (O38). -/

namespace Sys2Proof.Machine

/-! ## What a reduction's units change -/

/-- Only device memory, the memory-side units and the counts of ended parts have changed. -/
def UnitsOnly (s t : State) : Prop := t = { s with hbm := t.hbm, msu := t.msu, ended := t.ended }

theorem UnitsOnly.refl (s : State) : UnitsOnly s s := rfl

theorem UnitsOnly.trans {s t u : State} (h : UnitsOnly s t) (h' : UnitsOnly t u) : UnitsOnly s u := by
  unfold UnitsOnly at *
  rw [h', h]

theorem UnitsOnly.foldl {α : Type} {g : State → α → State} (h : ∀ t x, UnitsOnly t (g t x)) (xs : List α) (s : State) :
    UnitsOnly s (xs.foldl g s) :=
  List.foldlRecOn (motive := UnitsOnly s) xs _ (.refl s) fun t ht x _ => ht.trans (h t x)

theorem UnitsOnly.keeps {s t : State} (h : UnitsOnly s t) :
    t.job = s.job ∧ t.status = s.status ∧ t.coll = s.coll ∧ t.cores = s.cores ∧ t.sent = s.sent ∧ t.site = s.site ∧
    t.recovery = s.recovery ∧ t.time = s.time := by
  rw [UnitsOnly] at h
  rw [h]
  exact ⟨rfl, rfl, rfl, rfl, rfl, rfl, rfl, rfl⟩

theorem unitsOnly_devWrite (a : Nat) (bs : List Byte) (s : State) : UnitsOnly s (devWrite a bs s) := rfl

theorem unitsOnly_ended (m : SMap Nat) (s : State) : UnitsOnly s { s with ended := m } := rfl

theorem unitsOnly_endPart (op : U32) (s : State) : UnitsOnly s (endPart op s) := by
  unfold endPart
  exact unitsOnly_ended _ s

theorem unitsOnly_putRun (r : MsuRun) (s : State) : UnitsOnly s (putRun r s) := rfl

theorem unitsOnly_counterOpen (op : U32) (s : State) : UnitsOnly s (counterOpen op s) := by
  unfold counterOpen
  split
  · exact .refl s
  · split
    · exact .refl s
    · exact UnitsOnly.trans (t := { s with hbm := _ }) rfl (unitsOnly_devWrite _ _ _)

theorem unitsOnly_addTally (op : U32) (t : Tally) (s : State) : UnitsOnly s (addTally op t s) := by
  unfold addTally counterAdd
  split
  · exact .refl s
  · exact (unitsOnly_counterOpen op s).trans (unitsOnly_devWrite _ _ _)

theorem unitsOnly_openTiles (r : MsuRun) (s : State) : UnitsOnly s (openTiles r s).2 := by
  unfold openTiles
  split
  · exact .refl s
  · exact UnitsOnly.foldl (fun t k => (unitsOnly_devWrite _ _ t).trans <| UnitsOnly.foldl (fun u w => by
      split
      · exact .refl u
      · exact unitsOnly_devWrite _ _ u) _ _) _ _

theorem unitsOnly_writeWordValue (r : MsuRun) (w : Nat) (s : State) : UnitsOnly s (writeWordValue r w s) :=
  (unitsOnly_devWrite _ _ s).trans (unitsOnly_addTally _ _ _)

theorem unitsOnly_advanceRun (r : MsuRun) (s : State) : UnitsOnly s (advanceRun r s).2 :=
  (unitsOnly_openTiles r s).trans (UnitsOnly.foldl (fun t w => unitsOnly_writeWordValue _ w t) _ _)

theorem unitsOnly_spillItem (r : MsuRun) (s : State) (x : StagedItem) : UnitsOnly s (spillItem r s x) := by
  unfold spillItem
  split <;> rfl

theorem unitsOnly_restage (r : MsuRun) (s : State) : UnitsOnly s (restage r s) := by
  unfold restage
  exact UnitsOnly.trans (t := { s with msu := _ }) rfl (UnitsOnly.foldl (fun t x => unitsOnly_spillItem r t x) _ _)

theorem unitsOnly_advanceInto (r : MsuRun) (s : State) : UnitsOnly s (advanceInto r s) := by
  have h := ((unitsOnly_advanceRun r s).trans (unitsOnly_putRun (advanceRun r s).1 _)).trans
    (unitsOnly_restage (advanceRun r s).1 _)
  unfold advanceInto
  dsimp only
  split
  · exact h.trans (unitsOnly_endPart _ _)
  · exact h

/-! ## A job while contributions arrive: it runs on, or has been stopped by one of them -/

/-- What contributions leave: the engine's state; and the job runs on in its step, or is over but for a refresh. -/
structure Feeds (s u : State) : Prop where
  runs : inStep u = true → u.job = s.job ∧ u.status.step = s.status.step
  begun : ∀ j, u.job = some j → j.phase ≠ .boundary ∧ j.phase ≠ .settling
  image : ∀ j, u.job = some j → ∃ k, s.job = some k ∧ k.image = j.image
  coll : u.coll = s.coll
  site : u.site = s.site

theorem Feeds.refl {s : State} (h : inStep s = true) : Feeds s s where
  runs _ := ⟨rfl, rfl⟩
  begun j hj := by
    have hphase : j.phase = .inStep := by simpa [inStep, hj] using h
    simp [hphase]
  image j hj := ⟨j, hj, rfl⟩
  coll := rfl
  site := rfl

theorem Feeds.trans {s t u : State} (h : Feeds s t) (ht : inStep t = true) (h' : Feeds t u) : Feeds s u where
  runs hu := by
    obtain ⟨hjob, hstep⟩ := h.runs ht
    obtain ⟨hjob', hstep'⟩ := h'.runs hu
    exact ⟨hjob'.trans hjob, hstep'.trans hstep⟩
  begun := h'.begun
  image j hj := by
    obtain ⟨k, hk, hjk⟩ := h'.image j hj
    obtain ⟨i, hi, hki⟩ := h.image k hk
    exact ⟨i, hi, hki.trans hjk⟩
  coll := h'.coll.trans h.coll
  site := h'.site.trans h.site

theorem Feeds.of_units {s t : State} (h : UnitsOnly s t) (hs : inStep s = true) : Feeds s t := by
  obtain ⟨hjob, hstatus, hcoll, -, -, hsite, -⟩ := h.keeps
  have h0 := Feeds.refl hs
  exact ⟨fun _ => ⟨hjob, congrArg StatusRec.step hstatus⟩, fun j hj => h0.begun j (hjob ▸ hj),
    fun j hj => h0.image j (hjob ▸ hj), hcoll, hsite⟩

/-- A stop that is no halt leaves no job, or one whose refresh completes. -/
theorem stopJob_leaves {code : U16} (hc : isHalt code = false) (op : U32) (loc : U64) {s : State} {j : Job}
    (hj : s.job = some j) :
    (stopJob code op loc s).job = none ∨ ∃ stop, (stopJob code op loc s).job = some { j with phase := .refreshing, stop } := by
  obtain ⟨s1, hs1, hjob⟩ : ∃ s1 : State, stopJob code op loc s = leaveRink (concludeJob code s1) ∧ s1.job = some j := by
    refine ⟨emit (.send (.stopNotice code)) (postEvent code op 0 loc s), ?_, ?_⟩
    · simp [stopJob, hj, hc]
    · simp [hj]
  have hleave : (stopJob code op loc s).job = (concludeJob code s1).job := by rw [hs1]; simp
  rw [hleave]
  cases hr : refreshRuns s1 with
  | true => exact .inr ⟨_, by rw [concludeJob_refreshes code hjob hr]⟩
  | false => exact .inl (by rw [concludeJob_ends_now code hjob hr]; exact (endJob_ends _ _).1)

theorem Feeds.of_stop {code : U16} (hc : isHalt code = false) (op : U32) (loc : U64) {s : State} (hs : inStep s = true) :
    Feeds s (stopJob code op loc s) := by
  obtain ⟨j, hj⟩ : ∃ j, s.job = some j := by
    unfold inStep at hs
    split at hs
    · cases hs
    · next j hj => exact ⟨j, hj⟩
  have hcoll : (stopJob code op loc s).coll = s.coll := by simp
  have hsite : (stopJob code op loc s).site = s.site := by simp
  obtain hnone | ⟨stop, hsome⟩ := stopJob_leaves hc op loc hj
  · exact ⟨fun h => by simp [inStep, hnone] at h, fun k hk => by simp [hnone] at hk, fun k hk => by simp [hnone] at hk, hcoll,
      hsite⟩
  · refine ⟨fun h => by simp [inStep, hsome] at h, fun k hk => ?_, fun k hk => ?_, hcoll, hsite⟩
    · obtain rfl := Option.some.inj (hsome.symm.trans hk)
      exact ⟨nofun, nofun⟩
    · obtain rfl := Option.some.inj (hsome.symm.trans hk)
      exact ⟨j, hj, rfl⟩

theorem feeds_segmentIn (d : ReduceDecl) (g : Segment) {s : State} (hs : inStep s = true) : Feeds s (segmentIn d g s) := by
  unfold segmentIn
  dsimp only
  split
  · exact .refl hs
  split
  · exact .of_stop rfl _ _ hs
  split
  · exact .of_stop rfl _ _ hs
  · exact .of_units (unitsOnly_advanceInto _ s) hs

theorem feeds_closeIn (d : ReduceDecl) (source : Nat) (c : Close) {s : State} (hs : inStep s = true) :
    Feeds s (closeIn d source c s) := by
  unfold closeIn
  dsimp only
  split
  · exact .refl hs
  split
  · exact .refl hs
  split
  · exact .of_stop rfl _ _ hs
  · exact .of_units (unitsOnly_advanceInto _ s) hs

/-! ## The rules of a declaration stay kept -/

theorem Feeds.mayWrite {s u : State} (h : Feeds s u) {a n : Nat} (hs : mayWrite s a n = true) : mayWrite u a n = true := by
  unfold Machine.mayWrite at hs ⊢
  cases hu : u.job with
  | none => rfl
  | some j =>
    obtain ⟨k, hk, hkj⟩ := h.image j hu
    simpa only [hk, hkj] using hs

theorem Feeds.spillOk {s u : State} (h : Feeds s u) {d : ReduceDecl} (hs : spillOk s d = true) : spillOk u d = true := by
  unfold Machine.spillOk at hs ⊢
  cases hu : u.job with
  | none =>
    simp only [Bool.and_true]
    simp only [Bool.or_eq_true, Bool.and_eq_true] at hs
    simp only [Bool.or_eq_true]
    exact hs.imp_right And.left
  | some j =>
    obtain ⟨k, hk, hkj⟩ := h.image j hu
    simpa only [hk, hkj] using hs

theorem Feeds.reduceFault {s u : State} (h : Feeds s u) {d : ReduceDecl} (hs : reduceFault s d = none) :
    reduceFault u d = none := by
  unfold Machine.reduceFault at hs ⊢
  simp only [firstFault_cons_eq_none, unless'_eq_none] at hs ⊢
  obtain ⟨hfmt, hranges, hgrad, hwrite, hlists, hspill, hnil⟩ := hs
  exact ⟨hfmt, hranges, hgrad, List.all_eq_true.mpr fun g hg => h.mayWrite (List.all_eq_true.mp hwrite g hg), hlists,
    h.spillOk hspill, hnil⟩

theorem Feeds.segmentFault {s u : State} (h : Feeds s u) {d : ReduceDecl} {g : Segment} (hs : segmentFault s d g = none) :
    segmentFault u d g = none := by
  unfold Machine.segmentFault at hs ⊢
  rw [firstFault_cons_eq_none] at hs ⊢
  exact ⟨h.reduceFault hs.1, hs.2⟩

theorem Feeds.acts {s u : State} (h : Feeds s u) {op : U32} (hs : acts s op = true) : acts u op = inStep u := by
  cases hu : inStep u with
  | false => simp [Machine.acts, hu]
  | true =>
    obtain ⟨hjob, hstep⟩ := h.runs hu
    have hcut : withheld u op = withheld s op := by simp only [withheld, hjob, hstep]
    have hno : withheld s op = false := by
      unfold Machine.acts at hs
      rw [Bool.and_eq_true] at hs
      simpa using hs.2
    simp [Machine.acts, hu, hcut, hno]

/-- An arrival acts while the step runs, and changes nothing once an earlier one has stopped the job. -/
theorem Feeds.arrive {s u : State} (h : Feeds s u) {op : U32} (hs : Machine.acts s op = true) (c : Instr) (effect : State) :
    arrive c op effect u = if inStep u then effect else u := by
  unfold Machine.arrive
  cases hu : u.job with
  | none => simp [inStep, hu]
  | some j =>
    obtain ⟨hboundary, hsettling⟩ := h.begun j hu
    simp [hboundary, hsettling, h.acts hs]

/-! ## Arrivals one by one -/

/-- The state behind a command; the one before it where the command is refused. -/
def after (u : State) (i : Instr) : State := match exec i u with
  | .next v => v
  | _ => u

theorem after_of_next {u v : State} {i : Instr} (h : exec i u = .next v) : after u i = v := by simp [after, h]

/-- The commands that a contribution's segments and its close arrive by. -/
def arrivals (d : ReduceDecl) (c : Contribution) : List Instr :=
  (c.segs.map fun g => Instr.segmentArrive d g) ++ [.closeArrive d c.source ⟨c.segs.length, 0⟩]

/-- Two folds agree as long as their steps do in the states that an invariant allows. -/
theorem foldl_eq_of_keeps {α β : Type} {P : β → Prop} {f g : β → α → β} {xs : List α} {b : β} (hb : P b)
    (h : ∀ b x, x ∈ xs → P b → f b x = g b x ∧ P (g b x)) : xs.foldl f b = xs.foldl g b ∧ P (xs.foldl g b) := by
  induction xs generalizing b with
  | nil => exact ⟨rfl, hb⟩
  | cons x xs ih =>
    obtain ⟨heq, hkeep⟩ := h b x List.mem_cons_self hb
    rw [List.foldl_cons, List.foldl_cons, heq]
    exact ih hkeep fun b y hy => h b y (List.mem_cons_of_mem _ hy)

section
variable {s : State} {d : ReduceDecl} (hacts : acts s d.op = true) (hreplica : d.replica = false)
  (hfault : reduceFault s d = none)
include hacts hreplica

theorem feeds_feedSegment {u : State} {g : Segment} (hg : segmentFault s d g = none) (hu : Feeds s u) :
    after u (.segmentArrive d g) = feedSegment d u g ∧ Feeds s (feedSegment d u g) := by
  have hexec : exec (.segmentArrive d g) u = .next (feedSegment d u g) := by
    change execSegmentArrive d g u = _
    unfold execSegmentArrive
    rw [hu.segmentFault hg]
    dsimp only
    rw [hu.arrive hacts, settleAfter, hreplica]
    rfl
  refine ⟨after_of_next hexec, ?_⟩
  unfold feedSegment
  split
  · next hrun => exact hu.trans hrun (feeds_segmentIn d g hrun)
  · exact hu

include hfault in
theorem feeds_feedContribution {u : State} {c : Contribution} (hc : ∀ g ∈ c.segs, segmentFault s d g = none)
    (hu : Feeds s u) :
    (arrivals d c).foldl after u = feedContribution d 0 u c ∧ Feeds s (feedContribution d 0 u c) := by
  obtain ⟨hsegs, hfeeds⟩ := foldl_eq_of_keeps (f := fun u g => after u (.segmentArrive d g)) (g := feedSegment d) hu
    fun v g hg hv => feeds_feedSegment hacts hreplica (hc g hg) hv
  have hexec : exec (.closeArrive d c.source ⟨c.segs.length, 0⟩) (c.segs.foldl (feedSegment d) u) =
      .next (feedContribution d 0 u c) := by
    change execCloseArrive d c.source ⟨c.segs.length, 0⟩ _ = _
    unfold execCloseArrive
    rw [hfeeds.reduceFault hfault]
    dsimp only
    rw [hfeeds.arrive hacts, settleAfter, hreplica]
    rfl
  refine ⟨?_, ?_⟩
  · rw [arrivals, List.foldl_append, List.foldl_map, hsegs]
    exact after_of_next hexec
  · unfold feedContribution
    dsimp only
    split
    · next hrun => exact hfeeds.trans hrun (feeds_closeIn d _ _ hrun)
    · exact hfeeds

include hfault in
theorem feeds_contributions {cs : List Contribution} (hcs : ∀ c ∈ cs, ∀ g ∈ c.segs, segmentFault s d g = none) :
    ((cs.map (arrivals d)).flatten).foldl after s = cs.foldl (feedContribution d 0) s ∧
    Feeds s (cs.foldl (feedContribution d 0) s) := by
  rw [List.foldl_flatten, List.foldl_map]
  have hstep : inStep s = true := (Bool.and_eq_true _ _ ▸ hacts : _ ∧ _).1
  exact foldl_eq_of_keeps (Feeds.refl hstep) fun u c hc hu => feeds_feedContribution hacts hreplica hfault (hcs c hc) hu

end

/-! ## REDUCE_SCATTER and ALL_REDUCE (R289, R290) -/

theorem scatterFault_rules {s : State} {r : ScatterCmd} (h : scatterFault s r = none) :
    reduceFault s r.decl = none ∧ r.decl.replica = false := by
  unfold scatterFault at h
  simp only [firstFault_cons_eq_none, unless'_eq_none, Bool.and_eq_true, Bool.not_eq_true'] at h
  exact ⟨h.1, h.2.1.1⟩

theorem exec_reduceScatter {s : State} {r : ScatterCmd} (hfault : scatterFault s r = none) (hacts : acts s r.decl.op = true) :
    exec (.reduceScatter r) s = .next (if scatterWaits s r then stall (.reduceScatter r) s else scatterEffect r s) := by
  change execReduceScatter r s = _
  unfold execReduceScatter
  rw [hfault]
  dsimp only
  rw [if_neg (by simp [hacts])]
  split <;> rfl

theorem exec_allReduce {s : State} {r : ScatterCmd} (sums : List Piece) (hfault : allReduceFault s r = none)
    (hacts : acts s r.decl.op = true) (hclean : scatterWaits s r = false) :
    exec (.allReduce r sums) s = .next (allReduceEffect r sums s) := by
  change execAllReduce r sums s = _
  unfold execAllReduce
  rw [hfault]
  dsimp only
  rw [if_neg (by simp [hacts]), if_neg (by simp [hclean])]

theorem exec_reduceScatter_refused {s : State} {r : ScatterCmd} {k : Nat} (h : scatterFault s r = some k) :
    exec (.reduceScatter r) s = .refused (.refusedAtBuild k) := by
  change execReduceScatter r s = _
  unfold execReduceScatter
  rw [h]

theorem exec_allReduce_refused {s : State} {r : ScatterCmd} {k : Nat} (h : scatterFault s r = some k) (sums : List Piece) :
    exec (.allReduce r sums) s = .refused (.refusedAtBuild k) := by
  change execAllReduce r sums s = _
  unfold execAllReduce allReduceFault
  rw [h, firstFault_some_cons]

/-- The module's own segments for the other modules go out, once in the step. -/
def sendsOut (out : List Out) (op : U32) (s : State) : State :=
  { s with sent := s.sent ++ out, coll := { s.coll with scattered := s.coll.scattered ++ [op] } }

/-- The module's own contribution behind the others': what it sends, and its own segments and close as arrivals. -/
theorem scatterEffect_arrives {s : State} {r : ScatterCmd} (hfault : scatterFault s r = none) (hacts : acts s r.decl.op = true)
    (hnew : r.decl.op ∉ s.coll.scattered) :
    let taken := ((r.others.map (arrivals r.decl)).flatten).foldl after s
    let own : Contribution := ⟨s.M, scatterSegs taken r s.L 0 0 r.decl.ranges⟩
    let out := (((upFrom 0 s.rinkSize).filter fun l => l != s.L).map (scatterOut taken r)).flatten
    (∀ c ∈ own :: r.others, ∀ g ∈ c.segs, segmentFault s r.decl g = none) →
    scatterEffect r s = (arrivals r.decl own).foldl after (sendsOut out r.decl.op taken) := by
  intro taken own out hgood
  obtain ⟨hreduce, hreplica⟩ := scatterFault_rules hfault
  obtain ⟨htaken, hfeeds⟩ := feeds_contributions hacts hreplica hreduce fun c hc => hgood c (List.mem_cons_of_mem _ hc)
  rw [← htaken] at hfeeds
  change Feeds s taken at hfeeds
  have hM : taken.M = s.M := by simp only [State.M, State.coord, hfeeds.site]
  have hL : taken.L = s.L := by simp only [State.L, State.coord, hfeeds.site]
  have hsize : taken.rinkSize = s.rinkSize := by simp only [State.rinkSize, hfeeds.site]
  have hfirst : taken.coll.scattered.contains r.decl.op = false := by
    rw [hfeeds.coll]
    simpa using hnew
  have heffect : scatterEffect r s = sendContribution r taken := congrArg (sendContribution r) htaken.symm
  have hsend : sendContribution r taken = feedContribution r.decl 0 (sendsOut out r.decl.op taken) own := by
    unfold sendContribution
    dsimp only
    rw [hfirst, hM, hL, hsize]
    rfl
  have hown : Feeds { s with coll := (sendsOut out r.decl.op taken).coll } (sendsOut out r.decl.op taken) :=
    ⟨hfeeds.runs, hfeeds.begun, hfeeds.image, rfl, hfeeds.site⟩
  have hfeed := (feeds_feedContribution (s := { s with coll := (sendsOut out r.decl.op taken).coll }) hacts hreplica hreduce
    (hgood own List.mem_cons_self) hown).1
  rw [heffect, hsend, hfeed]

/-! ## The sums of a rink of two modules (R289) -/

theorem writeRanges_one (r : ScatterCmd) (l : Nat) {g : Range} {bs : List Byte} (hlen : bs.length = g.len) (s : State) :
    writeRanges r l [g] bs s = devWrite (pieceBase s r l g) bs s := by
  rw [writeRanges, writeRanges, ← hlen, List.take_length]

theorem notePiece_frame (ring : Bool) (op : U32) (i : Nat) (s : State) :
    notePiece ring op i s = { s with
      coll := { s.coll with gathers := (notePiece ring op i s).coll.gathers }, ended := (notePiece ring op i s).ended } := by
  unfold notePiece
  dsimp only
  split <;> rfl

/-- What a module's sum that is in has changed: device memory, what the gather has in, and what goes on. -/
def SumIn (op : U32) (i : Nat) (out : List Out) (s t : State) : Prop :=
  t = { s with hbm := { s.hbm with dev := t.hbm.dev, poison := t.hbm.poison },
               coll := { s.coll with gathers := t.coll.gathers }, ended := t.ended, sent := s.sent ++ out } ∧
  (gatherOf t op).got = (gatherOf s op).got ++ [i]

theorem SumIn.trans {op : U32} {i k : Nat} {out out' : List Out} {s t u : State} (h : SumIn op i out s t)
    (h' : SumIn op k out' t u) : u = { s with
      hbm := { s.hbm with dev := u.hbm.dev, poison := u.hbm.poison }
      coll := { s.coll with gathers := u.coll.gathers }, ended := u.ended, sent := s.sent ++ out ++ out' } := by
  rw [h'.1, h.1]

section
variable {s : State} {r : ScatterCmd} {g : Range} (hranges : r.decl.ranges = [g])
include hranges

theorem takeSum_delivers {p : Piece} (hother : p.index ≠ s.L) (hmember : p.index < s.rinkSize)
    (hnew : hasPiece s r.decl.op p.index = false) (hpresence : p.presence = none) (hlen : p.bytes.length = g.len) :
    takeSum r s p = notePiece false r.decl.op p.index
      (emitAll (goingOn s false r.decl.op p) (devWrite (pieceBase s r p.index g) p.bytes s)) := by
  have hnot : ¬ (p.index = s.L ∨ s.rinkSize ≤ p.index ∨ hasPiece s r.decl.op p.index = true) := by
    simp [hother, hmember, hnew]
  rw [takeSum, if_neg hnot, hranges, writeRanges_one r _ hlen, putPiecePresence, hpresence]
  dsimp only
  rw [forwardPiece_eq, goingOn_congr (s := s) (t := devWrite (pieceBase s r p.index g) p.bytes s) rfl]

theorem sendSum_delivers (hnew : hasPiece s r.decl.op s.L = false) (hgrad : r.decl.gradient = none) :
    sendSum r s = notePiece false r.decl.op s.L
      (emitAll (goingOn s false r.decl.op ⟨s.L, devRead s g.base g.len, none⟩) s) := by
  have hbytes : rangesBytes s r.decl.ranges = devRead s g.base g.len := by
    rw [rangesBytes, hranges]
    simp
  have hpresence : sumPresence r s = none := by
    unfold sumPresence
    rw [hgrad]
  rw [sendSum, hnew, if_neg (by simp), forwardPiece_eq, hbytes, hpresence]

end

theorem sumIn_note {op : U32} {i : Nat} {out : List Out} {s u : State}
    (hu : u = { s with hbm := { s.hbm with dev := u.hbm.dev, poison := u.hbm.poison }, sent := s.sent ++ out }) :
    SumIn op i out s (notePiece false op i u) ∧ (notePiece false op i u).hbm = u.hbm := by
  obtain ⟨-, hhbm, -, -, hgot⟩ := notePiece_shows false op i u
  have hgather : gatherOf u op = gatherOf s op := by rw [hu]; rfl
  refine ⟨⟨?_, hgot.trans (by rw [hgather])⟩, hhbm⟩
  rw [notePiece_frame, hu]

/-- The members of a rink of two. -/
theorem gatherMembers_two {s : State} (h : s.rinkSize = 2) : gatherMembers s false = [0, 1] := by
  rw [gatherMembers, if_neg (by simp), h]
  rfl

theorem allReduceEffect_scattered {s : State} {r : ScatterCmd} {p : Piece} (hothers : r.others = [])
    (hsent : r.decl.op ∈ s.coll.scattered) :
    allReduceEffect r [p] s =
      if ¬ inStep (takeSum r s p) then takeSum r s p
      else if runComplete (takeSum r s p) r.decl.op then sendSum r (takeSum r s p)
      else if sumWaiting (takeSum r s p) r.decl.op then takeSum r s p
      else stall (.allReduce { r with others := [] } []) (takeSum r s p) := by
  have heffect : scatterEffect r s = s := by
    rw [scatterEffect, hothers, List.foldl_nil, sendContribution, if_pos (by simpa using hsent)]
  rw [allReduceEffect, heffect]
  rfl

/-- Without another module's sum, and before this module's own is complete, the operation waits. -/
theorem allReduceEffect_waits {s w : State} {r : ScatterCmd} (heffect : scatterEffect r s = w) (hrun : inStep w = true)
    (hopen : runComplete w r.decl.op = false) (hnew : sumWaiting w r.decl.op = false) :
    allReduceEffect r [] s = stall (.allReduce { r with others := [] } []) w := by
  simp only [allReduceEffect, List.foldl_nil, heffect, hrun, hopen, hnew]
  rfl

/-- The other module's sum is written and this module's goes out: both are in, and the operation's part ends. -/
theorem allReduce_ends {s : State} {r : ScatterCmd} {p : Piece} {g : Range} {run : MsuRun}
    (hacts : acts s r.decl.op = true) (hsent : r.decl.op ∈ s.coll.scattered) (hothers : r.others = [])
    (hrun : findRun s r.decl.op = some run) (hcomplete : run.complete = true) (hsize : s.rinkSize = 2) (hL : s.L < 2)
    (hranges : r.decl.ranges = [g]) (hgrad : r.decl.gradient = none) (hpresence : p.presence = none)
    (hindex : p.index = 1 - s.L) (hlen : p.bytes.length = g.len)
    (hnone : (s.coll.gathers.find? fun x => x.op == r.decl.op) = none)
    (hdisjoint : pieceBase s r p.index g + g.len ≤ g.base ∨ g.base + g.len ≤ pieceBase s r p.index g) :
    let a := pieceBase s r p.index g
    let t := allReduceEffect r [p] s
    t = { s with hbm := { s.hbm with dev := t.hbm.dev, poison := t.hbm.poison },
                 coll := { s.coll with gathers := t.coll.gathers }, ended := t.ended,
                 sent := s.sent ++ goingOn s false r.decl.op p ++
                   goingOn s false r.decl.op ⟨s.L, devRead s g.base g.len, none⟩ } ∧
    SMap.get 0 t.ended r.decl.op.toNat = SMap.get 0 s.ended r.decl.op.toNat + 1 ∧
    devRead t a g.len = p.bytes ∧ ∀ b n, b + n ≤ a ∨ a + g.len ≤ b → devRead t b n = devRead s b n := by
  intro a t
  have hgot : (gatherOf s r.decl.op).got = [] := by rw [gatherOf, hnone]; rfl
  have hother : p.index ≠ s.L := by omega
  have hfirst : hasPiece s r.decl.op p.index = false := by rw [hasPiece, hgot]; rfl
  let v := emitAll (goingOn s false r.decl.op p) (devWrite a p.bytes s)
  have htake : takeSum r s p = notePiece false r.decl.op p.index v :=
    takeSum_delivers hranges hother (by omega) hfirst hpresence hlen
  obtain ⟨hin, hhbm⟩ : SumIn r.decl.op p.index (goingOn s false r.decl.op p) s (takeSum r s p) ∧
      (takeSum r s p).hbm = v.hbm := htake ▸ sumIn_note rfl
  obtain ⟨hframe, htaken⟩ := hin
  rw [hgot, List.nil_append] at htaken
  have hjob : (takeSum r s p).job = s.job := by rw [hframe]
  have hmsu : (takeSum r s p).msu = s.msu := by rw [hframe]
  have hsite : (takeSum r s p).site = s.site := by rw [hframe]
  have hself : (takeSum r s p).L = s.L := by simp only [State.L, State.coord, hsite]
  have hstep : inStep (takeSum r s p) = true := by
    have : inStep s = true := by
      unfold acts at hacts
      rw [Bool.and_eq_true] at hacts
      exact hacts.1
    simpa only [inStep, hjob] using this
  have hdone : runComplete (takeSum r s p) r.decl.op = true := by
    unfold findRun at hrun
    simp only [runComplete, findRun, hmsu, hrun, hcomplete]
  have hown : hasPiece (takeSum r s p) r.decl.op (takeSum r s p).L = false := by
    rw [hasPiece, htaken, hself]
    simpa using Ne.symm hother
  have hread (b n : Nat) (hb : b + n ≤ a ∨ a + g.len ≤ b) : devRead (takeSum r s p) b n = devRead s b n := by
    rw [devRead, hhbm]
    exact devRead_devWrite_other a p.bytes s b n (hlen ▸ hb)
  have ht : t = notePiece false r.decl.op s.L
      (emitAll (goingOn s false r.decl.op ⟨s.L, devRead s g.base g.len, none⟩) (takeSum r s p)) := by
    change allReduceEffect r [p] s = _
    rw [allReduceEffect_scattered hothers hsent, if_neg (by simp [hstep]), if_pos hdone,
      sendSum_delivers hranges hown hgrad, hself, hread g.base g.len (by omega), goingOn_congr hsite]
  obtain ⟨hin', hhbm'⟩ : SumIn r.decl.op s.L (goingOn s false r.decl.op ⟨s.L, devRead s g.base g.len, none⟩)
      (takeSum r s p) t ∧ t.hbm = (takeSum r s p).hbm := ht ▸ sumIn_note rfl
  refine ⟨SumIn.trans ⟨hframe, by rw [htaken, hgot]; rfl⟩ hin', ?_, ?_, ?_⟩
  · have hmembers : gatherMembers (takeSum r s p) false = [0, 1] :=
      (gatherMembers_congr hsite (by rw [hframe]) false).trans (gatherMembers_two hsize)
    have hkept : (takeSum r s p).ended = s.ended := by
      rw [htake]
      refine (notePiece_ended false r.decl.op p.index v).1 ⟨s.L, ?_, ?_, Ne.symm hother⟩
      · rw [gatherMembers_congr (s := s) (t := v) rfl rfl, gatherMembers_two hsize]
        simp only [List.mem_cons, List.not_mem_nil, or_false]
        omega
      · have hsame : gatherOf v r.decl.op = gatherOf s r.decl.op := rfl
        rw [hsame, hgot]
        exact List.not_mem_nil
    rw [ht, ← hkept]
    refine (notePiece_ended false r.decl.op s.L _).2 fun m hm => ?_
    have hsame : gatherOf (emitAll (goingOn s false r.decl.op ⟨s.L, devRead s g.base g.len, none⟩) (takeSum r s p))
        r.decl.op = gatherOf (takeSum r s p) r.decl.op := rfl
    have hm' : m ∈ gatherMembers (takeSum r s p) false := hm
    rw [hmembers] at hm'
    rw [hsame, htaken]
    simp only [List.mem_cons, List.not_mem_nil, or_false] at hm' ⊢
    omega
  · rw [devRead, hhbm', hhbm, ← hlen]
    exact devRead_devWrite_same a p.bytes s
  · intro b n hb
    have hsame : devRead t b n = devRead (takeSum r s p) b n := by rw [devRead, hhbm', devRead]
    rw [hsame, hread b n hb]

/-- Settles O38: the effect of a reduce-scatter is that of the arrivals; an all-reduce ends with the other module's sum. -/
theorem reduceScatterIsItsArrivals : Obligations.ReduceScatterIsItsArrivals := by
  unfold Obligations.ReduceScatterIsItsArrivals
  intro s r
  refine ⟨fun hfault hacts hnew => ⟨fun hwaits => ?_, fun hclean hgood => ?_⟩, fun k hk => ⟨exec_reduceScatter_refused hk,
    exec_allReduce_refused hk⟩, fun p g run hfault hacts hsent hothers hrun hcomplete hsize hL hranges hgrad hpresence hindex
      hlen hnone hdisjoint => ?_⟩
  · have hexec := exec_reduceScatter hfault hacts
    rwa [hwaits, if_pos rfl] at hexec
  · have heffect := scatterEffect_arrives hfault hacts hnew hgood
    refine ⟨?_, fun hall hrun hcomplete hwaiting => ?_⟩
    · rw [exec_reduceScatter hfault hacts, hclean, if_neg (by simp)]
      exact congrArg Host.Outcome.next heffect
    · rw [exec_allReduce [] hall hacts hclean]
      exact congrArg Host.Outcome.next (allReduceEffect_waits heffect hrun hcomplete hwaiting)
  · have hclean : scatterWaits s r = false := by
      unfold scatterWaits
      simp [hsent]
    exact ⟨_, exec_allReduce [p] hfault hacts hclean, allReduce_ends hacts hsent hothers hrun hcomplete hsize hL hranges hgrad
      hpresence hindex hlen hnone hdisjoint⟩

end Sys2Proof.Machine
end

section
/-! An update operation: its pages open, its tiles are swept, its pages close (O44). -/

namespace Sys2Proof.Machine

/-! ## Several writes to device memory -/

/-- Two spans, each an address with its number of bytes, have no byte in common. -/
def SpansApart (a b : Nat × Nat) : Prop := a.1 + a.2 ≤ b.1 ∨ b.1 + b.2 ≤ a.1

/-- The span that a write covers. -/
def writeSpan (w : Nat × List Byte) : Nat × Nat := (w.1, w.2.length)

def writeAll (ws : List (Nat × List Byte)) (s : State) : State := ws.foldl (fun t w => devWrite w.1 w.2 t) s

theorem devRead_writeAll_other {ws : List (Nat × List Byte)} {b n : Nat} (h : ∀ w ∈ ws, SpansApart (b, n) (writeSpan w)) (s : State) :
    devRead (writeAll ws s) b n = devRead s b n :=
  List.foldlRecOn (motive := fun t => devRead t b n = devRead s b n) ws _ rfl fun t ht w hw =>
    (devRead_devWrite_other w.1 w.2 t b n (h w hw)).trans ht

/-- Each of several writes that have no byte in common is read back. -/
theorem devRead_writeAll {ws : List (Nat × List Byte)} (h : (ws.map writeSpan).Pairwise SpansApart) {w : Nat × List Byte}
    (hw : w ∈ ws) (s : State) : devRead (writeAll ws s) w.1 w.2.length = w.2 := by
  induction ws generalizing s with
  | nil => cases hw
  | cons x xs ih =>
    obtain ⟨hx, hxs⟩ := List.pairwise_cons.mp h
    obtain rfl | hw := List.mem_cons.mp hw
    · exact (devRead_writeAll_other (fun y hy => hx _ (List.mem_map_of_mem hy)) _).trans (devRead_devWrite_same w.1 w.2 s)
    · exact ih hxs hw _

theorem unitsOnly_writeAll (ws : List (Nat × List Byte)) (s : State) : UnitsOnly s (writeAll ws s) :=
  @UnitsOnly.foldl (Nat × List Byte) (g := fun t w => devWrite w.1 w.2 t) (fun t w => unitsOnly_devWrite w.1 w.2 t) ws s

theorem devPut_bytes (a n v : Nat) (s : State) : devPut a n v s = devWrite a (leBytes n v) s := rfl

theorem devRead_counterOpen {op : U32} {s : State} {b n : Nat} (h : ∀ a, counterAddr s op = some a → SpansApart (b, n) (a, 16)) :
    devRead (counterOpen op s) b n = devRead s b n := by
  unfold counterOpen
  split
  · rfl
  · next a ha =>
    split
    · rfl
    · exact devRead_devWrite_other a _ _ b n (by rw [leBytes_length]; exact h a ha)

/-- A tally changes an operation's entry of the counter table only. -/
theorem devRead_addTally {op : U32} {s : State} {b n : Nat} (h : ∀ a, counterAddr s op = some a → SpansApart (b, n) (a, 16))
    (t : Tally) : devRead (addTally op t s) b n = devRead s b n := by
  unfold addTally counterAdd
  split
  · rfl
  · next a ha =>
    exact (devRead_devWrite_other a _ _ b n (by rw [leBytes_length]; exact h a ha)).trans (devRead_counterOpen h)

theorem presentBit_congr {s t : State} {bitmap i : Nat} (h : devRead t (bitmap + i / 8) 1 = devRead s (bitmap + i / 8) 1) :
    presentBit t bitmap i = presentBit s bitmap i := by
  simp only [presentBit, devNat, h]

/-! ## The bits of a bitmap are cleared (R254, R259) -/

theorem clearBits_frame (bitmap tiles : Nat) (s : State) :
    clearBits bitmap tiles s = { s with hbm := { s.hbm with
      dev := (clearBits bitmap tiles s).hbm.dev, poison := (clearBits bitmap tiles s).hbm.poison } } :=
  (clearsDev_clearBits bitmap tiles s).frame

theorem devRead_clearBits_other {bitmap tiles b n : Nat} (h : b + n ≤ bitmap ∨ bitmap + ceilDiv tiles 8 ≤ b) (s : State) :
    devRead (clearBits bitmap tiles s) b n = devRead s b n := by
  have hbytes : tiles / 8 ≤ ceilDiv tiles 8 := by unfold ceilDiv; omega
  refine List.foldlRecOn (motive := fun t => devRead t b n = devRead s b n) _ _
    (devRead_devWrite_other _ _ s b n (by rw [List.length_replicate]; omega)) fun t ht k hk => ?_
  have hk' := (mem_upFrom _ _ k).mp hk
  have hbyte : k / 8 < ceilDiv tiles 8 := by unfold ceilDiv; omega
  exact (devRead_devWrite_other _ _ t b n (by rw [List.length_singleton]; omega)).trans ht

theorem endPart_ended (op : U32) (s : State) :
    SMap.get 0 (endPart op s).ended op.toNat = SMap.get 0 s.ended op.toNat + 1 := by
  simp only [endPart, SMap.set, Nat.succ_ne_zero, if_false]
  exact SMap.get_put_same ..

theorem endPart_over {s t : State} (ht : t = { s with hbm := { s.hbm with dev := t.hbm.dev, poison := t.hbm.poison } })
    {op : U32} :
    endPart op t = { s with
      hbm := { s.hbm with dev := (endPart op t).hbm.dev, poison := (endPart op t).hbm.poison }, ended := (endPart op t).ended } := by
  unfold endPart
  rw [ht]

/-! ## UPDATE_OPERATION (R257 to R259) -/

section
variable {s : State} {u : UpdateCmd} (hfault : updateFault s u = none) (hacts : acts s u.op = true)
  (hnew : findSweep s u.op = none)
include hfault hacts hnew

theorem exec_updateOperation_noRow (hrow : immRow s u.op = none) :
    exec (.updateOperation u) s = .next (stopJob Code.updNoRow u.op 0 s) := by
  change execUpdateOperation u s = _
  simp [execUpdateOperation, hfault, hacts, hnew, hrow]

variable {row : ImmRow} (hrow : immRow s u.op = some row)
include hrow

theorem exec_updateOperation_badRow (hok : rowOk row = false) :
    exec (.updateOperation u) s = .next (stopJob Code.updImmediate u.op 0 s) := by
  change execUpdateOperation u s = _
  simp [execUpdateOperation, hfault, hacts, hnew, hrow, hok]

variable (hok : rowOk row = true)
include hok

theorem exec_updateOperation_waits (h : updateWaits s u = true ∨ divisorOf s u.grad = none) :
    Waits (.updateOperation u) s := by
  change execUpdateOperation u s = _
  simp only [execUpdateOperation, hfault, hacts, hnew, hrow, hok, Option.isSome_none, not_true_eq_false, if_false,
    Bool.false_eq_true, or_self]
  obtain h | h := h
  · rw [h]
  · rw [h]
    cases updateWaits s u <;> rfl

theorem exec_updateOperation_goes {n : U32} (hwaits : updateWaits s u = false) (hn : divisorOf s u.grad = some n) :
    exec (.updateOperation u) s = .next (updateEffect u row n s) := by
  change execUpdateOperation u s = _
  simp [execUpdateOperation, hfault, hacts, hnew, hrow, hok, hwaits, hn]

end

/-! ## The first phase: pages open (R263, R313) -/

theorem putStamps_frame {α : Type} (page : α → Nat) (x : U64) (es : List α) (s : State) :
    es.foldl (fun t e => putStamp (page e) x t) s = { s with hbm := { s.hbm with
      stamps := (es.foldl (fun t e => putStamp (page e) x t) s).hbm.stamps } } := by
  induction es generalizing s with
  | nil => rfl
  | cons e es ih =>
    rw [List.foldl_cons, ih]
    rfl

/-- A sweep as an operation begins it. -/
def newSweep (s : State) (u : UpdateCmd) (row : ImmRow) (n : U32) : Sweep :=
  ⟨u, row, n, sweepPages u (presentTiles s u), [], [], false⟩

theorem sweepPages_closed {u : UpdateCmd} {tiles : List Nat} {p : SweepPage} (h : p ∈ sweepPages u tiles) :
    p.opened = false := by
  unfold sweepPages at h
  obtain ⟨q, -, rfl⟩ := List.mem_map.mp h
  rfl

theorem findSweep_none_any {s : State} {op : U32} (h : findSweep s op = none) :
    s.msu.sweeps.any (fun x => x.cmd.op == op) = false := by
  rw [List.any_eq_false]
  exact List.find?_eq_none.mp h

/-- The first phase opens each page that no refresh holds; each unit that has opened all it owns signals so. -/
theorem openInto_newSweep {s : State} {u : UpdateCmd} (row : ImmRow) (n : U32) (hnew : findSweep s u.op = none) :
    let t := openInto (newSweep s u row n) s
    ∃ x : Sweep, t = { s with
        hbm := { s.hbm with stamps := t.hbm.stamps }
        msu := { s.msu with sweeps := s.msu.sweeps ++ [x] }
        sent := s.sent ++ x.announced.map fun k => .send (.opened u.op k) } ∧
      x.cmd = u ∧ x.row = row ∧ x.n = n ∧ x.signals = [] ∧ x.started = false ∧
      x.pages.map SweepPage.page = (sweepPages u (presentTiles s u)).map SweepPage.page ∧
      (∀ q ∈ x.pages, q.opened = !refreshHolds s q.page ∧
        (q.opened = true → SMap.get 0 t.hbm.stamps q.page = s.status.step ||| 0x8000000000000000)) ∧
      ∀ k, k ∈ x.announced ↔ k < 12 ∧ ∀ q ∈ x.pages, q.page % 12 = k → q.opened = true := by
  intro t
  let ps := sweepPages u (presentTiles s u)
  let ready := ps.filter fun p => !p.opened && !refreshHolds s p.page
  let s1 := ready.foldl (fun t p => putStamp p.page (openStamp s.status.step) t) s
  let pages := ps.map fun p => if ready.contains p then { p with opened := true } else p
  let units := (upFrom 0 12).filter fun k =>
    !([] : List Nat).contains k && pages.all fun p => p.opened || !(p.page % 12 == k)
  have hframe : s1 = { s with hbm := { s.hbm with stamps := s1.hbm.stamps } } := putStamps_frame SweepPage.page _ ready s
  have hstamps (p : SweepPage) (hp : p ∈ ready) : SMap.get 0 s1.hbm.stamps p.page = openStamp s.status.step :=
    (get_foldl_putStamp (openStamp_ne_zero _) SweepPage.page ready p.page s).trans (if_pos (List.mem_map_of_mem hp))
  have hmsu : s1.msu = s.msu := by rw [hframe]
  have hmem (p : SweepPage) (hp : p ∈ ps) : p ∈ ready ↔ refreshHolds s p.page = false := by
    simp [ready, hp, sweepPages_closed hp]
  have ht : t = { s1 with
      msu := { s1.msu with sweeps := s.msu.sweeps ++ [⟨u, row, n, pages, units, [], false⟩] }
      sent := s1.sent ++ units.map fun k => .send (.opened u.op k) } := by
    change putSweep ⟨u, row, n, pages, [] ++ units, [], false⟩ (emitAll _ s1) = _
    have hany : s1.msu.sweeps.any (fun x => x.cmd.op == u.op) = false := hmsu ▸ findSweep_none_any hnew
    rw [putSweep]
    simp only [emitAll, hany, List.nil_append]
    rw [hmsu]
    rfl
  refine ⟨⟨u, row, n, pages, units, [], false⟩, ?_, rfl, rfl, rfl, rfl, rfl, ?_, fun q hq => ?_, fun k => ?_⟩
  · rw [ht, hframe]
  · rw [List.map_map]
    refine List.map_congr_left fun p _ => ?_
    dsimp only [Function.comp]
    split <;> rfl
  · obtain ⟨p, hp, rfl⟩ := List.mem_map.mp hq
    have hstamps' : t.hbm.stamps = s1.hbm.stamps := by rw [ht]
    by_cases hr : p ∈ ready
    · rw [if_pos (by simpa using hr)]
      exact ⟨by simp [(hmem p hp).mp hr], fun _ => hstamps' ▸ hstamps p hr⟩
    · rw [if_neg (by simpa using hr)]
      have hholds : refreshHolds s p.page = true := by simpa using mt (hmem p hp).mpr hr
      have hclosed := sweepPages_closed hp
      exact ⟨by simp [hholds, hclosed], fun h => absurd (hclosed.symm.trans h) nofun⟩
  · simp only [units, List.mem_filter, mem_upFrom, List.contains_nil, Bool.not_false, Bool.true_and, List.all_eq_true,
      Bool.or_eq_true, Bool.not_eq_true', beq_eq_false_iff_ne]
    refine and_congr (by omega) (forall_congr' fun q => forall_congr' fun _ => ?_)
    rw [or_iff_not_imp_right, not_not]

/-! ## A sweep in its run -/

theorem findSweep_putSweep {s : State} {op : U32} {w w' : Sweep} (hw : findSweep s op = some w)
    (hcmd : w'.cmd = w.cmd) : findSweep (putSweep w' s) op = some w' := by
  have hmem : w ∈ s.msu.sweeps := List.mem_of_find?_eq_some hw
  have hany : s.msu.sweeps.any (fun x => x.cmd.op == w'.cmd.op) = true :=
    List.any_eq_true.mpr ⟨w, hmem, by simp [hcmd]⟩
  have hsame : ((fun x : Sweep => x.cmd.op == op) ∘ fun x => if x.cmd.op = w'.cmd.op then w' else x) =
      fun x => x.cmd.op == op := by
    funext x
    dsimp only [Function.comp]
    split
    · next h => rw [h]
    · rfl
  have hsweeps : (putSweep w' s).msu.sweeps = s.msu.sweeps.map fun x => if x.cmd.op = w'.cmd.op then w' else x := if_pos hany
  unfold findSweep at hw ⊢
  rw [hsweeps, List.find?_map, hsame, hw, Option.map_some, hcmd, if_pos rfl]

theorem putSweep_frame (w : Sweep) (s : State) :
    putSweep w s = { s with msu := { s.msu with sweeps := (putSweep w s).msu.sweeps } } := rfl

theorem putSweep_hbm (w : Sweep) (s : State) : (putSweep w s).hbm = s.hbm := rfl

/-- The sweep with one more opened signal. -/
def signalled (w : Sweep) (k : Nat) : Sweep := { w with signals := w.signals ++ [k], started := w.signals.length == 11 }

section
variable {s : State} {op : U32} {w : Sweep} {unit : StackId} (hw : findSweep s op = some w) (hrun : inStep s = true)
include hw hrun

theorem exec_openedSignal_ignored (h : unit.val ∉ w.announced ∨ unit.val ∈ w.signals) :
    exec (.openedSignal op unit) s = .next s := by
  change execOpenedSignal op unit s = _
  simp only [execOpenedSignal, hw]
  rw [if_pos (by simpa [hrun] using h)]

variable (hknown : unit.val ∈ w.announced) (hnew : unit.val ∉ w.signals)
include hknown hnew

theorem exec_openedSignal_taken :
    exec (.openedSignal op unit) s = .next
      (if (signalled w unit.val).started ∧ sweepPoisoned s w.cmd then stall (.openedSignal op unit) s
        else if (signalled w unit.val).started then
          afterSweep (signalled w unit.val) (runSweep (signalled w unit.val) (putSweep (signalled w unit.val) s))
        else putSweep (signalled w unit.val) s) := by
  change execOpenedSignal op unit s = _
  simp only [execOpenedSignal, hw]
  rw [if_neg (by simp [hrun, hknown, hnew])]
  exact (apply_ite Host.Outcome.next _ _ _).symm

theorem openedSignal_collects (hlt : w.signals.length < 11) :
    Answers (.openedSignal op unit) s fun t =>
      t = { s with msu := { s.msu with sweeps := t.msu.sweeps } } ∧
      findSweep t op = some { w with signals := w.signals ++ [unit.val], started := false } := by
  have hfew : (signalled w unit.val).started = false := by simp [signalled]; omega
  refine ⟨putSweep (signalled w unit.val) s, ?_, rfl, ?_⟩
  · rw [exec_openedSignal_taken hw hrun hknown hnew, hfew, if_neg (by simp), if_neg (by simp)]
  · rw [findSweep_putSweep (w' := signalled w unit.val) hw rfl, ← hfew]
    rfl

theorem openedSignal_waits (hlen : w.signals.length = 11) (hpoison : sweepPoisoned s w.cmd = true) :
    Waits (.openedSignal op unit) s := by
  have hall : (signalled w unit.val).started = true := by simp [signalled, hlen]
  rw [Waits, exec_openedSignal_taken hw hrun hknown hnew, if_pos ⟨hall, hpoison⟩]

theorem exec_openedSignal_sweeps (hlen : w.signals.length = 11) (hclean : sweepPoisoned s w.cmd = false) :
    exec (.openedSignal op unit) s = .next
      (afterSweep (signalled w unit.val) (runSweep (signalled w unit.val) (putSweep (signalled w unit.val) s))) := by
  have hall : (signalled w unit.val).started = true := by simp [signalled, hlen]
  rw [exec_openedSignal_taken hw hrun hknown hnew, hall, if_neg (by simp [hclean]), if_pos rfl]

end

/-! ## A tile is swept (R260, R261) -/

theorem bytesOf32_length (xs : List U32) : (bytesOf32 xs).length = 4 * xs.length := by
  induction xs with
  | nil => rfl
  | cons x xs ih =>
    have : bytesOf32 (x :: xs) = leBytes 4 x.toNat ++ bytesOf32 xs := rfl
    rw [this, List.length_append, leBytes_length, ih, List.length_cons]
    omega

theorem devU32s_length (s : State) (a n : Nat) : (devU32s s a n).length = n := by
  rw [devU32s, List.length_map, upFrom_length]

theorem tileParams_length (s : State) (u : UpdateCmd) (row : ImmRow) (n : U32) (i : Nat) (c : U32) :
    (tileParams s u row n i c).length = 1024 := by
  have hgrads : (tileGrads s u i).length = 1024 := by
    unfold tileGrads
    split
    · rw [List.length_map, upFrom_length]
    · exact devU32s_length _ _ _
  simp only [tileParams, List.length_zipWith, List.length_zip, hgrads, devU32s_length, Nat.min_self]

theorem tileParams_congr {s t : State} (h : t.hbm = s.hbm) (u : UpdateCmd) (row : ImmRow) (n : U32) (i : Nat) (c : U32) :
    tileParams t u row n i c = tileParams s u row n i c := by
  simp only [tileParams, tileGrads, devU32s, devNat, devRead, h]

theorem presentTiles_congr {s t : State} (h : t.hbm = s.hbm) (u : UpdateCmd) : presentTiles t u = presentTiles s u := by
  have hbit : presentBit t u.bitmap = presentBit s u.bitmap := by
    funext i
    simp only [presentBit, devNat, devRead, h]
  rw [presentTiles, presentTiles, hbit]

theorem length_flatten_codes {cs : List Cvt} (n : Nat) : ((cs.map fun c => leBytes n c.code).flatten).length = n * cs.length := by
  induction cs with
  | nil => rfl
  | cons c cs ih => rw [List.map_cons, List.flatten_cons, List.length_append, leBytes_length, ih, List.length_cons]; ring

/-- A BF16 working copy has two bytes for each parameter. -/
theorem workBytes_length {w : WorkCopy} (hfmt : w.fmt = .bf16) {ps : List U32} (hps : ps.length ≤ 1024) :
    (workBytes w ps).1.length = 2 * ps.length := by
  have hplain : isFp8 w.fmt = false := by rw [hfmt]; rfl
  simp only [workBytes, outBytes, hplain, Bool.false_eq_true, if_false]
  rw [length_flatten_codes, hfmt, List.length_zipWith, List.length_map, List.length_replicate, Nat.min_eq_left hps]
  rfl

/-- What the sweep of a tile writes, with a BF16 working copy: its counter, its values and the byte of its presence bit. -/
def tileWrites (u : UpdateCmd) (i : Nat) (c : U32) (ps : List Param) (bits : Byte) : List (Nat × List Byte) :=
  [(u.t + 4 * i, leBytes 4 c.toNat), (u.m + 4096 * i, bytesOf32 (ps.map Param.m)), (u.v + 4096 * i, bytesOf32 (ps.map Param.v)),
    (u.p + 4096 * i, bytesOf32 (ps.map Param.p)), (u.work.addr + 2048 * i, (workBytes u.work (ps.map Param.p)).1),
    (u.bitmap + i / 8, [bits])]

theorem tileWrites_spans {u : UpdateCmd} (hfmt : u.work.fmt = .bf16) (i : Nat) (c : U32) {ps : List Param}
    (hps : ps.length = 1024) (bits : Byte) :
    (tileWrites u i c ps bits).map writeSpan =
      [(u.t + 4 * i, 4), (u.m + 4096 * i, 4096), (u.v + 4096 * i, 4096), (u.p + 4096 * i, 4096),
        (u.work.addr + 2048 * i, 2048), (u.bitmap + i / 8, 1)] := by
  have hwork : (workBytes u.work (ps.map Param.p)).1.length = 2048 := by
    rw [workBytes_length hfmt (by rw [List.length_map, hps]), List.length_map, hps]
  simp only [tileWrites, writeSpan, List.map_cons, List.map_nil, leBytes_length, bytesOf32_length, List.length_map, hps, hwork,
    List.length_cons, List.length_nil]

/-- The writes of a tile's sweep, whose next count and new parameters are `c` and `ps`. -/
def sweepWith (u : UpdateCmd) (i : Nat) (c : U32) (ps : List Param) (s : State) : State :=
  let (wb, we, tally) := workBytes u.work (ps.map Param.p)
  let s1 := devWrite (u.t + 4 * i) (leBytes 4 c.toNat) s
  let s2 := devWrite (u.m + 4096 * i) (bytesOf32 (ps.map Param.m)) s1
  let s3 := devWrite (u.v + 4096 * i) (bytesOf32 (ps.map Param.v)) s2
  let s4 := devWrite (u.p + 4096 * i) (bytesOf32 (ps.map Param.p)) s3
  let s5 := devWrite (u.work.addr + 1024 * fmtBytes u.work.fmt * i) wb s4
  let s6 := if work8 u then devWrite (u.work.exps + 32 * i) we s5 else s5
  addTally u.op tally (putPresent u.bitmap false i s6)

theorem sweepTile_eq (u : UpdateCmd) (row : ImmRow) (n : U32) (i : Nat) (s : State) :
    let c := nextCount (BitVec.ofNat 32 (devNat s (u.t + 4 * i) 4))
    sweepTile u row n i s = sweepWith u i c (tileParams s u row n i c) s := rfl

theorem sweepWith_writes {u : UpdateCmd} (hfmt : u.work.fmt = .bf16) (i : Nat) (c : U32) (ps : List Param) (s : State) :
    ∃ bits tally, bitAt bits (i % 8) = false ∧
      sweepWith u i c ps s = addTally u.op tally (writeAll (tileWrites u i c ps bits) s) := by
  have hplain : work8 u = false := by rw [work8, hfmt]; rfl
  have haddr : u.work.addr + 1024 * fmtBytes u.work.fmt * i = u.work.addr + 2048 * i := by rw [hfmt]; rfl
  have hsweep : sweepWith u i c ps s = addTally u.op (workBytes u.work (ps.map Param.p)).2.2
      (putPresent u.bitmap false i (writeAll ((tileWrites u i c ps 0).take 5) s)) := by
    unfold sweepWith
    dsimp only
    rw [hplain, if_neg (by simp), haddr]
    rfl
  exact ⟨_, _, bitAt_setBit_same _ _ _ (Nat.mod_lt i (by decide)), hsweep⟩

section
variable {u : UpdateCmd} (hfmt : u.work.fmt = .bf16) (i : Nat) (s : State)
  (hapart : List.Pairwise SpansApart
    ([(u.t + 4 * i, 4), (u.m + 4096 * i, 4096), (u.v + 4096 * i, 4096), (u.p + 4096 * i, 4096),
      (u.work.addr + 2048 * i, 2048), (u.bitmap + i / 8, 1)] ++ (counterAddr s u.op).toList.map fun a => (a, 16)))
include hfmt hapart

/-- A tile's counter, values, working copy and presence bit are those of the update rule. -/
theorem sweepWith_shows (c : U32) {ps : List Param} (hps : ps.length = 1024) :
    let t := sweepWith u i c ps s
    UnitsOnly s t ∧ devNat t (u.t + 4 * i) 4 = c.toNat ∧
    devRead t (u.m + 4096 * i) (4 * ps.length) = bytesOf32 (ps.map Param.m) ∧
    devRead t (u.v + 4096 * i) (4 * ps.length) = bytesOf32 (ps.map Param.v) ∧
    devRead t (u.p + 4096 * i) (4 * ps.length) = bytesOf32 (ps.map Param.p) ∧
    devRead t (u.work.addr + 2048 * i) (2 * ps.length) = (workBytes u.work (ps.map Param.p)).1 ∧
    presentBit t u.bitmap i = false := by
  intro t
  obtain ⟨bits, tally, hbit, ht⟩ := sweepWith_writes hfmt i c ps s
  change t = _ at ht
  have hspans := tileWrites_spans hfmt i c hps bits
  obtain ⟨hwrites, -, hcounter⟩ := List.pairwise_append.mp hapart
  rw [← hspans] at hwrites hcounter
  have hread (w : Nat × List Byte) (hw : w ∈ tileWrites u i c ps bits) : devRead t w.1 w.2.length = w.2 := by
    rw [ht, devRead_addTally ?_, devRead_writeAll hwrites hw]
    intro a ha
    have haddr : counterAddr s u.op = some a := by
      rw [← ha, counterAddr, counterAddr, (unitsOnly_writeAll _ s).keeps.1]
    exact hcounter _ (List.mem_map_of_mem hw) (a, 16) (by simp [haddr])
  have hwork : (workBytes u.work (ps.map Param.p)).1.length = 2 * ps.length := by
    rw [workBytes_length hfmt (by rw [List.length_map, hps]), List.length_map]
  have hvalues (f : Param → U32) : (bytesOf32 (ps.map f)).length = 4 * ps.length := by rw [bytesOf32_length, List.length_map]
  have hcount := hread (u.t + 4 * i, leBytes 4 c.toNat) (by simp [tileWrites])
  have hm := hread (u.m + 4096 * i, bytesOf32 (ps.map Param.m)) (by simp [tileWrites])
  have hv := hread (u.v + 4096 * i, bytesOf32 (ps.map Param.v)) (by simp [tileWrites])
  have hp := hread (u.p + 4096 * i, bytesOf32 (ps.map Param.p)) (by simp [tileWrites])
  have hcopy := hread (u.work.addr + 2048 * i, (workBytes u.work (ps.map Param.p)).1) (by simp [tileWrites])
  have hbits := hread (u.bitmap + i / 8, [bits]) (by simp [tileWrites])
  dsimp only at hcount hm hv hp hcopy hbits
  rw [leBytes_length] at hcount
  rw [hvalues] at hm hv hp
  rw [hwork] at hcopy
  refine ⟨?_, ?_, hm, hv, hp, hcopy, ?_⟩
  · rw [ht]
    exact (unitsOnly_writeAll _ s).trans (unitsOnly_addTally _ _ _)
  · rw [devNat, hcount, ofLe_leBytes]
    exact Nat.mod_eq_of_lt c.isLt
  · have hbyte : Mem.get 0 t.hbm.dev (u.bitmap + i / 8) = bits := by simpa [devRead, Mem.read] using hbits
    rw [presentBit_eq, hbyte]
    exact hbit

end

/-! ## A page is closed (R263, R326) -/

/-- The sweep with the done signal of one more unit for a page. -/
def signedOff (w : Sweep) (p : SweepPage) (k : Nat) : Sweep :=
  { w with pages := w.pages.map fun q =>
    if q.page = p.page then { p with done := p.done ++ [k], closed := p.done.length + 1 == p.units.length } else q }

section
variable {s : State} {op : U32} {w : Sweep} {unit : StackId} {p : SweepPage} (hw : findSweep s op = some w)
  (hrun : inStep s = true) (hstarted : w.started = true) (hp : w.pages.find? (fun q => q.page == p.page) = some p)
  (hunit : unit.val ∈ p.units) (hnew : unit.val ∉ p.done)
include hw hrun hstarted hp hunit hnew

theorem exec_pageDoneSignal :
    exec (.pageDoneSignal op p.page unit) s = .next
      (if p.done.length + 1 = p.units.length then
        afterSweep (signedOff w p unit.val) (closePage p.page (putSweep (signedOff w p unit.val) s))
      else putSweep (signedOff w p unit.val) s) := by
  change execPageDoneSignal op p.page unit s = _
  simp only [execPageDoneSignal, hw, hp]
  rw [if_neg (by simp [hrun, hstarted, hunit, hnew])]
  refine congrArg Host.Outcome.next ?_
  simp only [beq_iff_eq]
  rfl

end

theorem unitsOnly_afterSweep (w : Sweep) (s : State) : UnitsOnly s (afterSweep w s) := by
  unfold afterSweep
  split
  · exact unitsOnly_endPart _ s
  · exact .refl s

theorem afterSweep_hbm (w : Sweep) (s : State) : (afterSweep w s).hbm = s.hbm ∧ (afterSweep w s).msu = s.msu := by
  unfold afterSweep
  split <;> exact ⟨rfl, rfl⟩

theorem closeStamp_frame (page : Nat) (s : State) :
    closeStamp page s = { s with
      hbm := { s.hbm with stamps := (closeStamp page s).hbm.stamps }, recovery := (closeStamp page s).recovery } := by
  unfold closeStamp
  dsimp only
  split <;> rfl

theorem closePage_frame (page : Nat) (s : State) :
    closePage page s = { closeStamp page s with msu := (closePage page s).msu } := by
  unfold closePage
  dsimp only
  split <;> rfl

theorem closes_trans {s c t : State}
    (hc : c = { s with hbm := { s.hbm with stamps := c.hbm.stamps }, recovery := c.recovery })
    (ht : t = { c with msu := t.msu }) :
    t = { s with hbm := { s.hbm with stamps := t.hbm.stamps }, msu := t.msu, recovery := t.recovery } := by
  rw [ht, hc]

/-- The stamp of a page is closed with the running step, and no other page's; several rinks form its CRC. -/
theorem closePage_closes (page : Nat) {s : State} (hwf : SMap.wf 0 s.hbm.stamps = true) :
    let t := closePage page s
    t = { s with hbm := { s.hbm with stamps := t.hbm.stamps }, msu := t.msu, recovery := t.recovery } ∧
    SMap.get 0 t.hbm.stamps page = s.status.step ∧
    (∀ q, q ≠ page → SMap.get 0 t.hbm.stamps q = SMap.get 0 s.hbm.stamps q) ∧
    (siteSeveral s.site = true → SMap.get 0 t.msu.pageCrcs page = crc32c (devRead s (65536 * page) 65536)) := by
  intro t
  have hstamps : t.hbm.stamps = SMap.set 0 s.hbm.stamps page s.status.step := by
    change (closePage page s).hbm.stamps = _
    unfold closePage closeStamp
    dsimp only
    split <;> split <;> rfl
  refine ⟨?_, ?_, fun q hq => ?_, fun hseveral => ?_⟩
  · exact closes_trans (closeStamp_frame page s) (closePage_frame page s)
  · rw [hstamps]
    exact SMap.get_set_same 0 _ _ _ hwf
  · rw [hstamps]
    exact SMap.get_set_other 0 _ _ _ _ hq hwf
  · change SMap.get 0 (closePage page s).msu.pageCrcs page = _
    unfold closePage
    rw [if_pos hseveral]
    exact SMap.get_put_same ..

/-- The one present tile of a sweep in its run: what the statement says of it, in terms of the state before. -/
theorem runSweep_one {s : State} {w : Sweep} {k i : Nat} (htiles : presentTiles s w.cmd = [i]) :
    let w1 := signalled w k
    runSweep w1 (putSweep w1 s) = emitAll ((w.pages.map fun p => p.units.map fun k => Out.send (.pageDone w.cmd.op p.page k)).flatten)
      (sweepTile w.cmd w.row w.n i (putSweep w1 s)) := by
  intro w1
  have htiles' : presentTiles (putSweep w1 s) w1.cmd = [i] := (presentTiles_congr (putSweep_hbm w1 s) w.cmd).trans htiles
  rw [runSweep, htiles']
  rfl

theorem openedSignal_sweeps {s : State} {op : U32} {w : Sweep} {unit : StackId} {i : Nat} (hw : findSweep s op = some w)
    (hop : w.cmd.op = op) (hrun : inStep s = true) (hknown : unit.val ∈ w.announced) (hnew : unit.val ∉ w.signals)
    (hlen : w.signals.length = 11) (htiles : presentTiles s w.cmd = [i]) (hclean : sweepPoisoned s w.cmd = false)
    (hfmt : w.cmd.work.fmt = .bf16)
    (hapart : List.Pairwise SpansApart
      ([(w.cmd.t + 4 * i, 4), (w.cmd.m + 4096 * i, 4096), (w.cmd.v + 4096 * i, 4096), (w.cmd.p + 4096 * i, 4096),
        (w.cmd.work.addr + 2048 * i, 2048), (w.cmd.bitmap + i / 8, 1)] ++
        (counterAddr s op).toList.map fun a => (a, 16))) :
    Answers (.openedSignal op unit) s fun t =>
      let c := nextCount (BitVec.ofNat 32 (devNat s (w.cmd.t + 4 * i) 4))
      let ps := tileParams s w.cmd w.row w.n i c
      devNat t (w.cmd.t + 4 * i) 4 = c.toNat ∧
      devRead t (w.cmd.m + 4096 * i) (4 * ps.length) = bytesOf32 (ps.map Param.m) ∧
      devRead t (w.cmd.v + 4096 * i) (4 * ps.length) = bytesOf32 (ps.map Param.v) ∧
      devRead t (w.cmd.p + 4096 * i) (4 * ps.length) = bytesOf32 (ps.map Param.p) ∧
      devRead t (w.cmd.work.addr + 2048 * i) (2 * ps.length) = (workBytes w.cmd.work (ps.map Param.p)).1 ∧
      presentBit t w.cmd.bitmap i = false ∧ t.job = s.job ∧ t.cores = s.cores ∧
      t.sent = s.sent ++ (w.pages.map fun q => q.units.map fun k => Out.send (.pageDone op q.page k)).flatten := by
  subst hop
  let u := putSweep (signalled w unit.val) s
  have hhbm : u.hbm = s.hbm := rfl
  have hparams : tileParams u w.cmd w.row w.n i = tileParams s w.cmd w.row w.n i :=
    funext fun c => tileParams_congr hhbm w.cmd w.row w.n i c
  have hcount : devNat u (w.cmd.t + 4 * i) 4 = devNat s (w.cmd.t + 4 * i) 4 := by simp only [devNat, devRead, hhbm]
  refine ⟨_, exec_openedSignal_sweeps hw hrun hknown hnew hlen hclean, ?_⟩
  rw [runSweep_one htiles, sweepTile_eq]
  dsimp only
  rw [hparams, hcount]
  generalize nextCount (BitVec.ofNat 32 (devNat s (w.cmd.t + 4 * i) 4)) = c
  have hps := tileParams_length s w.cmd w.row w.n i c
  generalize tileParams s w.cmd w.row w.n i c = ps at hps ⊢
  obtain ⟨hunits, hc, hm, hv, hp, hcopy, hbit⟩ := sweepWith_shows hfmt i u hapart c hps
  obtain ⟨hjob, -, -, hcores, hsent, -⟩ := hunits.keeps
  generalize sweepWith w.cmd i c ps u = v at *
  let out := (w.pages.map fun p => p.units.map fun k => Out.send (.pageDone w.cmd.op p.page k)).flatten
  have hafter := unitsOnly_afterSweep (signalled w unit.val) (emitAll out v)
  obtain ⟨hjob', -, -, hcores', hsent', -⟩ := hafter.keeps
  have hsame : (afterSweep (signalled w unit.val) (emitAll out v)).hbm = v.hbm := (afterSweep_hbm _ _).1
  have hread (a n : Nat) : devRead (afterSweep (signalled w unit.val) (emitAll out v)) a n = devRead v a n := by
    rw [devRead, hsame, devRead]
  refine ⟨?_, (hread _ _).trans hm, (hread _ _).trans hv, (hread _ _).trans hp, (hread _ _).trans hcopy,
    (presentBit_congr (hread _ _)).trans hbit, hjob'.trans hjob, hcores'.trans hcores, hsent'.trans ?_⟩
  · rw [devNat, hread]
    exact hc
  · change v.sent ++ out = _
    rw [hsent]
    rfl

theorem afterSweep_frame (w : Sweep) (s : State) : afterSweep w s = { s with ended := (afterSweep w s).ended } := by
  unfold afterSweep
  split <;> rfl

theorem ends_closed {s u t : State}
    (hu : u = { s with hbm := { s.hbm with stamps := u.hbm.stamps }, msu := u.msu, recovery := u.recovery })
    (ht : t = { u with ended := t.ended }) :
    t = { s with hbm := { s.hbm with stamps := t.hbm.stamps }, msu := t.msu, recovery := t.recovery, ended := t.ended } := by
  rw [ht, hu]

/-- The sweep that signs a page off, closes it and may be over. -/
theorem closed_page {s : State} {w : Sweep} {page : Nat} (hwf : SMap.wf 0 s.hbm.stamps = true) :
    let t := afterSweep w (closePage page (putSweep w s))
    t = { s with hbm := { s.hbm with stamps := t.hbm.stamps }, msu := t.msu, recovery := t.recovery, ended := t.ended } ∧
    SMap.get 0 t.hbm.stamps page = s.status.step ∧
    (∀ q, q ≠ page → SMap.get 0 t.hbm.stamps q = SMap.get 0 s.hbm.stamps q) ∧
    (siteSeveral s.site = true → SMap.get 0 t.msu.pageCrcs page = crc32c (devRead s (65536 * page) 65536)) := by
  intro t
  obtain ⟨hframe, hclosed, hothers, hcrc⟩ := closePage_closes page (s := putSweep w s) hwf
  obtain ⟨hhbm, hmsu⟩ := afterSweep_hbm w (closePage page (putSweep w s))
  refine ⟨?_, ?_, fun q hq => ?_, fun hseveral => ?_⟩
  · exact ends_closed hframe (afterSweep_frame w _)
  · rw [hhbm]
    exact hclosed
  · rw [hhbm]
    exact hothers q hq
  · rw [hmsu]
    exact hcrc hseveral

/-- Settles O44: the sweep's pages are opened, its tiles swept once all units have signalled, and each page closed once. -/
theorem updateSweepsInThreePhases : Obligations.UpdateSweepsInThreePhases := by
  unfold Obligations.UpdateSweepsInThreePhases
  intro s u row w unit op p
  refine ⟨fun k hk => ?_, fun hfault hacts hnew => ⟨fun hrow => ?_, fun hrow hok => ?_, fun hrow hok hwaits => ?_,
    fun hrow hok hclean hn => ?_, fun n hrow hok hclean hn hn0 => ?_⟩, fun hw hop hrun => ⟨fun h => ?_,
    fun hknown hfresh hlt => ?_, fun hknown hfresh hlen hpoison => ?_,
    fun i hknown hfresh hlen htiles hclean hfmt hapart => ?_⟩, fun hw hop hrun hstarted hp hunit hdone hwf => ⟨fun hlen => ?_,
    fun hlen => ?_⟩⟩
  · change execUpdateOperation u s = _
    unfold execUpdateOperation
    rw [hk]
  · obtain ⟨j, hj, -⟩ := inStep_of_acts hacts
    exact ⟨_, exec_updateOperation_noRow hfault hacts hnew hrow, stopJob_ends _ _ _ s j hj rfl, by simp⟩
  · obtain ⟨j, hj, -⟩ := inStep_of_acts hacts
    exact ⟨_, exec_updateOperation_badRow hfault hacts hnew hrow hok, stopJob_ends _ _ _ s j hj rfl, by simp⟩
  · exact exec_updateOperation_waits hfault hacts hnew hrow hok hwaits
  · refine ⟨_, exec_updateOperation_goes hfault hacts hnew hrow hok hclean hn, ?_⟩
    rw [updateEffect, if_pos rfl]
    refine ⟨?_, (endPart_ended _ _).trans (by rw [clearBits_frame]), fun i hi => presentBit_clearBits _ _ i hi s,
      fun b n hb => devRead_clearBits_other hb s⟩
    exact endPart_over (clearBits_frame u.bitmap u.tiles s)
  · refine ⟨_, exec_updateOperation_goes hfault hacts hnew hrow hok hclean hn, ?_⟩
    rw [updateEffect, if_neg hn0]
    exact openInto_newSweep row n hnew
  · exact exec_openedSignal_ignored hw hrun h
  · exact openedSignal_collects hw hrun hknown hfresh hlt
  · exact openedSignal_waits hw hrun hknown hfresh hlen hpoison
  · exact openedSignal_sweeps hw hop hrun hknown hfresh hlen htiles hclean hfmt hapart
  · refine ⟨_, exec_pageDoneSignal hw hrun hstarted hp hunit hdone, ?_⟩
    rw [if_neg hlen]
    rfl
  · refine ⟨_, exec_pageDoneSignal hw hrun hstarted hp hunit hdone, ?_⟩
    rw [if_pos hlen]
    exact closed_page hwf

end Sys2Proof.Machine
end

section
/-! Pages restored from their tandem copies, and the settling of every STATE page (O46). -/

namespace Sys2Proof.Machine

/-! ## Stamps (R263) -/

theorem toNat_lt_of_closed {x : U64} (h : bitAt x 63 = false) : x.toNat < 2 ^ 63 := by
  have hbit : x.toNat.testBit 63 = false := h
  rw [Nat.testBit_eq_decide_div_mod_eq, decide_eq_false_iff_not] at hbit
  have := x.isLt
  omega

theorem stampStep_of_closed {x : U64} (h : bitAt x 63 = false) : stampStep x = x.toNat :=
  Nat.mod_eq_of_lt (toNat_lt_of_closed h)

/-- A stamp is closed, at or below the commit word. -/
def StampCommitted (s : State) (x : U64) : Prop := bitAt x 63 = false ∧ x.toNat ≤ s.hbm.commitWord.toNat

theorem stampOk_iff (s : State) (x : U64) :
    (!stampOpen x && decide (stampStep x ≤ s.hbm.commitWord.toNat)) = true ↔ StampCommitted s x := by
  rw [Bool.and_eq_true, Bool.not_eq_true', decide_eq_true_iff]
  exact and_congr_right fun h => by rw [stampStep_of_closed h]

section
variable {s : State} {page : Nat} (hnew : page ∉ s.recovery.swept)
include hnew

theorem settleAct_committed {loc : U64} (tan : U64) (hloc : StampCommitted s loc) :
    settleAct s page loc tan =
      if loc = tan then .keep else if stampOpen tan ∨ stampStep tan < loc.toNat then .refresh else .bad := by
  have hswept : s.recovery.swept.contains page = false := by simpa using hnew
  have hok := (stampOk_iff s loc).mpr hloc
  unfold settleAct
  dsimp only
  rw [hok, hswept, stampStep_of_closed hloc.1]
  simp

omit hnew in
theorem settleAct_uncommitted {loc : U64} (tan : U64) (hloc : ¬ StampCommitted s loc) :
    settleAct s page loc tan = if !stampOpen tan && decide (stampStep tan ≤ s.hbm.commitWord.toNat) then .restore else .bad := by
  have hbad : (!stampOpen loc && decide (stampStep loc ≤ s.hbm.commitWord.toNat)) = false :=
    Bool.eq_false_iff.mpr (mt (stampOk_iff s loc).mp hloc)
  unfold settleAct
  dsimp only
  rw [hbad]
  simp

/-- The table of R315. -/
theorem settleAct_table (loc tan : U64) :
    (StampCommitted s loc → tan = loc → settleAct s page loc tan = .keep) ∧
    (StampCommitted s loc → bitAt tan 63 = true ∨ (bitAt tan 63 = false ∧ tan.toNat < loc.toNat) →
      settleAct s page loc tan = .refresh) ∧
    (¬ StampCommitted s loc → StampCommitted s tan → settleAct s page loc tan = .restore) ∧
    (¬ StampCommitted s loc → ¬ StampCommitted s tan → settleAct s page loc tan = .bad) ∧
    (StampCommitted s loc → bitAt tan 63 = false → loc.toNat < tan.toNat → settleAct s page loc tan = .bad) := by
  refine ⟨fun hloc heq => ?_, fun hloc hold => ?_, fun hloc htan => ?_, fun hloc htan => ?_, fun hloc hclosed hlt => ?_⟩
  · rw [settleAct_committed hnew tan hloc, if_pos heq.symm]
  · have hne : loc ≠ tan := by
      rintro rfl
      obtain h | ⟨-, h⟩ := hold
      · exact absurd (hloc.1.symm.trans h) nofun
      · exact absurd h (Nat.lt_irrefl _)
    have holder : stampOpen tan = true ∨ stampStep tan < loc.toNat :=
      hold.imp_right fun ⟨hclosed, hlt⟩ => (stampStep_of_closed hclosed).symm ▸ hlt
    rw [settleAct_committed hnew tan hloc, if_neg hne, if_pos holder]
  · rw [settleAct_uncommitted tan hloc, if_pos ((stampOk_iff s tan).mpr htan)]
  · rw [settleAct_uncommitted tan hloc, if_neg (mt (stampOk_iff s tan).mp htan)]
  · have hne : loc ≠ tan := by
      rintro rfl
      exact absurd hlt (Nat.lt_irrefl _)
    have hnewer : ¬ (stampOpen tan = true ∨ stampStep tan < loc.toNat) := by
      rintro (h | h)
      · exact absurd (hclosed.symm.trans h) nofun
      · rw [stampStep_of_closed hclosed] at h
        omega
    rw [settleAct_committed hnew tan hloc, if_neg hne, if_neg hnewer]

end

/-! ## The pages of a job (R310) -/

theorem insertNat_rising {xs : List Nat} (h : xs.Pairwise (· < ·)) (n : Nat) : (insertNat xs n).Pairwise (· < ·) := by
  induction xs with
  | nil => exact List.pairwise_singleton _ _
  | cons x xs ih =>
    obtain ⟨hx, hxs⟩ := List.pairwise_cons.mp h
    unfold insertNat
    split_ifs with hlt heq
    · refine List.pairwise_cons.mpr ⟨fun y hy => ?_, h⟩
      obtain rfl | hy := List.mem_cons.mp hy
      · exact hlt
      · exact hlt.trans (hx y hy)
    · exact h
    · refine List.pairwise_cons.mpr ⟨fun y hy => ?_, ih hxs⟩
      obtain hy | rfl := (mem_insertNat xs n y).mp hy
      · exact hx y hy
      · omega

theorem statePages_nodup (img : Image) : (statePages img).Nodup := by
  have hrising : (statePages img).Pairwise (· < ·) :=
    List.foldlRecOn (motive := fun xs : List Nat => xs.Pairwise (· < ·)) _ _ List.Pairwise.nil
      fun xs hxs n _ => insertNat_rising hxs n
  exact hrising.imp fun h => Nat.ne_of_lt h

theorem numbered_snd (ps : List Nat) (j : Nat) : (numbered j ps).map Prod.snd = ps := by
  induction ps generalizing j with
  | nil => rfl
  | cons p ps ih => rw [numbered, List.map_cons, ih]

theorem jobPages_nodup (s : State) : ((jobPages s).map Prod.snd).Nodup := by
  unfold jobPages
  split
  · exact List.nodup_nil
  · rw [numbered_snd]
    exact statePages_nodup _

/-! ## One page is restored (R315, R329) -/

theorem restorePage_frame (page : Nat) (p : PageIn) (s : State) :
    restorePage page p s = { s with hbm := { s.hbm with
      dev := (restorePage page p s).hbm.dev, poison := (restorePage page p s).hbm.poison
      stamps := SMap.set 0 s.hbm.stamps page p.stamp } } := rfl

theorem devRead_restorePage_same (page : Nat) {p : PageIn} (hlen : p.bytes.length = 65536) (s : State) :
    devRead (restorePage page p s) (65536 * page) 65536 = p.bytes := by
  have htake : p.bytes.take 65536 = p.bytes := List.take_of_length_le (Nat.le_of_eq hlen)
  have h := devRead_devWrite_same (65536 * page) p.bytes s
  rw [hlen] at h
  unfold restorePage
  rw [htake]
  exact h

theorem devRead_restorePage_other {page q : Nat} (h : q ≠ page) (p : PageIn) (s : State) :
    devRead (restorePage page p s) (65536 * q) 65536 = devRead s (65536 * q) 65536 :=
  devRead_devWrite_other (65536 * page) (p.bytes.take 65536) s (65536 * q) 65536 (by rw [List.length_take]; omega)

/-- What restoring pages changes: their bytes and stamps, and the status record. -/
def Restores (s t : State) : Prop :=
  t = { s with hbm := { s.hbm with dev := t.hbm.dev, poison := t.hbm.poison, stamps := t.hbm.stamps }
               status := t.status, hostMem := t.hostMem }

theorem Restores.refl (s : State) : Restores s s := rfl

theorem Restores.trans {s t u : State} (h : Restores s t) (h' : Restores t u) : Restores s u := by
  unfold Restores at *
  rw [h', h]

theorem restores_settleRestore (page : Nat) (p : PageIn) (s : State) : Restores s (settleRestore page p s) := by
  unfold settleRestore
  rw [postEvent_eq]
  rfl

theorem settleRestore_hbm (page : Nat) (p : PageIn) (s : State) :
    (settleRestore page p s).hbm = (restorePage page p s).hbm := by
  unfold settleRestore
  simp [withCounts]

theorem settleRestore_events (page : Nat) (p : PageIn) (s : State) :
    (settleRestore page p s).status.eventCount = s.status.eventCount + 1 := by
  unfold settleRestore
  rw [(postEvent_status _ _ _ _ _).2]
  rfl

/-! ## Every page is settled (R315) -/

/-- The action for a page of the job in a state. -/
def actOf (stamps : List (Nat × U64)) (s : State) (e : Nat × Nat) : Settle :=
  settleAct s e.2 (SMap.get 0 s.hbm.stamps e.2) (stampIn stamps e.1)

/-- One page is settled. -/
def settleOne (stamps : List (Nat × U64)) (copies : List PageIn) (s : State) (e : Nat × Nat) : State :=
  match actOf stamps s e with
  | .refresh => sendPages [e] s
  | .restore =>
    (match restoredIn copies e.1 with
      | some p => settleRestore e.2 ⟨e.1, stampIn stamps e.1, p.bytes⟩ s
      | none => s)
  | .keep => s
  | .bad => s

theorem settlePages_eq_foldl (stamps : List (Nat × U64)) (copies : List PageIn) (es : List (Nat × Nat)) (s : State) :
    settlePages stamps copies es s = es.foldl (settleOne stamps copies) s := by
  induction es generalizing s with
  | nil => rfl
  | cons e es ih => exact ih _

/-- What settling changes: bytes and stamps of pages, what waits for acknowledgement, the status record and what is sent. -/
def SettleFrame (s t : State) : Prop :=
  t = { s with hbm := { s.hbm with dev := t.hbm.dev, poison := t.hbm.poison, stamps := t.hbm.stamps }
               recovery := { s.recovery with unacked := t.recovery.unacked }
               status := t.status, hostMem := t.hostMem, sent := t.sent }

theorem SettleFrame.trans {s t u : State} (h : SettleFrame s t) (h' : SettleFrame t u) : SettleFrame s u := by
  unfold SettleFrame at *
  rw [h', h]

theorem settleFrame_of_restores {s t : State} (h : Restores s t) : SettleFrame s t := by
  unfold Restores at h
  unfold SettleFrame
  rw [h]

theorem settleFrame_sendPages (es : List (Nat × Nat)) (s : State) : SettleFrame s (sendPages es s) := rfl

/-- The pages of a list are settled by their actions in the first state; the others are as they were. -/
structure Settled (stamps : List (Nat × U64)) (copies : List PageIn) (s : State) (done : List (Nat × Nat)) (t : State) :
    Prop where
  frame : SettleFrame s t
  wf : SMap.wf 0 t.hbm.stamps = true
  kept : ∀ q, (∀ e ∈ done, e.2 = q → actOf stamps s e ≠ .restore) →
    devRead t (65536 * q) 65536 = devRead s (65536 * q) 65536 ∧ SMap.get 0 t.hbm.stamps q = SMap.get 0 s.hbm.stamps q
  restored : ∀ e ∈ done, ∀ p, actOf stamps s e = .restore → restoredIn copies e.1 = some p →
    devRead t (65536 * e.2) 65536 = p.bytes ∧ SMap.get 0 t.hbm.stamps e.2 = stampIn stamps e.1
  awaited : ∀ q, q ∈ t.recovery.unacked ↔ q ∈ s.recovery.unacked ∨ ∃ e ∈ done, actOf stamps s e = .refresh ∧ e.2 = q
  sends : ∀ e ∈ done, actOf stamps s e = .refresh → Out.tandemPage (pageOut s e.1 e.2) ∈ t.sent
  events : t.status.eventCount =
    s.status.eventCount + BitVec.ofNat 32 (done.filter fun e => decide (actOf stamps s e = .restore)).length

theorem length_filter_snoc {α : Type} (p : α → Bool) (xs : List α) (x : α) :
    ((xs ++ [x]).filter p).length = (xs.filter p).length + if p x then 1 else 0 := by
  cases h : p x <;> simp [h]

section
variable {stamps : List (Nat × U64)} {copies : List PageIn} {s t : State} {done : List (Nat × Nat)} {e : Nat × Nat}

theorem Settled.nil (hwf : SMap.wf 0 s.hbm.stamps = true) : Settled stamps copies s [] s where
  frame := rfl
  wf := hwf
  kept _ _ := ⟨rfl, rfl⟩
  restored _ h := by cases h
  awaited q := by simp
  sends _ h := by cases h
  events := by simp

variable (h : Settled stamps copies s done t)
include h

/-- A page that is not settled yet has the action that it had at first. -/
theorem Settled.actOf_eq (hnew : e.2 ∉ done.map Prod.snd) : actOf stamps t e = actOf stamps s e := by
  have hstamp : SMap.get 0 t.hbm.stamps e.2 = SMap.get 0 s.hbm.stamps e.2 :=
    (h.kept e.2 fun d hd hde => absurd (List.mem_map.mpr ⟨d, hd, hde⟩) hnew).2
  have hframe := h.frame
  have hword : t.hbm.commitWord = s.hbm.commitWord := by rw [hframe]
  have hswept : t.recovery.swept = s.recovery.swept := by rw [hframe]
  simp only [actOf, settleAct, hstamp, hword, hswept]

variable (hnew : e.2 ∉ done.map Prod.snd)
include hnew

theorem Settled.pageOut_eq : pageOut t e.1 e.2 = pageOut s e.1 e.2 := by
  obtain ⟨hbytes, hstamp⟩ := h.kept e.2 fun d hd hde => absurd (List.mem_map.mpr ⟨d, hd, hde⟩) hnew
  simp only [pageOut, pageBytes, hbytes, hstamp]

omit hnew in
/-- A page that is kept. -/
theorem Settled.keep (hrefresh : actOf stamps s e ≠ .refresh) (hrestore : actOf stamps s e ≠ .restore) :
    Settled stamps copies s (done ++ [e]) t where
  frame := h.frame
  wf := h.wf
  kept q hq := h.kept q fun d hd => hq d (List.mem_append_left _ hd)
  restored d hd p hact hp := by
    obtain hd | hd := List.mem_append.mp hd
    · exact h.restored d hd p hact hp
    · exact absurd (List.mem_singleton.mp hd ▸ hact) hrestore
  awaited q := by
    refine (h.awaited q).trans (or_congr_right ⟨fun ⟨d, hd, hact⟩ => ⟨d, List.mem_append_left _ hd, hact⟩, ?_⟩)
    rintro ⟨d, hd, hact, hq⟩
    obtain hd | hd := List.mem_append.mp hd
    · exact ⟨d, hd, hact, hq⟩
    · exact absurd (List.mem_singleton.mp hd ▸ hact) hrefresh
  sends d hd hact := by
    obtain hd | hd := List.mem_append.mp hd
    · exact h.sends d hd hact
    · exact absurd (List.mem_singleton.mp hd ▸ hact) hrefresh
  events := by rw [h.events, length_filter_snoc, if_neg (by simpa using hrestore), Nat.add_zero]

/-- A page whose copy is to be refreshed is sent, and waits for its acknowledgement. -/
theorem Settled.refresh (hact : actOf stamps s e = .refresh) : Settled stamps copies s (done ++ [e]) (sendPages [e] t) where
  frame := h.frame.trans (settleFrame_sendPages _ t)
  wf := h.wf
  kept q hq := h.kept q fun d hd => hq d (List.mem_append_left _ hd)
  restored d hd p hrestore hp := by
    obtain hd | hd := List.mem_append.mp hd
    · exact h.restored d hd p hrestore hp
    · rw [List.mem_singleton.mp hd, hact] at hrestore
      cases hrestore
  awaited q := by
    rw [mem_sendPages_unacked, h.awaited q, or_assoc]
    refine or_congr_right ⟨?_, ?_⟩
    · rintro (⟨d, hd, hd'⟩ | hq)
      · exact ⟨d, List.mem_append_left _ hd, hd'⟩
      · exact ⟨e, by simp, hact, (List.mem_singleton.mp hq).symm⟩
    · rintro ⟨d, hd, hact', hq⟩
      obtain hd | hd := List.mem_append.mp hd
      · exact .inl ⟨d, hd, hact', hq⟩
      · exact .inr (by rw [← hq, List.mem_singleton.mp hd]; simp)
  sends d hd hd' := by
    obtain hd | hd := List.mem_append.mp hd
    · exact List.mem_append_left _ (h.sends d hd hd')
    · rw [List.mem_singleton.mp hd, ← h.pageOut_eq hnew]
      exact List.mem_append_right _ (by simp)
  events := by
    have hno : ¬ decide (actOf stamps s e = .restore) = true := by rw [hact]; decide
    rw [length_filter_snoc, if_neg hno, Nat.add_zero]
    exact h.events

/-- A page is restored from its copy, with the copy's stamp. -/
theorem Settled.restore {p : PageIn} (hact : actOf stamps s e = .restore) (hp : restoredIn copies e.1 = some p)
    (hlen : p.bytes.length = 65536) :
    Settled stamps copies s (done ++ [e]) (settleRestore e.2 ⟨e.1, stampIn stamps e.1, p.bytes⟩ t) := by
  let x : PageIn := ⟨e.1, stampIn stamps e.1, p.bytes⟩
  have hframe := restores_settleRestore e.2 x t
  have hstamps : (settleRestore e.2 x t).hbm.stamps = SMap.set 0 t.hbm.stamps e.2 (stampIn stamps e.1) := by
    rw [settleRestore_hbm]
    rfl
  have hread (a n : Nat) : devRead (settleRestore e.2 x t) a n = devRead (restorePage e.2 x t) a n := by
    rw [devRead, settleRestore_hbm, devRead]
  have hunacked : (settleRestore e.2 x t).recovery.unacked = t.recovery.unacked := by rw [hframe]
  have hsent : (settleRestore e.2 x t).sent = t.sent := by rw [hframe]
  have hother (q : Nat) (hq : q ≠ e.2) :
      devRead (settleRestore e.2 x t) (65536 * q) 65536 = devRead t (65536 * q) 65536 ∧
      SMap.get 0 (settleRestore e.2 x t).hbm.stamps q = SMap.get 0 t.hbm.stamps q := by
    refine ⟨(hread _ _).trans (devRead_restorePage_other hq x t), ?_⟩
    rw [hstamps]
    exact SMap.get_set_other 0 _ _ _ _ hq h.wf
  have hmem (d : Nat × Nat) (hd : d ∈ done ++ [e]) : d ∈ done ∧ d.2 ≠ e.2 ∨ d = e := by
    obtain hd | hd := List.mem_append.mp hd
    · exact .inl ⟨hd, fun heq => hnew (heq ▸ List.mem_map_of_mem hd)⟩
    · exact .inr (List.mem_singleton.mp hd)
  refine ⟨h.frame.trans (settleFrame_of_restores hframe), ?_, fun q hq => ?_, fun d hd r hd' hr => ?_, fun q => ?_,
    fun d hd hd' => ?_, ?_⟩
  · rw [hstamps]
    exact SMap.wf_set 0 _ _ _ h.wf
  · have hqe : q ≠ e.2 := fun heq => hq e (by simp) heq.symm hact
    obtain ⟨hbytes, hstamp⟩ := hother q hqe
    obtain ⟨hbytes', hstamp'⟩ := h.kept q fun d hd => hq d (List.mem_append_left _ hd)
    exact ⟨hbytes.trans hbytes', hstamp.trans hstamp'⟩
  · obtain ⟨hd, hne⟩ | rfl := hmem d hd
    · obtain ⟨hbytes, hstamp⟩ := hother d.2 hne
      obtain ⟨hbytes', hstamp'⟩ := h.restored d hd r hd' hr
      exact ⟨hbytes.trans hbytes', hstamp.trans hstamp'⟩
    · obtain rfl := Option.some.inj (hp.symm.trans hr)
      refine ⟨(hread _ _).trans (devRead_restorePage_same d.2 (p := x) hlen t), ?_⟩
      rw [hstamps]
      exact SMap.get_set_same 0 _ _ _ h.wf
  · rw [hunacked, h.awaited q]
    refine or_congr_right ⟨fun ⟨d, hd, hd'⟩ => ⟨d, List.mem_append_left _ hd, hd'⟩, ?_⟩
    rintro ⟨d, hd, hd', hq⟩
    obtain ⟨hd, -⟩ | rfl := hmem d hd
    · exact ⟨d, hd, hd', hq⟩
    · rw [hact] at hd'
      cases hd'
  · rw [hsent]
    obtain ⟨hd, -⟩ | rfl := hmem d hd
    · exact h.sends d hd hd'
    · rw [hact] at hd'
      cases hd'
  · have hyes : decide (actOf stamps s e = .restore) = true := by rw [hact]; decide
    rw [settleRestore_events, h.events, length_filter_snoc, if_pos hyes, BitVec.ofNat_add, BitVec.add_assoc]
    rfl

end

/-- Every page of a list is settled by its action, none of which breaks the table. -/
theorem settled_foldl {stamps : List (Nat × U64)} {copies : List PageIn} {s : State}
    (hlen : ∀ p ∈ copies, p.bytes.length = 65536) {es done : List (Nat × Nat)} {t : State}
    (hnodup : ((done ++ es).map Prod.snd).Nodup)
    (hhere : ∀ e ∈ es, actOf stamps s e = .restore → restoredIn copies e.1 ≠ none)
    (h : Settled stamps copies s done t) :
    Settled stamps copies s (done ++ es) (es.foldl (settleOne stamps copies) t) := by
  induction es generalizing done t with
  | nil => simpa using h
  | cons e es ih =>
    have hnew : e.2 ∉ done.map Prod.snd := by
      rw [List.map_append, List.nodup_append] at hnodup
      obtain ⟨-, -, hapart⟩ := hnodup
      exact fun hmem => hapart _ hmem _ (by simp) rfl
    have hstep : Settled stamps copies s (done ++ [e]) (settleOne stamps copies t e) := by
      unfold settleOne
      rw [h.actOf_eq hnew]
      cases hact : actOf stamps s e with
      | keep => exact h.keep (by simp [hact]) (by simp [hact])
      | bad => exact h.keep (by simp [hact]) (by simp [hact])
      | refresh => exact h.refresh hnew hact
      | restore =>
        obtain ⟨p, hp⟩ := Option.ne_none_iff_exists'.mp (hhere e List.mem_cons_self hact)
        dsimp only
        rw [hp]
        exact h.restore hnew hact hp (hlen p (List.mem_of_find?_eq_some hp))
    have hrest := ih (done := done ++ [e]) (by simpa using hnodup) (fun d hd => hhere d (List.mem_cons_of_mem _ hd)) hstep
    simpa using hrest

/-! ## PAGE_SETTLE and the last acknowledgement -/

/-- A job that halts: its phase, its status, the module's state and cause, with HBM as it was. -/
structure Halts (code : U16) (j : Job) (s t : State) : Prop where
  job : t.job = some { j with phase := .halted, stop := code }
  status : t.status.status = code
  state : t.mgt.state = .halted
  cause : bitAt t.mgt.intStatus 3 = true
  hbm : t.hbm = s.hbm

theorem takeHalt_halts (code : U16) (op : U32) (loc : U64) {s : State} {j : Job} (hj : s.job = some j)
    (hphase : j.phase ≠ .halted) : Halts code j s (takeHalt code op loc s) := by
  simp only [takeHalt, hj, if_neg hphase]
  refine ⟨by simp, by simp, by simp, ?_, by simp⟩
  simp [raiseCause, setInterrupts_eq, bitAt_setBit_same]

theorem haltJob_halts (code : U16) (op : U32) (loc : U64) {s : State} {j : Job} (hj : s.job = some j)
    (hphase : j.phase ≠ .halted) : Halts code j s (haltJob code op loc s) := by
  have h : haltJob code op loc s = takeHalt code op loc (emit (.send (.stopNotice code)) s) := by
    simp only [haltJob, hj, if_neg hphase]
  have hhalts := takeHalt_halts code op loc (s := emit (.send (.stopNotice code)) s) hj hphase
  rw [h]
  exact ⟨hhalts.job, hhalts.status, hhalts.state, hhalts.cause, hhalts.hbm⟩

/-- What lets sweeps go on leaves the job and the recovery. -/
theorem openInto_keeps (w : Sweep) (s : State) : (openInto w s).job = s.job ∧ (openInto w s).recovery = s.recovery := by
  have h := foldl_keeps (fun u => (u.job, u.recovery))
    (fun u (q : SweepPage) => putStamp q.page (openStamp s.status.step) u) (fun _ _ => rfl)
    (w.pages.filter fun p => !p.opened && !refreshHolds s p.page) s
  exact Prod.mk.inj h

theorem ackPage_keeps (d : Nat) (s : State) :
    (ackPage d s).job = s.job ∧
    (ackPage d s).recovery = { s.recovery with unacked := s.recovery.unacked.filter (· ≠ d) } := by
  have h := foldl_keeps (fun u => (u.job, u.recovery)) (fun u w => openInto w u)
    (fun u w => Prod.ext (openInto_keeps w u).1 (openInto_keeps w u).2) s.msu.sweeps
    { s with recovery := { s.recovery with unacked := s.recovery.unacked.filter (· ≠ d) } }
  exact Prod.mk.inj h

theorem endRestore_settled (s : State) : (endRestore s).recovery.settled = s.recovery.settled := by
  unfold endRestore
  split
  · simp [resume]
  · rfl

theorem exec_pageSettle_settled {s : State} {j : Job} (hj : s.job = some j) (hsettled : s.recovery.settled = true)
    (stamps : List (Nat × U64)) (copies : List PageIn) : exec (.pageSettle stamps copies) s = .next s := by
  change execPageSettle stamps copies s = _
  simp [execPageSettle, hj, hsettled]

theorem settleActs_good {s : State} {stamps : List (Nat × U64)} (hgood : ∀ e ∈ jobPages s, actOf stamps s e ≠ .bad) :
    (settleActs stamps s).any (fun a => decide (a.2 = .bad)) = false := by
  rw [List.any_eq_false]
  intro a ha
  obtain ⟨e, he, rfl⟩ := List.mem_map.mp ha
  exact fun h => hgood e he (decide_eq_true_iff.mp h)

section
variable {s : State} {j : Job} (hj : s.job = some j) (hphase : j.phase = .settling)
include hj hphase

theorem endSettling_ends (hsettled : s.recovery.settled = true) (hempty : s.recovery.unacked = []) :
    endSettling s = { s with
      job := some { j with phase := .boundary }, recovery := { s.recovery with settled := false, swept := [] } } := by
  simp [endSettling, hj, hphase, hsettled, hempty]

/-- The last acknowledgement of a settling brings the job to its step boundary. -/
theorem pageAcked_ends_settling (hsettled : s.recovery.settled = true) {d : Nat} (hlast : s.recovery.unacked = [d]) :
    (pageAcked d s).job = some { j with phase := .boundary } := by
  obtain ⟨hjob, hrecovery⟩ := ackPage_keeps d s
  have hidle : settleReplica (ackPage d s) = ackPage d s :=
    settleReplica_idle (.inl (by simp [inStep, hjob, hj, hphase]))
  obtain ⟨hjob', -, -, hunacked, -⟩ := endRestore_keeps (ackPage d s)
  have hend := endSettling_ends (s := endRestore (ackPage d s)) (hjob'.trans (hjob.trans hj)) hphase
    ((endRestore_settled _).trans (by rw [hrecovery]; exact hsettled)) (hunacked.trans (by rw [hrecovery, hlast]; simp))
  rw [pageAcked, hidle, hend]
  unfold refreshDone
  split
  · rfl
  · rfl

variable (hpaused : s.recovery.paused = false) (hsettled : s.recovery.settled = false)
  {stamps : List (Nat × U64)} {copies : List PageIn}
include hpaused hsettled

theorem exec_pageSettle_bad (hbad : ∃ e ∈ jobPages s, actOf stamps s e = .bad) :
    exec (.pageSettle stamps copies) s = .next (haltJob Code.failStamp noOp 0 s) := by
  obtain ⟨e, he, hact⟩ := hbad
  have hany : (settleActs stamps s).any (fun a => decide (a.2 = .bad)) = true :=
    List.any_eq_true.mpr ⟨(e.1, actOf stamps s e), List.mem_map_of_mem he, by simp [hact]⟩
  change execPageSettle stamps copies s = _
  simp [execPageSettle, hj, hphase, hpaused, hsettled, hany]

variable (hgood : ∀ e ∈ jobPages s, actOf stamps s e ≠ .bad)
include hgood

theorem exec_pageSettle_waits (hmissing : ∃ e ∈ jobPages s, actOf stamps s e = .restore ∧ restoredIn copies e.1 = none) :
    exec (.pageSettle stamps copies) s = .next s := by
  obtain ⟨e, he, hact, hnone⟩ := hmissing
  have hany : (settleActs stamps s).any (fun a => decide (a.2 = .restore) && (restoredIn copies a.1).isNone) = true :=
    List.any_eq_true.mpr ⟨(e.1, actOf stamps s e), List.mem_map_of_mem he, by simp [hact, hnone]⟩
  change execPageSettle stamps copies s = _
  simp [execPageSettle, hj, hphase, hpaused, hsettled, hany, settleActs_good hgood]

theorem exec_pageSettle_settles (hhere : ∀ e ∈ jobPages s, actOf stamps s e = .restore → restoredIn copies e.1 ≠ none) :
    exec (.pageSettle stamps copies) s =
      .next (endSettling { (jobPages s).foldl (settleOne stamps copies) s with
        recovery := { ((jobPages s).foldl (settleOne stamps copies) s).recovery with settled := true } }) := by
  have hnone : (settleActs stamps s).any (fun a => decide (a.2 = .restore) && (restoredIn copies a.1).isNone) = false := by
    rw [List.any_eq_false]
    intro a ha
    obtain ⟨e, he, rfl⟩ := List.mem_map.mp ha
    intro h
    rw [Bool.and_eq_true, decide_eq_true_iff, Option.isNone_iff_eq_none] at h
    exact hhere e he h.1 h.2
  change execPageSettle stamps copies s = _
  simp only [execPageSettle, hj, hphase, hpaused, hsettled, hnone, settleActs_good hgood,
    settlePages_eq_foldl]
  rfl

end

/-- What the settled pages show, once the job stands at its boundary or waits for the tandem. -/
theorem settled_shows {s u : State} {j : Job} {stamps : List (Nat × U64)} {copies : List PageIn} (hj : s.job = some j)
    (hphase : j.phase = .settling) (h : Settled stamps copies s (jobPages s) u) :
    let t := endSettling { u with recovery := { u.recovery with settled := true } }
    (s.recovery.unacked = [] → (∀ e ∈ jobPages s, actOf stamps s e ≠ .refresh) → t.job = some { j with phase := .boundary }) ∧
    (s.recovery.unacked ≠ [] ∨ (∃ e ∈ jobPages s, actOf stamps s e = .refresh) → t.job = some j ∧ t.recovery.settled = true) ∧
    t.cores = s.cores ∧ t.hbm.commitWord = s.hbm.commitWord ∧
    t.status.eventCount =
      s.status.eventCount + BitVec.ofNat 32 ((jobPages s).filter fun e => decide (actOf stamps s e = .restore)).length ∧
    ∀ e ∈ jobPages s,
      (actOf stamps s e ≠ .restore → devRead t (65536 * e.2) 65536 = devRead s (65536 * e.2) 65536 ∧
        SMap.get 0 t.hbm.stamps e.2 = SMap.get 0 s.hbm.stamps e.2) ∧
      (actOf stamps s e = .refresh → e.2 ∈ t.recovery.unacked ∧ Out.tandemPage (pageOut s e.1 e.2) ∈ t.sent) ∧
      (∀ p, actOf stamps s e = .restore → restoredIn copies e.1 = some p →
        devRead t (65536 * e.2) 65536 = p.bytes ∧ SMap.get 0 t.hbm.stamps e.2 = stampIn stamps e.1) := by
  intro t
  let v : State := { u with recovery := { u.recovery with settled := true } }
  have hframe := h.frame
  have hjob : v.job = some j := by
    change u.job = _
    rw [hframe]
    exact hj
  obtain ⟨hhbm, hunacked, hcores, hstatus, hsent⟩ : t.hbm = u.hbm ∧ t.recovery.unacked = u.recovery.unacked ∧
      t.cores = u.cores ∧ t.status = u.status ∧ t.sent = u.sent := by
    change (endSettling v).hbm = _ ∧ (endSettling v).recovery.unacked = _ ∧ (endSettling v).cores = _ ∧
      (endSettling v).status = _ ∧ (endSettling v).sent = _
    unfold endSettling
    rw [hjob]
    dsimp only
    split <;> exact ⟨rfl, rfl, rfl, rfl, rfl⟩
  have hread (a n : Nat) : devRead t a n = devRead u a n := by rw [devRead, hhbm, devRead]
  have hdisjoint (e : Nat × Nat) (he : e ∈ jobPages s) (hact : actOf stamps s e ≠ .restore) :
      ∀ d ∈ jobPages s, d.2 = e.2 → actOf stamps s d ≠ .restore := by
    intro d hd heq
    exact (List.inj_on_of_nodup_map (jobPages_nodup s) hd he heq) ▸ hact
  refine ⟨fun hnone hno => ?_, fun hsome => ?_, ?_, ?_, ?_, fun e he => ⟨fun hact => ?_, fun hact => ?_, fun p hact hp => ?_⟩⟩
  · have hempty : v.recovery.unacked = [] := List.eq_nil_iff_forall_not_mem.mpr fun q hq => by
      obtain hq | ⟨e, he, hact, -⟩ := (h.awaited q).mp hq
      · rw [hnone] at hq
        cases hq
      · exact hno e he hact
    have hend : t = _ := endSettling_ends hjob hphase rfl hempty
    rw [hend]
  · have hwait : v.recovery.unacked ≠ [] := by
      obtain hsome | ⟨e, he, hact⟩ := hsome
      · obtain ⟨q, hq⟩ := List.exists_mem_of_ne_nil _ hsome
        exact List.ne_nil_of_mem ((h.awaited q).mpr (.inl hq))
      · exact List.ne_nil_of_mem ((h.awaited e.2).mpr (.inr ⟨e, he, hact, rfl⟩))
    have hend : t = v := (ends_wait hwait).2.1
    rw [hend]
    exact ⟨hjob, rfl⟩
  · rw [hcores, hframe]
  · rw [hhbm, hframe]
  · rw [hstatus]
    exact h.events
  · rw [hread, hhbm]
    exact h.kept e.2 (hdisjoint e he hact)
  · rw [hunacked, hsent]
    exact ⟨(h.awaited e.2).mpr (.inr ⟨e, he, hact, rfl⟩), h.sends e he hact⟩
  · rw [hread, hhbm]
    exact h.restored e he p hact hp

/-- Settles O46: the table judges each page, and settling does what the table says, once. -/
theorem settlingFollowsTheTable : Obligations.SettlingFollowsTheTable := by
  unfold Obligations.SettlingFollowsTheTable
  intro s j stamps copies hj c committed act
  refine ⟨fun page loc tan hnew => settleAct_table hnew loc tan, fun hphase hsettled =>
    exec_pageSettle_settled hj hsettled stamps copies, fun n d hphase hsettled hdevice hlast => ?_,
    fun hphase hpaused hsettled => ⟨fun hbad => ?_, fun hgood hmissing =>
      exec_pageSettle_waits hj hphase hpaused hsettled hgood hmissing, fun hgood hhere hlen hwf => ?_⟩⟩
  · refine ⟨_, exec_tandemPageAck hdevice, ?_⟩
    rw [if_pos (by simp [hlast])]
    exact pageAcked_ends_settling hj hphase hsettled hlast
  · have hhalts := haltJob_halts Code.failStamp noOp 0 hj (by simp [hphase])
    exact ⟨_, exec_pageSettle_bad hj hphase hpaused hsettled hbad, hhalts.job, hhalts.status, hhalts.hbm⟩
  · refine ⟨_, exec_pageSettle_settles hj hphase hpaused hsettled hgood hhere, ?_⟩
    have h := settled_foldl (stamps := stamps) hlen (done := []) (es := jobPages s) (t := s) (jobPages_nodup s)
      hhere (.nil hwf)
    exact settled_shows hj hphase h

end Sys2Proof.Machine
end

section
/-! Rinks that rejoin, and the replica check (O41). -/

namespace Sys2Proof.Machine

/-! ## REJOIN_REQUEST (R322) -/

section
variable {s : State} {rink : Nat} (hseveral : siteSeveral s.site = true) (hrink : rink < 32)
include hseveral hrink

theorem exec_rejoinRequest (named : Option U64) :
    exec (.rejoinRequest rink named) s =
      match named with
      | some j => .next (addJoin rink j s)
      | none =>
        if rink = s.rink then
          (if s.recovery.marshal ∧ s.recovery.left ∧ s.recovery.awaited = [] then .next (emit (.send (.rejoinRequest rink)) s)
          else .next s)
        else if s.recovery.marshal ∧ lowestRink s = some s.rink ∧ ¬ bitAt s.coll.active rink ∧ ¬ s.recovery.left then
          .next (emit (.send (.rejoinStep rink (s.status.step + 2))) (addJoin rink (s.status.step + 2) s))
        else .next s := by
  have hnot : ¬ (¬ siteSeveral s.site = true ∨ 32 ≤ rink) := by
    rw [hseveral]
    simpa using hrink
  exact if_neg hnot

end

theorem mem_addJoin (r : Nat) (step : U64) (s : State) : (r, step) ∈ (addJoin r step s).coll.joins :=
  List.mem_append_right _ (List.mem_singleton.mpr rfl)

/-! ## Every page of the module is restored (R322, R329) -/

/-- The pages of a list are restored; the others keep their bytes. -/
structure Restored (pages : List PageIn) (s : State) (done : List (Nat × Nat)) (t : State) : Prop where
  frame : Restores s t
  here : ∀ e ∈ done, ∀ p, restoredIn pages e.1 = some p → devRead t (65536 * e.2) 65536 = p.bytes
  events : (∀ e ∈ done, restoredIn pages e.1 ≠ none) →
    t.status.eventCount = s.status.eventCount + BitVec.ofNat 32 done.length

/-- One page is restored where its copy is here. -/
def restoreOne (pages : List PageIn) (t : State) (e : Nat × Nat) : State :=
  match restoredIn pages e.1 with
  | some p => settleRestore e.2 p t
  | none => t

theorem devRead_settleRestore_other {page q : Nat} (h : q ≠ page) (p : PageIn) (s : State) :
    devRead (settleRestore page p s) (65536 * q) 65536 = devRead s (65536 * q) 65536 := by
  rw [devRead, settleRestore_hbm]
  exact devRead_restorePage_other h p s

theorem devRead_settleRestore_same (page : Nat) {p : PageIn} (hlen : p.bytes.length = 65536) (s : State) :
    devRead (settleRestore page p s) (65536 * page) 65536 = p.bytes := by
  rw [devRead, settleRestore_hbm]
  exact devRead_restorePage_same page hlen s

theorem restored_foldl {pages : List PageIn} (hlen : ∀ p ∈ pages, p.bytes.length = 65536) {s : State}
    {es done : List (Nat × Nat)} {t : State} (hnodup : ((done ++ es).map Prod.snd).Nodup) (h : Restored pages s done t) :
    Restored pages s (done ++ es) (es.foldl (restoreOne pages) t) := by
  induction es generalizing done t with
  | nil => simpa using h
  | cons e es ih =>
    have hnew (d : Nat × Nat) (hd : d ∈ done) : d.2 ≠ e.2 := by
      rw [List.map_append, List.nodup_append] at hnodup
      obtain ⟨-, -, hapart⟩ := hnodup
      exact hapart _ (List.mem_map_of_mem hd) _ (by simp)
    have hstep : Restored pages s (done ++ [e]) (restoreOne pages t e) := by
      unfold restoreOne
      cases he : restoredIn pages e.1 with
      | none =>
        refine ⟨h.frame, fun d hd p hp => ?_, fun hall => absurd he (hall e (by simp))⟩
        obtain hd | hd := List.mem_append.mp hd
        · exact h.here d hd p hp
        · rw [List.mem_singleton.mp hd, he] at hp
          cases hp
      | some p =>
        refine ⟨h.frame.trans (restores_settleRestore _ _ t), fun d hd r hr => ?_, fun hall => ?_⟩
        · obtain hd | hd := List.mem_append.mp hd
          · exact (devRead_settleRestore_other (hnew d hd) p t).trans (h.here d hd r hr)
          · obtain rfl := List.mem_singleton.mp hd
            obtain rfl := Option.some.inj (he.symm.trans hr)
            exact devRead_settleRestore_same d.2 (hlen p (List.mem_of_find?_eq_some he)) t
        · rw [settleRestore_events, h.events fun d hd => hall d (List.mem_append_left _ hd), List.length_append,
            List.length_singleton, BitVec.ofNat_add, BitVec.add_assoc]
          rfl
    simpa using ih (done := done ++ [e]) (by simpa using hnodup) hstep

theorem restoreOwn_restores {pages : List PageIn} (hlen : ∀ p ∈ pages, p.bytes.length = 65536) (s : State) :
    Restored pages s (jobPages s) (restoreOwn pages s) :=
  restored_foldl hlen (done := []) (jobPages_nodup s) ⟨.refl s, (fun _ h => nomatch h), fun _ => by simp⟩

/-! ## REJOIN_STATE_TRANSFER (R322) -/

theorem clearCarry_none {j : Job} (h : j.image.replica = []) (s : State) : clearCarry j s = s := by
  rw [clearCarry, h]
  rfl

@[simp] theorem postEvent_progress (code : U16) (op : U32) (detail : U16) (loc : U64) (s : State) :
    (postEvent code op detail loc s).status.step = s.status.step ∧
    (postEvent code op detail loc s).status.committed = s.status.committed := by
  simp [postEvent, StatusRec.addEvent]

/-- A rejoined rink holds the pages, the step and the commit word, and sends every page to its tandem. -/
theorem rejoinAt_shows {s : State} {j : Job} {pages : List PageIn} (step : U64)
    (hwhole : wholeState pages s = true) (hlen : ∀ p ∈ pages, p.bytes.length = 65536) (hnone : j.image.replica = []) :
    let t := rejoinAt j step pages s
    (∀ e ∈ jobPages s, ∀ p, restoredIn pages e.1 = some p → devRead t (65536 * e.2) 65536 = p.bytes) ∧
    t.hbm.commitWord = step - 1 ∧ t.status.step = step ∧ t.status.committed = step - 1 ∧
    t.job = some { j with phase := .boundary, replays := 0 } ∧ t.recovery.left = false ∧
    (∀ e ∈ jobPages s, e.2 ∈ t.recovery.unacked) ∧
    t.status.eventCount = s.status.eventCount + BitVec.ofNat 32 (jobPages s).length + 1 := by
  intro t
  obtain ⟨hframe, hhere, hevents⟩ := restoreOwn_restores hlen s
  have hpages : jobPages (restoreOwn pages s) = jobPages s := by
    have hjob : (restoreOwn pages s).job = s.job := by rw [hframe]
    simp only [jobPages, hjob]
  let r := restoreOwn pages s
  let u := sendPages (jobPages s) { r with
    hbm := { r.hbm with commitWord := step - 1 }
    job := some { j with phase := .boundary, replays := 0 }
    coll := { r.coll with included := none, votes := [], mine := [], arrivals := [], weights := [] }
    gatehouse := { r.gatehouse with rebuilding := true, fromPage := true }
    recovery := { r.recovery with
      paused := false, lost := [], left := false, refreshing := false, replicaOk := true, swept := [] } }
  have ht : t = postEvent Code.evRejoin noOp 0 (moduleWhere u.coord)
      { u with status := { u.status with step := step, committed := step - 1, paused := false } } := by
    change rejoinAt j step pages s = _
    unfold rejoinAt
    rw [clearCarry_none hnone]
    dsimp only
    rw [hpages]
  have hall : ∀ e ∈ jobPages s, restoredIn pages e.1 ≠ none := fun e he => by
    have h := List.all_eq_true.mp hwhole e he
    exact Option.ne_none_iff_isSome.mpr h
  obtain ⟨hstep, hcommitted⟩ := postEvent_progress Code.evRejoin noOp 0 (moduleWhere u.coord)
    { u with status := { u.status with step := step, committed := step - 1, paused := false } }
  have hhbm : t.hbm = u.hbm := by rw [ht]; simp
  have hrecovery : t.recovery = u.recovery := by rw [ht]; simp
  refine ⟨fun e he p hp => ?_, ?_, ?_, ?_, ?_, ?_, fun e he => ?_, ?_⟩
  · rw [devRead, hhbm]
    exact hhere e he p hp
  · rw [hhbm]
    rfl
  · rw [ht]
    exact hstep
  · rw [ht]
    exact hcommitted
  · rw [ht]
    simp [u, sendPages, emitAll]
  · rw [hrecovery]
    rfl
  · rw [hrecovery]
    exact (mem_sendPages_unacked _ _ e.2).mpr (.inr (List.mem_map_of_mem he))
  · rw [ht, (postEvent_status _ _ _ _ _).2]
    change r.status.eventCount + 1 = _
    rw [hevents hall]

/-! ## The replica check (R326, R327) -/

/-- A received record fits the step and holds a value. -/
def recordValue (r : ReplicaRecord) : Nat := field r.record 95 64

section
variable {s : State} {j : Job} (hj : s.job = some j) (hrefreshing : s.recovery.refreshing = true)
  (hopen : s.recovery.replicaOk = false) {rs : List ReplicaRecord} (hcount : rs.length + 1 = (members s).length)
  (hfit : ∀ r ∈ rs, recordFits s.recovery.refreshStep r.record = true)

theorem ringValues_fit (hfit : ∀ r ∈ rs, recordFits s.recovery.refreshStep r.record = true) :
    ringValues s rs =
      (s.rink, some (replicaValue s s.recovery.refreshStep).toNat) :: rs.map fun r => (r.z, some (recordValue r)) := by
  unfold ringValues
  refine congrArg _ (List.map_congr_left fun r hr => ?_)
  rw [if_pos (hfit r hr)]
  rfl

theorem reportMisfits_fit (hfit : ∀ r ∈ rs, recordFits s.recovery.refreshStep r.record = true) : reportMisfits rs s = s := by
  have hnone : rs.filter (fun r => !recordFits s.recovery.refreshStep r.record) = [] :=
    List.filter_eq_nil_iff.mpr fun r hr => by simp [hfit r hr]
  rw [reportMisfits, hnone, List.foldl_nil]

include hj hrefreshing hopen hcount

theorem exec_replicaCheckRecord (pages : List PageIn) :
    exec (.replicaCheckRecord rs pages) s = .next (compareReplicas rs pages s) := by
  change execReplicaCheckRecord rs pages s = _
  simp [execReplicaCheckRecord, hj, hrefreshing, hopen, hcount]

include hfit

theorem replicaCheck_agrees (pages : List PageIn)
    (hsame : ∀ r ∈ rs, recordValue r = (replicaValue s s.recovery.refreshStep).toNat) :
    exec (.replicaCheckRecord rs pages) s = .next (checkPassed s) := by
  rw [exec_replicaCheckRecord hj hrefreshing hopen hcount]
  refine congrArg Host.Outcome.next ?_
  have hall : holders (ringValues s rs) (replicaValue s s.recovery.refreshStep).toNat = (ringValues s rs).length := by
    rw [holders, List.length_filter_eq_length_iff.mpr]
    rw [ringValues_fit hfit]
    intro e he
    obtain rfl | he := List.mem_cons.mp he
    · simp
    · obtain ⟨r, hr, rfl⟩ := List.mem_map.mp he
      simp [hsame r hr]
  rw [compareReplicas, if_pos hall, reportMisfits_fit hfit]

end

/-- Two members with different values: the job halts. -/
theorem compareReplicas_two {s : State} {r : ReplicaRecord} (hfit : recordFits s.recovery.refreshStep r.record = true)
    (hdiffer : recordValue r ≠ (replicaValue s s.recovery.refreshStep).toNat) (pages : List PageIn) :
    compareReplicas [r] pages s = haltJob Code.failReplicaSplit noOp 0 s := by
  have hfits : ∀ x ∈ [r], recordFits s.recovery.refreshStep x.record = true := by simpa using hfit
  have hvs := ringValues_fit hfits
  have hone : holders (ringValues s [r]) (replicaValue s s.recovery.refreshStep).toNat ≠ (ringValues s [r]).length := by
    simp [hvs, holders, hdiffer]
  have hnone : majorityValue (ringValues s [r]) = none := by simp [hvs, majorityValue]
  rw [compareReplicas, if_neg hone, hnone, reportMisfits_fit hfits]

/-- Of three members one differs from the two others. -/
theorem two_of_three {m v : Nat} (h : v ≠ m) (a b c : Nat) :
    holders [(a, some m), (b, some v), (c, some v)] m = 1 ∧ majorityValue [(a, some m), (b, some v), (c, some v)] = some v := by
  simp [holders, majorityValue, h, Ne.symm h]

/-- Of three members the two others hold one value: this module takes the majority's pages and checks again. -/
theorem compareReplicas_three {s : State} {r0 r1 : ReplicaRecord}
    (hfit0 : recordFits s.recovery.refreshStep r0.record = true) (hfit1 : recordFits s.recovery.refreshStep r1.record = true)
    (hdiffer : recordValue r0 ≠ (replicaValue s s.recovery.refreshStep).toNat) (hsame : recordValue r1 = recordValue r0)
    (pages : List PageIn) :
    compareReplicas [r0, r1] pages s = checkAgain (recordValue r0) (repairPages pages s) := by
  have hfits : ∀ x ∈ [r0, r1], recordFits s.recovery.refreshStep x.record = true := by simp [hfit0, hfit1]
  have hvs := ringValues_fit hfits
  obtain ⟨hone, hmajority⟩ := two_of_three hdiffer s.rink r0.z r1.z
  rw [List.map_cons, List.map_cons, List.map_nil, hsame] at hvs
  have hnot : holders (ringValues s [r0, r1]) (replicaValue s s.recovery.refreshStep).toNat ≠
      (ringValues s [r0, r1]).length := by
    rw [hvs, hone]
    exact (by decide : (1 : Nat) ≠ 3)
  rw [compareReplicas, if_neg hnot, hvs, hmajority, reportMisfits_fit hfits]
  exact if_neg hdiffer

/-- One page of the majority is taken, with its CRC. -/
def repairOne (u : State) (p : PageIn) : State :=
  let v := restorePage p.index ⟨p.index, u.recovery.refreshStep, p.bytes⟩ u
  { v with recovery := { v.recovery with crcs := SMap.put v.recovery.crcs p.index (crc32c (p.bytes.take 65536)) } }

/-- The repair takes the pages of the list, each posted by none, and counts itself once. -/
theorem repairPages_shows (pages : List PageIn) (s : State) :
    let t := repairPages pages s
    t.recovery = { s.recovery with crcs := t.recovery.crcs } ∧ t.job = s.job ∧
    t.status.counts = { s.status.counts with replicaRepairs := satInc s.status.counts.replicaRepairs 1 } ∧
    t.status.eventCount = s.status.eventCount + 1 ∧
    ∀ p, pages = [p] → p.bytes.length = 65536 → devRead t (65536 * p.index) 65536 = p.bytes := by
  let u := pages.foldl repairOne s
  have hu : u = { s with hbm := u.hbm, recovery := { s.recovery with crcs := u.recovery.crcs } } :=
    List.foldlRecOn (motive := fun u : State =>
      u = { s with hbm := u.hbm, recovery := { s.recovery with crcs := u.recovery.crcs } }) pages _ rfl fun v hv p _ => by
        rw [hv]
        rfl
  have ht : repairPages pages s = postEvent Code.evReplicaRepair noOp 0 0
      (withCounts (fun c => { c with replicaRepairs := satInc c.replicaRepairs 1 }) u) := rfl
  rw [ht]
  refine ⟨?_, ?_, ?_, ?_, fun p hp hlen => ?_⟩
  · have hrecovery : (postEvent Code.evReplicaRepair noOp 0 0
        (withCounts (fun c => { c with replicaRepairs := satInc c.replicaRepairs 1 }) u)).recovery = u.recovery := by
      simp [withCounts]
    rw [hrecovery, hu]
  · simp only [postEvent_frame]
    change u.job = s.job
    rw [hu]
  · rw [(postEvent_status _ _ _ _ _).1]
    change { u.status.counts with replicaRepairs := satInc u.status.counts.replicaRepairs 1 } = _
    rw [hu]
  · rw [(postEvent_status _ _ _ _ _).2]
    change u.status.eventCount + 1 = _
    rw [hu]
  · have hhbm : (postEvent Code.evReplicaRepair noOp 0 0
        (withCounts (fun c => { c with replicaRepairs := satInc c.replicaRepairs 1 }) u)).hbm = u.hbm := by
      simp [withCounts]
    rw [devRead, hhbm]
    dsimp only [u]
    rw [hp]
    exact devRead_restorePage_same p.index (p := ⟨p.index, s.recovery.refreshStep, p.bytes⟩) hlen s

/-- Settles O41: joins are entered, a rejoined rink holds the state, and the check compares, halts or repairs. -/
theorem rinksRejoinAndReplicasAgree : Obligations.RinksRejoinAndReplicasAgree := by
  unfold Obligations.RinksRejoinAndReplicasAgree
  intro s j rink step pages r0 r1 hj
  refine ⟨fun hseveral hrink => ⟨?_, fun hother hmarshal hlowest hout hstay => ?_, fun hmarshal hleft hawaited hself => ?_⟩,
    fun hleft hawaited hphase hjoin hwhole hlen hnone => ?_, fun hrefreshing hopen hfit0 hfit1 => ⟨fun rs hcount hall => ?_,
      fun htwo hdiffer hphase => ?_, fun hthree hdiffer hsame => ?_⟩⟩
  · exact ⟨_, exec_rejoinRequest hseveral hrink (some step), rfl, mem_addJoin rink step s⟩
  · refine ⟨emit (.send (.rejoinStep rink (s.status.step + 2))) (addJoin rink (s.status.step + 2) s),
      (exec_rejoinRequest hseveral hrink none).trans ?_, rfl, mem_addJoin rink _ s⟩
    dsimp only
    rw [if_neg hother, if_pos ⟨hmarshal, hlowest, by simp [hout], by simp [hstay]⟩]
  · refine (exec_rejoinRequest hseveral hself none).trans ?_
    dsimp only
    rw [if_pos rfl, if_pos ⟨hmarshal, hleft, hawaited⟩]
    rfl
  · refine ⟨_, ?_, rejoinAt_shows step hwhole hlen hnone⟩
    change execRejoinStateTransfer step pages s = _
    simp only [execRejoinStateTransfer, hj]
    exact if_pos ⟨hleft, hawaited, hphase, by simpa using hjoin, hwhole⟩
  · exact replicaCheck_agrees hj hrefreshing hopen hcount (fun r hr => (hall r hr).1) pages fun r hr => (hall r hr).2
  · have hfit : ∀ r ∈ [r0], recordFits s.recovery.refreshStep r.record = true := by simpa using hfit0
    have hexec := exec_replicaCheckRecord hj hrefreshing hopen (rs := [r0]) htwo.symm pages
    rw [compareReplicas_two hfit0 hdiffer] at hexec
    have hhalts := haltJob_halts Code.failReplicaSplit noOp 0 hj hphase
    exact ⟨_, hexec, hhalts.job, hhalts.status, hhalts.hbm⟩
  · have hexec := exec_replicaCheckRecord hj hrefreshing hopen (rs := [r0, r1]) hthree.symm pages
    rw [compareReplicas_three hfit0 hfit1 hdiffer hsame] at hexec
    obtain ⟨hrecovery, hjob, hcounts, hevents, hpage⟩ := repairPages_shows pages s
    refine ⟨_, hexec, ?_⟩
    generalize repairPages pages s = u at *
    have hstep : u.recovery.refreshStep = s.recovery.refreshStep := by rw [hrecovery]
    have hok : u.recovery.replicaOk = false := by rw [hrecovery]; exact hopen
    unfold checkAgain
    rw [hstep]
    split
    case isTrue h => exact ⟨(decide_eq_true h).symm, hjob.trans hj, hcounts, hevents, fun p _ hp hlen => hpage p hp hlen⟩
    case isFalse h =>
      exact ⟨hok.trans (decide_eq_false h).symm, hjob.trans hj, hcounts, hevents, fun p _ hp hlen => hpage p hp hlen⟩

end Sys2Proof.Machine
end

section
/-! A stop reaches every module; a lost module pauses the rink or halts its job (O42). -/

namespace Sys2Proof.Machine

/-! ## A stop notice (R374) -/

theorem sentGrows_endJob (code : U16) (s : State) : SentGrows s (endJob code s) := by
  refine ⟨vectorMessages s.mgt (setBit s.mgt.intStatus 1 true) s.mgt.intEnable, ?_⟩
  simp [endJob, raiseCause, setInterrupts_eq, advanceRing, discardStep]

theorem sentGrows_concludeJob (code : U16) (s : State) : SentGrows s (concludeJob code s) := by
  unfold concludeJob
  split
  · exact .refl s
  · split
    · exact .of_eq rfl
    · exact sentGrows_endJob _ s

theorem SentGrows.take_eq {s t : State} (h : SentGrows s t) : t.sent.take s.sent.length = s.sent := by
  obtain ⟨more, hmore⟩ := h
  rw [hmore, List.take_left]

/-- The end of a job counts no event. -/
theorem concludeJob_eventCount (code : U16) (s : State) : (concludeJob code s).status.eventCount = s.status.eventCount := by
  unfold concludeJob
  split
  · rfl
  · split
    · rfl
    · simp [endJob, advanceRing, discardStep]

/-- A job that ends by a notice: its status, no event, everything sent before, and where no refresh runs cause [1] and the
consumer. -/
theorem concludeJob_notices {s : State} {j : Job} (code : U16) (hj : s.job = some j) :
    Ends code s (concludeJob code s) ∧ (concludeJob code s).status.eventCount = s.status.eventCount ∧
    (concludeJob code s).sent.take s.sent.length = s.sent ∧ (concludeJob code s).hbm = s.hbm ∧
    (refreshRuns s = false → bitAt (concludeJob code s).mgt.intStatus 1 = true ∧
      (concludeJob code s).ring.consumer = s.ring.consumer + 1) := by
  refine ⟨concludeJob_ends code s j hj, concludeJob_eventCount code s, (sentGrows_concludeJob code s).take_eq, by simp,
    fun hr => ?_⟩
  rw [concludeJob_ends_now code hj hr]
  exact ⟨endJob_raises _ s, congrArg _ (endJob_releases _ s).2.2⟩

theorem exec_stopNotice {s : State} {j : Job} (code : U16) (hj : s.job = some j) :
    exec (.stopNotice code) s = .next (takeNotice code j s) := by
  change execStopNotice code s = _
  simp only [execStopNotice, hj]

theorem takeNotice_halt {code : U16} (hcode : isHalt code = true) (j : Job) (s : State) :
    takeNotice code j s = if j.phase = .halted then s else takeHalt code noOp 0 s := by
  have hne : code ≠ Code.jobAborted := by
    rintro rfl
    exact absurd hcode (by decide)
  rw [takeNotice, if_neg hne, if_pos hcode]

theorem abortStatus_eq (j : Job) : abortStatus j = match j.phase with
    | .halted => j.stop
    | .held => 0x0004
    | _ => 0x0003 := by
  unfold abortStatus
  cases j.phase <;> rfl

/-! ## The step that is running is aborted (R317) -/

/-- A job as a pause leaves it. -/
def pausedJob (j : Job) : Job :=
  match j.phase with
  | .inStep => { j with phase := .aborted }
  | .atCut => { j with phase := .aborted }
  | .dumping => { j with phase := .aborted }
  | _ => j

theorem pausedJob_keeps (j : Job) : (pausedJob j).desc = j.desc ∧ (pausedJob j).image = j.image ∧
    (j.phase ≠ .halted → (pausedJob j).phase ≠ .halted) := by
  unfold pausedJob
  cases h : j.phase <;> simp [h]

/-- What a pause of the job leaves alone. -/
theorem pauseJob_shows {s : State} {j : Job} (hj : s.job = some j) :
    (pauseJob s).job = some (pausedJob j) ∧
    pauseJob s = { s with
      job := (pauseJob s).job, cores := (pauseJob s).cores, msu := (pauseJob s).msu, kv := (pauseJob s).kv
      stalled := (pauseJob s).stalled } := by
  simp only [pauseJob, hj, pausedJob]
  cases j.phase <;> exact ⟨by simp [hj], rfl⟩

/-! ## The report of the positions (R317) -/

/-- The events of lost positions. -/
def postLost (cs : List Coord) (s : State) : State :=
  cs.foldl (fun u c => postEvent Code.evModuleLost noOp 0 (moduleWhere c) u) s

theorem postLost_frame (cs : List Coord) (s : State) :
    postLost cs s = { s with status := (postLost cs s).status, hostMem := (postLost cs s).hostMem } :=
  List.foldlRecOn (motive := fun u : State => u = { s with status := u.status, hostMem := u.hostMem }) cs _ rfl
    fun u hu c _ => by rw [postEvent_eq, hu]

theorem postEvent_paused (code : U16) (op : U32) (detail : U16) (loc : U64) (s : State) :
    (postEvent code op detail loc s).status.paused = s.status.paused := by
  simp [postEvent, StatusRec.addEvent]

theorem postLost_status (cs : List Coord) (s : State) :
    (postLost cs s).status.paused = s.status.paused ∧
    (postLost cs s).status.eventCount = s.status.eventCount + BitVec.ofNat 32 cs.length := by
  induction cs generalizing s with
  | nil => exact ⟨rfl, by simp [postLost]⟩
  | cons c cs ih =>
    obtain ⟨hpaused, hevents⟩ := ih (postEvent Code.evModuleLost noOp 0 (moduleWhere c) s)
    refine ⟨hpaused.trans (postEvent_paused _ _ _ _ s), hevents.trans ?_⟩
    rw [(postEvent_status _ _ _ _ s).2, List.length_cons, BitVec.ofNat_add, BitVec.add_assoc, BitVec.add_comm 1]
    rfl

theorem reportLost_eq (fresh : List Coord) (s : State) :
    reportLost fresh s =
      if s.recovery.marshal then raiseCause 5 (postLost fresh (withStatus (fun r => { r with paused := true }) s))
      else postLost fresh (withStatus (fun r => { r with paused := true }) s) := rfl

/-- A report changes the status record and, on the marshal's module, the interrupt registers. -/
theorem reportLost_shows (fresh : List Coord) (s : State) :
    let t := reportLost fresh s
    t = { s with mgt := t.mgt, status := t.status, hostMem := t.hostMem, sent := t.sent } ∧
    t.status.paused = true ∧ t.status.eventCount = s.status.eventCount + BitVec.ofNat 32 fresh.length ∧
    bitAt t.mgt.intStatus 5 = (bitAt s.mgt.intStatus 5 || s.recovery.marshal) ∧ SentGrows s t := by
  intro t
  let u := withStatus (fun r => { r with paused := true }) s
  have hframe : postLost fresh u = { s with status := (postLost fresh u).status, hostMem := (postLost fresh u).hostMem } := by
    rw [postLost_frame, show u = _ from withStatus_eq _ s]
  obtain ⟨hpaused, hevents⟩ := postLost_status fresh u
  have hpaused' : (postLost fresh u).status.paused = true := hpaused.trans (by simp [u])
  have hevents' : (postLost fresh u).status.eventCount = s.status.eventCount + BitVec.ofNat 32 fresh.length :=
    hevents.trans (by simp [u])
  generalize hv : postLost fresh u = v at hframe hpaused' hevents'
  have ht : t = if s.recovery.marshal then raiseCause 5 v else v := by rw [← hv]; rfl
  rw [ht]
  cases s.recovery.marshal with
  | true =>
    rw [if_pos rfl, Bool.or_true]
    refine ⟨?_, ?_, ?_, ?_, ?_⟩
    · rw [raiseCause_eq, hframe]
    · simpa using hpaused'
    · simpa using hevents'
    · simp [raiseCause, setInterrupts_eq, bitAt_setBit_same]
    · refine ⟨vectorMessages v.mgt (setBit v.mgt.intStatus 5 true) v.mgt.intEnable, ?_⟩
      rw [hframe]
      simp [raiseCause, setInterrupts_eq]
  | false =>
    rw [if_neg (by simp), Bool.or_false]
    exact ⟨by rw [hframe], hpaused', hevents', by rw [hframe], .of_eq (by rw [hframe])⟩

/-! ## PAUSE (R317, R319 to R321) -/

/-- The state in which positions are entered as lost. -/
def entered (lost : List Coord) (s : State) : State :=
  { s with recovery := { s.recovery with
    paused := true, restoring := false, kept := [], lost := s.recovery.lost ++ lost, awaited := s.recovery.awaited ++ lost
    adopted := s.recovery.adopted.filter fun c => !lost.contains c } }

/-- The pause behind its report. -/
def reported (lost : List Coord) (s : State) : State := reportLost lost (pauseJob (entered lost s))

theorem pauseFor_eq {s : State} {lost : List Coord} (hnew : s.recovery.paused = false ∨
      (lost.filter fun c => !s.recovery.lost.contains c) ≠ []) (hhalted : jobHalted s = false) :
    pauseFor lost s =
      let new := (lost.filter fun c => !s.recovery.lost.contains c).filter fun c =>
        !s.recovery.adopted.contains c || portsDown s c
      match pauseHalt (reported new s) with
      | some c => haltJob c noOp 0 (reported new s)
      | none => pauseLeave (reported new s) := by
  refine if_neg ?_
  rintro (⟨hpaused, hnone⟩ | h)
  · obtain h | h := hnew
    · exact absurd (h.symm.trans hpaused) nofun
    · exact h hnone
  · exact absurd (hhalted.symm.trans h) nofun

/-- What the report of a pause shows: the recovery with the positions, the job without its step, and HBM as it was. -/
structure Paused (lost : List Coord) (j : Job) (s t : State) : Prop where
  job : t.job = some (pausedJob j)
  recovery : t.recovery = (entered lost s).recovery
  site : t.site = s.site
  coll : t.coll = s.coll
  hbm : t.hbm = s.hbm
  paused : t.status.paused = true
  events : t.status.eventCount = s.status.eventCount + BitVec.ofNat 32 lost.length
  cause : bitAt t.mgt.intStatus 5 = (bitAt s.mgt.intStatus 5 || s.recovery.marshal)

theorem reported_paused {s : State} {j : Job} (hj : s.job = some j) (lost : List Coord) :
    Paused lost j s (reported lost s) := by
  obtain ⟨hjob, hframe⟩ := pauseJob_shows (s := entered lost s) hj
  obtain ⟨hframe', hpaused, hevents, hcause, -⟩ := reportLost_shows lost (pauseJob (entered lost s))
  generalize hu : pauseJob (entered lost s) = u at *
  have hmgt : u.mgt = s.mgt := by rw [hframe]; rfl
  have hmarshal : u.recovery.marshal = s.recovery.marshal := by rw [hframe]; rfl
  have hcount : u.status.eventCount = s.status.eventCount := by rw [hframe]; rfl
  have ht : reported lost s = reportLost lost u := by rw [reported, hu]
  rw [ht]
  rw [hmgt, hmarshal] at hcause
  rw [hcount] at hevents
  generalize reportLost lost u = t at *
  refine ⟨?_, ?_, ?_, ?_, ?_, hpaused, hevents, hcause⟩
  · rw [hframe']
    exact hjob
  all_goals rw [hframe', hframe] <;> rfl

/-- A rink of several that is still in the active set leaves it. -/
theorem pauseLeave_eq (t : State) :
    pauseLeave t = if siteSeveral t.site = true ∧ t.recovery.left = false then
        emit (.send (.leave t.rink)) { t with
          coll := { t.coll with leaves := insertNat t.coll.leaves t.rink }, recovery := { t.recovery with left := true } }
      else t := by
  unfold pauseLeave
  by_cases h : siteSeveral t.site = true ∧ t.recovery.left = false
  · rw [if_pos h, if_pos ⟨h.1, by simp [h.2]⟩]
    exact if_pos h.1
  · rw [if_neg h, if_neg (by simpa using h)]

theorem pauseLeave_frame (t : State) :
    pauseLeave t = { t with
      coll := (pauseLeave t).coll, recovery := { t.recovery with left := (pauseLeave t).recovery.left }
      sent := (pauseLeave t).sent } := by
  rw [pauseLeave_eq]
  split <;> rfl

section
variable {s t : State} {j : Job} {cs : List Coord} (h : Paused cs j s t)
include h

theorem Paused.lost : t.recovery.lost = s.recovery.lost ++ cs := by
  rw [h.recovery]
  rfl

/-- What ends the job at the Pause phase, in terms of the state before. -/
theorem Paused.pauseHalt_eq :
    pauseHalt t =
      if s.recovery.lost ++ cs = [] then none
      else if j.image.heldWritten ≠ [] then some Code.failHeldLost
      else if (s.recovery.lost ++ cs).any fun c => (s.recovery.lost ++ cs).contains (tandemOf s c) then
        some Code.failTandemLost
      else if rosterEmpty s then some Code.failNoStandby
      else none := by
  have htandem : tandemOf t = tandemOf s := by
    funext c
    simp only [tandemOf, h.site]
  have hroster : rosterEmpty t = rosterEmpty s := by simp only [rosterEmpty, h.site]
  have himage : (pausedJob j).image = j.image := (pausedJob_keeps j).2.1
  simp only [pauseHalt, h.job, Paused.lost h, himage, htandem, hroster]

/-- A pause that halts the job. -/
theorem Paused.halts (hphase : j.phase ≠ .halted) (c : U16) :
    let u := haltJob c noOp 0 t
    (∃ k, u.job = some k ∧ k.phase = .halted ∧ k.stop = c ∧ k.desc = j.desc) ∧ u.status.status = c ∧
    u.mgt.state = .halted ∧ bitAt u.mgt.intStatus 3 = true ∧ u.hbm = s.hbm := by
  have hhalts := haltJob_halts c noOp 0 h.job ((pausedJob_keeps j).2.2 hphase)
  exact ⟨⟨_, hhalts.job, rfl, rfl, (pausedJob_keeps j).1⟩, hhalts.status, hhalts.state, hhalts.cause, hhalts.hbm.trans h.hbm⟩

/-- A pause that goes on: a rink of several leaves the active set. -/
theorem Paused.leaves (hseveral : siteSeveral s.site = true) (hstay : s.recovery.left = false) :
    Out.send (.leave s.rink) ∈ (pauseLeave t).sent ∧ s.rink ∈ (pauseLeave t).coll.leaves ∧
    (pauseLeave t).recovery.left = true := by
  have hrink : t.rink = s.rink := by simp only [State.rink, h.site]
  have hleft : t.recovery.left = s.recovery.left := by rw [h.recovery]; rfl
  rw [pauseLeave_eq, if_pos ⟨h.site ▸ hseveral, hleft.trans hstay⟩, ← hrink]
  exact ⟨List.mem_append_right _ (List.mem_singleton.mpr rfl), (mem_insertNat _ _ _).mpr (.inr rfl), rfl⟩

/-- A pause that goes on shows what the statement lists. -/
theorem Paused.goes_on :
    let u := pauseLeave t
    u.recovery.paused = true ∧ u.recovery.lost = s.recovery.lost ++ cs ∧ u.recovery.awaited = s.recovery.awaited ++ cs ∧
    u.status.paused = true ∧ u.status.eventCount = s.status.eventCount + BitVec.ofNat 32 cs.length ∧ u.hbm = s.hbm ∧
    u.job = some (pausedJob j) ∧ bitAt u.mgt.intStatus 5 = (bitAt s.mgt.intStatus 5 || s.recovery.marshal) := by
  intro u
  have hframe : u = _ := pauseLeave_frame t
  have hrecovery : u.recovery = { t.recovery with left := u.recovery.left } := by rw [hframe]
  rw [h.recovery] at hrecovery
  refine ⟨by rw [hrecovery]; rfl, by rw [hrecovery]; rfl, by rw [hrecovery]; rfl, ?_, ?_, ?_, ?_, ?_⟩
  · rw [hframe]
    exact h.paused
  · rw [hframe]
    exact h.events
  · rw [hframe]
    exact h.hbm
  · rw [hframe]
    exact h.job
  · rw [hframe]
    exact h.cause

end

theorem jobHalted_eq {s : State} {j : Job} (hj : s.job = some j) : jobHalted s = decide (j.phase = .halted) := by
  simp only [jobHalted, hj]

theorem exec_pause {s : State} {lost : List Coord} (h : lost ≠ []) : exec (.pause lost) s = .next (pauseFor lost s) := if_neg h

/-- Settles O42: a notice ends or halts the job; a lost module pauses the rink, or halts its job. -/
theorem lossPausesTheRink : Obligations.LossPausesTheRink := by
  unfold Obligations.LossPausesTheRink
  intro s j lost found code hj fresh new all gone halts noticed
  refine ⟨fun hcode hne => ?_, ?_, fun hcode hphase => ?_, fun hcode hphase => ?_, fun l _ hcause hlost k hk => ?_,
    fun hmarshal hgone => ?_, fun hnone => ?_, fun hnone => ?_, fun hlost hnew hphase => ?pause, fun hawaited hphase => ?_,
    fun hnone => ?_⟩
  · refine ⟨_, exec_stopNotice code hj, ?_⟩
    have hnotice : takeNotice code j s = concludeJob code s :=
      (if_neg hne).trans (if_neg (by simp [hcode]))
    rw [hnotice]
    exact concludeJob_notices code hj
  · refine ⟨_, exec_stopNotice _ hj, ?_⟩
    have hnotice : takeNotice 0x0003 j s = concludeJob (abortStatus j) s := if_pos rfl
    rw [hnotice, abortStatus_eq]
    exact concludeJob_notices _ hj
  · have hhalts := takeHalt_halts code noOp 0 hj hphase
    refine ⟨_, (exec_stopNotice code hj).trans (by rw [takeNotice_halt hcode, if_neg hphase]), ⟨_, hhalts.job, rfl, rfl, rfl⟩,
      hhalts.status, hhalts.state, hhalts.cause, hhalts.hbm⟩
  · rw [exec_stopNotice code hj, takeNotice_halt hcode, if_pos hphase]
  · rw [isLost, hcause] at hlost
    have hdown : portsDown s l.at' = true := hlost
    unfold portsDown at hdown
    rw [Bool.and_eq_true] at hdown
    simpa using List.all_eq_true.mp hdown.2 k hk
  · have hexec : exec (.moduleLost found) s = .next (pauseFor gone (emit (.send (.pause gone)) s)) :=
      if_neg (by simp [hmarshal, gone, hgone])
    rw [hexec]
    exact (exec_pause hgone).symm
  · exact if_pos (hnone.imp (fun h => by simp [h]) id)
  · by_cases hempty : lost = []
    · exact if_pos hempty
    · rw [exec_pause hempty]
      refine congrArg Host.Outcome.next (if_pos ?_)
      obtain h | h | h := hnone
      · exact absurd h hempty
      · exact .inl h
      · exact .inr (by simp [jobHalted_eq hj, h])
  case pause =>
    have hpause := pauseFor_eq hnew (by simp [jobHalted_eq hj, hphase])
    have h := reported_paused hj new
    have hexec : exec (.pause lost) s = .next (match pauseHalt (reported new s) with
        | some c => haltJob c noOp 0 (reported new s)
        | none => pauseLeave (reported new s)) := (exec_pause hlost).trans (congrArg Host.Outcome.next hpause)
    rw [h.pauseHalt_eq] at hexec
    have hpair : (all.any fun c => all.contains (tandemOf s c)) = true ↔ ∃ c ∈ all, tandemOf s c ∈ all := by simp
    have halone (hno : ∀ c ∈ all, tandemOf s c ∉ all) : ¬ (all.any fun c => all.contains (tandemOf s c)) = true :=
      fun h => by
        obtain ⟨c, hc, ht⟩ := hpair.mp h
        exact hno c hc ht
    refine ⟨fun hall hheld => ?_, fun hheld htandem => ?_, fun hall hheld hno hroster => ?_, fun hheld hno hroster => ?_⟩
    · rw [if_neg hall, if_pos hheld] at hexec
      exact ⟨_, hexec, h.halts hphase _⟩
    · have hall : all ≠ [] := by
        obtain ⟨c, hc, -⟩ := htandem
        exact List.ne_nil_of_mem hc
      rw [if_neg hall, if_neg (by simp [hheld]), if_pos (hpair.mpr htandem)] at hexec
      exact ⟨_, hexec, h.halts hphase _⟩
    · rw [if_neg hall, if_neg (by simp [hheld]), if_neg (halone hno), if_pos hroster] at hexec
      exact ⟨_, hexec, h.halts hphase _⟩
    · rw [if_neg (by simp [hheld] : ¬ j.image.heldWritten ≠ []), if_neg (halone hno),
        if_neg (Bool.eq_false_iff.mp hroster), ite_self] at hexec
      obtain ⟨hpaused, hall, hawaited, hstatus, hevents, hhbm, hjob, hcause⟩ := h.goes_on
      refine ⟨_, hexec, hpaused, hall, hawaited, hstatus, hevents, hhbm, fun hrun => ?_, fun hidle => ?_, hcause, h.leaves⟩
      · rw [hjob, pausedJob]
        obtain hrun | hrun | hrun := hrun <;> rw [hrun]
      · rw [hjob, pausedJob]
        obtain hidle | hidle | hidle | hidle := hidle <;> rw [hidle]
  · have hhalts := haltJob_halts Code.failNoStandby noOp 0 hj hphase
    refine ⟨haltJob Code.failNoStandby noOp 0 s, if_neg (by simp [jobHalted_eq hj, hawaited, hphase]), ⟨_, hhalts.job, rfl, rfl,
      rfl⟩, hhalts.status, hhalts.state, hhalts.cause, hhalts.hbm⟩
  · exact if_pos (hnone.imp_right fun h => by simp [jobHalted_eq hj, h])

end Sys2Proof.Machine
end

section
/-! What the replica reduction changes as it goes on (O40). -/

namespace Sys2Proof.Machine

/-! ## The units and the engine as the reduction goes on (R297 to R303) -/

/-- Of the state the replica reduction changes HBM, stores, units, ended parts and the recovery's notes of swept pages, and
of the engine's state the gathers, the arrivals and the settled carry; everything sent stays sent. -/
structure ReplicaGoes (s t : State) : Prop where
  frame : t = { s with
    hbm := t.hbm, cores := t.cores, msu := t.msu, ended := t.ended, recovery := t.recovery, sent := t.sent
    coll := { s.coll with gathers := t.coll.gathers, arrivals := t.coll.arrivals, carried := t.coll.carried } }
  sent : SentGrows s t

namespace ReplicaGoes

theorem refl (s : State) : ReplicaGoes s s := ⟨rfl, .refl s⟩

theorem trans {s t u : State} (h : ReplicaGoes s t) (h' : ReplicaGoes t u) : ReplicaGoes s u :=
  ⟨by rw [h'.frame, h.frame], h.sent.trans h'.sent⟩

theorem foldl {α : Type} {g : State → α → State} (h : ∀ t x, ReplicaGoes t (g t x)) (xs : List α) (s : State) :
    ReplicaGoes s (xs.foldl g s) :=
  List.foldlRecOn (motive := ReplicaGoes s) xs _ (.refl s) fun t ht x _ => ht.trans (h t x)

theorem of_units {s t : State} (h : UnitsOnly s t) : ReplicaGoes s t := by
  unfold UnitsOnly at h
  refine ⟨?_, .of_eq ?_⟩ <;> rw [h]

theorem hbm (f : Hbm → Hbm) (s : State) : ReplicaGoes s { s with hbm := f s.hbm } := ⟨rfl, .of_eq rfl⟩

theorem cores (c : Cores) (s : State) : ReplicaGoes s { s with cores := c } := ⟨rfl, .of_eq rfl⟩

end ReplicaGoes

theorem replicaGoes_devWrite (a : Nat) (bs : List Byte) (s : State) : ReplicaGoes s (devWrite a bs s) :=
  .of_units (unitsOnly_devWrite a bs s)

theorem replicaGoes_locWrite (l : Loc) (off : Nat) (bs : List Byte) (s : State) : ReplicaGoes s (locWrite l off bs s) := by
  unfold locWrite
  split
  · exact .refl s
  · split
    · exact .cores _ s
    · exact .cores _ s
    · exact replicaGoes_devWrite _ _ s
    · exact .cores _ s

theorem replicaGoes_forwardPiece (ring : Bool) (op : U32) (p : Piece) (s : State) :
    ReplicaGoes s (forwardPiece ring op p s) := by
  rw [forwardPiece_eq]
  exact ⟨rfl, _, rfl⟩

theorem replicaGoes_notePiece (ring : Bool) (op : U32) (i : Nat) (s : State) : ReplicaGoes s (notePiece ring op i s) := by
  refine ⟨?_, .of_eq ?_⟩ <;> rw [notePiece_frame]

theorem replicaGoes_sendOwn (g : GatherCmd) (s : State) : ReplicaGoes s (sendOwn g s) := by
  unfold sendOwn
  dsimp only
  split
  · exact .refl s
  · split
    · exact .refl s
    · exact ((replicaGoes_locWrite _ _ _ s).trans (replicaGoes_forwardPiece _ _ _ _)).trans (replicaGoes_notePiece _ _ _ _)

theorem replicaGoes_advanceInto (r : MsuRun) (s : State) : ReplicaGoes s (advanceInto r s) :=
  .of_units (unitsOnly_advanceInto r s)

theorem replicaGoes_ite {c : Prop} [Decidable c] {s t u : State} (ht : ReplicaGoes s t) (hu : ReplicaGoes s u) :
    ReplicaGoes s (if c then t else u) := by
  split
  · exact ht
  · exact hu

theorem replicaGoes_settleBuffer (s : State) (d : OpDecl) : ReplicaGoes s (settleBuffer s d) := by
  unfold settleBuffer
  dsimp only
  split
  · exact .refl s
  · next b _ =>
    refine replicaGoes_ite (.refl s) (replicaGoes_ite (ReplicaGoes.trans ?_ (replicaGoes_sendOwn _ _)) ?_)
    all_goals exact replicaGoes_ite (replicaGoes_advanceInto _ s) (.refl s)

theorem replicaGoes_noteArrival (j : Job) (s : State) (r : Nat) : ReplicaGoes s (noteArrival j s r) := by
  unfold noteArrival
  split
  · exact .refl s
  · split
    · exact ⟨rfl, .of_eq rfl⟩
    · exact .refl s

/-! ## Carry areas (R303) -/

theorem replicaGoes_openCarry (s : State) (page : Nat) : ReplicaGoes s (openCarry s page) := by
  unfold openCarry
  split
  · exact .refl s
  · exact .hbm (fun h => { h with stamps := SMap.set 0 h.stamps page (openStamp s.status.step) }) s

theorem replicaGoes_clearBits (bitmap tiles : Nat) (s : State) : ReplicaGoes s (clearBits bitmap tiles s) :=
  (replicaGoes_devWrite _ _ s).trans (.foldl (fun t _ => replicaGoes_devWrite _ _ t) _ _)

theorem replicaGoes_writeCarry (included : Bool) (s : State) (b : ReplicaBuf) : ReplicaGoes s (writeCarry included s b) := by
  unfold writeCarry
  dsimp only
  refine ReplicaGoes.trans ?_ (replicaGoes_devWrite _ _ _)
  split
  · exact replicaGoes_clearBits _ _ s
  · exact (ReplicaGoes.foldl (g := copyCarryTile b (writeArea s b)) (fun t _ => replicaGoes_devWrite _ _ t) _ s).trans
      (replicaGoes_devWrite _ _ _)

theorem replicaGoes_closeStamp (page : Nat) (s : State) : ReplicaGoes s (closeStamp page s) := by
  refine ⟨?_, .of_eq ?_⟩ <;> rw [closeStamp_frame]

theorem replicaGoes_carryStep (included : Bool) (j : Job) (s : State) : ReplicaGoes s (carryStep included j s) := by
  have hopen : ReplicaGoes s ((allCarryPages s included j).foldl openCarry s) := .foldl replicaGoes_openCarry _ s
  unfold carryStep
  dsimp only
  split
  · refine hopen.trans (ReplicaGoes.trans ?_ (.foldl (fun v p => replicaGoes_closeStamp p v) _ _))
    exact (ReplicaGoes.foldl (replicaGoes_writeCarry included) _ _).trans ⟨rfl, .of_eq rfl⟩
  · exact hopen

theorem replicaGoes_settleCarry (s : State) : ReplicaGoes s (settleCarry s) := by
  unfold settleCarry
  split
  · exact .refl s
  · split
    · exact .refl s
    · split
      · exact .refl s
      · split
        · exact replicaGoes_carryStep _ _ s
        · exact ⟨rfl, .of_eq rfl⟩

/-! ## The reduction goes on -/

theorem replicaGoes_settleReplica (s : State) : ReplicaGoes s (settleReplica s) := by
  unfold settleReplica
  split
  · exact .refl s
  · next j _ =>
    split
    · exact ((ReplicaGoes.foldl (replicaGoes_noteArrival j) _ s).trans (.foldl replicaGoes_settleBuffer _ _)).trans
        (replicaGoes_settleCarry _)
    · exact .refl s

theorem replicaGoes_useFates (s : State) : ReplicaGoes s (useFates s) := by
  unfold useFates
  refine ReplicaGoes.trans (.foldl (fun t r => ?_) _ s) (replicaGoes_settleReplica _)
  split
  · exact .refl t
  · exact replicaGoes_advanceInto _ t

/-! ## The inclusion set forms (R300, R304) -/

/-- The formation of the inclusion set changes that set and the record, and host memory with the manifest. -/
theorem formSet_frame {s : State} {j : Job} (hj : s.job = some j) :
    formSet s = { s with
      coll := { s.coll with included := (formSet s).coll.included }
      status := (formSet s).status, hostMem := (formSet s).hostMem } := by
  unfold formSet
  split
  · rfl
  · split
    · rfl
    · let i := setOf ((members s).filter fun r => decide (fate s r = .included))
      obtain ⟨hframe, -⟩ := publishSets_shows (s := { s with coll := { s.coll with included := some i } }) hj i
      dsimp only
      rw [hframe]

theorem afterVote_shows {s : State} {j : Job} (hj : s.job = some j) :
    (afterVote s).coll.mine = s.coll.mine ∧ (afterVote s).coll.votes = s.coll.votes ∧ SentGrows s (afterVote s) := by
  have hgoes := replicaGoes_useFates (formSet s)
  have hframe := formSet_frame hj
  have hsent : (formSet s).sent = s.sent := by rw [hframe]
  refine ⟨?_, ?_, (SentGrows.of_eq hsent).trans hgoes.sent⟩
  · rw [afterVote, hgoes.frame, hframe]
  · rw [afterVote, hgoes.frame, hframe]

/-! ## Sets of rinks -/

theorem mem_rinksOf (set : U32) (r : Nat) : r ∈ rinksOf set ↔ bitAt set r = true := by
  unfold rinksOf
  rw [List.mem_filter, mem_upFrom]
  refine ⟨And.right, fun h => ⟨⟨Nat.zero_le _, ?_⟩, h⟩⟩
  by_contra hge
  have hlt : 32 ≤ r := by omega
  have : bitAt set r = false := BitVec.getLsbD_of_ge set r hlt
  rw [this] at h
  cases h

theorem bitAt_setOf (rs : List Nat) (hrs : ∀ r ∈ rs, r < 32) (k : Nat) : bitAt (setOf rs) k = decide (k ∈ rs) := by
  have hfold (m : U32) : bitAt (rs.foldl (fun m r => setBit m r true) m) k = (bitAt m k || decide (k ∈ rs)) := by
    induction rs generalizing m with
    | nil => simp
    | cons r rs ih =>
      rw [List.foldl_cons, ih fun x hx => hrs x (List.mem_cons_of_mem _ hx)]
      have hr := hrs r List.mem_cons_self
      by_cases hkr : k = r
      · rw [hkr, bitAt_setBit_same _ _ _ hr]
        simp
      · rw [bitAt_setBit_other _ _ _ _ hkr]
        simp [hkr]
  rw [setOf, hfold]
  simp [bitAt]

/-! ## The fates of the rinks, and the set that they form (R300) -/

/-- While no set has formed, a rink whose votes are all in is included where every vote is 1, and excluded otherwise. -/
theorem fate_decided {s : State} (hopen : s.coll.included = none) {r : Nat}
    (h : (∃ v ∈ rinksOf s.coll.active, SMap.get 0 s.coll.votes (32 * v + r) = 1) ∨
      ∀ v ∈ rinksOf s.coll.active, SMap.get 0 s.coll.votes (32 * v + r) = 2) :
    fate s r = if (rinksOf s.coll.active).all fun v => SMap.get 0 s.coll.votes (32 * v + r) == 2 then .included
      else .excluded := by
  unfold fate
  rw [hopen]
  dsimp only
  by_cases hzero : ∃ v ∈ rinksOf s.coll.active, SMap.get 0 s.coll.votes (32 * v + r) = 1
  · obtain ⟨v, hv, hvote⟩ := hzero
    have hnot : ¬ ((rinksOf s.coll.active).all fun v => SMap.get 0 s.coll.votes (32 * v + r) == 2) = true := fun hall => by
      have := List.all_eq_true.mp hall v hv
      rw [hvote] at this
      exact absurd this (by decide)
    rw [if_neg hnot, if_pos]
    exact List.any_eq_true.mpr ⟨_, List.mem_map_of_mem hv, by simp [hvote]⟩
  · have hall := h.resolve_left hzero
    have hyes : ((rinksOf s.coll.active).all fun v => SMap.get 0 s.coll.votes (32 * v + r) == 2) = true :=
      List.all_eq_true.mpr fun v hv => by simp [hall v hv]
    rw [if_pos hyes, if_neg, if_pos]
    · exact List.all_eq_true.mpr fun x hx => by
        obtain ⟨v, hv, rfl⟩ := List.mem_map.mp hx
        simp [hall v hv]
    · intro hany
      obtain ⟨x, hx, hone⟩ := List.any_eq_true.mp hany
      obtain ⟨v, hv, rfl⟩ := List.mem_map.mp hx
      exact hzero ⟨v, hv, by simpa using hone⟩

/-- With every fate known the set forms, is published, and stays as the reduction goes on. -/
theorem afterVote_forms {s : State} {j : Job} (hj : s.job = some j) (hseveral : siteSeveral s.site = true)
    (hopen : s.coll.included = none)
    (hvotes : ∀ r ∈ rinksOf s.coll.active, (∃ v ∈ rinksOf s.coll.active, SMap.get 0 s.coll.votes (32 * v + r) = 1) ∨
      ∀ v ∈ rinksOf s.coll.active, SMap.get 0 s.coll.votes (32 * v + r) = 2) :
    ∃ i : U32, (afterVote s).coll.included = some i ∧ (afterVote s).status.included = i ∧
      (afterVote s).status.active = s.coll.active ∧ (afterVote s).status.inclStep = s.status.step ∧
      ∀ r, bitAt i r = (bitAt s.coll.active r &&
        (rinksOf s.coll.active).all fun v => SMap.get 0 s.coll.votes (32 * v + r) == 2) := by
  let i := setOf ((members s).filter fun r => decide (fate s r = .included))
  have hknown : (members s).any (fun r => decide (fate s r = .unknown)) = false := by
    rw [List.any_eq_false]
    intro r hr
    rw [fate_decided hopen (hvotes r hr)]
    split <;> decide
  let u : State := { s with coll := { s.coll with included := some i } }
  have hform : formSet s = publishSets i u := by
    rw [formSet, if_neg (by simp [hopen]), if_neg (by simp [hknown])]
  obtain ⟨hframe, hstep, hactive, hincluded⟩ := publishSets_shows (s := u) hj i
  have hgoes := (replicaGoes_useFates (publishSets i u)).frame
  have hafter : afterVote s = useFates (publishSets i u) := by rw [afterVote, hform]
  have hstatus : (afterVote s).status = (publishSets i u).status := by rw [hafter, hgoes]
  refine ⟨i, ?_, ?_, ?_, ?_, fun r => ?_⟩
  · rw [hafter, hgoes, hframe]
  · rw [hstatus, hincluded]
  · rw [hstatus, hactive]
    exact if_pos hseveral
  · rw [hstatus, hstep]
  · have hlt : ∀ r ∈ (members s).filter fun r => decide (fate s r = .included), r < 32 := fun r hr => by
      have := (mem_upFrom 0 32 r).mp (List.mem_filter.mp (List.mem_filter.mp hr).1).1
      omega
    rw [bitAt_setOf _ hlt]
    cases hr : bitAt s.coll.active r with
    | false =>
      have hnot : r ∉ members s := fun h => absurd ((mem_rinksOf _ r).mp h) (by simp [hr])
      simp [hnot]
    | true =>
      have hmem : r ∈ members s := (mem_rinksOf _ r).mpr hr
      have hfate := fate_decided hopen (hvotes r hmem)
      rw [Bool.true_and, Bool.eq_iff_iff, decide_eq_true_iff, List.mem_filter, decide_eq_true_iff]
      refine ⟨fun h => ?_, fun h => ⟨hmem, by rw [hfate, if_pos h]⟩⟩
      by_contra hnot
      rw [hfate, if_neg hnot] at h
      exact absurd h.2 (by decide)

/-! ## Votes (R299) -/

theorem exec_cutoffDeadline {s : State} {j : Job} {d : U64} (hj : s.job = some j) (hvoting : voting s j = true)
    (hd : s.coll.deadline = some d) (hdue : d.toNat ≤ s.time.value.toNat) :
    exec .cutoffDeadline s = .next ((members s).foldl (fun t r =>
      if SMap.get 0 t.coll.mine r ≠ 0 then t else putMine r (r == t.rink || inTime t r) t) s) := by
  change execCutoffDeadline s = _
  simp [execCutoffDeadline, hj, hd, hvoting, hdue]

/-- A vote for a rink at the deadline, where none has been cast. -/
def voteLate (t : State) (r : Nat) : State :=
  if SMap.get 0 t.coll.mine r ≠ 0 then t else putMine r (r == t.rink || inTime t r) t

/-- A vote changes this module's votes and what is sent. -/
def VotesOnly (s t : State) : Prop := t = { s with coll := { s.coll with mine := t.coll.mine }, sent := t.sent }

theorem votesOnly_voteLate (t : State) (r : Nat) : VotesOnly t (voteLate t r) := by
  unfold voteLate
  split <;> rfl

theorem VotesOnly.trans {s t u : State} (h : VotesOnly s t) (h' : VotesOnly t u) : VotesOnly s u := by
  unfold VotesOnly at *
  rw [h', h]

/-- The vote that the deadline casts for a rink. -/
def lateVote (s : State) (r : Nat) : Nat := if r == s.rink || inTime s r then 2 else 1

theorem lateVote_congr {s t : State} (h : VotesOnly s t) (r : Nat) : lateVote t r = lateVote s r := by
  unfold VotesOnly at h
  rw [h]
  rfl

theorem voteLate_mine (t : State) (r k : Nat) :
    SMap.get 0 (voteLate t r).coll.mine k =
      if k = r ∧ SMap.get 0 t.coll.mine r = 0 then lateVote t r else SMap.get 0 t.coll.mine k := by
  unfold voteLate
  by_cases hcast : SMap.get 0 t.coll.mine r = 0
  · rw [if_neg (by simp [hcast])]
    by_cases hk : k = r
    · rw [if_pos ⟨hk, hcast⟩, hk]
      exact SMap.get_put_same ..
    · rw [if_neg fun h => hk h.1]
      exact SMap.get_put_other _ _ _ _ _ hk
  · rw [if_pos hcast, if_neg fun h => hcast h.2]

/-- At the deadline every rink of a list has its vote: the one cast before, or that of its arrival. -/
theorem votesLate_shows (rs : List Nat) (s : State) :
    let t := rs.foldl voteLate s
    VotesOnly s t ∧ ∀ r, SMap.get 0 t.coll.mine r =
      if r ∈ rs ∧ SMap.get 0 s.coll.mine r = 0 then lateVote s r else SMap.get 0 s.coll.mine r := by
  induction rs generalizing s with
  | nil => exact ⟨rfl, fun r => by simp⟩
  | cons x xs ih =>
    obtain ⟨hframe, hmine⟩ := ih (voteLate s x)
    have hone := votesOnly_voteLate s x
    refine ⟨hone.trans hframe, fun r => (hmine r).trans ?_⟩
    have hpos : lateVote s r ≠ 0 := by unfold lateVote; split <;> decide
    rw [lateVote_congr hone, voteLate_mine]
    by_cases hrx : r = x
    · subst hrx
      by_cases hcast : SMap.get 0 s.coll.mine r = 0 <;> simp [hcast, hpos]
    · simp [hrx]


/-! ## The contribution goes out (R297) -/

/-- Of the state the chunks of a contribution keep the place in the machine and the engine's state, and all that is sent. -/
structure Chunks (s t : State) : Prop where
  site : t.site = s.site
  coll : t.coll = s.coll
  sent : SentGrows s t

namespace Chunks

theorem refl (s : State) : Chunks s s := ⟨rfl, rfl, .refl s⟩

theorem trans {s t u : State} (h : Chunks s t) (h' : Chunks t u) : Chunks s u :=
  ⟨h'.site.trans h.site, h'.coll.trans h.coll, h.sent.trans h'.sent⟩

theorem foldl {α : Type} {g : State → α → State} (h : ∀ t x, Chunks t (g t x)) (xs : List α) (s : State) :
    Chunks s (xs.foldl g s) :=
  List.foldlRecOn (motive := Chunks s) xs _ (.refl s) fun t ht x _ => ht.trans (h t x)

theorem of_units {s t : State} (h : UnitsOnly s t) : Chunks s t := by
  obtain ⟨-, -, hcoll, -, hsent, hsite, -⟩ := h.keeps
  exact ⟨hsite, hcoll, .of_eq hsent⟩

theorem of_stop {code : U16} (hc : isHalt code = false) (op : U32) (loc : U64) (s : State) :
    Chunks s (stopJob code op loc s) := by
  refine ⟨by simp, by simp, ?_⟩
  unfold stopJob
  split
  · exact .refl s
  · rw [if_neg (by simp [hc])]
    have hend := ((SentGrows.of_eq (s := s) (t := postEvent code op 0 loc s) (by simp)).emit
      (.send (.stopNotice code))).trans (sentGrows_concludeJob code _)
    unfold leaveRink
    split
    · exact hend.emit _
    · exact hend

end Chunks

theorem chunks_segmentIn (d : ReduceDecl) (g : Segment) (s : State) : Chunks s (segmentIn d g s) := by
  unfold segmentIn
  dsimp only
  split
  · exact .refl s
  split
  · exact .of_stop rfl _ _ s
  split
  · exact .of_stop rfl _ _ s
  · exact .of_units (unitsOnly_advanceInto _ s)

theorem chunks_closeIn (d : ReduceDecl) (source : Nat) (c : Close) (s : State) : Chunks s (closeIn d source c s) := by
  unfold closeIn
  dsimp only
  split
  · exact .refl s
  split
  · exact .refl s
  split
  · exact .of_stop rfl _ _ s
  · exact .of_units (unitsOnly_advanceInto _ s)

theorem chunks_feedContribution (d : ReduceDecl) (w : Nat) (s : State) (c : Contribution) :
    Chunks s (feedContribution d w s c) := by
  have hsegs : Chunks s (c.segs.foldl (feedSegment d) s) := .foldl (fun t g => by
    unfold feedSegment
    split
    · exact chunks_segmentIn d g t
    · exact .refl t) _ s
  unfold feedContribution
  dsimp only
  split
  · exact hsegs.trans (chunks_closeIn _ _ _ _)
  · exact hsegs

theorem chunks_sendChunk (op : U32) (b : ReplicaBuf) (w : Nat) (s : State) (r : Nat) :
    Chunks s (sendChunk op b w s r) := by
  unfold sendChunk
  dsimp only
  split
  · exact chunks_feedContribution _ _ _ _
  · exact ⟨rfl, rfl, _, rfl⟩

/-- The chunk of another rink goes out with its close, which carries the weight. -/
theorem sendChunk_close (op : U32) (b : ReplicaBuf) (w : Nat) (s : State) (r : Nat) (hr : r ≠ s.rink) :
    ∃ n, Out.close (counterpart s r) op s.M ⟨n, w⟩ ∈ (sendChunk op b w s r).sent := by
  unfold sendChunk
  dsimp only
  rw [if_neg hr]
  exact ⟨_, List.mem_append_right _ (List.mem_append_right _ List.mem_cons_self)⟩

theorem mem_sent_of_grows {s t : State} (h : SentGrows s t) {o : Out} (ho : o ∈ s.sent) : o ∈ t.sent := by
  obtain ⟨more, hmore⟩ := h
  rw [hmore]
  exact List.mem_append_left _ ho

/-- Every other rink of a list gets its close. -/
theorem sendChunks_closes (op : U32) (b : ReplicaBuf) (w : Nat) (rs : List Nat) (s : State) :
    ∀ r ∈ rs, r ≠ s.rink → ∃ n, Out.close (counterpart s r) op s.M ⟨n, w⟩ ∈ (rs.foldl (sendChunk op b w) s).sent := by
  induction rs generalizing s with
  | nil => nofun
  | cons x xs ih =>
    intro r hr hother
    have hone := chunks_sendChunk op b w s x
    have hrest := Chunks.foldl (chunks_sendChunk op b w) xs (sendChunk op b w s x)
    have hsite := hone.site
    obtain rfl | hmem := List.mem_cons.mp hr
    · obtain ⟨n, hn⟩ := sendChunk_close op b w s r hother
      exact ⟨n, mem_sent_of_grows hrest.sent hn⟩
    · obtain ⟨n, hn⟩ := ih (sendChunk op b w s x) r hmem (by simpa [State.rink, hsite] using hother)
      refine ⟨n, ?_⟩
      simpa [counterpart, State.M, State.coord, hsite] using hn

theorem unitsOnly_addCarry (op : U32) (b : ReplicaBuf) (s : State) : UnitsOnly s (addCarry op b s) :=
  UnitsOnly.foldl (fun t x => by
    unfold addCarryTile
    exact ((unitsOnly_devWrite _ _ t).trans (unitsOnly_devWrite _ _ _)).trans (unitsOnly_addTally _ _ _)) _ s

/-- A rink that is not excluded sends its contribution: the buffer is noted, and each other member gets its close. -/
theorem contribute_shows {s : State} {op : U32} {i : Nat} {b : ReplicaBuf} (hfate : fate s s.rink ≠ .excluded) :
    i ∈ (contribute op i b s).coll.sentBufs ∧
    ∀ r ∈ members s, r ≠ s.rink →
      ∃ n, Out.close (counterpart s r) op s.M ⟨n, ownWeight s b⟩ ∈ (contribute op i b s).sent := by
  let v := if carryMode s then addCarry op b s else s
  let t := putWeight s.rink (ownWeight s b) v
  let u := endPart op { t with coll := { t.coll with sentBufs := t.coll.sentBufs ++ [i] } }
  have hv : UnitsOnly s v := by
    simp only [v]
    split
    · exact unitsOnly_addCarry op b s
    · exact .refl s
  obtain ⟨-, -, hcoll, -, -, hsite, -⟩ := hv.keeps
  have husite : u.site = s.site := hsite
  have hucoll : u.coll = { s.coll with
      weights := SMap.put s.coll.weights s.rink (ownWeight s b), sentBufs := s.coll.sentBufs ++ [i] } := by
    simp only [u, endPart, t, putWeight, hcoll]
  have hrink : u.rink = s.rink := by simp [State.rink, husite]
  have hmembers : members u = members s := by rw [members, hucoll]; rfl
  have hufate : fate u u.rink ≠ .excluded := by
    rw [hrink]
    unfold fate at hfate ⊢
    rw [hucoll]
    exact hfate
  have hcontribute : contribute op i b s = settleReplica ((members s).foldl (sendChunk op b (ownWeight s b)) u) := by
    rw [← hmembers]
    exact congrArg settleReplica (if_neg hufate)
  have hfold := Chunks.foldl (chunks_sendChunk op b (ownWeight s b)) (members s) u
  have hgoes := replicaGoes_settleReplica ((members s).foldl (sendChunk op b (ownWeight s b)) u)
  rw [hcontribute]
  refine ⟨?_, fun r hr hother => ?_⟩
  · rw [hgoes.frame]
    change i ∈ ((members s).foldl (sendChunk op b (ownWeight s b)) u).coll.sentBufs
    rw [hfold.coll, hucoll]
    exact List.mem_append_right _ List.mem_cons_self
  · obtain ⟨n, hn⟩ := sendChunks_closes op b (ownWeight s b) (members s) u r hr (by rwa [hrink])
    refine ⟨n, mem_sent_of_grows hgoes.sent ?_⟩
    simpa [counterpart, State.M, State.coord, husite] using hn

/-! ## The release of the barrier sets T_r and D_r (R298) -/

theorem bufferOf_congr {s t : State} (hjob : t.job = s.job) (hstatus : t.status = s.status) (op : U32) :
    bufferOf t op = bufferOf s op := by
  unfold bufferOf stepOps
  rw [hjob, hstatus]

theorem noteDeadline_shows {s : State} {j : Job} (hj : s.job = some j) {op : U32} {b : ReplicaBuf}
    (hb : bufferOf s op = some b) (htr : s.coll.tr = none) (rel : U64) :
    noteDeadline op rel s = setDeadline j rel s := by
  unfold noteDeadline
  rw [hj]
  exact if_pos ⟨by simp [hb], htr⟩

theorem startDump_coll (op : U32) (s : State) : (startDump op s).coll = s.coll := by
  unfold startDump
  split
  · rfl
  · split <;> rfl

theorem confirmSnapshot_times (op : U32) (s : State) :
    (confirmSnapshot op s).coll.tr = s.coll.tr ∧ (confirmSnapshot op s).coll.deadline = s.coll.deadline := by
  unfold confirmSnapshot
  split <;> exact ⟨rfl, rfl⟩

/-- The release of the barrier of the step's first replica reduction. -/
theorem exec_barrierRelease_replica {s : State} {j : Job} (hj : s.job = some j) {op : U32} {b : ReplicaBuf}
    (hb : bufferOf s op = some b) (hentered : op ∈ s.coll.entered) (htr : s.coll.tr = none) (machine : Bool)
    (release : U64) :
    Answers (.barrierRelease op machine release) s fun t =>
      t.coll.tr = some (releaseTime machine release s) ∧ t.coll.deadline = if Desc.replayMode j.desc then none
        else (cutoffOf s j).map fun us => releaseTime machine release s + BitVec.ofNat 64 (1000 * us) := by
  let rel := releaseTime machine release s
  let v := noteRelease op rel s
  let u := if isRoot v machine then emit (.send (.barrierRelease op rel)) v else v
  have hu : u.job = s.job ∧ u.status = s.status ∧ u.coll.tr = s.coll.tr ∧ u.config = s.config := by
    simp only [u]
    split <;> exact ⟨rfl, rfl, rfl, rfl⟩
  obtain ⟨hjob, hstatus, hutr, hconfig⟩ := hu
  have hnote : noteDeadline op rel u = setDeadline j rel u :=
    noteDeadline_shows (hjob.trans hj) ((bufferOf_congr hjob hstatus op).trans hb) (hutr.trans htr) rel
  have hcut : cutoffOf u j = cutoffOf s j := by unfold cutoffOf; rw [hconfig]
  obtain ⟨htimes, hdeadline⟩ := confirmSnapshot_times op (startDump op (noteDeadline op rel u))
  refine ⟨confirmSnapshot op (startDump op (noteDeadline op rel u)), if_neg (by simp [hentered]), ?_, ?_⟩
  · rw [htimes, startDump_coll, hnote]
    rfl
  · rw [hdeadline, startDump_coll, hnote, ← hcut]
    rfl

/-! ## A module's own vote, and its rink's (R299, R300) -/

/-- A module votes 1 for its own rink, and with the other modules' votes the rink votes. -/
theorem exec_vote_own {s : State} {j : Job} (hj : s.job = some j) (hvoting : voting s j = true)
    (hactive : bitAt s.coll.active s.rink = true) (hmine : SMap.get 0 s.coll.mine s.rink = 0)
    (hvote : SMap.get 0 s.coll.votes (32 * s.rink + s.rink) = 0) {others : List Bool}
    (hothers : others.length + 1 = s.rinkSize) :
    Answers (.vote s.rink others) s fun t =>
      SMap.get 0 t.coll.mine s.rink = 2 ∧ Out.send (.vote s.rink true) ∈ t.sent ∧
      Out.send (.rinkVote s.rink (others.all id)) ∈ t.sent ∧
      SMap.get 0 t.coll.votes (32 * s.rink + s.rink) = if others.all id then 2 else 1 := by
  let u := putMine s.rink true s
  let v := emit (.send (.rinkVote s.rink (others.all id))) (putRinkVote s.rink s.rink (others.all id) u)
  have hcast : castVote s.rink s = u := by
    unfold castVote
    rw [if_neg (by simp [hmine]), if_pos (.inl rfl)]
  have humine : SMap.get 0 u.coll.mine s.rink = 2 := SMap.get_put_same ..
  have hrinkVote : rinkVote s.rink others u = afterVote v := by
    unfold rinkVote
    have hsize : u.rinkSize = s.rinkSize := rfl
    have hurink : u.rink = s.rink := rfl
    have hvotes : u.coll.votes = s.coll.votes := rfl
    rw [humine, hsize, hurink, hvotes, if_neg (by simp [hothers, hvote])]
    rfl
  obtain ⟨hvmine, hvvotes, hsent⟩ := afterVote_shows (s := v) (j := j) hj
  refine ⟨afterVote v, ?_, ?_, mem_sent_of_grows hsent ?_, mem_sent_of_grows hsent ?_, ?_⟩
  · change execVote s.rink others s = _
    simp [execVote, hj, hvoting, hactive, hcast, hrinkVote]
  · rw [hvmine]
    exact humine
  · exact List.mem_append_left _ (List.mem_append_right _ List.mem_cons_self)
  · exact List.mem_append_right _ List.mem_cons_self
  · rw [hvvotes]
    exact SMap.get_put_same ..

theorem siteSeveral_of_voting {s : State} {j : Job} (h : voting s j = true) : siteSeveral s.site = true := by
  simp only [voting, Bool.and_eq_true] at h
  exact h.1.1.2

/-- The rink's vote that leaves no fate open forms the set. -/
theorem exec_rinkVoteReceive_forms {s : State} {j : Job} (hj : s.job = some j) {voter rink : Nat} {one : Bool}
    (hvoting : voting s j = true) (hvoter : bitAt s.coll.active voter = true) (hrink : bitAt s.coll.active rink = true)
    (hnew : SMap.get 0 s.coll.votes (32 * voter + rink) = 0) :
    exec (.rinkVoteReceive voter rink one) s = .next (afterVote (putRinkVote voter rink one s)) := by
  change execRinkVoteReceive voter rink one s = _
  simp [execRinkVoteReceive, hj, hvoting, hvoter, hrink, hnew]

/-! ## A leave notice (R306) -/

theorem exec_leaveNotice_aborts {s : State} {j : Job} (hj : s.job = some j) {rink : Nat}
    (hseveral : siteSeveral s.site = true) (hactive : bitAt s.coll.active rink = true) (hlt : rink < 32)
    (hphase : j.phase = .inStep) (hopen : s.coll.included = none) :
    Answers (.leaveNotice rink) s fun t =>
      t.job = some { j with phase := .aborted } ∧
      ∀ r, r < 32 → bitAt t.coll.active r = (bitAt s.coll.active r && decide (r ≠ rink)) := by
  refine ⟨abortStep (dropRink rink s), ?_, abortStep_job _ j hj, fun r hr => ?_⟩
  · change execLeaveNotice rink s = _
    simp [execLeaveNotice, hseveral, hactive, hlt, inStep, hj, hphase, hopen]
  · have hcoll : (abortStep (dropRink rink s)).coll = (dropRink rink s).coll := by simp
    rw [hcoll]
    change bitAt (setBit s.coll.active rink false) r = _
    by_cases heq : r = rink
    · rw [heq, bitAt_setBit_same _ _ _ hlt]
      simp
    · rw [bitAt_setBit_other _ _ _ _ heq]
      simp [heq]

theorem exec_leaveNotice_later {s : State} {rink : Nat} (hseveral : siteSeveral s.site = true)
    (hactive : bitAt s.coll.active rink = true) (hlt : rink < 32) (hformed : s.coll.included ≠ none) :
    Answers (.leaveNotice rink) s fun t =>
      t = { s with coll := { s.coll with leaves := t.coll.leaves } } ∧ rink ∈ t.coll.leaves := by
  refine ⟨{ s with coll := { s.coll with leaves := insertNat s.coll.leaves rink } }, ?_, rfl,
    (mem_insertNat _ _ _).mpr (.inr rfl)⟩
  change execLeaveNotice rink s = _
  simp [execLeaveNotice, hseveral, hactive, hlt, hformed]

/-- Settles O40: the release sets the two times, a contribution goes out with its closes, votes follow the arrivals, and the
set holds the rinks that every member votes for. -/
theorem inclusionFollowsTheVotes : Obligations.InclusionFollowsTheVotes := by
  intro s j op voter rink one machine release others hj
  refine ⟨fun b hb hentered htr => exec_barrierRelease_replica hj hb hentered htr machine release, ?_,
    fun hvoting hactive hmine hvote hothers => exec_vote_own hj hvoting hactive hmine hvote hothers, ?_, ?_, ?_⟩
  · intro i b hi hacts hseveral hunsent hactive
    have hgo (h : contributionWaits s j op b = false) :
        exec (.replicaReduction op i) s = .next (contribute op i b s) := by
      change execReplicaReduction op i s = _
      simp [execReplicaReduction, hj, hi, hacts, hseveral, hunsent, hactive, h]
    refine ⟨fun hwaits => ?_, fun hready hfate => ⟨_, hgo hready, contribute_shows hfate⟩⟩
    change execReplicaReduction op i s = _
    simp [execReplicaReduction, hj, hi, hacts, hseveral, hunsent, hactive, hwaits]
  · intro hvoting d hd hdue
    obtain ⟨hframe, hmine⟩ := votesLate_shows (members s) s
    refine ⟨_, exec_cutoffDeadline hj hvoting hd hdue, hframe, fun r hr => ?_⟩
    refine (hmine r).trans ?_
    have hlate : lateVote s r = if r = s.rink ∨ (s.coll.arrivals.any fun e => e.1 == r && decide (e.2.toNat ≤ d.toNat)) = true
        then 2 else 1 := by
      unfold lateVote inTime
      simp only [hd, Bool.or_eq_true, beq_iff_eq]
    have hmem : r ∈ members s := hr
    by_cases hcast : SMap.get 0 s.coll.mine r = 0
    · rw [if_pos ⟨hmem, hcast⟩, if_neg (by simp [hcast]), hlate]
    · rw [if_neg fun h => hcast h.2, if_pos hcast]
  · intro _ hvoting hvoter hrink hnew hopen hvotes
    exact ⟨_, exec_rinkVoteReceive_forms hj hvoting hvoter hrink hnew,
      afterVote_forms (s := putRinkVote voter rink one s) hj (siteSeveral_of_voting hvoting) hopen hvotes⟩
  · intro hseveral hactive hlt
    exact ⟨exec_leaveNotice_aborts hj hseveral hactive hlt, exec_leaveNotice_later hseveral hactive hlt⟩

end Sys2Proof.Machine
end

section
/-! The Gatehouse places, tests, replaces and writes samples (O58). -/

namespace Sys2Proof.Machine

/-! ## One channel changes -/

/-- Only the channels of the Gatehouse have changed, and of those only channel `n`. -/
def OnlyChan (s : State) (n : Nat) (t : State) : Prop :=
  t = { s with gatehouse := { s.gatehouse with chans := t.gatehouse.chans } } ∧ ∀ q, q ≠ n → getChan t q = getChan s q

theorem onlyChan_setChan (s : State) (n : Nat) (f : GhChan → GhChan) : OnlyChan s n (setChan n f s) :=
  ⟨rfl, fun q hq => nthD_updNth_other GhChan.reset f s.gatehouse.chans n q hq⟩

theorem getChan_setChan_same {s : State} {n : Nat} (hn : n < s.gatehouse.chans.length) (f : GhChan → GhChan) :
    getChan (setChan n f s) n = f (getChan s n) :=
  nthD_updNth_same GhChan.reset f s.gatehouse.chans n hn

/-- A command that puts a channel's next value answers with that value in the channel and everything else kept. -/
theorem answers_setChan {s : State} {n : Nat} (hn : n < s.gatehouse.chans.length) {f : GhChan → GhChan} {cmd : Instr}
    (hexec : exec cmd s = .next (setChan n f s)) {P : GhChan → Prop} (hP : P (f (getChan s n))) :
    Answers cmd s fun t => OnlyChan s n t ∧ P (getChan t n) :=
  ⟨_, hexec, onlyChan_setChan s n f, by rwa [getChan_setChan_same hn]⟩

/-! ## Counts of the batch (R346, R348) -/

/-- A channel's counts have grown by what `more` names. -/
def Counted (c c' : GhChan) (more : Nat → Nat) : Prop := ∀ q, nthD 0 c'.tally q = nthD 0 c.tally q + more q

theorem counted_same {c c' : GhChan} (h : c'.tally = c.tally) (m : Nat) : Counted c c' fun q => if q = m then 0 else 0 :=
  fun q => by rw [h]; simp

theorem tallyAdd_length (m n : Nat) (c : GhChan) : (tallyAdd m n c).tally.length = c.tally.length := updNth_length _ _ _

theorem nthD_tallyAdd {c : GhChan} {m : Nat} (hm : m < c.tally.length) (n q : Nat) :
    nthD 0 (tallyAdd m n c).tally q = nthD 0 c.tally q + if q = m then n else 0 := by
  rw [tallyAdd, nthD_updNth 0 _ hm]
  split <;> rfl

theorem counted_tallyAdd {c c' : GhChan} (hlen : c.tally.length = 12) (h : c'.tally = c.tally) {m : Nat} (hm : m < 12)
    (n : Nat) : Counted c (tallyAdd m n c') fun q => if q = m then n else 0 := fun q => by
  rw [nthD_tallyAdd (by rw [h, hlen]; exact hm), h]

theorem causeNo_lt (k : OddCause) : causeNo k < 12 := by cases k <;> decide

/-- A placed content adds its conversion counts. -/
theorem counted_countContent {c c' : GhChan} {more : Nat}
    (h : Counted c c' fun q => if q = 7 then more else 0) (hlen' : c'.tally.length = 12) (tl : Tally) :
    Counted c (countContent tl c') fun q => if q = 7 then more else if q = 10 then tl.sat else if q = 11 then tl.flush else 0 := by
  intro q
  rw [countContent, nthD_tallyAdd (by rw [tallyAdd_length, hlen']; decide), nthD_tallyAdd (by rw [hlen']; decide), h q]
  by_cases h7 : q = 7
  · subst h7; simp
  by_cases h10 : q = 10
  · subst h10; simp
  · simp [h7, h10]

theorem learn_tally (looks : Nat) (c : GhChan) : (learn looks c).tally = c.tally := by
  unfold learn
  split <;> rfl

theorem learn_samples (looks : Nat) (c : GhChan) : (learn looks c).samples = c.samples := by
  unfold learn
  split <;> rfl

theorem learn_used (looks : Nat) (c : GhChan) : (learn looks c).used = c.used := by
  unfold learn
  split <;> rfl

/-! ## The dictionary (R341) -/

theorem exec_dictionaryLoad {s : State} {j : Job} (hj : s.job = some j) :
    exec .dictionaryLoad s =
      if (ghRuns s && usesDict j && !s.gatehouse.loaded) = false then .next s
      else match parseDict (devRead s (Desc.dictAddr j.desc) 64)
          (devRead s (Desc.dictAddr j.desc + 64) (dictExtent s (Desc.dictAddr j.desc) - 64)) with
        | none => .next s
        | some (es, fb) =>
          .next { s with gatehouse := { s.gatehouse with dict := es, fallback := fb, loaded := true } } := by
  change execDictionaryLoad s = _
  unfold execDictionaryLoad
  rw [hj]
  dsimp only
  cases ghRuns s <;> cases usesDict j <;> cases s.gatehouse.loaded <;> rfl

/-! ## Descriptors (R331, R343)

The tests of a sample run a check code over its bytes, which the kernel is not to run on unknown bytes. So what a sample's
commands do is said once, in terms of the outcomes of the tests, and proved with each outcome under a name of its own. -/

theorem exec_sampleDescriptor {s : State} {j : Job} (hj : s.job = some j) (ch : Chan) (d : BitVec 512) :
    exec (.sampleDescriptor ch d) s =
      if ghRuns s ∧ mayTake s j (getChan s ch.val) then .next (setChan ch.val (takeSample ch.val d) s) else .next s := by
  change execSampleDescriptor ch d s = _
  rw [execSampleDescriptor, hj]

/-- A descriptor is taken, with its sample on the list. -/
def noteSample (d : BitVec 512) (x : Sample) (c : GhChan) : GhChan :=
  { c with taken := c.taken + 1, ended := Samp.endOfBatch d, samples := c.samples ++ [x] }

/-- A slot of a row is filled. -/
def fillRow (r len : Nat) (c : GhChan) : GhChan :=
  { c with occ := updNth (· + len) c.occ r, cnt := updNth (· + 1) c.cnt r }

/-- The channel after a descriptor, from the outcomes of its tests: the check, the slot length, the row, and the cause; `c1`
is the channel after the alive comparison. -/
def sampleOf (d : BitVec 512) (len : Nat) (ok long : Bool) (row : Option Nat) (cause : Option OddCause)
    (c c1 : GhChan) : GhChan :=
  if ok then
    if long then tallyAdd 4 1 (noteSample d ⟨d, none, false, false, none⟩ c1)
    else match row with
      | none => tallyAdd 8 1 (noteSample d ⟨d, none, false, false, none⟩ c1)
      | some r => match cause with
        | some k => tallyAdd (causeNo k) 1 (fillRow r len (noteSample d ⟨d, some r, false, true, none⟩ c1))
        | none => fillRow r len (noteSample d ⟨d, some r, true, false, none⟩ c1)
  else tallyAdd 0 1 (noteSample d ⟨d, none, false, false, none⟩ c)

theorem takeSample_eq (n : Nat) (d : BitVec 512) (c : GhChan) :
    takeSample n d c = sampleOf d (Samp.slotLen d) (descOk d) (slotLenBad c d) (placeRow c (Samp.slotLen d))
      (descCause n c false (aliveStep d c).1 d) c (aliveStep d c).2 := by
  generalize hf : takeSample = f
  delta takeSample at hf
  subst hf
  beta_reduce
  obtain ⟨cause, hcause⟩ := exists_eq' (a' := descCause n c false)
  obtain ⟨row, hrow⟩ := exists_eq' (a' := placeRow c (Samp.slotLen d))
  rw [hcause, hrow]
  obtain ⟨len, hlen⟩ := exists_eq' (a' := Samp.slotLen d)
  rw [hlen]
  rcases aliveStep d c with ⟨aliveOk, c1⟩
  cases descOk d with
  | false => rfl
  | true =>
    cases slotLenBad c d with
    | true => rfl
    | false =>
      cases row with
      | none => rfl
      | some r =>
        rw [if_pos rfl]
        dsimp only
        cases cause aliveOk d with
        | none => rfl
        | some k => rfl
/-- A descriptor has been taken: the sample is on the list, in the rows, and in the counts. -/
structure Sampled (d : BitVec 512) (c : GhChan) (x : Sample) (occ tally : List Nat) (c' : GhChan) : Prop where
  taken : c'.taken = c.taken + 1
  ended : c'.ended = Samp.endOfBatch d
  batch : c'.batch = c.batch
  samples : c'.samples = c.samples ++ [x]
  occ : c'.occ = occ
  tally : c'.tally = tally

theorem sampled_noteSample (d : BitVec 512) (x : Sample) (c : GhChan) :
    Sampled d c x c.occ c.tally (noteSample d x c) := ⟨rfl, rfl, rfl, rfl, rfl, rfl⟩

theorem Sampled.count {d : BitVec 512} {c c' : GhChan} {x : Sample} {occ tally : List Nat} (h : Sampled d c x occ tally c')
    (m n : Nat) : Sampled d c x occ (updNth (· + n) tally m) (tallyAdd m n c') :=
  ⟨h.taken, h.ended, h.batch, h.samples, h.occ, congrArg (fun l => updNth (· + n) l m) h.tally⟩

theorem Sampled.fill {d : BitVec 512} {c c' : GhChan} {x : Sample} {occ tally : List Nat} (h : Sampled d c x occ tally c')
    (r len : Nat) : Sampled d c x (updNth (· + len) occ r) tally (fillRow r len c') :=
  ⟨h.taken, h.ended, h.batch, h.samples, congrArg (fun l => updNth (· + len) l r) h.occ, h.tally⟩

/-- The alive comparison moves the alive expectation only, so a sample noted after it is noted on the channel. -/
theorem sampled_after_alive (d : BitVec 512) (x : Sample) (c : GhChan) :
    Sampled d c x c.occ c.tally (noteSample d x (aliveStep d c).2) := by
  have hsame : (aliveStep d c).2.taken = c.taken ∧ (aliveStep d c).2.batch = c.batch ∧
      (aliveStep d c).2.samples = c.samples ∧ (aliveStep d c).2.occ = c.occ ∧ (aliveStep d c).2.tally = c.tally := by
    unfold aliveStep
    split <;> exact ⟨rfl, rfl, rfl, rfl, rfl⟩
  obtain ⟨htaken, hbatch, hsamples, hocc, htally⟩ := hsame
  obtain ⟨wtaken, wended, wbatch, wsamples, wocc, wtally⟩ := sampled_noteSample d x (aliveStep d c).2
  exact ⟨by rw [wtaken, htaken], wended, by rw [wbatch, hbatch], by rw [wsamples, hsamples], by rw [wocc, hocc],
    by rw [wtally, htally]⟩

section
variable {d : BitVec 512} {c : GhChan} {n : Nat}

theorem takeSample_check (hbad : descOk d = false) :
    Sampled d c ⟨d, none, false, false, none⟩ c.occ (updNth (· + 1) c.tally 0) (takeSample n d c) := by
  rw [takeSample_eq, hbad]
  exact (sampled_noteSample d _ c).count 0 1

theorem takeSample_length (hok : descOk d = true) (hlong : slotLenBad c d = true) :
    Sampled d c ⟨d, none, false, false, none⟩ c.occ (updNth (· + 1) c.tally 4) (takeSample n d c) := by
  rw [takeSample_eq, hok, hlong]
  exact (sampled_after_alive d _ c).count 4 1

theorem takeSample_unplaced (hok : descOk d = true) (hshort : slotLenBad c d = false)
    (hrow : placeRow c (Samp.slotLen d) = none) :
    Sampled d c ⟨d, none, false, false, none⟩ c.occ (updNth (· + 1) c.tally 8) (takeSample n d c) := by
  rw [takeSample_eq, hok, hshort, hrow]
  exact (sampled_after_alive d _ c).count 8 1

variable {r : Nat} (hok : descOk d = true) (hshort : slotLenBad c d = false) (hrow : placeRow c (Samp.slotLen d) = some r)
include hok hshort hrow

theorem takeSample_placed (hcause : descCause n c false (aliveStep d c).1 d = none) :
    Sampled d c ⟨d, some r, true, false, none⟩ (updNth (· + Samp.slotLen d) c.occ r) c.tally (takeSample n d c) := by
  rw [takeSample_eq, hok, hshort, hrow, hcause]
  exact (sampled_after_alive d _ c).fill r (Samp.slotLen d)

theorem takeSample_odd {k : OddCause} (hcause : descCause n c false (aliveStep d c).1 d = some k) :
    Sampled d c ⟨d, some r, false, true, none⟩ (updNth (· + Samp.slotLen d) c.occ r)
      (updNth (· + 1) c.tally (causeNo k)) (takeSample n d c) := by
  rw [takeSample_eq, hok, hshort, hrow, hcause]
  exact ((sampled_after_alive d _ c).fill r (Samp.slotLen d)).count (causeNo k) 1

end

theorem counted_updNth {c c' : GhChan} (hlen : c.tally.length = 12) {m : Nat} (hm : m < 12)
    (h : c'.tally = updNth (· + 1) c.tally m) : Counted c c' fun q => if q = m then 1 else 0 := fun q => by
  rw [h]
  exact nthD_tallyAdd (c := c) (by rw [hlen]; exact hm) 1 q

/-! ## The reserve list (R336, R357) -/

theorem exec_reserveListRecord (ch : Chan) (rec : BitVec 512) (s : State) :
    exec (.reserveListRecord ch rec) s =
      if ghRuns s ∧ chanOn (getChan s ch.val) ∧ (getChan s ch.val).ended ∧ (getChan s ch.val).reserve = none then
        .next (setChan ch.val (takeRecord rec) s)
      else .next s := rfl

/-- A record moves the expectation of the record stream: the samples and the counts stay. -/
theorem acceptRecord_keeps (rec : BitVec 512) (c : GhChan) :
    (acceptRecord rec c).2.samples = c.samples ∧ (acceptRecord rec c).2.tally = c.tally := by
  generalize hf : acceptRecord = f
  delta acceptRecord at hf
  subst hf
  beta_reduce
  obtain ⟨guard, hguard⟩ := exists_eq' (a' := guardedValue (leBytes 59 rec.toNat) 0x4C)
  obtain ⟨part, hpart⟩ := exists_eq' (a' := field rec)
  rw [hguard, hpart]
  dsimp only
  split
  · exact ⟨rfl, rfl⟩
  · split <;> exact ⟨rfl, rfl⟩

/-- The record fits the batch: its check and stream, its batch number, its length and its zero bytes. -/
def listFits (rec : BitVec 512) (c : GhChan) : Bool :=
  (acceptRecord rec c).1 && BitVec.ofNat 64 (field rec 319 256) == c.batch && decide (field rec 327 320 ≤ 8) &&
    field rec 471 328 == 0

theorem takeRecord_eq (rec : BitVec 512) (c : GhChan) :
    takeRecord rec c = if listFits rec c then
        { (acceptRecord rec c).2 with
          reserve := some ((upFrom 0 (field rec 327 320)).map fun i => field rec (32 * i + 31) (32 * i)) }
      else tallyAdd 9 1 { (acceptRecord rec c).2 with reserve := some [] } := by
  generalize hf : takeRecord = f
  delta takeRecord at hf
  subst hf
  beta_reduce
  unfold listFits
  obtain ⟨part, hpart⟩ := exists_eq' (a' := field rec)
  rw [hpart]
  rcases acceptRecord rec c with ⟨ok, c1⟩
  refine if_congr ?_ rfl rfl
  simp [and_assoc]

/-- A record fixes the reserve list of the batch; one that does not fit is counted and leaves it empty. -/
theorem takeRecord_shows {c : GhChan} (hlen : c.tally.length = 12) (rec : BitVec 512) :
    (takeRecord rec c).samples = c.samples ∧
    (listFits rec c = true → (Counted c (takeRecord rec c) fun q => if q = 9 then 0 else 0) ∧ (takeRecord rec c).reserve =
      some ((upFrom 0 (field rec 327 320)).map fun e => field rec (32 * e + 31) (32 * e))) ∧
    (listFits rec c = false → (Counted c (takeRecord rec c) fun q => if q = 9 then 1 else 0) ∧
      (takeRecord rec c).reserve = some []) := by
  obtain ⟨hsamples, htally⟩ := acceptRecord_keeps rec c
  rw [takeRecord_eq]
  obtain ⟨c1, hc1⟩ := exists_eq' (a' := (acceptRecord rec c).2)
  rw [hc1] at hsamples htally ⊢
  cases hfits : listFits rec c with
  | true => exact ⟨hsamples, fun _ => ⟨counted_same htally 9, rfl⟩, nofun⟩
  | false => exact ⟨hsamples, nofun, fun _ => ⟨counted_tallyAdd hlen htally (by decide) 1, rfl⟩⟩

/-! ## Bytes and replacements (R344, R346) -/

section
variable {s : State} {ch : Chan} {i : Nat} {x : Sample} (hnext : nextPending (getChan s ch.val) = some i)
  (hx : (getChan s ch.val).samples[i]? = some x)
include hnext hx

theorem exec_sampleBytesArrive (bytes : Option (List Byte)) :
    exec (.sampleBytesArrive ch bytes) s =
      if ghRuns s ∧ x.awaiting then .next (setChan ch.val (takeBytes ch.val s i x bytes) s) else .next s := by
  change execSampleBytesArrive ch bytes s = _
  simp only [execSampleBytesArrive, hnext, hx]

theorem exec_reserveEntry (d : BitVec 512) (bytes : Option (List Byte)) :
    exec (.reserveEntry ch d bytes) s =
      if ghRuns s ∧ ¬ x.awaiting then .next (setChan ch.val (takeEntry ch.val s i x d bytes) s) else .next s := by
  change execReserveEntry ch d bytes s = _
  simp only [execReserveEntry, hnext, hx]

end

/-- A sample is odd: it is counted, and needs a reserve entry. -/
def missSample (i : Nat) (k : OddCause) (c : GhChan) : GhChan :=
  tallyAdd (causeNo k) 1 (setSample i (fun x => { x with awaiting := false, needsReserve := true }) c)

/-- The channel after the bytes of a sample, from what they decode to and the length of its slot. -/
def bytesOf (i slot : Nat) (dec : Decoded) (c : GhChan) : GhChan :=
  match dec with
  | .odd k => missSample i k c
  | .good content len looks counts =>
    if slot < len then missSample i .overLength c
    else learn looks (countContent counts (setSample i (fun x => { x with awaiting := false, content := some content }) c))

theorem takeBytes_eq (n : Nat) (s : State) (i : Nat) (x : Sample) (bytes : Option (List Byte)) (c : GhChan) :
    takeBytes n s i x bytes c = bytesOf i (Samp.slotLen x.desc) (decodeSample n s c x.desc bytes) c := by
  generalize hf : takeBytes = f
  delta takeBytes at hf
  subst hf
  beta_reduce
  obtain ⟨slot, hslot⟩ := exists_eq' (a' := Samp.slotLen x.desc)
  rw [hslot]
  cases decodeSample n s c x.desc bytes with
  | odd k => rfl
  | good content len looks counts => rfl

/-- The channel after a reserve entry, from its cause and from what its bytes decode to. -/
def entryTried (i slot : Nat) (cause : Option OddCause) (dec : Decoded) (c : GhChan) : GhChan :=
  match cause with
  | some k => tallyAdd (causeNo k) 1 { c with used := c.used + 1 }
  | none => match dec with
    | .odd k => tallyAdd (causeNo k) 1 { c with used := c.used + 1 }
    | .good content len looks counts =>
      if len ≤ slot then
        learn looks (countContent counts (tallyAdd 7 1 (setSample i
          (fun x => { x with needsReserve := false, content := some content }) { c with used := c.used + 1 })))
      else learn looks (setSample i (fun x => { x with needsReserve := false }) { c with used := c.used + 1 })

theorem takeEntry_eq (n : Nat) (s : State) (i : Nat) (x : Sample) (d : BitVec 512) (bytes : Option (List Byte))
    (c : GhChan) : takeEntry n s i x d bytes c =
      entryTried i (Samp.slotLen x.desc) (descCause n c true true d) (decodeSample n s c d bytes) c := by
  generalize hf : takeEntry = f
  delta takeEntry at hf
  subst hf
  beta_reduce
  obtain ⟨slot, hslot⟩ := exists_eq' (a' := Samp.slotLen x.desc)
  rw [hslot]
  cases descCause n c true true d with
  | some k => rfl
  | none =>
    cases decodeSample n s c d bytes with
    | odd k => rfl
    | good content len looks counts => rfl

section
variable {s : State} {c : GhChan} {n i : Nat} {x : Sample} {bytes : Option (List Byte)} (hlen : c.tally.length = 12)
  (hx : c.samples[i]? = some x)
include hlen hx

/-- Bytes that make a sample odd for a cause are counted under it, and the sample needs a reserve entry. -/
theorem takeBytes_odd {k : OddCause} (h : decodeSample n s c x.desc bytes = .odd k) :
    (Counted c (takeBytes n s i x bytes c) fun q => if q = causeNo k then 1 else 0) ∧
    (takeBytes n s i x bytes c).samples[i]? = some { x with awaiting := false, needsReserve := true } := by
  rw [takeBytes_eq, h]
  exact ⟨counted_tallyAdd hlen rfl (causeNo_lt k) 1, updNth_getElem _ hx⟩

/-- A content that is longer than its slot makes the sample odd. -/
theorem takeBytes_long {content : Content} {len looks : Nat} {tl : Tally}
    (h : decodeSample n s c x.desc bytes = .good content len looks tl) (hlong : Samp.slotLen x.desc < len) :
    (Counted c (takeBytes n s i x bytes c) fun q => if q = 4 then 1 else 0) ∧
    (takeBytes n s i x bytes c).samples[i]? = some { x with awaiting := false, needsReserve := true } := by
  rw [takeBytes_eq, h, bytesOf, if_pos hlong]
  exact ⟨counted_tallyAdd hlen rfl (by decide) 1, updNth_getElem _ hx⟩

/-- A content that fits is placed. -/
theorem takeBytes_good {content : Content} {len looks : Nat} {tl : Tally}
    (h : decodeSample n s c x.desc bytes = .good content len looks tl) (hfits : len ≤ Samp.slotLen x.desc) :
    (Counted c (takeBytes n s i x bytes c) fun q =>
      if q = 7 then 0 else if q = 10 then tl.sat else if q = 11 then tl.flush else 0) ∧
    (takeBytes n s i x bytes c).samples[i]? = some { x with awaiting := false, content := some content } := by
  rw [takeBytes_eq, h, bytesOf, if_neg (Nat.not_lt.mpr hfits)]
  refine ⟨?_, ?_⟩
  · have hcount := counted_countContent
      (counted_same (c := c) (c' := setSample i (fun x => { x with awaiting := false, content := some content }) c) rfl 7)
      hlen tl
    unfold Counted at hcount ⊢
    rw [learn_tally]
    exact hcount
  · rw [learn_samples]
    exact updNth_getElem _ hx

omit hx in
/-- An entry whose descriptor is bad is used up and counted. -/
theorem takeEntry_bad {d : BitVec 512} {k : OddCause} (h : descCause n c true true d = some k) :
    (Counted c (takeEntry n s i x d bytes c) fun q => if q = causeNo k then 1 else 0) ∧
    (takeEntry n s i x d bytes c).used = c.used + 1 ∧ (takeEntry n s i x d bytes c).samples = c.samples := by
  rw [takeEntry_eq, h]
  exact ⟨counted_tallyAdd hlen rfl (causeNo_lt k) 1, rfl, rfl⟩

omit hx in
/-- An entry whose bytes are odd is used up and counted. -/
theorem takeEntry_odd {d : BitVec 512} {k : OddCause} (h : descCause n c true true d = none)
    (hdecode : decodeSample n s c d bytes = .odd k) :
    (Counted c (takeEntry n s i x d bytes c) fun q => if q = causeNo k then 1 else 0) ∧
    (takeEntry n s i x d bytes c).used = c.used + 1 ∧ (takeEntry n s i x d bytes c).samples = c.samples := by
  rw [takeEntry_eq, h, hdecode]
  exact ⟨counted_tallyAdd hlen rfl (causeNo_lt k) 1, rfl, rfl⟩

/-- An entry that decodes and fits replaces the sample. -/
theorem takeEntry_good {d : BitVec 512} {content : Content} {len looks : Nat} {tl : Tally}
    (h : descCause n c true true d = none) (hdecode : decodeSample n s c d bytes = .good content len looks tl)
    (hfits : len ≤ Samp.slotLen x.desc) :
    (Counted c (takeEntry n s i x d bytes c) fun q =>
      if q = 7 then 1 else if q = 10 then tl.sat else if q = 11 then tl.flush else 0) ∧
    (takeEntry n s i x d bytes c).used = c.used + 1 ∧
    (takeEntry n s i x d bytes c).samples[i]? = some { x with needsReserve := false, content := some content } := by
  rw [takeEntry_eq, h, hdecode, entryTried, if_pos hfits]
  let c1 := setSample i (fun x => { x with needsReserve := false, content := some content }) { c with used := c.used + 1 }
  refine ⟨?_, ?_, ?_⟩
  · have hcount := counted_countContent (counted_tallyAdd (c' := c1) hlen rfl (m := 7) (by decide) 1)
      (by rw [tallyAdd_length]; exact hlen) tl
    unfold Counted at hcount ⊢
    rw [learn_tally]
    exact hcount
  · rw [learn_used]
    rfl
  · rw [learn_samples]
    exact updNth_getElem _ hx

omit hlen in
/-- An entry that decodes but is longer than the slot leaves it empty. -/
theorem takeEntry_long {d : BitVec 512} {content : Content} {len looks : Nat} {tl : Tally}
    (h : descCause n c true true d = none) (hdecode : decodeSample n s c d bytes = .good content len looks tl)
    (hlong : Samp.slotLen x.desc < len) :
    (Counted c (takeEntry n s i x d bytes c) fun q => if q = 0 then 0 else 0) ∧
    (takeEntry n s i x d bytes c).used = c.used + 1 ∧
    (takeEntry n s i x d bytes c).samples[i]? = some { x with needsReserve := false } := by
  rw [takeEntry_eq, h, hdecode, entryTried, if_neg (Nat.not_le.mpr hlong)]
  refine ⟨counted_same ?_ 0, ?_, ?_⟩
  · rw [learn_tally]
    rfl
  · rw [learn_used]
    rfl
  · rw [learn_samples]
    exact updNth_getElem _ hx

end

/-! ## A batch is complete (R331, R348) -/

/-- Counts added under the keys of a list, each once. -/
theorem get_foldl_counts (add : Nat → Nat) (ch : Nat) {is : List Nat} (his : is.Nodup) {m : SMap U32}
    (hm : SMap.wf 0 m = true) (q : Nat) :
    SMap.get 0 (is.foldl (fun m i => SMap.set 0 m (12 * ch + i) (satInc (SMap.get 0 m (12 * ch + i)) (add i))) m)
        (12 * ch + q) =
      if q ∈ is then satInc (SMap.get 0 m (12 * ch + q)) (add q) else SMap.get 0 m (12 * ch + q) := by
  induction is generalizing m with
  | nil => simp
  | cons i is ih =>
    obtain ⟨hi, his'⟩ := List.nodup_cons.mp his
    rw [List.foldl_cons, ih his' (SMap.wf_set _ _ _ _ hm)]
    by_cases hq : q = i
    · subst hq
      rw [if_neg hi, if_pos List.mem_cons_self]
      exact SMap.get_set_same _ _ _ _ hm
    · rw [SMap.get_set_other _ _ _ _ _ (by omega) hm]
      simp [hq]

theorem countBatch_frame (ch : Nat) (c : GhChan) (s : State) :
    countBatch ch c s = { s with status := { s.status with gh := (countBatch ch c s).status.gh } } := by
  unfold countBatch
  split <;> rfl

/-- A batch's counts enter the status record at its first build. -/
theorem countBatch_counts {s : State} (hwf : SMap.wf 0 s.status.gh = true) (ch : Nat) (c : GhChan) {q : Nat} (hq : q < 12) :
    SMap.get 0 (countBatch ch c s).status.gh (12 * ch + q) =
      if c.batch.toNat < c.built then SMap.get 0 s.status.gh (12 * ch + q)
      else satInc (SMap.get 0 s.status.gh (12 * ch + q)) (nthD 0 c.tally q) := by
  unfold countBatch
  split
  · rfl
  · refine (get_foldl_counts (nthD 0 c.tally) ch (by decide) hwf q).trans (if_pos ?_)
    exact (mem_upFrom 0 12 q).mpr ⟨Nat.zero_le q, by omega⟩

theorem exec_batchComplete {s : State} {j : Job} (hj : s.job = some j) {ch : Chan} (hruns : ghRuns s = true)
    (hon : chanOn (getChan s ch.val) = true) (hended : (getChan s ch.val).ended = true)
    (hreserve : (getChan s ch.val).reserve ≠ none) (hnext : nextPending (getChan s ch.val) = none) :
    exec (.batchComplete ch) s = .next (completeBatch j ch.val s) := by
  change execBatchComplete ch s = _
  rw [execBatchComplete, hj]
  exact if_pos ⟨hruns, hon, hended, hreserve, hnext⟩

/-- A complete batch is written and counted, and the next one begins. -/
theorem completeBatch_shows {s : State} {j : Job} {n : Nat} {b : BatchDecl} (hn : n < s.gatehouse.chans.length)
    (hb : j.image.batch = some b) (hwf : SMap.wf 0 s.status.gh = true) :
    let c := getChan s n
    let t := completeBatch j n s
    let a := sectionAddr b (batchStep j c) n
    devRead t a (sectionBytes c).length = sectionBytes c ∧
    (∀ y m, y + m ≤ a ∨ a + (sectionBytes c).length ≤ y → devRead t y m = devRead s y m) ∧
    getChan t n = nextBatch c ∧ (∀ q, q ≠ n → getChan t q = getChan s q) ∧
    ∀ q, q < 12 → SMap.get 0 t.status.gh (12 * n + q) =
      if c.batch.toNat < c.built then SMap.get 0 s.status.gh (12 * n + q)
      else satInc (SMap.get 0 s.status.gh (12 * n + q)) (nthD 0 c.tally q) := by
  intro c t a
  let v := devWrite a (sectionBytes c) s
  let u := countBatch n c v
  have ht : t = setChan n nextBatch u := by
    simp only [t, completeBatch, hb]
    rfl
  have hu : u = { v with status := { v.status with gh := u.status.gh } } := countBatch_frame n c v
  have hhbm : t.hbm = v.hbm := by rw [ht, hu]; rfl
  have hchans : u.gatehouse = s.gatehouse := by rw [hu]; rfl
  have hread (y m : Nat) : devRead t y m = devRead v y m := by unfold devRead; rw [hhbm]
  have hun : getChan u n = c := by unfold getChan; rw [hchans]; rfl
  refine ⟨?_, fun y m h => ?_, ?_, fun q hq => ?_, fun q hq => ?_⟩
  · rw [hread]
    exact devRead_devWrite_same a (sectionBytes c) s
  · rw [hread]
    exact devRead_devWrite_other a (sectionBytes c) s y m h
  · rw [ht, getChan_setChan_same (by rwa [hchans]), hun]
  · rw [ht, (onlyChan_setChan u n nextBatch).2 q hq]
    unfold getChan
    rw [hchans]
  · rw [ht]
    exact countBatch_counts (s := v) hwf n c hq

/-! ## The STATE page (R347) -/

theorem length_flatten_of_lengths {α : Type} {ls : List (List α)} {n : Nat} (h : ∀ l ∈ ls, l.length = n) :
    ls.flatten.length = ls.length * n := by
  rw [List.length_flatten, List.map_congr_left h, List.map_const', List.sum_replicate, smul_eq_mul]

theorem ghPageBytes_length (s : State) (k : Nat) : (ghPageBytes s k).length = 65536 := by
  unfold ghPageBytes
  rw [List.length_append, length_flatten_of_lengths (n := 64), List.length_map, List.length_replicate, upFrom_length]
  intro l hl
  obtain ⟨ch, -, rfl⟩ := List.mem_map.mp hl
  dsimp only
  split
  · exact leBytes_length ..
  · exact List.length_replicate

theorem exec_gatehouseStatePage {s : State} {j : Job} (hj : s.job = some j) {b : BatchDecl} (hb : j.image.batch = some b) :
    exec .gatehouseStatePage s =
      if inStep s ∧ batchReady s j s.status.step.toNat ∧ ¬ refreshHolds s (b.ghPage / 65536) then
        .next (closeStamp (b.ghPage / 65536) (writeGhPage j (s.status.step.toNat + 1 - Desc.firstStep j.desc)
          (putStamp (b.ghPage / 65536) (openStamp s.status.step) s)))
      else .next s := by
  change execGatehouseStatePage s = _
  simp only [execGatehouseStatePage, hj, hb]

theorem closeStamp_closed {s : State} (hwf : SMap.wf 0 s.hbm.stamps = true) (page : Nat) :
    SMap.get 0 (closeStamp page s).hbm.stamps page = s.status.step := by
  have hput : (closeStamp page s).hbm = (putStamp page s.status.step s).hbm := by
    unfold closeStamp
    dsimp only
    split <;> rfl
  rw [hput]
  exact SMap.get_set_same _ _ _ _ hwf

/-- The page written, closed with the step, and everything of the Gatehouse and the job kept. -/
theorem ghPage_written {s : State} {j : Job} {b : BatchDecl} (hb : j.image.batch = some b)
    (hwf : SMap.wf 0 s.hbm.stamps = true) (page k : Nat) :
    let t := closeStamp page (writeGhPage j k (putStamp page (openStamp s.status.step) s))
    devRead t b.ghPage 65536 = ghPageBytes s k ∧ SMap.get 0 t.hbm.stamps page = s.status.step ∧
    t.gatehouse = s.gatehouse ∧ t.job = s.job ∧
    ∀ y m, y + m ≤ b.ghPage ∨ b.ghPage + 65536 ≤ y → devRead t y m = devRead s y m := by
  intro t
  let v := putStamp page (openStamp s.status.step) s
  let w := devWrite b.ghPage (ghPageBytes s k) v
  have ht : t = closeStamp page w := by
    simp only [t, writeGhPage, hb]
    rfl
  have hframe := closeStamp_frame page w
  have hread (y m : Nat) : devRead t y m = devRead w y m := by rw [ht, hframe]; rfl
  have hlength := ghPageBytes_length s k
  refine ⟨?_, ?_, by rw [ht, hframe]; rfl, by rw [ht, hframe]; rfl, fun y m h => ?_⟩
  · rw [hread]
    have hback := devRead_devWrite_same b.ghPage (ghPageBytes s k) v
    rwa [hlength] at hback
  · rw [ht]
    exact closeStamp_closed (s := w) (SMap.wf_set _ _ _ _ hwf) page
  · rw [hread]
    exact devRead_devWrite_other b.ghPage (ghPageBytes s k) v y m (by rwa [hlength])

/-! ## Rebuilding (R348, R395) -/

theorem nthD_mapNumbered {α : Type} (d : α) (f : Nat → α → α) {xs : List α} {q : Nat} (k : Nat) (hq : q < xs.length) :
    nthD d (mapNumbered f k xs) q = f (k + q) (nthD d xs q) := by
  induction xs generalizing k q with
  | nil => cases hq
  | cons x xs ih =>
    cases q with
    | zero => rfl
    | succ q =>
      have h := ih (k + 1) (Nat.lt_of_succ_lt_succ hq)
      rw [Nat.add_right_comm, Nat.add_assoc] at h
      exact h

theorem exec_batchRebuild {s : State} {j : Job} (hj : s.job = some j) :
    exec .batchRebuild s =
      if ghRuns s ∧ mayRebuild s j (s.status.step.toNat - Desc.firstStep j.desc) then
        .next { s with gatehouse := { s.gatehouse with
          chans := mapNumbered (rebuildChan s j (s.status.step.toNat - Desc.firstStep j.desc)) 0 s.gatehouse.chans
          rebuilding := false, fromPage := false } }
      else .next s := by
  change execBatchRebuild s = _
  simp only [execBatchRebuild, hj]

/-- Outside the phases in which the Gatehouse works its commands change nothing. -/
theorem exec_stops {s : State} {j : Job} (hj : s.job = some j) (hruns : ghRuns s = false) (ch : Chan) (d : BitVec 512)
    (bytes : Option (List Byte)) :
    exec (.sampleBytesArrive ch bytes) s = .next s ∧ exec (.reserveEntry ch d bytes) s = .next s ∧
    exec (.batchComplete ch) s = .next s ∧ exec (.reserveListRecord ch d) s = .next s ∧ exec .batchRebuild s = .next s := by
  refine ⟨?_, ?_, ?_, ?_, ?_⟩
  · change execSampleBytesArrive ch bytes s = _
    unfold execSampleBytesArrive
    dsimp only
    split
    · rfl
    · split
      · rfl
      · exact if_neg (by simp [hruns])
  · change execReserveEntry ch d bytes s = _
    unfold execReserveEntry
    dsimp only
    split
    · rfl
    · split
      · rfl
      · exact if_neg (by simp [hruns])
  · change execBatchComplete ch s = _
    simp [execBatchComplete, hj, hruns]
  · rw [exec_reserveListRecord]
    exact if_neg (by simp [hruns])
  · rw [exec_batchRebuild hj]
    exact if_neg (by simp [hruns])

/-! ## The obligation -/

/-- Answers that hold of the channel hold of the state as the statement spells it. -/
theorem Answers.imp {cmd : Instr} {s : State} {P Q : State → Prop} (h : Answers cmd s P) (himp : ∀ t, P t → Q t) :
    Answers cmd s Q := by
  obtain ⟨t, ht, hP⟩ := h
  exact ⟨t, ht, himp t hP⟩

/-- Settles O58: each command changes its channel as the lemmas on a channel say, and what cannot act changes nothing. -/
theorem gatehouseBuildsBatches : Obligations.GatehouseBuildsBatches := by
  intro s j ch d rec bytes x i r b k hj n c only counted placedCount loads dict
  refine ⟨fun h => ?_, fun es fb hloads hdict => ?_, fun h => ?_,
    fun hn hlen => ⟨fun hruns hmay => ?_, fun hruns hon hended hnone => ?_,
    fun hruns hnext hx => ⟨fun hawaits => ?_, fun hidle => ?_⟩, fun hruns hon hended hreserve hnext hb hwf => ?_⟩,
    fun hruns ch' d' b' => exec_stops hj hruns ch' d' b', fun hb => ⟨fun hready hwf => ?_, fun hready => ?_⟩, fun h => ?_,
    fun hfrom hpage => ?_, fun hruns hrebuild hsource => ?_⟩
  · rw [exec_dictionaryLoad hj]
    obtain h | h := h
    · exact if_pos h
    · split
      · rfl
      · change (match dict with | none => _ | some (es, fb) => _) = _
        rw [h]
  · rw [exec_dictionaryLoad hj, if_neg (by rw [show (_ && _) = true from hloads]; decide)]
    change (match dict with | none => _ | some (es, fb) => _) = _
    rw [hdict]
  · rw [exec_sampleDescriptor hj]
    obtain h | h := h
    · exact if_neg fun h' => by simp [h] at h'
    · exact if_neg fun h' => by
        have := h'.2
        rw [show mayTake s j (getChan s ch.val) = false from h] at this
        cases this
  · have hexec := (exec_sampleDescriptor hj ch d).trans (if_pos ⟨hruns, hmay⟩)
    have hanswers {y : Sample} {occ tally : List Nat} (h : Sampled d c y occ tally (takeSample n d c)) :=
      answers_setChan hn hexec (P := Sampled d c y occ tally) h
    refine ⟨fun hbad => ?_, fun hok hlong => ?_, fun hok hshort hrow => ?_,
      fun hok hshort hrow => ⟨fun hcause => ?_, fun hcause => ?_⟩⟩
    · exact (hanswers (takeSample_check hbad)).imp fun t ⟨ho, h⟩ =>
        ⟨⟨ho, h.taken, h.ended, h.batch⟩, ⟨h.samples, h.occ⟩, counted_updNth hlen (by decide) h.tally⟩
    · exact (hanswers (takeSample_length hok hlong)).imp fun t ⟨ho, h⟩ =>
        ⟨⟨ho, h.taken, h.ended, h.batch⟩, ⟨h.samples, h.occ⟩, counted_updNth hlen (by decide) h.tally⟩
    · exact (hanswers (takeSample_unplaced hok hshort hrow)).imp fun t ⟨ho, h⟩ =>
        ⟨⟨ho, h.taken, h.ended, h.batch⟩, ⟨h.samples, h.occ⟩, counted_updNth hlen (by decide) h.tally⟩
    · exact (hanswers (takeSample_placed hok hshort hrow hcause)).imp fun t ⟨ho, h⟩ =>
        ⟨⟨ho, h.taken, h.ended, h.batch⟩, ⟨h.samples, h.occ⟩, counted_same h.tally 0⟩
    · exact (hanswers (takeSample_odd hok hshort hrow hcause)).imp fun t ⟨ho, h⟩ =>
        ⟨⟨ho, h.taken, h.ended, h.batch⟩, ⟨h.samples, h.occ⟩, counted_updNth hlen (causeNo_lt k) h.tally⟩
  · have hexec := (exec_reserveListRecord ch rec s).trans (if_pos ⟨hruns, hon, hended, hnone⟩)
    exact answers_setChan hn hexec (P := fun c' => c'.samples = c.samples ∧
      (listFits rec c = true → (Counted c c' fun q => if q = 9 then 0 else 0) ∧ c'.reserve =
        some ((upFrom 0 (field rec 327 320)).map fun e => field rec (32 * e + 31) (32 * e))) ∧
      (listFits rec c = false → (Counted c c' fun q => if q = 9 then 1 else 0) ∧ c'.reserve = some []))
      (takeRecord_shows hlen rec)
  · have hexec := (exec_sampleBytesArrive hnext hx bytes).trans (if_pos ⟨hruns, hawaits⟩)
    refine ⟨fun e hodd => ?_, fun content len looks tl hgood => ⟨fun hfits => ?_, fun hlong => ?_⟩, ?_⟩
    · exact answers_setChan hn hexec (P := fun c' => (Counted c c' fun q => if q = causeNo e then 1 else 0) ∧
        c'.samples[i]? = some { x with awaiting := false, needsReserve := true }) (takeBytes_odd hlen hx hodd)
    · exact answers_setChan hn hexec (P := fun c' => (Counted c c' fun q =>
        if q = 7 then 0 else if q = 10 then tl.sat else if q = 11 then tl.flush else 0) ∧
        c'.samples[i]? = some { x with awaiting := false, content := some content }) (takeBytes_good hlen hx hgood hfits)
    · exact answers_setChan hn hexec (P := fun c' => (Counted c c' fun q => if q = 4 then 1 else 0) ∧
        c'.samples[i]? = some { x with awaiting := false, needsReserve := true }) (takeBytes_long hlen hx hgood hlong)
    · rw [exec_reserveEntry hnext hx]
      exact if_neg (by simp [hawaits])
  · have hexec := (exec_reserveEntry hnext hx d bytes).trans (if_pos ⟨hruns, by simp [hidle]⟩)
    refine ⟨fun hbad => ?_, fun e hok hodd => ?_, fun content len looks tl hok hgood => ⟨fun hfits => ?_, fun hlong => ?_⟩, ?_⟩
    · exact answers_setChan hn hexec (P := fun c' => (Counted c c' fun q => if q = causeNo k then 1 else 0) ∧
        c'.used = c.used + 1 ∧ c'.samples = c.samples) (takeEntry_bad hlen hbad)
    · exact answers_setChan hn hexec (P := fun c' => (Counted c c' fun q => if q = causeNo e then 1 else 0) ∧
        c'.used = c.used + 1 ∧ c'.samples = c.samples) (takeEntry_odd hlen hok hodd)
    · exact answers_setChan hn hexec (P := fun c' => (Counted c c' fun q =>
        if q = 7 then 1 else if q = 10 then tl.sat else if q = 11 then tl.flush else 0) ∧ c'.used = c.used + 1 ∧
        c'.samples[i]? = some { x with needsReserve := false, content := some content })
        (takeEntry_good hlen hx hok hgood hfits)
    · exact answers_setChan hn hexec (P := fun c' => (Counted c c' fun q => if q = 0 then 0 else 0) ∧ c'.used = c.used + 1 ∧
        c'.samples[i]? = some { x with needsReserve := false }) (takeEntry_long hx hok hgood hlong)
    · rw [exec_sampleBytesArrive hnext hx]
      exact if_neg (by simp [hidle])
  · obtain ⟨hwritten, hother, hchan, hothers, hcounts⟩ := completeBatch_shows hn hb hwf
    refine ⟨_, exec_batchComplete hj hruns hon hended hreserve hnext, hwritten, hother, ?_, ?_, ?_, ?_, ?_, hothers, hcounts⟩
    all_goals rw [hchan]; rfl
  · obtain ⟨⟨hstep, hbatch⟩, hfree⟩ : (inStep s = true ∧ batchReady s j s.status.step.toNat = true) ∧
        refreshHolds s (b.ghPage / 65536) = false := by simpa using hready
    exact ⟨_, (exec_gatehouseStatePage hj hb).trans (if_pos ⟨hstep, hbatch, by simp [hfree]⟩), ghPage_written hb hwf _ _⟩
  · rw [exec_gatehouseStatePage hj hb]
    refine if_neg fun h => ?_
    obtain ⟨hstep, hbatch, hfree⟩ := h
    simp [hstep, hbatch, hfree] at hready
  · rw [exec_batchRebuild hj]
    exact if_neg (by simp [mayRebuild, h])
  · rw [exec_batchRebuild hj]
    refine if_neg fun hgo => ?_
    have hmay := hgo.2
    rw [mayRebuild, hfrom, Bool.not_true, Bool.false_or, show (_ && _ && _) = false from hpage, Bool.and_false] at hmay
    cases hmay
  · have hmay : mayRebuild s j (s.status.step.toNat - Desc.firstStep j.desc) = true := by
      rw [mayRebuild, hrebuild, Bool.true_and, Bool.or_eq_true]
      exact hsource.imp (by simp +contextual) id
    refine ⟨_, (exec_batchRebuild hj).trans (if_pos ⟨hruns, hmay⟩), rfl, fun q hq => ?_⟩
    refine (nthD_mapNumbered GhChan.reset _ 0 hq).trans ?_
    rw [Nat.zero_add]
    rfl

end Sys2Proof.Machine
end
